-- ==== Sys2Proof/Word.lean ====
section
/-! DEFINITION. The word types of the K4: bytes, 64-bit x words, 128-bit guards, 512-byte v registers. -/

namespace Sys2Proof

/-- A byte of memory (R2). -/
abbrev Byte := BitVec 8

/-- A 64-bit x register, CSR or pointer (R125). -/
abbrev Word := BitVec 64

/-- A 32-bit parcel of the instruction sequence (R96). -/
abbrev Parcel := BitVec 32

/-- A guard register: bit i is lane i (R125). -/
abbrev Guard := BitVec 128

/-- A 512-byte v register or block: byte 0 is the least significant (R1, R121). -/
abbrev Block := BitVec 4096

end Sys2Proof
end

