-- ==== Sys2Proof/Syntax.lean ====
section
/-! DEFINITION. The whole syntax: one constructor per row of the operation table. Register fields and immediates keep
the widths of the encodings; class-E instructions carry the fields of R100-R102 by name. -/

namespace Sys2Proof.Machine

/-- An entry of an acquire set (R281): the variable or job record, the releasing agent, its tag. -/
structure Acq where
  var : Nat
  agent : Nat
  tag : Nat
  deriving DecidableEq, Repr

/-- What R299 and R309 check an access by: the agent, its acquire set (oldest first), the barrier arrivals it is ordered
after, and the lost bit. -/
structure Sync where
  agent : Nat
  acq : List Acq
  bars : List Acq
  lost : Bool
  deriving DecidableEq, Repr

/-- An xfence that has been made (R289), with what its context was ordered after then. -/
structure XFence where
  src : BitVec 8
  dst : BitVec 8
  sync : Sync
  rel : Nat
  tick : Nat
  stamp : Nat
  deriving DecidableEq, Repr

end Sys2Proof.Machine

namespace Sys2Proof

/-- Operand B of a class-A instruction, or the offset of a memory operand (R104, R137): a register (short), IMM23
(medium) or LIT32 (long, with its HINT). -/
inductive OpB where
  | reg (b : BitVec 5)
  | imm (i : BitVec 23)
  | lit (hint : BitVec 7) (l : BitVec 32)
  deriving DecidableEq, Repr

/-- Operand B where the opcode has no long form (R115): register or IMM23. -/
inductive OpBSM where
  | reg (b : BitVec 5)
  | imm (i : BitVec 23)
  deriving DecidableEq, Repr

/-- The immediate of li and lia (R142): IMM23 or LIT32. -/
inductive Imm where
  | imm (i : BitVec 23)
  | lit (hint : BitVec 7) (l : BitVec 32)
  deriving DecidableEq, Repr

/-- The three lengths of nop (R142). -/
inductive NopForm where
  | short
  | medium
  | long (hint : BitVec 7)
  deriving DecidableEq, Repr

/-- The fields that the medium and long forms of a class-E instruction add (R101, R102). -/
inductive EForm where
  | short
  | medium (gn : Bool) (lp : BitVec 3) (lpa : BitVec 5) (imm : BitVec 23)
  | long (gn : Bool) (lp : BitVec 3) (lpa : BitVec 5) (hint : BitVec 7)
      (asrc bsrc sfmt dfmt : BitVec 4) (lit : BitVec 32)
  deriving DecidableEq, Repr

/-- The fields of a class-E instruction, by their names in R100-R102. -/
structure EArgs where
  g : BitVec 3
  fn : BitVec 4
  b : BitVec 5
  a : BitVec 5
  d : BitVec 5
  form : EForm
  deriving DecidableEq, Repr

/-- The conditions of bc (R143). -/
inductive BCond where
  | eq | ne | lt | ge | ltn | gen
  deriving DecidableEq, Repr

/-- The width codes of ld and lds (R148). -/
inductive LdW where
  | i8 | i16 | i32 | i64 | n8 | n16 | n32
  deriving DecidableEq, Repr

/-- The width codes of st and sts (R148). -/
inductive StW where
  | i8 | i16 | i32 | i64
  deriving DecidableEq, Repr

/-- The operation of amo (R284). -/
inductive AmoOp where
  | add | min | max | and | or | xor | xchg
  deriving DecidableEq, Repr

/-- The order of an order word (R285). -/
inductive MemOrd where
  | relaxed | acq | rel | acqrel
  deriving DecidableEq, Repr

/-- The six scopes (R84, R279). -/
inductive Scope where
  | ln | co | cl | di | pk | pd
  deriving DecidableEq, Repr

/-- The four slot transitions (R68). -/
inductive SlotOp where
  | claim | publish | take | free
  deriving DecidableEq, Repr

/-- What csrx does (R325). -/
inductive CsrxOp where
  | swap | set | clr
  deriving DecidableEq, Repr

/-- How a CSR with a row of its own is written: by csrw or by csrx with its destination (R325). -/
inductive CsrWr where
  | csrw
  | csrx (op : CsrxOp) (d : BitVec 5)
  deriving DecidableEq, Repr

/-- The engines of a cluster, by their codes in a mesh address (R230). -/
inductive Eng where
  | cpy | ixe | mxe | pfe | cvr
  deriving DecidableEq, Repr

/-- The registers a mailbox command starts with (R347): the virtual function of MBCTL, MBARG and MBRES. -/
structure MbCmd where
  vf : Nat
  arg : Word
  res : Word
  deriving DecidableEq, Repr

/-- A write that crosses the device fabric: its fabric tag (R310), where it goes; the sending agent as its device numbers it, the release
number that the write is made with, for a job those of its sender's context too, and what its accesses are checked by (R299, R313); the
xfences that it may cross paths by, each with the jobs whose writes were adopted before it (R289, R315); for a flag or an arrival at a pod
barrier the tag that it releases (R291, R295); the adopted jobs that it is ordered after or whose writes it releases: the job, the agent,
the adopting release (R314); the value of an arrival (R291); how many rows of a copy follow, at what stride, and the slot that it
publishes then (R210); the agents whose entries are to be dropped, up to a release where not all (R303); and whether it is an
acknowledgement (R310). -/
structure FabWrite where
  src : Nat
  stream : Nat
  seq : Nat
  dst : Nat
  vf : Nat
  ptr : Word
  data : List Byte
  flag : Bool
  agent : Nat
  rel : Nat
  own : Nat
  ownRel : Nat
  syncs : List Machine.Sync
  fences : List (Machine.XFence × List Nat)
  tag : Nat
  adopts : List (Nat × Nat × Nat)
  value : Option Word
  more : Nat × Int
  slot : Option Word
  due : Nat
  ends : List (Nat × Option Nat)
  ack : Bool
  deriving DecidableEq, Repr

/-- A write as its sender builds it; the fabric adds its device and its sequence (R310). -/
def FabWrite.new (stream dst vf : Nat) (ptr : Word) (data : List Byte) : FabWrite :=
  { src := 0, stream := stream, seq := 0, dst := dst, vf := vf, ptr := ptr, data := data, flag := false, agent := 0, rel := 0, own := 0,
    ownRel := 0, syncs := [], fences := [], tag := 0, adopts := [], value := none, more := (0, 0), slot := none, due := 0, ends := [], ack := false }

/-- Where an uncorrectable soft error falls (R318, R343): an instruction of a context consumed it; core storage that
no instruction consumed; an engine's storage; escrow. -/
inductive SoftErr where
  | context (core ctx : Nat)
  | storage (core : Nat)
  | engine (cluster : Nat) (e : Eng)
  | escrow (core : Nat)
  deriving DecidableEq, Repr

/-- The instructions of the K4 and the events of its table: one constructor per row of the operation table. -/
inductive Instr where
  -- class A: integer and address arithmetic (R138-R142)
  | nop (f : NopForm)
  | add (d a : BitVec 5) (b : OpB)
  | sub (d a : BitVec 5) (b : OpB)
  | mul (d a : BitVec 5) (b : OpB)
  | mulh (u : Bool) (d a : BitVec 5) (b : OpB)
  | div (u : Bool) (d a : BitVec 5) (b : OpB)
  | rem (u : Bool) (d a : BitVec 5) (b : OpB)
  | and (d a : BitVec 5) (b : OpB)
  | or (d a : BitVec 5) (b : OpB)
  | xor (d a : BitVec 5) (b : OpB)
  | andn (d a : BitVec 5) (b : OpB)
  | shl (d a : BitVec 5) (b : OpB)
  | shr (d a : BitVec 5) (b : OpB)
  | sra (d a : BitVec 5) (b : OpB)
  | rot (d a : BitVec 5) (b : OpB)
  | min (u : Bool) (d a : BitVec 5) (b : OpB)
  | max (u : Bool) (d a : BitVec 5) (b : OpB)
  | slt (u : Bool) (d a : BitVec 5) (b : OpB)
  | seq (d a : BitVec 5) (b : OpB)
  | sel (d a b : BitVec 5)
  | clz (d a : BitVec 5)
  | ctz (d a : BitVec 5)
  | pop (d a : BitVec 5)
  | bfx (i : Bool) (d a b : BitVec 5)
  | bfxImm (i : Bool) (d a : BitVec 5) (pos : BitVec 6) (len : BitVec 7)
  | bfi (d a b : BitVec 5)
  | bfiImm (d a : BitVec 5) (pos : BitVec 6) (len : BitVec 7)
  | li (hi : Bool) (d : BitVec 5) (v : Imm)
  | lia (d : BitVec 5) (v : Imm)
  | mac (d a : BitVec 5) (b : OpB)
  | xmint (h : Bool) (d a : BitVec 5) (b : OpB)
  -- class A: control flow (R143-R147)
  | b (off : BitVec 23)
  | bc (c : BCond) (a b : BitVec 5) (off : BitVec 23)
  | bz (nz : Bool) (a : BitVec 5) (off : BitVec 23)
  | j (a : BitVec 5)
  | call (d a : BitVec 5)
  | callLabel (d : BitVec 5) (off : BitVec 23)
  | ret (a : BitVec 5)
  | loop (d : BitVec 5) (off : BitVec 23)
  | bqe (z : Bool) (d : BitVec 5) (off : BitVec 23)
  -- class A: memory, queues, caches (R148-R162)
  | ld (w : LdW) (d a : BitVec 5) (b : OpB)
  | st (w : StW) (d a : BitVec 5) (b : OpB)
  | lds (w : LdW) (d a : BitVec 5) (b : OpB)
  | sts (w : StW) (d a : BitVec 5) (b : OpB)
  | ldq (q : BitVec 2) (a : BitVec 5) (b : OpB)
  | stq (q5 : Bool) (a : BitVec 5) (b : OpB)
  | ldsq (q : BitVec 2) (a : BitVec 5) (b : OpB)
  | stsq (q5 : Bool) (a : BitVec 5) (b : OpB)
  | pfx (cl : Bool) (a : BitVec 5) (b : OpBSM)
  | pushq (a : BitVec 5)
  | popq (d : BitVec 5)
  | qstat (d : BitVec 5) (q : Option (BitVec 3))
  | cln (a : BitVec 5) (b : OpBSM)
  | inv (a : BitVec 5) (b : OpBSM)
  -- class E (R163-R192)
  | vadd (e : EArgs)
  | vsub (e : EArgs)
  | vmul (e : EArgs)
  | vfma (e : EArgs)
  | vfms (e : EArgs)
  | vfnma (e : EArgs)
  | vmin (e : EArgs)
  | vmax (e : EArgs)
  | vabs (e : EArgs)
  | vneg (e : EArgs)
  | vabd (e : EArgs)
  | vavg (e : EArgs)
  | vclamp (e : EArgs)
  | vaddw (e : EArgs)
  | vmulw (e : EArgs)
  | vdot (e : EArgs)
  | vmulh (e : EArgs)
  | vadds (e : EArgs)
  | vsubs (e : EArgs)
  | vmac (e : EArgs)
  | vcopysign (e : EArgs)
  | vdiv (e : EArgs)
  | vsqrt (e : EArgs)
  | vrcp (e : EArgs)
  | vrsqrt (e : EArgs)
  | vexp2 (e : EArgs)
  | vlog2 (e : EArgs)
  | vsinp (e : EArgs)
  | vcosp (e : EArgs)
  | vtanh (e : EArgs)
  | vsigm (e : EArgs)
  | vfloor (e : EArgs)
  | vand (e : EArgs)
  | vor (e : EArgs)
  | vxor (e : EArgs)
  | vandn (e : EArgs)
  | vnot (e : EArgs)
  | vshl (e : EArgs)
  | vshr (e : EArgs)
  | vsra (e : EArgs)
  | vrot (e : EArgs)
  | vpop (e : EArgs)
  | vclz (e : EArgs)
  | vbsel (e : EArgs)
  | vbfx (e : EArgs)
  | vcmp (e : EArgs)
  | vclass (e : EArgs)
  | gand (e : EArgs)
  | gor (e : EArgs)
  | gxor (e : EArgs)
  | gnot (e : EArgs)
  | gmov (e : EArgs)
  | gcnt (e : EArgs)
  | gfirst (e : EArgs)
  | gset (e : EArgs)
  | vcvt (e : EArgs)
  | vwiden (e : EArgs)
  | vnarrow (e : EArgs)
  | vpack (e : EArgs)
  | vunpack (e : EArgs)
  | vscale (e : EArgs)
  | vqnt (e : EArgs)
  | fmtld (e : EArgs)
  | vmov (e : EArgs)
  | vsplat (e : EArgs)
  | vperm (e : EArgs)
  | vext (e : EArgs)
  | vins (e : EArgs)
  | vsel (e : EArgs)
  | vcompress (e : EArgs)
  | vexpand (e : EArgs)
  | vscan (e : EArgs)
  | vred (e : EArgs)
  | vtopk (e : EArgs)
  | vmint (e : EArgs)
  | vidx (e : EArgs)
  | vpush (e : EArgs)
  | vpull (e : EArgs)
  -- class E: scratch pointers, repetition, fixed units (R193-R203)
  | kset (k : BitVec 3) (addr : BitVec 32) (stride : BitVec 16) (hint : BitVec 7)
  | kget (e : EArgs)
  | vlds (e : EArgs)
  | vsts (e : EArgs)
  | vldsx (e : EArgs)
  | vstsx (e : EArgs)
  | rep (n : BitVec 5) (count : BitVec 13) (stride : BitVec 5)
  | zmov (e : EArgs)
  | zset (e : EArgs)
  | vtex (e : EArgs)
  | vwind (e : EArgs)
  -- class X: engines, atomics, synchronisation (R279-R295), launch (R82), sections (R272)
  | emsg (d a b : BitVec 5)
  | jtest (d a : BitVec 5)
  | jwait (d a : BitVec 5)
  | amo (w64 : Bool) (op : AmoOp) (d a b : BitVec 5)
  | amoOrdered (w64 : Bool) (op : AmoOp) (ord : MemOrd) (sc : Scope) (d a b : BitVec 5)
  | cas (w64 : Bool) (d a b : BitVec 5)
  | casOrdered (w64 : Bool) (ord : MemOrd) (sc : Scope) (d a b : BitVec 5)
  | wacc (d a b : BitVec 5)
  | waccImm (w : BitVec 16) (a b : BitVec 5)
  | ldacq (w64 : Bool) (sc : Scope) (d a : BitVec 5) (b : OpBSM)
  | strel (w64 : Bool) (sc : Scope) (d a : BitVec 5) (b : OpBSM)
  | fence (sc : Scope)
  | xfence (src dst : BitVec 8)
  | bar (sc : Scope)
  | barv (mx : Bool) (sc : Scope) (d a : BitVec 5)
  | barwArr (sc : Scope) (d : BitVec 5)
  | barwWt (sc : Scope) (a : BitVec 5)
  | wfe (d a : BitVec 5)
  | sev (a b : BitVec 5)
  | deccnt (d a : BitVec 5)
  | setcnt (a b : BitVec 5)
  | slotadv (t : SlotOp) (d a : BitVec 5)
  | ordent (d a : BitVec 5)
  | ordentRsv (a : BitVec 5)
  | ordlv (a : BitVec 5)
  | trel (n : BitVec 5) (d a b : BitVec 5)
  | phcrd (sec : Bool) (d : BitVec 5)
  | launch (nw : Bool) (d a b : BitVec 5)
  -- class S (R94, R221-R225, R278, R325-R331, R334)
  | csrr (d : BitVec 5) (csr : BitVec 12)
  | csrw (csr : BitVec 12) (a : BitVec 5)
  | csrx (op : CsrxOp) (d : BitVec 5) (csr : BitVec 12) (a : BitVec 5)
  | cohmodeWrite (w : CsrWr) (a : BitVec 5)
  | bndtWrite (w : CsrWr) (a : BitVec 5)
  | trapN (n : BitVec 23)
  | start (d b : BitVec 5) (off : BitVec 23)
  | hwait (a : BitVec 5)
  | carve (d a : BitVec 5)
  | rets (sc : Scope) (a : BitVec 5)
  | xlinvPg (a : BitVec 5)
  | ctxsv (d a : BitVec 5)
  | ctxld (kill : Bool) (d a b : BitVec 5)
  | logrp (d a : BitVec 5)
  | idle (d : BitVec 5)
  | cload (d a b : BitVec 5)
  | residPin (d a : BitVec 5)
  | residUnpin (d a : BitVec 5)
  | residDemote (d a : BitVec 5)
  | residEvict (d a : BitVec 5)
  | wdead (a : BitVec 5)
  -- events of the contexts, queue managers and slices
  | streamDeadlock (core ctx : Nat)
  | budgetOverrun (core : Nat)
  | doorbell (vf q slot : Nat)
  | launchQueueTake (die : Nat)
  | groupStart (die : Nat)
  | shareRecompute (die : Nat)
  | counterSubmit (i : Nat)
  | launchCompletion (lid : Nat)
  | reservationRelease (die : Nat)
  | preemption (core : Nat)
  | resumption (gid : Nat)
  | worldSwitchSliceEnd (core : Nat)
  | barrierPhaseComplete (i : Nat)
  | orderedSectionGrant (i : Nat)
  -- events of the engines
  | jobCompletion (cluster : Nat) (e : Eng)
  | copy (cluster : Nat)
  | gather (cluster : Nat)
  | mloadw (cluster : Nat)
  | mloadb (cluster : Nat)
  | mma (cluster : Nat)
  | mmab (cluster : Nat)
  | mepi (cluster : Nat)
  | traverse (cluster : Nat)
  | sweepup (cluster : Nat)
  | sweepdn (cluster : Nat)
  | pfeEmitEntry (cluster i : Nat)
  | sweepCounterDecrement (cluster : Nat)
  | raster (cluster : Nat)
  -- events of the clock, counters, fabric and host
  | refreshWindowEnd (die bank : Nat)
  | trelFire (i : Nat)
  | pmcOverflow (core n : Nat)
  | notifyOverflowDrain (vf : Nat)
  | fabricWriteArrival (w : FabWrite)
  | linkFailure (link : Nat)
  | ptpEventMessage (port : Nat) (stamp : Nat)
  | hostRead (pa n : Nat)
  | hostWrite (pa : Nat) (data : List Byte)
  | vfcfg (m : MbCmd)
  | vfreset (m : MbCmd)
  | capiss (m : MbCmd)
  | csload (m : MbCmd) (etype num : Nat) (image sig : List Byte)
  | attest (m : MbCmd)
  | resync (m : MbCmd)
  | podbar (m : MbCmd) (pod count : Nat) (rec : Word)
  | phcsetProfile (m : MbCmd)
  | phcsetStep (m : MbCmd)
  | phcsetSlew (m : MbCmd)
  | tshare (m : MbCmd) (cores vfs : List Nat) (slice : Nat)
  | linkctl (m : MbCmd) (dev links : Nat)
  | pwrlim (m : MbCmd)
  | decodeTrap (cause : Nat)
  | uncorrectableSoftError (w : SoftErr)
  -- without operands, from all the families above
  | yield
  | tsbret
  | trap
  | eret
  | hend
  | retire
  | xlinvAll
  | xlinvBnd
  | brk
  | powerGood
  | thermalTrip
  | holdover
  deriving DecidableEq, Repr

end Sys2Proof
end

