-- ==== Sys2Proof/Machine/Forms.lean ====
section
/-! DEFINITION. The legality of fields: what R103-R116 and each definition accept, stated once for every class-E
opcode by a shape, and for the other classes field by field. -/

namespace Sys2Proof

/-- The element width of a type code of R19; none for fm, whose width an FMT register gives, and for reserved codes. -/
def typeWidth (t : Nat) : Option Nat :=
  match t with
  | 0 | 3 | 7 => some 32
  | 1 | 2 | 4 | 8 => some 16
  | 5 | 9 => some 8
  | 6 | 10 => some 4
  | _ => none

def isFloatCode (t : Nat) : Bool := t == 0 || t == 1 || t == 2 || t == 11
def isSignedCode (t : Nat) : Bool := t == 3 || t == 4 || t == 5 || t == 6
def isUnsignedCode (t : Nat) : Bool := t == 7 || t == 8 || t == 9 || t == 10
def isIntCode (t : Nat) : Bool := isSignedCode t || isUnsignedCode t

/-- The accessors of the class-E fields; a field that a form does not have reads 0 (R102, R105). -/
def EArgs.gn (e : EArgs) : Bool :=
  match e.form with | .short => false | .medium gn _ _ _ => gn | .long gn _ _ _ _ _ _ _ _ => gn
def EArgs.lp (e : EArgs) : BitVec 3 :=
  match e.form with | .short => 0 | .medium _ lp _ _ => lp | .long _ lp _ _ _ _ _ _ _ => lp
def EArgs.lpa (e : EArgs) : BitVec 5 :=
  match e.form with | .short => 0 | .medium _ _ lpa _ => lpa | .long _ _ lpa _ _ _ _ _ _ => lpa
def EArgs.asrc (e : EArgs) : BitVec 4 :=
  match e.form with | .short => 0 | .medium .. => 0 | .long _ _ _ _ asrc _ _ _ _ => asrc
def EArgs.bsrc (e : EArgs) : BitVec 4 :=
  match e.form with | .short => 0 | .medium .. => 0 | .long _ _ _ _ _ bsrc _ _ _ => bsrc
def EArgs.sfmt (e : EArgs) : BitVec 4 :=
  match e.form with | .short => 0 | .medium .. => 0 | .long _ _ _ _ _ _ sfmt _ _ => sfmt
def EArgs.dfmt (e : EArgs) : BitVec 4 :=
  match e.form with | .short => 0 | .medium .. => 0 | .long _ _ _ _ _ _ _ dfmt _ => dfmt

/-- The immediate or literal as unsigned bits: IMM23, LIT32, or 0 in the short form (R166, R176, R188). -/
def EArgs.immU (e : EArgs) : Nat :=
  match e.form with | .short => 0 | .medium _ _ _ i => i.toNat | .long _ _ _ _ _ _ _ _ l => l.toNat
/-- The same, sign-extended (R188, vidx). -/
def EArgs.immI (e : EArgs) : Int :=
  match e.form with | .short => 0 | .medium _ _ _ i => i.toInt | .long _ _ _ _ _ _ _ _ l => l.toInt
/-- The number of bytes of the instruction (R97). -/
def EArgs.size (e : EArgs) : Nat :=
  match e.form with | .short => 4 | .medium .. => 8 | .long .. => 12
def EArgs.isShort (e : EArgs) : Bool := match e.form with | .short => true | _ => false
def EArgs.isLong (e : EArgs) : Bool := match e.form with | .long .. => true | _ => false

/-- The type word's source and destination codes (R166). -/
def EArgs.stCode (e : EArgs) : Nat := e.immU % 16
def EArgs.dtCode (e : EArgs) : Nat := e.immU / 16 % 16

/-- What FN holds. -/
inductive FnKind where
  | codes (l : List Nat)       -- a type or a variant among the listed codes
  | other (l : List Nat)       -- a value among the listed ones that is no type
  deriving DecidableEq, Repr

/-- What D, A and B name. -/
inductive RegKind where
  | v                          -- a v register; for A and B a vector source that ASRC or BSRC may replace
  | vgrp (r : Nat)             -- a register group or pair, no other source
  | g | k | z
  | fmt                        -- FMT0-FMT15
  | pushq                      -- q4 or q5
  | op3                        -- 0 add, 1 min, 2 max
  | u                          -- the words of stochastic rounding, present when FN is 5
  | zero
  deriving DecidableEq, Repr

/-- What IMM23 or LIT32 holds. -/
inductive ImmKind where
  | zero                       -- no operand: both zero
  | tword (st dt : List Nat)   -- a type word with its accepted codes
  | lit                        -- a class-E literal of the element width
  | bfx | index | topk | any | gset | zmov | zset | vtex
  deriving DecidableEq, Repr

/-- How type fm may use the format indexes (R168). -/
inductive FmKind where
  | no                         -- no fm operand: both zero
  | free                       -- sfmt and dfmt each for its side
  | same                       -- dfmt must equal sfmt
  | srcOnly                    -- dfmt zero
  | dstOnly                    -- sfmt zero
  deriving DecidableEq, Repr

/-- The shape of a class-E opcode: legal lengths and what each field accepts. -/
structure EShape where
  s : Bool := true
  m : Bool := true
  l : Bool := true
  fn : FnKind
  d : RegKind := .v
  a : RegKind := .v
  b : RegKind := .zero
  imm : ImmKind := .zero
  fm : FmKind := .no
  guarded : Bool := true       -- false: G and GN must be 0
  deriving DecidableEq, Repr

def tyF : List Nat := [0, 1, 2, 11]
def tyI : List Nat := [3, 4, 5, 6]
def tyN : List Nat := [7, 8, 9, 10]
def tyIN : List Nat := tyI ++ tyN
def tyAll : List Nat := [0, 1, 2, 3, 4, 5, 6, 7, 8, 9, 10, 11]
def tyWide : List Nat := [4, 5, 6, 8, 9, 10, 1, 2]
def tyBits : List Nat := [0, 1, 2, 3, 4, 5, 6, 7, 8, 9, 10]
def ty3216 : List Nat := [0, 1, 2, 3, 4, 7, 8]
def modes : List Nat := [0, 1, 2, 3, 4, 5]

/-- Two-source and one-source arithmetic over the listed types. -/
def arith2 (l : List Nat) : EShape := { fn := .codes l, b := .v, fm := .free }
def arith1 (l : List Nat) : EShape := { fn := .codes l, fm := .free }
def guard2 : EShape := { fn := .other [0], d := .g, a := .g, b := .g }
def guard1 : EShape := { fn := .other [0], d := .g, a := .g }

/-- The shape of each assigned class-E opcode (R115, R169-R203). -/
def eShape (op : Nat) : Option EShape :=
  match op with
  | 0x40 | 0x41 | 0x42 => some (arith2 tyAll)
  | 0x43 | 0x44 | 0x45 => some (arith2 tyF)
  | 0x46 | 0x47 => some (arith2 tyAll)
  | 0x48 | 0x49 => some { fn := .codes tyAll, fm := .same }
  | 0x4A | 0x4B | 0x4C => some (arith2 tyAll)
  | 0x4D | 0x4E => some { fn := .codes tyWide, d := .vgrp 2, b := .v }
  | 0x4F => some { fn := .codes (tyWide ++ [11]), b := .v, fm := .srcOnly }
  | 0x50 | 0x51 | 0x52 => some (arith2 tyIN)
  | 0x53 => some (arith2 tyAll)
  | 0x54 => some { fn := .codes tyF, b := .v, fm := .same }
  | 0x55 => some (arith2 tyAll)
  | 0x56 | 0x57 | 0x58 | 0x59 | 0x5A | 0x5B | 0x5C | 0x5D | 0x5E => some (arith1 tyF)
  | 0x5F => some { fn := .other [0, 1, 2, 3, 4], imm := .tword tyF [0], fm := .free }
  | 0x60 | 0x61 | 0x62 | 0x63 => some { fn := .codes tyBits, b := .v }
  | 0x64 => some { fn := .codes tyBits }
  | 0x65 | 0x66 | 0x67 | 0x68 => some { fn := .codes tyIN, b := .v }
  | 0x69 | 0x6A => some { fn := .codes tyIN }
  | 0x6B => some { fn := .codes tyBits, b := .v }
  | 0x6C => some { fn := .codes tyIN, imm := .bfx }
  | 0x70 => some { fn := .other [0, 1, 2, 3, 4, 5, 6, 7], d := .g, b := .v, imm := .tword tyAll [0], fm := .srcOnly }
  | 0x71 => some { fn := .codes tyF, fm := .srcOnly }
  | 0x72 | 0x73 | 0x74 => some guard2
  | 0x75 | 0x76 | 0x78 => some guard1
  | 0x77 => some { fn := .other [0], d := .zero, a := .g }
  | 0x79 => some { fn := .other [0], d := .g, a := .zero, imm := .gset }
  | 0x80 => some { fn := .other modes, b := .u, imm := .tword tyAll tyAll, fm := .free }
  | 0x81 => some { fn := .other [0], d := .vgrp 1, imm := .tword tyAll tyAll, fm := .free }
  | 0x82 => some { fn := .other modes, a := .vgrp 1, b := .u, imm := .tword tyAll tyAll, fm := .free }
  | 0x83 | 0x84 => some { s := false, m := false, fn := .codes [11], fm := .same, guarded := false }
  | 0x85 => some { fn := .codes [0, 1, 2], b := .v }
  | 0x86 => some { s := false, m := false, fn := .other modes, b := .u, fm := .dstOnly }
  | 0x87 => some { fn := .other [0], d := .fmt, guarded := false }
  | 0x90 => some { fn := .codes tyAll, fm := .same }
  | 0x91 => some { s := false, m := false, fn := .codes tyAll, a := .zero, imm := .lit, fm := .same }
  | 0x92 => some { fn := .codes ty3216, b := .v }
  | 0x93 => some { fn := .codes tyAll, d := .zero, imm := .index, fm := .same, guarded := false }
  | 0x94 => some { fn := .codes tyAll, a := .zero, imm := .index, fm := .same }
  | 0x95 => some { fn := .codes tyAll, b := .v, fm := .same }
  | 0x96 | 0x97 => some { fn := .codes tyAll, fm := .same }
  | 0x98 | 0x99 => some { fn := .codes tyAll, b := .op3, fm := .same }
  | 0x9A => some { fn := .codes ty3216, d := .vgrp 2, imm := .topk }
  | 0x9B => some { fn := .codes [7, 8], a := .zero }
  | 0x9C => some { fn := .codes tyIN, a := .zero, imm := .any }
  | 0x9D => some { fn := .other [0], d := .pushq, guarded := false }
  | 0x9E => some { fn := .codes tyAll, a := .zero, fm := .same }
  | 0xA1 => some { m := false, l := false, fn := .other [0], d := .zero, a := .k }
  | 0xA2 => some { fn := .codes tyAll, a := .k, fm := .free }
  | 0xA3 => some { fn := .codes tyAll, d := .k, fm := .free }
  | 0xA4 => some { fn := .codes [0, 3, 7], a := .k, b := .v }
  | 0xA5 => some { fn := .codes [0, 3, 7], d := .k, b := .v }
  | 0xA7 => some { fn := .other [0, 1, 2, 7], a := .z, imm := .zmov }
  | 0xA8 => some { fn := .other [0, 1], d := .z, imm := .zset, guarded := false }
  | 0xA9 => some { s := false, fn := .codes [0], d := .vgrp 2, b := .v, imm := .vtex }
  | 0xAA => some { fn := .other [0, 1] }
  | _ => none

/-- The lengths of R115. -/
def EShape.lenOk (sh : EShape) (e : EArgs) : Bool :=
  match e.form with | .short => sh.s | .medium .. => sh.m | .long .. => sh.l

/-- The FN values that the definition lists (R116). -/
def EShape.fnOk (sh : EShape) (e : EArgs) : Bool :=
  match sh.fn with | .codes l => l.contains e.fn.toNat | .other l => l.contains e.fn.toNat

/-- The source and destination type codes; 15 where the instruction has none. -/
def EShape.srcTy (sh : EShape) (e : EArgs) : Nat :=
  match sh.imm, sh.fn with
  | .tword _ _, _ => e.stCode
  | _, .codes _ => e.fn.toNat
  | _, _ => 15
def EShape.dstTy (sh : EShape) (e : EArgs) : Nat :=
  match sh.fm, sh.imm, sh.fn with
  | .dstOnly, _, _ => 11
  | .srcOnly, _, _ => 15
  | _, .tword _ dt, _ => if dt == [0] then e.stCode else e.dtCode
  | _, _, .codes _ => e.fn.toNat
  | _, _, _ => 15

/-- R20, R168: fm needs the long form; an index is zero outside fm; equal indexes where R168 asks for them. -/
def EShape.fmOk (sh : EShape) (e : EArgs) : Bool :=
  let sf := sh.srcTy e == 11
  let df := sh.dstTy e == 11
  (!(sf || df) || e.isLong) && (sf || e.sfmt == 0) && (df || e.dfmt == 0) &&
    (sh.fm != .same || e.sfmt == e.dfmt)

/-- The field D (R106, R165). -/
def EShape.dOk (sh : EShape) (e : EArgs) : Bool :=
  match sh.d with
  | .v | .u | .op3 => true
  | .vgrp r => r != 0 && e.d.toNat % r == 0
  | .g | .k => e.d.toNat < 8
  | .z => e.d.toNat < 4
  | .fmt => e.d.toNat < 16
  | .pushq => e.d.toNat < 8 && e.d.toNat != 6
  | .zero => e.d == 0

/-- ASRC and BSRC (R113): a source code on a vector source only, with the register field zero. -/
def srcOk (src : BitVec 4) (reg : BitVec 5) (vector : Bool) : Bool :=
  src == 0 || (vector && src.toNat ≤ 12 && reg == 0)

/-- zset.clr has no vector source; zset.row has one (R200). -/
def EShape.aIsVec (sh : EShape) (e : EArgs) : Bool :=
  sh.a == .v && !(sh.d == .z && e.fn == 0)

/-- The field A and ASRC. -/
def EShape.aOk (sh : EShape) (e : EArgs) : Bool :=
  srcOk e.asrc e.a (sh.aIsVec e) &&
  match sh.a with
  | .v => sh.aIsVec e || e.a == 0
  | .vgrp _ => true
  | .g | .k => e.a.toNat < 8
  | .z => e.a.toNat < 4
  | _ => e.a == 0

/-- The field B and BSRC (R163, R180, R190). -/
def EShape.bOk (sh : EShape) (e : EArgs) : Bool :=
  srcOk e.bsrc e.b (sh.b == .v || (sh.b == .u && e.fn == 5)) &&
  match sh.b with
  | .v => true
  | .g => e.b.toNat < 8
  | .op3 => e.b.toNat < 3
  | .u => e.fn == 5 || e.b == 0
  | _ => e.b == 0

/-- LP and LPA (R110, R111): a pattern needs a vector source to apply to. That of vldsx, whose only vector source is B, is B (log 95,
DEDUCED). -/
def EShape.lpOk (sh : EShape) (e : EArgs) : Bool :=
  let target := sh.b == .v || (sh.b == .u && e.fn == 5) || sh.aIsVec e || (match sh.a with | .vgrp _ => true | _ => false)
  match e.lp.toNat with
  | 0 => e.lpa == 0
  | 1 | 3 | 4 => target
  | 2 => target && e.lpa == 0
  | _ => false

/-- vbfx's control word at element width w (R176). -/
def bfxCtlOk (w c : Nat) : Bool := c < 2048 && c % 32 < w && c / 32 ≤ w

/-- The immediate (R105, R166, R176, R179, R188, R191, R200-R202). A check that needs an FMT register is left to
execution (R188). -/
def EShape.immOk (sh : EShape) (e : EArgs) : Bool :=
  let f := e.immU
  let w := typeWidth e.fn.toNat
  match sh.imm with
  | .zero => f == 0
  | .tword st dt => f < 256 && st.contains e.stCode && dt.contains e.dtCode
  | .lit => match w with | some w => f < 2 ^ w | none => true
  | .bfx => match w with | some w => bfxCtlOk w f | none => false
  | .index => match w with | some w => f < 4096 / w | none => true
  | .topk => match w with | some w => 1 ≤ f && f ≤ 4096 / w | none => false
  | .any => true
  | .gset => f ≤ 128
  | .zmov => f < 512 && f / 128 < 3 && (f / 128 == 0 || e.fn == 7)
  | .zset => f < 128 && (e.fn == 1 || f == 0)
  | .vtex => f < 256

/-- vwiden and vnarrow between two types of fixed width (R182). -/
def widenOk (st dt : Nat) : Bool :=
  ((isSignedCode st && isSignedCode dt) || (isUnsignedCode st && isUnsignedCode dt) ||
    (isFloatCode st && isFloatCode dt && dt != 11)) &&
  match typeWidth st, typeWidth dt with
  | some ws, some wd => wd == 2 * ws || wd == 4 * ws
  | _, _ => true
def narrowOk (st dt : Nat) : Bool :=
  match typeWidth st, typeWidth dt with
  | some ws, some wd => ws == 2 * wd || ws == 4 * wd
  | _, _ => true

/-- The number of registers of a group whose elements are wa wide against wb (R165). -/
def groupSize (wa wb : Nat) : Nat := if wb == 0 then 0 else wa / wb

/-- The registers that hold the words of stochastic rounding for n elements (R181). -/
def uRegs (n : Nat) : Nat := (n + 127) / 128

/-- R181 on B: g registers, B a multiple of g, and BSRC only with g = 1. -/
def uOk (e : EArgs) (n : Nat) : Bool :=
  e.fn != 5 || (e.b.toNat % uRegs n == 0 && (uRegs n == 1 || e.bsrc == 0))

/-- The checks of vcvt, vwiden and vnarrow that need both widths, where FN and the type word fix them. -/
def convOk (op : Nat) (e : EArgs) : Bool :=
  match op, typeWidth e.stCode, typeWidth e.dtCode with
  | 0x80, some ws, some wd => uOk e (4096 / max ws wd)
  | 0x81, some ws, some wd => widenOk e.stCode e.dtCode && e.d.toNat % groupSize wd ws == 0
  | 0x81, _, _ => widenOk e.stCode e.dtCode
  | 0x82, some ws, some wd =>
      narrowOk e.stCode e.dtCode && e.a.toNat % groupSize ws wd == 0 && uOk e (4096 / wd)
  | 0x86, _, _ => uOk e 128
  | _, _, _ => true

/-- Every field of a class-E instruction with this opcode is legal, queue direction apart (R117, steps 3-5). -/
def eLegal (op : Nat) (e : EArgs) : Bool :=
  match eShape op with
  | none => false
  | some sh =>
    sh.lenOk e && sh.fnOk e && sh.fmOk e && sh.dOk e && sh.aOk e && sh.bOk e && sh.lpOk e && sh.immOk e &&
      convOk op e && (sh.guarded || (e.g == 0 && !e.gn))

/-- R107 for class E: vpush may name q4 and q5 only. -/
def eQueueOk (op : Nat) (e : EArgs) : Bool := op != 0x9D || e.d == 4 || e.d == 5

/-- A legal class-E instruction. -/
def eOk (op : Nat) (e : EArgs) : Bool := eLegal op e && eQueueOk op e

/-- A scope of an ordering instruction on memory: not .ln (R279). -/
def Scope.ordering (s : Scope) : Bool := s != .ln

/-- The CSR numbers that have rows of their own when written (R312, R214). -/
def csrCohmode : BitVec 12 := 0x105
def csrBndt : BitVec 12 := 0x106

end Sys2Proof
end

