-- ==== Sys2Proof/WellFormed.lean ====
section
/-! DEFINITION. When an instruction is well formed: exactly what its encoding can say and decode accepts (R103-R117),
and for an event, that its numbers name a part of the package (R8, R10). -/

namespace Sys2Proof

/-- A mailbox command names one of the 512 virtual functions (R345). -/
def MbCmd.wf (m : MbCmd) : Bool := m.vf < 512

/-- Well-formedness, constructor by constructor. -/
def Instr.wf : Instr → Bool
  | .vadd e => eOk 0x40 e
  | .vsub e => eOk 0x41 e
  | .vmul e => eOk 0x42 e
  | .vfma e => eOk 0x43 e
  | .vfms e => eOk 0x44 e
  | .vfnma e => eOk 0x45 e
  | .vmin e => eOk 0x46 e
  | .vmax e => eOk 0x47 e
  | .vabs e => eOk 0x48 e
  | .vneg e => eOk 0x49 e
  | .vabd e => eOk 0x4A e
  | .vavg e => eOk 0x4B e
  | .vclamp e => eOk 0x4C e
  | .vaddw e => eOk 0x4D e
  | .vmulw e => eOk 0x4E e
  | .vdot e => eOk 0x4F e
  | .vmulh e => eOk 0x50 e
  | .vadds e => eOk 0x51 e
  | .vsubs e => eOk 0x52 e
  | .vmac e => eOk 0x53 e
  | .vcopysign e => eOk 0x54 e
  | .vdiv e => eOk 0x55 e
  | .vsqrt e => eOk 0x56 e
  | .vrcp e => eOk 0x57 e
  | .vrsqrt e => eOk 0x58 e
  | .vexp2 e => eOk 0x59 e
  | .vlog2 e => eOk 0x5A e
  | .vsinp e => eOk 0x5B e
  | .vcosp e => eOk 0x5C e
  | .vtanh e => eOk 0x5D e
  | .vsigm e => eOk 0x5E e
  | .vfloor e => eOk 0x5F e
  | .vand e => eOk 0x60 e
  | .vor e => eOk 0x61 e
  | .vxor e => eOk 0x62 e
  | .vandn e => eOk 0x63 e
  | .vnot e => eOk 0x64 e
  | .vshl e => eOk 0x65 e
  | .vshr e => eOk 0x66 e
  | .vsra e => eOk 0x67 e
  | .vrot e => eOk 0x68 e
  | .vpop e => eOk 0x69 e
  | .vclz e => eOk 0x6A e
  | .vbsel e => eOk 0x6B e
  | .vbfx e => eOk 0x6C e
  | .vcmp e => eOk 0x70 e
  | .vclass e => eOk 0x71 e
  | .gand e => eOk 0x72 e
  | .gor e => eOk 0x73 e
  | .gxor e => eOk 0x74 e
  | .gnot e => eOk 0x75 e
  | .gmov e => eOk 0x76 e
  | .gcnt e => eOk 0x77 e
  | .gfirst e => eOk 0x78 e
  | .gset e => eOk 0x79 e
  | .vcvt e => eOk 0x80 e
  | .vwiden e => eOk 0x81 e
  | .vnarrow e => eOk 0x82 e
  | .vpack e => eOk 0x83 e
  | .vunpack e => eOk 0x84 e
  | .vscale e => eOk 0x85 e
  | .vqnt e => eOk 0x86 e
  | .fmtld e => eOk 0x87 e
  | .vmov e => eOk 0x90 e
  | .vsplat e => eOk 0x91 e
  | .vperm e => eOk 0x92 e
  | .vext e => eOk 0x93 e
  | .vins e => eOk 0x94 e
  | .vsel e => eOk 0x95 e
  | .vcompress e => eOk 0x96 e
  | .vexpand e => eOk 0x97 e
  | .vscan e => eOk 0x98 e
  | .vred e => eOk 0x99 e
  | .vtopk e => eOk 0x9A e
  | .vmint e => eOk 0x9B e
  | .vidx e => eOk 0x9C e
  | .vpush e => eOk 0x9D e
  | .vpull e => eOk 0x9E e
  | .kget e => eOk 0xA1 e
  | .vlds e => eOk 0xA2 e
  | .vsts e => eOk 0xA3 e
  | .vldsx e => eOk 0xA4 e
  | .vstsx e => eOk 0xA5 e
  | .zmov e => eOk 0xA7 e
  | .zset e => eOk 0xA8 e
  | .vtex e => eOk 0xA9 e
  | .vwind e => eOk 0xAA e
  | .bfxImm _ _ _ _ len => len.toNat ≤ 64
  | .bfiImm _ _ _ len => len.toNat ≤ 64
  | .loop d _ => d != 0
  | .amoOrdered _ _ ord sc _ _ _ => if ord = .relaxed then sc == .ln else sc.ordering
  | .casOrdered _ ord sc _ _ _ => if ord = .relaxed then sc == .ln else sc.ordering
  | .ldacq _ sc _ _ _ => sc.ordering
  | .strel _ sc _ _ _ => sc.ordering
  | .fence sc => sc.ordering
  | .xfence src dst => src != 0 && dst != 0
  | .trel n _ _ _ => 1 ≤ n.toNat && n.toNat ≤ 16
  | .csrw csr _ => csr != csrCohmode && csr != csrBndt
  | .csrx _ _ csr _ => csr != csrCohmode && csr != csrBndt
  | .rets sc _ => sc.ordering
  | .streamDeadlock core ctx => core < 2048 && ctx < 11
  | .budgetOverrun core => core < 2048
  | .doorbell vf q _ => vf < 512 && q < 8
  | .launchQueueTake die => die < 4
  | .groupStart die => die < 4
  | .shareRecompute die => die < 4
  | .reservationRelease die => die < 4
  | .preemption core => core < 2048
  | .worldSwitchSliceEnd core => core < 2048
  | .jobCompletion cl _ => cl < 256
  | .copy cl => cl < 256
  | .gather cl => cl < 256
  | .mloadw cl => cl < 256
  | .mloadb cl => cl < 256
  | .mma cl => cl < 256
  | .mmab cl => cl < 256
  | .mepi cl => cl < 256
  | .traverse cl => cl < 256
  | .sweepup cl => cl < 256
  | .sweepdn cl => cl < 256
  | .sweepCounterDecrement cl => cl < 256
  | .raster cl => cl < 256
  | .pfeEmitEntry cl _ => cl < 256
  | .refreshWindowEnd die bank => die < 4 && bank < 16
  | .pmcOverflow core n => core < 2048 && n < 8
  | .notifyOverflowDrain vf => vf < 512
  | .linkFailure link => link < 18
  | .ptpEventMessage port _ => port < 19
  | .decodeTrap cause => cause == 1 || cause == 2 || cause == 3
  | .vfcfg m => m.wf
  | .vfreset m => m.wf
  | .capiss m => m.wf
  | .csload m _ _ _ _ => m.wf
  | .attest m => m.wf
  | .resync m => m.wf
  | .podbar m _ _ _ => m.wf
  | .phcsetProfile m => m.wf
  | .phcsetStep m => m.wf
  | .phcsetSlew m => m.wf
  | .tshare m _ _ _ => m.wf
  | .linkctl m _ _ => m.wf
  | .pwrlim m => m.wf
  | .nop _ => true
  | .add _ _ _ => true
  | .sub _ _ _ => true
  | .mul _ _ _ => true
  | .mulh _ _ _ _ => true
  | .div _ _ _ _ => true
  | .rem _ _ _ _ => true
  | .and _ _ _ => true
  | .or _ _ _ => true
  | .xor _ _ _ => true
  | .andn _ _ _ => true
  | .shl _ _ _ => true
  | .shr _ _ _ => true
  | .sra _ _ _ => true
  | .rot _ _ _ => true
  | .min _ _ _ _ => true
  | .max _ _ _ _ => true
  | .slt _ _ _ _ => true
  | .seq _ _ _ => true
  | .sel _ _ _ => true
  | .clz _ _ => true
  | .ctz _ _ => true
  | .pop _ _ => true
  | .bfx _ _ _ _ => true
  | .bfi _ _ _ => true
  | .li _ _ _ => true
  | .lia _ _ => true
  | .mac _ _ _ => true
  | .xmint _ _ _ _ => true
  | .b _ => true
  | .bc _ _ _ _ => true
  | .bz _ _ _ => true
  | .j _ => true
  | .call _ _ => true
  | .callLabel _ _ => true
  | .ret _ => true
  | .bqe _ _ _ => true
  | .yield => true
  | .ld _ _ _ _ => true
  | .st _ _ _ _ => true
  | .lds _ _ _ _ => true
  | .sts _ _ _ _ => true
  | .ldq _ _ _ => true
  | .stq _ _ _ => true
  | .ldsq _ _ _ => true
  | .stsq _ _ _ => true
  | .pfx _ _ _ => true
  | .pushq _ => true
  | .popq _ => true
  | .qstat _ _ => true
  | .cln _ _ => true
  | .inv _ _ => true
  | .kset _ _ _ _ => true
  | .rep _ _ _ => true
  | .emsg _ _ _ => true
  | .jtest _ _ => true
  | .jwait _ _ => true
  | .amo _ _ _ _ _ => true
  | .cas _ _ _ _ => true
  | .wacc _ _ _ => true
  | .waccImm _ _ _ => true
  | .bar _ => true
  | .barv _ _ _ _ => true
  | .barwArr _ _ => true
  | .barwWt _ _ => true
  | .wfe _ _ => true
  | .sev _ _ => true
  | .deccnt _ _ => true
  | .setcnt _ _ => true
  | .tsbret => true
  | .slotadv _ _ _ => true
  | .ordent _ _ => true
  | .ordentRsv _ => true
  | .ordlv _ => true
  | .phcrd _ _ => true
  | .launch _ _ _ _ => true
  | .csrr _ _ => true
  | .cohmodeWrite _ _ => true
  | .bndtWrite _ _ => true
  | .trap => true
  | .trapN _ => true
  | .eret => true
  | .start _ _ _ => true
  | .hend => true
  | .hwait _ => true
  | .carve _ _ => true
  | .retire => true
  | .xlinvPg _ => true
  | .xlinvAll => true
  | .xlinvBnd => true
  | .ctxsv _ _ => true
  | .ctxld _ _ _ _ => true
  | .logrp _ _ => true
  | .idle _ => true
  | .cload _ _ _ => true
  | .residPin _ _ => true
  | .residUnpin _ _ => true
  | .residDemote _ _ => true
  | .residEvict _ _ => true
  | .brk => true
  | .wdead _ => true
  | .counterSubmit _ => true
  | .launchCompletion _ => true
  | .resumption _ => true
  | .barrierPhaseComplete _ => true
  | .orderedSectionGrant _ => true
  | .trelFire _ => true
  | .fabricWriteArrival _ => true
  | .hostRead _ _ => true
  | .hostWrite _ _ => true
  | .powerGood => true
  | .thermalTrip => true
  | .uncorrectableSoftError _ => true
  | .holdover => true

end Sys2Proof
end

