-- ==== Sys2Proof/Decode.lean ====
section
/-! DEFINITION. Decode and encode: parcels to fields (R96-R102), fields to an instruction or a cause (R115-R117), and
back. Decode is total; the encoder is written from the same tables. -/

namespace Sys2Proof

/-- The length of an instruction (R97). -/
inductive Len where
  | short | medium | long
  deriving DecidableEq, Repr

/-- Every field of the three formats (R100-R102). A field that the form does not have is 0. -/
structure Fields where
  len : Len
  op : BitVec 8
  g : BitVec 3 := 0
  fn : BitVec 4 := 0
  b : BitVec 5 := 0
  a : BitVec 5 := 0
  d : BitVec 5 := 0
  gn : Bool := false
  lp : BitVec 3 := 0
  lpa : BitVec 5 := 0
  imm : BitVec 23 := 0
  hint : BitVec 7 := 0
  asrc : BitVec 4 := 0
  bsrc : BitVec 4 := 0
  sfmt : BitVec 4 := 0
  dfmt : BitVec 4 := 0
  lit : BitVec 32 := 0
  deriving DecidableEq, Repr

/-- The number of parcels that the first parcel announces (R97); none for 0b11. -/
def parcelCount (p0 : Parcel) : Option Nat :=
  match (p0.extractLsb' 0 2).toNat with
  | 0 => some 1 | 1 => some 2 | 2 => some 3 | _ => none

/-- The fields of an instruction of the given length. -/
def Fields.ofParcels (len : Len) (p0 p1 p2 : Parcel) : Fields :=
  let s : Fields :=
    { len := len, op := p0.extractLsb' 2 8, d := p0.extractLsb' 10 5, a := p0.extractLsb' 15 5,
      b := p0.extractLsb' 20 5, fn := p0.extractLsb' 25 4, g := p0.extractLsb' 29 3 }
  match len with
  | .short => s
  | .medium =>
    { s with gn := p1.getLsbD 0, lp := p1.extractLsb' 1 3, lpa := p1.extractLsb' 4 5, imm := p1.extractLsb' 9 23 }
  | .long =>
    { s with gn := p1.getLsbD 0, lp := p1.extractLsb' 1 3, lpa := p1.extractLsb' 4 5, hint := p1.extractLsb' 9 7,
             asrc := p1.extractLsb' 16 4, bsrc := p1.extractLsb' 20 4, sfmt := p1.extractLsb' 24 4,
             dfmt := p1.extractLsb' 28 4, lit := p2 }

/-- The code of a length (R97). -/
def Len.code : Len → BitVec 2
  | .short => 0 | .medium => 1 | .long => 2

/-- The first parcel of the fields (R100). -/
def Fields.parcel0 (f : Fields) : Parcel :=
  f.g ++ (f.fn ++ (f.b ++ (f.a ++ (f.d ++ (f.op ++ f.len.code)))))

/-- The parcels of the fields, the lowest address first (R100-R102). -/
def Fields.parcels (f : Fields) : List Parcel :=
  match f.len with
  | .short => [f.parcel0]
  | .medium => [f.parcel0, f.imm ++ (f.lpa ++ (f.lp ++ BitVec.ofBool f.gn))]
  | .long =>
    [f.parcel0,
     f.dfmt ++ (f.sfmt ++ (f.bsrc ++ (f.asrc ++ (f.hint ++ (f.lpa ++ (f.lp ++ BitVec.ofBool f.gn)))))),
     f.lit]

/-- R103: the fields of class A, X and S. -/
def Fields.plain (f : Fields) : Bool :=
  f.g == 0 && !f.gn && f.lp == 0 && f.lpa == 0 && f.asrc == 0 && f.bsrc == 0 && f.sfmt == 0 && f.dfmt == 0

/-- Operand B by form (R104, R137); none where the B field must be zero and is not. -/
def Fields.opB (f : Fields) : Option OpB :=
  match f.len with
  | .short => some (.reg f.b)
  | .medium => if f.b = 0 then some (.imm f.imm) else none
  | .long => if f.b = 0 then some (.lit f.hint f.lit) else none

/-- Operand B of an opcode without a long form. -/
def Fields.opBSM (f : Fields) : Option OpBSM :=
  match f.len with
  | .short => some (.reg f.b)
  | .medium => if f.b = 0 then some (.imm f.imm) else none
  | .long => none

/-- The class-E fields. -/
def Fields.eArgs (f : Fields) : EArgs :=
  { g := f.g, fn := f.fn, b := f.b, a := f.a, d := f.d,
    form := match f.len with
      | .short => .short
      | .medium => .medium f.gn f.lp f.lpa f.imm
      | .long => .long f.gn f.lp f.lpa f.hint f.asrc f.bsrc f.sfmt f.dfmt f.lit }

/-- The fields of a class-E instruction with opcode op. -/
def EArgs.fields (op : BitVec 8) (e : EArgs) : Fields :=
  let s : Fields := { len := .short, op := op, g := e.g, fn := e.fn, b := e.b, a := e.a, d := e.d }
  match e.form with
  | .short => s
  | .medium gn lp lpa imm => { s with len := .medium, gn := gn, lp := lp, lpa := lpa, imm := imm }
  | .long gn lp lpa hint asrc bsrc sfmt dfmt lit =>
    { s with len := .long, gn := gn, lp := lp, lpa := lpa, hint := hint, asrc := asrc, bsrc := bsrc, sfmt := sfmt,
             dfmt := dfmt, lit := lit }

/-- Cause 0x01 unless the check holds. -/
def need (c : Bool) (i : Instr) : Except Nat Instr := if c then .ok i else .error 1
/-- Cause 0x01 where an operand does not decode. -/
def needOp {α : Type} (c : Bool) (o : Option α) (mk : α → Instr) : Except Nat Instr :=
  match o with | some x => need c (mk x) | none => .error 1

def BCond.ofCode : Nat → Option BCond
  | 0 => some .eq | 1 => some .ne | 2 => some .lt | 3 => some .ge | 4 => some .ltn | 5 => some .gen | _ => none
def BCond.code : BCond → BitVec 4
  | .eq => 0 | .ne => 1 | .lt => 2 | .ge => 3 | .ltn => 4 | .gen => 5
def LdW.ofCode : Nat → Option LdW
  | 0 => some .i8 | 1 => some .i16 | 2 => some .i32 | 3 => some .i64 | 4 => some .n8 | 5 => some .n16 | 6 => some .n32
  | _ => none
def LdW.code : LdW → BitVec 4
  | .i8 => 0 | .i16 => 1 | .i32 => 2 | .i64 => 3 | .n8 => 4 | .n16 => 5 | .n32 => 6
def StW.ofCode : Nat → Option StW
  | 0 => some .i8 | 1 => some .i16 | 2 => some .i32 | 3 => some .i64 | _ => none
def StW.code : StW → BitVec 4
  | .i8 => 0 | .i16 => 1 | .i32 => 2 | .i64 => 3
def AmoOp.ofCode : Nat → Option AmoOp
  | 0 => some .add | 1 => some .min | 2 => some .max | 3 => some .and | 4 => some .or | 5 => some .xor | 6 => some .xchg
  | _ => none
def AmoOp.code : AmoOp → BitVec 3
  | .add => 0 | .min => 1 | .max => 2 | .and => 3 | .or => 4 | .xor => 5 | .xchg => 6
def MemOrd.ofCode : BitVec 2 → MemOrd
  | 0 => .relaxed | 1 => .acq | 2 => .rel | _ => .acqrel
def MemOrd.code : MemOrd → BitVec 2
  | .relaxed => 0 | .acq => 1 | .rel => 2 | .acqrel => 3
def Scope.ofCode : Nat → Option Scope
  | 0 => some .ln | 1 => some .co | 2 => some .cl | 3 => some .di | 4 => some .pk | 5 => some .pd | _ => none
def Scope.code : Scope → BitVec 3
  | .ln => 0 | .co => 1 | .cl => 2 | .di => 3 | .pk => 4 | .pd => 5
def SlotOp.ofCode : BitVec 2 → SlotOp
  | 0 => .claim | 1 => .publish | 2 => .take | _ => .free
def SlotOp.code : SlotOp → BitVec 2
  | .claim => 0 | .publish => 1 | .take => 2 | .free => 3
def CsrxOp.ofCode : Nat → Option CsrxOp
  | 0 => some .swap | 1 => some .set | 2 => some .clr | _ => none
def CsrxOp.code : CsrxOp → BitVec 4
  | .swap => 0 | .set => 1 | .clr => 2

/-- The order word of amo and cas (R285): scope in [2:0], order in [4:3], the rest zero. -/
def orderWord (imm : BitVec 23) : Option (MemOrd × Scope) :=
  if imm.toNat < 32 then
    (Scope.ofCode (imm.extractLsb' 0 3).toNat).map fun sc => (MemOrd.ofCode (imm.extractLsb' 3 2), sc)
  else none

/-- The queue of ldq and ldsq, or the cause (R148): q4-q6 against direction, q7 no block queue, else out of range. -/
def ldQueue (d : BitVec 5) (c : Bool) (mk : BitVec 2 → Except Nat Instr) : Except Nat Instr :=
  if c = false then .error 1
  else match d.toNat with
    | 0 | 1 | 2 | 3 => mk (d.extractLsb' 0 2)
    | 4 | 5 | 6 => .error 3
    | _ => .error 1
/-- The queue of stq and stsq, or the cause (R148). -/
def stQueue (d : BitVec 5) (c : Bool) (mk : Bool → Except Nat Instr) : Except Nat Instr :=
  if c = false then .error 1
  else match d.toNat with
    | 4 => mk false
    | 5 => mk true
    | 0 | 1 | 2 | 3 | 7 => .error 3
    | _ => .error 1

/-- The FN bit of a two-variant instruction. -/
def Fields.fnBit (f : Fields) : Bool := f.fn.getLsbD 0
def Fields.fnLe1 (f : Fields) : Bool := f.fn.toNat < 2
def Fields.isS (f : Fields) : Bool := f.len == .short
def Fields.isM (f : Fields) : Bool := f.len == .medium

/-- A two-source instruction with FN 0. -/
def alu (f : Fields) (mk : BitVec 5 → BitVec 5 → OpB → Instr) : Except Nat Instr :=
  needOp (f.plain && f.fn == 0) f.opB (mk f.d f.a)
/-- A two-source instruction with a signed and an unsigned variant. -/
def aluU (f : Fields) (mk : Bool → BitVec 5 → BitVec 5 → OpB → Instr) : Except Nat Instr :=
  needOp (f.plain && f.fnLe1) f.opB (mk f.fnBit f.d f.a)

/-- Class A (R138-R162). -/
def decodeA (f : Fields) : Except Nat Instr :=
  match f.op.toNat with
  | 0x00 =>
    match f.len with
    | .short => need (f.plain && f.fn == 0 && f.a == 0 && f.b == 0 && f.d == 0) (.nop .short)
    | .medium => need (f.plain && f.fn == 0 && f.a == 0 && f.b == 0 && f.d == 0 && f.imm == 0) (.nop .medium)
    | .long => need (f.plain && f.fn == 0 && f.a == 0 && f.b == 0 && f.d == 0 && f.lit == 0) (.nop (.long f.hint))
  | 0x01 => alu f .add
  | 0x02 => alu f .sub
  | 0x03 => alu f .mul
  | 0x04 => aluU f .mulh
  | 0x05 => aluU f .div
  | 0x06 => aluU f .rem
  | 0x07 => alu f .and
  | 0x08 => alu f .or
  | 0x09 => alu f .xor
  | 0x0A => alu f .andn
  | 0x0B => alu f .shl
  | 0x0C => alu f .shr
  | 0x0D => alu f .sra
  | 0x0E => alu f .rot
  | 0x0F => aluU f .min
  | 0x10 => aluU f .max
  | 0x11 => aluU f .slt
  | 0x12 => alu f .seq
  | 0x13 => need (f.isS && f.plain && f.fn == 0) (.sel f.d f.a f.b)
  | 0x14 => need (f.isS && f.plain && f.fn == 0 && f.b == 0) (.clz f.d f.a)
  | 0x15 => need (f.isS && f.plain && f.fn == 0 && f.b == 0) (.ctz f.d f.a)
  | 0x16 => need (f.isS && f.plain && f.fn == 0 && f.b == 0) (.pop f.d f.a)
  | 0x17 =>
    match f.len with
    | .short => need (f.plain && f.fnLe1) (.bfx f.fnBit f.d f.a f.b)
    | .medium => need (f.plain && f.fnLe1 && f.b == 0 && f.imm.toNat < 8192)
        (.bfxImm f.fnBit f.d f.a (f.imm.extractLsb' 0 6) (f.imm.extractLsb' 6 7))
    | .long => .error 1
  | 0x18 =>
    match f.len with
    | .short => need (f.plain && f.fn == 0) (.bfi f.d f.a f.b)
    | .medium => need (f.plain && f.fn == 0 && f.b == 0 && f.imm.toNat < 8192)
        (.bfiImm f.d f.a (f.imm.extractLsb' 0 6) (f.imm.extractLsb' 6 7))
    | .long => .error 1
  | 0x19 =>
    match f.len with
    | .short => .error 1
    | .medium => need (f.plain && f.fnLe1 && f.a == 0 && f.b == 0) (.li f.fnBit f.d (.imm f.imm))
    | .long => need (f.plain && f.fnLe1 && f.a == 0 && f.b == 0) (.li f.fnBit f.d (.lit f.hint f.lit))
  | 0x1A =>
    match f.len with
    | .short => .error 1
    | .medium => need (f.plain && f.fn == 0 && f.a == 0 && f.b == 0) (.lia f.d (.imm f.imm))
    | .long => need (f.plain && f.fn == 0 && f.a == 0 && f.b == 0) (.lia f.d (.lit f.hint f.lit))
  | 0x1B => alu f .mac
  | 0x1C => aluU f .xmint
  | 0x20 => need (f.isM && f.plain && f.fn == 0 && f.d == 0 && f.a == 0 && f.b == 0) (.b f.imm)
  | 0x21 => needOp (f.isM && f.plain && f.d == 0) (BCond.ofCode f.fn.toNat) (fun c => .bc c f.a f.b f.imm)
  | 0x22 => need (f.isM && f.plain && f.fnLe1 && f.d == 0 && f.b == 0) (.bz f.fnBit f.a f.imm)
  | 0x23 => need (f.isS && f.plain && f.fn == 0 && f.d == 0 && f.b == 0) (.j f.a)
  | 0x24 =>
    match f.len with
    | .short => need (f.plain && f.fn == 0 && f.b == 0) (.call f.d f.a)
    | .medium => need (f.plain && f.fn == 0 && f.a == 0 && f.b == 0) (.callLabel f.d f.imm)
    | .long => .error 1
  | 0x25 => need (f.isS && f.plain && f.fn == 0 && f.d == 0 && f.b == 0) (.ret f.a)
  | 0x26 => need (f.isM && f.plain && f.fn == 0 && f.a == 0 && f.b == 0) (.loop f.d f.imm)
  | 0x27 => need (f.isM && f.plain && f.fnLe1 && f.a == 0 && f.b == 0) (.bqe f.fnBit f.d f.imm)
  | 0x28 => need (f.isS && f.plain && f.fn == 0 && f.d == 0 && f.a == 0 && f.b == 0) .yield
  | 0x30 =>
    match LdW.ofCode f.fn.toNat, f.opB with
    | some w, some b => need f.plain (.ld w f.d f.a b)
    | _, _ => .error 1
  | 0x31 =>
    match StW.ofCode f.fn.toNat, f.opB with
    | some w, some b => need f.plain (.st w f.d f.a b)
    | _, _ => .error 1
  | 0x32 =>
    match LdW.ofCode f.fn.toNat, f.opB with
    | some w, some b => need f.plain (.lds w f.d f.a b)
    | _, _ => .error 1
  | 0x33 =>
    match StW.ofCode f.fn.toNat, f.opB with
    | some w, some b => need f.plain (.sts w f.d f.a b)
    | _, _ => .error 1
  | 0x34 => ldQueue f.d (f.plain && f.fn == 0 && f.opB.isSome) fun q => needOp true f.opB (.ldq q f.a)
  | 0x35 => stQueue f.d (f.plain && f.fn == 0 && f.opB.isSome) fun q => needOp true f.opB (.stq q f.a)
  | 0x36 => ldQueue f.d (f.plain && f.fn == 0 && f.opB.isSome) fun q => needOp true f.opB (.ldsq q f.a)
  | 0x37 => stQueue f.d (f.plain && f.fn == 0 && f.opB.isSome) fun q => needOp true f.opB (.stsq q f.a)
  | 0x38 => needOp (f.plain && f.fnLe1 && f.d == 0) f.opBSM (.pfx f.fnBit f.a)
  | 0x39 => need (f.isS && f.plain && f.fn == 0 && f.d == 0 && f.b == 0) (.pushq f.a)
  | 0x3A => need (f.isS && f.plain && f.fn == 0 && f.a == 0 && f.b == 0) (.popq f.d)
  | 0x3B =>
    if f.fnBit then need (f.isS && f.plain && f.fnLe1 && f.a == 0 && f.b == 0) (.qstat f.d none)
    else need (f.isS && f.plain && f.fnLe1 && f.a.toNat < 8 && f.b == 0) (.qstat f.d (some (f.a.extractLsb' 0 3)))
  | 0x3C => needOp (f.plain && f.fn == 0 && f.d == 0) f.opBSM (.cln f.a)
  | 0x3D => needOp (f.plain && f.fn == 0 && f.d == 0) f.opBSM (.inv f.a)
  | _ => .error 1

/-- The constructor of an assigned class-E opcode whose fields are those of EArgs. -/
def eCtor (op : Nat) : Option (EArgs → Instr) :=
  match op with
  | 0x40 => some .vadd
  | 0x41 => some .vsub
  | 0x42 => some .vmul
  | 0x43 => some .vfma
  | 0x44 => some .vfms
  | 0x45 => some .vfnma
  | 0x46 => some .vmin
  | 0x47 => some .vmax
  | 0x48 => some .vabs
  | 0x49 => some .vneg
  | 0x4A => some .vabd
  | 0x4B => some .vavg
  | 0x4C => some .vclamp
  | 0x4D => some .vaddw
  | 0x4E => some .vmulw
  | 0x4F => some .vdot
  | 0x50 => some .vmulh
  | 0x51 => some .vadds
  | 0x52 => some .vsubs
  | 0x53 => some .vmac
  | 0x54 => some .vcopysign
  | 0x55 => some .vdiv
  | 0x56 => some .vsqrt
  | 0x57 => some .vrcp
  | 0x58 => some .vrsqrt
  | 0x59 => some .vexp2
  | 0x5A => some .vlog2
  | 0x5B => some .vsinp
  | 0x5C => some .vcosp
  | 0x5D => some .vtanh
  | 0x5E => some .vsigm
  | 0x5F => some .vfloor
  | 0x60 => some .vand
  | 0x61 => some .vor
  | 0x62 => some .vxor
  | 0x63 => some .vandn
  | 0x64 => some .vnot
  | 0x65 => some .vshl
  | 0x66 => some .vshr
  | 0x67 => some .vsra
  | 0x68 => some .vrot
  | 0x69 => some .vpop
  | 0x6A => some .vclz
  | 0x6B => some .vbsel
  | 0x6C => some .vbfx
  | 0x70 => some .vcmp
  | 0x71 => some .vclass
  | 0x72 => some .gand
  | 0x73 => some .gor
  | 0x74 => some .gxor
  | 0x75 => some .gnot
  | 0x76 => some .gmov
  | 0x77 => some .gcnt
  | 0x78 => some .gfirst
  | 0x79 => some .gset
  | 0x80 => some .vcvt
  | 0x81 => some .vwiden
  | 0x82 => some .vnarrow
  | 0x83 => some .vpack
  | 0x84 => some .vunpack
  | 0x85 => some .vscale
  | 0x86 => some .vqnt
  | 0x87 => some .fmtld
  | 0x90 => some .vmov
  | 0x91 => some .vsplat
  | 0x92 => some .vperm
  | 0x93 => some .vext
  | 0x94 => some .vins
  | 0x95 => some .vsel
  | 0x96 => some .vcompress
  | 0x97 => some .vexpand
  | 0x98 => some .vscan
  | 0x99 => some .vred
  | 0x9A => some .vtopk
  | 0x9B => some .vmint
  | 0x9C => some .vidx
  | 0x9D => some .vpush
  | 0x9E => some .vpull
  | 0xA1 => some .kget
  | 0xA2 => some .vlds
  | 0xA3 => some .vsts
  | 0xA4 => some .vldsx
  | 0xA5 => some .vstsx
  | 0xA7 => some .zmov
  | 0xA8 => some .zset
  | 0xA9 => some .vtex
  | 0xAA => some .vwind
  | _ => none

/-- Class E (R163-R203): kset and rep have layouts of their own (R193, R198). -/
def decodeE (f : Fields) : Except Nat Instr :=
  match f.op.toNat with
  | 0xA0 =>
    need (f.len == .long && f.g == 0 && !f.gn && f.lp == 0 && f.lpa == 0 && f.fn == 0 && f.a == 0 && f.b == 0 &&
        f.d.toNat < 8)
      (.kset (f.d.extractLsb' 0 3) f.lit (f.dfmt ++ (f.sfmt ++ (f.bsrc ++ f.asrc))) f.hint)
  | 0xA6 =>
    need (f.isM && f.g == 0 && !f.gn && f.lp == 0 && f.lpa == 0 && f.fn == 0 && f.a == 0 && f.b == 0 && f.d == 0)
      (.rep (f.imm.extractLsb' 0 5) (f.imm.extractLsb' 5 13) (f.imm.extractLsb' 18 5))
  | op =>
    match eCtor op with
    | none => .error 1
    | some mk =>
      if eLegal op f.eArgs then (if eQueueOk op f.eArgs then .ok (mk f.eArgs) else .error 3) else .error 1

/-- Class X (R82, R272, R279-R295). -/
def decodeX (f : Fields) : Except Nat Instr :=
  match f.op.toNat with
  | 0xC0 => need (f.isS && f.plain && f.fn == 0) (.emsg f.d f.a f.b)
  | 0xC1 => need (f.isS && f.plain && f.fn == 0 && f.b == 0) (.jtest f.d f.a)
  | 0xC2 => need (f.isS && f.plain && f.fn == 0 && f.b == 0) (.jwait f.d f.a)
  | 0xC3 =>
    match AmoOp.ofCode (f.fn.extractLsb' 0 3).toNat, f.len with
    | some op, .short => need f.plain (.amo (f.fn.getLsbD 3) op f.d f.a f.b)
    | some op, .medium => needOp f.plain (orderWord f.imm)
        (fun o => .amoOrdered (f.fn.getLsbD 3) op o.1 o.2 f.d f.a f.b)
    | _, _ => .error 1
  | 0xC4 =>
    match f.len with
    | .short => need (f.plain && f.fnLe1) (.cas f.fnBit f.d f.a f.b)
    | .medium => needOp (f.plain && f.fnLe1) (orderWord f.imm) (fun o => .casOrdered f.fnBit o.1 o.2 f.d f.a f.b)
    | .long => .error 1
  | 0xC5 =>
    match f.len with
    | .short => need (f.plain && f.fn == 0) (.wacc f.d f.a f.b)
    | .medium => need (f.plain && f.fn == 0 && f.d == 0 && f.imm.toNat < 65536)
        (.waccImm (f.imm.extractLsb' 0 16) f.a f.b)
    | .long => .error 1
  | 0xC6 =>
    match Scope.ofCode (f.fn.extractLsb' 0 3).toNat, f.opBSM with
    | some sc, some b => need f.plain (.ldacq (f.fn.getLsbD 3) sc f.d f.a b)
    | _, _ => .error 1
  | 0xC7 =>
    match Scope.ofCode (f.fn.extractLsb' 0 3).toNat, f.opBSM with
    | some sc, some b => need f.plain (.strel (f.fn.getLsbD 3) sc f.d f.a b)
    | _, _ => .error 1
  | 0xC8 => needOp (f.isS && f.plain && f.d == 0 && f.a == 0 && f.b == 0) (Scope.ofCode f.fn.toNat) .fence
  | 0xC9 => need (f.isM && f.plain && f.fn == 0 && f.d == 0 && f.a == 0 && f.b == 0 && f.imm.toNat < 65536)
      (.xfence (f.imm.extractLsb' 0 8) (f.imm.extractLsb' 8 8))
  | 0xCA => needOp (f.isS && f.plain && f.d == 0 && f.a == 0 && f.b == 0) (Scope.ofCode f.fn.toNat) .bar
  | 0xCB => needOp (f.isS && f.plain && f.b == 0) (Scope.ofCode (f.fn.extractLsb' 0 3).toNat)
      (fun sc => .barv (f.fn.getLsbD 3) sc f.d f.a)
  | 0xCC =>
    if f.fn.getLsbD 3 then
      needOp (f.isS && f.plain && f.d == 0 && f.b == 0) (Scope.ofCode (f.fn.extractLsb' 0 3).toNat)
        (fun sc => .barwWt sc f.a)
    else
      needOp (f.isS && f.plain && f.a == 0 && f.b == 0) (Scope.ofCode (f.fn.extractLsb' 0 3).toNat)
        (fun sc => .barwArr sc f.d)
  | 0xCD => need (f.isS && f.plain && f.fn == 0 && f.b == 0) (.wfe f.d f.a)
  | 0xCE => need (f.isS && f.plain && f.fn == 0 && f.d == 0) (.sev f.a f.b)
  | 0xCF => need (f.isS && f.plain && f.fn == 0 && f.b == 0) (.deccnt f.d f.a)
  | 0xD0 => need (f.isS && f.plain && f.fn == 0 && f.d == 0) (.setcnt f.a f.b)
  | 0xD1 => need (f.isS && f.plain && f.fn == 0 && f.d == 0 && f.a == 0 && f.b == 0) .tsbret
  | 0xD2 => need (f.isS && f.plain && f.fn.toNat < 4 && f.b == 0) (.slotadv (SlotOp.ofCode (f.fn.extractLsb' 0 2)) f.d f.a)
  | 0xD3 =>
    if f.fnBit then need (f.isS && f.plain && f.fnLe1 && f.d == 0 && f.b == 0) (.ordentRsv f.a)
    else need (f.isS && f.plain && f.fnLe1 && f.b == 0) (.ordent f.d f.a)
  | 0xD4 => need (f.isS && f.plain && f.fn == 0 && f.d == 0 && f.b == 0) (.ordlv f.a)
  | 0xD5 => need (f.isM && f.plain && f.fn == 0 && f.imm.toNat < 32) (.trel (f.imm.extractLsb' 0 5) f.d f.a f.b)
  | 0xD6 => need (f.isS && f.plain && f.fnLe1 && f.a == 0 && f.b == 0) (.phcrd f.fnBit f.d)
  | 0xD7 => need (f.isS && f.plain && f.fnLe1) (.launch f.fnBit f.d f.a f.b)
  | _ => .error 1

/-- A csrw or csrx of a CSR that has a row of its own. -/
def csrWrite (csr : BitVec 12) (w : CsrWr) (a : BitVec 5) (other : Instr) : Instr :=
  if csr = csrCohmode then .cohmodeWrite w a else if csr = csrBndt then .bndtWrite w a else other

/-- Class S (R94, R221-R225, R278, R325-R331, R334). -/
def decodeS (f : Fields) : Except Nat Instr :=
  let csr : BitVec 12 := f.imm.extractLsb' 0 12
  let csrOk := f.isM && f.plain && f.b == 0 && f.imm.toNat < 4096
  let short0 := f.isS && f.plain && f.b == 0
  match f.op.toNat with
  | 0xE0 => need (csrOk && f.fn == 0 && f.a == 0) (.csrr f.d csr)
  | 0xE1 => need (csrOk && f.fn == 0 && f.d == 0) (csrWrite csr .csrw f.a (.csrw csr f.a))
  | 0xE2 => needOp csrOk (CsrxOp.ofCode f.fn.toNat) (fun op => csrWrite csr (.csrx op f.d) f.a (.csrx op f.d csr f.a))
  | 0xE3 =>
    match f.len with
    | .short => need (f.plain && f.fn == 0 && f.d == 0 && f.a == 0 && f.b == 0) .trap
    | .medium => need (f.plain && f.fn == 0 && f.d == 0 && f.a == 0 && f.b == 0) (.trapN f.imm)
    | .long => .error 1
  | 0xE4 => need (short0 && f.fn == 0 && f.d == 0 && f.a == 0) .eret
  | 0xE5 => need (f.isM && f.plain && f.fn == 0 && f.a == 0) (.start f.d f.b f.imm)
  | 0xE6 => need (short0 && f.fn == 0 && f.d == 0 && f.a == 0) .hend
  | 0xE7 => need (short0 && f.fn == 0 && f.d == 0) (.hwait f.a)
  | 0xE8 => need (short0 && f.fn == 0) (.carve f.d f.a)
  | 0xE9 => needOp (short0 && f.d == 0) (Scope.ofCode f.fn.toNat) (fun sc => .rets sc f.a)
  | 0xEA => need (short0 && f.fn == 0 && f.d == 0 && f.a == 0) .retire
  | 0xEB =>
    match f.fn.toNat with
    | 0 => need (short0 && f.d == 0) (.xlinvPg f.a)
    | 1 => need (short0 && f.d == 0 && f.a == 0) .xlinvAll
    | 2 => need (short0 && f.d == 0 && f.a == 0) .xlinvBnd
    | _ => .error 1
  | 0xEC => need (short0 && f.fn == 0) (.ctxsv f.d f.a)
  | 0xED => need (f.isS && f.plain && f.fnLe1) (.ctxld f.fnBit f.d f.a f.b)
  | 0xEE => need (short0 && f.fn == 0) (.logrp f.d f.a)
  | 0xEF => need (short0 && f.fn == 0 && f.a == 0) (.idle f.d)
  | 0xF0 => need (f.isS && f.plain && f.fn == 0) (.cload f.d f.a f.b)
  | 0xF1 =>
    match f.fn.toNat with
    | 0 => need short0 (.residPin f.d f.a)
    | 1 => need short0 (.residUnpin f.d f.a)
    | 2 => need short0 (.residDemote f.d f.a)
    | 3 => need short0 (.residEvict f.d f.a)
    | _ => .error 1
  | 0xF2 => need (short0 && f.fn == 0 && f.d == 0 && f.a == 0) .brk
  | 0xF3 => need (short0 && f.fn == 0 && f.d == 0) (.wdead f.a)
  | _ => .error 1

/-- Cause 0x01 for an instruction that is not well formed. -/
def needWf (r : Except Nat Instr) : Except Nat Instr :=
  match r with
  | .ok i => if i.wf then .ok i else .error 1
  | .error c => .error c

/-- The class is the opcode's range (R5, R115). -/
def isExecOp (op : BitVec 8) : Bool := 0x40 ≤ op.toNat && op.toNat < 0xC0

/-- Fields to an instruction, or the cause that R117 reports. -/
def decodeFields (f : Fields) : Except Nat Instr :=
  if f.op.toNat < 0x40 then needWf (decodeA f)
  else if f.op.toNat < 0xC0 then decodeE f
  else if f.op.toNat < 0xE0 then needWf (decodeX f)
  else needWf (decodeS f)

/-- Parcels to an instruction, or the cause. Parcels beyond the length are not looked at. -/
def decodeParcels (p0 p1 p2 : Parcel) : Except Nat Instr :=
  match parcelCount p0 with
  | some 1 => decodeFields (.ofParcels .short p0 0 0)
  | some 2 => decodeFields (.ofParcels .medium p0 p1 0)
  | some 3 => decodeFields (.ofParcels .long p0 p1 p2)
  | _ => .error 2

/-- The parcel of four little-endian bytes (R2, R96). -/
def parcelOf (b0 b1 b2 b3 : Byte) : Parcel := b3 ++ (b2 ++ (b1 ++ b0))

/-- The first parcel of a list of bytes and the rest. -/
def takeParcel : List Byte → Option (Parcel × List Byte)
  | b0 :: b1 :: b2 :: b3 :: r => some (parcelOf b0 b1 b2 b3, r)
  | _ => none

/-- Bytes to an instruction and the bytes after it, or the cause; none where the bytes end within the instruction. -/
def decode (bs : List Byte) : Option (Except Nat (Instr × List Byte)) :=
  match takeParcel bs with
  | none => none
  | some (p0, r0) =>
    match parcelCount p0 with
    | none => some (.error 2)
    | some 1 => some ((decodeParcels p0 0 0).map fun i => (i, r0))
    | some n =>
      match takeParcel r0 with
      | none => none
      | some (p1, r1) =>
        if n = 2 then some ((decodeParcels p0 p1 0).map fun i => (i, r1))
        else
          match takeParcel r1 with
          | none => none
          | some (p2, r2) => some ((decodeParcels p0 p1 p2).map fun i => (i, r2))

/-- The n low bytes of w, the least significant first (R2). -/
def bytesOfWord : Nat → Nat → List Byte
  | 0, _ => []
  | n + 1, w => BitVec.ofNat 8 w :: bytesOfWord n (w / 256)

/-- What decode reads from an instruction whose bits are w, bit 0 of the first parcel lowest; bits above nbits are 0. -/
def decodeTableWord (nbits w : Nat) : Option Instr :=
  match decode (bytesOfWord 12 (w % 2 ^ nbits)) with
  | some (.ok (i, _)) => some i
  | _ => none

/-! ## The encoder -/

/-- The fields of an operand B. -/
def OpB.fields (b : OpB) (f : Fields) : Fields :=
  match b with
  | .reg r => { f with len := .short, b := r }
  | .imm i => { f with len := .medium, imm := i }
  | .lit h l => { f with len := .long, hint := h, lit := l }
def OpBSM.fields (b : OpBSM) (f : Fields) : Fields :=
  match b with
  | .reg r => { f with len := .short, b := r }
  | .imm i => { f with len := .medium, imm := i }
def Imm.fields (v : Imm) (f : Fields) : Fields :=
  match v with
  | .imm i => { f with len := .medium, imm := i }
  | .lit h l => { f with len := .long, hint := h, lit := l }

/-- FN of a two-variant instruction. -/
def fnOf (u : Bool) : BitVec 4 := if u then 1 else 0

/-- FN of a scope with a variant bit (R284, R291). -/
def scopeFn (w : Bool) (sc : Scope) : BitVec 4 := BitVec.ofBool w ++ sc.code
/-- FN of amo (R284). -/
def amoFn (w : Bool) (op : AmoOp) : BitVec 4 := BitVec.ofBool w ++ op.code
/-- The order word (R285). -/
def orderImm (ord : MemOrd) (sc : Scope) : BitVec 23 := (0 : BitVec 18) ++ (ord.code ++ sc.code)

def sF (op : BitVec 8) (d a b : BitVec 5) (fn : BitVec 4) : Fields :=
  { len := .short, op := op, d := d, a := a, b := b, fn := fn }
def mF (op : BitVec 8) (d a b : BitVec 5) (fn : BitVec 4) (imm : BitVec 23) : Fields :=
  { len := .medium, op := op, d := d, a := a, b := b, fn := fn, imm := imm }
def aF (op : BitVec 8) (d a : BitVec 5) (fn : BitVec 4) (b : OpB) : Fields :=
  b.fields { len := .short, op := op, d := d, a := a, fn := fn }
def aSM (op : BitVec 8) (d a : BitVec 5) (fn : BitVec 4) (b : OpBSM) : Fields :=
  b.fields { len := .short, op := op, d := d, a := a, fn := fn }

/-- The fields of csrw and csrx. -/
def csrFields (w : CsrWr) (csr : BitVec 12) (a : BitVec 5) : Fields :=
  match w with
  | .csrw => mF 0xE1 0 a 0 0 ((0 : BitVec 11) ++ csr)
  | .csrx op d => mF 0xE2 d a 0 op.code ((0 : BitVec 11) ++ csr)

/-- The fields of an instruction; none for an event, which has no encoding. -/
def instrFields : Instr → Option Fields
  | .nop .short => some (sF 0x00 0 0 0 0)
  | .nop .medium => some (mF 0x00 0 0 0 0 0)
  | .nop (.long h) => some { len := .long, op := 0x00, hint := h }
  | .add d a b => some (aF 0x01 d a 0 b)
  | .sub d a b => some (aF 0x02 d a 0 b)
  | .mul d a b => some (aF 0x03 d a 0 b)
  | .mulh u d a b => some (aF 0x04 d a (fnOf u) b)
  | .div u d a b => some (aF 0x05 d a (fnOf u) b)
  | .rem u d a b => some (aF 0x06 d a (fnOf u) b)
  | .and d a b => some (aF 0x07 d a 0 b)
  | .or d a b => some (aF 0x08 d a 0 b)
  | .xor d a b => some (aF 0x09 d a 0 b)
  | .andn d a b => some (aF 0x0A d a 0 b)
  | .shl d a b => some (aF 0x0B d a 0 b)
  | .shr d a b => some (aF 0x0C d a 0 b)
  | .sra d a b => some (aF 0x0D d a 0 b)
  | .rot d a b => some (aF 0x0E d a 0 b)
  | .min u d a b => some (aF 0x0F d a (fnOf u) b)
  | .max u d a b => some (aF 0x10 d a (fnOf u) b)
  | .slt u d a b => some (aF 0x11 d a (fnOf u) b)
  | .seq d a b => some (aF 0x12 d a 0 b)
  | .sel d a b => some (sF 0x13 d a b 0)
  | .clz d a => some (sF 0x14 d a 0 0)
  | .ctz d a => some (sF 0x15 d a 0 0)
  | .pop d a => some (sF 0x16 d a 0 0)
  | .bfx i d a b => some (sF 0x17 d a b (fnOf i))
  | .bfxImm i d a pos len => some (mF 0x17 d a 0 (fnOf i) ((0 : BitVec 10) ++ (len ++ pos)))
  | .bfi d a b => some (sF 0x18 d a b 0)
  | .bfiImm d a pos len => some (mF 0x18 d a 0 0 ((0 : BitVec 10) ++ (len ++ pos)))
  | .li hi d v => some (v.fields { len := .medium, op := 0x19, d := d, fn := fnOf hi })
  | .lia d v => some (v.fields { len := .medium, op := 0x1A, d := d })
  | .mac d a b => some (aF 0x1B d a 0 b)
  | .xmint h d a b => some (aF 0x1C d a (fnOf h) b)
  | .b off => some (mF 0x20 0 0 0 0 off)
  | .bc c a b off => some (mF 0x21 0 a b c.code off)
  | .bz nz a off => some (mF 0x22 0 a 0 (fnOf nz) off)
  | .j a => some (sF 0x23 0 a 0 0)
  | .call d a => some (sF 0x24 d a 0 0)
  | .callLabel d off => some (mF 0x24 d 0 0 0 off)
  | .ret a => some (sF 0x25 0 a 0 0)
  | .loop d off => some (mF 0x26 d 0 0 0 off)
  | .bqe z d off => some (mF 0x27 d 0 0 (fnOf z) off)
  | .yield => some (sF 0x28 0 0 0 0)
  | .ld w d a b => some (aF 0x30 d a w.code b)
  | .st w d a b => some (aF 0x31 d a w.code b)
  | .lds w d a b => some (aF 0x32 d a w.code b)
  | .sts w d a b => some (aF 0x33 d a w.code b)
  | .ldq q a b => some (aF 0x34 ((0 : BitVec 3) ++ q) a 0 b)
  | .stq q a b => some (aF 0x35 (if q then 5 else 4) a 0 b)
  | .ldsq q a b => some (aF 0x36 ((0 : BitVec 3) ++ q) a 0 b)
  | .stsq q a b => some (aF 0x37 (if q then 5 else 4) a 0 b)
  | .pfx cl a b => some (aSM 0x38 0 a (fnOf cl) b)
  | .pushq a => some (sF 0x39 0 a 0 0)
  | .popq d => some (sF 0x3A d 0 0 0)
  | .qstat d none => some (sF 0x3B d 0 0 1)
  | .qstat d (some q) => some (sF 0x3B d ((0 : BitVec 2) ++ q) 0 0)
  | .cln a b => some (aSM 0x3C 0 a 0 b)
  | .inv a b => some (aSM 0x3D 0 a 0 b)
  | .vadd e => some (e.fields 0x40)
  | .vsub e => some (e.fields 0x41)
  | .vmul e => some (e.fields 0x42)
  | .vfma e => some (e.fields 0x43)
  | .vfms e => some (e.fields 0x44)
  | .vfnma e => some (e.fields 0x45)
  | .vmin e => some (e.fields 0x46)
  | .vmax e => some (e.fields 0x47)
  | .vabs e => some (e.fields 0x48)
  | .vneg e => some (e.fields 0x49)
  | .vabd e => some (e.fields 0x4A)
  | .vavg e => some (e.fields 0x4B)
  | .vclamp e => some (e.fields 0x4C)
  | .vaddw e => some (e.fields 0x4D)
  | .vmulw e => some (e.fields 0x4E)
  | .vdot e => some (e.fields 0x4F)
  | .vmulh e => some (e.fields 0x50)
  | .vadds e => some (e.fields 0x51)
  | .vsubs e => some (e.fields 0x52)
  | .vmac e => some (e.fields 0x53)
  | .vcopysign e => some (e.fields 0x54)
  | .vdiv e => some (e.fields 0x55)
  | .vsqrt e => some (e.fields 0x56)
  | .vrcp e => some (e.fields 0x57)
  | .vrsqrt e => some (e.fields 0x58)
  | .vexp2 e => some (e.fields 0x59)
  | .vlog2 e => some (e.fields 0x5A)
  | .vsinp e => some (e.fields 0x5B)
  | .vcosp e => some (e.fields 0x5C)
  | .vtanh e => some (e.fields 0x5D)
  | .vsigm e => some (e.fields 0x5E)
  | .vfloor e => some (e.fields 0x5F)
  | .vand e => some (e.fields 0x60)
  | .vor e => some (e.fields 0x61)
  | .vxor e => some (e.fields 0x62)
  | .vandn e => some (e.fields 0x63)
  | .vnot e => some (e.fields 0x64)
  | .vshl e => some (e.fields 0x65)
  | .vshr e => some (e.fields 0x66)
  | .vsra e => some (e.fields 0x67)
  | .vrot e => some (e.fields 0x68)
  | .vpop e => some (e.fields 0x69)
  | .vclz e => some (e.fields 0x6A)
  | .vbsel e => some (e.fields 0x6B)
  | .vbfx e => some (e.fields 0x6C)
  | .vcmp e => some (e.fields 0x70)
  | .vclass e => some (e.fields 0x71)
  | .gand e => some (e.fields 0x72)
  | .gor e => some (e.fields 0x73)
  | .gxor e => some (e.fields 0x74)
  | .gnot e => some (e.fields 0x75)
  | .gmov e => some (e.fields 0x76)
  | .gcnt e => some (e.fields 0x77)
  | .gfirst e => some (e.fields 0x78)
  | .gset e => some (e.fields 0x79)
  | .vcvt e => some (e.fields 0x80)
  | .vwiden e => some (e.fields 0x81)
  | .vnarrow e => some (e.fields 0x82)
  | .vpack e => some (e.fields 0x83)
  | .vunpack e => some (e.fields 0x84)
  | .vscale e => some (e.fields 0x85)
  | .vqnt e => some (e.fields 0x86)
  | .fmtld e => some (e.fields 0x87)
  | .vmov e => some (e.fields 0x90)
  | .vsplat e => some (e.fields 0x91)
  | .vperm e => some (e.fields 0x92)
  | .vext e => some (e.fields 0x93)
  | .vins e => some (e.fields 0x94)
  | .vsel e => some (e.fields 0x95)
  | .vcompress e => some (e.fields 0x96)
  | .vexpand e => some (e.fields 0x97)
  | .vscan e => some (e.fields 0x98)
  | .vred e => some (e.fields 0x99)
  | .vtopk e => some (e.fields 0x9A)
  | .vmint e => some (e.fields 0x9B)
  | .vidx e => some (e.fields 0x9C)
  | .vpush e => some (e.fields 0x9D)
  | .vpull e => some (e.fields 0x9E)
  | .kset k addr st h => some { len := .long, op := 0xA0, d := (0 : BitVec 2) ++ k, lit := addr, hint := h, asrc := st.extractLsb' 0 4, bsrc := st.extractLsb' 4 4, sfmt := st.extractLsb' 8 4, dfmt := st.extractLsb' 12 4 }
  | .kget e => some (e.fields 0xA1)
  | .vlds e => some (e.fields 0xA2)
  | .vsts e => some (e.fields 0xA3)
  | .vldsx e => some (e.fields 0xA4)
  | .vstsx e => some (e.fields 0xA5)
  | .rep n c st => some (mF 0xA6 0 0 0 0 (st ++ (c ++ n)))
  | .zmov e => some (e.fields 0xA7)
  | .zset e => some (e.fields 0xA8)
  | .vtex e => some (e.fields 0xA9)
  | .vwind e => some (e.fields 0xAA)
  | .emsg d a b => some (sF 0xC0 d a b 0)
  | .jtest d a => some (sF 0xC1 d a 0 0)
  | .jwait d a => some (sF 0xC2 d a 0 0)
  | .amo w op d a b => some (sF 0xC3 d a b (amoFn w op))
  | .amoOrdered w op ord sc d a b => some (mF 0xC3 d a b (amoFn w op) (orderImm ord sc))
  | .cas w d a b => some (sF 0xC4 d a b (fnOf w))
  | .casOrdered w ord sc d a b => some (mF 0xC4 d a b (fnOf w) (orderImm ord sc))
  | .wacc d a b => some (sF 0xC5 d a b 0)
  | .waccImm w a b => some (mF 0xC5 0 a b 0 ((0 : BitVec 7) ++ w))
  | .ldacq w sc d a b => some (aSM 0xC6 d a (scopeFn w sc) b)
  | .strel w sc d a b => some (aSM 0xC7 d a (scopeFn w sc) b)
  | .fence sc => some (sF 0xC8 0 0 0 (scopeFn false sc))
  | .xfence src dst => some (mF 0xC9 0 0 0 0 ((0 : BitVec 7) ++ (dst ++ src)))
  | .bar sc => some (sF 0xCA 0 0 0 (scopeFn false sc))
  | .barv mx sc d a => some (sF 0xCB d a 0 (scopeFn mx sc))
  | .barwArr sc d => some (sF 0xCC d 0 0 (scopeFn false sc))
  | .barwWt sc a => some (sF 0xCC 0 a 0 (scopeFn true sc))
  | .wfe d a => some (sF 0xCD d a 0 0)
  | .sev a b => some (sF 0xCE 0 a b 0)
  | .deccnt d a => some (sF 0xCF d a 0 0)
  | .setcnt a b => some (sF 0xD0 0 a b 0)
  | .tsbret => some (sF 0xD1 0 0 0 0)
  | .slotadv t d a => some (sF 0xD2 d a 0 ((0 : BitVec 2) ++ t.code))
  | .ordent d a => some (sF 0xD3 d a 0 0)
  | .ordentRsv a => some (sF 0xD3 0 a 0 1)
  | .ordlv a => some (sF 0xD4 0 a 0 0)
  | .trel n d a b => some (mF 0xD5 d a b 0 ((0 : BitVec 18) ++ n))
  | .phcrd u d => some (sF 0xD6 d 0 0 (fnOf u))
  | .launch nw d a b => some (sF 0xD7 d a b (fnOf nw))
  | .csrr d csr => some (mF 0xE0 d 0 0 0 ((0 : BitVec 11) ++ csr))
  | .csrw csr a => some (csrFields .csrw csr a)
  | .csrx op d csr a => some (csrFields (.csrx op d) csr a)
  | .cohmodeWrite w a => some (csrFields w csrCohmode a)
  | .bndtWrite w a => some (csrFields w csrBndt a)
  | .trap => some (sF 0xE3 0 0 0 0)
  | .trapN n => some (mF 0xE3 0 0 0 0 n)
  | .eret => some (sF 0xE4 0 0 0 0)
  | .start d b off => some (mF 0xE5 d 0 b 0 off)
  | .hend => some (sF 0xE6 0 0 0 0)
  | .hwait a => some (sF 0xE7 0 a 0 0)
  | .carve d a => some (sF 0xE8 d a 0 0)
  | .rets sc a => some (sF 0xE9 0 a 0 (scopeFn false sc))
  | .retire => some (sF 0xEA 0 0 0 0)
  | .xlinvPg a => some (sF 0xEB 0 a 0 0)
  | .xlinvAll => some (sF 0xEB 0 0 0 1)
  | .xlinvBnd => some (sF 0xEB 0 0 0 2)
  | .ctxsv d a => some (sF 0xEC d a 0 0)
  | .ctxld k d a b => some (sF 0xED d a b (fnOf k))
  | .logrp d a => some (sF 0xEE d a 0 0)
  | .idle d => some (sF 0xEF d 0 0 0)
  | .cload d a b => some (sF 0xF0 d a b 0)
  | .residPin d a => some (sF 0xF1 d a 0 0)
  | .residUnpin d a => some (sF 0xF1 d a 0 1)
  | .residDemote d a => some (sF 0xF1 d a 0 2)
  | .residEvict d a => some (sF 0xF1 d a 0 3)
  | .brk => some (sF 0xF2 0 0 0 0)
  | .wdead a => some (sF 0xF3 0 a 0 0)
  | .streamDeadlock _ _ => none
  | .budgetOverrun _ => none
  | .doorbell _ _ _ => none
  | .launchQueueTake _ => none
  | .groupStart _ => none
  | .shareRecompute _ => none
  | .counterSubmit _ => none
  | .launchCompletion _ => none
  | .reservationRelease _ => none
  | .preemption _ => none
  | .resumption _ => none
  | .worldSwitchSliceEnd _ => none
  | .barrierPhaseComplete _ => none
  | .orderedSectionGrant _ => none
  | .jobCompletion _ _ => none
  | .copy _ => none
  | .gather _ => none
  | .mloadw _ => none
  | .mloadb _ => none
  | .mma _ => none
  | .mmab _ => none
  | .mepi _ => none
  | .traverse _ => none
  | .sweepup _ => none
  | .sweepdn _ => none
  | .pfeEmitEntry _ _ => none
  | .sweepCounterDecrement _ => none
  | .raster _ => none
  | .refreshWindowEnd _ _ => none
  | .trelFire _ => none
  | .pmcOverflow _ _ => none
  | .notifyOverflowDrain _ => none
  | .fabricWriteArrival _ => none
  | .linkFailure _ => none
  | .ptpEventMessage _ _ => none
  | .hostRead _ _ => none
  | .hostWrite _ _ => none
  | .vfcfg _ => none
  | .vfreset _ => none
  | .capiss _ => none
  | .csload _ _ _ _ _ => none
  | .attest _ => none
  | .resync _ => none
  | .podbar _ _ _ _ => none
  | .phcsetProfile _ => none
  | .phcsetStep _ => none
  | .phcsetSlew _ => none
  | .tshare _ _ _ _ => none
  | .linkctl _ _ _ => none
  | .pwrlim _ => none
  | .powerGood => none
  | .thermalTrip => none
  | .decodeTrap _ => none
  | .uncorrectableSoftError _ => none
  | .holdover => none

/-- The parcels of an instruction, the lowest address first; none for an event. -/
def encode (i : Instr) : List Parcel :=
  match instrFields i with
  | some f => f.parcels
  | none => []

/-- The bytes of parcels as memory holds them (R96). -/
def parcelBytes : List Parcel → List Byte
  | [] => []
  | p :: ps => p.extractLsb' 0 8 :: p.extractLsb' 8 8 :: p.extractLsb' 16 8 :: p.extractLsb' 24 8 :: parcelBytes ps

/-- True of the instructions that the execute stream runs: the class-E opcodes (R5, R115). -/
def Instr.isExec (i : Instr) : Bool :=
  match instrFields i with
  | some f => isExecOp f.op
  | none => false

/-- True of the control-flow instructions (R119). -/
def Instr.isFlow : Instr → Bool
  | .b _ | .bc _ _ _ _ | .bz _ _ _ | .j _ | .call _ _ | .callLabel _ _ | .ret _ | .loop _ _ | .bqe _ _ _ => true
  | _ => false

/-- The size of an instruction in bytes (R96); 0 for an event. -/
def Instr.size (i : Instr) : Nat := 4 * (encode i).length

end Sys2Proof
end

