-- ==== Sys2Proof/Config.lean ====
section
/-! DEFINITION. What the spec leaves to the implementation and the free values: opaque constants, so that no proof can
see one. Figures that the spec states are plain definitions. -/

namespace Sys2Proof.Config

/-- A free choice (R197, R346): which of several allowed values a step takes. Log 6. -/
opaque freeChoice : Nat → Nat

/-- Which of the stores to a line of code that a fetch need not see it misses, a bit for each (R99): by line, group, cycle and place.
Log 59. -/
opaque codeChoice : (line group cycle place : Nat) → Nat

/-- CTXA at a group start: the context area's physical HBM address, a multiple of 64 KiB; the spec gives no value
(R324, R330). Log 8. -/
opaque ctxArea : Nat → Nat

/-- How the bits of those parts of a context area whose layout R330 leaves open are turned, by offset in the area. Log 9. -/
opaque imagePad : (offset : Nat) → Nat

/-- Whether the boot ROM's verification of the firmware succeeds (R357: its keys and the images are not given), by boot. Log 11. -/
opaque firmwareOk : (boot : Nat) → Bool

/-- The per-boot device key of 32 bytes, from the device's random source (R356), by boot. Log 12. -/
opaque deviceKey : Nat → BitVec 256

/-- Whether an ML-DSA-65 signature of an image verifies against the fused public key (R355). Log 11. -/
opaque signatureOk : (image sig : List Byte) → Bool

/-- The 3,309 bytes of an ML-DSA-65 signature by the device attestation key (R356). Log 11. -/
opaque signature : List Byte → BitVec 26472

/-- The components measured at bring-up before any image: device, queue-manager and base-die firmware (R355). Log 11. -/
opaque firmware : Nat → List Byte

/-- The page frame that the residency logic takes in a space (0 HBM, 2 host), in units of 512 KiB (R225). Log 28. -/
opaque freeFrame : (space n : Nat) → Nat

/-- The number of free 512 KiB pages of HBM on a die (R225, status 3). Log 28. -/
opaque hbmRoom : (die n : Nat) → Nat

/-- How the bits of a RESYNC section are turned, whose layout R349 leaves open, by place. Log 14. -/
opaque resyncPart : Nat → Byte

/-- The servo's own correction in parts per 10^12 (R352, R354), before its limit. Log 23. -/
opaque servo : Nat → Int

/-- A step in nanoseconds that the servo makes before it is locked (R352: once locked it only slews); never back (R294). Log 23. -/
opaque servoStep : Nat → Nat

/-- How many more bytes a section of a RESYNC record has than what R349 names takes up. Log 14. -/
opaque resyncLen : Nat → Nat

/-- The decision of a loaded PFE image on two nodes (R277: the code of an image is not given). Log 29. -/
opaque imageAccept : (image : List Byte) → (nodeA nodeB : Nat) → Bool

/-- What a loaded CVR image adds to a pixel for a segment (R277). Log 29. -/
opaque imageCover : (image : List Byte) → (segment pixel : Nat) → BitVec 32

/-- The exponent of the largest finite value of a format whose finite values are all zero, which R37 does not give, by
descriptor. Log 33. -/
opaque zeroEmax : Nat → Int

/-- Cycles per nanosecond of the 3.0 GHz clock (R3, R12). -/
def cyclesPerNs : Nat := 3

/-- The clusters, cores and dies of the package (R10). -/
def numCores : Nat := 2048
def numClusters : Nat := 256

/-- The code that vfloor gives where the rounded value is no value of the format (R174): by rounding mode and operand. Log 72. -/
opaque floorCode : (mode code : Nat) → Nat

end Sys2Proof.Config
end

