-- ==== Sys2Proof/Machine/State.lean ====
section
/-! DEFINITION. The state of one K4 package as plain data, and the state right after power-good is due: everything the
spec gives the machine. The context image, the queues and the CSRs are those of R121-R134 and R324. -/

namespace Sys2Proof.Machine

/-- Why a step stops with a fault. -/
inductive Fault where
  /-- Raised by every instruction where the cursor names no live context of a running group. No run reaches it: step
  sets the cursor. Safe. -/
  | noContext
  deriving DecidableEq, Repr

/-- Why a step has no meaning. -/
inductive Refusal where
  /-- Raised by an arm of exec that is not modelled yet, with its mnemonic. Safe. -/
  | notModelled (mnemonic : String)
  deriving DecidableEq, Repr

/-- A register of a register image (R125). -/
inductive RegName where
  | x (n : BitVec 5)
  | g (n : BitVec 3)
  | k (n : BitVec 3)
  | v (n : BitVec 5)
  deriving DecidableEq, Repr

/-- One view of the registers (R125, R127). k holds address [31:0] and stride [47:32]. -/
structure RegFile where
  x : Vector Word 32
  g : Vector Guard 8
  k : Vector Word 8
  v : Vector Block 32
  deriving DecidableEq, Repr

/-- A queued update of the other view (R127): it comes about when `left` more instructions of its stream have ended. -/
structure Lag where
  execute : Bool
  toWindow : Bool
  reg : RegName
  left : Nat
  mask : Block
  data : Block
  deriving DecidableEq, Repr

/-- A 64-bit queue entry, a block entry and a branch-queue entry, each with its pusher's count of accesses (R197). A
branch-queue entry carries the v mask of call and ret (R129). -/
structure QWord where
  data : Word
  stamp : Nat
  deriving DecidableEq, Repr
structure QBlock where
  data : Block
  stamp : Nat
  deriving DecidableEq, Repr
structure QBranch where
  dest : Word
  vmask : BitVec 32
  stamp : Nat
  deriving DecidableEq, Repr

/-- The queue registers q0-q5, q6, q7 and bq (R121), heads first. -/
structure Queues where
  blocks : Vector (List QBlock) 6
  q6 : List QWord
  q7 : List QWord
  bq : List QBranch
  deriving DecidableEq, Repr

/-- An active rep (R132-R134): body address and sequence index, the fields, the pass, and the body instructions ended in
this pass. -/
structure Rep where
  body : Word
  seq : Nat
  n : Nat
  count : Nat
  stride : Nat
  pass : Nat
  idx : Nat
  deriving DecidableEq, Repr

/-- What a stream waits for. Queue codes are those of R124 (8 is bq). `committed` is R119's, for an access-stream
instruction that nothing can make trap any more; `bank` waits for a refresh window (R211). -/
inductive Wait where
  | queue (n : Nat) (committed : Bool)
  | drain
  | commit
  | page
  | bank
  | other (committed : Bool)
  deriving DecidableEq, Repr

/-- A store of one stream that the other stream is not ordered after (R197): the word, its value before, the count of
accesses of the storing stream, whether it was made in 8-byte units as a whole (R287), and the bytes of the word that it wrote. -/
structure Loose where
  execute : Bool
  word : Nat
  old : BitVec 32
  stamp : Nat
  atomic : Bool
  mask : BitVec 4
  deriving DecidableEq, Repr

/-- A load of one stream, made while the other need not have seen all its stores yet (R302): the bytes, and the count of accesses of its
stream. -/
structure LooseLoad where
  execute : Bool
  key : Nat
  len : Nat
  stamp : Nat
  deriving DecidableEq, Repr

/-- A read in the current region that a fence may turn into an acquire (R288); `seq`: its place in the sequence. -/
structure EarlyRead where
  var : Nat
  tick : Nat
  seq : Nat
  deriving DecidableEq, Repr

/-- The trap frame (R320). `endAt`, `ahead`, `early`: as a context has them, for the places of the sequence that it comes back to. -/
structure Frame where
  endAt : Nat
  ahead : List (Nat × Nat)
  early : List EarlyRead
  queues : Queues
  rep : Option Rep
  lag : List Lag
  seqA : Nat
  seqE : Nat
  seqP : Nat
  barWait : Option (Scope × Nat)
  deriving DecidableEq, Repr

/-- The CSRs that each context has (R324). -/
structure Csrs where
  fflags : BitVec 6
  cmask : Word
  fmt : Vector Word 16
  tvec : Word
  tcause : Word
  tval : Word
  epc : Word
  epce : Word
  bndt : Word
  tscr : Word
  mode : Bool
  pmode : Bool
  intrap : Bool
  redir : Bool
  deriving DecidableEq, Repr

/-- A live context: the control context 0 or a helper (R92). `heldA` and `heldE` are reported page faults that wait for an xlinv (R219);
`accA`, `accE` count the stores of each stream, `seenA`, `seenE` those the other stream is ordered after (R197); `past` holds each change
of `sync` that the execute stream may not be ordered after yet (R281, R300): its place among the accesses of the access stream, and what
stood before; `retryA`, `retryE`: an xlinv has let a held access perform afresh and waits until it has tried, `xlinvOn`: this context's
xlinv has discarded and waits so (R223); `acqAt` is when the agent acquired last, `saw` when the values that it saw last in words of
`olds` were replaced or read (R302); `regions` counts its region ends, `endAt`: behind which place of the sequence the latest stands, and
`ahead`: the xfences, by place and tick, that the access stream has made and the execute stream may not have passed (R289, R300);
`replayed`: the entries that a logrp which waits has performed (R221); `saving`: the group whose stop its ctxsv waits for (R331);
`tagged`, `listed`, `nextKernel`: what the instruction at hand has done before it waits: the tag of its release (R282), the entries that a
trel has read (R295), the kernel that a rets has read (its rung, its pointer, R336); `loading`: the engine that its cload has stopped
(R278); `popped`: what a bqe that waits for bq has popped (R144); `code`: the instructions fetched at places of the sequence that not both
streams have passed (R119); `entering`: the section key that its ordent waits to be granted (R273); `askA`, `askE`: the engine whose queue
a message of this stream waits to enter, and since which cycle (R234); `loads`: the loads that are not ordered with all of the other
stream's stores (R302); `rewritten`: EPC has been stored to in its image (R331); `arrCo`, `arrLn` are arrival counts (R290), `evWait` and
`evGot` the lines a wfe waits for and those it has been given (R292). -/
structure Ctx where
  num : Nat
  sync : Sync
  past : List (Nat × Sync)
  relTag : Nat
  r : RegFile
  w : RegFile
  xlive : BitVec 32
  vlive : BitVec 32
  lag : List Lag
  pcA : Word
  pcE : Word
  seqA : Nat
  seqE : Nat
  seqP : Nat
  queues : Queues
  rep : Option Rep
  waitA : Option Wait
  waitE : Option Wait
  heldA : Option Word
  heldE : Option Word
  retryA : Bool
  retryE : Bool
  xlinvOn : Bool
  logHeld : Bool
  relWait : Option Nat
  loaded : Option Block
  tagged : Option Nat
  listed : Option (List (Nat × Word × Word))
  nextKernel : Option (Nat × Nat × BitVec 1024)
  loading : Option (Nat × Eng)
  popped : Option QWord
  entering : Option Nat
  askA : Option (Nat × Nat × Eng)
  askE : Option (Nat × Nat × Eng)
  rewritten : Bool
  code : List (Nat × Instr)
  barWait : Option (Scope × Nat)
  accA : Nat
  accE : Nat
  seenA : Nat
  seenE : Nat
  loose : List Loose
  loads : List LooseLoad
  acqAt : Nat
  saw : List (Nat × Nat)
  regions : Nat
  endAt : Nat
  ahead : List (Nat × Nat)
  replayed : Nat
  saving : Option Nat
  fenceRel : Option (Scope × Nat)
  earlyReads : List EarlyRead
  bounds : List (Nat × BitVec 128)
  csr : Csrs
  frame : Option Frame
  arrCo : Nat
  arrLn : Nat
  evWait : Word
  evGot : Word
  deriving DecidableEq, Repr

/-- What a side-log entry does when it replays (R156, R287). -/
inductive LogOp where
  | store
  | release (scope : Scope) (tag : Nat)
  | amo (op : AmoOp) (w64 : Bool)
  | cas (w64 : Bool) (expected : Word)
  | wacc (w : Int)
  deriving DecidableEq, Repr

/-- A side-log entry (R220). `data` holds the bytes, the lowest address first; `own` is the context's next release number at the store's
place, `sync` what its context was ordered after there and `seen` its count of accesses, `region` that of its region ends (R288, R289,
R299, R300, R304); `failed`: the cause with which its replay failed (R222). -/
structure LogEntry where
  va : Word
  len : Nat
  data : List Byte
  ctx : Nat
  op : LogOp
  rel : Option (Scope × Nat)
  own : Nat
  sync : Sync
  seen : Nat
  region : Nat
  failed : Option Nat
  tick : Nat
  deriving DecidableEq, Repr

/-- A job record (R232, R283): busy, the sequence, the completion word once done, the job's agent, the cluster and the tile
that an MXE command names (R340). -/
structure JobRec where
  busy : Bool
  seq : Nat
  done : Option Word
  agent : Nat
  tile : Option (Nat × Nat)
  deriving DecidableEq, Repr

/-- A section key of a group (R271), oldest reservation first, with its pointer. -/
structure Key where
  key : Nat
  ptr : Word
  held : Bool
  deriving DecidableEq, Repr

/-- Where a group is (R328-R331). -/
inductive GStatus where
  | running | preempted | parked | halted (cause : Nat)
  deriving DecidableEq, Repr

/-- A group whose streams have stopped, and whose image is still to be written once the CVR jobs into its scratch are done (R266,
R322, R328): what it becomes, the cause, and the record of a halt. -/
structure Stopping where
  status : GStatus
  cause : Nat
  record : Option (List Byte)
  deriving DecidableEq, Repr

/-- A group (R51-R57, R74-R79, R330). `handed`: inherited tiles whose first zmov is still to come, with the tick of the
rets (R340). A tile number of 24 stands for a handle that escrow has not yet bound (R342); `overAny`: some kernel of the
group took cause 0x20 (R72). `startAt`: when it started; `unseen`: the stores made before that were not released then (R99); `saved`,
`savedScratch`: the fields and the scratch of its image as it was last saved or loaded (R331). -/
structure Group where
  id : Nat
  launch : Nat
  index : Nat
  entryNo : Nat
  stage : Option Nat
  slot : Option Nat
  vf : Nat
  cls : Nat
  die : Nat
  core : Nat
  status : GStatus
  stopping : Option Stopping
  kobj : BitVec 1024
  kptr : Word
  rung : Nat
  depth : Nat
  scratch : Nat
  inhm : Guard
  smask : Guard
  ctxa : Word
  ctxs : List Ctx
  log : List LogEntry
  jobs : Vector JobRec 64
  tiles : List Nat
  keys : List Key
  closed : Bool
  arrivals : List (Scope × Nat)
  budget : Nat
  used : Nat
  overran : Bool
  overAny : Bool
  tileRetired : Bool
  incremental : Bool
  pfeTask : Option (Nat × Nat)
  handed : List (Nat × Nat)
  startAt : Nat
  unseen : List Nat
  ended : List Nat
  saved : List (Nat × Nat × Nat)
  savedScratch : List Host.Cell
  deriving DecidableEq, Repr

/-- A cached line (R206): its physical line number, the virtual address, home slice and virtual function that it was brought by,
whether through a leaf with mc = 1 (R228), and which of its sixteen words are valid and dirty. -/
structure Line where
  line : Nat
  va : Nat
  home : Nat
  vf : Nat
  mc : Bool
  valid : BitVec 16
  dirty : BitVec 16
  deriving DecidableEq, Repr

/-- What a core keeps whatever group it runs (R232, R292, R332, R333); its lines, the next to leave last. -/
structure Core where
  pmc : Vector (BitVec 48) 8
  pmsel : Vector Word 8
  pending : Word
  jobSeq : Nat
  lines : List Line
  deriving DecidableEq, Repr

/-- An accumulator element (R41). -/
structure Acc where
  val : Int
  sat : Bool
  spc : Bool
  deriving DecidableEq, Repr

/-- An accumulator tile (R41, R201): elements that are not all zero by index 128 r + n, the completed-command count, the
window of the last counted command, the total k of a binary chain. -/
structure Tile where
  elems : List (Nat × Acc)
  count : Nat
  window : Int
  ktotal : Nat
  deriving DecidableEq, Repr

/-- A macro of the MXE (R242, R245): its B format, and its codes, 8 bits each (or its bits), element 128 k + n lowest
first. -/
structure Macro where
  fmt : Option Word
  binary : Bool
  bits : Nat
  deriving DecidableEq, Repr

/-- One sender of a job (R235, R313). -/
structure Sender where
  gid : Nat
  core : Nat
  ctx : Nat
  agent : Nat
  record : Nat
  ev : Nat
  sync : Sync
  rel : Nat
  tick : Nat
  live : Bool
  deriving DecidableEq, Repr

/-- A pair or node task that the PFE has decided and not yet emitted: the index that it has claimed, and whether that slot has been found
empty and is filling (R259). -/
structure Emit where
  a : Nat
  b : Nat
  kind : Nat
  slot : Option Nat
  filling : Bool
  deriving DecidableEq, Repr

/-- The PFE's state within a job (R255-R261): the descriptor and the two stage records as read at the start (a sweep has
one, `near`), the number of the next entry, the decided and not yet emitted tasks. For a traversal: the saddlebag and the
descent stack, the next pair first. For a sweep: the walk (node, next child), the deferred nodes, the emitted tasks whose
groups have not retired, the retired ones whose decrements are to come, and the releases that each node's group acquires. -/
structure Pfe where
  desc : BitVec 512
  near : BitVec 256
  far : BitVec 256
  bag : List (Nat × Nat)
  stack : List (List (Nat × Nat))
  seqno : Nat
  pending : List Emit
  walk : List (Nat × Nat)
  deferred : List Nat
  tasks : List Nat
  retired : List (Nat × Option Acq)
  left : Option (List Nat)
  deps : List (Nat × Acq)
  deriving DecidableEq, Repr

/-- The command of a job, as the target engine reads it. -/
inductive Cmd where
  | copy | gather | mloadw | mloadb | mma | mmab | mepi | traverse | sweepup | sweepdn | raster
  | zclr (tile : Nat) | zrow (tile row : Nat) (data : Block) | bad
  deriving DecidableEq, Repr

/-- How far a job is (R231-R237). -/
inductive JobPhase where
  | queued
  | running
  | held (va : Word) (malformed : Bool) (reported : Bool)
  | done (word : Word)
  deriving DecidableEq, Repr

/-- A job in an engine's queue; `qm`: the queue manager started it (R253); `arrivedSec`: the PHC seconds at its arrival (R244); `begun`:
when its slot began (R248); `atBank`: it waits for a bank (R211); `read`: what it has read and not yet used (R201, R265); `checked`: its
sender's device has checked its bounds (R237); `rowSent`: the sequence of the row that a remote copy waits for, `nack`: the status with
which that row failed (R237, R239). -/
structure Job where
  id : Nat
  agent : Nat
  cmd : Cmd
  msg : BitVec 512
  vf : Nat
  bndt : Word
  senders : List Sender
  launch : Option Nat
  qm : Bool
  arrived : Nat
  phase : JobPhase
  pos : Nat
  oob : Option (Nat × Nat)
  slotEnd : Nat
  arrivedSec : Nat
  begun : Option Nat
  atBank : Bool
  read : List Nat
  checked : Bool
  rowSent : Option Nat
  nack : Option Nat
  pfe : Pfe
  deriving DecidableEq, Repr

/-- Whose commands an engine's queue has taken (R234): the core of the cluster served last before cycle `cyc`, the one served last in
it, and the first cycle in which the mesh stop may enter one. -/
structure Arb where
  before : Nat
  last : Nat
  cyc : Nat
  mesh : Nat
  deriving DecidableEq, Repr

/-- The engines of a cluster and its MXE storage (R234, R242). -/
structure Cluster where
  cpy : List Job
  ixe : List Job
  mxe : List Job
  pfe : List Job
  cvr : List Job
  macros : Vector Macro 16
  tiles : Vector Tile 24
  images : List (Nat × Nat × List Byte)
  arb : Vector Arb 5
  deriving DecidableEq, Repr

/-- Bytes that belong to an engine's path (R253, R261, R266): rows of `width` bytes from `base`, `stride` apart. -/
structure Owned where
  base : Nat
  rows : Nat
  stride : Nat
  width : Nat
  path : Nat
  agent : Nat
  gid : Nat
  observed : Bool
  deriving DecidableEq, Repr

/-- One entry of a word's record (R303): the agent and its release number, and for a job the sending context's number
and its release number at the access. -/
structure Entry where
  agent : Nat
  rel : Nat
  own : Nat
  ownRel : Nat
  deriving DecidableEq, Repr

/-- The record of a word (R303). `atomic`: the writer made no plain store. `die`: that of its home slice, 4 for scratch and
cluster memory, which have no footprint limit. -/
structure WordRec where
  writer : Option Entry
  atomic : Bool
  readers : List Entry
  overflow : Bool
  die : Nat
  deriving DecidableEq, Repr

/-- A line of code as it was before a store (R99): when it was written, the bytes that the store wrote, by whom (none: the host), and
the line's 64 bytes before. -/
structure CodeVersion where
  tick : Nat
  key : Nat
  len : Nat
  entry : Option Entry
  bytes : List Byte
  deriving DecidableEq, Repr

/-- The path mark of a word (R315): path number, the write, and when; `before`: the xfences made by then, by tick, that follow the
write in program order (R289). -/
structure Mark where
  path : Nat
  entry : Entry
  tick : Nat
  before : List Nat
  deriving DecidableEq, Repr

/-- Where an agent stands, for the members of a scope (R84, R281). -/
structure Loc where
  vf : Nat
  launch : Nat
  gid : Nat
  core : Nat
  deriving DecidableEq, Repr

/-- A release of a variable (R280, R281). -/
structure Rel where
  var : Nat
  agent : Nat
  tag : Nat
  scope : Scope
  loc : Loc
  tick : Nat
  deriving DecidableEq, Repr

/-- The writes of a job that a context has adopted (R314); `stamp`: its count of accesses then. -/
structure Adopt where
  job : Nat
  agent : Nat
  rel : Nat
  tick : Nat
  stamp : Nat
  deriving DecidableEq, Repr

/-- Which barrier (R290). -/
inductive BarId where
  | co (gid : Nat)
  | cl (launch cluster : Nat)
  | di (launch die : Nat)
  | pk (launch : Nat)
  | pd (pod : Nat)
  deriving DecidableEq, Repr

/-- An arrival at a phase (R291). Member: the context's agent at .co, the group above. `last`: the member has ended and
counts at every later phase (R290); `ended`: the agents of the group's helpers that had ended by then (R303). -/
structure Arrival where
  member : Nat
  phase : Nat
  value : Option Word
  last : Bool
  agent : Nat
  tag : Nat
  ended : List Nat
  deriving DecidableEq, Repr

/-- A barrier: its completed phases and arrivals. -/
structure Barrier where
  id : BarId
  complete : Nat
  arrivals : List Arrival
  deriving DecidableEq, Repr

/-- A pod barrier (R290, R347): its member count, the launches joined here, the records joined and not yet admitted, the
phases whose local arrivals have gone to the other devices, and the arrivals from there. -/
structure Pod where
  id : Nat
  count : Nat
  launches : List Nat
  records : List Word
  announced : Nat
  remote : Nat
  deriving DecidableEq, Repr

/-- The state of a section key at its home slice (R271-R274). -/
structure KeySt where
  holder : Option Nat
  abandoned : Bool
  waiting : List Nat
  deriving DecidableEq, Repr

/-- A tensor that the residency logic moves to a space (R224-R227): its handle, its virtual bytes, what its entry becomes (the pin
bit where the move sets or clears it), whether its invalid pages become zero pages (R225), the byte ranges that it leaves, and the
group, the context and the handle of the resid that moves it. -/
structure Move where
  vf : Nat
  handle : Nat
  base : Nat
  len : Nat
  space : Nat
  final : Nat
  pin : Option Bool
  fresh : Bool
  leaves : List (Nat × Nat)
  owner : Nat × Nat × Nat
  deriving DecidableEq, Repr

/-- An armed trel (R295). -/
structure Trel where
  core : Nat
  vf : Nat
  time : Nat
  entries : List (Nat × Word × Word)
  bndt : Word
  sync : Sync
  tag : Nat
  loc : Loc
  deriving DecidableEq, Repr

/-- A page counter (R228). -/
structure Page where
  count : Nat
  vf : Nat
  queued : Option Nat
  overflow : Bool
  deriving DecidableEq, Repr

/-- A stage of a pipeline launch (R59, R80); `kptrs`: the pointers of the ladder's objects (R51). -/
structure Stage where
  record : BitVec 256
  ladder : List (BitVec 1024)
  kptrs : List Nat
  taken : Nat
  share : Nat
  deriving DecidableEq, Repr

/-- An admitted launch (R71-R83). `placed`: the rung that it was placed at; `lowest`: the lowest rung used; `overrunDue`: a group has
overrun since the last stage boundary; `beyond`: an entry beyond the entry bound was taken (R77); `next`, `started`: the groups started
(all below next, and those listed); `kptrs`: the pointers of the ladder's objects (R51); `agents`: every context and job sender of it;
`src`: the slot that its record was taken from. -/
structure Launch where
  id : Nat
  vf : Nat
  record : BitVec 1024
  queueDie : Nat
  cls : Nat
  kind : Nat
  ladder : List (BitVec 1024)
  kptrs : List Nat
  stages : List Stage
  ranges : List (Nat × Nat × Nat)
  rung : Nat
  lowest : Nat
  overrunDue : Bool
  overruns : Nat
  next : Nat
  started : List Nat
  retired : List Nat
  alive : Nat
  taken : Nat
  treeStatus : Option Nat
  treeRunning : Bool
  delayed : Bool
  acq : List Acq
  agents : List Nat
  placed : Nat
  beyond : Bool
  deadline : Nat
  src : Nat
  deriving DecidableEq, Repr

/-- An entry of a die's reservation table (R75): the cores that it holds, the MXE cycles of each cluster, when it began and ends,
in thirds of a nanosecond. -/
structure Reservation where
  launch : Nat
  die : Nat
  cores : List Nat
  mxe : List (Nat × Nat)
  wsp : Nat
  fbw : Nat
  start : Nat
  bound : Nat
  deriving DecidableEq, Repr

/-- A submission that waits at its slice (R81); `covers`: what the context that brought the counter to zero was ordered after (R260). -/
structure Submit where
  vf : Nat
  lq : Nat
  lrec : Word
  counter : Nat
  acq : List Acq
  covers : List Acq
  deriving DecidableEq, Repr

/-- The configuration of a virtual function (R348), its coherence mode (R312) and its MIGTH (R228). -/
structure Vf where
  block : BitVec 1024
  own : Bool
  why : BitVec 4
  migth : Word
  deriving DecidableEq, Repr

/-- What the error logs record, each with the virtual function (R69, R72, R81, R210, R295, R323). -/
inductive ErrKind where
  | doorbell | underflow | dropped | hostWeight | trel | head
  deriving DecidableEq, Repr
structure ErrRec where
  kind : ErrKind
  vf : Option Nat
  addr : Nat
  deriving DecidableEq, Repr

/-- A fault record that waits at its producer (R323). -/
structure Pending where
  vf : Nat
  data : List Byte
  deriving DecidableEq, Repr

/-- A fabric link (R349, R351). -/
structure Link where
  enabled : Bool
  up : Bool
  peer : Nat
  peerLink : Nat
  crc : Nat
  deriving DecidableEq, Repr

/-- A write of another device that waits at its home for an xlinv (R219, R237): the address that is not mapped, and whether an xlinv
has let it perform afresh. -/
structure HeldWrite where
  write : FabWrite
  va : Nat
  retry : Bool
  deriving DecidableEq, Repr

/-- A core set that is time-shared (R333). -/
structure TimeShare where
  cores : List Nat
  vfs : List Nat
  slice : Nat
  start : Nat
  turn : Nat
  saved : List (Nat × Nat × Core)
  deriving DecidableEq, Repr

/-- Who moves next: the model's own choice of interleaving (log 3). -/
inductive Turn where
  | access (core ctx : Nat)
  | execute (core ctx : Nat)
  | engine (cluster : Nat) (e : Eng)
  | event (i : Instr)
  deriving DecidableEq, Repr

/-- The context an instruction acts for. -/
structure Cursor where
  gid : Nat
  ctx : Nat
  deriving DecidableEq, Repr

/-- The machine. `named`: the handles that resid has named, with their entries as the residency logic knows them (R224); `moving`: the
tensors in state 3 (R226); `dueWrites`: writes from other devices that wait at their home, flags for their time (R295), and `heldWrites`:
those that wait there for an xlinv (R237); `fabUsers`: the functions that have sent or received over the fabric (R311); `acks`: the
acknowledgements sent to other devices, in the form of the write, its data a failed check's status (R310); `hostData`: what the host's
last read was served (R346). -/
structure State where
  -- memory and what the slices keep of it (R204-R229, R301-R315); olds: the values before the latest of the words that only
  -- atomics and wacc have written since their last plain store, latest first, each with when it was replaced (R302);
  -- code: the earlier versions of the lines of executable pages, latest first (R99)
  mem : List Host.Cell
  recs : List (Nat × WordRec)
  marks : List (Nat × Mark)
  olds : List (Nat × List (Nat × BitVec 32))
  code : List (Nat × List CodeVersion)
  fences : List XFence
  rels : List Rel
  adopted : List Adopt
  gone : List Nat
  xlat : List (Nat × Nat × Word)
  slices : List Line
  owned : List Owned
  pages : List (Nat × Page)
  touched : List (Nat × Nat)
  named : List (Nat × Nat × Nat)
  moving : List Move
  -- groups and cores
  groups : List Group
  cores : List (Nat × Core)
  clusters : List (Nat × Cluster)
  keys : List (Nat × KeySt)
  barriers : List Barrier
  pods : List Pod
  trels : List Trel
  -- queue managers
  launches : List Launch
  reservations : List Reservation
  submits : List Submit
  published : List (Nat × Nat × Nat × List Acq)
  shareAt : List (Nat × Nat)
  -- virtual functions, host, fabric, time, trust
  vfs : List (Nat × Vf)
  errors : List ErrRec
  pending : List Pending
  mbctl : Word
  mbarg : Word
  mbres : Word
  mbstat : Word
  mbrdy : Bool
  hostData : List Byte
  powered : Bool
  boots : Nat
  powerLimit : Nat
  device : Nat
  links : List (Nat × Link)
  sent : List FabWrite
  streams : List (Nat × Nat)
  committed : List (Nat × Nat)
  dueWrites : List FabWrite
  heldWrites : List HeldWrite
  fabUsers : List Nat
  acks : List FabWrite
  timeShares : List TimeShare
  installed : List (Nat × Nat × List Byte)
  chain : List Byte
  digests : List (List Byte)
  deviceKey : List Byte
  cyc : Nat
  phc : Nat
  clk : Nat
  profile : Nat
  freq : Int
  correction : Int
  ptp : List (Nat × Nat)
  -- the model's own
  tick : Nat
  nextAgent : Nat
  nextId : Nat
  free : Nat
  script : List (Turn × Nat)
  rotor : Nat
  cur : Cursor
  deriving DecidableEq, Repr

/-- Everything empty; bring-up has not run (R347, R357). The cursor, the counters and the time start at 0: log 1, 3, 4. -/
def State.reset : State :=
  { mem := [], recs := [], marks := [], olds := [], code := [], fences := [], rels := [], adopted := [], gone := [], xlat := [], slices := [],
    owned := [], pages := [], touched := [], named := [], moving := [], groups := [], cores := [], clusters := [], keys := [],
    barriers := [], pods := [], trels := [], launches := [], reservations := [], submits := [], published := [],
    shareAt := [], vfs := [], errors := [], pending := [], mbctl := 0, mbarg := 0, mbres := 0, mbstat := 0,
    mbrdy := false, hostData := [], powered := false, boots := 0, powerLimit := 2400, device := 0xFFFF, links := [], sent := [],
    streams := [], committed := [], dueWrites := [], heldWrites := [], fabUsers := [], acks := [], timeShares := [], installed := [],
    chain := List.replicate 64 0, digests := [], deviceKey := [], cyc := 0, phc := 0, clk := 0, profile := 0, freq := 0, correction := 0,
    ptp := [], tick := 0,
    nextAgent := 1, nextId := 1, free := 0, script := [], rotor := 0, cur := { gid := 0, ctx := 0 } }

end Sys2Proof.Machine
end

