-- ==== Sys2Proof/Machine/Memory.lean ====
section
/-! DEFINITION. Sorted lists by key, the one memory, and little-endian values in it (R2). -/

namespace Sys2Proof.Machine

/-- The value at a key of a sorted list. -/
def alGet {α : Type} : List (Nat × α) → Nat → Option α
  | [], _ => none
  | (k, v) :: r, a => if k = a then some v else alGet r a

/-- Put a value at a key, keeping the list sorted. -/
def alPut {α : Type} : List (Nat × α) → Nat → α → List (Nat × α)
  | [], a, b => [(a, b)]
  | (k, v) :: r, a, b =>
    if a < k then (a, b) :: (k, v) :: r else if a = k then (a, b) :: r else (k, v) :: alPut r a b

/-- Remove a key. -/
def alDel {α : Type} : List (Nat × α) → Nat → List (Nat × α)
  | [], _ => []
  | (k, v) :: r, a => if k = a then r else (k, v) :: alDel r a

/-- What a byte that nothing has written reads as. Log 2. -/
def memUnlisted : Byte := 0

/-- The byte at a key. -/
def readByte : List Host.Cell → Nat → Byte
  | [], _ => memUnlisted
  | (k, v) :: r, a => if k = a then v else readByte r a

/-- Set the byte at a key; the canonical form lists no unlisted value. -/
def writeByte : List Host.Cell → Nat → Byte → List Host.Cell
  | [], a, b => if b = memUnlisted then [] else [(a, b)]
  | (k, v) :: r, a, b =>
    if a < k then (if b = memUnlisted then (k, v) :: r else (a, b) :: (k, v) :: r)
    else if a = k then (if b = memUnlisted then r else (a, b) :: r)
    else (k, v) :: writeByte r a b

/-- Every listed address is above `lo` and rising, and lists no unlisted value. -/
def Memory.above : Nat → List Host.Cell → Bool
  | _, [] => true
  | lo, (k, v) :: r => lo ≤ k && v != memUnlisted && Memory.above (k + 1) r

/-- The canonical form. -/
def Memory.wf (m : List Host.Cell) : Bool := Memory.above 0 m

/-- n bytes from a key upward. -/
def readBytes (m : List Host.Cell) (a : Nat) : Nat → List Byte
  | 0 => []
  | n + 1 => readByte m a :: readBytes m (a + 1) n

/-- Write bytes from a key upward. -/
def writeBytes (m : List Host.Cell) (a : Nat) : List Byte → List Host.Cell
  | [] => m
  | b :: r => writeBytes (writeByte m a b) (a + 1) r

/-- The number that little-endian bytes stand for, and back. -/
def natOfBytes : List Byte → Nat
  | [] => 0
  | b :: r => b.toNat + 256 * natOfBytes r
def bytesOfNat : Nat → Nat → List Byte
  | 0, _ => []
  | n + 1, w => BitVec.ofNat 8 w :: bytesOfNat n (w / 256)

/-- The key of an address: its space times 2^60 plus its offset. Spaces 0 HBM4, 1 weight store, 2 host memory (R213), 3
cluster memory (R205), 4 scratch (R90); 5 names job records as variables of R281. HBM4 has 512 GiB and the weight stores 2 GiB (R12):
R213 and R210 give a meaning to bits [38:0] and [30:0] alone, and the bits above them name nothing (logs 55 and 80). -/
def keyOf (space off : Nat) : Nat := space * 2 ^ 60 + off % (match space with | 0 => 2 ^ 39 | 1 => 2 ^ 31 | _ => 2 ^ 60)
def hbm (pa : Nat) : Nat := keyOf 0 pa
def cmKey (cluster off : Nat) : Nat := keyOf 3 (cluster * 2 ^ 32 + off)
def scrKey (core off : Nat) : Nat := keyOf 4 (core * 2 ^ 32 + off)
def jobVar (core r : Nat) : Nat := keyOf 5 (core * 64 + r)

def State.rd (s : State) (key n : Nat) : Nat := natOfBytes (readBytes s.mem key n)
def State.rdBytes (s : State) (key n : Nat) : List Byte := readBytes s.mem key n
def State.wrBytes (s : State) (key : Nat) (b : List Byte) : State := { s with mem := writeBytes s.mem key b }
def State.wr (s : State) (key n v : Nat) : State := s.wrBytes key (bytesOfNat n v)

/-- Bits [hi:lo] of a number (R4). -/
def bits (x hi lo : Nat) : Nat := x / 2 ^ lo % 2 ^ (hi + 1 - lo)
/-- One bit of a number. -/
def bit (x i : Nat) : Bool := x / 2 ^ i % 2 == 1
/-- The value congruent to x mod 2^n in two's complement (R4, iN). -/
def toI (n x : Nat) : Int := if x % 2 ^ n < 2 ^ (n - 1) then (x % 2 ^ n : Nat) else (x % 2 ^ n : Nat) - (2 ^ n : Nat)
/-- x mod 2^n of an integer (R4, nN). -/
def toN (n : Nat) (x : Int) : Nat := (x % (2 ^ n : Nat)).toNat

/-- A pointer plus a byte offset within its region (R144, R149). -/
def offPtr (p : Word) (off : Int) : Word :=
  BitVec.ofNat 64 (p.toNat / 2 ^ 56 * 2 ^ 56 + toN 56 ((p.toNat : Int) + off))

end Sys2Proof.Machine
end

