-- ==== Sys2Proof/Machine/Context.lean ====
section
/-! DEFINITION. Finding and changing groups, contexts, cores and clusters; the register file with its window view and
lag (R125-R131); the queue registers (R121). -/

namespace Sys2Proof.Machine

def State.group? (s : State) (gid : Nat) : Option Group := s.groups.find? (fun g => g.id == gid)
def State.updGroup (s : State) (gid : Nat) (f : Group → Group) : State :=
  { s with groups := s.groups.map fun g => if g.id == gid then f g else g }
def Group.ctx? (g : Group) (n : Nat) : Option Ctx := g.ctxs.find? (fun c => c.num == n)
def Group.updCtx (g : Group) (n : Nat) (f : Ctx → Ctx) : Group :=
  { g with ctxs := g.ctxs.map fun c => if c.num == n then f c else c }
def State.updCtx (s : State) (gid n : Nat) (f : Ctx → Ctx) : State := s.updGroup gid fun g => g.updCtx n f

/-- A group that holds its core. -/
def Group.runs (g : Group) : Bool := g.status == .running
/-- The group that runs on a core (R85). -/
def State.groupOn? (s : State) (core : Nat) : Option Group := s.groups.find? (fun g => g.core == core && g.runs)

/-- The group and context the cursor names. -/
def State.here? (s : State) : Option (Group × Ctx) :=
  match s.group? s.cur.gid with
  | some g => if g.runs then (g.ctx? s.cur.ctx).map fun c => (g, c) else none
  | none => none
def State.updHere (s : State) (f : Ctx → Ctx) : State := s.updCtx s.cur.gid s.cur.ctx f
def State.updHereGroup (s : State) (f : Group → Group) : State := s.updGroup s.cur.gid f

/-- A core's own state before anything has set it (log 1). -/
def Core.fresh : Core :=
  { pmc := Vector.replicate 8 0, pmsel := Vector.replicate 8 0, pending := 0, jobSeq := 0, lines := [] }
def State.core (s : State) (n : Nat) : Core := (alGet s.cores n).getD Core.fresh
def State.updCore (s : State) (n : Nat) (f : Core → Core) : State :=
  { s with cores := alPut s.cores n (f (s.core n)) }

def Tile.clear : Tile := { elems := [], count := 0, window := 0, ktotal := 0 }
def Macro.empty : Macro := { fmt := none, binary := false, bits := 0 }
def Cluster.fresh : Cluster :=
  { cpy := [], ixe := [], mxe := [], pfe := [], cvr := [], macros := Vector.replicate 16 Macro.empty,
    tiles := Vector.replicate 24 Tile.clear, images := [],
    arb := Vector.replicate 5 { before := 7, last := 7, cyc := 0, mesh := 0 } }
def State.cluster (s : State) (n : Nat) : Cluster := (alGet s.clusters n).getD Cluster.fresh
def State.updCluster (s : State) (n : Nat) (f : Cluster → Cluster) : State :=
  { s with clusters := alPut s.clusters n (f (s.cluster n)) }
def Cluster.queue (c : Cluster) : Eng → List Job
  | .cpy => c.cpy | .ixe => c.ixe | .mxe => c.mxe | .pfe => c.pfe | .cvr => c.cvr
def Cluster.setQueue (c : Cluster) (e : Eng) (q : List Job) : Cluster :=
  match e with
  | .cpy => { c with cpy := q } | .ixe => { c with ixe := q } | .mxe => { c with mxe := q }
  | .pfe => { c with pfe := q } | .cvr => { c with cvr := q }
/-- The place of an engine in its cluster (R230). -/
def engIndex : Eng → Fin 5
  | .cpy => 0 | .ixe => 1 | .mxe => 2 | .pfe => 3 | .cvr => 4
def State.jobs (s : State) (cl : Nat) (e : Eng) : List Job := (s.cluster cl).queue e
def State.setJobs (s : State) (cl : Nat) (e : Eng) (q : List Job) : State := s.updCluster cl fun c => c.setQueue e q
/-- All engines of a cluster, and every job with its place. -/
def allEng : List Eng := [.cpy, .ixe, .mxe, .pfe, .cvr]
def State.allJobs (s : State) : List (Nat × Eng × Job) :=
  s.clusters.flatMap fun (n, c) => allEng.flatMap fun e => (c.queue e).map fun j => (n, e, j)

/-- The configuration of a virtual function; unconfigured reads as zeros with mode 0. -/
def Vf.fresh : Vf := { block := 0, own := false, why := 0, migth := 0 }
def State.vf (s : State) (n : Nat) : Vf := (alGet s.vfs n).getD Vf.fresh
def State.updVf (s : State) (n : Nat) (f : Vf → Vf) : State := { s with vfs := alPut s.vfs n (f (s.vf n)) }
def Vf.field (v : Vf) (hi lo : Nat) : Nat := bits v.block.toNat hi lo
def Vf.ptroot (v : Vf) : Nat := v.field 63 0
def Vf.htab (v : Vf) : Nat := v.field 127 64
def Vf.fq (v : Vf) : Nat := v.field 191 128
def Vf.nq (v : Vf) : Nat := v.field 255 192
def Vf.ttab (v : Vf) : Nat := v.field 319 256
def Vf.lq (v : Vf) : Nat := v.field 383 320
def Vf.bndt (v : Vf) : Word := BitVec.ofNat 64 (v.field 447 384)
def Vf.tvec (v : Vf) : Word := BitVec.ofNat 64 (v.field 511 448)
def Vf.supcore (v : Vf) : Nat := v.field 522 512
def Vf.lqmask (v : Vf) : Nat := v.field 531 524
def Vf.incr (v : Vf) : Bool := bit v.block.toNat 532

def State.launch? (s : State) (id : Nat) : Option Launch := s.launches.find? (fun l => l.id == id)
def State.updLaunch (s : State) (id : Nat) (f : Launch → Launch) : State :=
  { s with launches := s.launches.map fun l => if l.id == id then f l else l }

/-- Cluster and die of a core or cluster (R10). -/
def clusterOf (core : Nat) : Nat := core / 8
def dieOfCore (core : Nat) : Nat := core / 512
def dieOfCluster (cl : Nat) : Nat := cl / 64

/-! ### The kernel object (R51-R53) -/

def kf (k : BitVec 1024) (hi lo : Nat) : Nat := bits k.toNat hi lo
def kEntry (k : BitVec 1024) : Word := BitVec.ofNat 64 (kf k 63 0)
def kRegs (k : BitVec 1024) : Nat := 8 * (kf k 65 64 + 1)
def kHelpers (k : BitVec 1024) : Nat := kf k 69 66
def kAcc (k : BitVec 1024) : Nat := kf k 72 70
def kScratch (k : BitVec 1024) : Nat := kf k 85 80
def kCache (k : BitVec 1024) : Nat := kf k 93 88
def kClass (k : BitVec 1024) : Nat := kf k 97 96
def kDrop (k : BitVec 1024) : Bool := bit k.toNat 98
def kSup (k : BitVec 1024) : Bool := bit k.toNat 99
def kBudget (k : BitVec 1024) : Nat := kf k 175 128
def kRung (k : BitVec 1024) : Nat := kf k 255 192
def kSucc (k : BitVec 1024) : Nat := kf k 319 256
def kInhm (k : BitVec 1024) : Nat := kf k 511 384
def kFpb (k : BitVec 1024) : Nat := kf k 575 512
def kFps (k : BitVec 1024) : Int := toI 64 (kf k 639 576)
def kFpl (k : BitVec 1024) : Nat := kf k 703 640
/-- Ru, the register units (R52). -/
def kRu (k : BitVec 1024) : Nat := ((1 + kHelpers k) * (512 * kRegs k + 1024) + 16383) / 16384

/-- Ru of a group, and its cache units (R53, R90). -/
def Group.ru (g : Group) : Nat := kRu g.kobj
def Group.cacheUnits (g : Group) : Nat := 64 - g.ru - g.scratch

/-! ### Registers -/

/-- A register as 4096 bits, zero-extended. g0 reads all ones and x0 zero (R125). -/
def RegFile.get (f : RegFile) : RegName → Block
  | .x n => if n = 0 then 0 else (f.x[n.toNat]).setWidth 4096
  | .g n => if n = 0 then (BitVec.allOnes 128).setWidth 4096 else (f.g[n.toNat]).setWidth 4096
  | .k n => (f.k[n.toNat]).setWidth 4096
  | .v n => f.v[n.toNat]
/-- Old bits where the mask is 0, new ones where it is 1. -/
def blend (old mask data : Block) : Block := (old &&& ~~~mask) ||| (data &&& mask)
/-- The bits of a register's image that hold state: reserved bits of a k image are discarded (R126). -/
def RegName.width : RegName → Nat
  | .x _ => 64 | .g _ => 128 | .k _ => 48 | .v _ => 4096
/-- Write the bits under the mask; writes of x0 and g0 are discarded. -/
def RegFile.put (f : RegFile) (r : RegName) (mask data : Block) : RegFile :=
  let b := blend (f.get r) mask data
  match r with
  | .x n => if n = 0 then f else { f with x := f.x.set n.toNat (b.setWidth 64) }
  | .g n => if n = 0 then f else { f with g := f.g.set n.toNat (b.setWidth 128) }
  | .k n => { f with k := f.k.set n.toNat ((b.setWidth 48).setWidth 64) }
  | .v n => { f with v := f.v.set n.toNat b }

/-- The window lag in instructions (R127), and what a queued update starts from: the instruction that queues it ends
too. -/
def lagStart : Nat := 7

/-- Remove bytes from the queued updates of one view that a later write has overtaken (R127). -/
def overtake (toWindow : Bool) (r : RegName) (mask : Block) (l : List Lag) : List Lag :=
  l.map fun u => if u.toWindow == toWindow && u.reg == r then { u with mask := u.mask &&& ~~~mask } else u
def Ctx.overtake (c : Ctx) (toWindow : Bool) (r : RegName) (mask : Block) : Ctx :=
  { c with lag := Machine.overtake toWindow r mask c.lag,
           frame := c.frame.map fun f => { f with lag := Machine.overtake toWindow r mask f.lag } }

/-- Mark the register live (R130). -/
def Ctx.makeLive (c : Ctx) : RegName → Ctx
  | .x n => { c with xlive := c.xlive ||| BitVec.twoPow 32 n.toNat }
  | .v n => { c with vlive := c.vlive ||| BitVec.twoPow 32 n.toNat }
  | _ => c
/-- A direct write (R127). -/
def Ctx.direct (c : Ctx) (execute : Bool) (r : RegName) (mask data : Block) : Ctx :=
  let c := c.overtake false r mask
  let u : Lag := { execute := execute, toWindow := true, reg := r, left := lagStart, mask := mask, data := data }
  Ctx.makeLive { c with r := c.r.put r mask data, lag := c.lag ++ [u] } r
/-- A window store (R127). -/
def Ctx.windowStore (c : Ctx) (execute : Bool) (r : RegName) (mask data : Block) : Ctx :=
  let c := c.overtake true r mask
  let u : Lag := { execute := execute, toWindow := false, reg := r, left := lagStart, mask := mask, data := data }
  Ctx.makeLive { c with w := c.w.put r mask data, lag := c.lag ++ [u] } r

/-- Apply a queued update; updates of its bytes that a trap frame keeps are older, and have been overtaken. -/
def Ctx.applyLag (c : Ctx) (u : Lag) : Ctx :=
  let fr := c.frame.map fun f => { f with lag := Machine.overtake u.toWindow u.reg u.mask f.lag }
  if u.toWindow then { c with w := c.w.put u.reg u.mask u.data, frame := fr }
  else { c with r := c.r.put u.reg u.mask u.data, frame := fr }
/-- One instruction of a stream has ended: its queued updates come one nearer, and those at six are applied (R127). -/
def Ctx.endInstr (c : Ctx) (execute : Bool) : Ctx :=
  let l := c.lag.map fun u => if u.execute == execute then { u with left := u.left - 1 } else u
  (l.filter fun u => u.left == 0).foldl Ctx.applyLag { c with lag := l.filter fun u => u.left != 0 }
/-- Apply every queued update at once (R321). -/
def Ctx.flushLag (c : Ctx) : Ctx := c.lag.foldl Ctx.applyLag { c with lag := [] }

/-- Mark a register dead (R129, R130): it reads zero in both views. -/
def Ctx.markDead (c : Ctx) (r : RegName) : Ctx :=
  let all := BitVec.allOnes 4096
  let c := (c.overtake false r all).overtake true r all
  let c := { c with r := c.r.put r all 0, w := c.w.put r all 0 }
  match r with
  | .x n => { c with xlive := c.xlive &&& ~~~(BitVec.twoPow 32 n.toNat) }
  | .v n => { c with vlive := c.vlive &&& ~~~(BitVec.twoPow 32 n.toNat) }
  | _ => c
/-- Mark dead the x registers of a mask (bit 0 has no effect) and the v registers below n of a mask (R128, R344). -/
def Ctx.markX (c : Ctx) (m : BitVec 32) : Ctx :=
  (List.range 32).foldl (fun c i => if m.getLsbD i && i != 0 then c.markDead (.x (BitVec.ofNat 5 i)) else c) c
def Ctx.markV (c : Ctx) (m : BitVec 32) (n : Nat) : Ctx :=
  (List.range 32).foldl (fun c i => if m.getLsbD i && i < n then c.markDead (.v (BitVec.ofNat 5 i)) else c) c

def Ctx.readX (c : Ctx) (n : BitVec 5) : Word := if n = 0 then 0 else c.r.x[n.toNat]
def Ctx.writeX (c : Ctx) (d : BitVec 5) (v : Word) : Ctx :=
  if d = 0 then c else c.direct false (.x d) ((BitVec.allOnes 64).setWidth 4096) (v.setWidth 4096)
def Ctx.readG (c : Ctx) (n : BitVec 3) : Guard := if n = 0 then BitVec.allOnes 128 else c.r.g[n.toNat]
def Ctx.writeG (c : Ctx) (d : BitVec 3) (v : Guard) : Ctx :=
  if d = 0 then c else c.direct true (.g d) ((BitVec.allOnes 128).setWidth 4096) (v.setWidth 4096)
def Ctx.readV (c : Ctx) (n : BitVec 5) : Block := c.r.v[n.toNat]
def Ctx.writeV (c : Ctx) (d : BitVec 5) (mask v : Block) : Ctx := c.direct true (.v d) mask v
def Ctx.readK (c : Ctx) (n : BitVec 3) : Word := c.r.k[n.toNat]
def Ctx.kAddr (c : Ctx) (n : BitVec 3) : Nat := (c.readK n).toNat % 2 ^ 32
def Ctx.kStride (c : Ctx) (n : BitVec 3) : Int := toI 16 ((c.readK n).toNat / 2 ^ 32 % 2 ^ 16)
def Ctx.writeK (c : Ctx) (n : BitVec 3) (addr stride : Nat) : Ctx :=
  c.direct true (.k n) ((BitVec.allOnes 64).setWidth 4096)
    (BitVec.ofNat 4096 (addr % 2 ^ 32 + stride % 2 ^ 16 * 2 ^ 32))
def Ctx.flags (c : Ctx) (f : BitVec 6) : Ctx := { c with csr := { c.csr with fflags := c.csr.fflags ||| f } }

/-! ### Queues -/

def Queues.empty : Queues := { blocks := Vector.replicate 6 [], q6 := [], q7 := [], bq := [] }
/-- Entries and depth of q0-q7 and bq (8) (R121). -/
def Queues.count (q : Queues) (n : Nat) : Nat :=
  if h : n < 6 then q.blocks[n].length else if n = 6 then q.q6.length else if n = 7 then q.q7.length else q.bq.length
def queueDepth (n : Nat) : Nat := if n < 6 then 4 else 16
def Queues.full (q : Queues) (n : Nat) : Bool := queueDepth n ≤ q.count n
def Queues.isEmpty (q : Queues) (n : Nat) : Bool := q.count n == 0

/-- What the other stream's entry orders (R197): the popping stream is ordered after `stamp` stores of the pusher. -/
def Ctx.seeA (c : Ctx) (stamp : Nat) : Ctx :=
  let n := max c.seenA stamp
  { c with seenA := n, loose := c.loose.filter fun l => l.execute || n ≤ l.stamp }
def Ctx.seeE (c : Ctx) (stamp : Nat) : Ctx :=
  let n := max c.seenE stamp
  { c with seenE := n, loose := c.loose.filter fun l => !l.execute || n ≤ l.stamp }
/-- A class-S instruction orders both ways (R197). -/
def Ctx.seeBoth (c : Ctx) : Ctx := (c.seeA c.accA).seeE c.accE

def Ctx.pushBlock (c : Ctx) (n : Fin 6) (d : Block) : Ctx :=
  let st := if n.val < 4 then c.accA else c.accE
  { c with queues := { c.queues with blocks := c.queues.blocks.set n.val (c.queues.blocks[n.val] ++ [{ data := d, stamp := st }]) } }
def Ctx.headBlock (c : Ctx) (n : Fin 6) : Option QBlock := c.queues.blocks[n.val].head?
def Ctx.popBlock (c : Ctx) (n : Fin 6) : Ctx :=
  let c1 := match c.headBlock n with
    | some e => if n.val < 4 then c.seeA e.stamp else c.seeE e.stamp
    | none => c
  { c1 with queues := { c1.queues with blocks := c1.queues.blocks.set n.val (c1.queues.blocks[n.val].drop 1) } }
def Ctx.pushQ6 (c : Ctx) (d : Word) : Ctx :=
  { c with queues := { c.queues with q6 := c.queues.q6 ++ [{ data := d, stamp := c.accE }] } }
def Ctx.pushQ7 (c : Ctx) (d : Word) : Ctx :=
  { c with queues := { c.queues with q7 := c.queues.q7 ++ [{ data := d, stamp := c.accA }] } }
def Ctx.popQ6 (c : Ctx) : Ctx :=
  let c1 := match c.queues.q6.head? with | some e => c.seeE e.stamp | none => c
  { c1 with queues := { c1.queues with q6 := c1.queues.q6.drop 1 } }
def Ctx.popQ7 (c : Ctx) : Ctx :=
  let c1 := match c.queues.q7.head? with | some e => c.seeA e.stamp | none => c
  { c1 with queues := { c1.queues with q7 := c1.queues.q7.drop 1 } }
def Ctx.pushBq (c : Ctx) (dest : Word) (vmask : BitVec 32) : Ctx :=
  { c with queues := { c.queues with bq := c.queues.bq ++ [{ dest := dest, vmask := vmask, stamp := c.accA }] } }
def Ctx.popBq (c : Ctx) : Ctx :=
  let c1 := match c.queues.bq.head? with | some e => c.seeA e.stamp | none => c
  { c1 with queues := { c1.queues with bq := c1.queues.bq.drop 1 } }

/-! ### A new context -/

def Csrs.fresh (tvec bndt : Word) (mode : Bool) : Csrs :=
  { fflags := 0, cmask := 0, fmt := Vector.replicate 16 0, tvec := tvec, tcause := 0, tval := 0, epc := 0, epce := 0,
    bndt := bndt, tscr := 0, mode := mode, pmode := false, intrap := false, redir := false }
def RegFile.zero : RegFile :=
  { x := Vector.replicate 32 0, g := (Vector.replicate 8 0).set 0 (BitVec.allOnes 128), k := Vector.replicate 8 0,
    v := Vector.replicate 32 0 }
/-- A context at the start of its group or helper (R74, R92): x1 holds the argument, every other x and v register is
dead. Log 1. -/
def Ctx.fresh (num agent : Nat) (entry x1 tvec bndt : Word) (mode : Bool) : Ctx :=
  let f := RegFile.zero.put (.x 1) ((BitVec.allOnes 64).setWidth 4096) (x1.setWidth 4096)
  { num := num, sync := { agent := agent, acq := [], bars := [], lost := false }, past := [], relTag := 0, r := f, w := f,
    xlive := 2, vlive := 0, lag := [], pcA := entry, pcE := entry, seqA := 0, seqE := 0, seqP := 0, queues := Queues.empty,
    rep := none, waitA := none, waitE := none, heldA := none, heldE := none, retryA := false, retryE := false, xlinvOn := false,
    logHeld := false, relWait := none, loaded := none, tagged := none, listed := none,
    nextKernel := none, loading := none, popped := none, entering := none, askA := none, askE := none, rewritten := false, code := [], barWait := none, accA := 0, accE := 0, seenA := 0, seenE := 0,
    loose := [], loads := [], acqAt := 0, saw := [], regions := 0, endAt := 0, ahead := [], replayed := 0, saving := none, fenceRel := none,
    earlyReads := [],
    bounds := [], csr := Csrs.fresh tvec bndt mode, frame := none, arrCo := 0, arrLn := 0, evWait := 0, evGot := 0 }

def Pfe.empty : Pfe :=
  { desc := 0, near := 0, far := 0, bag := [], stack := [], seqno := 0, pending := [], walk := [], deferred := [], tasks := [],
    retired := [], left := none, deps := [] }
/-- A job at its arrival: what the message and its sender do not give. -/
def Job.new (agent : Nat) (cmd : Cmd) (vf : Nat) (bndt : Word) (launch : Option Nat) (cyc sec : Nat) : Job :=
  { id := 0, agent := agent, cmd := cmd, msg := 0, vf := vf, bndt := bndt, senders := [], launch := launch, qm := false,
    arrived := cyc, phase := .queued, pos := 0, oob := none, slotEnd := 0, arrivedSec := sec, begun := none,
    atBank := false, read := [], checked := false, rowSent := none, nack := none, pfe := Pfe.empty }
def JobRec.empty : JobRec := { busy := false, seq := 0, done := none, agent := 0, tile := none }

/-- The execute stream of the context has drained up to its access stream (R5). A class-S instruction between two instructions of a rep's
body finds it drained once its first pass has come there, the later passes still to come (log 103, DESIGN CHOICE). -/
def Ctx.drained (c : Ctx) : Bool := c.seqA ≤ c.seqE

/-- Raise an event line of a core (R292). -/
def State.raiseLine (s : State) (core line : Nat) : State :=
  s.updCore core fun k => { k with pending := k.pending ||| BitVec.twoPow 64 (line % 64) }

/-- The state with a fresh tick: the order in which accesses reach the checking points. -/
def State.tock (s : State) : State := { s with tick := s.tick + 1 }

end Sys2Proof.Machine
end

