-- ==== Sys2Proof/Machine/Order.lean ====
section
/-! DEFINITION. The memory model's checks: ordering, races, paths, records (R296-R316), releases and acquires (R280,
R281), the drop rule (R303). -/

namespace Sys2Proof.Machine

/-- Who makes an access: the views it may be checked by (several for a merged job, R235), its entry for the records, its
path (R289); for an access that its context is not ordered with all it has done, the count of those that the access is ordered after
(R197, R300); the xfences that its context has made and that follow the access in program order, by tick; and for a write of another
device the xfences there that it may cross paths by, each with the jobs whose writes were adopted before it (R315). -/
structure Who where
  syncs : List Sync
  entry : Entry
  path : Nat
  seen : Option Nat
  before : List Nat
  fences : List (XFence × List Nat)
  deriving DecidableEq, Repr

/-- Path numbers (R289). -/
def pathCore : Nat := 0
def pathCpy : Nat := 1
def pathIxe : Nat := 2
def pathMxe : Nat := 3
def pathPfe : Nat := 4
def pathCvr : Nat := 5
def pathTex : Nat := 6
def pathFab : Nat := 7

/-- The synchronisation that a stream's accesses are checked by (R300): the execute stream's is that before the first change
which it is not ordered after (R197, R281). -/
def Ctx.view (c : Ctx) (execute : Bool) : Sync :=
  if execute then ((c.past.find? fun x => c.seenA ≤ x.1).map (·.2)).getD c.sync else c.sync
/-- A change of a context's synchronisation, an access of its access stream (R281). -/
def Ctx.changeSync (c : Ctx) (y : Sync) : Ctx :=
  { c with past := c.past.filter (fun x => c.seenA ≤ x.1) ++ [(c.accA, c.sync)], sync := y, accA := c.accA + 1 }

/-- A context's accesses on path CORE or TEX. -/
def Ctx.who (c : Ctx) (execute : Bool) (path : Nat) : Who :=
  { syncs := [c.view execute],
    entry := { agent := c.sync.agent, rel := c.relTag + 1, own := c.sync.agent, ownRel := c.relTag + 1 },
    path := path, seen := if execute then some c.seenA else none,
    before := if execute then (c.ahead.filter fun x => c.seqE < x.1).map (·.2) else [], fences := [] }

/-- Agent a's releases up to this tag are acquired (R299). -/
def Sync.covers (y : Sync) (a rel : Nat) : Bool :=
  y.acq.any (fun q => q.agent == a && rel ≤ q.tag) || y.bars.any (fun q => q.agent == a && rel ≤ q.tag)

/-- What the context of an access did at a count of its accesses is before the access (R197). -/
def Who.sees (w : Who) (stamp : Nat) : Bool := match w.seen with | some n => stamp < n | none => true
/-- An earlier access is ordered before one that is checked by this view (R299, R303); a write of a job also where the job's
completion has been observed (R314). -/
def State.ordered (s : State) (write : Bool) (e : Entry) (w : Who) (y : Sync) : Bool :=
  e.agent == y.agent || s.gone.contains e.own || y.covers e.agent e.rel ||
    (write && s.adopted.any (fun d => d.job == e.agent && ((d.agent == y.agent && w.sees d.stamp) || y.covers d.agent d.rel)))
/-- Ordered before the access for some sender of a merged job. -/
def State.orderedW (s : State) (write : Bool) (e : Entry) (w : Who) : Bool :=
  e.agent == w.entry.agent || w.syncs.any (s.ordered write e w)

/-- A write is ordered before an xfence for its context (R289). A word that no agent has written is. -/
def State.coveredBy (s : State) (m : Option Mark) (f : XFence) : Bool :=
  match m with
  | none => true
  | some m =>
    let timely := m.tick < f.tick || m.before.contains f.tick
    if m.entry.agent == f.sync.agent then timely
    else timely &&
      (s.gone.contains m.entry.own || f.sync.covers m.entry.agent m.entry.rel ||
        s.adopted.any (fun d => d.job == m.entry.agent && d.tick < f.tick &&
          (d.agent == f.sync.agent || f.sync.covers d.agent d.rel)))
/-- An xfence is ordered before an access (R289). -/
def fenceSeen (f : XFence) (w : Who) : Bool :=
  w.syncs.any fun y => if f.sync.agent == y.agent then true else y.covers f.sync.agent f.rel
/-- A fence of this device may serve an access (R289): it is ordered before it. -/
def Who.passes (w : Who) (f : XFence) : Bool := fenceSeen f w && (f.sync.agent != w.entry.agent || w.sees f.stamp)
/-- A write is ordered before an xfence of another device (R289): by release numbers, since the two devices' ticks do not compare; a write
of the fence's own context in the region that the fence ends counts as before it (log 13). -/
def State.coveredAfar (s : State) (m : Option Mark) (f : XFence) (jobs : List Nat) : Bool :=
  match m with
  | none => true
  | some m =>
    (m.entry.agent == f.sync.agent && m.entry.rel ≤ f.rel) || s.gone.contains m.entry.own ||
      f.sync.covers m.entry.agent m.entry.rel || jobs.contains m.entry.agent
/-- The access may cross from the word's path (R315). -/
def State.pathOk (s : State) (m : Option Mark) (w : Who) : Bool :=
  let p := match m with | some m => m.path | none => pathCore
  p == w.path ||
    s.fences.any (fun f => f.src.getLsbD p && f.dst.getLsbD w.path && s.coveredBy m f && w.passes f) ||
    w.fences.any (fun x => x.1.src.getLsbD p && x.1.dst.getLsbD w.path && s.coveredAfar m x.1 x.2)

/-- The kinds of access (R298). Tag transitions carry no path (log 16). -/
inductive Kind where
  | read | write | atomic | tag
  deriving DecidableEq, Repr

/-- A byte range meets a row of an owned region. -/
def Owned.meets (o : Owned) (word : Nat) : Bool :=
  let lo := word * 4
  o.base ≤ lo + 3 &&
    (let r := if o.stride == 0 then 0 else (lo + 3 - o.base) / o.stride
     let r := min r (o.rows - 1)
     lo < o.base + r * o.stride + o.width && o.base + r * o.stride ≤ lo + 3)
/-- A region that the access may not touch (R253, R261, R266). -/
def State.ownedBlocks (s : State) (w : Who) (word : Nat) : Bool :=
  s.owned.any fun o => o.meets word && (o.path != w.path || (o.path == pathPfe && o.agent != w.entry.agent))

/-- The most lines of a die's tracked footprint, of those that its slices hold (R303); die 4 stands for memory without one. -/
def footprintLimit : Nat := 1048576
def State.lineTracked (s : State) (word : Nat) : Bool := s.recs.any (fun r => r.1 / 16 == word / 16)
/-- With the new lines that an access adds to it, a die's tracked footprint is more than it may hold. -/
def State.dieFull (s : State) (new : List Nat) (die : Nat) : Bool :=
  !new.isEmpty &&
    footprintLimit < (((s.recs.filter (fun r => r.2.die == die)).map (fun r => r.1 / 16)).dedup).length + new.length
/-- Some die has no room for the lines that an access adds to its footprint; `die`: that of a word's home slice. -/
def State.footprintFull (s : State) (die : Nat → Nat) (words : List Nat) : Bool :=
  footprintLimit < s.recs.length + words.length &&
    (let new := words.filter fun w => !s.lineTracked w
     (List.range 4).any fun d => s.dieFull ((new.filter fun w => die w == d).map (· / 16)).dedup d)

/-- The new lines of words of several homes, each with its die: some die has no room for those of one access together (R303). -/
def State.linesFull (s : State) (l : List (Nat × Nat)) : Bool :=
  (List.range 4).any fun d => s.dieFull ((l.filter fun x => x.1 == d).map (·.2)).dedup d
/-- The race check of one word (R301, R303, R309): the cause, if the access may not be made. A write to a word with the overflow
mark asks first for the order after its reads. -/
def State.raceWord (s : State) (w : Who) (k : Kind) (word : Nat) : Option Nat :=
  let cause := if w.syncs.any (·.lost) then 0x0A else 0x08
  if s.ownedBlocks w word then some 0x08
  else
    match alGet s.recs word with
    | none => none
    | some r =>
      let rd := k == Kind.write && r.readers.any (fun e => !s.orderedW false e w)
      let wr := match r.writer with
        | some e => (k == Kind.write || !r.atomic) && !s.orderedW true e w
        | none => false
      if rd && r.overflow then some 0x0A else if wr || rd then some cause else none
/-- The path check of one word (R315); `exempt` is R266's, for a CVR target on path CORE. -/
def State.pathWord (s : State) (w : Who) (k : Kind) (word : Nat) (exempt : Bool) : Option Nat :=
  let m := alGet s.marks word
  if k == Kind.tag || (exempt && (match m with | some m => m.path == pathCore | none => true)) || s.pathOk m w then none
  else some 0x09

/-- The words of a byte range. -/
def wordsOf (key n : Nat) : List Nat := (List.range ((key + n + 3) / 4 - key / 4)).map (fun i => key / 4 + i)

/-- The first cause over the words of an access: races of every word and room for its records, then paths (R303, R315). -/
def State.checkWords (s : State) (w : Who) (k : Kind) (words : List Nat) (die : Nat → Nat) (exempt : Bool) :
    Option Nat :=
  match words.findSome? (fun x => s.raceWord w k x) with
  | some c => some c
  | none => if s.footprintFull die words then some 0x0B else words.findSome? (fun x => s.pathWord w k x exempt)

/-- The record after an access. -/
def WordRec.note (r : WordRec) (w : Who) (k : Kind) : WordRec :=
  match k with
  | .read =>
    let others := r.readers.filter (fun e => e.agent != w.entry.agent)
    { r with readers := others ++ [w.entry], overflow := r.overflow || 4 < others.length + 1 }
  | .write => { r with writer := some w.entry, atomic := false, readers := [], overflow := false }
  | .atomic | .tag => { r with writer := some w.entry, atomic := true }
def WordRec.empty (die : Nat) : WordRec := { writer := none, atomic := false, readers := [], overflow := false, die := die }
/-- The value of a word is about to be replaced, at `tick`, by an atomic (R302). -/
def State.replaced (s : State) (word tick : Nat) : State :=
  let cur := BitVec.ofNat 32 (s.rd (word * 4) 4)
  let l := (alGet s.olds word).getD []
  { s with olds := alPut s.olds word ((tick, cur) :: (match l with | x :: r => if x.2 == cur then r else l | [] => [])) }
/-- Words that something other than an atomic writes have no earlier value that a load may return (R302). -/
def State.settledWords (s : State) (words : List Nat) : State :=
  if s.olds.isEmpty then s else { s with olds := s.olds.filter fun x => !words.contains x.1 }
/-- Note one word's access: its record, and its path mark where it is written. -/
def State.noteWord (w : Who) (k : Kind) (die : Nat → Nat) (s : State) (word : Nat) : State :=
  let s := match k with
    | .read => s
    | .write => s.settledWords [word]
    | .atomic | .tag => s.replaced word s.tick
  let s := { s with recs := alPut s.recs word (((alGet s.recs word).getD (WordRec.empty (die word))).note w k) }
  if k == Kind.write || k == Kind.atomic then
    { s with marks := alPut s.marks word { path := w.path, entry := w.entry, tick := s.tick, before := w.before } }
  else s
def State.noteWords (s : State) (w : Who) (k : Kind) (words : List Nat) (die : Nat → Nat) : State :=
  words.foldl (State.noteWord w k die) s.tock

/-! ### Releases and acquires -/

/-- The end of a region (R300), at the access stream's place: what a fence could have used is gone, but for the reads that the execute
stream has made behind it in program order. -/
def Ctx.endRegion (c : Ctx) : Ctx :=
  { c with fenceRel := none, earlyReads := c.earlyReads.filter fun r => c.seqA < r.seq, regions := c.regions + 1, endAt := c.seqA + 1 }
/-- The early reads as they stand once the sequence is numbered afresh. -/
def earlyBefore (l : List EarlyRead) : List EarlyRead := l.map fun r => { r with seq := 0 }
/-- Take the next release tag (R280). -/
def Ctx.release (c : Ctx) : Ctx := { c with relTag := c.relTag + 1 }.endRegion
/-- Put an entry into the acquire set (R281): one per variable, sixteen in all. -/
def Sync.put (y : Sync) (a : Acq) : Sync :=
  let l := y.acq.filter (fun q => q.var != a.var) ++ [a]
  if 16 < l.length then { y with acq := l.drop 1, lost := true } else { y with acq := l }
/-- Add an entry beside those of other agents' releases of the variable: a group start writes one for each release that it
acquires (R83, R299). -/
def Sync.add (y : Sync) (a : Acq) : Sync :=
  let l := y.acq.filter (fun q => !(q.var == a.var && q.agent == a.agent)) ++ [a]
  if 16 < l.length then { y with acq := l.drop 1, lost := true } else { y with acq := l }
/-- An acquire that synchronises with a release of agent `a` with this tag. -/
def Ctx.acquire (c : Ctx) (var a tag : Nat) : Ctx :=
  (c.changeSync (c.sync.put { var := var, agent := a, tag := tag })).endRegion
/-- An acquire that does not synchronise writes nothing (R281) and ends the region (R300). -/
def Ctx.acquireNone (c : Ctx) : Ctx := { c with accA := c.accA + 1 }.endRegion
/-- The agent acquires at `tick`: it sees no value that was replaced before (R302). -/
def Ctx.acquiredAt (c : Ctx) (tick : Nat) : Ctx := { c with acqAt := max c.acqAt tick }

def Group.loc (g : Group) : Loc := { vf := g.vf, launch := g.launch, gid := g.id, core := g.core }
/-- The agent at b is a member of the scope of the agent at a (R84, R281). Agents of other devices have core 2048. -/
def State.inScope (s : State) (sc : Scope) (a b : Loc) : Bool :=
  let here := a.core < 2048 && b.core < 2048
  match sc with
  | .ln => false
  | .co => here && a.gid == b.gid
  | .cl => here && a.launch == b.launch && clusterOf a.core == clusterOf b.core
  | .di => here && a.launch == b.launch && dieOfCore a.core == dieOfCore b.core
  | .pk => here && a.vf == b.vf
  | .pd => a.vf == b.vf && (here || s.pods.any (fun p => p.launches.contains (min a.launch b.launch) ||
      p.launches.contains (max a.launch b.launch)))
/-- The latest release of a variable within n bytes, no later than `tick`, that an acquire at this scope synchronises
with (R281). -/
def State.relOf (s : State) (var n tick : Nat) (sc : Scope) (l : Loc) : Option Rel :=
  s.rels.find? fun r => var ≤ r.var && r.var < var + n && r.tick ≤ tick && s.inScope r.scope r.loc l && s.inScope sc l r.loc
/-- A release of a variable has been performed. -/
def State.addRel (s : State) (r : Rel) : State := { s with rels := r :: s.rels }
/-- Acquire at a scope what a read of n bytes at `tick` has read (R281). -/
def State.acquireVar (s : State) (gid num : Nat) (var n tick : Nat) (sc : Scope) : State :=
  match s.group? gid with
  | none => s
  | some g =>
    match s.relOf var n tick sc g.loc with
    | some r => s.updCtx gid num fun c => (c.acquire r.var r.agent r.tag).acquiredAt s.tick
    | none => s.updCtx gid num fun c => c.acquireNone.acquiredAt s.tick
/-- A read at a place of the sequence that a later fence may turn into an acquire (R288), of variables that have been released. `tick`:
when the value read was written at the latest. -/
def State.noteEarlyAt (s : State) (gid num : Nat) (var n tick : Nat) (place : Ctx → Nat) : State :=
  match (s.rels.filter (fun r => var ≤ r.var && r.var < var + n)).map (fun r => r.var) with
  | [] => s
  | l => s.updCtx gid num fun c =>
      { c with earlyReads := c.earlyReads ++ l.dedup.map fun v => { var := v, tick := tick, seq := place c } }
/-- Such a read of the access stream. -/
def State.noteEarly (s : State) (gid num : Nat) (var n tick : Nat) : State := s.noteEarlyAt gid num var n tick (·.seqA)

/-- A read of the execute stream likewise; one that a region end of the access stream follows in program order belongs to an earlier
region (R300). -/
def State.noteEarlyE (s : State) (g : Group) (c : Ctx) (var n tick : Nat) : State :=
  if c.endAt ≤ c.seqE then s.noteEarlyAt g.id c.num var n tick (·.seqE) else s

/-! ### Writes over the fabric -/

/-- A function uses the fabric (R311). -/
def State.usesFabric (s : State) (vf : Nat) : State := { s with fabUsers := if s.fabUsers.contains vf then s.fabUsers else s.fabUsers ++ [vf] }
/-- Send a write over the fabric (R310): from this device, with the stream's next sequence. -/
def State.sendFabric (s : State) (w : FabWrite) : State :=
  let n := ((alGet s.streams w.stream).getD 0 + 1) % 2 ^ 32
  { s.usesFabric w.vf with streams := alPut s.streams w.stream n, sent := s.sent ++ [{ w with src := s.device, seq := n }] }
/-- The adopted jobs whose writes a release of an agent with this tag covers, and those that accesses with these views are ordered after:
the job, the agent, and the number of the release that adopts it (R314). -/
def State.adoptsOf (s : State) (agent tag : Nat) (syncs : List Sync) : List (Nat × Nat × Nat) :=
  (s.adopted.filter fun d => (d.agent == agent && d.rel ≤ tag) || syncs.any fun y => y.covers d.agent d.rel).map fun d =>
    (d.job, d.agent, d.rel)
/-- The xfences by which an access that goes to another device may cross paths (R289, R315), each with the jobs whose writes its context
had adopted or acquired before it. -/
def State.fencesFor (s : State) (w : Who) : List (XFence × List Nat) :=
  (s.fences.filter fun f => f.dst.getLsbD w.path && w.passes f).map fun f =>
    (f, (s.adopted.filter fun d => d.tick < f.tick && (d.agent == f.sync.agent || f.sync.covers d.agent d.rel)).map (·.job))
/-- What the home of another device checks a write by (R299, R313-R315). -/
def State.checkedBy (s : State) (w : Who) (tag : Nat) (x : FabWrite) : FabWrite :=
  { x with agent := w.entry.agent, rel := w.entry.rel, own := w.entry.own, ownRel := w.entry.ownRel, syncs := w.syncs,
           fences := s.fencesFor w, tag := tag, adopts := s.adoptsOf w.entry.agent tag w.syncs }
/-- Other devices drop the entries of agents (R303), where the function uses the fabric; `all`: they are gone. -/
def State.tellEnds (s : State) (vf : Nat) (all : Bool) (l : List (Nat × Option Nat)) : State :=
  if s.fabUsers.contains vf && !l.isEmpty then
    s.sendFabric { FabWrite.new 6144 0xFFFF vf 0 [] with flag := all, ends := l }
  else s

/-! ### The drop rule (R303) -/

/-- Drop the entries that satisfy p from a record; none once nothing is left. -/
def WordRec.drop (r : WordRec) (p : Entry → Bool) : Option WordRec :=
  let w := match r.writer with | some e => if p e then none else some e | none => none
  let rd := r.readers.filter (fun e => !p e)
  if w.isNone && rd.isEmpty then none
  else some { r with writer := w, atomic := r.atomic && w.isSome, readers := rd, overflow := r.overflow && !rd.isEmpty }
/-- Drop entries at every slice, or in scratch and cluster memory only. -/
def State.dropEntries (s : State) (global : Bool) (p : Entry → Bool) : State :=
  { s with recs := s.recs.filterMap fun (k, r) =>
      if global || r.die == 4 then (r.drop p).map fun r' => (k, r') else some (k, r) }

end Sys2Proof.Machine
end

