-- ==== Sys2Proof/Machine/Records.lean ====
section
/-! DEFINITION. Time (R3, R211, R352-R354), supervisor records and the fault queue (R323), performance counters (R332),
migration counters and the notification queue (R228, R229). -/

namespace Sys2Proof.Machine

/-! ### Time -/

/-- The unit of the PHC field: 1 ns is 3 x 10^12 of them, so that one cycle of the clock at rate 1 is 10^12 (log 4). -/
def phcUnit : Nat := 3000000000000
def nsPerSec : Nat := 1000000000
/-- PHC time in whole nanoseconds. -/
def State.phcNs (s : State) : Nat := s.phc / phcUnit
def State.phcSec (s : State) : Nat := s.phcNs / nsPerSec % 2 ^ 48
def State.phcSub (s : State) : Nat := s.phcNs % nsPerSec
/-- The format of phcrd FN 0 (R294). -/
def State.phcWord (s : State) : Word := BitVec.ofNat 64 (s.phcSec % 2 ^ 32 * 2 ^ 32 + s.phcSub)
/-- The rate's departure in parts per 10^12: the slew and the servo's correction, held within 200 ppm (R352, R354). -/
def maxRate : Int := 200000000
def State.rate (s : State) : Int :=
  max (-maxRate) (min maxRate (s.freq + (if s.clk == 1 then s.correction else 0)))

/-- The PHC's seconds in n cycles from now. -/
def State.secIn (s : State) (n : Nat) : Nat :=
  (s.phc + n * (1000000000000 + s.rate).toNat) / phcUnit / nsPerSec % 2 ^ 48

/-- The bank of a weight-store address and whether it is in its refresh window (R210, R211). -/
def bankOf (pa : Nat) : Nat := bits pa 28 25
def State.phase (s : State) : Nat := s.phcNs % 16000
def State.refreshing (s : State) (bank : Nat) : Bool := 1000 * bank ≤ s.phase && s.phase < 1000 * bank + 320
/-- RFWIN (R212). -/
def State.rfwin (s : State) : Word :=
  let p := s.phase
  let b := p / 1000
  let busy := b < 16 && p % 1000 < 320
  let bank := if busy then b else (b + 1) % 16
  BitVec.ofNat 64 (bank * 2 ^ 32 + (if busy then 2 ^ 31 else 0) + p)

/-! ### The fault queue -/

/-- A fault record (R323). -/
def faultRecord (addr pc : Word) (job core ctx src : Nat) (halt malf : Bool) (cause : Nat) : List Byte :=
  bytesOfNat 32 (addr.toNat * 2 ^ 192 + pc.toNat * 2 ^ 128 + job % 2 ^ 16 * 2 ^ 48 + core % 2 ^ 11 * 2 ^ 37 +
    ctx % 2 ^ 4 * 2 ^ 33 + src % 2 ^ 4 * 2 ^ 29 + (if halt then 2 ^ 9 else 0) + (if malf then 2 ^ 8 else 0) + cause % 2 ^ 8)
def State.fqHead (s : State) (vf : Nat) : Nat := s.rd (hbm (s.vf vf).fq) 4
def State.fqTail (s : State) (vf : Nat) : Nat := s.rd (hbm ((s.vf vf).fq + 4)) 4
/-- The number of records in the queue. -/
def State.fqCount (s : State) (vf : Nat) : Nat := (s.fqTail vf + 2 ^ 32 - s.fqHead vf) % 2 ^ 32
def State.fqFull (s : State) (vf : Nat) : Bool := 256 ≤ s.fqCount vf
/-- Write a record into the entry of record number tail, then advance tail; a later load finds no earlier value of them (R371). -/
def State.fqPut (s : State) (vf : Nat) (data : List Byte) : State :=
  let fq := (s.vf vf).fq
  let t := s.fqTail vf
  let e := hbm (fq + 64 + 32 * (t % 256))
  (((s.settledWords (hbm (fq + 4) / 4 :: wordsOf e 32)).wrBytes e data).wr (hbm (fq + 4)) 4 ((t + 1) % 2 ^ 32))
/-- Deliver a record for a held unit or a halt: it waits at its producer while the queue is full. A unit whose record waits is
held still, and gives no second one (R323). -/
def State.report (s : State) (vf : Nat) (data : List Byte) : State :=
  if s.pending.any (fun p => p.vf == vf && p.data == data) then s
  else if s.fqFull vf || s.pending.any (fun p => p.vf == vf) then { s with pending := s.pending ++ [{ vf := vf, data := data }] }
  else s.fqPut vf data
/-- Deliver an informational record: dropped and counted in lost while the queue is full. -/
def State.inform (s : State) (vf : Nat) (data : List Byte) : State :=
  if s.fqFull vf then
    let a := hbm ((s.vf vf).fq + 8)
    s.wr a 4 ((s.rd a 4 + 1) % 2 ^ 32)
  else s.fqPut vf data
/-- Records that wait enter the queue as it gets room. -/
def drainList (s : State) : List Pending → State
  | [] => s
  | p :: r =>
    if s.fqFull p.vf then let t := drainList s r; { t with pending := p :: t.pending }
    else drainList (s.fqPut p.vf p.data) r
def State.drainPending (s : State) : State :=
  match s.pending with
  | [] => s
  | l => drainList { s with pending := [] } l

/-! ### Performance counters -/

/-- Count n events of a code on a core (R332): the counters that select it in this mode advance; a wrap sets ovf and may
report cause 0x24. -/
def State.countOne (core ev n vf : Nat) (mode : Bool) (s : State) (i : Fin 8) : State :=
  let c := s.core core
  let sel := c.pmsel[i.val].toNat
  if sel % 2 ^ 16 == ev && (if mode then bit sel 18 else bit sel 17) then
    let v := c.pmc[i.val].toNat + n
    let s := s.updCore core fun c =>
      { c with pmc := c.pmc.set i.val (BitVec.ofNat 48 v),
               pmsel := if v < 2 ^ 48 then c.pmsel else c.pmsel.set i.val (c.pmsel[i.val] ||| BitVec.twoPow 64 63) }
    if v < 2 ^ 48 || !bit sel 19 then s
    else s.inform vf (faultRecord (BitVec.ofNat 64 i.val) 0 0 core 0 8 false false 0x24)
  else s
def State.count (s : State) (core ev n vf : Nat) (mode : Bool) : State :=
  match alGet s.cores core with
  | none => s
  | some c =>
    if c.pmsel.toList.all (fun w => w == 0) || n == 0 then s
    else (List.finRange 8).foldl (State.countOne core ev n vf mode) s
/-- Count for the context the cursor names. -/
def State.countHere (s : State) (ev n : Nat) : State :=
  match s.here? with
  | some (g, c) => s.count g.core ev n g.vf c.csr.mode
  | none => s

/-- Cycles pass: the clock, the PHC at its rate, budgets of running groups (R78), cycle counters. -/
def State.advance (s : State) (n : Nat) : State :=
  let s := { s with cyc := s.cyc + n, phc := s.phc + n * (1000000000000 + s.rate).toNat,
                    groups := s.groups.map fun (g : Group) => if g.runs then { g with used := g.used + n } else g }
  s.groups.foldl (fun (s : State) (g : Group) =>
    if g.runs then s.count g.core 1 n g.vf (match g.ctx? 0 with | some c => c.csr.mode | none => false) else s) s

/-! ### Migration counters -/

def pageOf (pa : Nat) : Nat := pa / 2 ^ 19
def State.nqHead (s : State) (vf : Nat) : Nat := s.rd (hbm (s.vf vf).nq) 4
def State.nqTail (s : State) (vf : Nat) : Nat := s.rd (hbm ((s.vf vf).nq + 4)) 4
def State.nqFull (s : State) (vf : Nat) : Bool := 1024 ≤ (s.nqTail vf + 2 ^ 32 - s.nqHead vf) % 2 ^ 32
/-- Write a notification entry and advance tail (R229). -/
def State.nqPut (s : State) (vf page count : Nat) (ovf : Bool) : State :=
  let nq := (s.vf vf).nq
  let t := s.nqTail vf
  (s.wr (hbm (nq + 64 + 8 * (t % 1024))) 8 ((if ovf then 2 ^ 63 else 0) + page % 2 ^ 20 * 2 ^ 19 + count)).wr
    (hbm (nq + 4)) 4 ((t + 1) % 2 ^ 32)
/-- Set or clear the pending-summary bit. -/
def State.nqPending (s : State) (vf : Nat) (b : Bool) : State :=
  let a := hbm ((s.vf vf).nq + 8)
  let v := s.rd a 4
  s.wr a 4 (v / 2 * 2 + (if b then 1 else 0))
/-- A line fill or write-back reaches a page through a leaf with mc = 1 (R228). The page belongs to the function of its latest fill
or write-back; while it is queued or has overflowed, to that whose queue it is in (R229; log 15). -/
def State.countPage (s : State) (vf pa : Nat) : State :=
  let pg := pageOf pa
  let p := (alGet s.pages pg).getD { count := 0, vf := vf, queued := none, overflow := false }
  let n := min 65535 (p.count + 1)
  let p' := { p with count := n, vf := if p.queued.isSome || p.overflow then p.vf else vf }
  let th := (s.vf vf).migth.toNat
  if p.count < n && n == th && th != 0 && p.queued.isNone && !p.overflow then
    if s.nqFull vf then
      ({ s with pages := alPut s.pages pg { p' with overflow := true } }).nqPending vf true
    else
      ({ s with pages := alPut s.pages pg { p' with queued := some (s.nqTail vf) } }).nqPut vf pg n false
  else { s with pages := alPut s.pages pg p' }

/-! ### Stores that the machine watches -/

/-- Two byte ranges meet. -/
def overlaps (a n b m : Nat) : Bool := a < b + m && b < a + n
/-- A store may be a write of a fault queue's or a notification queue's head (R229, R323). -/
def State.hookFq (old : State) (key n : Nat) (s : State) (v : Nat × Vf) : State :=
  let fq := v.2.fq
  if fq != 0 && overlaps key n (hbm fq) 4 && 256 < s.fqCount v.1 then
    { (s.wr (hbm fq) 4 (old.rd (hbm fq) 4)) with errors := s.errors ++ [{ kind := .head, vf := some v.1, addr := fq }] }
  else s
def State.hookNq (key n : Nat) (s : State) (v : Nat × Vf) : State :=
  let nq := v.2.nq
  if nq != 0 && overlaps key n (hbm nq) 4 then
    let h := s.nqHead v.1
    { s with pages := s.pages.map fun (k, p) =>
        match p.queued with
        | some i => if p.vf == v.1 && (h + 2 ^ 32 - i) % 2 ^ 32 ≤ 1024 && h != i then (k, { p with count := 0, queued := none })
            else (k, p)
        | none => (k, p) }
  else s
def State.hook (s old : State) (key n : Nat) : State :=
  let t := s.vfs.foldl (State.hookFq old key n) s
  (t.vfs.foldl (State.hookNq key n) t).drainPending
/-- The bytes of a line with those of a store in it replaced. -/
def overLine (line key : Nat) (b : List Byte) (bytes : List Byte) : List Byte :=
  (bytes.zipIdx).map fun (x, i) => if key ≤ 64 * line + i && 64 * line + i < key + b.length then b.getD (64 * line + i - key) x else x
/-- The version of a line of code that a store of these bytes has left at its own tick (R99). -/
def CodeVersion.left (v : CodeVersion) (tick key n : Nat) : Bool := v.tick == tick && v.key ≤ key && key + n ≤ v.key + v.len
/-- A store that has left no version of a line of code is seen by every fetch (R99): it stands in the versions that earlier stores
have left. -/
def State.overCode (s : State) (key : Nat) (b : List Byte) : State :=
  if s.code.isEmpty then s
  else
    { s with code := s.code.map fun (line, l) =>
        if overlaps key b.length (64 * line) 64 && !l.any (fun (v : CodeVersion) => v.left s.tick key b.length) then
          (line, l.map fun (v : CodeVersion) => { v with bytes := overLine line key b v.bytes })
        else (line, l) }
/-- Where the image of context n begins in a group's context area (R330). -/
def imgCtx (n : Nat) : Nat := 0x10000 + 0x10000 * n
/-- A store has written EPC in the image of a context of a group that is off its core (R331). -/
def Group.storedTo (g : Group) (key n : Nat) : Group :=
  if g.runs then g
  else
    { g with ctxs := g.ctxs.map fun (c : Ctx) =>
        if overlaps key n (hbm g.ctxa.toNat + imgCtx c.num + 0x318) 8 then { c with rewritten := true } else c }
/-- A store of bytes to any memory that agents, engines or the host write. -/
def State.store (s : State) (key : Nat) (b : List Byte) : State :=
  let t := ((s.overCode key b).wrBytes key b).hook s key b.length
  if key / 2 ^ 60 = 0 then { t with groups := t.groups.map fun g => g.storedTo key b.length } else t

end Sys2Proof.Machine
end

