-- ==== Sys2Proof/Machine/Access.lean ====
section
/-! DEFINITION. Addresses to places: home slices, page tables and leaves (R208-R217), the bounds table (R214), local
addresses and the register window (R125, R126, R150), the side log's part in loads and stores (R154-R157), line metadata
(R206, R207), and one context's reads and writes of memory. -/

namespace Sys2Proof.Machine

/-! ### Translation -/

/-- The ranges homed on a die for a virtual function (R209): base, length, die. -/
def State.homed (s : State) (vf : Nat) : List (Nat × Nat × Nat) :=
  (s.launches.filter (fun l => l.vf == vf)).flatMap (·.ranges)
def xorFields (w L : Nat) : Nat → Nat
  | 0 => 0
  | n + 1 => (L / 2 ^ (w * n) % 2 ^ w) ^^^ xorFields w L n
/-- The home slice of an address (R208). -/
def State.homeSlice (s : State) (vf va : Nat) : Nat :=
  let a := va % 2 ^ 56
  let L := a / 64
  match (s.homed vf).find? (fun (b, n, _) => b ≤ a && a < b + n) with
  | some (_, _, d) => 64 * d + xorFields 6 L 9
  | none => xorFields 8 L 7

def leafValid (e : Nat) : Bool := bit e 0
def leafIs (e : Nat) : Bool := bit e 1
def leafR (e : Nat) : Bool := bit e 2
def leafW (e : Nat) : Bool := bit e 3
def leafX (e : Nat) : Bool := bit e 4
def leafMc (e : Nat) : Bool := bit e 5
def leafPolicy (e : Nat) : Nat := bits e 7 6
def leafTag (e : Nat) : Nat := bits e 15 8
def leafSpace (e : Nat) : Nat := bits e 17 16
def leafFrame (e : Nat) : Nat := e / 2 ^ 19 * 2 ^ 19
/-- R217 for a leaf. -/
def leafOk (e : Nat) (big : Bool) : Bool :=
  !bit e 18 && leafSpace e != 3 && leafPolicy e != 3 && (!big || bits e 31 19 == 0)
def tableOk (e : Nat) : Bool := bits e 15 2 == 0
def tableOf (e : Nat) : Nat := e / 2 ^ 16 * 2 ^ 16

/-- What a walk finds: a leaf (and whether it maps 4 GiB), or nothing, malformed or not (R217). -/
inductive Walk where
  | leaf (e : Nat) (big : Bool)
  | none (malformed : Bool)
  deriving DecidableEq, Repr
/-- The walk of R215. -/
def State.walk (s : State) (vf va : Nat) : Walk :=
  let e1 := s.rd (hbm ((s.vf vf).ptroot + 8 * bits va 55 44)) 8
  if !leafValid e1 then .none false
  else if leafIs e1 || !tableOk e1 then .none true
  else
    let e2 := s.rd (hbm (tableOf e1 + 8 * bits va 43 32)) 8
    if !leafValid e2 then .none false
    else if leafIs e2 then (if leafOk e2 true then .leaf e2 true else .none true)
    else if !tableOk e2 then .none true
    else
      let e3 := s.rd (hbm (tableOf e2 + 8 * bits va 31 19)) 8
      if !leafValid e3 then .none false
      else if leafIs e3 && leafOk e3 false then .leaf e3 false else .none true
/-- The name of a kept translation: its page, and whether it is a 4 GiB one. -/
def keptName (va : Nat) (big : Bool) : Nat := if big then bits va 55 32 * 2 + 1 else bits va 55 19 * 2
/-- The slice of the address uses a translation it has kept, else it walks (R215). -/
def State.translate (s : State) (vf va : Nat) : Walk :=
  let sl := vf * 256 + s.homeSlice vf va
  match s.xlat.find? (fun (k, n, _) => k == sl && (n == keptName va true || n == keptName va false)) with
  | some (_, n, e) => .leaf e.toNat (n % 2 == 1)
  | none => s.walk vf va
/-- Keep a walked leaf. -/
def State.keep (s : State) (vf va e : Nat) (big : Bool) : State :=
  let sl := vf * 256 + s.homeSlice vf va
  if s.xlat.any (fun (k, n, _) => k == sl && n == keptName va big) then s
  else { s with xlat := (sl, keptName va big, BitVec.ofNat 64 e) :: s.xlat }
/-- What the slice of an address keeps of its walk (R215). -/
def State.keepWalk (s : State) (vf va : Nat) : State :=
  match s.translate vf va with
  | .leaf e big => s.keep vf va e big
  | .none _ => s
/-- The physical address of an access in a page. -/
def physOf (e va : Nat) (big : Bool) : Nat := leafFrame e + (if big then va % 2 ^ 32 else va % 2 ^ 19)
/-- The key of a leaf's frame. -/
def leafKey (e : Nat) : Nat := keyOf (leafSpace e) (leafFrame e)

/-! ### Bounds -/

/-- Entry idx of a bounds table. -/
def State.boundsAt (s : State) (bndt : Word) (idx : Nat) : BitVec 128 :=
  BitVec.ofNat 128 (s.rd (hbm (bndt.toNat + 16 * idx)) 16)
/-- The context's copy of the entry, else the table's (R214). -/
def State.boundsOf (s : State) (c : Ctx) (idx : Nat) : BitVec 128 :=
  (alGet c.bounds idx).getD (s.boundsAt c.csr.bndt idx)
def Ctx.keepBounds (c : Ctx) (idx : Nat) (e : BitVec 128) : Ctx :=
  if (alGet c.bounds idx).isSome then c else { c with bounds := alPut c.bounds idx e }
/-- Step 2 of R151 without the right: the access lies within the entry. -/
def boundsOk (e : BitVec 128) (ptr n : Nat) : Bool :=
  let x := e.toNat
  let va := ptr % 2 ^ 56
  bit x 127 && bits x 126 123 == 0 && bits x 63 56 == 0 && bits x 55 0 ≤ va && va + n ≤ bits x 119 64

/-- The right an access needs: read, write, both, or execute (R98, R151). -/
inductive Right where
  | r | w | rw | x
  deriving DecidableEq, Repr
def Right.writes (k : Right) : Bool := k == .w || k == .rw
def Right.bound (e : BitVec 128) : Right → Bool
  | .r => e.getLsbD 120 | .w => e.getLsbD 121 | .rw => e.getLsbD 120 && e.getLsbD 121 | .x => e.getLsbD 122
def Right.leaf (e : Nat) : Right → Bool
  | .r => leafR e | .w => leafW e | .rw => leafR e && leafW e | .x => leafX e

/-! ### Probes -/

/-- Where an access falls: memory at a key, with its home slice (256 for local memory), whether its words are tracked
(R303), and its leaf, virtual address and virtual function; or a register image. -/
inductive Spot where
  | mem (key home : Nat) (tracked : Bool) (leaf : Option (Nat × Nat × Nat))
  | win (img off : Nat)
  deriving DecidableEq, Repr
inductive Probe where
  | at (p : Spot)
  | page (va : Nat) (malformed : Bool)
  | trap (cause : Nat)
  deriving DecidableEq, Repr

/-- A virtual function holds a core of a cluster (R205). -/
def State.holdsCluster (s : State) (vf cl : Nat) : Bool :=
  s.groups.any fun g => g.runs && g.vf == vf && clusterOf g.core == cl
/-- The home of local memory, which has no slice; its die reads as 4. -/
def localHome : Nat := 256
/-- R205: a cluster-memory pointer. -/
def State.probeCluster (s : State) (vf ptr n : Nat) : Probe :=
  if bits ptr 55 40 != 0 || 2 ^ 22 < ptr % 2 ^ 32 + n then .trap 0x12
  else if !s.holdsCluster vf (bits ptr 39 32) then .trap 0x14
  else .at (.mem (cmKey (bits ptr 39 32) (ptr % 2 ^ 32)) localHome true none)
/-- A group of the virtual function runs on a die (R210). -/
def State.runsOnDie (s : State) (vf die : Nat) : Bool := s.groups.any fun g => g.runs && g.vf == vf && dieOfCore g.core == die
/-- The weight store's die of a physical address (R210). -/
def wsDie (pa : Nat) : Nat := bits pa 30 29
/-- Steps 3-6 of R151 in one page; `barred`: the dies to whose weight store the access may not write (R210). -/
def State.probeLeaf (s : State) (vf ptr : Nat) (right : Right) (barred : Nat → Bool) : Probe :=
  match s.translate vf ptr with
  | .none m => .page ptr m
  | .leaf e big =>
    if leafTag e != 0 && leafTag e != bits ptr 63 56 then .trap 0x13
    else if !right.leaf e then .trap 0x14
    else if right.writes && leafSpace e == 1 && barred (wsDie (physOf e ptr big)) then .trap 0x16
    else
      .at (.mem (keyOf (leafSpace e) (physOf e ptr big)) (s.homeSlice vf ptr) (leafW e && leafSpace e != 1)
        (some (e, ptr % 2 ^ 56, vf)))
/-- A core's access: every store to the weight store fails (R151). -/
def State.probePage (s : State) (vf ptr : Nat) (right : Right) : Probe := s.probeLeaf vf ptr right fun _ => true
/-- Steps 2-6 of R151 (R205 for cluster memory). -/
def State.probeGlobal (s : State) (vf : Nat) (entry : BitVec 128) (ptr n : Nat) (right : Right) : Probe :=
  if bits ptr 63 56 == 0xFE then (if right == .x then .trap 0x14 else s.probeCluster vf ptr n)
  else if !boundsOk entry ptr n then .trap 0x12
  else if !right.bound entry then .trap 0x14
  else s.probePage vf ptr right

def winBase : Nat := 0x00200000
def winEnd : Nat := 0x00258000
def cmBase : Nat := 0x01000000
def cmEnd : Nat := 0x01400000
/-- The range of a local address (R90, R125, R150). -/
def placeLocal (g : Group) (la n : Nat) : Option Spot :=
  if la + n ≤ 16384 * g.scratch then some (.mem (scrKey g.core la) localHome true none)
  else if winBase ≤ la && la + n ≤ winEnd then some (.win ((la - winBase) / 0x8000) ((la - winBase) % 0x8000))
  else if cmBase ≤ la && la + n ≤ cmEnd then some (.mem (cmKey (clusterOf g.core) (la - cmBase)) localHome true none)
  else none
/-- Whether a context may touch the image (R126). -/
def imageOk (g : Group) (c : Ctx) (img : Nat) : Bool :=
  img == c.num || (c.csr.mode && !(g.ctx? img).isSome)
/-- R126 for the access stream: x images only. -/
def winOkA (g : Group) (c : Ctx) (img off n : Nat) : Bool := imageOk g c img && off + n ≤ 0x100
/-- R126 for the execute stream: exactly one v register below the declared count. That holds of a block through [kN+] in any instruction,
not in vlds and vsts only (log 114, DEDUCED). -/
def winOkE (g : Group) (c : Ctx) (img off n : Nat) : Bool :=
  imageOk g c img && n == 512 && 0x4000 ≤ off && off % 512 == 0 && (off - 0x4000) / 512 < kRegs g.kobj
/-- R150. -/
def probeLocal (g : Group) (c : Ctx) (execute : Bool) (la n align : Nat) : Probe :=
  if la % align != 0 then .trap 0x15
  else
    match placeLocal g la n with
    | none => .trap 0x12
    | some (.win img off) =>
      if (if execute then winOkE g c img off n else winOkA g c img off n) then .at (.win img off) else .trap 0x05
    | some p => .at p
/-- R149: a pointer whose bits [63:32] are zero is local. -/
def isLocal (ea : Word) : Bool := ea.toNat / 2 ^ 32 == 0
/-- R150 or R151, steps 1 to 6, for an access of the access stream within one page. -/
def State.probeA (s : State) (g : Group) (c : Ctx) (ea : Word) (n align : Nat) (right : Right) : Probe :=
  if isLocal ea then probeLocal g c false ea.toNat n align
  else if ea.toNat % align != 0 then .trap 0x15
  else s.probeGlobal g.vf (s.boundsOf c (bits ea.toNat 63 56)) ea.toNat n right

/-- The die of the home slice of a word at a spot (R208, R303); 4 for local memory. -/
def State.dieAt (s : State) (p : Spot) (word : Nat) : Nat :=
  match p with
  | .mem key _ _ (some (_, va, vf)) => dieOfCluster (s.homeSlice vf (va + 4 * word - key))
  | _ => 4
/-- The race and path check of an access at a spot (R151 step 7, R315). -/
def State.checkSpot (s : State) (w : Who) (k : Kind) (p : Spot) (n : Nat) : Option Nat :=
  match p with
  | .win _ _ => none
  | .mem key _ tracked _ => if tracked then s.checkWords w k (wordsOf key n) (s.dieAt p) false else none
/-- One code line as it is before a store (R99). -/
def State.codeLine (key n : Nat) (e : Option Entry) (s : State) (line : Nat) : State :=
  let v : CodeVersion := { tick := s.tick, key := key, len := n, entry := e, bytes := s.rdBytes (64 * line) 64 }
  { s with code := alPut s.code line (v :: (alGet s.code line).getD []) }
/-- Bytes of an executable page are about to be written: fetches may see their lines as they were (R99). -/
def State.codeWrite (s : State) (key n : Nat) (leaf : Option Nat) (e : Option Entry) : State :=
  if (match leaf with | some l => leafX l | none => false) then
    ((List.range ((key + n + 63) / 64 - key / 64)).map (key / 64 + ·)).foldl (State.codeLine key n e) s
  else s
def State.noteSpot (s : State) (w : Who) (k : Kind) (p : Spot) (n : Nat) : State :=
  match p with
  | .win _ _ => s
  | .mem key _ tracked leaf =>
    let s1 := if tracked then s.noteWords w k (wordsOf key n) (s.dieAt p) else s.tock
    if k == Kind.read then s1 else s1.codeWrite key n (leaf.map (·.1)) (some w.entry)

/-! ### Line metadata (R206, R207): values are held once, in memory (log 5) -/

def maskWords (key n : Nat) : BitVec 16 :=
  (wordsOf key n).foldl (fun m w => m ||| BitVec.twoPow 16 (w % 16)) 0
/-- The lines of a slice's 2 MiB, and of a cache unit's 16 KiB (R12, R90). -/
def sliceLines : Nat := 32768
def unitLines : Nat := 256
/-- A line is filled from its page or written back to it (R228). -/
def State.pageLine (s : State) (l : Line) : State :=
  if l.mc && l.line / 2 ^ 54 == 0 then s.countPage l.vf (l.line * 64) else s
def Line.same (l x : Line) : Bool := x.line == l.line && x.home == l.home
/-- The slice's own line of this number. -/
def State.sliceAt (s : State) (l : Line) : Option Line := s.slices.find? l.same
/-- The slice holds a line; where it is full, the one it took or wrote first leaves, and is written back if it is dirty (log 5). -/
def State.putSlice (s : State) (l : Line) : State :=
  let others := s.slices.filter fun x => !l.same x
  let here := others.filter fun x => x.home == l.home
  match (if sliceLines ≤ here.length then here.getLast? else none) with
  | none => { s with slices := l :: others }
  | some o =>
    let s1 : State := { s with slices := l :: others.filter fun x => !o.same x }
    if o.dirty == 0 then s1 else s1.pageLine o
/-- A read of words at the slice (R206): whether they are all valid there; if not, the line is fetched. -/
def State.sliceRead (s : State) (l : Line) : State × Bool :=
  let old := s.sliceAt l
  let v := match old with | some x => x.valid | none => 0
  if l.valid &&& ~~~v == 0 then (s, true)
  else
    let d := match old with | some x => x.dirty | none => 0
    ((s.putSlice { l with valid := BitVec.allOnes 16, dirty := d }).pageLine l, false)
/-- The words of one line that a byte range covers in part. -/
def partWords (key n : Nat) : BitVec 16 :=
  (wordsOf key n).foldl (fun m w => if key ≤ 4 * w && 4 * w + 4 ≤ key + n then m else m ||| BitVec.twoPow 16 (w % 16)) 0
/-- Words written at the slice, whose line is not fetched. -/
def State.sliceWrite (s : State) (l : Line) : State :=
  match s.sliceAt l with
  | some x => s.putSlice { x with valid := x.valid ||| l.valid, dirty := x.dirty ||| l.valid }
  | none => s.putSlice { l with dirty := l.valid }
/-- A store at the slice: a word of which it writes a part is there first, by a merging fill (R207). -/
def State.sliceStore (s : State) (l : Line) (part : BitVec 16) : State :=
  (if part == 0 then s else (s.sliceRead { l with valid := part }).1).sliceWrite l
/-- A core's dirty words of a line go to its slice (R206). -/
def State.writeBack (s : State) (l : Line) : State := if l.dirty == 0 then s else s.sliceWrite { l with valid := l.dirty }
/-- What an access does with the words of a line at the slice: it reads them, writes them (of `part` of them a part), or both. -/
inductive Use where
  | read
  | write (part : BitVec 16)
  | both
  deriving DecidableEq, Repr
/-- The slice's line after an access, and whether the slice had what that needs. -/
def State.sliceUse (s : State) (u : Use) (l : Line) : State × Bool :=
  match u with
  | .read => s.sliceRead l
  | .write part => (s.sliceStore l part, (s.sliceAt l).isSome)
  | .both => ((s.sliceRead l).1.sliceWrite l, (s.sliceRead l).2)
/-- A core's read or write at a slice counts where the line is its function's (R332). -/
def State.sliceTurn (s : State) (g : Group) (mode : Bool) (u : Use) (l : Line) : State :=
  let own := match s.sliceAt l with | some x => x.vf == g.vf | none => true
  let r := s.sliceUse u l
  if !r.2 then r.1.count g.core 0x11 1 g.vf mode else if own then r.1.count g.core 0x10 1 g.vf mode else r.1
def State.coreLine (s : State) (core line : Nat) : Option Line := (s.core core).lines.find? fun x => x.line == line
/-- The core holds a line in at most `cap` lines; the one it took or wrote first leaves and is written back. Streaming lines
leave before others (R216; log 5). -/
def State.putLine (s : State) (core cap : Nat) (streaming : Bool) (l : Line) : State :=
  let others := (s.core core).lines.filter fun x => x.line != l.line
  let kept := others.take (cap - 1)
  let lines := if cap == 0 then [] else if streaming then kept ++ [l] else l :: kept
  ((if cap == 0 then [l] else []) ++ others.drop (cap - 1)).foldl State.writeBack (s.updCore core fun c => { c with lines := lines })
/-- A line of the accessing group with the words of a byte range. -/
def lineOf (g : Group) (key n leaf va home : Nat) : Line :=
  { line := key / 64, va := va / 64 * 64, home := home, vf := g.vf, mc := leafMc leaf, valid := maskWords key n, dirty := 0 }
def Group.cacheLines (g : Group) : Nat := unitLines * g.cacheUnits
/-- A load of words of one line (R206): served by the core where they are valid, else by the slice, from which a merging fill brings in the
whole line: the words that the core does not have yet. -/
def State.cacheLoad (s : State) (g : Group) (mode : Bool) (leaf : Nat) (l : Line) : State :=
  let old := s.coreLine g.core l.line
  let v := match old with | some x => x.valid | none => 0
  let d := match old with | some x => x.dirty | none => 0
  if l.valid &&& ~~~v == 0 then s
  else
    let s1 := s.count g.core 7 1 g.vf mode
    let whole : Line := { l with valid := BitVec.allOnes 16, dirty := d }
    if leafPolicy leaf == 1 then s1.sliceTurn g mode .read l
    else (s1.sliceTurn g mode .read { whole with dirty := 0 }).putLine g.core g.cacheLines (leafPolicy leaf == 2) whole
/-- A store of whole words to a line that the core does not hold misses (R206, R332). -/
def State.storeMiss (s : State) (g : Group) (mode : Bool) (leaf : Nat) (l : Line) : State :=
  if leafPolicy leaf == 1 || (s.coreLine g.core l.line).isSome then s else s.count g.core 7 1 g.vf mode
/-- A store to words of one line (R206, R207): of those that it writes in part, the line is brought in first. -/
def State.cacheStore (s : State) (g : Group) (mode : Bool) (part : BitVec 16) (leaf : Nat) (l : Line) : State :=
  let s1 := if part == 0 then s.storeMiss g mode leaf l else s.cacheLoad g mode leaf { l with valid := part }
  if leafPolicy leaf == 1 then s1.sliceTurn g mode (.write part) l
  else
    let x := match s1.coreLine g.core l.line with
      | some x => { x with valid := x.valid ||| l.valid, dirty := x.dirty ||| l.valid }
      | none => { l with dirty := l.valid }
    s1.putLine g.core g.cacheLines (leafPolicy leaf == 2) x
/-- Write back a core's dirty words of the line of an address, and drop it or keep it (R162). -/
def State.cleanLine (s : State) (core vf va : Nat) (drop : Bool) : State :=
  let this := fun (x : Line) => x.vf == vf && x.va == va / 64 * 64
  let s1 := ((s.core core).lines.filter this).foldl State.writeBack s
  s1.updCore core fun c =>
    { c with lines := if drop then c.lines.filter (fun x => !this x)
                      else c.lines.map fun x => if this x then { x with dirty := 0 } else x }
/-- A core keeps no more lines than this; the others are written back. -/
def State.keepLines (s : State) (core cap : Nat) : State :=
  ((s.core core).lines.drop cap).foldl State.writeBack (s.updCore core fun c => { c with lines := c.lines.take cap })
/-- Every core and slice drops its copies of the lines that satisfy p. -/
def State.discard (s : State) (p : Line → Bool) : State :=
  { s with cores := s.cores.map fun (k, c) => (k, { c with lines := c.lines.filter (fun x => !p x) }),
           slices := s.slices.filter (fun x => !p x) }
/-- The slices' dirty lines that satisfy p are written back (R312). -/
def State.cleanSlices (s : State) (p : Line → Bool) : State :=
  let s1 := (s.slices.filter fun x => p x && x.dirty != 0).foldl State.pageLine s
  { s1 with slices := s1.slices.map fun x => if p x then { x with dirty := 0 } else x }
/-- The lines that satisfy p are written back and dropped (R209, R225). -/
def State.flushLines (s : State) (p : Line → Bool) : State :=
  let s1 := ((s.cores.flatMap fun x => x.2.lines).filter p).foldl State.writeBack s
  (s1.cleanSlices p).discard p
/-- A line lies in a physical byte range. -/
def Line.within (key n : Nat) (l : Line) : Bool := key / 64 ≤ l.line && l.line ≤ (key + n - 1) / 64
/-- Every core and slice drops its copies of a byte range, what is dirty there written back first (R206, R315, R346). -/
def State.dropLines (s : State) (key n : Nat) : State := s.flushLines (Line.within key n)
/-- A write to the weight store leaves no copy of its lines (R315). -/
def State.wsWritten (s : State) (key n : Nat) : State := if key / 2 ^ 60 == 1 then s.dropLines key n else s
/-- The pieces of a byte range by line: where each begins, and its bytes. -/
def linesIn (key n : Nat) : List (Nat × Nat) :=
  (List.range ((key + n + 63) / 64 - key / 64)).map fun i =>
    let k := max key ((key / 64 + i) * 64)
    (k, min (key + n) ((key / 64 + i + 1) * 64) - k)
/-- What an access at a spot does to the lines. -/
def State.lines (s : State) (g : Group) (c : Ctx) (p : Spot) (n : Nat) (isStore : Bool) : State :=
  match p with
  | .mem key _ _ (some (leaf, va, _)) =>
    (linesIn key n).foldl (fun (s : State) (x : Nat × Nat) =>
      let a := va + (x.1 - key)
      let l := lineOf g x.1 x.2 leaf a (s.homeSlice g.vf a)
      if isStore then s.cacheStore g c.csr.mode (partWords x.1 x.2) leaf l else s.cacheLoad g c.csr.mode leaf l) s
  | _ => s
/-- The handle accessed last (R227): remembered per page where the function has a handle table. -/
def State.touch (s : State) (vf ptr : Nat) : State :=
  if (s.vf vf).htab == 0 then s else { s with touched := alPut s.touched (vf * 2 ^ 37 + bits ptr 55 19) s.tick }
/-- The slice keeps a translation that it walks, and the walk counts (R215, R332). -/
def State.walked (s : State) (g : Group) (c : Ctx) (ptr : Nat) : State :=
  match s.translate g.vf ptr with
  | .leaf e big =>
    if s.xlat.any (fun (k, n, _) => k == g.vf * 256 + s.homeSlice g.vf ptr && n == keptName ptr big) then s
    else (s.count g.core 0x12 1 g.vf c.csr.mode).keep g.vf ptr e big
  | .none _ => s
/-- The core keeps the bounds entry that an access uses (R214). -/
def State.keepEntry (s : State) (g : Group) (c : Ctx) (ea : Word) : State :=
  if isLocal ea || bits ea.toNat 63 56 == 0xFE then s
  else s.updCtx g.id c.num fun x => x.keepBounds (bits ea.toNat 63 56) (s.boundsOf c (bits ea.toNat 63 56))
/-- What an access of n bytes in one page leaves kept, whatever it comes to: its bounds entry, and the translation where it gets as far
as that (R214, R215). -/
def State.tried (s : State) (g : Group) (c : Ctx) (ea : Word) (n align : Nat) (right : Right) : State :=
  if isLocal ea || bits ea.toNat 63 56 == 0xFE || ea.toNat % align != 0 then s
  else
    let e := s.boundsOf c (bits ea.toNat 63 56)
    let s1 := s.keepEntry g c ea
    if boundsOk e ea.toNat n && right.bound e then s1.walked g c ea.toNat else s1
/-- A context's access to memory has been made (R227). -/
def State.touchEa (s : State) (g : Group) (ea : Word) : State :=
  if isLocal ea || bits ea.toNat 63 56 == 0xFE then s else s.touch g.vf ea.toNat

/-! ### The window's bytes -/

/-- The bytes of an image that a window load reads (R126, R127, R130): dead registers read zero. -/
def Ctx.winRead (c : Ctx) (img off n : Nat) : Nat :=
  if img != c.num then 0
  else if off < 0x100 then
    let r := BitVec.ofNat 5 (off / 8)
    if !c.xlive.getLsbD (off / 8) then 0
    else (c.w.get (.x r)).toNat / 2 ^ (8 * (off % 8)) % 2 ^ (8 * n)
  else
    let r := BitVec.ofNat 5 ((off - 0x4000) / 512)
    if !c.vlive.getLsbD ((off - 0x4000) / 512) then 0 else (c.w.get (.v r)).toNat
/-- A window store (R127); stores to the image of a helper that is not live are discarded. -/
def Ctx.winWrite (c : Ctx) (img off n v : Nat) (mask : Block) : Ctx :=
  if img != c.num then c
  else if off < 0x100 then
    let sh := 8 * (off % 8)
    if off / 8 == 0 then c
    else c.windowStore false (.x (BitVec.ofNat 5 (off / 8)))
      (BitVec.ofNat 4096 ((2 ^ (8 * n) - 1) * 2 ^ sh)) (BitVec.ofNat 4096 (v * 2 ^ sh))
  else c.windowStore true (.v (BitVec.ofNat 5 ((off - 0x4000) / 512))) mask (BitVec.ofNat 4096 v)

/-! ### Loads and stores between the two streams (R197) -/

/-- A value of n bytes at a key with the bytes of one word replaced. -/
def withWord (key n v word : Nat) (x : BitVec 32) : Nat :=
  (List.range 4).foldl (fun (v : Nat) b =>
    let a := 4 * word + b
    if key ≤ a && a < key + n then
      let j := 8 * (a - key)
      v - v / 2 ^ j % 256 * 2 ^ j + x.toNat / 2 ^ (8 * b) % 256 * 2 ^ j
    else v) v
/-- The stores to a word by the other stream that a stream may not have seen, in their order. -/
def looseAt (l : List Loose) (execute : Bool) (word : Nat) : List Loose := l.filter fun x => x.execute != execute && x.word == word
/-- Having seen i of the stores to one word of an 8-byte unit and j of those to the other, a stream has seen no store that was made as
a whole in one of them only (R287). -/
def wholeSeen (a b : List Loose) (i j : Nat) : Bool :=
  a.zipIdx.all fun (x, p) => b.zipIdx.all fun (y, q) => !(x.atomic && y.atomic && x.stamp == y.stamp) || ((p < i) == (q < j))
/-- What a stream may have seen of the words of an 8-byte unit: each word with the number of its stores. -/
def looseWays (l : List Loose) (execute : Bool) : List Nat → List (List (Nat × Nat))
  | [a, b] =>
    let la := looseAt l execute a
    let lb := looseAt l execute b
    (List.range (la.length + 1)).flatMap fun i =>
      ((List.range (lb.length + 1)).filter (wholeSeen la lb i)).map fun j => [(a, i), (b, j)]
  | ws => ws.flatMap fun w => (List.range ((looseAt l execute w).length + 1)).map fun i => [(w, i)]
/-- What a stream may still find of the other's stores once it has passed these of them, and all with a stamp below `upTo` (R197, R302):
no later access of it finds a word as it was before these, before any that the other stream made earlier, or before the other half of
one that was made as a whole (R287). -/
def passLoose (execute : Bool) (upTo : Nat) (hits l : List Loose) : List Loose :=
  let last := (hits.map (·.stamp)).foldl max upTo
  l.filter fun x => x.execute == execute ||
    (last ≤ x.stamp && !hits.contains x &&
      !hits.any fun y => x.atomic && y.atomic && x.stamp == y.stamp && x.word / 2 == y.word / 2)
/-- So once it has seen so many of the stores to each word. -/
def seenLoose (execute : Bool) (seen : List (Nat × Nat)) (l : List Loose) : List Loose :=
  passLoose execute 0 (seen.flatMap fun (w, i) => (looseAt l execute w).take i) l
/-- A load of byte ranges has found so many of the other stream's stores to each word. If it has missed one, it stands before that in the
one order of all accesses, and with it what its own stream has stored by now: the other stream misses none of this any more. What it has
loaded is kept while the other stream may still miss some of it (R302; log 6). -/
def Ctx.sawLoose (c : Ctx) (execute : Bool) (seen reads : List (Nat × Nat)) : Ctx :=
  let missed := seen.any fun (w, i) => i < (looseAt c.loose execute w).length
  let l := (seenLoose execute seen c.loose).filter fun x => !missed || x.execute != execute
  let mine : List LooseLoad := reads.map fun (k, n) =>
    { execute := execute, key := k, len := n, stamp := if execute then c.accE else c.accA }
  { c with loose := l, loads := (c.loads ++ mine).filter fun r => l.any fun x => x.execute == r.execute }
/-- Words by 8-byte unit. -/
def unitsOf (l : List Nat) : List (List Nat) := (l.map (· / 2)).dedup.map fun u => l.filter fun w => w / 2 == u
/-- Of each 8-byte unit of the words that a stream loads, what it may find of the other stream's stores (R197, R287): a free choice, and
the next. -/
def Ctx.pickLoose (c : Ctx) (execute : Bool) (words : List Nat) (free : Nat) : List (Nat × Nat) × Nat :=
  (unitsOf (words.filter fun w => !(looseAt c.loose execute w).isEmpty)).foldl
    (fun (acc : List (Nat × Nat) × Nat) u =>
      let ways := looseWays c.loose execute u
      (acc.1 ++ ways.getD (Config.freeChoice acc.2 % ways.length) [], acc.2 + 1)) (([] : List (Nat × Nat)), free)
/-- The bytes at a key, of which a stream has found so many of the other's stores. -/
def Ctx.looseValue (c : Ctx) (execute : Bool) (seen : List (Nat × Nat)) (key n v : Nat) : Nat :=
  seen.foldl (fun v (w, i) =>
    match (looseAt c.loose execute w)[i]? with
    | some l => withWord key n v w l.old
    | none => v) v
/-- Read local bytes for a stream. -/
def readLocal (s : State) (g : Group) (c : Ctx) (execute : Bool) (key n : Nat) : Nat × State :=
  if c.loose.isEmpty then (s.rd key n, s)
  else
    let r := c.pickLoose execute (wordsOf key n) s.free
    (c.looseValue execute r.1 key n (s.rd key n),
      { s.updCtx g.id c.num (fun x => x.sawLoose execute r.1 [(key, n)]) with free := r.2 })
/-- The earlier values of a word that a plain load of a context may return (R302): none replaced before its latest acquire or
before the value that it saw last. -/
def State.staleOf (s : State) (c : Ctx) (word : Nat) : List (Nat × BitVec 32) :=
  match alGet s.olds word with
  | none => []
  | some l => l.filter fun x => max c.acqAt ((alGet c.saw word).getD 0) < x.1
/-- What a plain load may find in a word: its value now, and its earlier ones, each with the tick before which it stood. -/
def State.valuesOf (s : State) (c : Ctx) (word : Nat) : List (Nat × BitVec 32) :=
  (s.tick + 1, BitVec.ofNat 32 (s.rd (4 * word) 4)) :: s.staleOf c word
/-- Values of the two words of an 8-byte unit that stand on one side of every operation that replaced both (R287). -/
def State.together (s : State) (a b : Nat) (x y : Nat × BitVec 32) : Bool :=
  let ticks := fun (w : Nat) => ((alGet s.olds w).getD []).map (·.1)
  (ticks a).all fun t => !(ticks b).contains t || ((x.1 ≤ t) == (y.1 ≤ t))
/-- The values that a plain load may find in the words of an 8-byte unit; first those at their home now. -/
def State.unitValues (s : State) (c : Ctx) : List Nat → List (List (Nat × Nat × BitVec 32))
  | [a, b] => (s.valuesOf c a).flatMap fun x => ((s.valuesOf c b).filter (s.together a b x)).map fun y => [(a, x), (b, y)]
  | l => l.flatMap fun w => (s.valuesOf c w).map fun x => [(w, x)]
/-- A plain load of an 8-byte unit with words of `olds`: the values at their home, or earlier ones (R302), and what it has seen then. -/
def State.plainUnit (gid num key n : Nat) (r : Nat × Nat × State) (words : List Nat) : Nat × Nat × State :=
  let s := r.2.2
  match (s.group? gid).bind fun g => g.ctx? num with
  | none => r
  | some c =>
    let all := s.unitValues c words
    let (i, s1) := if all.length ≤ 1 then (0, s) else (Config.freeChoice s.free % all.length, { s with free := s.free + 1 })
    (all.getD i []).foldl (fun (r : Nat × Nat × State) (x : Nat × Nat × BitVec 32) =>
      let s2 := r.2.2.updCtx gid num fun y => { y with saw := alPut y.saw x.1 (x.2.1 - 1) }
      if s.tick < x.2.1 then (r.1, r.2.1, s2) else (withWord key n r.1 x.1 x.2.2, min r.2.1 (x.2.1 - 1), s2)) (r.1, r.2.1, s1)
/-- The words of `olds` in a byte range by 8-byte unit. -/
def State.oldUnits (s : State) (key n : Nat) : List (List Nat) :=
  unitsOf ((wordsOf key n).filter fun w => (alGet s.olds w).isSome)
/-- A plain load that finds v at its home: the value, when it was there at the latest, the state. -/
def State.plainRead (s : State) (gid num key n v : Nat) : Nat × Nat × State :=
  if s.olds.isEmpty then (v, s.tick, s) else (s.oldUnits key n).foldl (State.plainUnit gid num key n) (v, s.tick, s)
/-- An atomic access of a context has seen the words as they are (R302). -/
def State.sawWords (s : State) (gid num : Nat) (words : List Nat) : State :=
  s.updCtx gid num fun c => { c with saw := words.foldl (fun l w => alPut l w s.tick) c.saw }
/-- A word with the bytes of a store that fall into it replaced. -/
def overlay (word : Nat) (old : BitVec 32) (key : Nat) (b : List Byte) : BitVec 32 :=
  BitVec.ofNat 32 (natOfBytes ((List.range 4).map fun i =>
    let a := 4 * word + i
    if key ≤ a && a < key + b.length then b.getD (a - key) 0 else BitVec.ofNat 8 (old.toNat / 2 ^ (8 * i))))
/-- A store of bytes at keys meets a byte that another store wrote. -/
def Loose.met (l : Loose) (writes : List (Nat × List Byte)) : Bool :=
  writes.any fun x => (List.range 4).any fun b => l.mask.getLsbD b && x.1 ≤ 4 * l.word + b && 4 * l.word + b < x.1 + x.2.length
/-- The bytes of a word that a store writes. -/
def bytesIn (word key n : Nat) : BitVec 4 :=
  (List.range 4).foldl (fun m b => if key ≤ 4 * word + b && 4 * word + b < key + n then m ||| BitVec.twoPow 4 b else m) 0
/-- A stream stores to local bytes, in a state that does not hold them yet: what stood there the other stream may still find; what it
has not found of the other's stores before now has these bytes over it (R197). It stands behind the other's stores to these bytes, and
behind what the other had stored when it loaded them (R302; log 6). `atomic`: as a whole in 8-byte units (R287). -/
def Ctx.looseStore (c : Ctx) (s : State) (execute atomic : Bool) (writes : List (Nat × List Byte)) : Ctx :=
  let st := if execute then c.accE else c.accA
  let new := writes.flatMap fun x => (wordsOf x.1 x.2.length).map fun w =>
    { execute := execute, word := w, old := BitVec.ofNat 32 (s.rd (w * 4) 4), stamp := st, atomic := atomic,
      mask := bytesIn w x.1 x.2.length : Loose }
  let read := (c.loads.filter fun r => r.execute != execute && writes.any fun x => overlaps x.1 x.2.length r.key r.len).map (·.stamp)
  let met := c.loose.filter fun l => l.execute != execute && l.met writes
  let kept := (passLoose execute (read.foldl max 0) met c.loose).map fun (l : Loose) =>
    if l.execute == execute then l else { l with old := writes.foldl (fun o x => overlay l.word o x.1 x.2) l.old }
  let c := { c with loose := kept ++ new }
  if execute then { c with accE := c.accE + 1 } else { c with accA := c.accA + 1 }

/-! ### Results of an access -/

/-- What an access comes to: a value, a wait, or a cause with the effective address. -/
inductive MRes (α : Type) where
  | ok (s : State) (v : α)
  | wait (s : State) (w : Wait)
  | trap (s : State) (cause : Nat) (ea : Word)

/-- A virtual address of a tensor that is being moved, mapped or not: an access waits at its home (R226). -/
def State.movesVa (s : State) (vf va : Nat) : Bool :=
  s.moving.any fun m => m.vf == vf && m.base ≤ va % 2 ^ 56 && va % 2 ^ 56 < m.base + m.len
/-- Hold a unit of a context on a page fault (R155, R219): one record to the supervisor. An access to a tensor that moves is not held
(R226). -/
def State.hold (s : State) (g : Group) (c : Ctx) (execute : Bool) (va : Word) (malf : Bool) : State :=
  if s.movesVa g.vf va.toNat then s
  else
  let s := s.report g.vf (faultRecord va (if execute then c.pcE else c.pcA) 0 g.core c.num 0 false malf 0x10)
  s.updCtx g.id c.num fun x => if execute then { x with heldE := some va } else { x with heldA := some va }
/-- An access overlaps a side-log entry of the core, by whichever region it names its bytes (R149, R154). -/
def Group.logged (g : Group) (ptr n : Nat) : Bool :=
  bits ptr 63 56 != 0xFE && g.log.any fun e => overlaps (ptr % 2 ^ 56) n (e.va.toNat % 2 ^ 56) e.len
/-- Whether a read of a weight-store bank must wait for its refresh window (R211). -/
def State.bankBusy (s : State) (p : Spot) : Bool :=
  match p with
  | .mem key _ _ (some (leaf, _, _)) => leafSpace leaf == 1 && s.refreshing (bankOf (key % 2 ^ 60))
  | _ => false
/-- A place of a tensor that is being moved: an access waits at its home slice (R226). -/
def State.moves (s : State) (p : Spot) : Bool :=
  match p with
  | .mem key _ _ (some _) => s.moving.any fun m => m.leaves.any fun x => x.1 ≤ key && key < x.1 + x.2
  | _ => false
/-- The access stream waits at a home; a wait for a bank counts once (R211, R332). -/
def State.bankWaitA (s : State) (g : Group) (c : Ctx) (bank : Bool) : State :=
  if c.waitA == some .bank || !bank then s else s.count g.core 0x40 1 g.vf c.csr.mode
/-- The execute stream waits for one likewise. -/
def State.bankWaitE (s : State) (g : Group) (c : Ctx) (bank : Bool) : State :=
  if c.waitE == some .bank || !bank then s else s.count g.core 0x40 1 g.vf c.csr.mode

/-- A supervisor's load that has read the tail of its function's fault queue acts as an acquire (R371). -/
def State.tailRead (s : State) (g : Group) (c : Ctx) (key n : Nat) : State :=
  if c.csr.mode && (s.vf g.vf).fq != 0 && overlaps key n (hbm ((s.vf g.vf).fq + 4)) 4 then
    s.updCtx g.id c.num fun x => x.acquireNone.acquiredAt s.tick
  else s
/-- A read of n bytes in one page by the access stream: a plain load, or (kind atomic) an ordered load (R151, R152, R155, R302). -/
def State.loadA (s0 : State) (g : Group) (c : Ctx) (ea : Word) (n align : Nat) (k : Kind) : MRes Nat :=
  let s := s0.tried g c ea n align .r
  match s0.probeA g c ea n align .r with
  | .trap cause => .trap s cause ea
  | .page va m => if g.logged ea.toNat n then .wait s .page else .wait (s.hold g c false (BitVec.ofNat 64 va) m) .page
  | .at p =>
    if !isLocal ea && g.logged ea.toNat n then .wait s .page
    else if s.bankBusy p || s.moves p then .wait (s.bankWaitA g c (s.bankBusy p)) .bank
    else
      match s.checkSpot (c.who false pathCore) .read p n with
      | some cause => .trap s cause ea
      | none =>
        match p with
        | .win img off => .ok s (c.winRead img off n)
        | .mem key home _ _ =>
          let s1 := ((s.noteSpot (c.who false pathCore) .read p n).lines g c p n false).touchEa g ea
          let (v, s2) := if home == localHome then readLocal s1 g c false key n else (s1.rd key n, s1)
          let (v, t, s3) := if k == .read then s2.plainRead g.id c.num key n v else (v, s2.tick, s2)
          .ok ((s3.noteEarly g.id c.num key n t).tailRead g c key n) v

/-- The free places of a core's side log. -/
def logPlaces : Nat := 64
/-- Put entries into the side log, or hold the access stream while it has too few places (R156); `malf`: the page's entry is
malformed (R217). A store to a tensor that moves waits for it (R226). -/
def State.logStore (s : State) (g : Group) (c : Ctx) (es : List LogEntry) (malf : Bool) : MRes Unit :=
  if es.any fun e => s.movesVa g.vf e.va.toNat then .wait s .bank
  else if g.log.length + es.length ≤ logPlaces then
    .ok ((s.updGroup g.id fun x => { x with log := x.log ++ es }).count g.core 6 es.length g.vf c.csr.mode).tock ()
  else if c.logHeld then .wait s .page
  else
    let s := s.report g.vf (faultRecord ((es.map (·.va)).headD 0) c.pcA 0 g.core c.num 0 false malf 0x11)
    .wait (s.updCtx g.id c.num fun x => { x with logHeld := true }) .page
def State.logEntry (s : State) (c : Ctx) (va : Word) (b : List Byte) (op : LogOp) : LogEntry :=
  { va := va, len := b.length, data := b, ctx := c.num, op := op,
    rel := none, own := c.relTag + 1, sync := c.sync, seen := c.accA, region := c.regions, failed := none, tick := s.tick }

/-- Write bytes at a spot by a context's plain store: the record, the value, the loose stores, the lines. -/
def State.putSpot (s : State) (g : Group) (c : Ctx) (execute : Bool) (p : Spot) (b : List Byte) (mask : Block) : State :=
  match p with
  | .win img off => s.updCtx g.id c.num fun x => x.winWrite img off b.length (natOfBytes b) mask
  | .mem key home _ _ =>
    let s1 := (s.noteSpot (c.who execute pathCore) .write p b.length).lines g c p b.length true
    let s2 := if home == localHome then s1.updCtx g.id c.num fun x => x.looseStore s execute false [(key, b)] else s1
    (s2.store key b).wsWritten key b.length
/-- A scalar store of the access stream (R151, R152, R156). -/
def State.storeA (s0 : State) (g : Group) (c : Ctx) (ea : Word) (b : List Byte) : MRes Unit :=
  let n := b.length
  let s := s0.tried g c ea n n .w
  match s0.probeA g c ea n n .w with
  | .trap cause => .trap s cause ea
  | .page _ m => s.logStore g c [s.logEntry c ea b .store] m
  | .at p =>
    if !isLocal ea && g.logged ea.toNat n then s.logStore g c [s.logEntry c ea b .store] false
    else if s.moves p then .wait s .bank
    else
      match s.checkSpot (c.who false pathCore) .write p n with
      | some cause => .trap s cause ea
      | none => .ok ((s.putSpot g c false p b (BitVec.allOnes 4096)).touchEa g ea) ()

/-! ### Blocks of 512 bytes (R153, R157) -/

/-- The parts of n bytes by page: offset and length; `big`: the page that they begin in has 4 GiB. -/
def blockParts (ea n : Nat) (big : Bool) : List (Nat × Nat) :=
  let size := if big then 2 ^ 32 else 2 ^ 19
  let room := size - ea % size
  if room < n then [(0, room), (room, n - room)] else [(0, n)]
/-- The first probe of the parts that is not `at`, with its address; else every part's spot. -/
def probeParts (f : Nat → Nat → Probe) : List (Nat × Nat) → Except (Probe × Nat) (List (Spot × Nat × Nat))
  | [] => .ok []
  | (o, n) :: r =>
    match f o n with
    | .at p => (probeParts f r).map fun l => (p, o, n) :: l
    | q => .error (q, o)
/-- A trap in any part comes before a page fault in any part (R157). Where both parts fail, the first part's failure is the one raised
(log 101, DESIGN CHOICE). -/
def blockProbe (f : Nat → Nat → Probe) (parts : List (Nat × Nat)) : Except (Probe × Nat) (List (Spot × Nat × Nat)) :=
  match parts.find? (fun (o, n) => match f o n with | .trap _ => true | _ => false) with
  | some (o, n) => .error (f o n, o)
  | none => probeParts f parts
/-- Some die has no room for the records of the parts of one access together (R303). -/
def State.spotsFull (s : State) (l : List (Spot × Nat)) : Bool :=
  footprintLimit < s.recs.length + (l.map (·.2)).sum &&
    s.linesFull (l.flatMap fun x =>
      match x.1 with
      | .mem key _ true _ => ((wordsOf key x.2).filter fun w => !s.lineTracked w).map fun w => (s.dieAt x.1 w, w / 16)
      | _ => [])
def State.blockCheck (s : State) (w : Who) (k : Kind) (l : List (Spot × Nat × Nat)) : Option (Nat × Nat) :=
  match l.findSome? fun (p, o, n) => (s.checkSpot w k p n).map fun c => (c, o) with
  | some x => some x
  | none => if 1 < l.length && s.spotsFull (l.map fun (p, _, n) => (p, n)) then some (0x0B, (l.map (·.2.1)).foldl max 0) else none
/-- The probe of a part of a block, by all the checks of R151 (R157). A local block is aligned to 64 bytes as a global one is (log 98,
DEDUCED). -/
def State.partProbe (s : State) (g : Group) (c : Ctx) (ea : Word) (align : Nat) (right : Right) (o n : Nat) : Probe :=
  if isLocal ea then probeLocal g c false ea.toNat n align
  else if ea.toNat % align != 0 then .trap 0x15
  else s.probeGlobal g.vf (s.boundsOf c (bits ea.toNat 63 56)) (ea.toNat + o) n right
/-- The page of an address is mapped, and has 4 GiB. -/
def State.bigPage (s : State) (vf va : Nat) : Bool := match s.translate vf va with | .leaf _ b => b | .none _ => false
def State.partsOf (s : State) (vf : Nat) (ea : Word) (n : Nat) : List (Nat × Nat) :=
  if isLocal ea || bits ea.toNat 63 56 == 0xFE then [(0, n)] else blockParts ea.toNat n (s.bigPage vf ea.toNat)
/-- What a block's access leaves kept, part by part (R157). -/
def State.triedParts (s : State) (g : Group) (c : Ctx) (ea : Word) (n align : Nat) (right : Right) : State :=
  if ea.toNat % align != 0 then s
  else (s.partsOf g.vf ea n).foldl (fun s (o, m) => s.tried g c (BitVec.ofNat 64 (ea.toNat + o)) m align right) s
/-- One part of a block has passed its checks: its bytes, at their place in the block. -/
def State.readPart (g : Group) (c : Ctx) (ea : Word) (acc : Nat × State) (x : Spot × Nat × Nat) : Nat × State :=
  match x with
  | (.win _ _, _, _) => acc
  | (.mem key home t e, o, n) =>
    let p := Spot.mem key home t e
    let s1 := ((acc.2.noteSpot (c.who false pathCore) .read p n).lines g c p n false).touchEa g (BitVec.ofNat 64 (ea.toNat + o))
    let (v, s2) := if home == localHome then readLocal s1 g c false key n else (s1.rd key n, s1)
    let (v, tick, s3) := s2.plainRead g.id c.num key n v
    (acc.1 + v * 2 ^ (8 * o), (s3.noteEarly g.id c.num key n tick).tailRead g c key n)
/-- Read n bytes, in two pages at most, all or nothing. Where one part's page is not mapped and another part fails the race check, the
page is reported first, and the race is met once it is mapped (log 101, DESIGN CHOICE). -/
def State.loadParts (s0 : State) (g : Group) (c : Ctx) (ea : Word) (n align : Nat) : MRes Nat :=
  let s := s0.triedParts g c ea n align .r
  match blockProbe (s0.partProbe g c ea align .r) (s0.partsOf g.vf ea n) with
  | .error (.trap cause, o) => .trap s cause (BitVec.ofNat 64 (ea.toNat + o))
  | .error (.page va m, _) =>
    if g.logged ea.toNat n then .wait s .page else .wait (s.hold g c false (BitVec.ofNat 64 va) m) .page
  | .error (.at _, _) => .wait s .page
  | .ok l =>
    if !isLocal ea && g.logged ea.toNat n then .wait s .page
    else if l.any (fun (p, _, _) => s.bankBusy p || s.moves p) then
      .wait (s.bankWaitA g c (l.any fun (p, _, _) => s.bankBusy p)) .bank
    else
      match s.blockCheck (c.who false pathCore) .read l with
      | some (cause, o) => .trap s cause (BitVec.ofNat 64 (ea.toNat + o))
      | none =>
        let r := l.foldl (State.readPart g c ea) (0, s)
        .ok r.2 r.1
/-- A block load (R153, R157); what it does where a race and a page fault meet is the model's choice (log 101). -/
def State.loadBlock (s : State) (g : Group) (c : Ctx) (ea : Word) : MRes Block :=
  match s.loadParts g c ea 512 64 with
  | .ok s1 v => .ok s1 (BitVec.ofNat 4096 v)
  | .wait s1 w => .wait s1 w
  | .trap s1 cause a => .trap s1 cause a
/-- The 128 bytes of an object or a record read as one load: its checks are of the whole, and its address is the first byte's (R83,
R336). -/
def State.load128 (s : State) (g : Group) (c : Ctx) (p : Word) (align : Nat) : MRes Nat :=
  match s.loadParts g c p 128 align with
  | .ok s1 v => .ok s1 v
  | .wait s1 w => .wait s1 w
  | .trap s1 cause _ => .trap s1 cause p
def State.storeBlock (s0 : State) (g : Group) (c : Ctx) (ea : Word) (d : Block) : MRes Unit :=
  let bytes := bytesOfNat 512 d.toNat
  let parts := s0.partsOf g.vf ea 512
  let s := s0.triedParts g c ea 512 64 .w
  let logs := parts.map fun (o, n) =>
    s.logEntry c (BitVec.ofNat 64 (ea.toNat + o)) ((bytes.drop o).take n) .store
  match blockProbe (s0.partProbe g c ea 64 .w) parts with
  | .error (.trap cause, o) => .trap s cause (BitVec.ofNat 64 (ea.toNat + o))
  | .error (.page _ m, _) => s.logStore g c logs m
  | .error (.at _, _) => s.logStore g c logs false
  | .ok l =>
    if !isLocal ea && g.logged ea.toNat 512 then s.logStore g c logs false
    else if l.any (fun (p, _, _) => s.moves p) then .wait s .bank
    else
      match s.blockCheck (c.who false pathCore) .write l with
      | some (cause, o) => .trap s cause (BitVec.ofNat 64 (ea.toNat + o))
      | none =>
        .ok (l.foldl (fun s (p, o, n) =>
          (s.putSpot g c false p ((bytes.drop o).take n) (BitVec.allOnes 4096)).touchEa g
            (BitVec.ofNat 64 (ea.toNat + o))) s) ()

end Sys2Proof.Machine
end

