-- ==== Sys2Proof/Machine/Csr.lean ====
section
/-! DEFINITION. The CSRs (R324, R325): numbers, rights, values, and writes that keep only defined bits. -/

namespace Sys2Proof.Machine

/-- CARVE (R90). -/
def Group.carve (g : Group) : Word := BitVec.ofNat 64 (g.cacheUnits * 2 ^ 16 + g.scratch * 2 ^ 8 + g.ru)
/-- GSTAT (R319). -/
def Ctx.gstat (c : Ctx) : Word :=
  BitVec.ofNat 64 (c.num * 2 ^ 8 + (if c.csr.redir then 8 else 0) + (if c.csr.intrap then 4 else 0) +
    (if c.csr.pmode then 2 else 0) + (if c.csr.mode then 1 else 0))
/-- COHMODE (R312). -/
def Vf.cohmode (v : Vf) : Word := BitVec.ofNat 64 (v.why.toNat * 16 + (if v.own then 1 else 0))

/-- The assigned numbers. -/
def csrAssigned (n : Nat) : Bool :=
  n ≤ 0x00A || (0x010 ≤ n && n ≤ 0x01F) || (0x100 ≤ n && n ≤ 0x109) || (0x200 ≤ n && n ≤ 0x20F)
/-- Read and written in supervisor mode only. -/
def csrSupOnly (n : Nat) : Bool :=
  (0x100 ≤ n && n ≤ 0x104) || (0x106 ≤ n && n ≤ 0x109) || (0x208 ≤ n && n ≤ 0x20F)
def csrReadOnly (n : Nat) : Bool := 0x004 ≤ n && n ≤ 0x00A
/-- Readable by anyone, written in supervisor mode. -/
def csrSupWrite (n : Nat) : Bool := n == 0x105 || (0x200 ≤ n && n ≤ 0x207)

/-- The value of a CSR; 0 for a number that is not assigned. -/
def State.csrValue (s : State) (g : Group) (c : Ctx) (n : Nat) : Word :=
  match n with
  | 0x000 => c.csr.fflags.setWidth 64
  | 0x001 => c.csr.cmask
  | 0x002 => g.inhm.extractLsb' 0 64
  | 0x003 => g.inhm.extractLsb' 64 64
  | 0x004 => g.smask.extractLsb' 0 64
  | 0x005 => g.smask.extractLsb' 64 64
  | 0x006 => g.carve
  | 0x007 => BitVec.ofNat 64 g.vf
  | 0x008 => s.rfwin
  | 0x009 => s.phcWord
  | 0x00A => c.gstat
  | 0x100 => c.csr.tvec
  | 0x101 => c.csr.tcause
  | 0x102 => c.csr.tval
  | 0x103 => c.csr.epc
  | 0x104 => c.csr.epce
  | 0x105 => (s.vf g.vf).cohmode
  | 0x106 => c.csr.bndt
  | 0x107 => g.ctxa
  | 0x108 => (s.vf g.vf).migth
  | 0x109 => c.csr.tscr
  | _ =>
    if h : 0x010 ≤ n ∧ n < 0x020 then c.csr.fmt[n - 0x010]
    else if h : 0x200 ≤ n ∧ n < 0x208 then ((s.core g.core).pmc[n - 0x200]).setWidth 64
    else if h : 0x208 ≤ n ∧ n < 0x210 then (s.core g.core).pmsel[n - 0x208]
    else 0

/-- The defined bits of PMSELn (R332). -/
def pmselMask : Word := BitVec.ofNat 64 (2 ^ 63 + 0xEFFFF)
/-- BNDT is 4 KiB aligned (R214): bits [11:0] of a write are dropped (log 81). -/
def bndtOf (v : Word) : Word := v >>> 12 <<< 12
/-- A CSR of the context itself takes a value. -/
def Csrs.put (r : Csrs) (n : Nat) (v : Word) : Csrs :=
  match n with
  | 0x000 => { r with fflags := v.setWidth 6 }
  | 0x001 => { r with cmask := v }
  | 0x100 => { r with tvec := v }
  | 0x101 => { r with tcause := v }
  | 0x102 => { r with tval := v }
  | 0x103 => { r with epc := v, redir := true }
  | 0x104 => { r with epce := v, redir := true }
  | 0x106 => { r with bndt := bndtOf v }
  | 0x109 => { r with tscr := v }
  | _ => if h : 0x010 ≤ n ∧ n < 0x020 then { r with fmt := r.fmt.set (n - 0x010) v } else r
/-- INHM with one half replaced; bits [127:100] read zero (R337). -/
def inhmPut (old : Guard) (hi : Bool) (v : Word) : Guard :=
  if hi then (v &&& BitVec.ofNat 64 (2 ^ 36 - 1)) ++ old.extractLsb' 0 64
  else (old.extractLsb' 64 64) ++ v
/-- A CSR takes a value: the defined bits of it. -/
def State.csrPut (s : State) (g : Group) (c : Ctx) (n : Nat) (v : Word) : State :=
  match n with
  | 0x002 => s.updGroup g.id fun x => { x with inhm := inhmPut x.inhm false v }
  | 0x003 => s.updGroup g.id fun x => { x with inhm := inhmPut x.inhm true v }
  | 0x105 => s.updVf g.vf fun x => { x with own := v.getLsbD 0, why := if v.getLsbD 0 then x.why else 0 }
  | 0x107 => s.updGroup g.id fun x => { x with ctxa := v }
  | 0x108 => s.updVf g.vf fun x => { x with migth := v }
  | _ =>
    if h : 0x200 ≤ n ∧ n < 0x208 then s.updCore g.core fun k => { k with pmc := k.pmc.set (n - 0x200) (v.setWidth 48) }
    else if h : 0x208 ≤ n ∧ n < 0x210 then
      s.updCore g.core fun k => { k with pmsel := k.pmsel.set (n - 0x208) (v &&& pmselMask) }
    else s.updCtx g.id c.num fun x =>
      { x with csr := x.csr.put n v, bounds := if n == 0x106 then [] else x.bounds }

end Sys2Proof.Machine
end

