-- ==== Sys2Proof/Machine/Image.lean ====
section
/-! DEFINITION. The context area (R330): a group's image written at CTXA, read back, and scratch moved between a core and
the area. Where R330 gives a part's place and not its layout, its bits are turned by a free value (log 9). -/

namespace Sys2Proof.Machine

/-- A field of the image: offset, bytes, value. -/
abbrev ImgField := Nat × Nat × Nat

/-- Blocks of a queue image: 512 bytes each, head first; places beyond the count are left as they are. -/
def imgBlocks (base : Nat) (l : List QBlock) : List ImgField :=
  (l.zipIdx).map fun (e, i) => (base + 512 * i, 512, e.data.toNat)
def imgWords (base : Nat) (l : List Word) : List ImgField :=
  (l.zipIdx).map fun (e, i) => (base + 8 * i, 8, e.toNat)
def imgQueues (qb qw : Nat) (q : Queues) : List ImgField :=
  ((List.finRange 6).flatMap fun i => imgBlocks (qb + 2048 * i.val) q.blocks[i.val]) ++
    imgWords qw (q.q6.map (·.data)) ++ imgWords (qw + 0x80) (q.q7.map (·.data)) ++ imgWords (qw + 0x100) (q.bq.map (·.dest))
def imgCounts (base : Nat) (q : Queues) : List ImgField :=
  (List.range 9).map fun i => (base + i, 1, q.count i)
/-- What a part of an open layout holds at an offset of the area for a number of n bytes, and the number again (log 9). -/
def padOf (o n : Nat) : Nat := Config.imagePad o % 2 ^ (8 * n)
def openField (o n v : Nat) : ImgField := (o, n, (v % 2 ^ (8 * n)) ^^^ padOf o n)
def State.rdOpen (s : State) (area o n : Nat) : Nat := s.rd (area + o) n ^^^ padOf o n
/-- A byte mask of 64 bytes for a block's bits, and the bits again. -/
def byteMask (m : Block) : Nat := ((List.range 512).map fun i => if m.getLsbD (8 * i) then 2 ^ i else 0).sum
def bitMask (n : Nat) : Block := BitVec.ofNat 4096 ((List.range 512).map fun i => if bit n i then 255 * 2 ^ (8 * i) else 0).sum
/-- The twelve places of queued updates, 576 bytes each: the byte mask and the data fill them, and the rest stays with the group. -/
def lagPlaces : Nat := 12
def imgLag (base : Nat) (l : List Lag) : List ImgField :=
  ((l.take lagPlaces).zipIdx).flatMap fun (u, i) =>
    [openField (base + 576 * i) 64 (byteMask u.mask), openField (base + 576 * i + 64) 512 u.data.toNat]
/-- An active rep in 16 bytes: the address, n, the count, the stride, the pass, the place in the body. -/
def imgRep (base : Nat) (r : Option Rep) : List ImgField :=
  [openField base 16 (match r with
    | none => 0
    | some r => r.body.toNat + r.n * 2 ^ 64 + r.count * 2 ^ 72 + r.stride * 2 ^ 88 + r.pass * 2 ^ 96 + r.idx * 2 ^ 112 + 2 ^ 120)]
/-- Where a rep stands behind the counts. -/
def repPlace : Nat := 16
/-- The fields of a context's image, from the start of the area. -/
def State.imgContext (s : State) (g : Group) (c : Ctx) : List ImgField :=
  let l : List ImgField :=
    ((List.finRange 32).filter (fun i => c.xlive.getLsbD i.val)).map (fun i => (8 * i.val, 8, (c.r.x[i.val]).toNat)) ++
    (List.finRange 8).map (fun i => (0x100 + 16 * i.val, 16, (c.r.get (.g (BitVec.ofFin i))).toNat)) ++
    (List.finRange 8).map (fun i => (0x180 + 8 * i.val, 8, (c.r.k[i.val]).toNat)) ++
    ((List.range 0x20).filter csrAssigned).map (fun n => (0x200 + 8 * n, 8, (s.csrValue g c n).toNat)) ++
    (List.range 10).map (fun n => (0x300 + 8 * n, 8, (if n == 3 then c.pcA else if n == 4 then c.pcE else s.csrValue g c (0x100 + n)).toNat)) ++
    (if c.num == 0 then (List.range 16).map (fun n => (0x380 + 8 * n, 8, (s.csrValue g c (0x200 + n)).toNat)) else []) ++
    imgQueues 0x400 0x3400 c.queues ++
    [(0x3600, 4, c.xlive.toNat), (0x3604, 4, c.vlive.toNat)] ++ imgCounts 0x3608 c.queues ++
    (List.range 16).map (fun i => (0x3700 + 16 * i, 16,
      match c.sync.acq[i]? with
      | some a => a.var % 2 ^ 64 + a.tag % 2 ^ 48 * 2 ^ 64 + a.agent % 2 ^ 16 * 2 ^ 112
      | none => 0)) ++
    [(0x3800, 8, c.relTag % 2 ^ 48 + (if c.sync.lost then 2 ^ 63 else 0))] ++
    ((List.finRange 32).filter (fun i => c.vlive.getLsbD i.val)).map
      (fun i => (0x4000 + 512 * i.val, 512, (c.r.v[i.val]).toNat)) ++
    (match c.frame with
     | some f => imgCounts 0xA008 f.queues ++ imgQueues 0xA400 0xD400 f.queues
     | none => [])
  let b := imgCtx c.num
  l.map (fun (o, n, v) => (b + o, n, v)) ++ imgRep (b + 0x3608 + repPlace) c.rep ++ imgLag (b + 0x8000) c.lag ++
    (match c.frame with
     | some f => imgRep (b + 0xA008 + repPlace) f.rep ++ imgLag (b + 0xD600) f.lag
     | none => [])
/-- The barriers of a group, .co to .pd: the arrivals of its control context, and the phase that this waits for (R290, R291). -/
def barScopes : List Scope := [.co, .cl, .di, .pk, .pd]
def Group.imgBarriers (g : Group) : List ImgField :=
  (barScopes.zipIdx).map fun (sc, i) =>
    let c := g.ctxs.find? fun c => c.num == 0
    let n := if sc == .co then (c.map (·.arrCo)).getD 0 else ((g.arrivals.find? fun a => a.1 == sc).map (·.2)).getD 0
    let w := match c.bind (·.barWait) with | some (x, p) => if x == sc then p + 1 else 0 | none => 0
    openField (0x80 + 16 * i) 16 (n % 2 ^ 64 + w * 2 ^ 64)
/-- Its section keys, oldest first: pointer, whether there is one, whether it is held, and at the first the phase (R271). -/
def Group.imgKeys (g : Group) : List ImgField :=
  (List.range 16).map fun i =>
    let phase := if i == 0 && g.closed then 2 ^ 66 else 0
    openField (0x100 + 16 * i) 16 (match g.keys[i]? with
      | some k => k.ptr.toNat + 2 ^ 64 + (if k.held then 2 ^ 65 else 0) + phase
      | none => phase)
/-- A job record: busy, done, the sequence, the completion word (R283). -/
def imgJob (r : JobRec) (i : Nat) : ImgField :=
  openField (0x200 + 16 * i) 16
    ((if r.busy then 1 else 0) + (if r.done.isSome then 2 else 0) + r.seq % 1024 * 4 + (r.done.getD 0).toNat * 2 ^ 64)
/-- Its side log, oldest first: address, length, context, whether there is an entry, and the data (R220). -/
def Group.imgLog (g : Group) : List ImgField :=
  (List.range 64).flatMap fun i =>
    match g.log[i]? with
    | none => [openField (0xC0000 + 1024 * i) 16 0]
    | some e =>
      [openField (0xC0000 + 1024 * i) 16 (e.va.toNat + e.len % 2 ^ 16 * 2 ^ 64 + e.ctx % 256 * 2 ^ 80 + 2 ^ 88),
       openField (0xC0000 + 1024 * i + 512) 512 (natOfBytes e.data)]
/-- The fields of the group. `cause` stands in the header, flags [0] parked, [1] halted, [2] incremental valid. -/
def State.imgGroup (s : State) (g : Group) (cause : Nat) (parked halted : Bool) : List ImgField :=
  [(0x00, 8, g.kptr.toNat), (0x10, 8, g.used), (0x18, 8, g.carve.toNat), (0x20, 16, g.inhm.toNat),
   (0x30, 16, g.smask.toNat), (0x40, 8, g.entryNo), (0x48, 8, (g.ctxs.map (fun c => 2 ^ c.num)).sum), (0x50, 8, cause),
   (0x58, 8, (if parked then 1 else 0) + (if halted then 2 else 0) + (if g.incremental then 4 else 0)),
   (0x60, 8, g.depth)] ++ g.imgBarriers ++ g.imgKeys ++ (g.jobs.toList.zipIdx).map (fun (r, i) => imgJob r i) ++ g.imgLog ++
    g.ctxs.flatMap (s.imgContext g)

/-- Cells of a key range moved to another range; the old range reads as unlisted (R91, R328). -/
def moveCells (m : List Host.Cell) (src dst n : Nat) : List Host.Cell :=
  let inS := fun (a : Nat) => src ≤ a && a < src + n
  let inD := fun (a : Nat) => dst ≤ a && a < dst + n
  (m.filter (fun x => inS x.1)).foldl (fun m x => writeByte m (x.1 - src + dst) x.2)
    (m.filter (fun x => !inS x.1 && !inD x.1))
/-- Keys of an association list moved likewise. -/
def moveKeys {α : Type} (l : List (Nat × α)) (src dst n : Nat) : List (Nat × α) :=
  let inS := fun (a : Nat) => src ≤ a && a < src + n
  let inD := fun (a : Nat) => dst ≤ a && a < dst + n
  (l.filter (fun x => inS x.1)).foldl (fun m x => alPut m (x.1 - src + dst) x.2)
    (l.filter (fun x => !inS x.1 && !inD x.1))
/-- The key of a group's saved scratch records. -/
def savedKey (gid : Nat) : Nat := keyOf 6 (gid * 2 ^ 32)
/-- Scratch records, marks, owned regions and loose stores follow the scratch from one key to another. -/
def State.moveRecords (s : State) (gid src dst : Nat) : State :=
  let n := 2 ^ 20
  let mv := fun (a : Nat) => if src ≤ a && a < src + n then a - src + dst else a
  let s1 : State :=
    { s with recs := moveKeys s.recs (src / 4) (dst / 4) (n / 4), marks := moveKeys s.marks (src / 4) (dst / 4) (n / 4),
             olds := moveKeys s.olds (src / 4) (dst / 4) (n / 4),
             owned := s.owned.map fun (o : Owned) => { o with base := mv o.base } }
  s1.updGroup gid fun g =>
    { g with ctxs := g.ctxs.map fun (c : Ctx) =>
        { c with loose := c.loose.map fun (l : Loose) => { l with word := mv (l.word * 4) / 4 },
                 loads := c.loads.map fun (l : LooseLoad) => { l with key := mv l.key },
                 saw := moveKeys c.saw (src / 4) (dst / 4) (n / 4) } }

/-- The scratch of a group that runs, from its start. -/
def State.scratchCells (s : State) (g : Group) : List Host.Cell :=
  let a := scrKey g.core 0
  (s.mem.filter fun x => a ≤ x.1 && x.1 < a + 16384 * g.scratch).map fun x => (x.1 - a, x.2)
/-- Scratch goes to the area; of an incremental save the lines that hold something else than when the image was last saved or loaded
(R331; log 56). -/
def State.saveScratch (s : State) (g : Group) (area : Nat) (part : Bool) : State :=
  let a := scrKey g.core 0
  if !part then { s with mem := moveCells s.mem a area (16384 * g.scratch) }
  else
    let now := s.scratchCells g
    let lines := (((now.filter fun x => !g.savedScratch.contains x) ++ g.savedScratch.filter fun x => !now.contains x).map
      fun x => x.1 / 64).dedup
    let s1 := lines.foldl (fun (s : State) l => s.wrBytes (area + 64 * l) (s.rdBytes (a + 64 * l) 64)) s
    { s1 with mem := s1.mem.filter fun x => !(a ≤ x.1 && x.1 < a + 16384 * g.scratch) }
/-- Write the image of a group at CTXA, scratch included, and take its scratch off its core (R328, R330). An incremental save writes
what holds something else than when the image was last saved or loaded (R331; log 56). What of an area lies beyond the end of HBM4 is
kept at keys beyond it, which no access reaches (log 104, DESIGN CHOICE). -/
def State.saveImage (s : State) (g : Group) (cause : Nat) (parked halted : Bool) : State :=
  let base := hbm g.ctxa.toNat
  let part := g.incremental && !g.saved.isEmpty
  let all := s.imgGroup g cause parked halted
  let s1 := (if part then all.filter fun f => !g.saved.contains f else all).foldl (fun s (o, n, v) => s.wr (base + o) n v) s
  let cells := s1.scratchCells g
  let s2 := (s1.saveScratch g (base + 0x100000) part).updGroup g.id fun x =>
    { x with saved := all, savedScratch := if g.incremental then cells else [] }
  s2.moveRecords g.id (scrKey g.core 0) (savedKey g.id)
/-- The completion of a job goes to the saved record of a group that is off its core (R328). -/
def State.saveRecord (s : State) (gid i : Nat) : State :=
  match s.groups.find? fun g => g.id == gid with
  | none => s
  | some g =>
    let f := imgJob (g.jobs.toList.getD i JobRec.empty) i
    if g.status == .running then s else s.wr (hbm g.ctxa.toNat + f.1) f.2.1 f.2.2

/-! ### Restoring -/

/-- A register's restored value: both views take it where the image was rewritten. -/
def Ctx.restoreReg (c : Ctx) (r : RegName) (v : Nat) : Ctx :=
  let d := BitVec.ofNat 4096 v
  if c.r.get r == d then c
  else
    let all := BitVec.allOnes 4096
    let c := (c.overtake false r all).overtake true r all
    { c with r := c.r.put r all d, w := c.w.put r all d }
/-- Restored queue entries keep the stamps of the kept ones. -/
def restoreBlocks (kept : List QBlock) (vals : List Nat) : List QBlock :=
  (vals.zipIdx).map fun (v, i) => { data := BitVec.ofNat 4096 v, stamp := ((kept[i]?).map (·.stamp)).getD 0 }
def restoreWords (kept : List QWord) (vals : List Nat) : List QWord :=
  (vals.zipIdx).map fun (v, i) => { data := BitVec.ofNat 64 v, stamp := ((kept[i]?).map (·.stamp)).getD 0 }
def restoreBranches (kept : List QBranch) (vals : List Nat) : List QBranch :=
  (vals.zipIdx).map fun (v, i) =>
    { dest := BitVec.ofNat 64 v, vmask := ((kept[i]?).map (·.vmask)).getD 0, stamp := ((kept[i]?).map (·.stamp)).getD 0 }
def State.rdMany (s : State) (base size n : Nat) : List Nat := (List.range n).map fun i => s.rd (base + size * i) size
def State.restoreQueues (s : State) (counts qb qw : Nat) (q : Queues) : Queues :=
  let cnt := fun i => min (queueDepth i) (s.rd (counts + i) 1)
  { blocks := Vector.ofFn (fun (i : Fin 6) =>
      restoreBlocks q.blocks[i.val] (s.rdMany (qb + 2048 * i.val) 512 (cnt i.val))),
    q6 := restoreWords q.q6 (s.rdMany qw 8 (cnt 6)) ++ q.q6.drop 16, q7 := restoreWords q.q7 (s.rdMany (qw + 0x80) 8 (cnt 7)),
    bq := restoreBranches q.bq (s.rdMany (qw + 0x100) 8 (cnt 8)) }
/-- The acquire set of an image; an agent number keeps its high part where the kept set knows it (log 9). -/
def State.restoreAcq (s : State) (base : Nat) (kept : List Acq) : List Acq :=
  ((s.rdMany base 16 16).filter (· != 0)).map fun v =>
    let var := v % 2 ^ 64
    let tag := v / 2 ^ 64 % 2 ^ 48
    let a := v / 2 ^ 112
    match kept.find? (fun q => q.var == var && q.agent % 2 ^ 16 == a) with
    | some q => { q with tag := tag }
    | none => { var := var, agent := a, tag := tag }
/-- A rep and queued updates read back; a rep keeps its place in the sequence. -/
def State.restoreRep (s : State) (area o : Nat) (kept : Option Rep) (seq : Nat) : Option Rep :=
  let v := s.rdOpen area o 16
  if bit v 120 then
    some { body := BitVec.ofNat 64 v, n := bits v 71 64, count := bits v 87 72, stride := bits v 95 88, pass := bits v 111 96,
           idx := bits v 119 112, seq := (kept.map (·.seq)).getD seq }
  else none
def State.restoreLag (s : State) (area o : Nat) (kept : List Lag) : List Lag :=
  (kept.zipIdx).map fun (u, i) =>
    if i < lagPlaces then
      { u with mask := bitMask (s.rdOpen area (o + 576 * i) 64), data := BitVec.ofNat 4096 (s.rdOpen area (o + 576 * i + 64) 512) }
    else u
/-- A context read back from its image. EPC and EPCE of the image name where its streams go on (R328); a handler's own EPC and EPCE stay
with the context. A store to EPC in the image, of any value, acts as a redirecting return, as another EPCE does (R331). Log 9. -/
def State.restoreCtx (s : State) (base : Nat) (c : Ctx) : Ctx :=
  let o := imgCtx c.num
  let b := base + o
  let rd := fun o n => s.rd (b + o) n
  let xl := BitVec.ofNat 32 (rd 0x3600 4)
  let vl := BitVec.ofNat 32 (rd 0x3604 4)
  let c1 := (List.finRange 32).foldl (fun c i =>
    if xl.getLsbD i.val then c.restoreReg (.x (BitVec.ofFin i)) (rd (8 * i.val) 8) else c.restoreReg (.x (BitVec.ofFin i)) 0) c
  let c2 := (List.finRange 32).foldl (fun c i =>
    if vl.getLsbD i.val then c.restoreReg (.v (BitVec.ofFin i)) (rd (0x4000 + 512 * i.val) 512)
    else c.restoreReg (.v (BitVec.ofFin i)) 0) c1
  let c3 := (List.finRange 8).foldl (fun c i =>
    (c.restoreReg (.g (BitVec.ofFin i)) (rd (0x100 + 16 * i.val) 16)).restoreReg (.k (BitVec.ofFin i))
      (rd (0x180 + 8 * i.val) 8 % 2 ^ 48)) c2
  let w := fun o => BitVec.ofNat 64 (rd o 8)
  let gs := rd 0x250 8
  let csr : Csrs :=
    { fflags := BitVec.ofNat 6 (rd 0x200 8), cmask := w 0x208, fmt := Vector.ofFn (fun (i : Fin 16) => w (0x280 + 8 * i.val)),
      tvec := w 0x300 >>> 2 <<< 2, tcause := w 0x308, tval := w 0x310, epc := w 0x318, epce := w 0x320, bndt := bndtOf (w 0x330),
      tscr := w 0x348, mode := bit gs 0, pmode := bit gs 1, intrap := bit gs 2, redir := bit gs 3 }
  let moved := c.rewritten || csr.epc != c.pcA || csr.epce != c.pcE
  let q := s.restoreQueues (b + 0x3608) (b + 0x400) (b + 0x3400) c3.queues
  let fr := c3.frame.map fun f =>
    { f with queues := s.restoreQueues (b + 0xA008) (b + 0xA400) (b + 0xD400) f.queues,
             rep := s.restoreRep base (o + 0xA008 + repPlace) f.rep f.seqE, lag := s.restoreLag base (o + 0xD600) f.lag }
  let own := if csr.intrap then { csr with epc := c.csr.epc, epce := c.csr.epce } else csr
  let c4 := { c3 with rewritten := false, xlive := xl, vlive := vl, csr := own, frame := fr,
                      sync := { c3.sync with acq := s.restoreAcq (b + 0x3700) c3.sync.acq, lost := bit (rd 0x3800 8) 63 },
                      relTag := max c3.relTag (rd 0x3800 8 % 2 ^ 48),
                      bounds := if csr.bndt == c3.csr.bndt then c3.bounds else [] }
  if moved then
    { c4 with pcA := csr.epc, pcE := csr.epc, seqA := 0, seqE := 0, seqP := 0, endAt := 0, ahead := [], rep := none, lag := [],
              earlyReads := earlyBefore c4.earlyReads, barWait := none,
              queues := { q with bq := [] } }
  else
    { c4 with pcA := csr.epc, pcE := csr.epce, queues := q, rep := s.restoreRep base (o + 0x3608 + repPlace) c4.rep c4.seqE,
              lag := s.restoreLag base (o + 0x8000) c4.lag }
/-- The contexts of the image's live mask; one that was not live is a helper whose streams start at its EPC (log 9). -/
def State.restoreLive (s : State) (base : Nat) (g : Group) : List Ctx :=
  let m := s.rd (base + 0x48) 8
  let new := (List.range 11).filter fun n => n != 0 && n ≤ kHelpers g.kobj && bit m n && !g.ctxs.any fun c => c.num == n
  (g.ctxs.filter fun c => c.num == 0 || bit m c.num) ++
    (new.zipIdx).map fun (n, i) => Ctx.fresh n (s.nextAgent + i) 0 0 0 0 false
/-- The barrier states, section keys, job records and side log of an image, over those that the group has kept (log 9). -/
def State.restoreBars (s : State) (base : Nat) (g : Group) : Group :=
  let v := fun (i : Nat) => s.rdOpen base (0x80 + 16 * i) 16
  let counts := (barScopes.zipIdx).map fun (sc, i) => (sc, v i % 2 ^ 64)
  let wait := (barScopes.zipIdx).findSome? fun (sc, i) => if v i / 2 ^ 64 == 0 then none else some (sc, v i / 2 ^ 64 - 1)
  { g with arrivals := counts.filter fun x => x.1 != .co && x.2 != 0,
           ctxs := g.ctxs.map fun c => if c.num == 0 then { c with arrCo := v 0 % 2 ^ 64, barWait := wait } else c }
def State.restoreKeys (s : State) (base : Nat) (g : Group) : Group :=
  let v := fun (i : Nat) => s.rdOpen base (0x100 + 16 * i) 16
  { g with closed := bit (v 0) 66,
           keys := (g.keys.zipIdx).filterMap fun (k, i) =>
             if 16 ≤ i then some k
             else if bit (v i) 64 then some { k with ptr := BitVec.ofNat 64 (v i), held := bit (v i) 65 } else none }
def State.restoreJobs (s : State) (base : Nat) (g : Group) : Group :=
  { g with jobs := Vector.ofFn fun (i : Fin 64) =>
      let v := s.rdOpen base (0x200 + 16 * i.val) 16
      { g.jobs[i] with busy := bit v 0, seq := bits v 11 2, done := if bit v 1 then some (BitVec.ofNat 64 (v / 2 ^ 64)) else none } }
def State.restoreLog (s : State) (base : Nat) (g : Group) : Group :=
  { g with log := (g.log.zipIdx).filterMap fun (e, i) =>
      let v := s.rdOpen base (0xC0000 + 1024 * i) 16
      if bit v 88 then
        some { e with va := BitVec.ofNat 64 v, len := bits v 79 64, ctx := bits v 87 80,
                      data := bytesOfNat (bits v 79 64) (s.rdOpen base (0xC0000 + 1024 * i + 512) 512) }
      else none }
/-- SMASK without its reserved bits (R3, R81). -/
def smaskBits : Guard := BitVec.ofNat 128 ((List.range 16).map fun i => 0xBF * 2 ^ (8 * i)).sum
/-- The scratch units of an image's CARVE, as far as there is room for them (R90). -/
def State.restoreScratch (s : State) (base : Nat) (g : Group) : Nat := min (s.rd (base + 0x19) 1 % 64) (64 - g.ru)
/-- A register that the group or its function has once takes the image's value where the image has been rewritten (log 9). -/
def State.restoreShared (base : Nat) (g : Group) (s : State) (n : Nat) : State :=
  let o := imgCtx 0 + 0x300 + 8 * (n - 0x100)
  let v := s.rd (base + o) 8
  match g.saved.find? (fun f => f.1 == o), g.ctxs.find? (fun c => c.num == 0) with
  | some f, some c => if f.2.2 == v then s else s.csrPut g c n (BitVec.ofNat 64 v)
  | _, _ => s
/-- The image is read back onto the group's core, scratch included (R329). -/
def State.loadImage (s : State) (g : Group) : State :=
  let base := hbm g.ctxa.toNat
  let scratch := s.restoreScratch base g
  let s1 := State.updGroup { s with nextAgent := s.nextAgent + 11 } g.id fun x0 =>
    let x := s.restoreBars base x0
    let y : Group :=
      { x with kptr := BitVec.ofNat 64 (s.rd base 8), used := s.rd (base + 0x10) 8, scratch := scratch,
               inhm := BitVec.ofNat 128 (s.rd (base + 0x20) 16 % 2 ^ 100),
               smask := BitVec.ofNat 128 (s.rd (base + 0x30) 16) &&& smaskBits,
               entryNo := s.rd (base + 0x40) 8, depth := s.rd (base + 0x60) 8,
               ctxs := (s.restoreLive base x).map fun c => s.restoreCtx base c }
    s.restoreLog base (s.restoreJobs base (s.restoreKeys base y))
  let core := g.core
  let pm := base + imgCtx 0
  let s2 := s1.updCore core fun k =>
    { k with pmc := Vector.ofFn (fun (i : Fin 8) => BitVec.ofNat 48 (s.rd (pm + 0x380 + 8 * i.val) 8)),
             pmsel := Vector.ofFn (fun (i : Fin 8) => BitVec.ofNat 64 (s.rd (pm + 0x3C0 + 8 * i.val) 8) &&& pmselMask) }
  let area := s2.mem.filter (fun x => base + 0x100000 ≤ x.1 && x.1 < base + 0x100000 + 16384 * scratch)
  let rest := s2.mem.filter (fun x => !(scrKey core 0 ≤ x.1 && x.1 < scrKey core 0 + 2 ^ 20))
  let m := area.foldl (fun (m : List Host.Cell) x => writeByte m (x.1 - (base + 0x100000) + scrKey core 0) x.2) rest
  let s3 : State := State.moveRecords { s2 with mem := m } g.id (savedKey g.id) (scrKey core 0)
  let s4 := [0x105, 0x107, 0x108].foldl (State.restoreShared base g) s3
  s4.updGroup g.id fun x =>
    { x with saved := if x.incremental then s4.imgGroup x 0 false false else [],
             savedScratch := if x.incremental then s4.scratchCells x else [] }

end Sys2Proof.Machine
end

