-- ==== Sys2Proof/Machine/JobMem.lean ====
section
/-! DEFINITION. Engine jobs: their accesses (R235-R237, R313), holding (R219, R237), completion (R232), and writes sent over
the fabric (R310). -/

namespace Sys2Proof.Machine

/-- The next release number of a sender: of its context while that lives, else as it was at the send (R303). -/
def State.senderRel (s : State) (x : Sender) : Nat :=
  match ((s.group? x.gid).bind fun g => g.ctx? x.ctx) with
  | some c => if c.sync.agent == x.agent then c.relTag + 1 else x.rel + 1
  | none => x.rel + 1
/-- How a job's accesses are checked: by any of its senders' views (R235, R313). A PFE job's entries count its own releases
(R259). -/
def State.jobWho (s : State) (j : Job) (path : Nat) : Who :=
  let (own, rel) := match j.senders.head? with | some x => (x.agent, s.senderRel x) | none => (j.agent, 1)
  { syncs := j.senders.map fun x => x.sync, entry := { agent := j.agent, rel := j.pfe.seqno + 1, own := own, ownRel := rel }, path := path,
    seen := none, before := [], fences := [] }
/-- What a job's access comes to: done, waiting for a bank (R211) or a tensor that moves (R226), held, or a failed check. The state of the
last three has what the slice has kept (R215). -/
inductive JRes (α : Type) where
  | ok (s : State) (v : α)
  | busy (s : State) (bank : Bool)
  | hold (s : State) (va : Nat) (malformed : Bool)
  | fail (s : State) (status : Nat)
def JRes.state {α : Type} : JRes α → State
  | .ok s _ | .busy s _ | .hold s _ _ | .fail s _ => s
def JRes.bind {α β : Type} (r : JRes α) (k : State → α → JRes β) : JRes β :=
  match r with
  | .ok s v => k s v
  | .busy s b => .busy s b
  | .hold s va m => .hold s va m
  | .fail s st => .fail s st

/-- The bytes lie in the saddlebag of a traversal that the queue manager started (R253). -/
def State.inBag (s : State) (j : Job) (ptr n : Nat) : Bool :=
  let key := cmKey (bits ptr 39 32) (ptr % 2 ^ 32)
  j.qm && bits ptr 55 40 == 0 && ptr % 2 ^ 32 + n ≤ 2 ^ 22 &&
    s.owned.any fun o => o.path == pathPfe && o.agent == j.agent && o.base ≤ key && key + n ≤ o.base + o.width
/-- The check of n bytes against the sender's bounds table (R237); those of a write of another device have been made there. -/
def State.boundJob (s : State) (j : Job) (ptr n : Nat) (right : Right) : Option Nat :=
  let e := s.boundsAt j.bndt (bits ptr 63 56)
  if j.checked || bits ptr 63 56 == 0xFE then none else if !boundsOk e ptr n then some 0x12 else if !right.bound e then some 0x14 else none
/-- The check of n bytes within one page. The bounds are those of the sender's table (R237). A traversal of the queue manager
reaches its saddlebag whether or not the function holds a core there (log 30). A write to the weight store fails while the function
runs on its die (R210). -/
def State.probeJob (s : State) (j : Job) (ptr n : Nat) (right : Right) : Probe :=
  if bits ptr 63 56 == 0xFE then
    if s.inBag j ptr n then .at (.mem (cmKey (bits ptr 39 32) (ptr % 2 ^ 32)) localHome true none) else s.probeCluster j.vf ptr n
  else
    match s.boundJob j ptr n right with
    | some cause => .trap cause
    | none => s.probeLeaf j.vf ptr right (s.runsOnDie j.vf)
/-- What the slice keeps of the walk of an engine's access (R215). -/
def State.engWalked (s : State) (j : Job) (ptr n : Nat) (right : Right) : State :=
  if bits ptr 63 56 == 0xFE || (s.boundJob j ptr n right).isSome then s else s.keepWalk j.vf ptr
/-- A byte range in pieces that lie in one page each. -/
def pieces : Nat → Nat → Nat → List (Nat × Nat)
  | 0, _, _ => []
  | fuel + 1, ptr, n =>
    let room := 2 ^ 19 - ptr % 2 ^ 19
    if n ≤ room then (if n == 0 then [] else [(ptr, n)]) else (ptr, room) :: pieces fuel (ptr + room) (n - room)
def piecesOf (ptr n : Nat) : List (Nat × Nat) := pieces (n / 2 ^ 19 + 2) ptr n
/-- Check every piece by itself: the spots in order, or the first that fails, is held, or (`waits`) finds its bank busy. -/
def State.jobPieces (s : State) (j : Job) (w : Who) (k : Kind) (right : Right) (waits : Bool) :
    List (Nat × Nat) → JRes (List (Spot × Nat))
  | [] => .ok s []
  | (p, n) :: r =>
    let s1 := s.engWalked j p n right
    match s.probeJob j p n right with
    | .trap cause => .fail s1 cause
    | .page va m => .hold s1 va m
    | .at sp =>
      if (waits && s1.bankBusy sp) || s1.moves sp then .busy s1 (waits && s1.bankBusy sp)
      else
        match s1.checkSpot w k sp n with
        | some cause => .fail s1 cause
        | none => (s1.jobPieces j w k right waits r).bind fun s l => .ok s ((sp, n) :: l)
/-- Check every piece, and that there is room for the records of all of them (R303). -/
def State.jobSpots (s : State) (j : Job) (w : Who) (k : Kind) (right : Right) (waits : Bool) (ps : List (Nat × Nat)) :
    JRes (List (Spot × Nat)) :=
  (s.jobPieces j w k right waits ps).bind fun s l => if 1 < l.length && s.spotsFull l then .fail s 0x0B else .ok s l
/-- The slices' lines and the page counters of an engine's access (R206, R228). -/
def State.engLines (s : State) (vf : Nat) (p : Spot) (n : Nat) (isStore : Bool) : State :=
  match p with
  | .mem key _ _ (some (leaf, va, _)) =>
    (linesIn key n).foldl (fun (s : State) (x : Nat × Nat) =>
      let a := va + (x.1 - key)
      let l : Line := { line := x.1 / 64, va := a / 64 * 64, home := s.homeSlice vf a, vf := vf, mc := leafMc leaf,
                        valid := maskWords x.1 x.2, dirty := 0 }
      if isStore then s.sliceStore l (partWords x.1 x.2) else (s.sliceRead l).1) s
  | _ => s
/-- An engine's access to n bytes has been made, the latest to each of their pages (R227). -/
def State.engTouched (s : State) (vf ptr n : Nat) : State :=
  if bits ptr 63 56 == 0xFE then s else (piecesOf ptr n).foldl (fun (s : State) x => s.touch vf x.1) s
/-- An engine's read, change and write of bytes at a spot, whose line is brought in first (R206, R207, R227). -/
def State.engChanged (s : State) (vf ptr : Nat) (p : Spot) (n : Nat) : State :=
  ((s.engLines vf p n false).engLines vf p n true).engTouched vf ptr n
/-- Read n bytes for a job; `waits`: at a busy bank it waits (R211). -/
def State.jobReadW (s : State) (j : Job) (path ptr n : Nat) (waits : Bool) : JRes (List Byte) :=
  let w := s.jobWho j path
  (s.jobSpots j w .read .r waits (piecesOf ptr n)).bind fun s l =>
    let r := l.foldl (fun (acc : List Byte × State) (x : Spot × Nat) =>
      match x.1 with
      | .win _ _ => acc
      | .mem key _ _ _ => (acc.1 ++ acc.2.rdBytes key x.2, (acc.2.noteSpot w .read x.1 x.2).engLines j.vf x.1 x.2 false)) ([], s)
    .ok (r.2.engTouched j.vf ptr n) r.1
def State.jobRead (s : State) (j : Job) (path ptr n : Nat) : JRes (List Byte) := s.jobReadW j path ptr n true
def State.jobReadN (s : State) (j : Job) (path ptr n : Nat) : JRes Nat :=
  (s.jobRead j path ptr n).bind fun s b => .ok s (natOfBytes b)
/-- Write bytes for a job. -/
def State.jobWrite (s : State) (j : Job) (path ptr : Nat) (b : List Byte) : JRes Unit :=
  let w := s.jobWho j path
  (s.jobSpots j w .write .w false (piecesOf ptr b.length)).bind fun s l =>
    let r := l.foldl (fun (acc : Nat × State) (x : Spot × Nat) =>
      match x.1 with
      | .win _ _ => acc
      | .mem key _ _ _ =>
        (acc.1 + x.2, (((acc.2.noteSpot w .write x.1 x.2).engLines j.vf x.1 x.2 true).store key ((b.drop acc.1).take x.2)).wsWritten
          key x.2)) (0, s)
    .ok (r.2.engTouched j.vf ptr b.length) ()

/-- How a run over elements ends: all done, waiting for a bank or held at an element, or a failed check at one. -/
inductive RunEnd where
  | done (s : State)
  | busy (s : State) (pos : Nat) (bank : Bool)
  | hold (s : State) (pos va : Nat) (malformed : Bool)
  | fail (s : State) (pos status : Nat)
/-! ### Completion -/

/-- A completion word (R232). -/
def doneWord (status index level : Nat) : Word :=
  BitVec.ofNat 64 (2 ^ 63 + index % 2 ^ 32 * 2 ^ 16 + level % 4 * 2 ^ 8 + status % 2 ^ 8)
/-- A job ends: each live sender's record and event line (R232, R235), and the launch that started it (R253). -/
def State.completeJob (s : State) (j : Job) (word : Word) : State :=
  let s1 := j.senders.foldl (fun (s : State) (x : Sender) =>
    if !x.live then s
    else
      ((s.updGroup x.gid fun g =>
        { g with jobs := Vector.ofFn fun (i : Fin 64) =>
            if i.val == x.record && g.jobs[i].agent == j.agent && g.jobs[i].busy then { g.jobs[i] with done := some word }
            else g.jobs[i] }).saveRecord x.gid x.record).raiseLine x.core x.ev) s
  match j.qm, j.launch with
  | true, some l => s1.updLaunch l fun x => { x with treeRunning := false, treeStatus := some (word.toNat % 256) }
  | _, _ => s1
/-- Replace the head of an engine's queue. -/
def State.setHead (s : State) (cl : Nat) (e : Eng) (j : Job) : State := s.setJobs cl e (j :: (s.jobs cl e).drop 1)
/-- The head is done with this word; its record is written at JOB_COMPLETION. -/
def State.endJob (s : State) (cl : Nat) (e : Eng) (j : Job) (word : Word) : State :=
  s.setHead cl e { j with phase := .done word }
/-- The head is held at an address (R237): one record to the supervisor. At a tensor that moves it waits (R226). -/
def State.holdJob (s : State) (cl : Nat) (e : Eng) (j : Job) (path va : Nat) (malf : Bool) : State :=
  if s.movesVa j.vf va then s.setHead cl e { j with phase := .running, atBank := false }
  else
  let x := j.senders.head?
  let core := match x with | some x => x.core | none => 0
  let ctx := match x with | some x => x.ctx | none => 0
  (s.report j.vf (faultRecord (BitVec.ofNat 64 va) 0 j.id core ctx path false malf 0x10)).setHead cl e
    { j with phase := .held (BitVec.ofNat 64 va) malf true }
/-- The header's p and arg (R231). -/
def Job.p (j : Job) : Nat := bits j.msg.toNat 31 16
def Job.arg (j : Job) : Nat := bits j.msg.toNat 47 32
/-- The header's own reserved bits. -/
def Job.headOk (j : Job) : Bool := bits j.msg.toNat 63 48 == 0 && !bit j.msg.toNat 15
def Job.f (j : Job) (hi lo : Nat) : Nat := bits j.msg.toNat hi lo
/-- The tile that a command names, of those that a job's message holds (R246). -/
def Job.tile? (j : Job) : Option Nat :=
  match j.cmd with
  | .mma | .mmab => some (bits j.msg.toNat 215 208)
  | .mepi => some (bits j.msg.toNat 263 256)
  | .zclr t => some t
  | .zrow t _ _ => some t
  | _ => none
/-- A pointer with an offset, its region kept (R149). -/
def ptrAdd (p : Nat) (off : Int) : Nat := (offPtr (BitVec.ofNat 64 p) off).toNat
/-- A job may run: it is neither done nor held, or an xlinv has let it perform afresh (R219, R237). -/
def Job.ready (j : Job) : Bool :=
  match j.phase with
  | .queued | .running | .held _ _ false => true
  | _ => false
/-- The cycle in which the job arrived has passed, so that those that arrived in it are in their order, and no message can be merged with
it any more (R234, R235; log 84). -/
def Job.settledAt (j : Job) (cl cyc : Nat) : Bool :=
  j.arrived < cyc &&
    (!(j.msg.getLsbD 14 && j.phase == .queued && j.senders.all fun x => clusterOf x.core == cl) || j.arrived + 16 < cyc)
/-- Run a function on the head of an engine's queue where the job has this command. -/
def State.onHead (s : State) (cl : Nat) (e : Eng) (cmd : Cmd) (f : State → Job → State) : State :=
  match (s.jobs cl e).head? with
  | some j => if j.cmd == cmd && j.ready && j.settledAt cl s.cyc then f s j else s
  | none => s

/-- The senders of a job, one for each group. -/
def Job.senderGroups (j : Job) : List Sender :=
  j.senders.foldl (fun l x => if l.any (fun y => y.gid == x.gid) then l else l ++ [x]) []
/-- Engine events of a job count on the core that a sender's group runs on, once for each group (R235, R332). -/
def State.countJob (s : State) (j : Job) (ev n : Nat) : State :=
  j.senderGroups.foldl (fun (s : State) x =>
    match s.group? x.gid with
    | none => s
    | some g =>
      if g.runs then s.count g.core ev n j.vf (match g.ctx? x.ctx with | some c => c.csr.mode | none => false) else s) s
/-- The head waits, for a bank in its refresh window or for a tensor that moves (R211, R226); a wait for a bank counts once (R332). -/
def State.bankJob (s : State) (cl : Nat) (e : Eng) (j : Job) (bank : Bool) : State :=
  (if j.atBank || !bank then s else s.countJob j 0x40 1).setHead cl e { j with phase := .running, atBank := bank }
/-- Go on with what an access of the head comes to. -/
def State.headStep {α : Type} (cl : Nat) (e : Eng) (j : Job) (path : Nat) (r : JRes α) (k : State → α → State) : State :=
  match r with
  | .ok s v => k s v
  | .busy s bank => s.bankJob cl e j bank
  | .hold s va m => s.holdJob cl e j path va m
  | .fail s st => s.endJob cl e j (doneWord st 0 0)
/-- How a job goes on behind position `pos` of its run. -/
def Job.goesOn (j : Job) (pos : Nat) : Job := { j with pos := pos, phase := .running, atBank := j.atBank && j.pos == pos }
end Sys2Proof.Machine
end

