-- ==== Sys2Proof/Machine/Cvr.lean ====
section
/-! DEFINITION. The coverage rasteriser: RASTER (R264-R270) and the jobs that pre-emption waits for (R266). -/

namespace Sys2Proof.Machine

/-! ### Flattening (R267, R268) -/

abbrev Pt := Int × Int

/-- n / d to the nearest integer, ties to even. -/
def divHe (n : Int) (d : Nat) : Int :=
  let q := n / d
  let r := n % d
  if d < 2 * r || (2 * r == d && q % 2 != 0) then q + 1 else q
/-- Word i of a segment. -/
def segWord (seg i : Nat) : Nat := seg / 2 ^ (32 * i) % 2 ^ 32
def segKind (seg : Nat) : Nat := segWord seg 0 / 2 ^ 24
def segPt (seg i : Nat) : Pt := (toI 24 (segWord seg (2 * i)), toI 24 (segWord seg (2 * i + 1)))
def segOk (seg : Nat) : Bool :=
  segKind seg < 3 && (List.range 8).all (fun i => i == 0 || segWord seg i / 2 ^ 24 == 0) &&
    (List.range 8).all (fun i => i / 2 ≤ segKind seg + 1 || segWord seg i == 0)
def linf (v : Pt) : Nat := max v.1.natAbs v.2.natAbs
def comb2 (a b c : Pt) : Pt := (a.1 - 2 * b.1 + c.1, a.2 - 2 * b.2 + c.2)
/-- The flattening level and whether the curve reaches its cap (R268). -/
def segLevel (seg : Nat) : Nat × Bool :=
  let p := segPt seg
  match segKind seg with
  | 0 => (0, false)
  | kind =>
    let d := if kind == 1 then linf (comb2 (p 0) (p 1) (p 2))
      else max (linf (comb2 (p 0) (p 1) (p 2))) (linf (comb2 (p 1) (p 2) (p 3)))
    let kmax := if kind == 1 then 6 else 7
    let c := if kind == 1 then 64 else 48
    match (List.range (kmax + 1)).find? (fun k => d ≤ c * 4 ^ k) with
    | some k => (k, false)
    | none => (kmax, true)
/-- Point i of 2^k on the curve. -/
def segAt (seg k i : Nat) : Pt :=
  let p := segPt seg
  let N : Int := (2 ^ k : Nat)
  let t : Int := i
  let u := N - t
  let f := fun (g : Pt → Int) =>
    match segKind seg with
    | 0 => if i == 0 then g (p 0) else g (p 1)
    | 1 => divHe (u * u * g (p 0) + 2 * t * u * g (p 1) + t * t * g (p 2)) (4 ^ k)
    | _ => divHe (u * u * u * g (p 0) + 3 * t * u * u * g (p 1) + 3 * t * t * u * g (p 2) + t * t * t * g (p 3)) (8 ^ k)
  (f (·.1), f (·.2))
def flatten (seg : Nat) : List Pt :=
  let k := (segLevel seg).1
  (List.range (2 ^ k + 1)).map (segAt seg k)

/-! ### Clipping (R269) -/

/-- The multiples of 256 strictly between a and b, from a on, with their distance from a. -/
def gridBetween (a b : Int) : List (Int × Nat) :=
  let m0 := if a < b then a / 256 + 1 else -((-a) / 256) - 1
  let n := ((b - a).natAbs / 256) + 2
  (List.range n).filterMap fun i =>
    let x := if a < b then 256 * (m0 + i) else 256 * (m0 - i)
    if (a < x && x < b) || (b < x && x < a) then some (x, (x - a).natAbs) else none
/-- Merge the crossings of both kinds by their place along the line: x crossings at nx / dx, y crossings at ny / dy. -/
def mergeCross (S E : Pt) (dx dy : Nat) : Nat → List (Int × Nat) → List (Int × Nat) → List Pt
  | 0, _, _ => []
  | n + 1, xs, ys =>
    let px := fun (x : Int) => (x, divHe (S.2 * dx + (E.2 - S.2) * (x - S.1).natAbs) dx)
    let py := fun (y : Int) => (divHe (S.1 * dy + (E.1 - S.1) * (y - S.2).natAbs) dy, y)
    match xs, ys with
    | [], [] => []
    | (x, _) :: r, [] => px x :: mergeCross S E dx dy n r []
    | [], (y, _) :: r => py y :: mergeCross S E dx dy n [] r
    | (x, a) :: r, (y, b) :: t =>
      if a * dy == b * dx then (x, y) :: mergeCross S E dx dy n r t
      else if a * dy < b * dx then px x :: mergeCross S E dx dy n r ((y, b) :: t)
      else py y :: mergeCross S E dx dy n ((x, a) :: r) t
/-- A line cut at every grid line. -/
def cutLine (S E : Pt) : List Pt :=
  let xs := gridBetween S.1 E.1
  let ys := gridBetween S.2 E.2
  S :: mergeCross S E (E.1 - S.1).natAbs (E.2 - S.2).natAbs (xs.length + ys.length) xs ys ++ [E]

/-- The target of a RASTER message (R264). -/
structure Target where
  acc : Nat
  ox : Int
  oy : Int
  tw : Nat
  th : Nat
  stride : Nat
def Job.target (j : Job) : Target :=
  { acc := j.f 159 128, ox := toI 16 (j.f 207 192), oy := toI 16 (j.f 223 208), tw := j.f 231 224, th := j.f 239 232,
    stride := j.f 255 240 }
/-- The adds of one piece: byte offset from acc, and the amount. -/
def pieceAdds (t : Target) (a b : Pt) : List (Nat × Int) :=
  let dy := b.2 - a.2
  let px := min a.1 b.1 / 256
  let py := min a.2 b.2 / 256
  if dy == 0 || py < t.oy || t.oy + t.th ≤ py then []
  else
    let at_ := fun (q : Int) => (py - t.oy).toNat * t.stride + 4 * (q - t.ox).toNat
    let own := if t.ox ≤ px && px < t.ox + t.tw then
        [(at_ px, dy * (512 - (a.1 - 256 * px) - (b.1 - 256 * px)))] else []
    let lo := max (px + 1) t.ox
    own ++ (List.range (t.ox + t.tw - lo).toNat).map fun i => (at_ (lo + i), dy * 512)
def pairs {α : Type} (l : List α) : List (α × α) := l.zip (l.drop 1)
def segAdds (t : Target) (seg : Nat) : List (Nat × Int) :=
  (pairs (flatten seg)).flatMap fun (S, E) => (pairs (cutLine S E)).flatMap fun (a, b) => pieceAdds t a b

/-! ### The command -/

/-- Steps 1 to 6 of R265: the status, if a check fails. -/
def State.rasterCheck (s : State) (cl : Nat) (j : Job) : Option Nat :=
  let t := j.target
  let seg := j.f 127 64
  let capc := j.f 319 256
  let last := t.acc + (t.th - 1) * t.stride + 4 * t.tw - 1
  let core := match j.senders.head? with | some x => x.core | none => 0
  let room := match j.senders.head? with
    | some x => (match s.group? x.gid with | some g => 16384 * g.scratch | none => 2 ^ 20)
    | none => 0
  if !j.headOk || 16 ≤ j.p || j.arg == 0 then some 0x01
  else if clusterOf core != cl then some 0x14
  else if t.th == 0 || 128 < t.th || t.tw == 0 || 128 < t.tw || t.stride % 4 != 0 || t.stride < 4 * t.tw ||
      j.f 511 320 != 0 || j.f 191 160 != 0 then some 0x01
  else if seg % 32 != 0 || capc % 4 != 0 || t.acc % 4 != 0 then some 0x15
  else if room ≤ last then some 0x12
  else if j.p != 0 && !(s.cluster cl).images.any (fun x => x.1 == 4 && x.2.1 == j.p) then some 0x01
  else none
/-- The pointer checks of R237 on n bytes in one page: bounds, tag, rights and mapping, without an access. -/
def State.ptrCheck (s : State) (j : Job) (ptr n : Nat) (right : Right) : JRes Unit :=
  let s1 := s.engWalked j ptr n right
  match s.probeJob j ptr n right with
  | .trap cause => .fail s1 cause
  | .page va m => .hold s1 va m
  | .at p => if s1.moves p then .busy s1 false else .ok s1 ()
/-- The pointer checks of step 7 of R265: on seg, then on capc. -/
def State.rasterPtrs (s : State) (j : Job) : JRes Unit :=
  let capc := j.f 319 256
  (s.ptrCheck j (j.f 127 64) 32 .r).bind fun s _ => if capc == 0 then .ok s () else s.ptrCheck j capc 4 .rw
/-- Read n segments from number i on, in order, behind those that have been read. -/
def State.readSegs (s : State) (j : Job) : Nat → Nat → List Nat → RunEnd × List Nat
  | 0, _, l => (.done s, l)
  | n + 1, i, l =>
    match s.jobReadN j pathCvr (ptrAdd (j.f 127 64) (32 * i : Nat)) 32 with
    | .ok s1 v => if segOk v then s1.readSegs j n (i + 1) (l ++ [v]) else (.fail s1 i 0x01, l)
    | .busy s1 bank => (.busy s1 i bank, l)
    | .hold s1 va m => (.hold s1 i va m, l)
    | .fail s1 st => (.fail s1 i st, l)
/-- What a loaded image adds (R277, log 29). -/
def imageAdds (image : List Byte) (t : Target) (seg : Nat) : List (Nat × Int) :=
  (List.range t.th).flatMap fun r => (List.range t.tw).map fun q =>
    (r * t.stride + 4 * q, ((Config.imageCover image seg (r * 128 + q)).toNat : Int))
def State.rasterAdds (s : State) (cl : Nat) (j : Job) (segs : List Nat) : List (Nat × Int) :=
  if j.p == 0 then segs.flatMap (segAdds j.target)
  else
    match (s.cluster cl).images.find? (fun x => x.1 == 4 && x.2.1 == j.p) with
    | some (_, _, image) => segs.flatMap (imageAdds image j.target)
    | none => []
/-- A wrapping 32-bit add at a key. -/
def State.add32 (s : State) (key : Nat) (v : Int) : State := s.wr key 4 (toN 32 ((s.rd key 4 : Nat) + v))
/-- The words of the target. -/
def targetWords (key : Nat) (t : Target) : List Nat :=
  (List.range t.th).flatMap fun r => (List.range t.tw).map fun q => (key + t.acc + r * t.stride) / 4 + q
/-- Count the curves that reached their cap at capc, atomically on path CVR (R268). -/
def State.countCapped (s : State) (j : Job) (n : Nat) : JRes Unit :=
  let capc := j.f 319 256
  if n == 0 || capc == 0 then .ok s ()
  else
    let w := s.jobWho j pathCvr
    (s.jobSpots j w .atomic .rw true [(capc, 4)]).bind fun s l =>
      match l with
      | [(.mem key home t e, _)] =>
        .ok (((s.noteSpot w .atomic (.mem key home t e) 4).engChanged j.vf capc (.mem key home t e) 4).store key
          (bytesOfNat 4 (s.rd key 4 + n))) ()
      | _ => .ok s ()
/-- The core into whose scratch the job adds: none once its group has left it, whose job then adds nothing (R341). -/
def State.rasterCore (s : State) (j : Job) : Option Nat :=
  match j.senders.head? with
  | none => none
  | some x =>
    if x.live && (match s.group? x.gid with | some g => g.runs && g.core == x.core | none => false) then some x.core else none
/-- The adds of a job whose segments have been read, into its sender's scratch; what it counts at capc commits in any case (R341). -/
def State.rasterAdd (s : State) (cl : Nat) (j : Job) (segs : List Nat) : JRes Unit :=
  let count := fun (s : State) => s.countCapped j (if j.p == 0 then segs.countP (fun v => (segLevel v).2) else 0)
  match s.rasterCore j with
  | none => count s
  | some core =>
    let w := s.jobWho j pathCvr
    let words := targetWords (scrKey core 0) j.target
    match s.checkWords w .atomic words (fun _ => 4) true with
    | some cause => .fail s cause
    | none =>
      (count s).bind fun s _ =>
        let s1 := (s.rasterAdds cl j segs).foldl (fun (s : State) (a : Nat × Int) =>
          s.add32 (scrKey core (j.target.acc + a.1)) a.2) s
        .ok (s1.noteWords w .atomic words fun _ => 4) ()
/-- RASTER on the head of the queue. -/
def State.raster (s : State) (cl : Nat) : State :=
  s.onHead cl .cvr .raster fun s j =>
    match (if j.pos == 0 then s.rasterCheck cl j else none) with
    | some st => s.endJob cl .cvr j (doneWord st 0 0)
    | none =>
      State.headStep cl .cvr j pathCvr (if j.pos == 0 then s.rasterPtrs j else .ok s ()) fun s _ =>
        match s.readSegs j (j.arg - j.pos) j.pos j.read with
        | (.busy s1 i bank, l) => s1.bankJob cl .cvr { j.goesOn i with read := l } bank
        | (.hold s1 i va m, l) => s1.holdJob cl .cvr { j.goesOn i with read := l } pathCvr va m
        | (.fail s1 _ st, _) => s1.endJob cl .cvr j (doneWord st 0 0)
        | (.done s1, l) =>
          State.headStep cl .cvr { j.goesOn j.arg with read := l } pathCvr (s1.rasterAdd cl j l) fun s2 _ =>
            s2.endJob cl .cvr j (doneWord 0 0 0)
def execRaster (cl : Nat) (s : State) : Host.Outcome State Fault Refusal := .next (s.raster cl)

/-- The head of an engine's queue, done, leaves it (R232, R234); a command that the engine does not define ends with status
0x01 (R231). -/
def State.popHead (s : State) (cl : Nat) (e : Eng) : State :=
  match s.jobs cl e with
  | [] => s
  | j :: r =>
    match j.phase, j.cmd with
    | .done w, _ => (s.setJobs cl e r).completeJob j w
    | .queued, .bad => if !j.settledAt cl s.cyc then s else (s.setJobs cl e r).completeJob j (doneWord 0x01 0 0)
    | _, _ => s
/-- A CVR job into a group's scratch is in its cluster's queue. -/
def State.scratchBusy (s : State) (g : Group) : Bool :=
  (s.jobs (clusterOf g.core) .cvr).any fun j => j.senders.any fun x => x.gid == g.id && x.live

end Sys2Proof.Machine
end

