-- ==== Sys2Proof/Machine/Sequence.lean ====
section
/-! DEFINITION. Fetching an instruction's parcels (R96-R99), and where the two streams stand in the sequence (R119). -/

namespace Sys2Proof.Machine

/-- What a fetch comes to: an instruction, a cause of decode, a failed check with its address, an unmapped page, or a
home where the fetch waits, `bank` for a refresh window (R211, R226). The state has what the fetches before have kept (R214, R215). -/
inductive Fetched where
  | instr (s : State) (i : Instr)
  | bad (s : State) (cause : Nat)
  | trap (s : State) (cause : Nat) (tval : Word)
  | page (s : State) (va : Nat) (malformed : Bool)
  | busy (s : State) (bank : Bool)

/-- The probe of one parcel: global memory only, with the execute right (R98). -/
def State.fetchProbe (s : State) (g : Group) (c : Ctx) (pc : Word) : Probe :=
  if isLocal pc then .trap 0x14 else s.probeGlobal g.vf (s.boundsOf c (bits pc.toNat 63 56)) pc.toNat 4 .x
/-- The recorded stores to a line that a group's fetch need not see (R99): each with the line before it, latest first. -/
def State.versionsOf (s : State) (g : Group) (line : Nat) : List CodeVersion :=
  ((alGet s.code line).getD []).filter fun v => g.startAt < v.tick || g.unseen.contains v.tick
/-- A byte of memory as a fetch sees it, of the stores to its line latest first: as the latest of those that wrote it and are not
missed has left it. -/
def seenByte (a : Nat) (missed : CodeVersion → Bool) (now : Byte) : List CodeVersion → Byte
  | [] => now
  | v :: r =>
    if !(v.key ≤ a && a < v.key + v.len) then seenByte a missed now r
    else if missed v then seenByte a missed (v.bytes.getD (a % 64) 0) r
    else now
/-- The parcel at a key that a context fetches: each store to its line that the fetch need not see is seen whole, or is not (R99). -/
def State.codeAt (s : State) (g : Group) (c : Ctx) (key : Nat) : Nat :=
  match s.versionsOf g (key / 64) with
  | [] => s.rd key 4
  | l =>
    let n := Config.codeChoice (key / 64) g.id s.cyc (16 * (c.seqA + c.seqE) + c.num)
    let missed := fun (v : CodeVersion) => (l.zipIdx).any fun x => x.1.tick == v.tick && bit n x.2
    natOfBytes ((List.range 4).map fun b =>
      seenByte (key + b) missed (BitVec.ofNat 8 (s.rd (key + b) 1)) ((alGet s.code (key / 64)).getD []))
/-- A fetched parcel's line at its slice (R206, R228; log 5). -/
def State.fetchLine (s : State) (g : Group) (p : Spot) : State :=
  match p with
  | .mem key home _ (some (e, va, _)) => (s.sliceRead (lineOf g key 4 e va home)).1
  | _ => s
/-- Fetch n parcels from pc, then go on with what was read. -/
def State.fetchParcels (s : State) (g : Group) (c : Ctx) (pc : Word) : Nat → Except Fetched (List Parcel × State)
  | 0 => .ok ([], s)
  | n + 1 =>
    let s1 := s.tried g c pc 4 4 .x
    match s.fetchProbe g c pc with
    | .trap cause => .error (.trap s1 cause pc)
    | .page va m => .error (.page s1 va m)
    | .at (.win _ _) => .error (.trap s1 0x14 pc)
    | .at (.mem key home t e) =>
      if s.bankBusy (.mem key home t e) || s.moves (.mem key home t e) then .error (.busy s1 (s.bankBusy (.mem key home t e)))
      else
        let p := BitVec.ofNat 32 (s.codeAt g c key)
        match ((s1.fetchLine g (.mem key home t e)).touchEa g pc).fetchParcels g c (offPtr pc 4) n with
        | .ok (ps, s') => .ok (p :: ps, s')
        | .error x => .error x
/-- The instruction at pc. -/
def State.fetch (s : State) (g : Group) (c : Ctx) (pc : Word) : Fetched :=
  match s.fetchParcels g c pc 1 with
  | .error x => x
  | .ok (ps, s1) =>
    match parcelCount (ps.headD 0) with
    | none => .bad s1 0x02
    | some n =>
      match s1.fetchParcels g c (offPtr pc 4) (n - 1) with
      | .error x => x
      | .ok (qs, s2) =>
        match decodeParcels (ps.headD 0) (qs.getD 0 0) (qs.getD 1 0) with
        | .ok i => .instr s2 i
        | .error cause => .bad s2 cause

/-- The instruction at place n of the sequence, at pc: as one of the streams has fetched it, if the other has not passed it yet
(R119). -/
def State.fetchSeq (s : State) (g : Group) (c : Ctx) (n : Nat) (pc : Word) : Fetched :=
  match alGet c.code n with
  | some i => .instr s i
  | none => s.fetch g c pc
/-- Both streams meet the instruction that was fetched for place n (R119). -/
def Ctx.noteCode (c : Ctx) (n : Nat) (i : Instr) : Ctx :=
  if (alGet c.code n).isSome then c
  else
    let floor := min c.seqA (match c.rep with | some r => min r.seq c.seqE | none => c.seqE)
    { c with code := alPut (c.code.filter fun x => floor ≤ x.1) n i }
def State.noteCode (s : State) (g : Group) (c : Ctx) (n : Nat) (i : Instr) : State := s.updCtx g.id c.num fun x => x.noteCode n i

/-- The first parcel that stands at an address, for TVAL (R118). -/
def State.parcelAt (s : State) (g : Group) (c : Ctx) (pc : Word) : Word :=
  match s.fetchProbe g c pc with
  | .at (.mem key _ _ _) => BitVec.ofNat 64 (s.codeAt g c key)
  | _ => 0

/-! ### Where the streams stand (R119, R124, R167, R328) -/

/-- Whether nothing can make the access stream's instruction at hand trap any more (R119). -/
def Wait.committed : Wait → Bool
  | .queue _ b => b
  | .other b => b
  | _ => false
/-- The access stream waits at an instruction that nothing can make trap any more. -/
def Ctx.waitsCommitted (c : Ctx) : Bool := match c.waitA with | some w => w.committed | none => false
/-- Every access-stream instruction before place n of the sequence is committed. -/
def Ctx.committedTo (c : Ctx) (n : Nat) : Bool :=
  n ≤ c.seqA || (n == c.seqA + 1 && c.waitsCommitted)
/-- A fetch of the execute stream that fails traps by itself only where the access stream has passed: in front of it every instruction
before the fault completes first (R118), and where the access stream can never come, the streams deadlock (R124; log 113). -/
def Ctx.trapsAlone (c : Ctx) : Bool := c.committedTo c.seqP && c.seqE < c.seqA
/-- The access stream meets a class-E instruction. -/
def Ctx.passA (c : Ctx) (i : Instr) : Ctx :=
  { c with pcA := offPtr c.pcA i.size, seqA := c.seqA + 1, waitA := none, retryA := false }
/-- The sequence does not go on behind these. -/
def endsSequence : Instr → Bool
  | .retire | .rets .. | .hend | .eret => true
  | _ => false
/-- How far a walk along the sequence goes at most (log 20). -/
def walkFuel : Nat := 65536
/-- Walk along the sequence from place n over the instructions that satisfy p: the address, and how many were passed. -/
def State.walkOver (s : State) (g : Group) (c : Ctx) (p : Instr → Bool) : Nat → Nat → Word → Word × Nat
  | 0, _, pc => (pc, 0)
  | fuel + 1, n, pc =>
    match s.fetchSeq g c n pc with
    | .instr _ i =>
      if p i then
        let r := s.walkOver g c p fuel (n + 1) (offPtr pc i.size)
        (r.1, r.2 + 1)
      else (pc, 0)
    | _ => (pc, 0)
/-- The sequence ends at the instruction at place n. -/
def State.endsAt (s : State) (g : Group) (c : Ctx) (n : Nat) (pc : Word) : Bool :=
  match s.fetchSeq g c n pc with
  | .instr _ i => endsSequence i
  | _ => false
/-- The context with each stream at the instruction that it would execute next (R119, R134, R167): the access stream behind the
class-E instructions, unless it waits at its instruction; the execute stream at the class E or the control flow that it comes to next,
unless it waits for something else than a commit, or the sequence ends before one (log 31, DEDUCED). -/
def State.settled (s : State) (g : Group) (c : Ctx) : Ctx :=
  let c1 :=
    if c.waitA.isSome then c
    else
      let r := s.walkOver g c Instr.isExec walkFuel c.seqA c.pcA
      { c with pcA := r.1, seqA := c.seqA + r.2 }
  if c1.waitE.isSome && c1.waitE != some .commit then c1
  else
    let r := s.walkOver g c (fun i => !i.isExec && !i.isFlow && !endsSequence i) walkFuel c1.seqE c1.pcE
    if s.endsAt g c (c1.seqE + r.2) r.1 then c1
    else { c1 with pcE := r.1, seqE := c1.seqE + r.2, seqP := if r.2 = 0 then c1.seqP else max c1.seqP (c1.seqE + r.2) }
/-- Settle a context. -/
def State.settle (s : State) (g : Group) (c : Ctx) : State := s.updCtx g.id c.num fun _ => s.settled g c

end Sys2Proof.Machine
end

