-- ==== Sys2Proof/Machine/Ops.lean ====
section
/-! DEFINITION. What every instruction shares: how it ends, waits or traps in its stream (R118, R119, R136, R167), taking
an exception and returning from it (R320-R322), and stopping and resuming a group (R328, R329). -/

namespace Sys2Proof.Machine

/-- What the effect of an instruction comes to: it ends and its stream goes on behind it, or at `dest`; it waits; it
traps, with EPC behind the instruction where `after` holds (R326); or it has moved its streams itself. -/
inductive Act where
  | done (s : State)
  | goto (s : State) (dest : Word)
  | wait (s : State) (w : Wait)
  | trap (s : State) (cause : Nat) (tval : Option Word) (after : Bool)
  | moved (s : State)

/-- A trap with the first parcel in TVAL. -/
def Act.raise (s : State) (cause : Nat) : Act := .trap s cause none false
/-- A trap of an access: the effective address for the causes of R136, for every other the first parcel. -/
def Act.fail (s : State) (cause : Nat) (ea : Word) : Act :=
  .trap s cause (if [0x05, 0x12, 0x13, 0x14, 0x15, 0x16].contains cause then some ea else none) false
/-- What the result of a memory access comes to. -/
def Act.ofRes {α : Type} (r : MRes α) (k : State → α → Act) : Act :=
  match r with
  | .ok s v => k s v
  | .wait s w => .wait s w
  | .trap s cause ea => .fail s cause ea

/-- What the access of a block comes to; one that straddles a page boundary (`split`) has the first byte of the part that failed in TVAL,
for every check (R157; log 97). -/
def Act.ofBlock {α : Type} (split : Bool) (r : MRes α) (k : State → α → Act) : Act :=
  match r with
  | .trap s cause a => if split then .trap s cause (some a) false else .fail s cause a
  | r => .ofRes r k

/-! ### Stopping a context and a group -/

/-- What an access-stream instruction has done before it waits is done with. -/
def Ctx.clearA (c : Ctx) : Ctx :=
  { c with waitA := none, heldA := none, retryA := false, xlinvOn := false, logHeld := false, relWait := none, loaded := none,
           tagged := none, listed := none, nextKernel := none, loading := none, popped := none, entering := none, askA := none,
           replayed := 0, saving := none, evWait := 0 }
/-- Every stream stops at its instruction boundary; what it holds or waits for executes afresh (R328), and what a waiting bqe has
popped is back at the head of q6. -/
def Ctx.stop (c : Ctx) : Ctx :=
  let q := match c.popped with | some e => { c.queues with q6 := e :: c.queues.q6 } | none => c.queues
  { c.clearA with queues := q, waitE := none, heldE := none, retryE := false, askE := none, code := [] }
/-- A handle of the group is not bound yet: it is in escrow (R342, R343). -/
def Group.unbound (g : Group) : Bool := g.tiles.contains 24
/-- Every stream of a group stops where the instruction stands that it executes next (R328); in escrow that is the successor's first
(R343). It waits for no section key any more, and one that has been granted to it and that its ordent has not taken yet goes to the next
(R274). -/
def State.stopStreams (s : State) (gid : Nat) (st : Stopping) : State :=
  match s.group? gid with
  | none => s
  | some g =>
    let s1 := s.updGroup gid fun x =>
      { x with stopping := some st, ctxs := x.ctxs.map fun c => if g.unbound then c.stop else (s.settled g c).stop }
    let holds := fun (k : Nat) => g.keys.any fun y => y.key == k && y.held
    { s1 with keys := s1.keys.map fun (k, x) =>
        (k, { x with waiting := x.waiting.filter (· != gid), holder := if x.holder == some gid && !holds k then none else x.holder }) }
/-- A class-T launch whose group is parked or halted has no deadline promise any more (R76, R331). -/
def State.markDelayed (s : State) (lid : Nat) : State :=
  s.updLaunch lid fun l => if l.cls == 0 then { l with delayed := true } else l
/-- A stopped group leaves its core once no CVR job into its scratch is left (R266) and, but for a halt, its escrow has ended (R343):
the image is written, the core is free, and the record of a halt goes to the supervisor (R322, R328). -/
def State.finishStop (s : State) (gid : Nat) : State :=
  match s.group? gid with
  | none => s
  | some g =>
    match g.stopping with
    | none => s
    | some st =>
      if s.scratchBusy g || (g.unbound && st.record.isNone) then s
      else
        let halted := match st.status with | .halted _ => true | _ => false
        let s1 := (s.saveImage g st.cause (st.status == .parked) halted).updGroup gid fun x =>
          { x with status := st.status, stopping := none }
        match st.record with
        | some r => (s1.markDelayed g.launch).report g.vf r
        | none => s1
def State.stopGroup (s : State) (gid : Nat) (st : Stopping) : State := (s.stopStreams gid st).finishStop gid
/-- Halt a group (R322): the image, the free core, the record with halt = 1. -/
def State.haltGroup (s : State) (gid n cause : Nat) (addr pc : Word) : State :=
  match s.group? gid with
  | none => s
  | some g =>
    s.stopGroup gid { status := .halted cause, cause := cause, record := some (faultRecord addr pc 0 g.core n 0 true false cause) }

/-! ### Taking an exception -/

/-- The registers that a trap sets before it is entered. -/
def Csrs.trapInfo (r : Csrs) (cause : Nat) (tval epc epce : Word) : Csrs :=
  { r with tcause := BitVec.ofNat 64 cause, tval := tval, epc := epc, epce := epce }
/-- Trap entry in a context (R320): frame, empty queues, mode, both streams at TVEC. -/
def Ctx.enterTrap (c0 : Ctx) : Ctx :=
  let c := c0.stop
  { c with
    frame := some { endAt := c.endAt, ahead := c.ahead, early := c.earlyReads.filter fun r => c.seqA < r.seq, queues := c.queues, rep := c.rep, lag := c.lag, seqA := c.seqA, seqE := c.seqE,
                    seqP := c.seqP, barWait := c.barWait },
    queues := Queues.empty, rep := none, lag := [], seqA := 0, seqE := 0, seqP := 0, endAt := 0, ahead := [], barWait := none,
    earlyReads := earlyBefore (c.earlyReads.filter fun r => r.seq ≤ c.seqA), pcA := c.csr.tvec, pcE := c.csr.tvec,
    csr := { c.csr with pmode := c.csr.mode, mode := true, intrap := true, redir := false } }
/-- TVAL of a halting trap as the address of its record (R323): an address, or 0. A race's TVAL is one only of a part of a block, in
global memory (R157); a first parcel has 32 bits. -/
def recordAddr (cause : Nat) (tval : Word) : Word :=
  if [0x05, 0x12, 0x13, 0x14, 0x15, 0x16].contains cause || ([0x08, 0x09, 0x0A, 0x0B].contains cause && !isLocal tval) then tval else 0
/-- The address of the halting instruction (R323): the raising one, which EPCE names, or which EPC and EPCE follow where they name the
next instruction. -/
def haltingPc (c : Ctx) (epc epce : Word) : Word := if epc == epce && epc != c.pcE then c.pcA else epce
/-- A halting context's streams stand at EPC and EPCE. -/
def Ctx.standAt (epc epce : Word) (c : Ctx) : Ctx :=
  { c with pcA := epc, pcE := epce, waitA := some (.other false), waitE := some (.other false) }
/-- Take a trap in context n of a group (R320, R322). -/
def State.takeTrap (s : State) (gid n cause : Nat) (tval epc epce : Word) : State :=
  let s1 := s.updCtx gid n fun c => { c with csr := c.csr.trapInfo cause tval epc epce }
  match (s1.group? gid).bind (fun g => g.ctx? n) with
  | none => s1
  | some c =>
    if c.csr.intrap || c.csr.tvec == 0 then
      (s1.updCtx gid n (Ctx.standAt epc epce)).haltGroup gid n cause (recordAddr cause tval) (haltingPc c epc epce)
    else s1.updCtx gid n Ctx.enterTrap
/-- Return from a handler (R321), the mode and intrap checks made. -/
def Ctx.leaveTrap (c : Ctx) : Ctx :=
  let c1 := c.flushLag
  let csr : Csrs := { c1.csr with mode := c1.csr.pmode, intrap := false, redir := false }
  let base : Ctx := { c1.stop with csr := csr, frame := none, endAt := 0, ahead := [], earlyReads := earlyBefore c1.earlyReads }
  match c1.frame with
  | none => { base with pcA := c1.csr.epc, pcE := c1.csr.epc, seqA := 0, seqE := 0, seqP := 0 }
  | some f =>
    if c1.csr.redir then
      { base with queues := { f.queues with bq := [] }, rep := none, lag := [], seqA := 0, seqE := 0, seqP := 0, barWait := none,
                  earlyReads := earlyBefore (c1.earlyReads ++ f.early), pcA := c1.csr.epc, pcE := c1.csr.epc }
    else
      { base with queues := f.queues, rep := f.rep, lag := f.lag, seqA := f.seqA, seqE := f.seqE, seqP := f.seqP, endAt := f.endAt,
                  ahead := f.ahead, earlyReads := earlyBefore c1.earlyReads ++ f.early, barWait := f.barWait,
                  pcA := c1.csr.epc, pcE := c1.csr.epce }

/-! ### The two streams -/

/-- The first parcel of an instruction (R118). -/
def firstParcel (i : Instr) : Word := ((encode i).headD 0).setWidth 64
/-- The access stream goes on at dest. -/
def Ctx.nextA (c : Ctx) (dest : Word) : Ctx :=
  { c.clearA with pcA := dest, seqA := c.seqA + 1 }.endInstr false
/-- The execute stream goes on at dest. -/
def Ctx.nextE (c : Ctx) (dest : Word) : Ctx :=
  { c with pcE := dest, seqE := c.seqE + 1, waitE := none, heldE := none, retryE := false, askE := none }.endInstr true
/-- The next of rep (R132): at the end of a pass that is not the last, the execute stream starts the body again. -/
def Ctx.repStep (c : Ctx) : Ctx :=
  match c.rep with
  | none => c
  | some r =>
    if r.idx + 1 < r.n then { c with rep := some { r with idx := r.idx + 1 } }
    else if r.pass + 1 < r.count then
      { c with rep := some { r with idx := 0, pass := r.pass + 1 }, pcE := r.body, seqE := r.seq }
    else { c with rep := none }
/-- A stalled stream counts where it waits for a queue (R332). -/
def State.stalled (s : State) (g : Group) (c : Ctx) (ev : Nat) (w : Wait) : State :=
  match w with
  | .queue _ _ => s.count g.core ev 1 g.vf c.csr.mode
  | _ => s

/-- The access stream waits; what an xlinv let perform afresh has tried, unless it waits for a bank (R211, R223). -/
def Ctx.waitForA (w : Wait) (c : Ctx) : Ctx := { c with waitA := some w, retryA := c.retryA && w == .bank }
def Ctx.waitForE (w : Wait) (c : Ctx) : Ctx := { c with waitE := some w, retryE := c.retryE && w == .bank }
/-- The execute stream stands where the access stream does. -/
def Ctx.rejoin (c : Ctx) : Ctx := { c with pcE := c.pcA, seqE := c.seqA, seqP := c.seqA }
/-- How an access-stream instruction ends. A trap waits until the execute stream has drained (R118, R136); an instruction that traps
behind itself has ended (R127, R326). -/
def State.finishA (s0 : State) (i : Instr) (g : Group) (c : Ctx) (a : Act) : State :=
  match a with
  | .done s => (s.updCtx g.id c.num fun x => x.nextA (offPtr c.pcA i.size)).count g.core 2 1 g.vf c.csr.mode
  | .goto s d => (s.updCtx g.id c.num fun x => x.nextA d).count g.core 2 1 g.vf c.csr.mode
  | .moved s => s.count g.core 2 1 g.vf c.csr.mode
  | .wait s w => (s.updCtx g.id c.num (Ctx.waitForA w)).stalled g c 4 w
  | .trap s cause tval after =>
    if c.drained then
      let e := if after then offPtr c.pcA i.size else c.pcA
      let ended := fun (x : Ctx) => if after then x.endInstr false else x
      (s.updCtx g.id c.num fun x => ended x.rejoin).takeTrap g.id c.num cause (tval.getD (firstParcel i)) e e
    else s0.updCtx g.id c.num (Ctx.waitForA .drain)
/-- How an execute-stream instruction ends. EPC is the instruction that the access stream would execute next (R167). -/
def finishE (i : Instr) (g : Group) (c : Ctx) (a : Act) : State :=
  match a with
  | .done s =>
    (s.updCtx g.id c.num fun x => (x.nextE (offPtr c.pcE i.size)).repStep).count g.core 3 1 g.vf c.csr.mode
  | .goto s d => (s.updCtx g.id c.num fun x => x.nextE d).count g.core 3 1 g.vf c.csr.mode
  | .moved s => s.count g.core 3 1 g.vf c.csr.mode
  | .wait s w => (s.updCtx g.id c.num (Ctx.waitForE w)).stalled g c 5 w
  | .trap s cause tval after =>
    if after then
      -- a misused rep: the access stream is taken back to it (R133)
      (s.updCtx g.id c.num fun x => { x with seqA := x.seqE }).takeTrap g.id c.num cause (tval.getD c.pcE) c.pcE c.pcE
    else
      let a := s.settled g c
      (s.updCtx g.id c.num fun x => { x with pcA := a.pcA, seqA := a.seqA }).takeTrap g.id c.num cause
        (tval.getD (firstParcel i)) a.pcA c.pcE

/-- Run the effect of an instruction of class A or X for the context at hand. -/
def runA (i : Instr) (s : State) (f : State → Group → Ctx → Act) : Host.Outcome State Fault Refusal :=
  match s.here? with
  | none => .fault .noContext
  | some (g, c) => .next (s.finishA i g c (f s g c))
/-- Class S: the execute stream drains first, and the two streams order both ways (R5, R197). -/
def runS (i : Instr) (s : State) (f : State → Group → Ctx → Act) : Host.Outcome State Fault Refusal :=
  match s.here? with
  | none => .fault .noContext
  | some (g, c) =>
    if c.drained then
      let s1 := s.updCtx g.id c.num Ctx.seeBoth
      .next (s.finishA i g c (f s1 g c.seeBoth))
    else .next (s.updCtx g.id c.num (Ctx.waitForA .drain))
/-- Class E, its register fields as given. -/
def runE (i : Instr) (s : State) (f : State → Group → Ctx → Act) : Host.Outcome State Fault Refusal :=
  match s.here? with
  | none => .fault .noContext
  | some (g, c) => .next (finishE i g c (f s g c))

/-- An instruction of supervisor mode only (R325, R331): cause 0x14 in user mode. -/
def supervisor (s : State) (c : Ctx) (k : Act) : Act := if c.csr.mode then k else .raise s 0x14
/-- An instruction of the control context only. -/
def controlOnly (s : State) (c : Ctx) (k : Act) : Act := if c.num == 0 then k else .raise s 0x01

/-- An entry that a release of the context waits for, made or begun at tick t (R158): not one whose replay has failed, in the handler
that it led to (R222; log 39). -/
def LogEntry.delays (e : LogEntry) (c : Ctx) (t : Nat) : Bool := e.tick < t && !(e.failed.isSome && e.ctx == c.num)
/-- What a release waits for (R280, R158): the drained execute stream, and the replay of the entries logged before it. -/
def releaseGate (s : State) (g : Group) (c : Ctx) (k : State → Act) : Act :=
  if !c.drained then .wait s .drain
  else
    let t := c.relWait.getD s.tick
    if g.log.any (fun e => e.delays c t) then
      .wait (s.updCtx g.id c.num fun x => { x with relWait := some t }) (.other false)
    else k s

/-- A release that an instruction makes before it waits for something else is made once (R282, R295): its tag. -/
def released (s : State) (g : Group) (c : Ctx) (k : State → Nat → Act) : Act :=
  match c.tagged with
  | some t => k s t
  | none =>
    releaseGate s g c fun s =>
      k (s.updCtx g.id c.num fun x => { x.release with tagged := some (c.relTag + 1) }) (c.relTag + 1)

/-! ### Pre-emption and resumption -/

/-- Resume a group on a core (R329), which keeps no more lines than the group's cache units hold (R11). -/
def State.resumeGroup (s : State) (gid core : Nat) : State :=
  let s1 := s.updGroup gid fun x => { x with core := core, status := .running }
  match s1.group? gid with
  | none => s1
  | some g =>
    let s2 := s1.loadImage g
    match s2.group? gid with
    | some h => s2.keepLines core h.cacheLines
    | none => s2

end Sys2Proof.Machine
end

