-- ==== Sys2Proof/Machine/Num.lean ====
section
/-! DEFINITION. Number formats and rounding (R19-R40): a format, the values of its codes, exact arithmetic on values, and
the one rounding into a format with its flags. The mint (R50). -/

namespace Sys2Proof.Machine

/-- FFLAGS bits (R29). -/
abbrev Flags := BitVec 6
def fNX : Flags := 1
def fUF : Flags := 2
def fOF : Flags := 4
def fDZ : Flags := 8
def fNV : Flags := 16
def fSA : Flags := 32

/-- A number format: the IEEE formats of R23, or a narrow one (R31). `spec` is the specials field; IEEE formats are 01. -/
structure Fmt where
  s : Bool
  e : Nat
  m : Nat
  bias : Int
  spec : Nat
  sub : Bool
  clamp : Nat
  narrow : Bool
  deriving DecidableEq, Repr

def f32 : Fmt := { s := true, e := 8, m := 23, bias := 127, spec := 1, sub := true, clamp := 0, narrow := false }
def bf16 : Fmt := { s := true, e := 8, m := 7, bias := 127, spec := 1, sub := true, clamp := 0, narrow := false }
def f16 : Fmt := { s := true, e := 5, m := 10, bias := 15, spec := 1, sub := true, clamp := 0, narrow := false }

/-- The format of a descriptor (R31), and its bscale. -/
def fmtOf (d : Nat) : Fmt :=
  { s := bit d 0, e := bits d 3 1, m := bits d 6 4, bias := toI 8 (bits d 15 8), spec := bits d 17 16, sub := bit d 18,
    clamp := bits d 47 32, narrow := true }
def bscaleOf (d : Nat) : Nat := bits d 23 20
/-- The valid descriptors (R32). -/
def fmtValid (d : Nat) : Bool :=
  let f := fmtOf d
  let w := (if f.s then 1 else 0) + f.e + f.m
  w != 0 && w ≤ 8 && !bit d 7 && !bit d 19 && bits d 31 24 == 0 && bits d 63 48 == 0 && bscaleOf d ≤ 2 && f.spec != 3 &&
    !(f.e == 0 && f.spec != 0) && !(f.spec == 1 && (f.e < 2 || f.m == 0))
/-- The width of a code. -/
def Fmt.width (f : Fmt) : Nat := (if f.s then 1 else 0) + f.e + f.m
/-- The lane that holds a code in a register (R21). -/
def Fmt.lane (f : Fmt) : Nat := if !f.narrow then f.width else if f.width ≤ 4 then 4 else 8

/-- The value of a code: a NaN with its sign, quietness and payload of `w` bits below the quiet bit; an infinity;
(-1)^neg x m x 2^e; or the generated NaN of whatever format takes it. -/
inductive FVal where
  | nan (neg quiet : Bool) (payload w : Nat)
  | inf (neg : Bool)
  | fin (neg : Bool) (m : Nat) (e : Int)
  | gen
  deriving DecidableEq, Repr

def FVal.isNan : FVal → Bool
  | .nan .. | .gen => true
  | _ => false
def FVal.isSnan : FVal → Bool
  | .nan _ q _ _ => !q
  | _ => false
def FVal.isZero : FVal → Bool
  | .fin _ m _ => m == 0
  | _ => false
def FVal.neg : FVal → Bool
  | .nan n _ _ _ => n
  | .inf n => n
  | .fin n _ _ => n
  | .gen => false
/-- The value with its sign reversed; a NaN keeps its sign (R26). -/
def FVal.flip : FVal → FVal
  | .inf n => .inf (!n)
  | .fin n m e => .fin (!n) m e
  | v => v
def FVal.abs : FVal → FVal
  | .inf _ => .inf false
  | .fin _ m e => .fin false m e
  | v => v
def FVal.zero (neg : Bool) : FVal := .fin neg 0 0
/-- NV for a signalling NaN among the inputs. -/
def snan (l : List FVal) : Flags := if l.any FVal.isSnan then fNV else 0

/-- Split a code (R23, R33). -/
def Fmt.sign (f : Fmt) (c : Nat) : Bool := f.s && bit c (f.e + f.m)
def Fmt.expo (f : Fmt) (c : Nat) : Nat := c / 2 ^ f.m % 2 ^ f.e
def Fmt.mant (f : Fmt) (c : Nat) : Nat := c % 2 ^ f.m
/-- The value of a code (R23, R33). The NaN of specials 10 carries M as its payload (log 19). -/
def Fmt.value (f : Fmt) (c : Nat) : FVal :=
  let S := f.sign c
  let E := f.expo c
  let M := f.mant c
  if f.spec == 1 && E == 2 ^ f.e - 1 then
    (if M == 0 then .inf S else .nan S (bit M (f.m - 1)) (M % 2 ^ (f.m - 1)) (f.m - 1))
  else if f.spec == 2 && E == 2 ^ f.e - 1 && M == 2 ^ f.m - 1 then .nan S true M f.m
  else if f.e == 0 then .fin S M (-f.bias)
  else if E == 0 then (if f.sub then .fin S M (1 - f.bias - f.m) else .zero S)
  else .fin S (2 ^ f.m + M) ((E : Int) - f.bias - f.m)

/-- Put the parts of a code together. -/
def Fmt.pack (f : Fmt) (S : Bool) (em : Nat) : Nat := (if f.s && S then 2 ^ (f.e + f.m) else 0) + em
/-- The largest finite non-negative code. -/
def Fmt.maxCode (f : Fmt) : Nat :=
  match f.spec with
  | 0 => 2 ^ (f.e + f.m) - 1
  | 1 => (2 ^ f.e - 1) * 2 ^ f.m - 1
  | _ => 2 ^ (f.e + f.m) - 2
def Fmt.hasNan (f : Fmt) : Bool := f.spec != 0
def Fmt.infCode (f : Fmt) (S : Bool) : Nat := f.pack S ((2 ^ f.e - 1) * 2 ^ f.m)
/-- The generated NaN (R23, R33). -/
def Fmt.genNan (f : Fmt) : Nat :=
  if f.spec == 1 then (2 ^ f.e - 1) * 2 ^ f.m + 2 ^ (f.m - 1) else 2 ^ (f.e + f.m) - 1

/-- Compare m1 x 2^e1 with m2 x 2^e2. -/
def ltD (m1 : Nat) (e1 : Int) (m2 : Nat) (e2 : Int) : Bool :=
  if e1 ≤ e2 then m1 < m2 * 2 ^ (e2 - e1).toNat else m1 * 2 ^ (e1 - e2).toNat < m2

/-- Rounding modes (R39). -/
inductive Rm where
  | rne | rz | ru | rd | rna | sr
  deriving DecidableEq, Repr
def Rm.ofCode : Nat → Rm
  | 0 => .rne | 1 => .rz | 2 => .ru | 3 => .rd | 4 => .rna | _ => .sr
def Rm.code : Rm → Nat
  | .rne => 0 | .rz => 1 | .ru => 2 | .rd => 3 | .rna => 4 | .sr => 5

/-- Round m x 2^e to a multiple of 2^q: the multiple, and whether it is inexact (R39, R40). A tie of rne goes to the even
multiple; in a format without a mantissa bit, for which R39 names no even neighbour, that is the larger power of two (log 71). -/
def roundAt (mode : Rm) (u : Nat) (neg : Bool) (m : Nat) (e q : Int) : Nat × Bool :=
  if q ≤ e then (m * 2 ^ (e - q).toNat, false)
  else
    let d := (q - e).toNat
    let lo := m / 2 ^ d
    let r := m % 2 ^ d
    let up := match mode with
      | .rne => 2 ^ d < 2 * r || (2 ^ d == 2 * r && lo % 2 == 1)
      | .rz => false
      | .ru => !neg && r != 0
      | .rd => neg && r != 0
      | .rna => 2 ^ d ≤ 2 * r
      | .sr => u * 2 ^ d < r * 2 ^ 32
    (if up then lo + 1 else lo, r != 0)

/-- The exponent of the leading bit. -/
def topExp (m : Nat) (e : Int) : Int := (Nat.log2 m : Int) + e
/-- The least normal exponent, and the grid of a value with unbounded exponent above and subnormals on. -/
def Fmt.emin (f : Fmt) : Int := 1 - f.bias
def Fmt.grid (f : Fmt) (m : Nat) (e : Int) : Int :=
  if f.e == 0 then -f.bias else max (topExp m e - f.m) (f.emin - f.m)
/-- The code fields of y x 2^q, a value of the format. -/
def Fmt.fields (f : Fmt) (y : Nat) (q : Int) : Nat :=
  if f.e == 0 then y
  else if y < 2 ^ f.m then y
  else
    let t := topExp y q
    let E := (t + f.bias).toNat
    let sh := t - f.m - q
    E * 2 ^ f.m + ((if 0 ≤ sh then y / 2 ^ sh.toNat else y * 2 ^ (-sh).toNat) - 2 ^ f.m)

/-- The largest finite value of a format not above its clamp bound (R31, R38). -/
def Fmt.bound (f : Fmt) : Nat × Int :=
  let top := match f.value f.maxCode with | .fin _ m e => (m, e) | _ => (0, 0)
  match bf16.value (f.clamp % 2 ^ 15) with
  | .fin _ m e =>
    if m == 0 || !ltD m e top.1 top.2 then top
    else
      let q := f.grid m e
      let y := (roundAt .rz 0 false m e q).1
      if f.e != 0 && !f.sub && ltD y q 1 f.emin then (0, 0) else (y, q)
  | _ => top
/-- The code of a bound. -/
def Fmt.boundCode (f : Fmt) (S : Bool) : Nat :=
  let b := f.bound
  f.pack S (if b.1 == 0 then 0 else
    let q := f.grid b.1 b.2
    f.fields (roundAt .rz 0 false b.1 b.2 q).1 q)

/-- A NaN in a format (R26). -/
def Fmt.nanCode (f : Fmt) (neg : Bool) (payload w : Nat) : Nat :=
  if f.spec == 1 then
    let k := f.m - 1
    f.pack neg ((2 ^ f.e - 1) * 2 ^ f.m + 2 ^ k + (if k ≤ w then payload / 2 ^ (w - k) else payload * 2 ^ (k - w)))
  else f.pack neg (2 ^ (f.e + f.m) - 1)

/-- Rounding a finite value into an IEEE format, BF16 included (R24, R39, R40). -/
def Fmt.roundIeee (f : Fmt) (mode : Rm) (u : Nat) (S : Bool) (m : Nat) (e : Int) : Nat × Flags :=
  if m == 0 then (f.pack S 0, 0)
  else
    let q := f.grid m e
    let (y, inx) := roundAt mode u S m e q
    let top := match f.value f.maxCode with | .fin _ a b => (a, b) | _ => (0, 0)
    if ltD top.1 top.2 y q then
      let toInf := match mode with
        | .rne | .rna | .sr => true
        | .rz => false
        | .ru => !S
        | .rd => S
      (if toInf then f.infCode S else f.pack S f.maxCode, fOF ||| fNX)
    else
      let q' := topExp m e - f.m
      let y' := (roundAt mode u S m e q').1
      (f.pack S (f.fields y q),
        if inx then fNX ||| (if ltD y' q' 1 f.emin then fUF else 0) else 0)
/-- Rounding a finite value into a narrow format (R38). -/
def Fmt.roundNarrow (f : Fmt) (mode : Rm) (u : Nat) (S : Bool) (m : Nat) (e : Int) : Nat × Flags :=
  if m == 0 then (f.pack S 0, 0)
  else
    let q := f.grid m e
    let (y, inx) := roundAt mode u S m e q
    let tiny := f.e != 0 && ltD y q 1 f.emin
    if !f.s && S then
      let y0 := if tiny && !f.sub then 0 else y
      if y0 != 0 then (0, fNV) else (0, fNX ||| (if f.e != 0 then fUF else 0))
    else if ltD f.bound.1 f.bound.2 y q then (f.boundCode S, fOF ||| fNX)
    else
      let fl := (if inx then fNX else 0) ||| (if tiny && inx then fUF else 0)
      if tiny && !f.sub && y != 0 then (f.pack S 0, fl ||| fUF ||| fNX)
      else (f.pack S (f.fields y q), fl)
/-- Any value into a format: its code and the flags of the rounding (R24, R26, R38). Flags of signalling inputs are the
operation's. -/
def Fmt.round (f : Fmt) (mode : Rm) (u : Nat) (v : FVal) : Nat × Flags :=
  match v with
  | .nan n _ p w => if f.hasNan then (f.nanCode n p w, 0) else (0, fNV)
  | .gen => if f.hasNan then (f.genNan, 0) else (0, fNV)
  | .inf S =>
    if !f.s && S then (0, fNV)
    else if f.spec == 1 then (f.infCode S, 0)
    else (f.boundCode S, fOF ||| fNX)
  | .fin S m e => if f.narrow then f.roundNarrow mode u S m e else f.roundIeee mode u S m e
/-- A conversion: a signalling NaN raises NV (R26). -/
def Fmt.convert (f : Fmt) (mode : Rm) (u : Nat) (v : FVal) : Nat × Flags :=
  let r := f.round mode u v
  (r.1, r.2 ||| snan [v])

/-! ### Exact arithmetic on values (R24, R26-R28) -/

/-- A sum of two finite values; an exact zero sum of unlike signs is +0 (round to nearest). -/
def addFin (s1 : Bool) (m1 : Nat) (e1 : Int) (s2 : Bool) (m2 : Nat) (e2 : Int) : FVal :=
  let e := min e1 e2
  let a : Int := (m1 * 2 ^ (e1 - e).toNat : Nat)
  let b : Int := (m2 * 2 ^ (e2 - e).toNat : Nat)
  let t := (if s1 then -a else a) + (if s2 then -b else b)
  if t == 0 then .zero (s1 && s2) else .fin (t < 0) t.natAbs e
/-- Sum and product of two values, each with its own flags; NaN inputs are the caller's. -/
def addV : FVal → FVal → FVal × Flags
  | .inf a, .inf b => if a == b then (.inf a, 0) else (.gen, fNV)
  | .inf a, _ => (.inf a, 0)
  | _, .inf b => (.inf b, 0)
  | .fin s1 m1 e1, .fin s2 m2 e2 => (addFin s1 m1 e1 s2 m2 e2, 0)
  | _, _ => (.gen, 0)
def mulV : FVal → FVal → FVal × Flags
  | .inf a, y => if y.isZero then (.gen, fNV) else (.inf (a != y.neg), 0)
  | x, .inf b => if x.isZero then (.gen, fNV) else (.inf (x.neg != b), 0)
  | .fin s1 m1 e1, .fin s2 m2 e2 => (.fin (s1 != s2) (m1 * m2) (e1 + e2), 0)
  | _, _ => (.gen, 0)
/-- The first NaN of a list of inputs by priority, else the operation (R26). -/
def withNan (l : List FVal) (k : FVal × Flags) : FVal × Flags :=
  match l.find? FVal.isNan with
  | some v => (v, snan l)
  | none => k
def fAdd (a b : FVal) : FVal × Flags := withNan [a, b] (addV a b)
def fSub (a b : FVal) : FVal × Flags := withNan [a, b] (addV a b.flip)
def fMul (a b : FVal) : FVal × Flags := withNan [a, b] (mulV a b)
/-- x a b + y c for signs x, y (R26, R27): NaN priority c, a, b; 0 times infinity raises NV even beside a NaN c. -/
def fFma (np nc : Bool) (a b c : FVal) : FVal × Flags :=
  let zi := !(a.isNan || b.isNan) && (mulV a b).2 == fNV
  let nv : Flags := if zi then fNV else 0
  match [c, a, b].find? FVal.isNan with
  | some v => (v, snan [a, b, c] ||| nv)
  | none =>
    if zi then (.gen, fNV)
    else
      let p := (mulV a b).1
      addV (if np then p.flip else p) (if nc then c.flip else c)
/-- a < b as numbers, with -0 below +0 where `zeros` (R28); false where either is a NaN. -/
def ltV (zeros : Bool) (a b : FVal) : Bool :=
  match a, b with
  | .inf x, .inf y => x && !y
  | .inf x, .fin .. => x
  | .fin .., .inf y => !y
  | .fin s1 m1 e1, .fin s2 m2 e2 =>
    if m1 == 0 && m2 == 0 then zeros && s1 && !s2
    else if m1 == 0 then !s2
    else if m2 == 0 then s1
    else match s1, s2 with
      | true, false => true
      | false, true => false
      | false, false => ltD m1 e1 m2 e2
      | true, true => ltD m2 e2 m1 e1
  | _, _ => false
/-- Minimum and maximum (R28). -/
def fMinMax (isMax : Bool) (a b : FVal) : FVal × Flags :=
  let fl := snan [a, b]
  if a.isNan && b.isNan then (a, fl)
  else if a.isNan then (b, fl)
  else if b.isNan then (a, fl)
  else (if (if isMax then ltV true a b else ltV true b a) then b else a, fl)
/-- (a + b) / 2, rounded once by the caller (R170). -/
def fAvg (a b : FVal) : FVal × Flags :=
  let r := fAdd a b
  match r.1 with
  | .fin s m e => (.fin s m (e - 1), r.2)
  | _ => r
/-- |a - b|. -/
def fAbd (a b : FVal) : FVal × Flags :=
  let r := fSub a b
  (r.1.abs, r.2)
/-- min(max(d, a), b). -/
def fClamp (d a b : FVal) : FVal × Flags :=
  let t := fMinMax true d a
  let r := fMinMax false t.1 b
  (r.1, r.2 ||| t.2)

/-- An inexact magnitude m < x < m + 1 at exponent e, as an odd number one place lower. -/
def fold (inexact : Bool) (neg : Bool) (m : Nat) (e : Int) : FVal :=
  if inexact then .fin neg (2 * m + 1) (e - 1) else .fin neg m e
/-- Bits of precision of quotients and roots, more than any format needs. -/
def quotBits : Nat := 64
/-- Quotient (R173). -/
def fDiv (a b : FVal) : FVal × Flags :=
  withNan [a, b] <|
    match a, b with
    | .inf _, .inf _ => (.gen, fNV)
    | .inf x, _ => (.inf (x != b.neg), 0)
    | _, .inf y => (.zero (a.neg != y), 0)
    | .fin s1 m1 e1, .fin s2 m2 e2 =>
      if m2 == 0 then (if m1 == 0 then (.gen, fNV) else (.inf (s1 != s2), fDZ))
      else if m1 == 0 then (.zero (s1 != s2), 0)
      else
        let k := quotBits + Nat.log2 m2
        let n := m1 * 2 ^ k
        (fold (n % m2 != 0) (s1 != s2) (n / m2) (e1 - e2 - k), 0)
    | _, _ => (.gen, 0)
/-- Square root and its reciprocal (R173). -/
def fSqrt (a : FVal) : FVal × Flags :=
  withNan [a] <|
    match a with
    | .inf s => if s then (.gen, fNV) else (.inf false, 0)
    | .fin s m e =>
      if m == 0 then (.zero s, 0)
      else if s then (.gen, fNV)
      else
        let odd := e % 2 != 0
        let m1 := if odd then 2 * m else m
        let e1 := if odd then e - 1 else e
        let n := m1 * 2 ^ (2 * quotBits)
        let r := Nat.sqrt n
        (fold (r * r != n) false r (e1 / 2 - quotBits), 0)
    | v => (v, 0)
def fRsqrt (a : FVal) : FVal × Flags :=
  withNan [a] <|
    match a with
    | .inf s => if s then (.gen, fNV) else (.zero false, 0)
    | .fin s m e =>
      if m == 0 then (.inf s, fDZ)
      else if s then (.gen, fNV)
      else
        let odd := e % 2 != 0
        let m1 := if odd then 2 * m else m
        let e1 := if odd then e - 1 else e
        let k := 2 * (quotBits + Nat.log2 m1)
        let n := 2 ^ k
        let r := Nat.sqrt (n / m1)
        (fold (r * r * m1 != n) false r (-(e1 / 2) - k / 2), 0)
    | v => (v, 0)
def fRcp (a : FVal) : FVal × Flags := fDiv (.fin false 1 0) a

/-- Round to an integral value (R174). -/
def fFloor (mode : Rm) (a : FVal) : FVal × Flags :=
  match a with
  | .fin s m e => (.fin s (roundAt mode 0 s m e 0).1 0, 0)
  | v => (v, snan [v])
/-- The nearest integer to m x 2^e, ties to even (R41). -/
def roundInt (s : Bool) (m : Nat) (e : Int) : Int :=
  let q : Int := (roundAt .rne 0 s m e 0).1
  if s then -q else q

/-! ### The mint (R50) -/

def mint32 (k c : Nat) : Nat :=
  let x := (c + k) % 2 ^ 32 * 0x2C1B3C6D % 2 ^ 32
  let x := (x ^^^ (x / 2 ^ 12)) * 0x297A2D39 % 2 ^ 32
  x ^^^ (x / 2 ^ 15)
def mint16 (k c : Nat) : Nat :=
  let x := (c + k) % 2 ^ 16 * 0x2D4B % 2 ^ 16
  let x := (x ^^^ (x / 2 ^ 8)) * 0x6A37 % 2 ^ 16
  x ^^^ (x / 2 ^ 7)

end Sys2Proof.Machine
end

