-- ==== Sys2Proof/Machine/Special.lean ====
section
/-! DEFINITION. The correctly rounded special functions (R25, R173): enclosures in fixed point, refined until both ends
round alike. The values off the exact cases are irrational, so a rounding of them is always inexact. Log 10. -/

namespace Sys2Proof.Machine

/-- A result: an exact value with flags, or an irrational magnitude within `err` units of `v` x 2^e, by precision. -/
inductive SfRes where
  | exact (v : FVal) (fl : Flags)
  | approx (neg : Bool) (g : Nat → Nat × Int × Nat)

/-- Terms of a series with numerator factor num/den per step over an index-dependent divisor, summed in fixed point. -/
def seriesAux (step : Nat → Nat → Nat) : Nat → Nat → Nat → Nat → Nat
  | 0, _, _, acc => acc
  | fuel + 1, k, t, acc => if t == 0 then acc else seriesAux step fuel (k + 1) (step k t) (acc + t)

/-- atanh(1/n) x 2^p for an integer n, rounded down term by term. -/
def atanhInv (n p : Nat) : Nat → Nat → Nat → Nat → Nat
  | 0, _, _, acc => acc
  | fuel + 1, k, t, acc => if t == 0 then acc else atanhInv n p fuel (k + 1) (t / (n * n)) (acc + t / (2 * k + 1))
/-- arctan(1/n) x 2^p. -/
def arctanInv (n : Nat) : Nat → Nat → Int → Int → Int
  | 0, _, _, acc => acc
  | fuel + 1, k, t, acc =>
    if t == 0 then acc
    else arctanInv n fuel (k + 1) (t / (n * n)) (acc + (if k % 2 == 0 then t / (2 * k + 1) else -(t / (2 * k + 1))))
/-- ln 2 = 2 atanh(1/3) and pi = 16 arctan(1/5) - 4 arctan(1/239), each x 2^p, within p units. -/
def ln2At (p : Nat) : Nat := 2 * atanhInv 3 p p 0 (2 ^ p / 3) 0
def piAt (p : Nat) : Nat :=
  (16 * arctanInv 5 p 0 (2 ^ p / 5 : Nat) 0 - 4 * arctanInv 239 p 0 (2 ^ p / 239 : Nat) 0).toNat

/-- e^(r / 2^p) x 2^p for 0 ≤ r < 2^p, by its series. -/
def expSeries (p r : Nat) : Nat := seriesAux (fun k t => t * r / 2 ^ p / (k + 1)) (2 * p + 8) 0 (2 ^ p) 0
/-- ln(m / 2^p) x 2^p for 2^p ≤ m < 2^(p+1): 2 atanh((m - 1)/(m + 1)). -/
def lnSeries (p m : Nat) : Nat :=
  let z := (m - 2 ^ p) * 2 ^ p / (m + 2 ^ p)
  let z2 := z * z / 2 ^ p
  let rec go : Nat → Nat → Nat → Nat → Nat
    | 0, _, _, acc => acc
    | fuel + 1, k, t, acc => if t == 0 then acc else go fuel (k + 1) (t * z2 / 2 ^ p) (acc + t / (2 * k + 1))
  2 * go p 0 z 0
/-- sin and cos of r / 2^p, 0 ≤ r < 2^(p+1), x 2^p, by their series. -/
def trigSeries (p r : Nat) (cosine : Bool) : Nat :=
  let r2 := r * r / 2 ^ p
  let rec go : Nat → Nat → Int → Int → Int
    | 0, _, _, acc => acc
    | fuel + 1, k, t, acc =>
      if t == 0 then acc
      else
        let d := if cosine then (2 * k + 1) * (2 * k + 2) else (2 * k + 2) * (2 * k + 3)
        go fuel (k + 1) (t * r2 / 2 ^ p / d) (acc + (if k % 2 == 0 then t else -t))
  (go (2 * p + 8) 0 (if cosine then (2 ^ p : Nat) else r) 0).toNat

/-- Units of error that every enclosure allows: far more than its steps can lose. -/
def sfErr (p : Nat) : Nat := 64 * p + 4096

/-- A dyadic magnitude in fixed point, rounded down. -/
def fixed (m : Nat) (e : Int) (p : Nat) : Nat :=
  let s := e + p
  if 0 ≤ s then m * 2 ^ s.toNat else m / 2 ^ (-s).toNat
/-- A magnitude limited to 2^12, past which every function here has left the range of every format. -/
def clip (m : Nat) (e : Int) : Nat × Int := if ltD 1 12 m e then (1, 12) else (m, e)

/-- e^x for x = n / 2^p, any sign: mantissa near 2^p and exponent. -/
def expAt (p : Nat) (neg : Bool) (n : Nat) : Nat × Int :=
  let l := ln2At p
  let k : Int := if neg then -((n / l : Nat) : Int) - 1 else (n / l : Nat)
  let r : Int := (if neg then -(n : Int) else n) - k * l
  (expSeries p r.toNat, k - p)

/-- Leading zeros that a small argument costs. -/
def smallness (m : Nat) (e : Int) : Nat := (-(topExp m e)).toNat

def sfExp2 (a : FVal) : SfRes :=
  match a with
  | .inf s => .exact (if s then .zero false else .inf false) 0
  | .fin s m e =>
    let (m, e) := clip m e
    if m == 0 then .exact (.fin false 1 0) 0
    else if 0 ≤ e || m % 2 ^ (-e).toNat == 0 then
      let n : Int := if 0 ≤ e then (m * 2 ^ e.toNat : Nat) else (m / 2 ^ (-e).toNat : Nat)
      .exact (.fin false 1 (if s then -n else n)) 0
    else
      .approx false fun p =>
        let d := 2 ^ (-e).toNat
        let n := m / d
        let f := m % d
        -- x = k + f with 0 < f < 1
        let k : Int := if s then -((n : Nat) : Int) - 1 else n
        let f := if s then d - f else f
        let q := f * ln2At p / d
        (expSeries p q, k - p, sfErr p)
  | v => .exact v (snan [v])
def sfLog2 (a : FVal) : SfRes :=
  match a with
  | .inf s => if s then .exact .gen fNV else .exact (.inf false) 0
  | .fin s m e =>
    if m == 0 then .exact (.inf true) fDZ
    else if s then .exact .gen fNV
    else
      let t := topExp m e
      if m == 2 ^ Nat.log2 m then (if t == 0 then .exact (.zero false) 0 else .exact (.fin (t < 0) t.natAbs 0) 0)
      else
        -- log2 x = t + log2 of the mantissa; below 1 from above, so no cancellation is lost
        .approx (t < 0) fun p =>
          let p1 := p + 64
          let mm := m * 2 ^ p1 / 2 ^ Nat.log2 m
          if t < 0 then
            -- |log2 x| = -(t + 1) + log2(2 / mantissa)
            let inv := 2 * 2 ^ p1 * 2 ^ p1 / mm
            let f := if inv < 2 ^ (p1 + 1) then lnSeries p1 inv * 2 ^ p1 / ln2At p1 else 2 ^ p1
            ((-(t + 1)).toNat * 2 ^ p1 + f, -(p1 : Int), sfErr p1)
          else (t.toNat * 2 ^ p1 + lnSeries p1 mm * 2 ^ p1 / ln2At p1, -(p1 : Int), sfErr p1)
  | v => .exact v (snan [v])
/-- sin or cos of pi times a dyadic number. -/
def sfTrig (cosine : Bool) (a : FVal) : SfRes :=
  match a with
  | .inf _ => .exact .gen fNV
  | .fin s m e =>
    if m == 0 then .exact (if cosine then .fin false 1 0 else .zero s) 0
    else
      -- quarter turns: the argument in units of 1/2, and what is left over d
      let d := if 0 ≤ e then 1 else 2 ^ (-e).toNat
      let n := if 0 ≤ e then m * 2 ^ e.toNat else m
      let quarter := 2 * n / d % 4
      let left := 2 * n % d
      if left == 0 then
        (if cosine then
          (match quarter with
           | 0 => .exact (.fin false 1 0) 0
           | 2 => .exact (.fin true 1 0) 0
           | _ => .exact (.zero false) 0)
         else
          (match quarter with
           | 1 => .exact (.fin s 1 0) 0
           | 3 => .exact (.fin (!s) 1 0) 0
           | _ => .exact (.zero false) 0))
      else
        let useCos := cosine != (quarter % 2 == 1)
        let neg := if cosine then quarter == 1 || quarter == 2 else (2 ≤ quarter) != s
        let lost := smallness left (-(Nat.log2 d : Int)) 
        -- within a quarter the series of the smaller angle: left/d of a right angle
        .approx neg fun p =>
          let p1 := p + lost + 8
          let far := d < 2 * left
          let l := if far then d - left else left
          let p2 := p1 + smallness l (-(Nat.log2 d : Int))
          let r := piAt p2 * l / (2 * d)
          (trigSeries p2 r (useCos != far), -(p2 : Int), sfErr p2)
  | v => .exact v (snan [v])
def sfTanh (a : FVal) : SfRes :=
  match a with
  | .inf s => .exact (.fin s 1 0) 0
  | .fin s m e =>
    if m == 0 then .exact (.zero s) 0
    else
      let (m, e) := clip m e
      .approx s fun p =>
        let p1 := p + 2 * smallness m e + 8
        -- (1 - e^(-2x)) / (1 + e^(-2x))
        let x := fixed m e p1
        let (y, k) := expAt p1 true (2 * x)
        let t := fixed y k p1
        ((2 ^ p1 - t) * 2 ^ p1 / (2 ^ p1 + t), -(p1 : Int), sfErr p1)
  | v => .exact v (snan [v])
def sfSigm (a : FVal) : SfRes :=
  match a with
  | .inf s => .exact (if s then .zero false else .fin false 1 0) 0
  | .fin s m e =>
    if m == 0 then .exact (.fin false 1 (-1)) 0
    else
      let (m, e) := clip m e
      .approx false fun p =>
        let p1 := p + 8
        let x := fixed m e p1
        let (y, k) := expAt p1 true x
        let t := fixed y k p1
        if s then (y * 2 ^ p1 / (2 ^ p1 + t), k, sfErr p1) else (2 ^ p1 * 2 ^ p1 / (2 ^ p1 + t), -(p1 : Int), sfErr p1)
  | v => .exact v (snan [v])

/-- Round an irrational magnitude: raise the precision until both ends of the enclosure round alike. -/
def sfRound (f : Fmt) (neg : Bool) (g : Nat → Nat × Int × Nat) : List Nat → Nat × Flags
  | [] => f.round .rne 0 (.fin neg 1 0)
  | p :: r =>
    let (v, e, err) := g p
    let lo := f.round .rne 0 (.fin neg (2 * (v - err) + 1) (e - 1))
    let hi := f.round .rne 0 (.fin neg (2 * (v + err) + 1) (e - 1))
    if lo == hi || r.isEmpty then hi else sfRound f neg g r
def sfPrecisions : List Nat := [96, 192, 384, 768, 1536, 3072]
/-- A special function's result in FP32 or BF16 (R25). -/
def sfIn (f : Fmt) (r : SfRes) : Nat × Flags :=
  match r with
  | .exact v fl => let c := f.round .rne 0 v; (c.1, c.2 ||| fl)
  | .approx neg g => sfRound f neg g sfPrecisions

end Sys2Proof.Machine
end

