-- ==== Sys2Proof/Machine/Operands.lean ====
section
/-! DEFINITION. Operands: operand B and addresses of the access stream (R104, R137, R149); sources, elements, guards, lane
patterns, types and results of class E (R108-R113, R163-R168). -/

namespace Sys2Proof.Machine

/-! ### The access stream -/

/-- Operand B (R137). -/
def Ctx.opB (c : Ctx) : OpB → Word
  | .reg b => c.readX b
  | .imm i => i.signExtend 64
  | .lit _ l => l.signExtend 64
def Ctx.opBSM (c : Ctx) : OpBSM → Word
  | .reg b => c.readX b
  | .imm i => i.signExtend 64
def immOf : Imm → Word
  | .imm i => i.signExtend 64
  | .lit _ l => l.signExtend 64
/-- An effective address: the region of the base, the offset within it (R149). -/
def effAddr (base off : Word) : Word := offPtr base off.toInt
/-- A local address (R149). -/
def localAddr (base off : Word) : Word := BitVec.ofNat 64 ((base + off).toNat % 2 ^ 32)
/-- The target of a code offset (R144). -/
def relTarget (pc : Word) (off : BitVec 23) : Word := offPtr pc (4 * off.toInt)

/-! ### Elements -/

/-- The n elements of width w of a number, the lowest first (R4). -/
def elems (w : Nat) : Nat → Nat → List Nat
  | 0, _ => []
  | n + 1, x => x % 2 ^ w :: elems w n (x / 2 ^ w)
def blockElems (w : Nat) (b : Block) : List Nat := elems w (4096 / w) b.toNat
/-- Elements of width w put side by side. -/
def joinElems (w : Nat) : List Nat → Nat
  | [] => 0
  | x :: r => x + 2 ^ w * joinElems w r
def blockOf (w : Nat) (l : List Nat) : Block := BitVec.ofNat 4096 (joinElems w l)
/-- The mask and data of results, none where an element is left alone. -/
def resultMask (w : Nat) (l : List (Option Nat)) : Block := blockOf w (l.map fun r => if r.isSome then 2 ^ w - 1 else 0)
def resultData (w : Nat) (l : List (Option Nat)) : Block := blockOf w (l.map fun r => r.getD 0)
/-- Write results to v register d. -/
def Ctx.writeElems (c : Ctx) (d : BitVec 5) (w : Nat) (l : List (Option Nat)) : Ctx :=
  c.writeV d (resultMask w l) (resultData w l)

/-- perm8 (R112). -/
def perm8 (n j : Nat) : Nat :=
  let t := match n / 8 with
    | 0 => j
    | 1 => [0, 4, 1, 5, 2, 6, 3, 7].getD j 0
    | 2 => [0, 2, 4, 6, 1, 3, 5, 7].getD j 0
    | _ => [0, 4, 2, 6, 1, 5, 3, 7].getD j 0
  t ^^^ (n % 8)
/-- The source position within a block of 32 (R110, R111). -/
def patSrc (lp lpa j : Nat) : Nat :=
  match lp with
  | 1 => (j + lpa) % 32
  | 2 => 31 - j
  | 3 => 8 * (j / 8) + perm8 lpa (j % 8)
  | 4 => lpa
  | _ => j
/-- The lane pattern on a list of elements. -/
def pattern (e : EArgs) (l : List Nat) : List Nat :=
  if e.lp == 0 then l
  else
    let t := l.toArray
    (List.range l.length).map fun i => t.getD (32 * (i / 32) + patSrc e.lp.toNat e.lpa.toNat (i % 32)) 0

/-! ### Types -/

/-- An element type (R19). -/
inductive ETy where
  | i (w : Nat) | n (w : Nat) | f (x : Fmt)
  deriving DecidableEq, Repr
def ETy.w : ETy → Nat
  | .i w => w | .n w => w | .f x => x.lane
/-- The code of an element: the unused high bits of a narrow format's lane are ignored on reads and zero on writes (R21). -/
def ETy.code : ETy → Nat → Nat
  | .f x, c => c % 2 ^ x.width
  | _, c => c
/-- The type of a code; fm takes the descriptor of an FMT register. -/
def Ctx.ty (c : Ctx) (code : Nat) (idx : BitVec 4) : ETy :=
  match code with
  | 0 => .f f32 | 1 => .f bf16 | 2 => .f f16
  | 3 => .i 32 | 4 => .i 16 | 5 => .i 8 | 6 => .i 4
  | 7 => .n 32 | 8 => .n 16 | 9 => .n 8 | 10 => .n 4
  | _ => .f (fmtOf (c.csr.fmt[idx.toNat]).toNat)
/-- The FMT registers that the instruction uses hold valid descriptors (R32). -/
def Ctx.fmtsOk (c : Ctx) (sh : EShape) (e : EArgs) : Bool :=
  (sh.srcTy e != 11 || fmtValid (c.csr.fmt[e.sfmt.toNat]).toNat) &&
    (sh.dstTy e != 11 || fmtValid (c.csr.fmt[e.dfmt.toNat]).toNat)
/-- Source and destination types. -/
def Ctx.srcTy (c : Ctx) (sh : EShape) (e : EArgs) : ETy := c.ty (sh.srcTy e) e.sfmt
def Ctx.dstTy (c : Ctx) (sh : EShape) (e : EArgs) : ETy := c.ty (sh.dstTy e) e.dfmt

/-! ### Registers that a form names -/

/-- Whether A and B are v registers here. -/
def aReg (sh : EShape) (e : EArgs) : Bool :=
  match sh.a with
  | .vgrp _ => true
  | .v => sh.aIsVec e && e.asrc == 0
  | _ => false
def bReg (sh : EShape) (e : EArgs) : Bool :=
  match sh.b with
  | .v => e.bsrc == 0
  | .u => e.fn == 5 && e.bsrc == 0
  | _ => false
def dReg (sh : EShape) : Bool :=
  match sh.d with | .v => true | .vgrp _ => true | _ => false
/-- The fields of a pass of rep (R132). -/
def Ctx.passArgs (c : Ctx) (sh : EShape) (e : EArgs) : EArgs :=
  match c.rep with
  | none => e
  | some r =>
    let k := BitVec.ofNat 5 (r.pass * r.stride)
    { e with d := if dReg sh then e.d + k else e.d, a := if aReg sh e then e.a + k else e.a,
             b := if bReg sh e then e.b + k else e.b }
/-- Every named v register lies below the declared count (R126, R165): D names nd registers, A na, B nb. -/
def regsOk (g : Group) (sh : EShape) (e : EArgs) (nd na nb : Nat) : Bool :=
  let n := kRegs g.kobj
  (!(dReg sh) || e.d.toNat + nd ≤ n) && (!(aReg sh e) || e.a.toNat + na ≤ n) && (!(bReg sh e) || e.b.toNat + nb ≤ n)

/-! ### Sources -/

/-- What a read of the execute stream comes to. -/
inductive SRes (α : Type) where
  | ok (s : State) (v : α)
  | wait (w : Wait)
  | trap (cause : Nat) (la : Word)

/-- A trap of the execute stream: the local address for the causes of R167. -/
def Act.failE (s : State) (cause : Nat) (la : Word) : Act :=
  .trap s cause (if [0x05, 0x08, 0x12, 0x15].contains cause then some la else none) false
def Act.ofS {α : Type} (s : State) (r : SRes α) (k : State → α → Act) : Act :=
  match r with
  | .ok s v => k s v
  | .wait w => .wait s w
  | .trap cause la => .failE s cause la
def SRes.bind {α β : Type} (r : SRes α) (k : State → α → SRes β) : SRes β :=
  match r with
  | .ok s v => k s v
  | .wait w => .wait w
  | .trap cause la => .trap cause la

/-- The context as a state has it now. -/
def State.ctxOf (s : State) (g : Group) (c : Ctx) : Ctx := ((s.group? g.id).bind (fun x => x.ctx? c.num)).getD c

/-- Check one local access of the execute stream (R150, R194): the spot, or the cause. -/
def State.spotE (s : State) (g : Group) (c : Ctx) (la n align : Nat) (k : Kind) : Except Nat Spot :=
  match probeLocal g c true la n align with
  | .trap cause => .error cause
  | .page _ _ => .error 0x12
  | .at p =>
    match s.checkSpot (c.who true pathCore) k p n with
    | some cause => .error cause
    | none => .ok p
/-- Read at a checked spot. -/
def State.readE (s : State) (g : Group) (c : Ctx) (p : Spot) (n : Nat) : Nat × State :=
  match p with
  | .win img off => (c.winRead img off n, s)
  | .mem key _ _ _ =>
    let (v, s1) := readLocal (s.noteSpot (c.who true pathCore) .read p n) g c true key n
    let (v, tick, s2) := s1.plainRead g.id c.num key n v
    (v, s2.noteEarlyE g c key n tick)
/-- A [kN+] operand: 512 bytes at the pointer, which then advances (R194). -/
def State.kRead (s : State) (g : Group) (c0 : Ctx) (k : BitVec 3) : SRes Block :=
  let c := s.ctxOf g c0
  let a := c.kAddr k
  match s.spotE g c a 512 64 .read with
  | .error cause => .trap cause (BitVec.ofNat 64 a)
  | .ok p =>
    let (v, s1) := s.readE g c p 512
    .ok (s1.updCtx g.id c.num fun x => x.writeK k (toN 32 (a + c.kStride k)) (toN 16 (c.kStride k))) (BitVec.ofNat 4096 v)
/-- A vector source: the register, a scratch block or a queue's head (R113). -/
def State.vSrc (s : State) (g : Group) (c0 : Ctx) (src : BitVec 4) (reg : BitVec 5) : SRes Block :=
  let c := s.ctxOf g c0
  if src == 0 then .ok s (c.readV reg)
  else if src.toNat ≤ 8 then s.kRead g c (BitVec.ofNat 3 (src.toNat - 1))
  else
    let n : Fin 6 := Fin.ofNat 6 (src.toNat - 9)
    match c.headBlock n with
    | none => .wait (.queue n.val false)
    | some b => .ok (s.updCtx g.id c.num fun x => x.popBlock n) b.data
/-- Pop q7. -/
def State.q7Src (s : State) (g : Group) (c0 : Ctx) : SRes Word :=
  let c := s.ctxOf g c0
  match c.queues.q7.head? with
  | none => .wait (.queue 7 false)
  | some b => .ok (s.updCtx g.id c.num Ctx.popQ7) b.data
/-- Room in q6, else the execute stream waits (R122). -/
def State.q6Room (s : State) (g : Group) (c0 : Ctx) (k : Act) : Act :=
  if (s.ctxOf g c0).queues.full 6 then .wait s (.queue 6 false) else k

/-! ### Guards and maps -/

/-- The guard of an instruction, inverted where GN holds (R108). -/
def Ctx.guard (c : Ctx) (e : EArgs) : Guard := if e.gn then ~~~(c.readG e.g) else c.readG e.g
/-- Whether element p of width w is enabled (R109). -/
def enabled (gd : Guard) (w p : Nat) : Bool := gd.getLsbD (p * w / 32)

/-- The body of R164 over sources of width ws and a destination of width wd, n elements: the results and the flags of
the enabled ones. The enabled positions from n upward become zero (R168). -/
def mapElems (n ws wd : Nat) (gd : Guard) (a b d : List Nat) (f : Nat → Nat → Nat → Nat → Nat × Flags) :
    List (Option Nat) × Flags :=
  let _ := ws
  let rec go : Nat → Nat → List Nat → List Nat → List Nat → List (Option Nat) × Flags
    | 0, _, _, _, _ => ([], 0)
    | k + 1, p, a, b, d =>
      let t := go k (p + 1) a.tail b.tail d.tail
      if !enabled gd wd p then (none :: t.1, t.2)
      else if n ≤ p then (some 0 :: t.1, t.2)
      else
        let r := f p (d.headD 0) (a.headD 0) (b.headD 0)
        (some r.1 :: t.1, t.2 ||| r.2)
  go (4096 / wd) 0 a b d

/-- What every class-E instruction checks before its body: the pass's fields (R132), the formats (R32), the declared
count (R126). `sizes` gives the number of registers that D, A and B name. -/
def vRun (i : Instr) (op : Nat) (e0 : EArgs) (s : State) (sizes : Ctx → EArgs → Nat × Nat × Nat)
    (body : EShape → EArgs → State → Group → Ctx → Act) : Host.Outcome State Fault Refusal :=
  runE i s fun s g c =>
    match eShape op with
    | none => .raise s 0x01
    | some sh =>
      let e := c.passArgs sh e0
      let (nd, na, nb) := sizes c e
      if c.rep.isSome && !eOk op e then .raise s 0x01
      else if !c.fmtsOk sh e then .raise s 0x01
      else if !regsOk g sh e nd na nb then .raise s 0x05
      else body sh e s g c
/-- One register each. -/
def one3 : Ctx → EArgs → Nat × Nat × Nat := fun _ _ => (1, 1, 1)

/-- The elements of type t of a block. -/
def ETy.elems (t : ETy) (b : Block) : List Nat := (blockElems t.w b).map t.code
/-- Read A and B as elements of type t, B's value after the lane pattern, or A's where A is the only vector source (R111). -/
def readAB (s : State) (g : Group) (c : Ctx) (sh : EShape) (e : EArgs) (t : ETy) : SRes (List Nat × List Nat) :=
  (s.vSrc g c e.asrc e.a).bind fun s1 av =>
    if sh.b == .v then
      (s1.vSrc g c e.bsrc e.b).bind fun s2 bv => .ok s2 (t.elems av, pattern e (t.elems bv))
    else .ok s1 (pattern e (t.elems av), [])

/-- An elementwise instruction (R164): f takes position, d, a, b as codes. -/
def vMap (i : Instr) (op : Nat) (e0 : EArgs) (s : State) (f : ETy → ETy → Nat → Nat → Nat → Nat → Nat × Flags) :
    Host.Outcome State Fault Refusal :=
  vRun i op e0 s one3 fun sh e s g c =>
    let st := c.srcTy sh e
    let dt := if sh.dstTy e == 15 then st else c.dstTy sh e
    Act.ofS s (readAB s g c sh e st) fun s1 (a, b) =>
      let n := min (4096 / st.w) (4096 / dt.w)
      let r := mapElems n st.w dt.w (c.guard e) a b (blockElems dt.w (c.readV e.d)) (f st dt)
      .done (s1.updCtx g.id c.num fun x => (x.writeElems e.d dt.w r.1).flags r.2)

end Sys2Proof.Machine
end

