-- ==== Sys2Proof/Machine/Flags.lean ====
section
/-! DEFINITION. Element functions and the flags they raise (R22, R24, R29, R169-R180): integer arithmetic with
saturation, float operations rounded once, comparisons, classes, conversions. -/

namespace Sys2Proof.Machine

/-! ### Integer elements of width w -/

/-- The integer that a pattern stands for. -/
def intVal (sg : Bool) (w c : Nat) : Int := if sg then toI w c else (c % 2 ^ w : Nat)
/-- The range of a type. -/
def intMin (sg : Bool) (w : Nat) : Int := if sg then -(2 ^ (w - 1) : Nat) else 0
def intMax (sg : Bool) (w : Nat) : Int := if sg then (2 ^ (w - 1) : Nat) - 1 else (2 ^ w : Nat) - 1
/-- Clamp to a type's range, raising `fl` where that changes the value (R22, R170, R180). -/
def saturate (sg : Bool) (w : Nat) (fl : Flags) (x : Int) : Nat × Flags :=
  let y := max (intMin sg w) (min (intMax sg w) x)
  (toN w y, if y == x then 0 else fl)
/-- A wrapping integer result (R22). -/
def wrap (w : Nat) (x : Int) : Nat × Flags := (toN w x, 0)

/-- A two-source integer function by sign and width; d is the old destination. -/
abbrev IFun := Bool → Nat → Nat → Nat → Nat → Nat × Flags
def iAdd : IFun := fun _ w _ a b => ((a + b) % 2 ^ w, 0)
def iSub : IFun := fun _ w _ a b => wrap w (a - b : Int)
def iMul : IFun := fun _ w _ a b => (a * b % 2 ^ w, 0)
def iMac : IFun := fun _ w d a b => ((d + a * b) % 2 ^ w, 0)
def iMin : IFun := fun sg w _ a b => wrap w (min (intVal sg w a) (intVal sg w b))
def iMax : IFun := fun sg w _ a b => wrap w (max (intVal sg w a) (intVal sg w b))
def iAbs : IFun := fun sg w _ a _ => wrap w (intVal sg w a).natAbs
def iNeg : IFun := fun _ w _ a _ => wrap w (-(a : Int))
def iAbd : IFun := fun sg w _ a b => wrap w (intVal sg w a - intVal sg w b).natAbs
def iAvg : IFun := fun sg w _ a b => wrap w ((intVal sg w a + intVal sg w b + 1) / 2)
def iClamp : IFun := fun sg w d a b => wrap w (min (max (intVal sg w d) (intVal sg w a)) (intVal sg w b))
def iMulh : IFun := fun sg w _ a b => wrap w (intVal sg w a * intVal sg w b / (2 ^ w : Nat))
def iAdds : IFun := fun sg w _ a b => saturate sg w fSA (intVal sg w a + intVal sg w b)
def iSubs : IFun := fun sg w _ a b => saturate sg w fSA (intVal sg w a - intVal sg w b)
/-- R170: division at width w, as R139. -/
def iDiv : IFun := fun sg w _ a b =>
  if b % 2 ^ w == 0 then (2 ^ w - 1, 0) else wrap w (Int.tdiv (intVal sg w a) (intVal sg w b))

/-- Bitwise functions and shifts (R175). -/
def bAnd : IFun := fun _ _ _ a b => (a &&& b, 0)
def bOr : IFun := fun _ _ _ a b => (a ||| b, 0)
def bXor : IFun := fun _ _ _ a b => (a ^^^ b, 0)
def bNot : IFun := fun _ w _ a _ => (2 ^ w - 1 - a % 2 ^ w, 0)
def bAndn : IFun := fun _ w _ a b => (a &&& (2 ^ w - 1 - b % 2 ^ w), 0)
def bSel : IFun := fun _ w d a b => ((d &&& a) ||| ((2 ^ w - 1 - d % 2 ^ w) &&& b), 0)
def bShl : IFun := fun _ w _ a b => (a * 2 ^ (b % w) % 2 ^ w, 0)
def bShr : IFun := fun _ w _ a b => (a / 2 ^ (b % w), 0)
def bSra : IFun := fun _ w _ a b => wrap w (toI w a / (2 ^ (b % w) : Nat))
def bRot : IFun := fun _ w _ a b => let s := b % w; ((a * 2 ^ s + a / 2 ^ (w - s)) % 2 ^ w, 0)
def popCount : Nat → Nat → Nat
  | 0, _ => 0
  | n + 1, x => x % 2 + popCount n (x / 2)
def leadZeros (w x : Nat) : Nat := if x == 0 then w else w - 1 - Nat.log2 x
def bPop : IFun := fun _ w _ a _ => (popCount w a, 0)
def bClz : IFun := fun _ w _ a _ => (leadZeros w a, 0)
/-- A bit field of the element, whose bits above the element read zero; a signed one is extended from bit len - 1 (R141,
R176, log 32). -/
def fieldOf (sg : Bool) (w pos len a : Nat) : Nat :=
  let len := if len == 0 then w else len
  let f := a / 2 ^ pos % 2 ^ len
  if sg && bit f (len - 1) then toN w ((f : Int) - (2 ^ len : Nat)) else f

/-! ### Float elements -/

/-- A value rounded once into a format with the operation's flags (R24). -/
def fOut (fd : Fmt) (r : FVal × Flags) : Nat × Flags :=
  let q := fd.round .rne 0 r.1
  (q.1, q.2 ||| r.2)
/-- A float function of d, a and b. -/
abbrev FFun := FVal → FVal → FVal → FVal × Flags
/-- An element function from its integer and float forms: d has the destination's type. -/
def elem (iop : IFun) (fop : FFun) (st dt : ETy) (_p d a b : Nat) : Nat × Flags :=
  match st, dt with
  | .i w, _ => iop true w d a b
  | .n w, _ => iop false w d a b
  | .f fs, .f fd => fOut fd (fop (fd.value d) (fs.value a) (fs.value b))
  | .f _, _ => (0, 0)
/-- For an instruction that has no float form, or no integer form. -/
def noF : FFun := fun _ _ _ => (.gen, 0)
def noI : IFun := fun _ _ _ _ _ => (0, 0)
/-- A function of the codes of a float type, signs only (R169). -/
def signElem (iop : IFun) (fop : Fmt → Nat → Nat → Nat) (st dt : ETy) (p d a b : Nat) : Nat × Flags :=
  match st with
  | .f x => (if x.s then fop x (a % 2 ^ x.width) b else a, 0)
  | _ => elem iop noF st dt p d a b
def absCode (x : Fmt) (a _b : Nat) : Nat := a % 2 ^ (x.width - 1)
def negCode (x : Fmt) (a _b : Nat) : Nat := a ^^^ 2 ^ (x.width - 1)
def copyCode (x : Fmt) (a b : Nat) : Nat := a % 2 ^ (x.width - 1) + (if x.sign b then 2 ^ (x.width - 1) else 0)

/-- A special function's element: rounded in FP32 or BF16, then converted for FP16 and narrow formats (R25). -/
def sfElem (g : FVal → SfRes) (st dt : ETy) (_p _d a _b : Nat) : Nat × Flags :=
  match st, dt with
  | .f fs, .f fd =>
    if fd == f32 || fd == bf16 then sfIn fd (g (fs.value a))
    else
      let r := sfIn f32 (g (fs.value a))
      let q := fd.round .rne 0 (f32.value r.1)
      (q.1, q.2 ||| r.2)
  | _, _ => (0, 0)
/-- Division and its kin, exact with a folded remainder. -/
def exactSf (g : FVal → FVal × Flags) (a : FVal) : SfRes := let r := g a; .exact r.1 r.2

/-! ### Comparisons and classes (R177, R178) -/

/-- A condition on two floats, and its flags. -/
def cmpF (cond : Nat) (a b : FVal) : Bool × Flags :=
  let nan := a.isNan || b.isNan
  let fl : Flags := if 2 ≤ cond && cond ≤ 5 then (if nan then fNV else 0) else snan [a, b]
  let lt := ltV false a b
  let gt := ltV false b a
  let v := match cond with
    | 0 => !nan && !lt && !gt
    | 1 => nan || lt || gt
    | 2 => !nan && lt
    | 3 => !nan && !gt
    | 4 => !nan && gt
    | 5 => !nan && !lt
    | 6 => nan
    | _ => !nan
  (v, fl)
def cmpI (cond : Nat) (a b : Int) : Bool :=
  match cond with
  | 0 => a == b | 1 => a != b | 2 => a < b | 3 => a ≤ b | 4 => b < a | 5 => b ≤ a | 6 => false | _ => true
def cmpElem (cond : Nat) (st : ETy) (a b : Nat) : Bool × Flags :=
  match st with
  | .i w => (cmpI cond (toI w a) (toI w b), 0)
  | .n _ => (cmpI cond a b, 0)
  | .f x => cmpF cond (x.value a) (x.value b)
/-- The class index of a code (R178). -/
def classOf (x : Fmt) (c : Nat) : Nat :=
  match x.value c with
  | .nan _ q _ _ => if q then 9 else 8
  | .gen => 9
  | .inf s => if s then 0 else 7
  | .fin s m e =>
    if m == 0 then (if s then 3 else 4)
    else
      let subn := x.e != 0 && ltD m e 1 x.emin
      match s, subn with
      | true, false => 1 | true, true => 2 | false, true => 5 | false, false => 6

/-! ### Conversions of one element (R180) -/

/-- A finite value, an infinity or a NaN to an integer type. -/
def floatToInt (sg : Bool) (w : Nat) (mode : Rm) (u : Nat) (v : FVal) : Nat × Flags :=
  match v with
  | .fin s m e =>
    let (y, inx) := roundAt mode u s m e 0
    let r := saturate sg w fNV (if s then -(y : Int) else y)
    (r.1, if r.2 == 0 then (if inx then fNX else 0) else r.2)
  | .inf s => (toN w (if s then intMin sg w else intMax sg w), fNV)
  | _ => (0, fNV)
def cvtElem (mode : Rm) (u : Nat) (st dt : ETy) (a : Nat) : Nat × Flags :=
  let intTo (x : Int) : Nat × Flags :=
    match dt with
    | .i w => saturate true w fSA x
    | .n w => saturate false w fSA x
    | .f fd => fd.convert mode u (.fin (x < 0) x.natAbs 0)
  match st with
  | .i w => intTo (toI w a)
  | .n w => intTo (intVal false w a)
  | .f fs =>
    match dt with
    | .i w => floatToInt true w mode u (fs.value a)
    | .n w => floatToInt false w mode u (fs.value a)
    | .f fd => fd.convert mode u (fs.value a)

end Sys2Proof.Machine
end

