-- ==== Sys2Proof/Machine/AArith.lean ====
section
/-! DEFINITION. Class A: integer and address arithmetic (R138-R142). -/

namespace Sys2Proof.Machine

/-- xD := f xA b (R139). -/
def alu (i : Instr) (d a : BitVec 5) (b : OpB) (s : State) (f : Word → Word → Word) :=
  runA i s fun s g c => .done (s.updCtx g.id c.num fun x => x.writeX d (f (c.readX a) (c.opB b)))
/-- xD := f xD xA xB, registers only. -/
def alu3 (i : Instr) (d a b : BitVec 5) (s : State) (f : Word → Word → Word → Word) :=
  runA i s fun s g c => .done (s.updCtx g.id c.num fun x => x.writeX d (f (c.readX d) (c.readX a) (c.readX b)))
/-- A word of a number mod 2^64 (R4). -/
def n64 (x : Int) : Word := BitVec.ofInt 64 x
def wordOf (x : Nat) : Word := BitVec.ofNat 64 x
/-- The value of an operand: signed unless .n (R138). -/
def opVal (u : Bool) (x : Word) : Int := if u then x.toNat else x.toInt

def execNop (f : NopForm) (s : State) := runA (.nop f) s fun s _ _ => .done s
def execAdd (d a : BitVec 5) (b : OpB) (s : State) := alu (.add d a b) d a b s (· + ·)
def execSub (d a : BitVec 5) (b : OpB) (s : State) := alu (.sub d a b) d a b s (· - ·)
def execMul (d a : BitVec 5) (b : OpB) (s : State) := alu (.mul d a b) d a b s (· * ·)
def execMulh (u : Bool) (d a : BitVec 5) (b : OpB) (s : State) :=
  alu (.mulh u d a b) d a b s fun x y => n64 (opVal u x * opVal u y / (2 ^ 64 : Nat))
/-- R139: all ones for a zero divisor; the quotient is truncated, and -2^63 / -1 wraps to itself. -/
def execDiv (u : Bool) (d a : BitVec 5) (b : OpB) (s : State) :=
  alu (.div u d a b) d a b s fun x y =>
    if y = 0 then BitVec.allOnes 64 else n64 (Int.tdiv (opVal u x) (opVal u y))
def execRem (u : Bool) (d a : BitVec 5) (b : OpB) (s : State) :=
  alu (.rem u d a b) d a b s fun x y => if y = 0 then x else n64 (Int.tmod (opVal u x) (opVal u y))
def execAnd (d a : BitVec 5) (b : OpB) (s : State) := alu (.and d a b) d a b s (· &&& ·)
def execOr (d a : BitVec 5) (b : OpB) (s : State) := alu (.or d a b) d a b s (· ||| ·)
def execXor (d a : BitVec 5) (b : OpB) (s : State) := alu (.xor d a b) d a b s (· ^^^ ·)
def execAndn (d a : BitVec 5) (b : OpB) (s : State) := alu (.andn d a b) d a b s fun x y => x &&& ~~~y
def execShl (d a : BitVec 5) (b : OpB) (s : State) := alu (.shl d a b) d a b s fun x y => x <<< (y.toNat % 64)
def execShr (d a : BitVec 5) (b : OpB) (s : State) := alu (.shr d a b) d a b s fun x y => x >>> (y.toNat % 64)
def execSra (d a : BitVec 5) (b : OpB) (s : State) := alu (.sra d a b) d a b s fun x y => x.sshiftRight (y.toNat % 64)
def execRot (d a : BitVec 5) (b : OpB) (s : State) := alu (.rot d a b) d a b s fun x y => x.rotateLeft (y.toNat % 64)
/-- The smaller by sign or unsigned. -/
def below (u : Bool) (x y : Word) : Bool := opVal u x < opVal u y
def execMin (u : Bool) (d a : BitVec 5) (b : OpB) (s : State) :=
  alu (.min u d a b) d a b s fun x y => if below u y x then y else x
def execMax (u : Bool) (d a : BitVec 5) (b : OpB) (s : State) :=
  alu (.max u d a b) d a b s fun x y => if below u x y then y else x
def execSlt (u : Bool) (d a : BitVec 5) (b : OpB) (s : State) :=
  alu (.slt u d a b) d a b s fun x y => if below u x y then 1 else 0
def execSeq (d a : BitVec 5) (b : OpB) (s : State) := alu (.seq d a b) d a b s fun x y => if x = y then 1 else 0
def execSel (d a b : BitVec 5) (s : State) := alu3 (.sel d a b) d a b s fun o x y => if o ≠ 0 then x else y
def execClz (d a : BitVec 5) (s : State) :=
  alu (.clz d a) d a (.reg 0) s fun x _ => wordOf (leadZeros 64 x.toNat)
/-- Trailing zeros; 64 for 0. -/
def trailZeros : Nat → Nat → Nat
  | 0, _ => 0
  | n + 1, x => if x % 2 == 1 then 0 else 1 + trailZeros n (x / 2)
def execCtz (d a : BitVec 5) (s : State) := alu (.ctz d a) d a (.reg 0) s fun x _ => wordOf (trailZeros 64 x.toNat)
def execPop (d a : BitVec 5) (s : State) := alu (.pop d a) d a (.reg 0) s fun x _ => wordOf (popCount 64 x.toNat)

/-- Bit fields (R141). -/
def bfxVal (i : Bool) (x : Word) (pos len : Nat) : Word :=
  let len := min len 64
  let f := x.toNat / 2 ^ pos % 2 ^ len
  if i && 0 < len && bit f (len - 1) then n64 ((f : Int) - (2 ^ len : Nat)) else wordOf f
def bfiVal (o x : Word) (pos len : Nat) : Word :=
  let len := min len 64
  let m := wordOf ((2 ^ len - 1) * 2 ^ pos)
  (o &&& ~~~m) ||| (wordOf (x.toNat * 2 ^ pos) &&& m)
def ctlPos (c : Word) : Nat := c.toNat % 64
def ctlLen (c : Word) : Nat := c.toNat / 64 % 128
def execBfx (i : Bool) (d a b : BitVec 5) (s : State) :=
  alu (.bfx i d a b) d a (.reg b) s fun x y => bfxVal i x (ctlPos y) (ctlLen y)
def execBfxImm (i : Bool) (d a : BitVec 5) (pos : BitVec 6) (len : BitVec 7) (s : State) :=
  alu (.bfxImm i d a pos len) d a (.reg 0) s fun x _ => bfxVal i x pos.toNat len.toNat
def execBfi (d a b : BitVec 5) (s : State) :=
  alu3 (.bfi d a b) d a b s fun o x y => bfiVal o x (ctlPos y) (ctlLen y)
def execBfiImm (d a : BitVec 5) (pos : BitVec 6) (len : BitVec 7) (s : State) :=
  alu3 (.bfiImm d a pos len) d a 0 s fun o x _ => bfiVal o x pos.toNat len.toNat

/-- R142. -/
def execLi (hi : Bool) (d : BitVec 5) (v : Imm) (s : State) :=
  runA (.li hi d v) s fun s g c =>
    .done (s.updCtx g.id c.num fun x => x.writeX d
      (if hi then (immOf v).extractLsb' 0 32 ++ (c.readX d).extractLsb' 0 32 else immOf v))
def execLia (d : BitVec 5) (v : Imm) (s : State) :=
  runA (.lia d v) s fun s g c => .done (s.updCtx g.id c.num fun x => x.writeX d (offPtr c.pcA (immOf v).toInt))
def execMac (d a : BitVec 5) (b : OpB) (s : State) :=
  runA (.mac d a b) s fun s g c =>
    .done (s.updCtx g.id c.num fun x => x.writeX d (c.readX d + c.readX a * c.opB b))
def execXmint (h : Bool) (d a : BitVec 5) (b : OpB) (s : State) :=
  alu (.xmint h d a b) d a b s fun x y =>
    wordOf (if h then mint16 (x.toNat % 2 ^ 16) (y.toNat % 2 ^ 16) else mint32 (x.toNat % 2 ^ 32) (y.toNat % 2 ^ 32))

end Sys2Proof.Machine
end

