-- ==== Sys2Proof/Machine/AFlow.lean ====
section
/-! DEFINITION. Class A: control flow (R143-R147). -/

namespace Sys2Proof.Machine

/-- The end of a control-flow instruction: its bq entry, for which it waits while bq is full (R120, R144), and the
continuation. f changes the context first. -/
def flowTo (s : State) (g : Group) (c : Ctx) (cont : Word) (vmask : BitVec 32) (f : Ctx → Ctx) : Act :=
  if c.queues.full 8 then .wait s (.queue 8 false)
  else .goto (s.updCtx g.id c.num fun x => (f x).pushBq cont vmask) cont
/-- The address after the instruction. -/
def nextPc (i : Instr) (c : Ctx) : Word := offPtr c.pcA i.size
/-- A branch by a condition. -/
def branch (i : Instr) (off : BitVec 23) (s : State) (taken : Ctx → Bool) :=
  runA i s fun s g c => flowTo s g c (if taken c then relTarget c.pcA off else nextPc i c) 0 id

def execB (off : BitVec 23) (s : State) := branch (.b off) off s fun _ => true
/-- The conditions of bc. -/
def BCond.holds (k : BCond) (x y : Word) : Bool :=
  match k with
  | .eq => x == y | .ne => x != y | .lt => x.toInt < y.toInt | .ge => y.toInt ≤ x.toInt
  | .ltn => x.toNat < y.toNat | .gen => y.toNat ≤ x.toNat
def execBc (k : BCond) (a b : BitVec 5) (off : BitVec 23) (s : State) :=
  branch (.bc k a b off) off s fun c => BCond.holds k (c.readX a) (c.readX b)
def execBz (nz : Bool) (a : BitVec 5) (off : BitVec 23) (s : State) :=
  branch (.bz nz a off) off s fun c => (c.readX a == 0) != nz

/-- A jump to an address that must be aligned to a parcel (R144). -/
def jumpTo (s : State) (g : Group) (c : Ctx) (t : Word) (vmask : BitVec 32) (f : Ctx → Ctx) : Act :=
  if t.extractLsb' 0 2 != 0 then .raise s 0x15 else flowTo s g c t vmask f
def execJ (a : BitVec 5) (s : State) := runA (.j a) s fun s g c => jumpTo s g c (c.readX a) 0 id
/-- The registers that call and ret mark dead (R128, R129). -/
def Ctx.xmask (c : Ctx) : BitVec 32 := c.csr.cmask.extractLsb' 0 32
def Ctx.vmask (c : Ctx) : BitVec 32 := c.csr.cmask.extractLsb' 32 32
def execCall (d a : BitVec 5) (s : State) :=
  runA (.call d a) s fun s g c =>
    jumpTo s g c (c.readX a) c.vmask fun x => (x.markX c.xmask).writeX d (nextPc (.call d a) c)
def execCallLabel (d : BitVec 5) (off : BitVec 23) (s : State) :=
  runA (.callLabel d off) s fun s g c =>
    jumpTo s g c (relTarget c.pcA off) c.vmask fun x => (x.markX c.xmask).writeX d (nextPc (.callLabel d off) c)
def execRet (a : BitVec 5) (s : State) :=
  runA (.ret a) s fun s g c => jumpTo s g c (c.readX a) c.vmask fun x => x.markX c.xmask
def execLoop (d : BitVec 5) (off : BitVec 23) (s : State) :=
  runA (.loop d off) s fun s g c =>
    let v := c.readX d - 1
    flowTo s g c (if v ≠ 0 then relTarget c.pcA off else nextPc (.loop d off) c) 0 fun x => x.writeX d v
/-- bqe pops q6 before anything else, and keeps what it has popped while it waits for room in bq (R144). -/
def execBqe (z : Bool) (d : BitVec 5) (off : BitVec 23) (s : State) :=
  runA (.bqe z d off) s fun s g c =>
    match c.popped.or c.queues.q6.head? with
    | none => .wait s (.queue 6 false)
    | some e =>
      let s1 := if c.popped.isSome then s else s.updCtx g.id c.num fun x => { x.popQ6 with popped := some e }
      flowTo s1 g c (if (e.data ≠ 0) != z then relTarget c.pcA off else nextPc (.bqe z d off) c) 0
        fun x => x.writeX d e.data
def execYield (s : State) := runA .yield s fun s _ _ => .done s

end Sys2Proof.Machine
end

