-- ==== Sys2Proof/Machine/AMem.lean ====
section
/-! DEFINITION. Class A: loads, stores, queues and caches (R148-R162). -/

namespace Sys2Proof.Machine

def LdW.bytes : LdW → Nat
  | .i8 | .n8 => 1 | .i16 | .n16 => 2 | .i32 | .n32 => 4 | .i64 => 8
def LdW.ext (w : LdW) (v : Nat) : Word :=
  match w with
  | .i8 => n64 (toI 8 v) | .i16 => n64 (toI 16 v) | .i32 => n64 (toI 32 v) | _ => wordOf v
def StW.bytes : StW → Nat
  | .i8 => 1 | .i16 => 2 | .i32 => 4 | .i64 => 8

/-- Addresses of the two spaces (R149). -/
def globalEa (c : Ctx) (a : BitVec 5) (b : OpB) : Word := effAddr (c.readX a) (c.opB b)
def localEa (c : Ctx) (a : BitVec 5) (b : OpB) : Word := localAddr (c.readX a) (c.opB b)

/-- A scalar load (R152). -/
def scalarLoad (i : Instr) (w : LdW) (d : BitVec 5) (s : State) (ea : Ctx → Word) :=
  runA i s fun s g c =>
    Act.ofRes (s.loadA g c (ea c) (LdW.bytes w) (LdW.bytes w) .read) fun s1 v =>
      .done (s1.updCtx g.id c.num fun x => x.writeX d (LdW.ext w v))
def scalarStore (i : Instr) (w : StW) (d : BitVec 5) (s : State) (ea : Ctx → Word) :=
  runA i s fun s g c =>
    Act.ofRes (s.storeA g c (ea c) (bytesOfNat (StW.bytes w) (c.readX d).toNat)) fun s1 _ => .done s1
def execLd (w : LdW) (d a : BitVec 5) (b : OpB) (s : State) := scalarLoad (.ld w d a b) w d s fun c => globalEa c a b
def execSt (w : StW) (d a : BitVec 5) (b : OpB) (s : State) := scalarStore (.st w d a b) w d s fun c => globalEa c a b
def execLds (w : LdW) (d a : BitVec 5) (b : OpB) (s : State) := scalarLoad (.lds w d a b) w d s fun c => localEa c a b
def execSts (w : StW) (d a : BitVec 5) (b : OpB) (s : State) := scalarStore (.sts w d a b) w d s fun c => localEa c a b

/-- A block load: the access first, then the room in the queue (R153). -/
def blockLoad (i : Instr) (q : BitVec 2) (s : State) (ea : Ctx → Word) :=
  runA i s fun s g c =>
    let n : Fin 6 := Fin.ofNat 6 q.toNat
    let put := fun (s1 : State) (b : Block) =>
      if c.queues.full n.val then
        Act.wait (s1.updCtx g.id c.num fun x => { x with loaded := some b }) (.queue n.val true)
      else .done (s1.updCtx g.id c.num fun x => x.pushBlock n b)
    match c.loaded with
    | some b => put s b
    | none => Act.ofBlock (1 < (s.partsOf g.vf (ea c) 512).length) (s.loadBlock g c (ea c)) put
/-- A block store: the entry first, then the access (R153). -/
def blockStore (i : Instr) (q5 : Bool) (s : State) (ea : Ctx → Word) :=
  runA i s fun s g c =>
    let n : Fin 6 := if q5 then 5 else 4
    match c.headBlock n with
    | none => .wait s (.queue n.val false)
    | some e =>
      Act.ofBlock (1 < (s.partsOf g.vf (ea c) 512).length) (s.storeBlock g c (ea c) e.data) fun s1 _ => .done (s1.updCtx g.id c.num fun x => x.popBlock n)
def execLdq (q : BitVec 2) (a : BitVec 5) (b : OpB) (s : State) := blockLoad (.ldq q a b) q s fun c => globalEa c a b
def execStq (q5 : Bool) (a : BitVec 5) (b : OpB) (s : State) := blockStore (.stq q5 a b) q5 s fun c => globalEa c a b
def execLdsq (q : BitVec 2) (a : BitVec 5) (b : OpB) (s : State) := blockLoad (.ldsq q a b) q s fun c => localEa c a b
def execStsq (q5 : Bool) (a : BitVec 5) (b : OpB) (s : State) := blockStore (.stsq q5 a b) q5 s fun c => localEa c a b

/-- A prefetch changes nothing (R161). -/
def execPfx (cl : Bool) (a : BitVec 5) (b : OpBSM) (s : State) := runA (.pfx cl a b) s fun s _ _ => .done s
def execPushq (a : BitVec 5) (s : State) :=
  runA (.pushq a) s fun s g c =>
    if c.queues.full 7 then .wait s (.queue 7 true) else .done (s.updCtx g.id c.num fun x => x.pushQ7 (c.readX a))
def execPopq (d : BitVec 5) (s : State) :=
  runA (.popq d) s fun s g c =>
    match c.queues.q6.head? with
    | none => .wait s (.queue 6 true)
    | some e => .done (s.updCtx g.id c.num fun x => x.popQ6.writeX d e.data)
def execQstat (d : BitVec 5) (q : Option (BitVec 3)) (s : State) :=
  runA (.qstat d q) s fun s g c =>
    .done (s.updCtx g.id c.num fun x => x.writeX d (wordOf (c.queues.count (match q with | some n => n.toNat | none => 8))))

/-- cln and inv: the bounds of the one byte at ea, then the core's copy of its line (R162). -/
def cacheLine (i : Instr) (a : BitVec 5) (b : OpBSM) (drop : Bool) (s : State) :=
  runA i s fun s g c =>
    let ea := effAddr (c.readX a) (c.opBSM b)
    if isLocal ea then .done s
    else if bits ea.toNat 63 56 == 0xFE then
      (if bits ea.toNat 55 40 != 0 || 2 ^ 22 ≤ ea.toNat % 2 ^ 32 then .fail s 0x12 ea else .done s)
    else
      let s1 := s.keepEntry g c ea
      if !boundsOk (s.boundsOf c (bits ea.toNat 63 56)) ea.toNat 1 then .fail s1 0x12 ea
      else .done (s1.cleanLine g.core g.vf (ea.toNat % 2 ^ 56) drop)
def execCln (a : BitVec 5) (b : OpBSM) (s : State) := cacheLine (.cln a b) a b false s
def execInv (a : BitVec 5) (b : OpBSM) (s : State) := cacheLine (.inv a b) a b true s

end Sys2Proof.Machine
end

