-- ==== Sys2Proof/Machine/XAtomic.lean ====
section
/-! DEFINITION. Class X: atomics, ordered loads and stores (R284-R288), and what their entries do when the side log
replays (R287, R304). -/

namespace Sys2Proof.Machine

/-! ### Read-modify-writes -/

/-- amo's new value (R286): m and v are W-bit values. -/
def amoNew (op : AmoOp) (W m v : Nat) : Nat :=
  match op with
  | .add => (m + v) % 2 ^ W
  | .min => if toI W m ≤ toI W v then m else v
  | .max => if toI W v ≤ toI W m then m else v
  | .and => m &&& v
  | .or => m ||| v
  | .xor => m ^^^ v
  | .xchg => v
/-- The slot update of R46 of an FP32 value at window w. -/
def slotAdd (slot x : Nat) (w : Int) : Nat :=
  match f32.value x with
  | .fin s m e =>
    let y := (roundAt .rne 0 s m e w).1
    let hi : Int := (2 ^ 95 - 1 : Nat)
    let lo : Int := -(2 ^ 95 : Nat)
    let q : Int := if s then -(y : Int) else y
    let q' := max lo (min hi q)
    let v := toI 96 slot + q'
    let sat := hi < q || q < lo || hi < v || v < lo
    (slot / 2 ^ 96 * 2 ^ 96 + toN 96 (max lo (min hi v))) ||| (if sat then 2 ^ 96 else 0)
  | _ => slot ||| 2 ^ 97
/-- W of an atomic in bits, and a width in bytes. -/
def widthOf (w64 : Bool) : Nat := if w64 then 64 else 32
def bytesOf (w64 : Bool) : Nat := if w64 then 8 else 4
/-- The new value that an operation writes; none where it writes nothing (R286). -/
def LogOp.new (op : LogOp) (operand old : Nat) : Option Nat :=
  match op with
  | .store | .release _ _ => some operand
  | .amo k w64 => some (amoNew k (widthOf w64) old (operand % 2 ^ widthOf w64))
  | .cas w64 e => if old == e.toNat % 2 ^ widthOf w64 then some (operand % 2 ^ widthOf w64) else none
  | .wacc w => some (slotAdd old operand w)
/-- The operations that synchronise through a fence (R288). -/
def LogOp.fences : LogOp → Bool
  | .amo _ _ | .cas _ _ => true
  | _ => false
/-- The kind of access a write of it is (R298); a release store counts as an atomic (log 17). -/
def LogOp.kind : LogOp → Kind
  | .store => .write
  | _ => .atomic

/-- What an operation does with its words at the slice. -/
def LogOp.use : LogOp → Use
  | .store | .release _ _ => .write 0
  | _ => .both
/-- An access of the access stream made at the slices of its place (R206, R207, R332). -/
def State.homeTurn (s : State) (g : Group) (c : Ctx) (p : Spot) (n : Nat) (use : Use) : State :=
  match p with
  | .mem key _ _ (some (e, va, _)) =>
    (linesIn key n).foldl (fun (s : State) (x : Nat × Nat) =>
      let a := va + (x.1 - key)
      let u := match use with | .write _ => Use.write (partWords x.1 x.2) | u => u
      s.sliceTurn g c.csr.mode u (lineOf g x.1 x.2 e a (s.homeSlice g.vf a))) s
  | _ => s
/-- An atomic access of the access stream that writes nothing has found local words as they are: it stands behind the execute stream's
stores to them (R197). -/
def State.passedLocal (s : State) (g : Group) (c : Ctx) (key n : Nat) : State :=
  if c.loose.isEmpty then s
  else s.updCtx g.id c.num fun x => x.sawLoose false ((wordsOf key n).map fun w => (w, (looseAt x.loose false w).length)) [(key, n)]
/-- Act at a checked place, for a context, on what stands at its home (R286): the state, the value before, and whether it wrote. -/
def State.actAt (s : State) (g : Group) (c : Ctx) (w : Who) (p : Spot) (n : Nat) (op : LogOp) (operand : Nat) :
    State × Nat × Bool :=
  match p with
  | .win _ _ => (s, 0, false)
  | .mem key home _ _ =>
    let old := s.rd key n
    match LogOp.new op operand old with
    | none =>
      ((((s.noteSpot w .read p n).sawWords g.id c.num (wordsOf key n)).passedLocal g c key n).homeTurn g c p n .read, old, false)
    | some v =>
      let s1 := (s.noteSpot w (LogOp.kind op) p n).sawWords g.id c.num (if LogOp.kind op == .atomic then wordsOf key n else [])
      let s2 := if home == localHome then
          s1.updCtx g.id c.num fun x => x.looseStore s1 false (LogOp.kind op == .atomic) [(key, bytesOfNat n v)] else s1
      (((s2.homeTurn g c p n (LogOp.use op)).store key (bytesOfNat n v)).wsWritten key n, old, true)

/-- A release of a variable by a context (R280, R281). -/
def State.relAt (s : State) (g : Group) (agent tag : Nat) (sc : Scope) (var : Nat) : State :=
  s.addRel { var := var, agent := agent, tag := tag, scope := sc, loc := g.loc, tick := s.tick }
/-- What an operation releases once it has written: by its own release part, or a relaxed one behind a fence (R280, R288). -/
def State.relOp (s : State) (g : Group) (agent : Nat) (rel : Option (Scope × Nat)) (key : Nat) : State :=
  match rel with
  | some (sc, t) => s.relAt g agent t sc key
  | none => s

/-- What an access of an atomic comes to: its key, the order before it, the value read, or none once it is logged. -/
abbrev AtomOut := Option (Nat × Nat × Nat)
/-- The place of an atomic (R287): natural alignment, and no register window. -/
def State.probeX (s : State) (g : Group) (c : Ctx) (ea : Word) (n : Nat) (right : Right) : Probe :=
  match s.probeA g c ea n n right with
  | .at (.win _ _) => .trap 0x05
  | p => p
/-- An atomic or an ordered store of the access stream, its release's waits done (R286, R287); `relaxed`: its order word has neither
part. -/
def State.atomicA (s0 : State) (g : Group) (c : Ctx) (ea : Word) (n : Nat) (right : Right) (op : LogOp) (operand : Nat)
    (logs relaxed : Bool) (rel : Option Scope) : MRes AtomOut :=
  let s := s0.tried g c ea n n right
  let tag := c.relTag + 1
  let fenced := relaxed && LogOp.fences op
  let relT := match rel with | some sc => some (sc, tag) | none => if fenced then c.fenceRel else none
  let c1 := if rel.isSome then c.release else c
  let done := fun (s : State) => if rel.isSome then s.updCtx g.id c.num Ctx.release else s
  let log := fun (malf : Bool) =>
    let e : LogEntry :=
      { va := ea, len := n, data := bytesOfNat n operand, ctx := c.num, op := op, rel := relT, own := c1.relTag + 1, sync := c.sync,
        seen := c1.accA, region := c.regions, failed := none, tick := s.tick }
    match s.logStore g c [e] malf with
    | .ok s1 _ => MRes.ok (done s1) none
    | .wait s1 w => .wait s1 w
    | .trap s1 cause a => .trap s1 cause a
  match s0.probeX g c ea n right with
  | .trap cause => .trap s cause ea
  | .page va m =>
    if logs then log m else if g.logged ea.toNat n then .wait s .page
    else .wait (s.hold g c false (BitVec.ofNat 64 va) m) .page
  | .at p =>
    if !isLocal ea && g.logged ea.toNat n then (if logs then log false else .wait s .page)
    else if s.moves p then .wait s .bank
    else
      match s.checkSpot (c1.who false pathCore) (LogOp.kind op) p n with
      | some cause => .trap s cause ea
      | none =>
        match p with
        | .win _ _ => .trap s 0x05 ea
        | .mem key _ _ _ =>
          let s1 := if fenced then s.noteEarly g.id c.num key n s.tick else s
          let r := s1.actAt g c (c1.who false pathCore) p n op operand
          let s2 := (done r.1).touchEa g ea
          .ok (if r.2.2 then s2.relOp g c.sync.agent relT key else s2) (some (key, s.tick, r.2.1))

/-- An instruction around an atomic access: the waits of its release part, the access, its result, its acquire part. -/
def atomicX (i : Instr) (s : State) (ea : Ctx → Word) (n : Nat) (right : Right) (op : Ctx → LogOp) (operand : Ctx → Nat)
    (logs : Bool) (rel acq : Option Scope) (fin : Nat → Ctx → Ctx) :=
  runA i s fun s g c =>
    let go := fun (s : State) =>
      Act.ofRes (s.atomicA g c (ea c) n right (op c) (operand c) logs (rel.isNone && acq.isNone) rel) fun s1 r =>
        match r with
        | none => .done s1
        | some (key, tick, old) =>
          let s2 := s1.updCtx g.id c.num (fin old)
          match acq with
          | some sc => .done (s2.acquireVar g.id c.num key n tick sc)
          | none => .done s2
    if rel.isNone then go s else releaseGate s g c go

/-- The scope of a release or acquire part. -/
def MemOrd.rel (o : MemOrd) (sc : Scope) : Option Scope := if o == .rel || o == .acqrel then some sc else none
def MemOrd.acq (o : MemOrd) (sc : Scope) : Option Scope := if o == .acq || o == .acqrel then some sc else none

def amoX (i : Instr) (w64 : Bool) (op : AmoOp) (o : MemOrd) (sc : Scope) (d a b : BitVec 5) (s : State) :=
  atomicX i s (fun c => c.readX a) (bytesOf w64) .rw (fun _ => .amo op w64) (fun c => (c.readX b).toNat)
    (d == 0 && (MemOrd.acq o sc).isNone) (MemOrd.rel o sc) (MemOrd.acq o sc)
    fun old x => x.writeX d (n64 (toI (widthOf w64) old))
def execAmo (w64 : Bool) (op : AmoOp) (d a b : BitVec 5) (s : State) :=
  amoX (.amo w64 op d a b) w64 op .relaxed .ln d a b s
def execAmoOrdered (w64 : Bool) (op : AmoOp) (ord : MemOrd) (sc : Scope) (d a b : BitVec 5) (s : State) :=
  amoX (.amoOrdered w64 op ord sc d a b) w64 op ord sc d a b s
def casX (i : Instr) (w64 : Bool) (o : MemOrd) (sc : Scope) (d a b : BitVec 5) (s : State) :=
  atomicX i s (fun c => c.readX a) (bytesOf w64) .rw (fun c => .cas w64 (c.readX d)) (fun c => (c.readX b).toNat)
    (d == 0 && (MemOrd.acq o sc).isNone) (MemOrd.rel o sc) (MemOrd.acq o sc)
    fun old x => x.writeX d (n64 (toI (widthOf w64) old))
def execCas (w64 : Bool) (d a b : BitVec 5) (s : State) := casX (.cas w64 d a b) w64 .relaxed .ln d a b s
def execCasOrdered (w64 : Bool) (ord : MemOrd) (sc : Scope) (d a b : BitVec 5) (s : State) :=
  casX (.casOrdered w64 ord sc d a b) w64 ord sc d a b s
/-- wacc: neither releases nor acquires, and writes no register. -/
def waccX (i : Instr) (a b : BitVec 5) (w : Ctx → Int) (s : State) :=
  atomicX i s (fun c => c.readX a) 16 .rw (fun c => .wacc (w c)) (fun c => (c.readX b).toNat % 2 ^ 32) true none none
    fun _ x => x
def execWacc (d a b : BitVec 5) (s : State) :=
  waccX (.wacc d a b) a b (fun c => toI 16 (c.readX d).toNat) s
def execWaccImm (w : BitVec 16) (a b : BitVec 5) (s : State) := waccX (.waccImm w a b) a b (fun _ => w.toInt) s

/-- The variable of an ordered load: its key, where it lies in memory. -/
def State.varAt (s : State) (g : Group) (c : Ctx) (ea : Word) (n : Nat) : Option Nat :=
  match s.probeA g c ea n n .r with
  | .at (.mem key _ _ _) => some key
  | _ => none
def execLdacq (w64 : Bool) (sc : Scope) (d a : BitVec 5) (b : OpBSM) (s : State) :=
  runA (.ldacq w64 sc d a b) s fun s g c =>
    let ea := effAddr (c.readX a) (c.opBSM b)
    Act.ofRes (s.loadA g c ea (bytesOf w64) (bytesOf w64) .atomic) fun s1 v =>
      let s2 := s1.updCtx g.id c.num fun x => x.writeX d (n64 (toI (widthOf w64) v))
      match s.varAt g c ea (bytesOf w64) with
      | some key => .done (s2.acquireVar g.id c.num key (bytesOf w64) s1.tick sc)
      | none => .done (s2.updCtx g.id c.num fun x => x.acquireNone.acquiredAt s2.tick)
def execStrel (w64 : Bool) (sc : Scope) (d a : BitVec 5) (b : OpBSM) (s : State) :=
  atomicX (.strel w64 sc d a b) s (fun c => effAddr (c.readX a) (c.opBSM b)) (bytesOf w64) .w
    (fun c => .release sc (c.relTag + 1)) (fun c => (c.readX d).toNat % 2 ^ widthOf w64) true (some sc) none fun _ x => x

/-! ### Replay of the side log (R221, R222, R304) -/

/-- What one entry comes to: gone, still unmapped, waiting for a tensor that moves (R226), or failed with a cause. -/
inductive Replay where
  | gone (s : State)
  | unmapped
  | moves
  | failed (s : State) (cause : Nat)
/-- Who replays an entry (R289, R300): its context as it stood at the entry's place. -/
def State.replayWho (s : State) (c : Ctx) (e : LogEntry) : Who :=
  { c.who false pathCore with
    seen := some e.seen,
    before := (s.fences.filter fun f => f.sync.agent == c.sync.agent && e.seen ≤ f.stamp).map (·.tick) }
/-- Perform an entry as a store of its context, checked by what that was ordered after at its place (R300, R304): steps 3 to 7 of R151. A
context that has ended stored nothing later. A read that a fence of the same region may turn into an acquire is noted (R288). -/
def State.replayEntry (s0 : State) (g : Group) (e : LogEntry) : Replay :=
  match g.ctx? e.ctx with
  | none => .gone s0
  | some c0 =>
    let s := s0.walked g c0 e.va.toNat
    let c : Ctx := { c0 with relTag := e.own - 1, sync := e.sync, past := [] }
    match s.probePage g.vf e.va.toNat (match e.op with | .store | .release _ _ => .w | _ => .rw) with
    | .page _ _ => if s.movesVa g.vf e.va.toNat then .moves else .unmapped
    | .trap cause => .failed s cause
    | .at p =>
      if s.moves p then .moves
      else
      let w := s.replayWho c e
      match s.checkSpot w (LogOp.kind e.op) p e.len with
      | some cause => .failed s cause
      | none =>
        let r := s.actAt g c w p e.len e.op (natOfBytes e.data)
        let s1 := r.1.touchEa g e.va
        match p with
        | .mem key _ _ _ =>
          let s2 := if LogOp.fences e.op && e.region == c0.regions then s1.noteEarly g.id c.num key e.len s.tick else s1
          .gone (if r.2.2 then s2.relOp g c.sync.agent e.rel key else s2)
        | .win _ _ => .gone s1

end Sys2Proof.Machine
end

