-- ==== Sys2Proof/Machine/XSync.lean ====
section
/-! DEFINITION. Class X: fences (R288, R289), barriers (R290, R291), event lines (R292, R293), the device clock and armed
stores (R294, R295). -/

namespace Sys2Proof.Machine

/-! ### Fences -/

/-- Acquire at a fence what early reads of its region have read (R288). -/
def State.acquireEarly (s : State) (g : Group) (c : Ctx) (sc : Scope) (l : List EarlyRead) : State :=
  l.foldl (fun (s : State) (e : EarlyRead) =>
    match s.relOf e.var 1 e.tick sc g.loc with
    | some r => s.updCtx g.id c.num fun x => (x.acquire r.var r.agent r.tag).acquiredAt e.tick
    | none => s) s
def execFence (sc : Scope) (s : State) :=
  runA (.fence sc) s fun s g c =>
    releaseGate s g c fun s =>
      let s1 := (s.updCtx g.id c.num Ctx.release).acquireEarly g c sc c.earlyReads
      .done (s1.updCtx g.id c.num fun x => { x with fenceRel := some (sc, c.relTag + 1), earlyReads := [] })
/-- xfence; one that names CVR and CORE ends the claims of observed RASTER jobs of the group (R266). -/
def execXfence (src dst : BitVec 8) (s : State) :=
  runA (.xfence src dst) s fun s g c =>
    let f : XFence := { src := src, dst := dst, sync := c.sync, rel := c.relTag + 1, tick := s.tick + 1, stamp := c.accA }
    let keep := fun (o : Owned) =>
      !(src.getLsbD pathCvr && dst.getLsbD pathCore && o.path == pathCvr && o.gid == g.id && o.observed)
    let s1 : State := { s.tock with fences := s.fences ++ [f], owned := s.owned.filter keep }
    .done (s1.updCtx g.id c.num fun x =>
      Ctx.endRegion { x with accA := x.accA + 1, ahead := x.ahead.filter (fun y => x.seqE ≤ y.1) ++ [(x.seqA, f.tick)] })

/-! ### Barriers -/

/-- The instance of a context's barrier at a scope (R290); none for a pod barrier that is not configured. -/
def State.barIdOf (s : State) (g : Group) (sc : Scope) : Option BarId :=
  match sc with
  | .ln | .co => some (.co g.id)
  | .cl => some (.cl g.launch (clusterOf g.core))
  | .di => some (.di g.launch g.die)
  | .pk => some (.pk g.launch)
  | .pd => (s.pods.find? (fun p => p.launches.contains g.launch)).map fun p => .pd p.id
def State.barrier (s : State) (id : BarId) : Barrier :=
  (s.barriers.find? (fun b => b.id == id)).getD { id := id, complete := 0, arrivals := [] }
def State.updBarrier (s : State) (id : BarId) (f : Barrier → Barrier) : State :=
  if s.barriers.any (fun b => b.id == id) then { s with barriers := s.barriers.map fun b => if b.id == id then f b else b }
  else { s with barriers := s.barriers ++ [f (s.barrier id)] }
/-- The arrival counts of a context at .co and of a group above (R290). -/
def Group.arrivalCount (g : Group) (sc : Scope) : Nat := ((g.arrivals.find? (fun a => a.1 == sc)).map (·.2)).getD 0
def arrivals (g : Group) (c : Ctx) (sc : Scope) : Nat :=
  match sc with
  | .ln => c.arrLn
  | .co => c.arrCo
  | _ => g.arrivalCount sc
def State.countArrival (s : State) (g : Group) (c : Ctx) (sc : Scope) : State :=
  match sc with
  | .ln => s.updCtx g.id c.num fun x => { x with arrLn := x.arrLn + 1 }
  | .co => s.updCtx g.id c.num fun x => { x with arrCo := x.arrCo + 1 }
  | _ => s.updGroup g.id fun x =>
      { x with arrivals := x.arrivals.filter (fun a => a.1 != sc) ++ [(sc, g.arrivalCount sc + 1)] }
/-- The member that a context arrives as. -/
def memberOf (g : Group) (c : Ctx) (sc : Scope) : Nat := if sc == .co then c.sync.agent else g.id
/-- Arrive, the release's waits done: release and record the arrival (R291). -/
def State.arrive (s : State) (g : Group) (c : Ctx) (sc : Scope) (id : BarId) (value : Option Word) : State :=
  let a : Arrival :=
    { member := memberOf g c sc, phase := arrivals g c sc, value := value, last := false, agent := c.sync.agent,
      tag := c.relTag + 1, ended := g.ended }
  ((s.updCtx g.id c.num Ctx.release).updBarrier id fun b => { b with arrivals := b.arrivals ++ [a] }).countArrival g c sc
/-- An arrival counts at a phase. -/
def Arrival.atPhase (a : Arrival) (p : Nat) : Bool := a.phase == p || (a.last && a.phase ≤ p)
/-- A wait for phase p completes: acquire every arrival, empty the acquire set (R291, R309). -/
def State.endWait (s : State) (g : Group) (c : Ctx) (id : BarId) (p : Nat) : State :=
  let l := ((s.barrier id).arrivals.filter (fun a => a.atPhase p)).map fun a =>
    { var := 0, agent := a.agent, tag := a.tag : Acq }
  s.updCtx g.id c.num fun x =>
    { (x.changeSync { x.sync with acq := [], bars := x.sync.bars ++ l, lost := false }).acquiredAt s.tick with
      barWait := none }.endRegion
/-- Wait for phase p, then end with the phase's arrivals. -/
def waitPhase (s : State) (g : Group) (c : Ctx) (id : BarId) (p : Nat) (fin : List Arrival → Ctx → Ctx) : Act :=
  let b := s.barrier id
  if p < b.complete then
    .done ((s.endWait g c id p).updCtx g.id c.num (fin (b.arrivals.filter (fun a => a.atPhase p))))
  else .wait s (.other true)
/-- A barrier at .cl and above is the control context's; a pod barrier must be configured (R290). -/
def withBarrier (s : State) (g : Group) (c : Ctx) (sc : Scope) (k : BarId → Act) : Act :=
  if sc != .co && c.num != 0 then .raise s 0x01
  else
    match s.barIdOf g sc with
    | none => .raise s 0x14
    | some id => k id
/-- bar and barv: arrive unless the arrival is kept, then wait (R291). At .ln they only end the region (R281, R290). -/
def barX (i : Instr) (sc : Scope) (value : Ctx → Option Word) (ln : Ctx → Ctx) (fin : List Arrival → Ctx → Ctx) (s : State) :=
  runA i s fun s g c =>
    if sc == .ln then .done ((s.countArrival g c .ln).updCtx g.id c.num fun x => (ln x).endRegion)
    else
      withBarrier s g c sc fun id =>
        match c.barWait with
        | some (_, p) => waitPhase s g c id p fin
        | none =>
          releaseGate s g c fun s =>
            let p := arrivals g c sc
            let s1 := (s.arrive g c sc id (value c)).updCtx g.id c.num fun x => { x with barWait := some (sc, p) }
            waitPhase s1 g c id p fin
/-- The combined value of a phase (R291). -/
def combined (mx : Bool) (l : List Arrival) : Word :=
  let v := l.map fun a => (a.value.getD 0).toNat
  wordOf (if mx then v.foldl max 0 else v.sum)
def execBar (sc : Scope) (s : State) := barX (.bar sc) sc (fun _ => none) id (fun _ x => x) s
def execBarv (mx : Bool) (sc : Scope) (d a : BitVec 5) (s : State) :=
  barX (.barv mx sc d a) sc (fun c => some (c.readX a)) (fun x => x.writeX d (x.readX a))
    (fun l x => x.writeX d (combined mx l)) s
def execBarwArr (sc : Scope) (d : BitVec 5) (s : State) :=
  runA (.barwArr sc d) s fun s g c =>
    let p := arrivals g c sc
    if sc == .ln then .done ((s.countArrival g c .ln).updCtx g.id c.num fun x => (x.writeX d (wordOf p)).endRegion)
    else
      withBarrier s g c sc fun id =>
        releaseGate s g c fun s =>
          .done ((s.arrive g c sc id none).updCtx g.id c.num fun x => x.writeX d (wordOf p))
def execBarwWt (sc : Scope) (a : BitVec 5) (s : State) :=
  runA (.barwWt sc a) s fun s g c =>
    let p := (c.readX a).toNat
    if sc == .ln then (if arrivals g c .ln ≤ p then .raise s 0x01 else .done (s.updCtx g.id c.num Ctx.endRegion))
    else
      withBarrier s g c sc fun id =>
        if arrivals g c sc ≤ p then .raise s 0x01 else waitPhase s g c id p fun _ x => x

/-! ### Event lines -/

/-- wfe (R292): each context that waited when a line was raised returns with it. -/
def execWfe (d a : BitVec 5) (s : State) :=
  runA (.wfe d a) s fun s g c =>
    let m := c.readX a
    let hit := (s.core g.core).pending &&& m
    let got := hit ||| (c.evGot &&& m)
    if m = 0 then .done (s.updCtx g.id c.num fun x => x.writeX d 0)
    else if got = 0 then .wait (s.updCtx g.id c.num fun x => { x with evWait := m }) (.other true)
    else
      let s1 := s.updCore g.core fun k => { k with pending := k.pending &&& ~~~m }
      let s2 := s1.updGroup g.id fun x =>
        { x with ctxs := x.ctxs.map fun (y : Ctx) =>
            if y.num == c.num then { y with evGot := 0 } else { y with evGot := y.evGot ||| (hit &&& y.evWait) } }
      .done (s2.updCtx g.id c.num fun x => x.writeX d got)
def execSev (a b : BitVec 5) (s : State) :=
  runA (.sev a b) s fun s g c =>
    let n := (c.readX a).toNat
    if (c.readX b).toNat / 64 ≠ 0 then .raise s 0x01
    else if n ≤ 2047 && (match s.groupOn? n with | some h => h.vf == g.vf | none => false) then
      .done (s.raiseLine n ((c.readX b).toNat % 64))
    else .raise s 0x12

/-! ### The device clock -/

def execPhcrd (sec : Bool) (d : BitVec 5) (s : State) :=
  runA (.phcrd sec d) s fun s g c =>
    .done (s.updCtx g.id c.num fun x => x.writeX d (if sec then wordOf s.phcSec else s.phcWord))

/-- A flag store reaches its home on this device: it is performed, or dropped and recorded (R295). -/
def State.flagStore (s : State) (w : Who) (vf : Nat) (bndt : Word) (loc : Loc) (tag : Nat) (ptr : Word)
    (b : List Byte) : State :=
  let drop : State := { s with errors := s.errors ++ [{ kind := .trel, vf := some vf, addr := ptr.toNat }] }
  if ptr.toNat % 8 != 0 then drop
  else
    match s.probeGlobal vf (s.boundsAt bndt (bits ptr.toNat 63 56)) ptr.toNat b.length .w with
    | .at (.mem key home t e) =>
      let p := Spot.mem key home t e
      let s := s.keepWalk vf ptr.toNat
      let drop : State := { s with errors := drop.errors }
      match s.checkSpot w .atomic p b.length with
      | some _ => drop
      | none =>
        let s1 := (((s.noteSpot w .atomic p b.length).engLines vf p b.length true).store key b).engTouched vf ptr.toNat b.length
        s1.addRel { var := key, agent := w.entry.agent, tag := tag, scope := .pd, loc := loc, tick := s1.tick }
    | _ => drop
/-- A flag store meets a tensor that moves, and waits at its home (R226). -/
def State.flagWaits (s : State) (vf : Nat) (bndt : Word) (ptr : Word) : Bool :=
  !s.moving.isEmpty && ptr.toNat % 8 == 0 &&
    match s.probeGlobal vf (s.boundsAt bndt (bits ptr.toNat 63 56)) ptr.toNat 8 .w with
    | .at p => s.moves p
    | .page va _ => s.movesVa vf va
    | .trap _ => false
/-- An entry of a list is for this device. -/
def State.trelHere (s : State) (e : Nat × Word × Word) : Bool := e.1 == 0xFFFF || e.1 == s.device
/-- How the stores of a trel are checked: as made by its context, its release made (R295). -/
def Trel.who (t : Trel) : Who :=
  { syncs := [t.sync], entry := { agent := t.sync.agent, rel := t.tag + 1, own := t.sync.agent, ownRel := t.tag + 1 }, path := pathCore,
    seen := none, before := [], fences := [] }
/-- One store of a trel: on this device, or over the fabric, to be committed at its home at time `due`. -/
def State.trelStore (t : Trel) (due : Nat) (s : State) (e : Nat × Word × Word) : State :=
  let (dev, ptr, v) := e
  let b := bytesOfNat 8 v.toNat
  if s.trelHere e then
    s.flagStore t.who t.vf t.bndt t.loc t.tag ptr b
  else s.sendFabric { s.checkedBy t.who t.tag (FabWrite.new t.core dev t.vf ptr b) with flag := true, due := due }
def State.trelAll (s : State) (t : Trel) (due : Nat) : State := t.entries.foldl (State.trelStore t due) s
/-- A time word in nanoseconds, and the PHC read in the same form. -/
def timeNs (w : Word) : Nat := w.toNat / 2 ^ 32 * nsPerSec + w.toNat % 2 ^ 32
def State.clockNs (s : State) : Nat := timeNs s.phcWord
/-- Some flag of a trel on this device meets a tensor that moves (R226). -/
def State.trelMoves (s : State) (t : Trel) : Bool := t.entries.any fun e => s.trelHere e && s.flagWaits t.vf t.bndt e.2.1
/-- An armed trel's stores can be made: its time has come, and none of them waits at its home. -/
def State.trelDue (s : State) (t : Trel) : Bool := t.time ≤ s.clockNs && !s.trelMoves t
/-- Arm a trel: the stores for other devices are sent ahead, those for this one stay with it until its time. -/
def State.arm (s : State) (t : Trel) : State :=
  let s1 := s.trelAll { t with entries := t.entries.filter fun e => !s.trelHere e } t.time
  { s1 with trels := s1.trels ++ [{ t with entries := t.entries.filter s.trelHere }] }

/-- The stores of a trel that is too late to be armed: at once, or where one meets a tensor that moves, once it can be made (R226, R295). -/
def State.trelNow (s : State) (t : Trel) : State := if s.trelMoves t then s.arm t else s.trelAll t 0
/-- An entry of a trel's list: device, pointer, value. Reserved bits that are set stay above the device number. -/
def trelEntry (v : Nat) : Nat × Word × Word := (bits v 255 128, BitVec.ofNat 64 v, BitVec.ofNat 64 (v / 2 ^ 64))
/-- Read the next n entries of a trel's list as loads, each once: those before stand in the context. -/
def State.trelList (s : State) (g : Group) (c : Ctx) (ea : Word) : Nat → MRes Unit
  | 0 => .ok s ()
  | n + 1 =>
    match s.loadA g c (offPtr ea (32 * (c.listed.getD []).length)) 32 32 .read with
    | .wait s1 w => .wait s1 w
    | .trap s1 cause a => .trap s1 cause a
    | .ok s1 v =>
      let s2 := s1.updCtx g.id c.num fun x => { x with listed := some (x.listed.getD [] ++ [trelEntry v]) }
      s2.trelList g (s2.ctxOf g c) ea n
/-- The armed trel of a core (R295). -/
def State.armed (s : State) (core : Nat) : Nat := (s.trels.filter (fun t => t.core == core)).length
def execTrel (n : BitVec 5) (d a b : BitVec 5) (s : State) :=
  runA (.trel n d a b) s fun s g c =>
    let T := c.readX b
    if nsPerSec ≤ T.toNat % 2 ^ 32 then .raise s 0x01
    else
      released s g c fun s tag =>
        let c1 := s.ctxOf g c
        Act.ofRes (s.trelList g c1 (c.readX a) (n.toNat - (c1.listed.getD []).length)) fun s1 _ =>
          let l := (s1.ctxOf g c).listed.getD []
          if l.any (fun e => 2 ^ 16 ≤ e.1) then .raise s1 0x01
          else if 4 ≤ s1.armed g.core then .wait s1 (.other true)
          else
            let t : Trel :=
              { core := g.core, vf := g.vf, time := timeNs T, entries := l, bndt := c.csr.bndt, sync := c.sync,
                tag := tag, loc := g.loc }
            if timeNs T < s1.clockNs + 5000 then .done ((s1.trelNow t).updCtx g.id c.num fun x => x.writeX d 1)
            else .done ((s1.arm t).updCtx g.id c.num fun x => x.writeX d 0)

end Sys2Proof.Machine
end

