-- ==== Sys2Proof/Machine/Queue.lean ====
section
/-! DEFINITION. Launch queues, slot tags, dependence counters and tile grids (R67-R70, R81-R83), section keys at their home
slice (R271-R274): what the class-X instructions and the queue managers share. -/

namespace Sys2Proof.Machine

/-! ### Virtual memory as the queue managers and engines reach it; a page that is not mapped reads zero (log 35) -/

def State.vKey (s : State) (vf ptr : Nat) : Option Nat :=
  if bits ptr 63 56 == 0xFE then some (cmKey (bits ptr 39 32) (ptr % 2 ^ 32))
  else
    match s.translate vf ptr with
    | .leaf e big => some (keyOf (leafSpace e) (physOf e ptr big))
    | .none _ => none
def State.vPart (s : State) (vf ptr n : Nat) : Nat :=
  match s.vKey vf ptr with
  | some k => s.rd k n
  | none => 0
def State.vRd (s : State) (vf ptr n : Nat) : Nat :=
  let room := 2 ^ 19 - ptr % 2 ^ 19
  if n ≤ room then s.vPart vf ptr n else s.vPart vf ptr room + 2 ^ (8 * room) * s.vPart vf (ptr + room) (n - room)
/-- Where an access of a queue manager falls, in one page. -/
def State.vSpot (s : State) (vf ptr : Nat) : Option Spot :=
  if bits ptr 63 56 == 0xFE then some (.mem (cmKey (bits ptr 39 32) (ptr % 2 ^ 32)) localHome true none)
  else
    match s.translate vf ptr with
    | .leaf e big => some (.mem (keyOf (leafSpace e) (physOf e ptr big)) (s.homeSlice vf ptr) false (some (e, ptr % 2 ^ 56, vf)))
    | .none _ => none
/-- An access of a queue manager to bytes of one page has been made: the slice keeps the translation that it has walked, its line holds
the bytes, and the access is the latest to its page (R206, R207, R215, R227, R228). -/
def State.vUsePage (vf : Nat) (store : Bool) (s : State) (x : Nat × Nat) : State :=
  match s.vSpot vf x.1 with
  | some p => ((s.keepWalk vf x.1).engLines vf p x.2 store).engTouched vf x.1 x.2
  | none => s
def State.vUse (s : State) (vf ptr n : Nat) (store : Bool) : State := (piecesOf ptr n).foldl (State.vUsePage vf store) s
/-- Reads of a queue manager, each of bytes at a pointer of a function. -/
abbrev VReads := List (Nat × Nat × Nat)
def State.vUses (s : State) (l : VReads) : State := l.foldl (fun (s : State) (vf, p, n) => s.vUse vf p n false) s
/-- One of these accesses meets a tensor that moves, where it waits: what the queue manager is about happens later (R226). -/
def State.vWaits (s : State) (l : VReads) : Bool :=
  !s.moving.isEmpty && l.any fun (vf, p, n) => (piecesOf p n).any fun (q, m) =>
    s.movesVa vf q || s.movesVa vf (q + m - 1) || (match s.vSpot vf q with | some sp => s.moves sp | none => false)
def State.vPut (s : State) (vf ptr : Nat) (b : List Byte) : State :=
  match s.vKey vf ptr with
  | some k => ((s.vUse vf ptr b.length true).settledWords (wordsOf k b.length)).store k b
  | none => s
def State.vWr (s : State) (vf ptr : Nat) (b : List Byte) : State :=
  let room := 2 ^ 19 - ptr % 2 ^ 19
  if b.length ≤ room then s.vPut vf ptr b else (s.vPut vf ptr (b.take room)).vPut vf (ptr + room) (b.drop room)

/-! ### Launch queues -/

/-- A launch queue header (R67) at its physical address. -/
structure QHead where
  pa : Nat
  die : Nat
  mode : Nat
  ridx : Nat
  widx : Nat
  cap : Nat
  tags : Nat
  slots : Nat
/-- The header of a configured queue (R348). A cap of 0 counts as 1, and the reserved modes 2 and 3 as mode 0 (log 78). -/
def State.qHead (s : State) (vf q : Nat) : Option QHead :=
  if q < 8 && bit (s.vf vf).lqmask q then
    let pa := (s.vf vf).lq + 64 * q
    let v := s.rd (hbm pa) 64
    some { pa := pa, die := bits v 233 232, mode := bits v 225 224, ridx := bits v 223 192, widx := bits v 191 160,
           cap := max 1 (bits v 159 128), tags := bits v 127 64, slots := bits v 63 0 }
  else none
/-- A tag's state bits replaced (R68). -/
def tagPut (t st : Nat) : Nat := t / 4 * 4 + st
def State.tagAt (s : State) (vf ptr : Nat) : Nat := s.vRd vf ptr 1
def State.tagKey (s : State) (vf ptr : Nat) : Nat := (s.vKey vf ptr).getD 0
def State.setTag (s : State) (vf ptr st : Nat) : State :=
  match s.vKey vf ptr with
  | some k => ((s.vUse vf ptr 1 true).replaced (k / 4) (s.tick + 1)).store k [BitVec.ofNat 8 (tagPut (s.tagAt vf ptr) st)]
  | none => s
/-- A tag has become full: when (R80), and what its publisher was ordered after (R260). -/
def State.notePublish (s : State) (key : Nat) (covers : List Acq) : State :=
  { s with published := (key, s.tick, s.phcNs, covers) :: s.published.filter (fun x => x.1 != key) }
/-- Claim the slot at widx and publish a record in it (R83); none while the slot is not empty. -/
def State.qPublish (s : State) (vf : Nat) (h : QHead) (data : List Byte) (covers : List Acq) : Option (Nat × State) :=
  let n := h.widx % h.cap
  if s.tagAt vf (h.tags + n) % 4 != 0 then none
  else
    let s1 := (s.wr (hbm (h.pa + 20)) 4 ((h.widx + 1) % 2 ^ 32)).vWr vf (h.slots + 128 * n) data
    some (n, ((s1.setTag vf (h.tags + n) 2).tock).notePublish (s1.tagKey vf (h.tags + n)) covers)
/-- The releases of a variable as acquire-set entries, the latest of each agent (R74, R81). -/
def State.relsOf (s : State) (var since : Nat) : List Acq :=
  (s.rels.filter (fun r => r.var == var && since ≤ r.tick)).foldl (fun (l : List Acq) (r : Rel) =>
    if l.any (fun a => a.agent == r.agent) then l
    else l ++ [{ var := r.var, agent := r.agent, tag := r.tag }]) []

/-! ### Dependence counters -/

/-- The counter at a key has come to zero: its record goes to its queue (R81). -/
def State.submitCounter (s : State) (vf key addr : Nat) (covers : List Acq) : State :=
  let v := s.rd key 16
  { s with submits := s.submits ++ [{ vf := vf, lq := bits v 39 32, lrec := BitVec.ofNat 64 (v / 2 ^ 64), counter := addr,
                                      acq := s.relsOf key 0, covers := covers }] }
/-- Set the count, and submit at zero. -/
def State.putCount (s : State) (vf key addr n : Nat) (covers : List Acq) : State :=
  let s1 := s.store key (bytesOfNat 4 n)
  if n % 2 ^ 32 == 0 then s1.submitCounter vf key addr covers else s1
/-- The slot that a publish at widx claims, its tag and its record. -/
def QHead.nextSlot (h : QHead) (vf : Nat) : VReads :=
  [(vf, h.tags + h.widx % h.cap, 1), (vf, h.slots + 128 * (h.widx % h.cap), 128)]
/-- An event COUNTER_SUBMIT (R81): publish, wait while the queue is full or a byte of it moves (R226), or drop and record. An lrec that is
not 64-byte aligned is read as it stands (log 91, DESIGN CHOICE). -/
def State.counterSubmit (s : State) (i : Nat) : State :=
  match s.submits[i]? with
  | none => s
  | some x =>
    let rest : State := { s with submits := s.submits.eraseIdx i }
    match s.qHead x.vf x.lq with
    | none => { rest with errors := rest.errors ++ [{ kind := .dropped, vf := some x.vf, addr := x.counter }] }
    | some h =>
      if h.mode == 1 then
        { rest with errors := rest.errors ++ [{ kind := .dropped, vf := some x.vf, addr := x.counter }] }
      else if s.vWaits ((x.vf, x.lrec.toNat, 128) :: h.nextSlot x.vf) then s
      else
        match (rest.vUse x.vf x.lrec.toNat 128 false).qPublish x.vf h (bytesOfNat 128 (s.vRd x.vf x.lrec.toNat 128)) x.covers with
        | none => s
        | some (n, s1) =>
          let var := s1.tagKey x.vf (h.tags + n)
          let loc : Loc := { vf := x.vf, launch := 0, gid := 0, core := 0 }
          x.acq.foldl (fun (s : State) (a : Acq) =>
            s.addRel { var := var, agent := a.agent, tag := a.tag, scope := .pk, loc := loc, tick := s1.tick }) s1
def execCounterSubmit (i : Nat) (s : State) : Host.Outcome State Fault Refusal := .next (s.counterSubmit i)

/-! ### Groups of a launch that have not started -/

/-- A group index of a launch of kind 0 or 2. -/
def Launch.total (l : Launch) : Nat := bits l.record.toNat 159 128
def Launch.unstarted (l : Launch) (i : Nat) : Bool :=
  l.kind != 1 && l.next ≤ i && i < l.total && !l.started.contains i
/-- Some group with an index below i has not started. -/
def Launch.behind (l : Launch) (i : Nat) : Bool :=
  l.kind != 1 && (List.range (i - l.next)).any fun k => l.unstarted (l.next + k)

/-! ### Section keys -/

def KeySt.free : KeySt := { holder := none, abandoned := false, waiting := [] }
def State.keySt (s : State) (k : Nat) : KeySt := (alGet s.keys k).getD KeySt.free
def State.updKey (s : State) (k : Nat) (f : KeySt → KeySt) : State := { s with keys := alPut s.keys k (f (s.keySt k)) }
/-- Every group before this one in its stage has closed its phase and does not reserve K (R271). -/
def State.keyTurn (s : State) (g : Group) (k : Nat) : Bool :=
  s.groups.all (fun h => !(h.launch == g.launch && h.stage == g.stage && h.entryNo < g.entryNo) ||
    (h.closed && !h.keys.any (fun x => x.key == k))) &&
  (match s.launch? g.launch with | some l => !l.behind g.index | none => true)
/-- The waiter that is granted next; a group that has stopped waits no more (R274). -/
def State.nextHolder (s : State) (k : Nat) : Option Nat :=
  if (s.keySt k).holder.isSome then none
  else (s.keySt k).waiting.find? fun gid => match s.group? gid with | some g => s.keyTurn g k | none => false
/-- Grant a key to its next holder (R271). -/
def State.grantKey (s : State) (k : Nat) : State :=
  match s.nextHolder k with
  | none => s
  | some gid => s.updKey k fun x => { x with holder := some gid, waiting := x.waiting.filter (· != gid) }
/-- An event ORDERED_SECTION_GRANT of the key at a place of the list. -/
def execOrderedSectionGrant (i : Nat) (s : State) : Host.Outcome State Fault Refusal :=
  .next (match s.keys[i]? with | some (k, _) => s.grantKey k | none => s)
/-- Free a key of a group. -/
def State.freeKey (s : State) (gid k : Nat) (abandon : Bool) : State :=
  let s1 := s.updGroup gid fun g => { g with keys := g.keys.filter (fun x => x.key != k) }
  s1.updKey k fun x =>
    { holder := if x.holder == some gid then none else x.holder, abandoned := x.abandoned || abandon,
      waiting := x.waiting.filter (· != gid) }
/-- A group ends or hands over without ordlv (R274): its keys in reservation order, abandoned, each with a record. `rel`
is the agent and tag of its release at scope `sc`, none for a killed group. -/
def State.abandonKeys (s : State) (g : Group) (rel : Option (Nat × Nat)) (sc : Scope) : State :=
  let s1 := g.keys.foldl (fun (s : State) (x : Key) =>
    let s1 := (s.freeKey g.id x.key true).inform g.vf (faultRecord x.ptr 0 0 g.core 0 0 false false 0x21)
    match rel with
    | some (a, t) => s1.relAt g a t sc x.key
    | none => s1) s
  s1.updGroup g.id fun x => { x with closed := true }

end Sys2Proof.Machine
end

