-- ==== Sys2Proof/Machine/Copy.lean ====
section
/-! DEFINITION. The copy unit (R238, R239) and the indirect copy engine (R240, R241). Each command runs in one step, up to
the element that holds it. -/

namespace Sys2Proof.Machine

/-! ### COPY -/

/-- The span from the lowest byte of a strided block to beyond its highest. -/
def envelope (base rows width : Nat) (stride : Int) : Int × Int :=
  let last : Int := (rows - 1 : Nat) * stride
  (base + min 0 last, base + max 0 last + width)
def copyBad (j : Job) : Bool :=
  !j.headOk || j.p ≥ 2 || j.arg != 0 || j.f 511 400 != 0 || j.f 255 224 == 0 || 65535 < j.f 255 224 ||
    j.f 223 192 == 0 || 2 ^ 24 < j.f 223 192
/-- Source and destination overlap, on this device: in virtual addresses or in one cluster's memory. -/
def copyOverlap (j : Job) (here : Bool) : Bool :=
  let flat := fun (p : Nat) => if bits p 63 56 == 0xFE then p else p % 2 ^ 56
  let a := envelope (flat (j.f 127 64)) (j.f 255 224) (j.f 223 192) (toI 32 (j.f 287 256))
  let b := envelope (flat (j.f 191 128)) (j.f 255 224) (j.f 223 192) (toI 32 (j.f 319 288))
  here && a.1 < b.2 && b.1 < a.2
/-- The slot tag that a copy publishes (R239). -/
def Job.slot? (j : Job) : Option Word := if bit j.p 0 then some (BitVec.ofNat 64 (j.f 383 320)) else none
/-- The head sends a write over the fabric, in the stream of its sender's core (R310), to be checked there as the job's are here (R313),
and waits for its acknowledgement. -/
def State.sendRow (s : State) (cl : Nat) (j : Job) (dst : Nat) (b : List Byte) : State :=
  let core := match j.senders.head? with | some x => x.core | none => 0
  let w := s.jobWho j pathFab
  let s1 := s.sendFabric { s.checkedBy w w.entry.rel (FabWrite.new (2048 + core) (j.f 399 384) j.vf (BitVec.ofNat 64 dst) b) with
    more := (j.f 255 224 - 1 - j.pos, toI 32 (j.f 319 288)), slot := j.slot? }
  s1.setHead cl .cpy { j with rowSent := alGet s1.streams (2048 + core) }
/-- The end of row r of the source, and of the destination. -/
def Job.rowSrc (j : Job) (r : Nat) : Nat := ptrAdd (j.f 127 64) (r * toI 32 (j.f 287 256))
def Job.rowDst (j : Job) (r : Nat) : Nat := ptrAdd (j.f 191 128) (r * toI 32 (j.f 319 288))
/-- Copy one row on this device. -/
def State.copyRow (s : State) (j : Job) (r : Nat) : JRes Unit :=
  (s.jobRead j pathCpy (j.rowSrc r) (j.f 223 192)).bind fun s b => s.jobWrite j pathCpy (j.rowDst r) b
/-- Rows from r on, each whole (R237, R239). -/
def State.copyRows (s : State) (j : Job) : Nat → Nat → RunEnd
  | 0, _ => .done s
  | n + 1, r =>
    match s.copyRow j r with
    | .ok s1 _ => s1.copyRows j n (r + 1)
    | .busy s1 bank => .busy s1 r bank
    | .hold s1 va m => .hold s1 r va m
    | .fail s1 st => .fail s1 r st
/-- Some byte of a write would go to the weight store of a die on which the function runs (R210). -/
def State.barredAt (s : State) (j : Job) (ptr n : Nat) : Bool :=
  (piecesOf ptr n).any fun x => s.probeJob j x.1 x.2 .w == .trap 0x16
/-- The slot tag that a copy publishes lies in such a weight store. -/
def State.barredSlot (s : State) (j : Job) (slot : Option Word) : Bool :=
  match slot with | some p => s.barredAt j p.toNat 1 | none => false
/-- The first of n rows from r on that is barred so, or after them the slot, if no row before it fails another check: the job then ends
with nothing more written (R210). Rows that are held or wait are looked beyond. -/
def State.barredRow (s : State) (j : Job) : Nat → Nat → State × Option Nat
  | 0, _ => (s, if s.barredSlot j j.slot? then some 0 else none)
  | n + 1, r =>
    let w := s.jobWho j pathCpy
    let src := s.jobSpots j w .read .r false (piecesOf (j.rowSrc r) (j.f 223 192))
    let dst := src.state.jobSpots j w .write .w false (piecesOf (j.rowDst r) (j.f 223 192))
    match src, s.barredAt j (j.rowDst r) (j.f 223 192), dst with
    | .fail _ _, _, _ => (src.state, none)
    | _, true, _ => (dst.state, some r)
    | _, _, .fail _ _ => (dst.state, none)
    | _, _, _ => dst.state.barredRow j n (r + 1)
/-- The tag byte belongs to a launch queue of mode 1, whose producer makes no claim (R69). -/
def State.modeOneTag (s : State) (vf ptr : Nat) : Bool :=
  (List.range 8).any fun q =>
    match s.qHead vf q with
    | some h => h.mode == 1 && h.tags % 2 ^ 56 ≤ ptr % 2 ^ 56 && ptr % 2 ^ 56 < h.tags % 2 ^ 56 + h.cap
    | none => false
/-- Publish the slot of a tag: filling to full, and for a copy of another device, which makes no claim there, in a queue of mode 1 also
empty to full; a release at .pk by the job (R68, R69, R239, R316; log 64). -/
def State.publishSlot (s : State) (j : Job) (path ptr : Nat) : JRes Unit :=
  let w := s.jobWho j path
  (s.jobSpots j w .tag .rw true [(ptr, 1)]).bind fun s l =>
    match l with
    | [(.mem key home t e, _)] =>
      let st := s.rd key 1 % 4
      if st != 1 && !(st == 0 && path == pathFab && s.modeOneTag j.vf ptr) then
        .fail ((s.engLines j.vf (.mem key home t e) 1 false).engTouched j.vf ptr 1) 0x1A
      else
        let s1 := ((s.noteSpot w .tag (.mem key home t e) 1).engChanged j.vf ptr (.mem key home t e) 1).store key
          [BitVec.ofNat 8 (tagPut (s.rd key 1) 2)]
        let loc := match j.senders.head? with
          | some x => { vf := j.vf, launch := j.launch.getD 0, gid := x.gid, core := x.core : Loc }
          | none => { vf := j.vf, launch := j.launch.getD 0, gid := 0, core := 0 }
        .ok ((s1.addRel { var := key, agent := j.agent, tag := w.entry.rel, scope := .pk, loc := loc, tick := s1.tick }).notePublish key []) ()
    | _ => .ok s ()
/-- A copy on this device. -/
def State.copyHere (s : State) (cl : Nat) (j : Job) : State :=
  let rows := j.f 255 224
  match s.barredRow j (rows - j.pos) j.pos with
  | (s, some r) => s.endJob cl .cpy j (doneWord 0x16 r 0)
  | (s, none) =>
    match s.copyRows j (rows - j.pos) j.pos with
    | .busy s1 r bank => s1.bankJob cl .cpy (j.goesOn r) bank
    | .hold s1 r va m => s1.holdJob cl .cpy (j.goesOn r) pathCpy va m
    | .fail s1 r st => s1.endJob cl .cpy j (doneWord st r 0)
    | .done s1 =>
      let j1 := j.goesOn rows
      if !bit j.p 0 then s1.endJob cl .cpy j1 (doneWord 0 0 0)
      else
        State.headStep cl .cpy j1 pathCpy (s1.publishSlot j1 pathCpy (j.f 383 320)) fun s2 _ =>
          s2.endJob cl .cpy j1 (doneWord 0 0 0)
/-- What a copy sends over the fabric has passed the bounds of its context's table (R237): n bytes at a pointer. -/
def State.sendChecked (s : State) (cl : Nat) (j : Job) (ptr n : Nat) (right : Right) (index : Nat) (k : State → State) : State :=
  match s.boundJob j ptr n right with
  | some cause => s.endJob cl .cpy j (doneWord cause index 0)
  | none => k s
/-- A copy over the fabric sends a row, and the next once that has been acknowledged: a row that fails there leaves the rows below it
committed and none at or above it (R237, R239). The publish of the slot is an empty write, the last. -/
def State.copyAway (s : State) (cl : Nat) (j : Job) : State :=
  let rows := j.f 255 224
  let index := if j.pos < rows then j.pos else 0
  match j.nack with
  | some st => s.endJob cl .cpy j (doneWord st index 0)
  | none =>
    if j.rowSent.isSome then s
    else if j.pos < rows then
      match s.jobRead j pathCpy (j.rowSrc j.pos) (j.f 223 192) with
      | .busy s1 bank => s1.bankJob cl .cpy (j.goesOn j.pos) bank
      | .hold s1 va m => s1.holdJob cl .cpy (j.goesOn j.pos) pathCpy va m
      | .fail s1 st => s1.endJob cl .cpy j (doneWord st index 0)
      | .ok s1 b =>
        s1.sendChecked cl j (j.rowDst j.pos) (j.f 223 192) .w index fun s => s.sendRow cl (j.goesOn j.pos) (j.rowDst j.pos) b
    else if bit j.p 0 && j.pos == rows then
      s.sendChecked cl j (j.f 383 320) 1 .rw 0 fun s => s.sendRow cl (j.goesOn j.pos) (j.f 383 320) []
    else s.endJob cl .cpy j (doneWord 0 0 0)
/-- COPY on the head of the queue. A dev other than 0xFFFF sends it over the fabric (R239), this device's own number too: both ends are then
here, and may not overlap (log 85). -/
def State.copy (s : State) (cl : Nat) : State :=
  s.onHead cl .cpy .copy fun s j =>
    if copyBad j || copyOverlap j (j.f 399 384 == 0xFFFF || j.f 399 384 == s.device) then s.endJob cl .cpy j (doneWord 0x01 0 0)
    else if j.f 399 384 == 0xFFFF then s.copyHere cl j else s.copyAway cl j
def execCopy (cl : Nat) (s : State) : Host.Outcome State Fault Refusal := .next (s.copy cl)

/-! ### GATHER -/

def Job.levels (j : Job) : Nat := j.p % 4
def Job.elemSize (j : Job) : Nat := 2 ^ (j.p / 4 % 8)
def Job.gBase (j : Job) (lv : Nat) : Nat := match lv with | 1 => j.f 255 192 | 2 => j.f 319 256 | _ => j.f 383 320
def Job.gCount (j : Job) (lv : Nat) : Nat := match lv with | 1 => j.f 415 384 | 2 => j.f 447 416 | _ => j.f 479 448
def gatherBad (j : Job) : Bool :=
  !j.headOk || j.levels == 0 || 32 ≤ j.p || j.p / 4 == 7 || j.arg == 0 || j.f 511 480 != 0 ||
    [1, 2, 3].any fun lv => j.levels < lv && (j.gBase lv != 0 || j.gCount lv != 0)
/-- The fill pattern of e bytes (R241). -/
def fillBytes (fill e : Nat) : List Byte := (List.range e).map fun i => BitVec.ofNat 8 (fill / 2 ^ (8 * (i % 8)))
/-- Element x from level lv on: its bytes, or the level at which the index fails. -/
def State.gatherAt (s : State) (j : Job) : Nat → Nat → Nat → JRes (List Byte × Option Nat)
  | 0, _, _ => .ok s ([], none)
  | n + 1, lv, x =>
    if j.gCount lv ≤ x then .ok s (fillBytes (j.f 191 128) j.elemSize, some lv)
    else if lv < j.levels then
      (if j.gBase lv % 4 != 0 then .fail s 0x15 else s.jobReadN j pathIxe (ptrAdd (j.gBase lv) (4 * x : Nat)) 4).bind
        fun s v => s.gatherAt j n (lv + 1) v
    else
      (if j.gBase lv % j.elemSize != 0 then .fail s 0x15
       else s.jobRead j pathIxe (ptrAdd (j.gBase lv) (j.elemSize * x : Nat)) j.elemSize).bind fun s b => .ok s (b, none)
/-- Elements from i on, each committed before the next (R241). -/
def State.gatherRun (s : State) (j : Job) : Nat → Nat → Option (Nat × Nat) → RunEnd × Option (Nat × Nat)
  | 0, _, oob => (.done s, oob)
  | n + 1, i, oob =>
    let r := (s.gatherAt j 3 1 i).bind fun s (b, lv) =>
      (if j.f 127 64 % j.elemSize != 0 then .fail s 0x15
       else s.jobWrite j pathIxe (ptrAdd (j.f 127 64) (j.elemSize * i : Nat)) b).bind fun s _ => .ok s lv
    match r with
    | .ok s1 lv => s1.gatherRun j n (i + 1) (oob.or (lv.map fun l => (i, l)))
    | .busy s1 bank => (.busy s1 i bank, oob)
    | .hold s1 va m => (.hold s1 i va m, oob)
    | .fail s1 st => (.fail s1 i st, oob)
def State.gather (s : State) (cl : Nat) : State :=
  s.onHead cl .ixe .gather fun s j =>
    if gatherBad j then s.endJob cl .ixe j (doneWord 0x01 0 0)
    else
      match s.gatherRun j (j.arg - j.pos) j.pos j.oob with
      | (.busy s1 i bank, oob) => s1.bankJob cl .ixe { j.goesOn i with oob := oob } bank
      | (.hold s1 i va m, oob) => s1.holdJob cl .ixe { j.goesOn i with oob := oob } pathIxe va m
      | (.fail s1 i st, _) => s1.endJob cl .ixe j (doneWord st i 0)
      | (.done s1, none) => s1.endJob cl .ixe j (doneWord 0 0 0)
      | (.done s1, some (i, lv)) => s1.endJob cl .ixe j (doneWord 0x1B i lv)
def execGather (cl : Nat) (s : State) : Host.Outcome State Fault Refusal := .next (s.gather cl)

end Sys2Proof.Machine
end

