-- ==== Sys2Proof/Machine/Keccak.lean ====
section
/-! DEFINITION. SHAKE256, which capabilities and measurements use (R243, R355). -/

namespace Sys2Proof.Machine

/-- The 25 lanes of the permutation, lane x + 5 y. -/
abbrev Lanes := List (BitVec 64)
def lane (a : Lanes) (x y : Nat) : BitVec 64 := a.getD (x % 5 + 5 * (y % 5)) 0
/-- The rotation of each lane. -/
def rotOffsets : List Nat :=
  [0, 1, 62, 28, 27, 36, 44, 6, 55, 20, 3, 10, 43, 25, 39, 41, 45, 15, 21, 8, 18, 2, 61, 56, 14]
def roundConsts : List (BitVec 64) :=
  [0x0000000000000001, 0x0000000000008082, 0x800000000000808A, 0x8000000080008000, 0x000000000000808B,
   0x0000000080000001, 0x8000000080008081, 0x8000000000008009, 0x000000000000008A, 0x0000000000000088,
   0x0000000080008009, 0x000000008000000A] ++
  [0x000000008000808B, 0x800000000000008B, 0x8000000000008089, 0x8000000000008003, 0x8000000000008002,
   0x8000000000000080, 0x000000000000800A, 0x800000008000000A, 0x8000000080008081, 0x8000000000008080,
   0x0000000080000001, 0x8000000080008008]
def keccakRound (a : Lanes) (rc : BitVec 64) : Lanes :=
  let c := (List.range 5).map fun x => (List.range 5).foldl (fun v y => v ^^^ lane a x y) 0
  let d := (List.range 5).map fun x => c.getD ((x + 4) % 5) 0 ^^^ (c.getD ((x + 1) % 5) 0).rotateLeft 1
  let t := (List.range 25).map fun i => a.getD i 0 ^^^ d.getD (i % 5) 0
  -- lane (x, y) goes to (y, 2x + 3y)
  let b := (List.range 25).map fun i =>
    let y := i / 5
    let x := i % 5
    let sx := (x + 3 * y) % 5
    let src := sx + 5 * x
    (t.getD src 0).rotateLeft (rotOffsets.getD src 0)
  let e := (List.range 25).map fun i => lane b (i % 5) (i / 5) ^^^ (~~~(lane b (i % 5 + 1) (i / 5)) &&& lane b (i % 5 + 2) (i / 5))
  (e.headD 0 ^^^ rc) :: e.drop 1
def keccak (a : Lanes) : Lanes := roundConsts.foldl keccakRound a
def lanesBytes (a : Lanes) : List Byte := a.flatMap fun x => bytesOfNat 8 x.toNat
/-- The lanes of 200 bytes. -/
def bytesLanes : Nat → List Byte → Lanes
  | 0, _ => []
  | n + 1, b => BitVec.ofNat 64 (natOfBytes (b.take 8)) :: bytesLanes n (b.drop 8)
def rate : Nat := 136
/-- The padding of SHAKE. -/
def shakePad (m : List Byte) : List Byte :=
  let n := rate - m.length % rate
  if n == 1 then m ++ [0x9F] else m ++ [0x1F] ++ List.replicate (n - 2) 0 ++ [0x80]
def absorb : Nat → Lanes → List Byte → Lanes
  | 0, a, _ => a
  | n + 1, a, m =>
    let blk := bytesLanes 25 (m.take rate ++ List.replicate 64 0)
    absorb n (keccak ((a.zip blk).map fun (x, y) => x ^^^ y)) (m.drop rate)
/-- The first n bytes, n up to one block. -/
def shake256 (m : List Byte) (n : Nat) : List Byte :=
  let p := shakePad m
  (lanesBytes (absorb (p.length / rate) (List.replicate 25 0) p)).take n

end Sys2Proof.Machine
end

