-- ==== Sys2Proof/Machine/Fetch.lean ====
section
/-! DEFINITION. What a failed fetch or decode comes to (R117, R118), and how the execute stream passes the access stream's
instructions (R119, R120). -/

namespace Sys2Proof.Machine

/-- A failed fetch or decode in the access stream: precise, once the execute stream has drained (R118). -/
def State.fetchTrap (s : State) (g : Group) (c : Ctx) (cause : Nat) (tval : Word) : State :=
  if c.drained then (s.updCtx g.id c.num Ctx.rejoin).takeTrap g.id c.num cause tval c.pcA c.pcA
  else s.updCtx g.id c.num (Ctx.waitForA .drain)
/-- A fetch of the execute stream that fails a check where the access stream has passed: the page has changed since (R98, R167). -/
def State.fetchTrapE (s : State) (g : Group) (c : Ctx) (cause : Nat) (tval : Word) : State :=
  let a := s.settled g c
  (s.updCtx g.id c.num fun x => { x with pcA := a.pcA, seqA := a.seqA }).takeTrap g.id c.num cause tval a.pcA c.pcE

/-- A decode trap of the context at hand (R117, R118). -/
def execDecodeTrap (cause : Nat) (s : State) : Host.Outcome State Fault Refusal :=
  match s.here? with
  | none => .fault .noContext
  | some (g, c) => .next (s.fetchTrap g c cause (s.parcelAt g c c.pcA))

/-! ### The execute stream's way through the sequence (R119, R120) -/

/-- The execute stream meets an access-stream instruction: control flow sends it where the branch entry says, any other is
passed once it is committed. -/
def Ctx.passE (c : Ctx) (i : Instr) : Ctx :=
  if i.isFlow then
    match c.queues.bq.head? with
    | some e =>
      let c1 := c.popBq.markV e.vmask 32
      { c1 with pcE := e.dest, seqE := c1.seqE + 1, waitE := none, retryE := false }
    | none => c.waitForE (.queue 8 false)
  else if c.committedTo (max c.seqP (c.seqE + 1)) then
    { c with pcE := offPtr c.pcE i.size, seqE := c.seqE + 1, seqP := max c.seqP (c.seqE + 1), waitE := none,
             retryE := false }
  else c.waitForE .commit

end Sys2Proof.Machine
end

