-- ==== Sys2Proof/Machine/VArith.lean ====
section
/-! DEFINITION. Class E: arithmetic (R169-R174) and logic (R175, R176). One meaning per opcode over the shared element
maps. -/

namespace Sys2Proof.Machine

def execVadd (e : EArgs) (s : State) := vMap (.vadd e) 0x40 e s (elem iAdd fun _ a b => fAdd a b)
def execVsub (e : EArgs) (s : State) := vMap (.vsub e) 0x41 e s (elem iSub fun _ a b => fSub a b)
def execVmul (e : EArgs) (s : State) := vMap (.vmul e) 0x42 e s (elem iMul fun _ a b => fMul a b)
def execVfma (e : EArgs) (s : State) := vMap (.vfma e) 0x43 e s (elem noI fun d a b => fFma false false a b d)
def execVfms (e : EArgs) (s : State) := vMap (.vfms e) 0x44 e s (elem noI fun d a b => fFma false true a b d)
def execVfnma (e : EArgs) (s : State) := vMap (.vfnma e) 0x45 e s (elem noI fun d a b => fFma true false a b d)
def execVmin (e : EArgs) (s : State) := vMap (.vmin e) 0x46 e s (elem iMin fun _ a b => fMinMax false a b)
def execVmax (e : EArgs) (s : State) := vMap (.vmax e) 0x47 e s (elem iMax fun _ a b => fMinMax true a b)
def execVabs (e : EArgs) (s : State) := vMap (.vabs e) 0x48 e s (signElem iAbs absCode)
def execVneg (e : EArgs) (s : State) := vMap (.vneg e) 0x49 e s (signElem iNeg negCode)
def execVabd (e : EArgs) (s : State) := vMap (.vabd e) 0x4A e s (elem iAbd fun _ a b => fAbd a b)
def execVavg (e : EArgs) (s : State) := vMap (.vavg e) 0x4B e s (elem iAvg fun _ a b => fAvg a b)
def execVclamp (e : EArgs) (s : State) := vMap (.vclamp e) 0x4C e s (elem iClamp fClamp)
def execVmulh (e : EArgs) (s : State) := vMap (.vmulh e) 0x50 e s (elem iMulh noF)
def execVadds (e : EArgs) (s : State) := vMap (.vadds e) 0x51 e s (elem iAdds noF)
def execVsubs (e : EArgs) (s : State) := vMap (.vsubs e) 0x52 e s (elem iSubs noF)
def execVmac (e : EArgs) (s : State) := vMap (.vmac e) 0x53 e s (elem iMac fun d a b => fFma false false a b d)
def execVcopysign (e : EArgs) (s : State) := vMap (.vcopysign e) 0x54 e s (signElem noI copyCode)

/-- Integers divide at width w; floats as the special functions do (R25, R170). -/
def divElem (st dt : ETy) (p d a b : Nat) : Nat × Flags :=
  match st with
  | .f fs => sfElem (fun x => let r := fDiv x (fs.value b); .exact r.1 r.2) st dt p d a b
  | _ => elem iDiv noF st dt p d a b
def execVdiv (e : EArgs) (s : State) := vMap (.vdiv e) 0x55 e s divElem
def execVsqrt (e : EArgs) (s : State) := vMap (.vsqrt e) 0x56 e s (sfElem (exactSf fSqrt))
def execVrcp (e : EArgs) (s : State) := vMap (.vrcp e) 0x57 e s (sfElem (exactSf fRcp))
def execVrsqrt (e : EArgs) (s : State) := vMap (.vrsqrt e) 0x58 e s (sfElem (exactSf fRsqrt))
def execVexp2 (e : EArgs) (s : State) := vMap (.vexp2 e) 0x59 e s (sfElem sfExp2)
def execVlog2 (e : EArgs) (s : State) := vMap (.vlog2 e) 0x5A e s (sfElem sfLog2)
def execVsinp (e : EArgs) (s : State) := vMap (.vsinp e) 0x5B e s (sfElem (sfTrig false))
def execVcosp (e : EArgs) (s : State) := vMap (.vcosp e) 0x5C e s (sfElem (sfTrig true))
def execVtanh (e : EArgs) (s : State) := vMap (.vtanh e) 0x5D e s (sfElem sfTanh)
def execVsigm (e : EArgs) (s : State) := vMap (.vsigm e) 0x5E e s (sfElem sfSigm)

/-- The code of an integral value in its own format, which its clamp bound does not limit; where the format holds no such
value, a free code (R174, log 72). -/
def floorCode (f : Fmt) (mode : Rm) (a : Nat) (v : FVal) : Nat :=
  let c := { f with clamp := 0 }.round .rne 0 v
  if c.2 == 0 then c.1 else Config.floorCode mode.code a % 2 ^ f.width
/-- Rounding to an integral value: in the source's format first, then encoded into the destination's (R174). -/
def floorElem (mode : Rm) (st dt : ETy) (_p _d a _b : Nat) : Nat × Flags :=
  match st, dt with
  | .f fs, .f fd =>
    let r := fFloor mode (fs.value a)
    let c := floorCode fs mode a r.1
    if fd.narrow && fd != fs then
      let q := fd.round .rne 0 (fs.value c)
      (q.1, q.2 ||| r.2)
    else (c, r.2)
  | _, _ => (0, 0)
def execVfloor (e : EArgs) (s : State) := vMap (.vfloor e) 0x5F e s (floorElem (Rm.ofCode e.fn.toNat))

/-! ### Double-width and dot products (R171, R172) -/

/-- Results to the group of r registers at d: element i to register i mod r, position i div r (R165). -/
def everyNth (r k : Nat) (l : List (Option Nat)) : List (Option Nat) :=
  (l.zipIdx.filter fun x => x.2 % r == k).map (·.1)
def Ctx.writeGroup (c : Ctx) (d : BitVec 5) (r w : Nat) (l : List (Option Nat)) : Ctx :=
  (List.range r).foldl (fun c k => c.writeElems (d + BitVec.ofNat 5 k) w (everyNth r k l)) c
/-- The elements of a group of r registers at a, in the order of R165. -/
def interleave (ls : List (List Nat)) (n : Nat) : List Nat :=
  (List.range n).flatMap fun i => ls.map fun l => l.getD i 0
/-- Keep the enabled results of a group of r registers of width w. -/
def guardGroup (gd : Guard) (r w : Nat) (l : List (Nat × Flags)) : List (Option Nat) × Flags :=
  let k := l.zipIdx.map fun (x, i) => if enabled gd w (i / r) then (some x.1, x.2) else (none, (0 : Flags))
  (k.map (·.1), k.foldl (fun f x => f ||| x.2) 0)
/-- The double-width type. -/
def ETy.wide : ETy → ETy
  | .i w => .i (2 * w) | .n w => .n (2 * w) | .f _ => .f f32
/-- vaddw and vmulw: integers exactly, floats rounded once. -/
def wideElem (iop : Int → Int → Int) (fop : FVal → FVal → FVal × Flags) (t : ETy) (a b : Nat) : Nat × Flags :=
  match t with
  | .i w => (toN (2 * w) (iop (toI w a) (toI w b)), 0)
  | .n w => (toN (2 * w) (iop a b), 0)
  | .f x => fOut f32 (fop (x.value a) (x.value b))
def vWide (i : Instr) (op : Nat) (e0 : EArgs) (s : State) (f : ETy → Nat → Nat → Nat × Flags) :=
  vRun i op e0 s (fun _ _ => (2, 1, 1)) fun sh e s g c =>
    let t := c.srcTy sh e
    Act.ofS s (readAB s g c sh e t) fun s1 (a, b) =>
      let r := guardGroup (c.guard e) 2 (2 * t.w) (List.zipWith (f t) a b)
      .done (s1.updCtx g.id c.num fun x => (x.writeGroup e.d 2 (2 * t.w) r.1).flags r.2)
def execVaddw (e : EArgs) (s : State) := vWide (.vaddw e) 0x4D e s (wideElem (· + ·) fAdd)
def execVmulw (e : EArgs) (s : State) := vWide (.vmulw e) 0x4E e s (wideElem (· * ·) fMul)

/-- Split a list into runs of r. -/
def runsOf (r : Nat) : Nat → List Nat → List (List Nat)
  | 0, _ => []
  | n + 1, l => l.take r :: runsOf r n (l.drop r)
/-- d + the sum of products, exact, then rounded once (R172). -/
def dotF (fs : Fmt) (d : Nat) (a b : List Nat) : Nat × Flags :=
  let va := a.map fs.value
  let vb := b.map fs.value
  let vd := f32.value d
  let all := vd :: va ++ vb
  let prods := List.zipWith (fun x y => if x.isNan || y.isNan then (FVal.zero false, (0 : Flags)) else mulV x y) va vb
  let start := if vd.isNan then FVal.zero false else vd
  let sum := prods.foldl (fun (t : FVal × Flags) p =>
    if t.1.isNan || p.1.isNan then (.gen, t.2 ||| p.2) else let r := addV t.1 p.1; (r.1, t.2 ||| r.2)) (start, 0)
  match all.find? FVal.isNan with
  | some v => fOut f32 (v, snan all ||| sum.2)
  | none => fOut f32 sum
def dotElem (t : ETy) (d : Nat) (a b : List Nat) : Nat × Flags :=
  match t with
  | .i w => (toN 32 ((d : Int) + (List.zipWith (fun x y => toI w x * toI w y) a b).sum), 0)
  | .n _ => ((d + (List.zipWith (· * ·) a b).sum) % 2 ^ 32, 0)
  | .f x => dotF x d a b
def execVdot (e : EArgs) (s : State) :=
  vRun (.vdot e) 0x4F e s one3 fun sh e s g c =>
    let t := c.srcTy sh e
    let r := 32 / t.w
    Act.ofS s (readAB s g c sh e t) fun s1 (a, b) =>
      let prod := List.zipWith (fun d (x : List Nat × List Nat) => dotElem t d x.1 x.2) (blockElems 32 (c.readV e.d))
        ((runsOf r 128 a).zip (runsOf r 128 b))
      let q := guardGroup (c.guard e) 1 32 prod
      .done (s1.updCtx g.id c.num fun x => (x.writeElems e.d 32 q.1).flags q.2)

/-! ### Logic and shifts (R175, R176) -/

/-- The bitwise functions see only the width: floats count as patterns. -/
def bitElem (iop : IFun) (st _dt : ETy) (_p d a b : Nat) : Nat × Flags := iop false st.w d a b
def execVand (e : EArgs) (s : State) := vMap (.vand e) 0x60 e s (bitElem bAnd)
def execVor (e : EArgs) (s : State) := vMap (.vor e) 0x61 e s (bitElem bOr)
def execVxor (e : EArgs) (s : State) := vMap (.vxor e) 0x62 e s (bitElem bXor)
def execVandn (e : EArgs) (s : State) := vMap (.vandn e) 0x63 e s (bitElem bAndn)
def execVnot (e : EArgs) (s : State) := vMap (.vnot e) 0x64 e s (bitElem bNot)
def execVshl (e : EArgs) (s : State) := vMap (.vshl e) 0x65 e s (bitElem bShl)
def execVshr (e : EArgs) (s : State) := vMap (.vshr e) 0x66 e s (bitElem bShr)
def execVsra (e : EArgs) (s : State) := vMap (.vsra e) 0x67 e s (bitElem bSra)
def execVrot (e : EArgs) (s : State) := vMap (.vrot e) 0x68 e s (bitElem bRot)
def execVpop (e : EArgs) (s : State) := vMap (.vpop e) 0x69 e s (bitElem bPop)
def execVclz (e : EArgs) (s : State) := vMap (.vclz e) 0x6A e s (bitElem bClz)
def execVbsel (e : EArgs) (s : State) := vMap (.vbsel e) 0x6B e s (bitElem bSel)
/-- A bit field by the control word (R176). -/
def bfxElem (ctl : Nat) (st _dt : ETy) (_p _d a _b : Nat) : Nat × Flags :=
  (fieldOf (match st with | .i _ => true | _ => false) st.w (ctl % 32) (ctl / 32 % 64) a, 0)
def execVbfx (e : EArgs) (s : State) := vMap (.vbfx e) 0x6C e s (bfxElem e.immU)

end Sys2Proof.Machine
end

