-- ==== Sys2Proof/Machine/VGuard.lean ====
section
/-! DEFINITION. Class E: compares, classes and guards (R177-R179). -/

namespace Sys2Proof.Machine

/-- A guard from 128 lane values. -/
def guardOf (l : List Bool) : Guard := BitVec.ofNat 128 (joinElems 1 (l.map fun b => if b then 1 else 0))
/-- Write gD in the lanes whose guard is true. -/
def Ctx.writeGuard (c : Ctx) (d : BitVec 3) (gd v : Guard) : Ctx := c.writeG d ((c.readG d &&& ~~~gd) ||| (v &&& gd))
def gReg (r : BitVec 5) : BitVec 3 := r.setWidth 3

def execVcmp (e : EArgs) (s : State) :=
  vRun (.vcmp e) 0x70 e s one3 fun sh e s g c =>
    let t := c.srcTy sh e
    let gd := c.guard e
    Act.ofS s (readAB s g c sh e t) fun s1 (a, b) =>
      let r := List.zipWith (cmpElem e.fn.toNat t) a b
      let per := max 1 (32 / t.w)
      let lanes := (List.range 128).map fun i => ((r.drop (i * per)).take per)
      let fl := lanes.zipIdx.foldl (fun (f : Flags) x =>
        if gd.getLsbD x.2 then x.1.foldl (fun f y => f ||| y.2) f else f) 0
      let v := guardOf (lanes.map fun l => l.all (·.1))
      .done (s1.updCtx g.id c.num fun x => (x.writeGuard (gReg e.d) gd v).flags fl)
/-- The class of each element, at its own width. -/
def classElem (st _dt : ETy) (_p _d a _b : Nat) : Nat × Flags :=
  (match st with | .f x => classOf x a | _ => 0, 0)
def execVclass (e : EArgs) (s : State) := vMap (.vclass e) 0x71 e s classElem

/-- The guard instructions (R179): a function of gA, gB, the guard and the immediate. -/
def vGuard (i : Instr) (op : Nat) (e0 : EArgs) (s : State) (f : Guard → Guard → Guard → Nat → Guard) :=
  vRun i op e0 s one3 fun _ e s g c =>
    let gd := c.guard e
    .done (s.updCtx g.id c.num fun x =>
      x.writeGuard (gReg e.d) gd (f (c.readG (gReg e.a)) (c.readG (gReg e.b)) gd e.immU))
def execGand (e : EArgs) (s : State) := vGuard (.gand e) 0x72 e s fun a b _ _ => a &&& b
def execGor (e : EArgs) (s : State) := vGuard (.gor e) 0x73 e s fun a b _ _ => a ||| b
def execGxor (e : EArgs) (s : State) := vGuard (.gxor e) 0x74 e s fun a b _ _ => a ^^^ b
def execGnot (e : EArgs) (s : State) := vGuard (.gnot e) 0x75 e s fun a _ _ _ => ~~~a
def execGmov (e : EArgs) (s : State) := vGuard (.gmov e) 0x76 e s fun a _ _ _ => a
/-- The lowest set bit alone. -/
def lowest (x : Guard) : Guard := x &&& (0 - x)
def execGfirst (e : EArgs) (s : State) := vGuard (.gfirst e) 0x78 e s fun a _ gd _ => lowest (a &&& gd)
def execGset (e : EArgs) (s : State) := vGuard (.gset e) 0x79 e s fun _ _ _ n => BitVec.ofNat 128 (2 ^ n - 1)
/-- Push a q6 entry where there is room. -/
def State.pushQ6 (s : State) (g : Group) (c : Ctx) (d : Word) : State := s.updCtx g.id c.num fun x => x.pushQ6 d
def execGcnt (e : EArgs) (s : State) :=
  vRun (.gcnt e) 0x77 e s one3 fun _ e s g c =>
    s.q6Room g c (.done (s.pushQ6 g c (BitVec.ofNat 64 (popCount 128 (c.readG (gReg e.a) &&& c.guard e).toNat))))

end Sys2Proof.Machine
end

