-- ==== Sys2Proof/Machine/VConv.lean ====
section
/-! DEFINITION. Class E: conversions (R180-R186). -/

namespace Sys2Proof.Machine

/-- The words of stochastic rounding for n elements: lane i mod 128 of register B + i div 128, with B's lane pattern at
the instruction's source width (R111, R181); zeros where FN names another mode. -/
def readU (s : State) (g : Group) (c : Ctx) (e : EArgs) (n ws : Nat) : SRes (List Nat) :=
  if e.fn != 5 then .ok s []
  else if uRegs n == 1 then
    (s.vSrc g c e.bsrc e.b).bind fun s1 b => .ok s1 (elems 32 128 (joinElems ws (pattern e (blockElems ws b))))
  else
    .ok s ((List.range (uRegs n)).flatMap fun k =>
      elems 32 128 (joinElems ws (pattern e (blockElems ws (c.readV (e.b + BitVec.ofNat 5 k))))))
/-- A's elements: with A's own lane pattern where no B is read. -/
def aElems (e : EArgs) (w : Nat) (a : Block) : List Nat :=
  if e.fn == 5 then blockElems w a else pattern e (blockElems w a)

/-- R181 for types whose widths an FMT register gives. -/
def uDynOk (e : EArgs) (n : Nat) : Bool := uOk e n

def execVcvt (e : EArgs) (s : State) :=
  vRun (.vcvt e) 0x80 e s
    (fun c e => (1, 1, match eShape 0x80 with
      | some sh => uRegs (4096 / max (c.srcTy sh e).w (c.dstTy sh e).w)
      | none => 1)) fun sh e s g c =>
    let st := c.srcTy sh e
    let dt := c.dstTy sh e
    let n := min (4096 / st.w) (4096 / dt.w)
    if !uDynOk e n then .raise s 0x01
    else
      Act.ofS s (s.vSrc g c e.asrc e.a) fun s1 av =>
        Act.ofS s (readU s1 g c e n st.w) fun s2 u =>
          let r := mapElems n st.w dt.w (c.guard e) (aElems e st.w av) u [] fun _ _ a x =>
            cvtElem (Rm.ofCode e.fn.toNat) x st dt a
          .done (s2.updCtx g.id c.num fun x => (x.writeElems e.d dt.w r.1).flags r.2)

/-- The ratio of widths of vwiden and vnarrow, 2 or 4, else 0 (R182). -/
def widthRatio (wide narrow : Nat) : Nat :=
  if wide == 2 * narrow then 2 else if wide == 4 * narrow then 4 else 0
/-- vwiden (R182). A group of an `fm` destination that reaches beyond the declared registers takes 0x05 before its alignment is looked at
(log 100, DESIGN CHOICE). -/
def execVwiden (e : EArgs) (s : State) :=
  vRun (.vwiden e) 0x81 e s
    (fun c e => (match eShape 0x81 with
      | some sh => max 1 (widthRatio (c.dstTy sh e).w (c.srcTy sh e).w)
      | none => 1, 1, 1)) fun sh e s g c =>
    let st := c.srcTy sh e
    let dt := c.dstTy sh e
    let r := widthRatio dt.w st.w
    if r == 0 || e.d.toNat % r != 0 then .raise s 0x01
    else
      Act.ofS s (s.vSrc g c e.asrc e.a) fun s1 av =>
        let q := guardGroup (c.guard e) r dt.w ((pattern e (blockElems st.w av)).map (cvtElem .rne 0 st dt))
        .done (s1.updCtx g.id c.num fun x => (x.writeGroup e.d r dt.w q.1).flags q.2)
def execVnarrow (e : EArgs) (s : State) :=
  vRun (.vnarrow e) 0x82 e s
    (fun c e => match eShape 0x82 with
      | some sh => (1, max 1 (widthRatio (c.srcTy sh e).w (c.dstTy sh e).w), uRegs (4096 / (c.dstTy sh e).w))
      | none => (1, 1, 1)) fun sh e s g c =>
    let st := c.srcTy sh e
    let dt := c.dstTy sh e
    let r := widthRatio st.w dt.w
    let n := 4096 / dt.w
    if r == 0 || e.a.toNat % r != 0 || !uDynOk e n then .raise s 0x01
    else
      Act.ofS s (readU s g c e n st.w) fun s1 u =>
        let a := interleave ((List.range r).map fun k => aElems e st.w (c.readV (e.a + BitVec.ofNat 5 k))) (4096 / st.w)
        let q := mapElems n st.w dt.w (c.guard e) a u [] fun _ _ a x => cvtElem (Rm.ofCode e.fn.toNat) x st dt a
        .done (s1.updCtx g.id c.num fun x => (x.writeElems e.d dt.w q.1).flags q.2)

/-! ### Packing (R183) -/

/-- A copy of A, or a repacking of it for widths 5 and 6. -/
def vPack (i : Instr) (op : Nat) (e0 : EArgs) (s : State) (f : Nat → List Nat → Block) :=
  vRun i op e0 s one3 fun sh e s g c =>
    let x := match c.srcTy sh e with | .f x => x | _ => f32
    Act.ofS s (s.vSrc g c e.asrc e.a) fun s1 av =>
      let a := pattern e (blockElems x.lane av)
      let v := if x.width == 5 || x.width == 6 then f x.width a else blockOf x.lane a
      .done (s1.updCtx g.id c.num fun x => x.writeV e.d (BitVec.allOnes 4096) v)
/-- vpack (R183). It moves the low 6 bits of each lane as they stand, of a format of width 5 the unused bit too, and vunpack clears what a
lane does not use (log 105, DEDUCED). -/
def execVpack (e : EArgs) (s : State) := vPack (.vpack e) 0x83 e s fun _ a => BitVec.ofNat 4096 (joinElems 6 (a.map (· % 64)))
def execVunpack (e : EArgs) (s : State) :=
  vPack (.vunpack e) 0x84 e s fun w a => blockOf 8 ((elems 6 512 (joinElems 8 (a.take 384))).map (· % 2 ^ w))

/-! ### Scaling and quantisation (R184, R185) -/

/-- a x 2^n, rounded once. -/
def scaleElem (st _dt : ETy) (_p _d a b : Nat) : Nat × Flags :=
  match st with
  | .f x =>
    fOut x (match x.value a with
      | .fin s m e => (.fin s m (e + toI x.width b), 0)
      | v => (v, snan [v]))
  | _ => (0, 0)
def execVscale (e : EArgs) (s : State) := vMap (.vscale e) 0x85 e s scaleElem

/-- Elements of a scale block. -/
def scaleBlock (bscale : Nat) : Nat := if bscale == 2 then 16 else 32
/-- emax of R37: the exponent of the largest finite value. -/
def emaxOf (d : Nat) : Int :=
  match (fmtOf d).value (fmtOf d).maxCode with
  | .fin _ m e => if m == 0 then Config.zeroEmax d else topExp m e
  | _ => 0
/-- The scale code of a block (R37). -/
def blockScale (d : Nat) (l : List FVal) : Nat :=
  let tops := l.filterMap fun v => match v with | .fin _ m e => if m == 0 then none else some (topExp m e) | _ => none
  match tops with
  | [] => 127
  | t :: r => (max 0 (min 254 (r.foldl max t - emaxOf d + 127))).toNat
def execVqnt (e : EArgs) (s : State) :=
  vRun (.vqnt e) 0x86 e s one3 fun sh e s g c =>
    let d := (c.csr.fmt[e.dfmt.toNat]).toNat
    let dt := c.dstTy sh e
    let gd := c.guard e
    if bscaleOf d == 0 then .raise s 0x01
    else
      Act.ofS s (s.vSrc g c e.asrc e.a) fun s1 av =>
        Act.ofS s (readU s1 g c e 128 32) fun s2 u =>
          let k := scaleBlock (bscaleOf d)
          let vals := (aElems e 32 av).map f32.value
          let scales := (runsOf k (128 / k) (List.range 128)).map fun is =>
            blockScale d (is.filterMap fun i => if enabled gd dt.w i then vals[i]? else none)
          let scaled := vals.zipIdx.map fun (v, i) =>
            match v with
            | .fin s m e => FVal.fin s m (e - ((scales.getD (i / k) 127 : Nat) : Int) + 127)
            | v => v
          let t := scaled.toArray
          let q := mapElems 128 32 dt.w gd (List.range (4096 / dt.w)) u [] fun _ _ i x =>
            match dt with
            | .f fd => fd.convert (Rm.ofCode e.fn.toNat) x (t.getD i .gen)
            | _ => (0, 0)
          s.q6Room g c (.done ((s2.updCtx g.id c.num fun x => (x.writeElems e.d dt.w q.1).flags q.2).pushQ6 g c
            (BitVec.ofNat 64 (joinElems 8 scales))))

/-- fmtld (R65, R186): the record's fmt with its clamp put in. A pattern permutes its operand as 32-bit elements (log 111, DESIGN
CHOICE). -/
def execFmtld (e : EArgs) (s : State) :=
  vRun (.fmtld e) 0x87 e s one3 fun _ e s g c =>
    Act.ofS s (s.vSrc g c e.asrc e.a) fun s1 av =>
      let r := (joinElems 32 (pattern e (blockElems 32 av)))
      let v := bits r 31 0 + bits r 239 224 * 2 ^ 32 + bits r 63 48 * 2 ^ 48
      .done (s1.updCtx g.id c.num fun x =>
        { x with csr := { x.csr with fmt := x.csr.fmt.set (e.d.toNat % 16) (BitVec.ofNat 64 v) (Nat.mod_lt _ (by decide)) } })

end Sys2Proof.Machine
end

