-- ==== Sys2Proof/Machine/VMove.lean ====
section
/-! DEFINITION. Class E: data movement (R187-R192). -/

namespace Sys2Proof.Machine

def execVmov (e : EArgs) (s : State) := vMap (.vmov e) 0x90 e s fun _ _ _ _ a _ => (a, 0)
/-- Every element takes a value that depends on its position (vsplat, vidx): no source is read. -/
def vFill (i : Instr) (op : Nat) (e0 : EArgs) (s : State) (ok : ETy → Bool) (f : ETy → Nat → Nat) :=
  vRun i op e0 s one3 fun sh e s g c =>
    let t := c.srcTy sh e
    if !ok t then .raise s 0x01
    else
      let r := mapElems (4096 / t.w) t.w t.w (c.guard e) [] [] [] fun p _ _ _ => (f t p, 0)
      .done (s.updCtx g.id c.num fun x => x.writeElems e.d t.w r.1)
def execVsplat (e : EArgs) (s : State) :=
  vFill (.vsplat e) 0x91 e s (fun t => e.immU < 2 ^ t.w) fun t _ => t.code e.immU
def execVidx (e : EArgs) (s : State) := vFill (.vidx e) 0x9C e s (fun _ => true) fun t p => toN t.w (e.immI + p)

/-- Permutation by indices in B (R188). -/
def execVperm (e : EArgs) (s : State) :=
  vRun (.vperm e) 0x92 e s one3 fun sh e s g c =>
    let t := c.srcTy sh e
    Act.ofS s (readAB s g c sh e t) fun s1 (a, b) =>
      let tab := a.toArray
      let n := 4096 / t.w
      let r := mapElems n t.w t.w (c.guard e) [] b [] fun _ _ _ x => (tab.getD (x % n) 0, 0)
      .done (s1.updCtx g.id c.num fun x => x.writeElems e.d t.w r.1)

/-- One element to q6, sign-extended for the i types (R188). -/
def execVext (e : EArgs) (s : State) :=
  vRun (.vext e) 0x93 e s one3 fun sh e s g c =>
    let t := c.srcTy sh e
    if 4096 / t.w ≤ e.immU then .raise s 0x01
    else
      Act.ofS s (s.vSrc g c e.asrc e.a) fun s1 av =>
        let x := (pattern e (t.elems av)).getD e.immU 0
        let v := match t with | .i w => toN 64 (toI w x) | _ => x
        s.q6Room g c (.done (s1.pushQ6 g c (BitVec.ofNat 64 v)))
/-- One element from q7. -/
def execVins (e : EArgs) (s : State) :=
  vRun (.vins e) 0x94 e s one3 fun sh e s g c =>
    let t := c.srcTy sh e
    if 4096 / t.w ≤ e.immU then .raise s 0x01
    else
      Act.ofS s (s.q7Src g c) fun s1 q =>
        let r := (List.range (4096 / t.w)).map fun p =>
          if p == e.immU && enabled (c.guard e) t.w p then some (t.code (q.toNat % 2 ^ t.w)) else none
        .done (s1.updCtx g.id c.num fun x => x.writeElems e.d t.w r)
/-- Every enabled element from one q7 entry. -/
def execVpull (e : EArgs) (s : State) :=
  vRun (.vpull e) 0x9E e s one3 fun sh e s g c =>
    let t := c.srcTy sh e
    Act.ofS s (s.q7Src g c) fun s1 q =>
      let r := mapElems (4096 / t.w) t.w t.w (c.guard e) [] [] [] fun _ _ _ _ => (t.code (q.toNat % 2 ^ t.w), 0)
      .done (s1.updCtx g.id c.num fun x => x.writeElems e.d t.w r.1)
/-- The mint at base + position (R192). -/
def execVmint (e : EArgs) (s : State) :=
  vRun (.vmint e) 0x9B e s one3 fun sh e s g c =>
    let t := c.srcTy sh e
    Act.ofS s (s.q7Src g c) fun s1 q =>
      let key := q.toNat % 2 ^ 32
      let base := q.toNat / 2 ^ 32
      let r := mapElems (4096 / t.w) t.w t.w (c.guard e) [] [] [] fun p _ _ _ =>
        (if t.w == 32 then mint32 key ((base + p) % 2 ^ 32) else mint16 (key % 2 ^ 16) ((base + p) % 2 ^ 16), 0)
      .done (s1.updCtx g.id c.num fun x => x.writeElems e.d t.w r.1)
/-- The guard selects A or B; every element is written (R187). -/
def execVsel (e : EArgs) (s : State) :=
  vRun (.vsel e) 0x95 e s one3 fun sh e s g c =>
    let t := c.srcTy sh e
    Act.ofS s (readAB s g c sh e t) fun s1 (a, b) =>
      let r := mapElems (4096 / t.w) t.w t.w (BitVec.allOnes 128) a b [] fun p _ x y =>
        (if enabled (c.guard e) t.w p then x else y, 0)
      .done (s1.updCtx g.id c.num fun x => x.writeElems e.d t.w r.1)

/-- Enabled elements moved down (R189). -/
def execVcompress (e : EArgs) (s : State) :=
  vRun (.vcompress e) 0x96 e s one3 fun sh e s g c =>
    let t := c.srcTy sh e
    Act.ofS s (readAB s g c sh e t) fun s1 (a, _) =>
      let kept := (a.zipIdx.filter fun x => enabled (c.guard e) t.w x.2).map (·.1)
      let r := (kept ++ List.replicate (4096 / t.w - kept.length) 0).map some
      .done (s1.updCtx g.id c.num fun x => x.writeElems e.d t.w r)
/-- Elements 0, 1, 2 ... moved up to the enabled positions. -/
def expandTo (gd : Guard) (w : Nat) : Nat → Nat → List Nat → List (Option Nat)
  | 0, _, _ => []
  | n + 1, p, l =>
    if enabled gd w p then some (l.headD 0) :: expandTo gd w n (p + 1) l.tail else none :: expandTo gd w n (p + 1) l
def execVexpand (e : EArgs) (s : State) :=
  vRun (.vexpand e) 0x97 e s one3 fun sh e s g c =>
    let t := c.srcTy sh e
    Act.ofS s (readAB s g c sh e t) fun s1 (a, _) =>
      .done (s1.updCtx g.id c.num fun x => x.writeElems e.d t.w (expandTo (c.guard e) t.w (4096 / t.w) 0 a))

/-! ### Scans and reductions (R48, R49, R190) -/

/-- The operation of the B field on two elements. -/
def redOp (op : Nat) (t : ETy) (a b : Nat) : Nat × Flags :=
  match op with
  | 0 => elem iAdd (fun _ x y => fAdd x y) t t 0 0 a b
  | 1 => elem iMin (fun _ x y => fMinMax false x y) t t 0 0 a b
  | _ => elem iMax (fun _ x y => fMinMax true x y) t t 0 0 a b
/-- The identity that replaces a guarded-off element (R48). -/
def redId (op : Nat) (t : ETy) : Nat :=
  match t with
  | .i w => match op with | 0 => 0 | 1 => 2 ^ (w - 1) - 1 | _ => 2 ^ (w - 1)
  | .n w => match op with | 1 => 2 ^ w - 1 | _ => 0
  | .f x =>
    match op with
    | 0 => x.pack true 0
    | 1 => if x.spec == 1 then x.infCode false else x.maxCode
    | _ => if !x.s then 0 else if x.spec == 1 then x.infCode true else x.pack true x.maxCode
/-- One level of the pairwise tree. -/
def redLevel (op : Nat) (t : ETy) : List Nat → List Nat × Flags
  | a :: b :: r =>
    let x := redOp op t a b
    let y := redLevel op t r
    (x.1 :: y.1, x.2 ||| y.2)
  | l => (l, 0)
def redTree (op : Nat) (t : ETy) : Nat → List Nat × Flags → List Nat × Flags
  | 0, l => l
  | n + 1, l => let r := redLevel op t l.1; redTree op t n (r.1, l.2 ||| r.2)
/-- One step of the scan at distance d. -/
def scanStep (op : Nat) (t : ETy) (d : Nat) (l : List Nat) : List Nat × Flags :=
  let r := List.zipWith (redOp op t) (l.drop d) l
  (l.take d ++ r.map (·.1), r.foldl (fun f x => f ||| x.2) 0)
def scanAll (op : Nat) (t : ETy) : Nat → Nat → List Nat × Flags → List Nat × Flags
  | 0, _, l => l
  | n + 1, d, l => let r := scanStep op t d l.1; scanAll op t n (2 * d) (r.1, l.2 ||| r.2)
/-- The operand of vscan and vred, identities in place. -/
def redInput (gd : Guard) (op : Nat) (t : ETy) (a : List Nat) : List Nat :=
  a.zipIdx.map fun (x, p) => if enabled gd t.w p then x else redId op t
/-- vscan and vred: A's pattern applies, since B holds the operation. -/
def vReduce (i : Instr) (opc : Nat) (e0 : EArgs) (s : State) (f : Nat → ETy → List Nat → List Nat × Flags) :=
  vRun i opc e0 s one3 fun sh e s g c =>
    let t := c.srcTy sh e
    Act.ofS s (readAB s g c sh e t) fun s1 (a, _) =>
      let op := e.b.toNat
      let r := f op t (redInput (c.guard e) op t a)
      .done (s1.updCtx g.id c.num fun x => (x.writeElems e.d t.w (r.1.map some)).flags r.2)
def execVscan (e : EArgs) (s : State) :=
  vReduce (.vscan e) 0x98 e s fun op t l => scanAll op t (Nat.log2 (4096 / t.w)) 1 (l, 0)
def execVred (e : EArgs) (s : State) :=
  vReduce (.vred e) 0x99 e s fun op t l =>
    let r := redTree op t (Nat.log2 (4096 / t.w)) (l, 0)
    (r.1.headD 0 :: List.replicate (4096 / t.w - 1) 0, r.2)

/-! ### vtopk (R191) -/

/-- The rank of an element: larger is ranked first; a NaN above every number. -/
def topRank (t : ETy) (x : Nat) : Nat :=
  match t with
  | .i w => (toI w x).natAbs
  | .n _ => x
  | .f f => if (f.value x).isNan then 2 ^ f.width else x % 2 ^ (f.width - 1)
/-- Put (rank, position, pattern) behind every entry that ranks at least as high. -/
def topInsert (a : Nat × Nat × Nat) : List (Nat × Nat × Nat) → List (Nat × Nat × Nat)
  | [] => [a]
  | b :: r => if a.1 ≤ b.1 then b :: topInsert a r else a :: b :: r
def execVtopk (e : EArgs) (s : State) :=
  vRun (.vtopk e) 0x9A e s (fun _ _ => (2, 1, 1)) fun sh e s g c =>
    let t := c.srcTy sh e
    Act.ofS s (readAB s g c sh e t) fun s1 (a, _) =>
      let l := (a.zipIdx.filter fun x => enabled (c.guard e) t.w x.2).map fun (x, p) => (topRank t x, p, x)
      let top := (l.foldl (fun (acc : List (Nat × Nat × Nat)) x => topInsert x acc) []).take e.immU
      let rest := 4096 / t.w - top.length
      .done (s1.updCtx g.id c.num fun x =>
        (x.writeElems e.d t.w ((top.map (fun (x : Nat × Nat × Nat) => x.2.2) ++ List.replicate rest 0).map some)).writeElems (e.d + 1) t.w
          ((top.map (fun (x : Nat × Nat × Nat) => x.2.1) ++ List.replicate rest (2 ^ t.w - 1)).map some))

/-- Push a whole block to q4 or q5 (R188). -/
def execVpush (e : EArgs) (s : State) :=
  vRun (.vpush e) 0x9D e s one3 fun _ e s g c =>
    let n : Fin 6 := Fin.ofNat 6 e.d.toNat
    if c.queues.full n.val then .wait s (.queue n.val false)
    else
      Act.ofS s (s.vSrc g c e.asrc e.a) fun s1 av =>
        .done (s1.updCtx g.id c.num fun x => x.pushBlock n (blockOf 32 (pattern e (blockElems 32 av))))

end Sys2Proof.Machine
end

