-- ==== Sys2Proof/Machine/VScratch.lean ====
section
/-! DEFINITION. Class E: k pointers and scratch access (R193-R197), the repetition buffer (R132-R134, R198), accumulators
(R199-R201), textures (R202, R275, R276), coverage (R203). -/

namespace Sys2Proof.Machine

def execKset (k : BitVec 3) (addr : BitVec 32) (stride : BitVec 16) (hint : BitVec 7) (s : State) :=
  runE (.kset k addr stride hint) s fun s g c =>
    .done (s.updCtx g.id c.num fun x => x.writeK k addr.toNat stride.toNat)
def execKget (e : EArgs) (s : State) :=
  vRun (.kget e) 0xA1 e s one3 fun _ e s g c =>
    s.q6Room g c (.done (s.pushQ6 g c (BitVec.ofNat 64 ((c.readK (gReg e.a)).toNat % 2 ^ 48))))

/-! ### Blocks -/

def execVlds (e : EArgs) (s : State) :=
  vRun (.vlds e) 0xA2 e s one3 fun sh e s g c =>
    let t := c.srcTy sh e
    Act.ofS s (s.kRead g c (gReg e.a)) fun s1 b =>
      let r := (blockElems t.w b).zipIdx.map fun (x, p) => if enabled (c.guard e) t.w p then some x else none
      .done (s1.updCtx g.id c.num fun x => x.writeElems e.d t.w r)
/-- Write enabled words at a checked spot (R195): each word with its lane. -/
def State.storeWords (s : State) (g : Group) (c : Ctx) (l : List (Nat × Nat)) : State :=
  let s1 := s.noteWords (c.who true pathCore) .write (l.map (·.1)) fun _ => 4
  let s2 := s1.updCtx g.id c.num fun x => x.looseStore s1 true false (l.map fun x => (x.1 * 4, bytesOfNat 4 x.2))
  l.foldl (fun (s : State) x => s.wr (x.1 * 4) 4 x.2) s2
/-- A [kN+] destination: the enabled lanes of 512 bytes, then the pointer advances (R194, R195). -/
def State.kWrite (s : State) (g : Group) (c0 : Ctx) (k : BitVec 3) (gd : Guard) (d : Block) : SRes Unit :=
  let c := s.ctxOf g c0
  let a := c.kAddr k
  let step := fun (s : State) =>
    s.updCtx g.id c.num fun x => x.writeK k (toN 32 (a + c.kStride k)) (toN 16 (c.kStride k))
  match probeLocal g c true a 512 64 with
  | .trap cause => .trap cause (BitVec.ofNat 64 a)
  | .page _ _ => .trap 0x12 (BitVec.ofNat 64 a)
  | .at (.win img off) =>
    let mask := resultMask 32 ((List.range 128).map fun i => if gd.getLsbD i then some 0 else none)
    .ok (step (s.updCtx g.id c.num fun x => x.winWrite img off 512 d.toNat mask)) ()
  | .at (.mem key _ _ _) =>
    let l := ((blockElems 32 d).zipIdx.filter fun x => gd.getLsbD x.2).map fun x => (key / 4 + x.2, x.1)
    match s.checkWords (c.who true pathCore) .write (l.map (·.1)) (fun _ => 4) false with
    | some cause => .trap cause (BitVec.ofNat 64 a)
    | none => .ok (step (s.storeWords g c l)) ()
def execVsts (e : EArgs) (s : State) :=
  vRun (.vsts e) 0xA3 e s one3 fun sh e s g c =>
    let t := c.srcTy sh e
    let r := (s.vSrc g c e.asrc e.a).bind fun s1 av =>
      s1.kWrite g c (gReg e.d) (c.guard e) (blockOf t.w (pattern e (blockElems t.w av)))
    Act.ofS s r fun s2 _ => .done s2

/-! ### Single lanes (R196) -/

/-- The check of one lane's address, before any lane takes effect. -/
def laneSpot (g : Group) (la : Nat) : Except Nat Nat :=
  if la % 4 != 0 then .error 0x15
  else
    match placeLocal g la 4 with
    | some (.win _ _) => .error 0x05
    | some (.mem key _ _ _) => .ok key
    | none => .error 0x12
/-- The keys of the enabled lanes (lane, key), or the cause and the address of the lowest lane that fails the first check that
some lane fails: alignment, then the window, then the range (R196). Log 34. -/
def lanesOf (g : Group) (gd : Guard) (base : Nat) (l : List (Nat × Nat)) : Except (Nat × Nat) (List (Nat × Nat)) :=
  let on := (l.filter fun x => gd.getLsbD x.2).map fun x => (x.2, (base + x.1) % 2 ^ 32)
  let fails := fun (cause : Nat) (x : Nat × Nat) => match laneSpot g x.2 with | .error q => q == cause | .ok _ => false
  match [0x15, 0x05, 0x12].findSome? fun cause => (on.find? (fails cause)).map fun x => (cause, x.2) with
  | some e => .error e
  | none => .ok (on.filterMap fun x => match laneSpot g x.2 with | .ok key => some (x.1, key) | .error _ => none)
/-- The race check of the lanes. -/
def State.lanesCheck (s : State) (c : Ctx) (k : Kind) (base : Nat) (b : List Nat) (l : List (Nat × Nat)) :
    Option (Nat × Nat) :=
  l.findSome? fun (i, key) =>
    (s.checkWords (c.who true pathCore) k [key / 4] (fun _ => 4) false).map fun cause =>
      (cause, (base + b.getD i 0) % 2 ^ 32)
/-- The lanes of a vldsx, words of one access, have found so many of the access stream's stores (R197). -/
def State.foundLoose (s : State) (g : Group) (c : Ctx) (l : List (Nat × Nat)) (saw : List (Nat × Nat) × Nat) : State :=
  if (s.ctxOf g c).loose.isEmpty then s
  else { s.updCtx g.id c.num (fun x => x.sawLoose true saw.1 (l.map fun y => (y.2, 4))) with free := saw.2 }
/-- vldsx (R196). A pattern applies to B, its only vector source (log 95, DEDUCED). -/
def execVldsx (e : EArgs) (s : State) :=
  vRun (.vldsx e) 0xA4 e s one3 fun _ e s g c =>
    let base := c.kAddr (gReg e.a)
    Act.ofS s (s.vSrc g c e.bsrc e.b) fun s1 bv =>
      let b := pattern e (blockElems 32 bv)
      match lanesOf g (c.guard e) base b.zipIdx with
      | .error (cause, la) => .failE s cause (BitVec.ofNat 64 la)
      | .ok l =>
        match s1.lanesCheck c .read base b l with
        | some (cause, la) => .failE s cause (BitVec.ofNat 64 la)
        | none =>
          let c1 := s1.ctxOf g c
          let saw := c1.pickLoose true (l.map fun x => x.2 / 4).dedup s1.free
          let r := l.foldl (fun (acc : List (Nat × Nat) × State) (x : Nat × Nat) =>
            let s2 := acc.2.noteWords (c.who true pathCore) .read [x.2 / 4] fun _ => 4
            let (v, tick, s3) := s2.plainRead g.id c.num x.2 4 (c1.looseValue true saw.1 x.2 4 (s2.rd x.2 4))
            ((x.1, v) :: acc.1, s3.noteEarlyE g c x.2 4 tick)) (([] : List (Nat × Nat)), s1.foundLoose g c l saw)
          let out := (List.range 128).map fun i => (r.1.find? fun x => x.1 == i).map (·.2)
          .done (r.2.updCtx g.id c.num fun x => x.writeElems e.d 32 out)
/-- vstsx (R196). Where A or B is the pointer kD with an advance, the base is kD before it (log 99, DESIGN CHOICE). -/
def execVstsx (e : EArgs) (s : State) :=
  vRun (.vstsx e) 0xA5 e s one3 fun sh e s g c =>
    let base := c.kAddr (gReg e.d)
    Act.ofS s (readAB s g c sh e (.n 32)) fun s1 (a, b) =>
      match lanesOf g (c.guard e) base b.zipIdx with
      | .error (cause, la) => .failE s cause (BitVec.ofNat 64 la)
      | .ok l =>
        match s1.lanesCheck c .write base b l with
        | some (cause, la) => .failE s cause (BitVec.ofNat 64 la)
        | none => .done (s1.storeWords g c (l.map fun (i, key) => (key / 4, a.getD i 0)))

/-! ### The repetition buffer -/

/-- What a look at a rep's body finds: nothing amiss, the first instruction that may not stand in it, a page that is not mapped, or
a home where its fetch waits (R133, R98, R211). -/
inductive RepScan where
  | clear
  | bad (pc : Word)
  | page (s : State) (va : Nat) (malformed : Bool)
  | busy (s : State) (bank : Bool)
/-- The opcode and the size of what stands at pc, as its first parcel has them (R96, R115); none where that may not be fetched or has no
length. -/
def State.opcodeAt (s : State) (g : Group) (c : Ctx) (pc : Word) : Option (Nat × Nat) :=
  match s.fetchProbe g c pc with
  | .at (.mem key _ _ _) =>
    let p := BitVec.ofNat 32 (s.codeAt g c key)
    (parcelCount p).map fun n => (bits p.toNat 9 2, 4 * n)
  | _ => none
/-- The opcodes that may not stand in the body of a rep: control flow, and rep itself. -/
def notInBody (op : Nat) : Bool := (0x20 ≤ op && op ≤ 0x27) || op == 0xA6
/-- Look for a control-flow instruction or a rep before the n-th class-E instruction from pc on, which stands at place `q` of the
sequence (R133). Where one does not decode its opcode says what it is (R115); the scan ends where its length cannot be known. Log 20. -/
def State.repScan (s : State) (g : Group) (c : Ctx) : Nat → Nat → Nat → Word → RepScan
  | 0, _, _, _ => .clear
  | _, 0, _, _ => .clear
  | fuel + 1, n + 1, q, pc =>
    match s.fetchSeq g c q pc with
    | .instr _ i =>
      match i with
      | .rep _ _ _ => .bad pc
      | _ =>
        if i.isFlow then .bad pc
        else s.repScan g c fuel (if i.isExec then n else n + 1) (q + 1) (offPtr pc i.size)
    | .page s1 va m => .page s1 va m
    | .busy s1 bank => .busy s1 bank
    | _ =>
      match s.opcodeAt g c pc with
      | none => .clear
      | some (op, size) =>
        if notInBody op then .bad pc
        else s.repScan g c fuel (if isExecOp (BitVec.ofNat 8 op) then n else n + 1) (q + 1) (offPtr pc size)
/-- As many parcels as a region has. -/
def repFuel : Nat := 2 ^ 54
def execRep (n : BitVec 5) (count : BitVec 13) (stride : BitVec 5) (s : State) :=
  runE (.rep n count stride) s fun s g c =>
    let ok := 1 ≤ n.toNat && n.toNat ≤ 16 && 1 ≤ count.toNat && count.toNat ≤ 4096
    let next := offPtr c.pcE 8
    if !ok then .trap s 0x06 (some c.pcE) true
    else
      match s.repScan g c repFuel n.toNat (c.seqE + 1) next with
      | .bad pc => .trap s 0x06 (some pc) true
      | .page s1 va m => .wait (s1.hold g c true (BitVec.ofNat 64 va) m) .page
      | .busy s1 bank => .wait (s1.bankWaitE g c bank) .bank
      | .clear =>
        .goto (s.updCtx g.id c.num fun x =>
          { x with rep := some { body := next, seq := c.seqE + 1, n := n.toNat, count := count.toNat,
                                 stride := stride.toNat, pass := 0, idx := 0 } }) next

/-! ### Accumulators -/

/-- The tile of a handle; cause 0x01 for one that the kernel does not declare (R199). -/
def tileOf (s : State) (g : Group) (z : Nat) (k : Nat → Act) : Act :=
  match g.tiles[z]? with
  | some t => if z < kAcc g.kobj then k t else .raise s 0x01
  | none => .raise s 0x01
def Tile.at (t : Tile) (r n : Nat) : Acc := (alGet t.elems (128 * r + n)).getD { val := 0, sat := false, spc := false }
def State.tile (s : State) (cl t : Nat) : Tile := (s.cluster cl).tiles[t % 24]
/-- The first zmov of an inherited tile waits until the predecessor's commands have completed and left the queue (R340). -/
def State.tilePending (s : State) (g : Group) (t : Nat) : Bool :=
  match alGet g.handed t with
  | some tick => (s.jobs (clusterOf g.core) .mxe).any fun j =>
      j.tile? == some t && (j.senders.any (fun x => x.gid == g.id && x.tick < tick) || (j.senders.isEmpty && j.pos < tick))
  | none => false
/-- One element as zmov delivers it (R201). -/
def zmovElem (fn part : Nat) (w : Int) (a : Acc) : Nat × Flags :=
  if fn == 7 then (toN 96 a.val / 2 ^ (32 * part) % 2 ^ 32, 0)
  else
    let f := if fn == 0 then f32 else if fn == 1 then bf16 else f16
    if a.spc then (f.genNan, 0) else f.round .rne 0 (.fin (a.val < 0) a.val.natAbs w)
def execZmov (e : EArgs) (s : State) :=
  vRun (.zmov e) 0xA7 e s one3 fun _ e s g c =>
    tileOf s g e.a.toNat fun t =>
      if s.tilePending g t then .wait s (.other false)
      else
        let tl := s.tile (clusterOf g.core) t
        let row := e.immU % 128
        let w := if e.fn == 0 || e.fn == 7 then 32 else 16
        let win := if tl.count == 0 then 0 else tl.window
        let r := mapElems 128 w w (c.guard e) (List.range (4096 / w)) [] [] fun p _ _ _ =>
          zmovElem e.fn.toNat (e.immU / 128) win (tl.at row p)
        s.q6Room g c (.done (((s.updGroup g.id fun x => { x with handed := alDel x.handed t }).updCtx g.id c.num
          fun x => (x.writeElems e.d w r.1).flags r.2).pushQ6 g c (BitVec.ofNat 64 tl.count)))

/-- A command that zset enters into the MXE's queue: it reads no memory and has no job record that waits for it (R200). Its pos is
when. -/
def zJob (s : State) (g : Group) (c : Ctx) (cmd : Cmd) : Job :=
  { Job.new s.nextAgent cmd g.vf c.csr.bndt (some g.launch) s.cyc s.phcSec with
    pos := s.tick,
    senders := [{ gid := g.id, core := g.core, ctx := c.num, agent := c.sync.agent, record := 0, ev := 0, sync := c.sync,
                  rel := c.relTag, tick := s.tick, live := false }] }
/-- The places of an engine's queue (R234). -/
def queuePlaces : Nat := 32
/-- Whose turn a core's message has among those that reach the queue in one cycle (R234): class T, then the other cores in
round-robin order behind the one served last, then the mesh stop. -/
def State.arbRank (s : State) (cl before gid core : Nat) : Nat :=
  if clusterOf core != cl then 16
  else (if (s.group? gid).any (fun g => g.cls == 0) then 0 else 8) + (core + 7 - before) % 8
def State.jobRank (s : State) (cl before : Nat) (j : Job) : Nat :=
  match j.senders.head? with
  | none => 16
  | some x => s.arbRank cl before x.gid x.core
/-- The arbitration of a queue in this cycle. -/
def State.arbNow (s : State) (cl : Nat) (e : Eng) : Arb :=
  let a := (s.cluster cl).arb[(engIndex e)]
  if a.cyc == s.cyc then a else { a with before := a.last, cyc := s.cyc }
/-- An engine takes a message: its queue has room (R234), and no cload has stopped it (R278). -/
def State.accepts (s : State) (cl : Nat) (e : Eng) : Bool :=
  (s.jobs cl e).length < queuePlaces &&
    !s.groups.any fun g => g.runs && g.ctxs.any fun c => c.loading == some (cl, e)
/-- Since when a stream asks for a place in a queue. -/
def askedAt (a : Option (Nat × Nat × Eng)) (cl : Nat) (e : Eng) : Option Nat :=
  match a with
  | some (t, x, y) => if x == cl && y == e then some t else none
  | none => none
/-- The messages that ask for a place in a queue: the rank of each, and since when. -/
def State.asks (s : State) (cl : Nat) (e : Eng) : List (Nat × Nat) :=
  (s.groups.filter (·.runs)).flatMap fun g => g.ctxs.flatMap fun c => [c.askA, c.askE].filterMap fun a =>
    (askedAt a cl e).map fun t => (s.arbRank cl (s.arbNow cl e).before g.id g.core, t)
/-- A queue has a place beyond those that these of the messages that ask for one will take. -/
def State.roomBehind (s : State) (cl : Nat) (e : Eng) (ahead : Nat × Nat → Bool) : Bool :=
  s.accepts cl e && ((s.asks cl e).filter ahead).length + (s.jobs cl e).length < queuePlaces
/-- A core's message enters a queue at once where a cycle's nine, of eight cores and of the mesh stop, would all find a place. Where they
might not, it asks for one, and of those that have asked in the cycles before, the first in R234's order take what is free (log 82). -/
def State.mayEnter (s : State) (cl : Nat) (e : Eng) (g : Group) (asked : Option Nat) : Bool :=
  (s.accepts cl e && ((s.jobs cl e).filter fun j => j.arrived != s.cyc).length + 9 ≤ queuePlaces) ||
    (match asked with
     | none => false
     | some t =>
       let rank := s.arbRank cl (s.arbNow cl e).before g.id g.core
       t < s.cyc && s.roomBehind cl e fun (r, u) => u < s.cyc && (r < rank || (r == rank && u < t)))
/-- Ask for a place, from this cycle on unless the stream asks for it already. -/
def State.askFor (s : State) (asked : Option Nat) (cl : Nat) (e : Eng) : Option (Nat × Nat × Eng) := some (asked.getD s.cyc, cl, e)
/-- A job enters a queue that is in order of arrival. -/
def enterJob (rank : Job → Nat) (j : Job) (q : List Job) : List Job :=
  let before := fun (y : Job) =>
    !(y.phase == .queued && (j.arrived < y.arrived || (j.arrived == y.arrived && rank j < rank y)))
  q.takeWhile before ++ j :: q.dropWhile before
/-- A job's message reaches its queue (R234), through the combining node in this cycle, or through the mesh stop in the first that
has room for it (log 82). -/
def State.enter (s : State) (cl : Nat) (e : Eng) (mesh : Bool) (j : Job) : State :=
  let a := s.arbNow cl e
  let when := if mesh then max s.cyc a.mesh else s.cyc
  let q := enterJob (s.jobRank cl a.before) { j with arrived := when, arrivedSec := s.secIn (when - s.cyc) } (s.jobs cl e)
  let served := (q.filter fun y => y.arrived == s.cyc && s.jobRank cl a.before y < 16).getLast?.bind fun y =>
    y.senders.head?.map fun x => x.core % 8
  let a' : Arb := if mesh then { a with mesh := when + 1 } else { a with last := served.getD a.last }
  (s.setJobs cl e q).updCluster cl fun k => { k with arb := k.arb.set (engIndex e) a' }
def execZset (e : EArgs) (s : State) :=
  vRun (.zset e) 0xA8 e s one3 fun _ e s g c =>
    tileOf s g e.d.toNat fun t =>
      let cl := clusterOf g.core
      let asked := askedAt c.askE cl .mxe
      if !s.mayEnter cl .mxe g asked then
        .wait (s.updCtx g.id c.num fun x => { x with askE := s.askFor asked cl .mxe }) (.other false)
      else if e.fn == 0 then .done (s.enter cl .mxe false (zJob s g c (.zclr t)))
      else
        Act.ofS s (s.vSrc g c e.asrc e.a) fun s1 av =>
          let d := blockOf 32 (pattern e (blockElems 32 av))
          .done (s1.enter cl .mxe false (zJob s1 g c (.zrow t (e.immU % 128) d)))

/-! ### Textures -/

/-- floor(u x 2^k) of a coordinate, limited by the wrap mode to 0 … W - 1 (R276). -/
def texCoord (u : FVal) (rep : Bool) (W : Nat) : Nat :=
  let lim := fun (x : Int) => if rep then (x % W).toNat else (max 0 (min ((W : Int) - 1) x)).toNat
  match u with
  | .fin s m e =>
    let e' := e + Nat.log2 W
    let y := (roundAt .rd 0 s m e' 0).1
    lim (if s then -(y : Int) else y)
  | .inf s => if rep then 0 else if s then 0 else W - 1
  | _ => 0
/-- A texture descriptor's fields and whether it is usable for a level (R275, R276). -/
structure TexDesc where
  base : Nat
  lstride : Nat
  lw : Nat
  lh : Nat
  levels : Nat
  rep : Bool
  ok : Bool
def texDesc (d : Nat) : TexDesc :=
  let lw := bits d 131 128
  let lh := bits d 135 132
  let levels := bits d 139 136
  let big := 2 ≤ levels && bits d 127 64 < 4 * 2 ^ lw * 2 ^ lh
  { base := bits d 63 0, lstride := bits d 127 64, lw := lw, lh := lh, levels := levels, rep := bits d 141 140 == 1,
    ok := bit d 142 && bits d 511 143 == 0 && bits d 141 140 < 2 && lw ≤ 14 && lh ≤ 14 && !big &&
      bits d 18 0 == 0 && bits d 82 64 == 0 }
/-- The pointer of a texel of a level. -/
def TexDesc.texel (t : TexDesc) (l : Nat) (u v : FVal) : Word :=
  let W := 2 ^ (t.lw - l)
  let H := 2 ^ (t.lh - l)
  offPtr (BitVec.ofNat 64 t.base) ((l * t.lstride + 4 * W * texCoord v t.rep H + 4 * texCoord u t.rep W : Nat) : Int)
/-- What the fetch of one lane comes to: texel, status and level, a wait, or a trap of the memory model. -/
inductive TexRes where
  | ok (s : State) (texel status level : Nat)
  | wait (s : State) (w : Wait)
  | trap (s : State) (cause : Nat)
/-- Try the levels from l on (R276): the first whose page is mapped. A texel in the side log or in a busy bank is waited for (R154,
R211). -/
def State.texFetch (s : State) (g : Group) (c : Ctx) (t : TexDesc) (want : Nat) (u v : FVal) : Nat → Nat → TexRes
  | 0, _ => .ok s 0 2 want
  | n + 1, l =>
    let p := t.texel l u v
    let s0 := s.tried g c p 4 4 .r
    match s.probeGlobal g.vf (s.boundsOf c (bits p.toNat 63 56)) p.toNat 4 .r with
    | .trap _ => .ok s0 0 3 want
    | .page va _ => if s.movesVa g.vf va then .wait s0 .bank else s0.texFetch g c t want u v n (l + 1)
    | .at sp =>
      if g.logged p.toNat 4 then .wait s0 .page
      else if s0.bankBusy sp || s0.moves sp then .wait (s0.bankWaitE g c (s0.bankBusy sp)) .bank
      else
        match s0.checkSpot (c.who true pathTex) .read sp 4 with
        | some cause => .trap s0 cause
        | none =>
          match sp with
          | .mem key _ _ _ =>
            let s1 := ((s0.noteSpot (c.who true pathTex) .read sp 4).engLines g.vf sp 4 false).touchEa g p
            let (v, tick, s2) := s1.plainRead g.id c.num key 4 (s1.rd key 4)
            .ok (s2.noteEarlyE g c key 4 tick) v (if l == want then 0 else 1) l
          | .win _ _ => .ok s0 0 3 want
/-- All enabled lanes in order: (texel, status word) per lane. -/
def State.texLanes (s : State) (g : Group) (c : Ctx) (gd : Guard) (t : TexDesc) (want : Nat) :
    List (Nat × Nat × Nat) → Except TexRes (State × List (Option (Nat × Nat)))
  | [] => .ok (s, [])
  | (u, v, i) :: r =>
    if !gd.getLsbD i then (s.texLanes g c gd t want r).map fun x => (x.1, none :: x.2)
    else if !t.ok || t.levels ≤ want then (s.texLanes g c gd t want r).map fun x => (x.1, some (0, 3 + 4 * want) :: x.2)
    else
      match s.texFetch g c t want (f32.value u) (f32.value v) (t.levels - want) want with
      | .ok s1 texel st l => (s1.texLanes g c gd t want r).map fun x => (x.1, some (texel, st + 4 * l) :: x.2)
      | x => .error x
/-- TEX reads a descriptor, at its physical address, on path TEX (R275). -/
def State.texRead (s : State) (g : Group) (c : Ctx) (slot : Nat) : Except Nat (State × Nat) :=
  let key := hbm ((s.vf g.vf).ttab + 64 * slot)
  let words := wordsOf key 64
  let w := c.who true pathTex
  let die := fun (_ : Nat) => bits key 38 37
  match s.checkWords w .read words die false with
  | some cause => .error cause
  | none =>
    let s1 := s.noteWords w .read words die
    let (v, _, s2) := s1.plainRead g.id c.num key 64 (s1.rd key 64)
    .ok (s2, v)
/-- An instruction of the execute stream that waits or traps has read nothing (R122, R167): its context and the records of its reads
are as they were, but for what the core and the slices have kept (R214, R215). -/
def State.unread (s old : State) (g : Group) (c : Ctx) : State :=
  { s.updCtx g.id c.num (fun x => { c with bounds := x.bounds }) with recs := old.recs }
def execVtex (e : EArgs) (s : State) :=
  vRun (.vtex e) 0xA9 e s (fun _ _ => (2, 1, 1)) fun sh e s g c =>
    Act.ofS s (readAB s g c sh e (.n 32)) fun s1 (a, b) =>
      match s1.texRead g c (e.immU % 16) with
      | .error cause => .raise s cause
      | .ok (s2, d) =>
        match s2.texLanes g c (c.guard e) (texDesc d) (e.immU / 16 % 16) ((a.zip b).zipIdx.map fun (x, i) => (x.1, x.2, i)) with
        | .error (.trap s3 cause) => .raise (s3.unread s g c) cause
        | .error (.wait s3 w) => .wait (s3.unread s g c) w
        | .error (.ok s3 _ _ _) => .wait (s3.unread s g c) .page
        | .ok (s3, l) =>
        .done (s3.updCtx g.id c.num fun x =>
          (x.writeElems e.d 32 (l.map fun r => r.map (·.1))).writeElems (e.d + 1) 32 (l.map fun r => r.map (·.2)))

/-! ### Coverage -/

/-- The alpha of an accumulator (R203). -/
def windAlpha (eo : Bool) (x : Nat) : Nat :=
  let X := (toI 32 x).natAbs
  let t := X % 2 ^ 18
  let a := if eo then (if t ≤ 2 ^ 17 then t else 2 ^ 18 - t) else min X (2 ^ 17)
  (roundAt .rne 0 false (a * 255) (-17) 0).1
def execVwind (e : EArgs) (s : State) :=
  vRun (.vwind e) 0xAA e s one3 fun sh e s g c =>
    Act.ofS s (readAB s g c sh e (.n 32)) fun s1 (a, _) =>
      let gd := c.guard e
      let r := (a.zipIdx.map fun (x, i) => if gd.getLsbD i then some (windAlpha (e.fn == 1) x) else none) ++
        List.replicate 384 (some 0)
      .done (s1.updCtx g.id c.num fun x => x.writeElems e.d 8 r)

end Sys2Proof.Machine
end

