-- ==== Sys2Proof/Machine/XJob.lean ====
section
/-! DEFINITION. Class X: command messages and their completions (R230-R236, R282, R283). -/

namespace Sys2Proof.Machine

/-- A mesh address without reserved bits that names an engine (R230). -/
def meshOk (x : Word) : Bool := x.toNat / 2 ^ 16 == 0 && bits x.toNat 7 4 == 0 && x.toNat % 16 ≤ 4
def engOf (code : Nat) : Eng :=
  match code with
  | 0 => .cpy | 1 => .ixe | 2 => .mxe | 3 => .pfe | _ => .cvr
/-- The command that a code names at an engine (R238, R240, R245-R247, R250, R264). -/
def cmdOf (e : Eng) (code : Nat) : Cmd :=
  match e, code with
  | .cpy, 0 => .copy
  | .ixe, 0 => .gather
  | .mxe, 0x01 => .mloadw
  | .mxe, 0x02 => .mloadb
  | .mxe, 0x10 => .mma
  | .mxe, 0x11 => .mmab
  | .mxe, 0x20 => .mepi
  | .pfe, 0 => .traverse
  | .pfe, 1 => .sweepup
  | .pfe, 2 => .sweepdn
  | .cvr, 0 => .raster
  | _, _ => .bad
/-- A free job record of the group. -/
def Group.freeRecord (g : Group) : Option Nat := (List.range 64).find? fun i => !(g.jobs[i % 64]'(by omega)).busy
def Group.setJob (g : Group) (r : Nat) (x : JobRec) : Group :=
  { g with jobs := Vector.ofFn fun (i : Fin 64) => if i.val == r then x else g.jobs[i] }
/-- The message: the low 64 bytes of the entry, with arg replaced where B is named (R231). -/
def messageOf (d : Block) (arg : Option Word) : BitVec 512 :=
  let m := d.toNat % 2 ^ 512
  match arg with
  | none => BitVec.ofNat 512 m
  | some a => BitVec.ofNat 512 (m / 2 ^ 48 * 2 ^ 48 + a.toNat % 2 ^ 16 * 2 ^ 32 + m % 2 ^ 32)
/-- A job in the queue that the combining node merges a message with (R235). -/
def State.mergeWith (s : State) (g : Group) (c : Ctx) (cl : Nat) (e : Eng) (m : BitVec 512) : Option Job :=
  if !m.getLsbD 14 || clusterOf g.core != cl then none
  else (s.jobs cl e).find? fun j =>
    j.phase == .queued && j.msg == m && j.vf == g.vf && j.bndt == c.csr.bndt && s.cyc ≤ j.arrived + 16 &&
      j.senders.all fun x => clusterOf x.core == cl
/-- The bytes of a RASTER target belong to path CVR from the emsg on (R266). -/
def State.ownTarget (s : State) (g : Group) (cl : Nat) (j : Job) : State :=
  if j.cmd == .raster && (s.rasterCheck cl j).isNone then
    let t := j.target
    { s with owned := s.owned ++ [{ base := scrKey g.core t.acc, rows := t.th, stride := t.stride, width := 4 * t.tw,
                                    path := pathCvr, agent := j.agent, gid := g.id, observed := false }] }
  else s
/-- Deliver a message: a new job, or one more sender of a merged one. -/
def State.deliver (s : State) (g : Group) (c : Ctx) (cl : Nat) (e : Eng) (m : BitVec 512) (jid : Nat) (x : Sender)
    (merge : Option Job) : State :=
  match merge with
  | some j =>
    s.setJobs cl e ((s.jobs cl e).map fun (y : Job) => if y.agent == j.agent then { y with senders := y.senders ++ [x] } else y)
  | none =>
    let j : Job :=
      { Job.new x.sync.agent (cmdOf e (m.toNat % 256)) g.vf c.csr.bndt (some g.launch) s.cyc s.phcSec with
        id := jid, msg := m, senders := [x] }
    (s.enter cl e (clusterOf g.core != cl) j).ownTarget g cl j
/-- The tile that a message names, for its job record (R340). -/
def tileNamed (e : Eng) (m : BitVec 512) : Option Nat :=
  match cmdOf e (m.toNat % 256) with
  | .mma | .mmab => some (bits m.toNat 215 208)
  | .mepi => some (bits m.toNat 263 256)
  | _ => none
/-- The sender that a message makes of its context, with what that is ordered after (R313). -/
def senderOf (s : State) (g : Group) (c : Ctx) (m : BitVec 512) (r tag agent : Nat) : Sender :=
  { gid := g.id, core := g.core, ctx := c.num, agent := c.sync.agent, record := r, ev := bits m.toNat 13 8,
    sync := { c.sync with agent := agent, acq := c.sync.acq ++ [{ var := jobVar g.core r, agent := c.sync.agent, tag := tag }] },
    rel := tag, tick := s.tick, live := true }
/-- emsg, its release made and a record free (R282): the queue's head is popped, the record busy, the message sent, or the job done with
status 0x01 where the mesh address is none (R230). -/
def sendMessage (s : State) (g : Group) (c : Ctx) (d a b : BitVec 5) (q : QBlock) (tag r : Nat) : Act :=
  let x := c.readX a
  let cl := bits x.toNat 15 8
  let e := engOf (x.toNat % 16)
  let m := messageOf q.data (if b = 0 then none else some (c.readX b))
  let merge := if meshOk x then s.mergeWith g c cl e m else none
  let asked := askedAt c.askA cl e
  if meshOk x && merge.isNone && !s.mayEnter cl e g asked then
    .wait (s.updCtx g.id c.num fun z => { z with askA := s.askFor asked cl e }) (.other true)
  else
    let agent := match merge with | some j => j.agent | none => s.nextAgent
    let sq := ((s.core g.core).jobSeq + 1) % 1024
    let jid := sq * 64 + r
    let rec0 : JobRec :=
      { busy := true, seq := sq, done := if meshOk x then none else some (doneWord 0x01 0 0), agent := agent,
        tile := if meshOk x then (tileNamed e m).map fun t => (cl, t) else none }
    let s1 := (s.updCtx g.id c.num fun z => (z.popBlock 4).writeX d (wordOf jid)).updGroup g.id fun z => z.setJob r rec0
    let s2 : State := { s1.updCore g.core (fun k => { k with jobSeq := sq }) with nextAgent := s.nextAgent + 1 }
    if meshOk x then .done (s2.deliver g c cl e m jid (senderOf s g c m r tag agent) merge)
    else .done (s2.raiseLine g.core (bits m.toNat 13 8))
/-- emsg (R282). -/
def execEmsg (d a b : BitVec 5) (s : State) :=
  runA (.emsg d a b) s fun s g c =>
    match c.headBlock 4 with
    | none => .wait s (.queue 4 true)
    | some q =>
      released s g c fun s tag =>
        match g.freeRecord with
        | none => .wait s (.other true)
        | some r => sendMessage s g c d a b q tag r

/-- The word of a stale id (R283). -/
def staleWord : Word := 0x80000000000000FF
/-- A context observes a job's completion (R236, R283, R314): the acquire, the adopted writes, the free record. -/
def State.observe (s : State) (g : Group) (c : Ctx) (r : Nat) (x : JobRec) (d : BitVec 5) (w : Word) : State :=
  let s1 := (s.updCtx g.id c.num fun z => ((z.acquire (jobVar g.core r) x.agent 1).acquiredAt s.tick).writeX d w).updGroup g.id
    fun z => z.setJob r JobRec.empty
  let s2 := s1.tock
  { s2 with adopted := s2.adopted ++ [{ job := x.agent, agent := c.sync.agent, rel := c.relTag + 1, tick := s.tick, stamp := c.accA }],
            owned := s2.owned.map fun (o : Owned) =>
              if o.path == pathCvr && o.agent == x.agent then { o with observed := true } else o }
def jobX (i : Instr) (d a : BitVec 5) (waits : Bool) (s : State) :=
  runA i s fun s g c =>
    let x := (c.readX a).toNat
    let r := g.jobs[x % 64]'(by omega)
    if x / 2 ^ 16 ≠ 0 || !r.busy || r.seq ≠ x / 64 % 1024 then .done (s.updCtx g.id c.num fun z => z.writeX d staleWord)
    else
      match r.done with
      | some w => .done (s.observe g c (x % 64) r d w)
      | none => if waits then .wait s (.other true) else .done (s.updCtx g.id c.num fun z => z.writeX d 0)
def execJtest (d a : BitVec 5) (s : State) := jobX (.jtest d a) d a false s
def execJwait (d a : BitVec 5) (s : State) := jobX (.jwait d a) d a true s

end Sys2Proof.Machine
end

