-- ==== Sys2Proof/Machine/Mxe.lean ====
section
/-! DEFINITION. The matrix engine: capabilities (R243, R244), loads (R245), MMA and MMAB (R246, R41-R45), MEPI (R247, R44),
slots (R248), the commands of zset (R200), and the completion of every engine's jobs (R232). -/

namespace Sys2Proof.Machine

/-! ### Records and packing -/

/-- The descriptor of a tensor parameter record (R65). -/
def recDesc (r : Nat) : Nat := r / 2 ^ 48 * 2 ^ 48 % 2 ^ 64 + bits r 239 224 * 2 ^ 32 + r % 2 ^ 32
def recStride (r : Nat) : Nat := bits r 223 192
def recCols (r : Nat) : Nat := bits r 191 160
def recScale (r : Nat) : Nat := bits r 127 64
/-- The container of a code in memory, in bits (R35). -/
def containerOf (w : Nat) : Nat := if w ≤ 4 then 4 else if w ≤ 6 then 6 else 8
/-- n packed codes of width w. -/
def unpackCodes (w n : Nat) (b : List Byte) : List Nat := (elems (containerOf w) n (natOfBytes b)).map (· % 2 ^ w)
def packCodes (w : Nat) (l : List Nat) : List Byte :=
  bytesOfNat ((containerOf w * l.length + 7) / 8) (joinElems (containerOf w) l)
/-- A 32-byte record read for a job. -/
def State.jobRecord (s : State) (j : Job) (ptr : Nat) : JRes Nat :=
  if ptr % 32 != 0 then .fail s 0x15 else s.jobReadN j pathMxe ptr 32
/-- Read the rows of a macro, n bytes each, stride apart; its waits at the banks are counted with its slot (R248). -/
def State.jobRows (s : State) (j : Job) (n stride : Nat) : Nat → Nat → JRes (List (List Byte))
  | 0, _ => .ok s []
  | k + 1, ptr =>
    (s.jobReadW j pathMxe ptr n false).bind fun s b =>
      (s.jobRows j n stride k (ptrAdd ptr stride)).bind fun s l => .ok s (b :: l)

/-! ### Capabilities -/

/-- The tag of a rights word (R243). -/
def State.capTag (s : State) (rights : Nat) : Nat := natOfBytes (shake256 (s.deviceKey ++ bytesOfNat 8 rights) 8)
/-- The right that a command needs. -/
def rightBit (c : Cmd) : Nat :=
  match c with
  | .mloadw | .mloadb => 44
  | .mma | .mmab => 45
  | _ => 46
/-- A command is let in (R242, R244). -/
def State.capOk (s : State) (cl : Nat) (j : Job) : Bool :=
  let r := j.f 447 384
  let first := bits r 43 39
  let count := bits r 38 34
  j.f 511 448 == s.capTag r && bits r 63 55 == j.vf && bits r 54 47 == cl && bit r (rightBit j.cmd) && bits r 33 32 == 0 &&
    first + count ≤ 24 && (match j.tile? with | some t => first ≤ t && t < first + count | none => true) &&
    j.arrivedSec % 2 ^ 32 < bits r 31 0 &&
    (match j.tile? with
     | some t => s.groups.all fun g => !(g.tiles.contains t && clusterOf g.core == cl) || g.vf == j.vf
     | none => true)
/-- The header check of each command (R231, R245-R247). -/
def mxeHeadOk (j : Job) : Bool :=
  j.headOk &&
    (match j.cmd with
     | .mma => j.p < 2
     | .mmab => j.p < 4
     | .mepi => j.p < 16 && j.p % 8 ≤ 3 && j.arg == 0
     | _ => j.p == 0 && j.arg == 0)

/-! ### Slots and ends -/

/-- The head ends with a status, at the end of its slot. -/
def State.mxeEnd (s : State) (cl : Nat) (j : Job) (st : Nat) : State := s.endJob cl .mxe j (doneWord st 0 0)
/-- A slot of n cycles, from when the command began (R248). -/
def Job.slot (j : Job) (n : Nat) : Job := { j with slotEnd := j.begun.getD 0 + n }
/-- Run a command that has passed its header and its capability, both checked once, when it begins (R244); a refusal by either holds no
slot. -/
def State.mxeRun (s : State) (cl : Nat) (cmd : Cmd) (f : State → Job → State) : State :=
  s.onHead cl .mxe cmd fun s j =>
    if j.begun.isSome then f s j
    else
      let j1 : Job := { j with begun := some s.cyc, slotEnd := s.cyc }
      if !mxeHeadOk j then s.mxeEnd cl j1 0x01 else if !s.capOk cl j then s.mxeEnd cl j1 0x19 else f s j1

/-! ### Loads -/

/-- Cycles that a read of a bank at a PHC time, at a rate per cycle, waits for the bank's refresh window to end (R211). -/
def windowWait (bank phc per : Nat) : Nat :=
  let lo := 1000 * bank * phcUnit
  let hi := lo + 320 * phcUnit
  let ph := phc % (16000 * phcUnit)
  if lo ≤ ph && ph < hi then (hi - ph + per - 1) / per else 0
/-- The banks of the weight store that hold the first or the last byte of n bytes in one page. -/
def State.banksAt (s : State) (vf ptr n : Nat) : List Nat :=
  match s.translate vf ptr with
  | .leaf e big =>
    if leafSpace e != 1 || bits ptr 63 56 == 0xFE then []
    else [bankOf (physOf e ptr big % 2 ^ 29), bankOf ((physOf e ptr big + n - 1) % 2 ^ 29)]
  | .none _ => []
/-- Cycles that a read of n bytes t cycles from now waits at its banks (R211, R248). -/
def State.bankWait (s : State) (j : Job) (ptr n t : Nat) : Nat :=
  let per := (1000000000000 + s.rate).toNat
  (((piecesOf ptr n).flatMap fun x => s.banksAt j.vf x.1 x.2).map fun b => windowWait b (s.phc + t * per) per).foldl max 0
/-- The waits of rows of n bytes, stride apart, that are read t cycles from now, each behind the waits of those before it: their cycles
and their number (R248). -/
def State.rowWaits (s : State) (j : Job) (n stride t : Nat) : Nat → Nat → Nat → Nat → Nat × Nat
  | 0, _, sum, k => (sum, k)
  | m + 1, ptr, sum, k =>
    let w := s.bankWait j ptr n (t + sum)
    s.rowWaits j n stride t m (ptrAdd ptr stride) (sum + w) (if w == 0 then k else k + 1)
def Cluster.putMacro (c : Cluster) (i : Nat) (m : Macro) : Cluster :=
  { c with macros := Vector.ofFn fun (k : Fin 16) => if k.val == i then m else c.macros[k] }
def loadBad (j : Job) : Bool := j.f 207 192 == 0 || j.f 223 208 != 0 || j.f 383 256 != 0
def Job.maskList (j : Job) : List Nat := (List.range 16).filter (bit (j.f 207 192))
/-- The slot of a load before its waits. -/
def Job.loadSlot (j : Job) : Nat := 64 + 32 * j.maskList.length
/-- Load the named macros, k of which have been loaded, in order, each read at its place in the slot or at once where that is past: f
gives the contents from the address of a macro's block. A macro is an element (R237; log 86): those before one that is held or fails have
been loaded. -/
def State.loadMacros (s : State) (cl : Nat) (f : State → Nat → JRes Macro) (rows n stride : Nat) (j : Job) :
    List Nat → Nat → RunEnd × Job
  | [], _ => (.done s, j)
  | i :: r, k =>
    let base := ptrAdd (j.f 127 64) ((i * j.f 255 224 : Nat) : Int)
    let w := s.rowWaits j n stride (j.slotEnd - j.loadSlot + 64 + 32 * k - s.cyc) rows base 0 0
    match f s base with
    | .ok s1 m =>
      ((s1.updCluster cl fun c => c.putMacro i m).countJob j 0x40 w.2).loadMacros cl f rows n stride
        { j with slotEnd := j.slotEnd + w.1 } r (k + 1)
    | .busy s1 bank => (.busy s1 k bank, j)
    | .hold s1 va m => (.hold s1 k va m, j)
    | .fail s1 st => (.fail s1 k st, j)
def State.doLoad (s : State) (cl : Nat) (j : Job) (rows n stride : Nat) (f : State → Nat → JRes Macro) : State :=
  match s.loadMacros cl f rows n stride j (j.maskList.drop j.pos) j.pos with
  | (.done s1, j1) => s1.mxeEnd cl j1 0
  | (.busy s1 k bank, j1) => s1.bankJob cl .mxe (j1.goesOn k) bank
  | (.hold s1 k va m, j1) => s1.holdJob cl .mxe (j1.goesOn k) pathMxe va m
  | (.fail s1 _ st, j1) => s1.mxeEnd cl j1 st
/-- A command's parameter record, read once. -/
def State.keptRecord (s : State) (j : Job) (ptr : Nat) : JRes Nat :=
  match j.read with
  | r :: _ => .ok s r
  | [] => s.jobRecord j ptr
/-- A load begins: its slot, unless it has begun before. -/
def Job.loadBegin (j : Job) : Job := if j.pos == 0 && j.read.isEmpty then j.slot j.loadSlot else j
def execMloadw (cl : Nat) (s : State) : Host.Outcome State Fault Refusal :=
  .next <| s.mxeRun cl .mloadw fun s j0 =>
    if loadBad j0 then s.mxeEnd cl (j0.slot 64) 0x01
    else
      let j := j0.loadBegin
      State.headStep cl .mxe j pathMxe (s.keptRecord j (j.f 191 128)) fun s r =>
        let d := recDesc r
        if !fmtValid d || bscaleOf d != 0 then s.mxeEnd cl (j.slot 64) 0x01
        else
          let w := (fmtOf d).width
          s.doLoad cl { j with read := [r] } 128 (16 * containerOf w) (recStride r) fun s base =>
            (s.jobRows j (16 * containerOf w) (recStride r) 128 base).bind fun s rows =>
              .ok s { fmt := some (BitVec.ofNat 64 d), binary := false,
                      bits := joinElems 1024 (rows.map fun b => joinElems 8 (unpackCodes w 128 b)) }
def execMloadb (cl : Nat) (s : State) : Host.Outcome State Fault Refusal :=
  .next <| s.mxeRun cl .mloadb fun s j0 =>
    if loadBad j0 || j0.f 191 128 != 0 then s.mxeEnd cl (j0.slot 64) 0x01
    else
      s.doLoad cl j0.loadBegin 1024 16 16 fun s base =>
        (s.jobReadW j0 pathMxe base 16384 false).bind fun s b =>
          .ok s { fmt := none, binary := true, bits := natOfBytes b }

/-! ### Products -/

def Tile.put (t : Tile) (r n : Nat) (a : Acc) : Tile :=
  let i := 128 * r + n
  { t with elems := if a.val == 0 && !a.sat && !a.spc then alDel t.elems i else alPut t.elems i a }
def State.setTile (s : State) (cl t : Nat) (x : Tile) : State :=
  s.updCluster cl fun c => { c with tiles := Vector.ofFn fun (i : Fin 24) => if i.val == t then x else c.tiles[i] }
/-- sat96 of an exact sum (R41). -/
def Acc.add (a : Acc) (q : Int) : Acc :=
  let v := a.val + q
  let hi : Int := (2 ^ 95 - 1 : Nat)
  let lo : Int := -(2 ^ 95 : Nat)
  if hi < v then { a with val := hi, sat := true } else if v < lo then { a with val := lo, sat := true } else { a with val := v }
/-- acc_step (R41). -/
def accStep (w : Int) (acc : Acc) (a b : FVal) : Acc :=
  match a, b with
  | .fin s1 m1 e1, .fin s2 m2 e2 =>
    let y := (roundAt .rne 0 false (m1 * m2) (e1 + e2) w).1
    acc.add (if s1 == s2 then (y : Int) else -(y : Int))
  | _, _ => { acc with spc := true }
/-- The value of B at row k of a macro (R246). -/
def Macro.at (m : Macro) (k n : Nat) : FVal :=
  match m.fmt with
  | none => .zero false
  | some d => let f := fmtOf d.toNat; f.value (m.bits / 2 ^ (8 * (128 * k + n)) % 2 ^ f.width)
/-- A row of A: values with their scales (R36). -/
def rowVals (d : Nat) (codes : List Nat) (scales : List Nat) (first : Nat) : List FVal :=
  let f := fmtOf d
  (codes.zipIdx).map fun (c, k) =>
    if bscaleOf d == 0 then f.value c
    else
      let per := if bscaleOf d == 2 then 16 else 32
      let sc := scales.getD ((first + k) / per - first / per) 127
      if sc == 255 then .gen
      else
        match f.value c with
        | .fin s m e => .fin s m (e + sc - 127)
        | v => v
/-- One row of A into one row of the tile. -/
def mmaRow (macros : Vector Macro 16) (w : Int) (r : Nat) (vals : List FVal) (t : Tile) : Tile :=
  (List.range 128).foldl (fun (t : Tile) n =>
    t.put r n ((vals.zipIdx).foldl (fun (acc : Acc) (a, k) =>
      accStep w acc a ((macros[k / 128 % 16]'(by omega)).at (k % 128) n)) (t.at r n))) t
/-- The bit-planes that are zero in every element of a row (R249). -/
def zeroPlanes (w : Nat) (codes : List Nat) : Nat := (List.range w).countP fun i => codes.all fun c => !bit c i
/-- The bytes of a row of A and of its block scales. -/
def State.mmaRead (s : State) (j : Job) (rec0 d K r : Nat) : JRes (Nat × Nat) :=
  let w := (fmtOf d).width
  let first := r * recCols rec0
  let per := if bscaleOf d == 2 then 16 else 32
  (s.jobReadN j pathMxe (ptrAdd (j.f 127 64) ((r * recStride rec0 : Nat) : Int)) (K * containerOf w / 8)).bind fun s b =>
    if bscaleOf d == 0 then .ok s (b, 0)
    else
      (s.jobReadN j pathMxe (ptrAdd (recScale rec0) ((first / per : Nat) : Int)) ((first + K - 1) / per - first / per + 1)).bind
        fun s sc => .ok s (b, sc)
/-- Read n rows from r on, behind what has been read; f reads one. -/
def State.rowsRead (s : State) (f : State → Nat → JRes (List Nat)) : Nat → Nat → List Nat → RunEnd × List Nat
  | 0, _, l => (.done s, l)
  | n + 1, r, l =>
    match f s r with
    | .ok s1 x => s1.rowsRead f n (r + 1) (l ++ x)
    | .busy s1 bank => (.busy s1 r bank, l)
    | .hold s1 va m => (.hold s1 r va m, l)
    | .fail s1 st => (.fail s1 r st, l)
/-- A product command reads its rows of A, from the one that held it on; the tile takes them at the end of the slot, whole or not at all
(R201, R246; log 86). -/
def State.productRun (s : State) (cl : Nat) (j : Job) (f : State → Nat → JRes (List Nat)) : State :=
  match s.rowsRead f (j.arg - j.pos) j.pos j.read with
  | (.done s1, l) => s1.mxeEnd cl { j with read := l } 0
  | (.busy s1 r bank, l) => s1.bankJob cl .mxe { j.goesOn r with read := l } bank
  | (.hold s1 r va m, l) => s1.holdJob cl .mxe { j.goesOn r with read := l } pathMxe va m
  | (.fail s1 _ st, _) => s1.mxeEnd cl j st
def mmaBad (j : Job) : Bool :=
  j.f 383 232 != 0 || j.f 231 224 == 0 || 128 < j.f 231 224 || j.f 223 216 == 0 || 16 < j.f 223 216 || j.f 231 224 < j.arg
/-- The macros that a command uses. -/
def State.used16 (s : State) (cl kmac : Nat) : List Macro := ((s.cluster cl).macros.toList).take kmac
def execMma (cl : Nat) (s : State) : Host.Outcome State Fault Refusal :=
  .next <| s.mxeRun cl .mma fun s j0 =>
    let j := if j0.read.isEmpty then j0.slot 64 else j0
    if mmaBad j || (s.used16 cl (j.f 223 216)).any (fun x => x.binary) then s.mxeEnd cl (j.slot 64) 0x01
    else
      State.headStep cl .mxe j pathMxe (s.keptRecord j (j.f 191 128)) fun s r =>
        let d := recDesc r
        if !fmtValid d then s.mxeEnd cl j 0x01
        else
          let j1 : Job := { j.slot (64 + j.f 231 224 * (fmtOf d).width) with read := if j.read.isEmpty then [r] else j.read }
          s.productRun cl j1 fun s i => (s.mmaRead j r d (128 * j.f 223 216) i).bind fun s x => .ok s [x.1, x.2]
/-- The rows that an MMA has read: codes and scales of each. -/
def pairUp : List Nat → List (Nat × Nat)
  | a :: b :: r => (a, b) :: pairUp r
  | _ => []
/-- What MMA leaves at the end of its slot: the tile, the zero planes and the zero elements of its rows (R246, R249). -/
def State.mmaOut (s : State) (cl : Nat) (j : Job) : Tile × Nat × Nat :=
  let rec0 := j.read.headD 0
  let d := recDesc rec0
  let K := 128 * j.f 223 216
  let w := (fmtOf d).width
  let rows := ((pairUp (j.read.drop 1)).zipIdx).map fun (x, r) =>
    let codes := unpackCodes w K (bytesOfNat (K * containerOf w / 8) x.1)
    let scales := (bytesOfNat (K / 16 + 2) x.2).map BitVec.toNat
    (rowVals d codes scales (r * recCols rec0), zeroPlanes w codes)
  let t0 := if bit j.p 0 then Tile.clear else s.tile cl (j.f 215 208)
  let win := toI 16 (j.f 207 192)
  let t1 := (rows.zipIdx).foldl (fun (t : Tile) (v, i) => mmaRow (s.cluster cl).macros win i v.1 t) t0
  ({ t1 with count := t1.count + 1, window := win }, (rows.map (·.2)).sum, (rows.map fun l => l.1.countP FVal.isZero).sum)
/-- One row of one-bit A: the ones are added modulo 2^32 (R45). -/
def mmabRow (macros : Vector Macro 16) (x : Bool) (kmac r : Nat) (bitsA : Nat) (t : Tile) : Tile :=
  (List.range 128).foldl (fun (t : Tile) n =>
    let ones := (List.range (1024 * kmac)).countP fun k =>
      let b := bit ((macros[k / 1024 % 16]'(by omega)).bits) (128 * (k % 1024) + n)
      if x then bit bitsA k != b else bit bitsA k && b
    let a := t.at r n
    t.put r n { a with val := (toN 32 (a.val + ones) : Nat) }) t
/-- The total k of a chain is that of its MMAB commands: an MMA of the same chain, whose k R45 does not speak of, adds nothing (log 87). -/
def execMmab (cl : Nat) (s : State) : Host.Outcome State Fault Refusal :=
  .next <| s.mxeRun cl .mmab fun s j0 =>
    let kmac := j0.f 223 216
    let t0 := if bit j0.p 0 then Tile.clear else s.tile cl (j0.f 215 208)
    if mmaBad j0 || j0.f 191 128 != 0 || (s.used16 cl kmac).any (fun x => x.fmt.isSome) then s.mxeEnd cl (j0.slot 64) 0x01
    else if 2 ^ 20 < t0.ktotal + 1024 * kmac then s.mxeEnd cl (j0.slot 64) 0x17
    else
      s.productRun cl (j0.slot (64 + 8 * j0.f 231 224)) fun s i =>
        (s.jobReadN j0 pathMxe (ptrAdd (j0.f 127 64) ((128 * kmac * i : Nat) : Int)) (128 * kmac)).bind fun s b => .ok s [b]
/-- What MMAB leaves at the end of its slot. -/
def State.mmabOut (s : State) (cl : Nat) (j : Job) : Tile × Nat × Nat :=
  let kmac := j.f 223 216
  let t0 := if bit j.p 0 then Tile.clear else s.tile cl (j.f 215 208)
  let t1 := (j.read.zipIdx).foldl (fun (t : Tile) (b, i) => mmabRow (s.cluster cl).macros (bit j.p 1) kmac i b t) t0
  ({ t1 with count := t1.count + 1, window := toI 16 (j.f 207 192), ktotal := t0.ktotal + 1024 * kmac },
   j.read.countP (· == 0), (j.read.map fun b => (List.range (1024 * kmac)).countP fun k => !bit b k).sum)

/-! ### The epilogue -/

/-- One element in the destination format (R44). -/
def epiCode (f : Fmt) (w : Int) (a : Acc) : Nat :=
  if a.spc then (if f.hasNan then f.genNan else 0)
  else
    let c := (f.round .rne 0 (.fin (a.val < 0) a.val.natAbs w)).1
    if f.narrow then c
    else
      match f.value c with
      | .fin _ m e => if ltD f.bound.1 f.bound.2 m e then f.boundCode (a.val < 0) else c
      | _ => f.boundCode (a.val < 0)
/-- Write rows from r on, each committed before the next (R237). -/
def State.epiRows (s : State) (j : Job) (f : Fmt) (t : Tile) (w : Int) (stride : Nat) : Nat → Nat → RunEnd
  | 0, _ => .done s
  | n + 1, r =>
    let l := (List.range 128).map fun c => epiCode f w (t.at r c)
    let b := if f.narrow then packCodes f.width l else bytesOfNat (16 * f.width) (joinElems f.width l)
    match s.jobWrite j pathMxe (ptrAdd (j.f 127 64) ((r * stride : Nat) : Int)) b with
    | .ok s1 _ => s1.epiRows j f t w stride n (r + 1)
    | .busy s1 bank => .busy s1 r bank
    | .hold s1 va m => .hold s1 r va m
    | .fail s1 st => .fail s1 r st
/-- The counter word (R43, R247). -/
def Tile.counter (t : Tile) : Nat :=
  t.elems.countP (fun x => x.2.sat) % 2 ^ 32 + t.elems.countP (fun x => x.2.spc) % 2 ^ 32 * 2 ^ 32
/-- The destination format of MEPI, its clamp that of drec. A block scale of drec's descriptor is without effect: R44 and R247 name none
(log 88). -/
def epiFmt (ty r : Nat) : Fmt :=
  let clamp := bits r 239 224
  match ty with
  | 0 => { f32 with clamp := clamp }
  | 1 => { bf16 with clamp := clamp }
  | 2 => { f16 with clamp := clamp }
  | _ => fmtOf (recDesc r)
/-- The rows, then the counter word; the clear comes at the end of the slot. Only codes are written where drec's descriptor has a block
scale (log 88). -/
def State.epiRun (s : State) (cl : Nat) (j : Job) (r : Nat) : State :=
  let m := j.f 271 264
  let t := s.tile cl (j.f 263 256)
  let w := if t.count == 0 then 0 else t.window
  match s.epiRows j (epiFmt (j.p % 8) r) t w (recStride r) (m - j.pos) j.pos with
  | .busy s1 i bank => s1.bankJob cl .mxe (j.goesOn i) bank
  | .hold s1 i va mf => s1.holdJob cl .mxe (j.goesOn i) pathMxe va mf
  | .fail s1 _ st => s1.mxeEnd cl j st
  | .done s1 =>
    let j1 := j.goesOn m
    if j.f 255 192 % 8 != 0 then s1.mxeEnd cl j1 0x15
    else
      State.headStep cl .mxe j1 pathMxe (s1.jobWrite j pathMxe (j.f 255 192) (bytesOfNat 8 t.counter)) fun s2 _ => s2.mxeEnd cl j1 0
def execMepi (cl : Nat) (s : State) : Host.Outcome State Fault Refusal :=
  .next <| s.mxeRun cl .mepi fun s j0 =>
    let m := j0.f 271 264
    let j := j0.slot (64 + 2 * m)
    if j.f 383 272 != 0 || m == 0 || 128 < m then s.mxeEnd cl (j.slot 64) 0x01
    else
      State.headStep cl .mxe j pathMxe (s.keptRecord j (j.f 191 128)) fun s1 r =>
        if j.p % 8 == 3 && !fmtValid (recDesc r) then s1.mxeEnd cl (j.slot 64) 0x01 else s1.epiRun cl { j with read := [r] } r

/-! ### zset and completions -/

/-- The commands of zset (R200, R201). -/
def Tile.setRow (t : Tile) (row : Nat) (d : Block) : Tile :=
  let t1 := ((blockElems 32 d).zipIdx).foldl (fun (t : Tile) (x, n) => t.put row n { val := toI 32 x, sat := false, spc := false }) t
  { t1 with count := t1.count + 1, window := if t.count == 0 then 0 else t.window }
/-- A zset command at the head: its slot begins, and when it has passed the command acts and leaves the queue. -/
def State.zsetHead (s : State) (cl : Nat) (j : Job) : State :=
  let s1 := s.setJobs cl .mxe ((s.jobs cl .mxe).drop 1)
  if j.phase == .queued && !j.settledAt cl s.cyc then s
  else if j.phase == .queued then s.setHead cl .mxe { j with phase := .running, slotEnd := s.cyc + 64 }
  else if s.cyc < j.slotEnd then s
  else
    match j.cmd with
    | .zclr t => s1.setTile cl t Tile.clear
    | .zrow t row d => s1.setTile cl t ((s.tile cl t).setRow row d)
    | _ => s
/-- A product's tile, and what its slot saved the energy of: rows not valid, zero planes and zero elements (R246, R249). -/
def State.putProduct (s : State) (cl : Nat) (j : Job) (x : Tile × Nat × Nat) : State :=
  (((s.setTile cl (j.f 215 208) x.1).countJob j 0x20 (j.f 231 224 - j.arg)).countJob j 0x21 x.2.1).countJob j 0x22 x.2.2
/-- What an MXE command that has run to its end does to its tile at the end of its slot (R201). -/
def State.mxeApply (s : State) (cl : Nat) (j : Job) : State :=
  if j.phase != .done (doneWord 0 0 0) then s
  else
    match j.cmd with
    | .mma => s.putProduct cl j (s.mmaOut cl j)
    | .mmab => s.putProduct cl j (s.mmabOut cl j)
    | .mepi => if bit j.p 3 then s.setTile cl (j.f 263 256) Tile.clear else s
    | _ => s
/-- The head of a queue leaves it: an MXE command at the end of its slot. -/
def State.jobCompletion (s : State) (cl : Nat) (e : Eng) : State :=
  match (s.jobs cl e).head? with
  | none => s
  | some j =>
    match j.cmd with
    | .zclr _ | .zrow _ _ _ => s.zsetHead cl j
    | _ => if s.cyc < j.slotEnd then s else (s.mxeApply cl j).popHead cl e
def execJobCompletion (cl : Nat) (e : Eng) (s : State) : Host.Outcome State Fault Refusal := .next (s.jobCompletion cl e)

end Sys2Proof.Machine
end

