-- ==== Sys2Proof/Machine/Pfe.lean ====
section
/-! DEFINITION. The pair frontier engine (R250-R262): TRAVERSE, SWEEPUP and SWEEPDN, one decision or visit a step, and the
emission of their entries. -/

namespace Sys2Proof.Machine

/-! ### Stage queues (R59, R80) -/

def stQcap (r : BitVec 256) : Nat := bits r.toNat 159 128
def stQbase (r : BitVec 256) : Nat := bits r.toNat 127 64
def stEsize (r : BitVec 256) : Nat := bits r.toNat 175 160
def stDown (r : BitVec 256) : Nat := bits r.toNat 183 176
def stMinc (r : BitVec 256) : Nat := bits r.toNat 207 192
def stMaxc (r : BitVec 256) : Nat := bits r.toNat 223 208
def stAge (r : BitVec 256) : Nat := bits r.toNat 255 224
def stKobj (r : BitVec 256) : Nat := bits r.toNat 63 0
/-- The entry, the tag byte and the control block of a queue. -/
def stEntry (r : BitVec 256) (n : Nat) : Nat := ptrAdd (stQbase r) (stEsize r * n : Nat)
def stTag (r : BitVec 256) (n : Nat) : Nat := ptrAdd (stQbase r) (stQcap r * stEsize r + n : Nat)
def stCtrl (r : BitVec 256) : Nat := ptrAdd (stQbase r) (stQcap r * stEsize r + stQcap r : Nat)
def isPow2 (n : Nat) : Bool := n != 0 && 2 ^ Nat.log2 n == n
/-- R59. -/
def stageOk (r : BitVec 256) : Bool :=
  bits r.toNat 191 184 == 0 && 1 ≤ stMaxc r && stMaxc r ≤ 2048 && stMinc r ≤ stMaxc r && 16 ≤ stEsize r &&
    stEsize r ≤ 512 && stEsize r % 16 == 0 && 16 ≤ stQcap r && stQcap r ≤ 65536 && isPow2 (stQcap r) &&
    stQbase r % 64 == 0

/-! ### Tree descriptors and nodes (R61-R63) -/

abbrev Desc := BitVec 512
def dNodeA (d : Desc) : Nat := bits d.toNat 63 0
def dNodeB (d : Desc) : Nat := bits d.toNat 127 64
def dRootA (d : Desc) : Nat := bits d.toNat 159 128
def dRootB (d : Desc) : Nat := bits d.toNat 191 160
def dCountA (d : Desc) : Nat := bits d.toNat 223 192
def dCountB (d : Desc) : Nat := bits d.toNat 255 224
def dT2 (d : Desc) : Nat := bits d.toNat 287 256
def dCap (d : Desc) : Nat := bits d.toNat 303 288
def dSeq (d : Desc) : Bool := bit d.toNat 304
def dImage (d : Desc) : Nat := bits d.toNat 327 320
def dFar (d : Desc) : Nat := bits d.toNat 335 328
def dNear (d : Desc) : Nat := bits d.toNat 343 336
def dDepth (d : Desc) : Nat := bits d.toNat 359 352
/-- A t2 that R63 refuses: negative, infinite or a NaN; minus zero is legal. -/
def t2Bad (c : Nat) : Bool :=
  match f32.value c with
  | .fin s m _ => s && m != 0
  | _ => true
/-- The checks of R63 but those of far and near. -/
def descOk (d : Desc) : Bool :=
  1 ≤ dDepth d && dDepth d ≤ 32 && 4 ≤ dCap d && dCap d ≤ 8192 && !t2Bad (dT2 d) && dNodeA d % 64 == 0 &&
    dNodeB d % 64 == 0 && dRootA d < dCountA d && dRootB d < dCountB d && bits d.toNat 319 305 == 0 &&
    bits d.toNat 351 344 == 0 && bits d.toNat 511 360 == 0
/-- The checks of the fields that a sweep reads (R250, R251). -/
def sweepDescOk (d : Desc) : Bool :=
  1 ≤ dDepth d && dDepth d ≤ 32 && dNodeA d % 64 == 0 && dRootA d < dCountA d && dImage d == 0

def nLevel (n : Nat) : Nat := bits n 175 168
def nKids (n : Nat) : Nat := bits n 167 160
def nFirst (n : Nat) : Nat := bits n 159 128
def nParent (n : Nat) : Nat := bits n 223 192
def nWord (n i : Nat) : FVal := f32.value (n / 2 ^ (32 * i) % 2 ^ 32)
def nLeaf (n : Nat) : Bool := nKids n == 0
/-- R252. -/
def nodeBad (d : Desc) (count n : Nat) : Bool :=
  dDepth d ≤ nLevel n || nKids n == 1 || 8 < nKids n || (nKids n != 0 && count < nFirst n + nKids n) ||
    bits n 383 288 != 0

/-! ### Decisions (R254, R262) -/

/-- One FP32 operation, rounded to nearest-even. -/
def r32 (x : FVal × Flags) : FVal := f32.value (f32.round .rne 0 x.1).1
def acceptPa (t2 : Nat) (a b : Nat) : Bool :=
  let dx := r32 (fSub (nWord a 0) (nWord b 0))
  let dy := r32 (fSub (nWord a 1) (nWord b 1))
  let dz := r32 (fSub (nWord a 2) (nWord b 2))
  let d2 := r32 (fFma false false dz dz (r32 (fFma false false dy dy (r32 (fMul dx dx)))))
  let s := r32 (fAdd (nWord a 3) (nWord b 3))
  ltV false (r32 (fMul s s)) (r32 (fMul (f32.value t2) d2))
def acceptRy (a b : Nat) : Bool :=
  let ax := fun i => nWord a (12 + i)
  let v := fun i => r32 (fSub (nWord b i) (nWord a i))
  let dot := fun (p q : Nat → FVal) =>
    r32 (fFma false false (p 2) (q 2) (r32 (fFma false false (p 1) (q 1) (r32 (fMul (p 0) (q 0))))))
  let t := dot v ax
  let q := dot v v
  let k := nWord a 15
  let pp := r32 (fSqrt (r32 (fMinMax true (r32 (fFma true false t t q)) (.zero false))))
  let sn := r32 (fSqrt (r32 (fFma true false k k (.fin false 1 0))))
  let l := r32 (fSub (r32 (fMul pp k)) (r32 (fMul t sn)))
  ltV false (r32 (fAdd (nWord a 3) (nWord b 3))) l
/-- Acceptance under the image of the descriptor; what a loaded image decides is free (log 29). -/
def State.accept (s : State) (cl : Nat) (d : Desc) (a b : Nat) : Bool :=
  match dImage d with
  | 0 => acceptPa (dT2 d) a b
  | 1 => acceptRy a b
  | n =>
    match (s.cluster cl).images.find? (fun x => x.1 == 3 && x.2.1 == n) with
    | some x => Config.imageAccept x.2.2 a b
    | none => false
/-- What a pair comes to: an entry of a kind, or its child pairs in order. -/
inductive Decision where
  | emit (kind : Nat)
  | fork (l : List (Nat × Nat))
def kids (n : Nat) : List Nat := (List.range (nKids n)).map (nFirst n + ·)
def decidePair (self acc : Bool) (a b na nb : Nat) : Decision :=
  if self then
    if nLeaf na then .emit 1
    else .fork ((kids na).flatMap fun i => ((kids na).filter (fun j => i ≤ j)).map fun j => (i, j))
  else if acc then .emit 0
  else if nLeaf na && nLeaf nb then .emit 1
  else if nLeaf na then .fork ((kids nb).map fun j => (a, j))
  else if nLeaf nb then .fork ((kids na).map fun i => (i, b))
  else if ltV false (nWord na 3) (nWord nb 3) then .fork ((kids nb).map fun j => (a, j))
  else .fork ((kids na).map fun i => (i, b))

/-! ### A job of the PFE -/

/-- The head has changed its PFE state, and goes on. -/
def Job.withPfe (j : Job) (p : Pfe) : Job := { j with pfe := p, phase := .running, atBank := false }
/-- A PFE job ends: its bytes belong to no path any more (R253, R261). -/
def State.pfeEnd (s : State) (cl : Nat) (j : Job) (st : Nat) : State :=
  let s1 : State := { s with owned := s.owned.filter fun o => !(o.path == pathPfe && o.agent == j.agent) }
  s1.endJob cl .pfe { j with pfe := { j.pfe with pending := [] } } (doneWord st 0 0)
/-- Go on where a job's access is made; else it waits for a bank, is held, or ends with its status. -/
def pfeRes {α : Type} (cl : Nat) (j : Job) (r : JRes α) (k : State → α → State) : State :=
  match r with
  | .ok s v => k s v
  | .busy s bank => s.bankJob cl .pfe j bank
  | .hold s va m => s.holdJob cl .pfe j pathPfe va m
  | .fail s st => s.pfeEnd cl j st
/-- A node of a tree; malformed where R252 says so. -/
def State.readNode (s : State) (j : Job) (base i : Nat) : JRes Nat :=
  s.jobReadN j pathPfe (ptrAdd base (64 * i : Nat)) 64
/-- A malformed node ends the job: its index at `at` (R252). -/
def State.malformed (s : State) (cl : Nat) (j : Job) (dst i : Nat) : State :=
  pfeRes cl j (s.jobWrite j pathPfe dst (bytesOfNat 4 i)) fun s1 _ => s1.pfeEnd cl j 0x1C
/-- Zero bits from bit 48 up, p and arg zero (R231, R250). -/
def pfeHeadOk (j : Job) : Bool := j.headOk && j.p == 0 && j.arg == 0

/-! ### TRAVERSE -/

def travTree (j : Job) : Nat := j.f 127 64
def travBag (j : Job) : Nat := j.f 191 128
/-- The checks of R251 once the descriptor and the records are read. -/
def State.travOk (s : State) (cl : Nat) (j : Job) (d : Desc) (far near : BitVec 256) : Bool :=
  descOk d && (dImage d ≤ 1 || (s.cluster cl).images.any (fun x => x.1 == 3 && x.2.1 == dImage d)) &&
    !(dImage d == 1 && dNodeA d == dNodeB d) && bits (travBag j) 63 56 == 0xFE && bits (travBag j) 39 32 == cl &&
    stageOk far && stageOk near
/-- The words of a saddlebag entry. -/
def pairBytes (p : Nat × Nat) : List Byte := bytesOfNat 16 (p.1 % 2 ^ 32 + p.2 % 2 ^ 32 * 2 ^ 32)
/-- Push pairs, the last of the list first (R255). -/
def State.pushBag (s : State) (j : Job) : List (Nat × Nat) → List (Nat × Nat) → JRes (List (Nat × Nat))
  | [], bag => .ok s bag
  | p :: r, bag =>
    (s.jobWrite j pathPfe (ptrAdd (travBag j) (16 * bag.length : Nat)) (pairBytes p)).bind fun s _ => s.pushBag j r (p :: bag)
/-- What the look ahead finds at a node: its bytes, that it may not be read on path PFE (R315), or that the job ends there for another
reason. -/
inductive Look where
  | node (n : Nat)
  | unfenced
  | stop
/-- Look at a node. One that is not mapped, or that moves, holds the job as a read of it does (log 20). -/
def State.lookNode (s : State) (j : Job) (base count : Nat) (i : Nat) : JRes Look :=
  let ptr := ptrAdd base (64 * i : Nat)
  let s := s.engWalked j ptr 64 .r
  match s.probeJob j ptr 64 .r with
  | .trap _ => .ok s .stop
  | .page va m => .hold s va m
  | .at p =>
    if s.moves p then .busy s false
    else
      match s.checkSpot (s.jobWho j pathPfe) .read p 64, p with
      | some 0x09, _ => .ok s .unfenced
      | none, .mem key _ _ _ => .ok s (if nodeBad j.pfe.desc count (s.rd key 64) then .stop else .node (s.rd key 64))
      | _, _ => .ok s .stop
/-- Some pair that the pairs of a list lead to, before one at which the job ends for another reason, has a node that may not be read on path
PFE: the job then emits nothing (R260). `fuel`: as many pairs as two trees have. -/
def State.travUnfenced (s : State) (cl : Nat) (j : Job) : Nat → List (Nat × Nat) → JRes Bool
  | 0, _ => .ok s false
  | _, [] => .ok s false
  | fuel + 1, x :: r =>
    let d := j.pfe.desc
    (s.lookNode j (dNodeA d) (dCountA d) x.1).bind fun s na =>
      (s.lookNode j (dNodeB d) (dCountB d) x.2).bind fun s nb =>
        match na, nb with
        | .unfenced, _ | _, .unfenced => .ok s true
        | .node na, .node nb =>
          let self := dNodeA d == dNodeB d && x.1 == x.2 && dImage d != 1
          (match decidePair self (!self && s.accept cl d na nb) x.1 x.2 na nb with
           | .emit _ => s.travUnfenced cl j fuel r
           | .fork l => s.travUnfenced cl j fuel (l ++ r))
        | _, _ => .ok s false
/-- While a traversal of the queue manager runs, its saddlebag belongs to path PFE (R253). -/
def State.ownBag (s : State) (j : Job) : State :=
  if !j.qm || s.owned.any (fun o => o.path == pathPfe && o.agent == j.agent) then s
  else
    let key := cmKey (bits (travBag j) 39 32) (travBag j % 2 ^ 32)
    { s with owned := s.owned ++ [{ base := key, rows := 1, stride := 0, width := 2 ^ 22 - travBag j % 2 ^ 32, path := pathPfe,
                                    agent := j.agent, gid := 0, observed := false }] }
/-- The start: checks, then the root pair. -/
def State.travStart (s0 : State) (cl : Nat) (j : Job) : State :=
  let s := s0.ownBag j
  if !pfeHeadOk j || j.f 511 320 != 0 then s.pfeEnd cl j 0x01
  else if travTree j % 64 != 0 || travBag j % 16 != 0 then s.pfeEnd cl j 0x15
  else
    pfeRes cl j ((s.jobReadN j pathPfe (travTree j) 64).bind fun s d =>
      (s.jobReadN j pathPfe (j.f 255 192) 32).bind fun s f =>
        (s.jobReadN j pathPfe (j.f 319 256) 32).bind fun s n => .ok s (d, f, n)) fun s (d, f, n) =>
      let D := BitVec.ofNat 512 d
      let F := BitVec.ofNat 256 f
      let N := BitVec.ofNat 256 n
      if !s.travOk cl j D F N then s.pfeEnd cl j 0x01
      else
        let root := [(dRootA D, dRootB D)]
        let k := j.withPfe { j.pfe with desc := D, far := F, near := N }
        pfeRes cl j (s.travUnfenced cl k (dCountA D * dCountB D) root) fun s bad =>
          if bad then s.pfeEnd cl j 0x09
          else
            pfeRes cl j (s.pushBag j root []) fun s bag =>
              s.setHead cl .pfe { k.withPfe { k.pfe with bag := bag } with pos := 1 }
/-- The next pair, and the state without it: from the descent, else from the saddlebag. -/
def Pfe.pop (p : Pfe) : Option ((Nat × Nat) × Bool × Pfe) :=
  match p.stack with
  | (x :: r) :: t => some (x, true, { p with stack := if r.isEmpty then t else r :: t })
  | _ =>
    match p.bag with
    | x :: r => some (x, false, { p with bag := r })
    | [] => none
/-- Decide one pair. -/
def State.travDecide (s : State) (cl : Nat) (j : Job) (x : Nat × Nat) (descent : Bool) (p : Pfe) : State :=
  let d := p.desc
  let self := dNodeA d == dNodeB d && x.1 == x.2 && dImage d != 1
  pfeRes cl j ((s.readNode j (dNodeA d) x.1).bind fun s na =>
    (s.readNode j (dNodeB d) x.2).bind fun s nb => .ok s (na, nb)) fun s (na, nb) =>
    if nodeBad d (dCountA d) na then s.malformed cl j (travBag j) x.1
    else if nodeBad d (dCountB d) nb then s.malformed cl j (travBag j) x.2
    else
      let s := s.countJob j 0x30 1
      match decidePair self (!self && s.accept cl d na nb) x.1 x.2 na nb with
      | .emit k =>
        s.setHead cl .pfe (j.withPfe { p with pending := p.pending ++ [{ a := x.1, b := x.2, kind := k, slot := none, filling := false }] })
      | .fork l =>
        if !descent && p.bag.length + l.length ≤ dCap d then
          pfeRes cl j (s.pushBag j l.reverse p.bag) fun s bag => s.setHead cl .pfe (j.withPfe { p with bag := bag })
        else
          let s := if descent then s else s.countJob j 0x31 1
          s.setHead cl .pfe (j.withPfe { p with stack := l :: p.stack })
/-- Whether a task may be decided beside others that wait: not in serial mode (R258), nor once one waits at its claimed
slot (R259). -/
def Pfe.mayDecide (p : Pfe) : Bool :=
  p.pending.isEmpty || (!dSeq p.desc && p.pending.length < 4 && p.pending.all (fun e => e.slot.isNone))
/-- A step of TRAVERSE. At the end the saddlebag is zeroed (R260). -/
def State.traverse (s : State) (cl : Nat) : State :=
  s.onHead cl .pfe .traverse fun s j =>
    if j.pos == 0 then s.travStart cl j
    else if !j.pfe.mayDecide then s
    else
      match j.pfe.pop with
      | some (x, descent, p) => s.travDecide cl j x descent p
      | none =>
        if !j.pfe.pending.isEmpty then s
        else
          pfeRes cl j (s.jobWrite j pathPfe (travBag j) (List.replicate (16 * dCap j.pfe.desc) 0)) fun s _ =>
            s.pfeEnd cl j 0
def execTraverse (cl : Nat) (s : State) : Host.Outcome State Fault Refusal := .next (s.traverse cl)

/-! ### Sweeps -/

def sweepTree (j : Job) : Nat := j.f 127 64
def sweepBase (j : Job) : Nat := j.f 255 192
def sweepAt (j : Job) (x : Nat) : Nat := ptrAdd (sweepBase j) (4 * x : Nat)
/-- The counter array belongs to path PFE (R261), as far as its pages are mapped. -/
def State.ownCounters (s : State) (j : Job) (n : Nat) : State :=
  { s with owned := s.owned.filter (fun o => !(o.path == pathPfe && o.agent == j.agent)) ++
    (piecesOf (sweepBase j) (4 * n)).filterMap fun (p, m) =>
      (s.vKey j.vf p).map fun k => { base := k, rows := 1, stride := 0, width := m, path := pathPfe, agent := j.agent,
                                     gid := 0, observed := false : Owned } }
/-- The first value of a node's counter. -/
def State.firstCount (s : State) (j : Job) (up : Bool) (d : Desc) (x : Nat) : JRes Nat :=
  if up then (s.readNode j (dNodeA d) x).bind fun s n => .ok s (nKids n)
  else .ok s (if x == dRootA d then 0 else 1)
/-- Write counters from node x on. -/
def State.initCounts (s : State) (j : Job) (up : Bool) (d : Desc) : Nat → Nat → RunEnd
  | 0, _ => .done s
  | n + 1, x =>
    match (s.firstCount j up d x).bind fun s v => s.jobWrite j pathPfe (sweepAt j x) (bytesOfNat 4 v) with
    | .ok s1 _ => s1.initCounts j up d n (x + 1)
    | .busy s1 bank => .busy s1 x bank
    | .hold s1 va m => .hold s1 x va m
    | .fail s1 st => .fail s1 x st
def State.sweepInit (s : State) (cl : Nat) (j : Job) (up : Bool) (done : Nat) : State :=
  let d := j.pfe.desc
  match (s.ownCounters j (dCountA d)).initCounts j up d (dCountA d - done) done with
  | .busy s1 x bank => s1.bankJob cl .pfe (j.goesOn (x + 1)) bank
  | .hold s1 x va m => s1.holdJob cl .pfe (j.goesOn (x + 1)) pathPfe va m
  | .fail s1 _ st => s1.pfeEnd cl j st
  | .done s1 =>
    s1.setHead cl .pfe { j.withPfe { j.pfe with walk := [(dRootA d, 0)] } with pos := dCountA d + 1 }
def State.sweepStart (s : State) (cl : Nat) (j : Job) (up : Bool) : State :=
  if !pfeHeadOk j || j.f 511 256 != 0 then s.pfeEnd cl j 0x01
  else if sweepTree j % 64 != 0 || sweepBase j % 4 != 0 then s.pfeEnd cl j 0x15
  else
    pfeRes cl j ((s.jobReadN j pathPfe (sweepTree j) 64).bind fun s d =>
      (s.jobReadN j pathPfe (j.f 191 128) 32).bind fun s r => .ok s (d, r)) fun s (d, r) =>
      let D := BitVec.ofNat 512 d
      let R := BitVec.ofNat 256 r
      if !sweepDescOk D || !stageOk R then s.pfeEnd cl j 0x01
      else
        s.sweepInit cl { j with pfe := { j.pfe with desc := D, near := R } } up 0
/-- A visit: the node's task goes out, or is deferred while its counter is not zero. -/
def State.visit (s : State) (cl : Nat) (j : Job) (up : Bool) (x : Nat) (p : Pfe) : State :=
  pfeRes cl j (s.jobReadN j pathPfe (sweepAt j x) 4) fun s v =>
    if v == 0 then
      s.setHead cl .pfe (j.withPfe { p with
        pending := p.pending ++ [{ a := x, b := 0, kind := if up then 2 else 3, slot := none, filling := false }] })
    else s.setHead cl .pfe (j.withPfe { p with deferred := p.deferred ++ [x] })
/-- One move of the walk: to the next child, or a visit. -/
def State.sweepWalk (s : State) (cl : Nat) (j : Job) (up : Bool) (x k : Nat) (t : List (Nat × Nat)) : State :=
  let d := j.pfe.desc
  pfeRes cl j (s.readNode j (dNodeA d) x) fun s n =>
    if nodeBad d (dCountA d) n then s.malformed cl j (sweepBase j) x
    else if !up && k == 0 then s.visit cl j up x { j.pfe with walk := (x, 1) :: t }
    else
      let i := if up then k else k - 1
      if i < nKids n then s.setHead cl .pfe (j.withPfe { j.pfe with walk := (nFirst n + i, 0) :: (x, k + 1) :: t })
      else if up then s.visit cl j up x { j.pfe with walk := t }
      else s.setHead cl .pfe (j.withPfe { j.pfe with walk := t })
/-- In serial mode a task goes out once the group of the one before it has retired (R261). -/
def Pfe.mayVisit (p : Pfe) : Bool := p.mayDecide && (!dSeq p.desc || (p.tasks.isEmpty && p.retired.isEmpty))
def State.sweep (s : State) (cl : Nat) (up : Bool) : State :=
  s.onHead cl .pfe (if up then .sweepup else .sweepdn) fun s j =>
    if j.pos == 0 then s.sweepStart cl j up
    else if j.pos ≤ dCountA j.pfe.desc then s.sweepInit cl j up (j.pos - 1)
    else if !j.pfe.mayVisit then s
    else
      match j.pfe.walk with
      | (x, k) :: t => s.sweepWalk cl j up x k t
      | [] =>
        if j.pfe.pending.isEmpty && j.pfe.tasks.isEmpty && j.pfe.retired.isEmpty then s.pfeEnd cl j 0 else s
def execSweepup (cl : Nat) (s : State) : Host.Outcome State Fault Refusal := .next (s.sweep cl true)
def execSweepdn (cl : Nat) (s : State) : Host.Outcome State Fault Refusal := .next (s.sweep cl false)

/-- The nodes whose counters a retired task decrements. -/
def State.dependents (s : State) (j : Job) (x : Nat) : JRes (List Nat) :=
  (s.readNode j (dNodeA j.pfe.desc) x).bind fun s n =>
    .ok s (if j.cmd == .sweepup then (if x == dRootA j.pfe.desc then [] else [nParent n]) else kids n)
/-- Decrement one counter; at zero a deferred node's task goes out. -/
def State.decOne (s : State) (j : Job) (acq : Option Acq) (y : Nat) : JRes Job :=
  (s.jobReadN j pathPfe (sweepAt j y) 4).bind fun s v =>
    let p := j.pfe
    let p1 := { p with deps := p.deps ++ (match acq with | some a => [(y, a)] | none => []) }
    let free := v == 1 && p.deferred.contains y
    let p2 := if free then
        { p1 with deferred := p1.deferred.filter (· != y),
                  pending := p1.pending ++ [{ a := y, b := 0, kind := if j.cmd == .sweepup then 2 else 3, slot := none, filling := false }] }
      else p1
    (s.jobWrite j pathPfe (sweepAt j y) (bytesOfNat 4 (v - 1))).bind fun s _ => .ok s (j.withPfe p2)
/-- Decrement the counters of a list, those of the first retired task that are left (R261); one at which the job waits keeps the rest. -/
def State.decAll (s : State) (cl : Nat) (acq : Option Acq) : Job → List Nat → State
  | j, [] => s.setHead cl .pfe (j.withPfe { j.pfe with retired := j.pfe.retired.drop 1, left := none })
  | j, y :: r =>
    let j1 := { j with pfe := { j.pfe with left := some (y :: r) } }
    pfeRes cl j1 (s.decOne j1 acq y) fun s j2 => s.decAll cl acq j2 r
/-- The first retired task whose decrements are to come (R261). -/
def State.sweepDecrement (s : State) (cl : Nat) : State :=
  match (s.jobs cl .pfe).head? with
  | none => s
  | some j =>
    match j.ready, j.pfe.retired with
    | true, (x, acq) :: _ =>
      pfeRes cl j (match j.pfe.left with | some l => .ok s l | none => s.dependents j x) fun s l => s.decAll cl acq j l
    | _, _ => s
def execSweepCounterDecrement (cl : Nat) (s : State) : Host.Outcome State Fault Refusal := .next (s.sweepDecrement cl)

/-! ### Emission (R259) -/

/-- Where a job's accesses stand, for the scope of its acquires and releases. -/
def Job.loc (j : Job) : Loc :=
  match j.senders.head? with
  | some x => { vf := j.vf, launch := j.launch.getD 0, gid := x.gid, core := x.core }
  | none => { vf := j.vf, launch := j.launch.getD 0, gid := 0, core := 0 }
/-- The job acquires the latest release of a variable at .pk, in every view it is checked by. -/
def State.jobAcquire (s : State) (j : Job) (var : Nat) : Job :=
  match s.relOf var 1 s.tick .pk j.loc with
  | none => j
  | some r =>
    let a : Acq := { var := r.var, agent := r.agent, tag := r.tag }
    { j with senders := j.senders.map fun (x : Sender) => { x with sync := { x.sync with acq := x.sync.acq ++ [a] } } }
/-- The stage record of a task's queue: far for accepted pairs. -/
def Pfe.record (p : Pfe) (e : Emit) : BitVec 256 := if e.kind == 0 then p.far else p.near
def entryBytes (r : BitVec 256) (e : Emit) (seqno : Nat) : List Byte :=
  bytesOfNat (stEsize r) (e.a % 2 ^ 32 + e.b % 2 ^ 32 * 2 ^ 32 + e.kind * 2 ^ 64 + seqno % 2 ^ 32 * 2 ^ 96)
/-- Claim an index: an atomic add to widx. -/
def State.claimIndex (s : State) (j : Job) (r : BitVec 256) : JRes Nat :=
  let w := s.jobWho j pathPfe
  (s.jobSpots j w .atomic .rw false [(stCtrl r, 4)]).bind fun s l =>
    match l with
    | [(.mem key home t e, _)] =>
      let p := Spot.mem key home t e
      .ok (((s.noteSpot w .atomic p 4).engChanged j.vf (stCtrl r) p 4).store key (bytesOfNat 4 ((s.rd key 4 + 1) % 2 ^ 32)))
        (s.rd key 4 % stQcap r)
    | _ => .ok s 0
/-- Claim the slot at the claimed index, if it is empty: an acquire of the free that emptied it. -/
def State.claimSlot (s : State) (j : Job) (r : BitVec 256) (n : Nat) : JRes (Option Job) :=
  let w := s.jobWho j pathPfe
  (s.jobSpots j w .tag .rw false [(stTag r n, 1)]).bind fun s l =>
    match l with
    | [(.mem key home t f, _)] =>
      if s.rd key 1 % 4 != 0 then .ok ((s.engLines j.vf (.mem key home t f) 1 false).engTouched j.vf (stTag r n) 1) none
      else
        let s1 := ((s.noteSpot w .tag (.mem key home t f) 1).engChanged j.vf (stTag r n) (.mem key home t f) 1).store key
          [BitVec.ofNat 8 (tagPut (s.rd key 1) 1)]
        .ok s1 (some (s1.jobAcquire j key))
    | _ => .ok s none
/-- Write the entry into its slot and publish it. -/
def State.fillSlot (s : State) (j : Job) (r : BitVec 256) (e : Emit) (n : Nat) : JRes Unit :=
  (s.jobWrite j pathPfe (stEntry r n) (entryBytes r e j.pfe.seqno)).bind fun s _ => s.publishSlot j pathPfe (stTag r n)
/-- The entry's number and slot are its own, and it goes out; where that waits, the slot stays filling. -/
def State.emitEntry (s : State) (cl i : Nat) (j : Job) (e : Emit) (n : Nat) : State :=
  let p := { j.pfe with pending := j.pfe.pending.set i { e with filling := true } }
  pfeRes cl { j with pfe := p } (s.fillSlot j (p.record e) e n) fun s _ =>
    s.setHead cl .pfe (j.withPfe { p with pending := p.pending.eraseIdx i, seqno := p.seqno + 1,
                                          tasks := if 2 ≤ e.kind then p.tasks ++ [e.a] else p.tasks })
/-- The decided task that goes out: of a traversal's any (R258), of a sweep's the first, since they are emitted in the order in which
their nodes were visited or came free (R261). -/
def Job.emitPlace (j : Job) (i : Nat) : Nat := if j.cmd == .traverse then i else 0
/-- Emission of a decided task: the claim of an index, then that of its slot once it is empty, with the entry. -/
def State.pfeEmit (s : State) (cl i0 : Nat) : State :=
  match (s.jobs cl .pfe).head? with
  | none => s
  | some j =>
    let i := j.emitPlace i0
    match j.ready, j.pfe.pending[i]? with
    | true, some e =>
      let p := j.pfe
      match e.slot with
      | none =>
        pfeRes cl j (s.claimIndex j (p.record e)) fun s n =>
          s.setHead cl .pfe (j.withPfe { p with pending := p.pending.set i { e with slot := some n } })
      | some n =>
        if e.filling then s.emitEntry cl i j e n
        else
          pfeRes cl j (s.claimSlot j (p.record e) n) fun s o =>
            match o with
            | none => s.setHead cl .pfe (j.withPfe p)
            | some j1 => s.emitEntry cl i j1 e n
    | _, _ => s
def execPfeEmitEntry (cl i : Nat) (s : State) : Host.Outcome State Fault Refusal := .next (s.pfeEmit cl i)

end Sys2Proof.Machine
end

