-- ==== Sys2Proof/Machine/Sys.lean ====
section
/-! DEFINITION. Class S: CSRs (R325, R312, R214), traps and returns (R326, R321), idle, xlinv (R223), logrp (R221, R222) and
wdead (R344). -/

namespace Sys2Proof.Machine

/-! ### CSRs -/

/-- The checks of R325 before a CSR is read, and written where `w` holds. -/
def csrGate (s : State) (c : Ctx) (n : Nat) (w : Bool) (k : Act) : Act :=
  if !csrAssigned n then .raise s 0x01
  else if csrSupOnly n && !c.csr.mode then .raise s 0x14
  else if w && (csrReadOnly n || (!c.csr.mode && csrSupWrite n)) then .raise s 0x14
  else k
/-- Write a CSR and then, for csrx, the register. A write of COHMODE releases at .pk, and the
slices write back the function's lines (R312). -/
def csrWrite (s : State) (g : Group) (c : Ctx) (n : Nat) (v : Word) (d : Option (BitVec 5)) (old : Word) : Act :=
  if n == 0x100 && v.toNat % 4 != 0 then .raise s 0x15
  else
    let fin := fun (s : State) =>
      let s1 := (if n == 0x105 then s.cleanSlices fun l => l.vf == g.vf else s).csrPut g c n v
      match d with
      | some d => Act.done (s1.updCtx g.id c.num fun x => x.writeX d old)
      | none => .done s1
    if n == 0x105 then releaseGate s g c fun s => fin (s.updCtx g.id c.num Ctx.release) else fin s
def csrxNew (op : CsrxOp) (old v : Word) : Word :=
  match op with
  | .swap => v
  | .set => old ||| v
  | .clr => old &&& ~~~v
def csrwX (i : Instr) (n : Nat) (a : BitVec 5) (s : State) :=
  runS i s fun s g c => csrGate s c n true (csrWrite s g c n (c.readX a) none 0)
def csrxX (i : Instr) (op : CsrxOp) (d : BitVec 5) (n : Nat) (a : BitVec 5) (s : State) :=
  runS i s fun s g c =>
    let old := s.csrValue g c n
    csrGate s c n true (csrWrite s g c n (csrxNew op old (c.readX a)) (some d) old)
def execCsrr (d : BitVec 5) (csr : BitVec 12) (s : State) :=
  runS (.csrr d csr) s fun s g c =>
    csrGate s c csr.toNat false (.done (s.updCtx g.id c.num fun x => x.writeX d (s.csrValue g c csr.toNat)))
def execCsrw (csr : BitVec 12) (a : BitVec 5) (s : State) := csrwX (.csrw csr a) csr.toNat a s
def execCsrx (op : CsrxOp) (d : BitVec 5) (csr : BitVec 12) (a : BitVec 5) (s : State) :=
  csrxX (.csrx op d csr a) op d csr.toNat a s
/-- A write by csrw or csrx of the CSR that has a row of its own. -/
def csrRow (i : Instr) (n : Nat) (w : CsrWr) (a : BitVec 5) (s : State) :=
  match w with
  | .csrw => csrwX i n a s
  | .csrx op d => csrxX i op d n a s
def execCohmodeWrite (w : CsrWr) (a : BitVec 5) (s : State) := csrRow (.cohmodeWrite w a) 0x105 w a s
def execBndtWrite (w : CsrWr) (a : BitVec 5) (s : State) := csrRow (.bndtWrite w a) 0x106 w a s

/-! ### Traps, returns, idle -/

def execTrap (s : State) := runS .trap s fun s _ _ => .trap s 0x30 (some 0) true
def execTrapN (n : BitVec 23) (s : State) := runS (.trapN n) s fun s _ _ => .trap s 0x30 (some (n.setWidth 64)) true
def execBrk (s : State) := runS .brk s fun s _ _ => .raise s 0x31
/-- eret (R321); the entries of the side log that have failed for this context are gone (R222). -/
def execEret (s : State) :=
  runS .eret s fun s g c =>
    if !c.csr.mode then .raise s 0x14
    else if !c.csr.intrap then .raise s 0x01
    else .moved ((s.updCtx g.id c.num Ctx.leaveTrap).updGroup g.id fun x =>
      { x with log := x.log.filter fun e => !(e.failed.isSome && e.ctx == c.num) })
/-- idle (R326): its read of tail acts as an acquire of the records (R371). -/
def execIdle (d : BitVec 5) (s : State) :=
  runS (.idle d) s fun s g c =>
    supervisor s c
      (if s.fqCount g.vf == 0 then .wait s (.other false)
       else .done (s.updCtx g.id c.num fun x => ((x.acquireNone.acquiredAt s.tick).writeX d (wordOf (s.fqCount g.vf))).seeBoth))
def execWdead (a : BitVec 5) (s : State) :=
  runS (.wdead a) s fun s g c =>
    let m := c.readX a
    .done (s.updCtx g.id c.num fun x =>
      (x.markX (m.setWidth 32)).markV ((m >>> 32).setWidth 32) (kRegs g.kobj))

/-! ### xlinv -/

/-- Held accesses and jobs of a virtual function whose address satisfies p are let go, to perform afresh (R219, R237). -/
def Ctx.retry (p : Nat → Bool) (c : Ctx) : Ctx :=
  let a := match c.heldA with | some v => p v.toNat | none => false
  let e := match c.heldE with | some v => p v.toNat | none => false
  { c with heldA := if a then none else c.heldA, heldE := if e then none else c.heldE, retryA := c.retryA || a,
           retryE := c.retryE || e }
def Job.retry (vf : Nat) (p : Nat → Bool) (j : Job) : Job :=
  match j.phase with
  | .held v m _ => if j.vf == vf && p v.toNat then { j with phase := .held v m false } else j
  | _ => j
def State.retryHeld (s : State) (vf : Nat) (p : Nat → Bool) : State :=
  { s with groups := s.groups.map fun (g : Group) => if g.vf == vf then { g with ctxs := g.ctxs.map (Ctx.retry p) } else g,
           clusters := s.clusters.map fun (n, c) =>
             (n, allEng.foldl (fun (c : Cluster) e => c.setQueue e ((c.queue e).map (Job.retry vf p))) c),
           heldWrites := s.heldWrites.map fun (h : HeldWrite) => { h with retry := h.retry || (h.write.vf == vf && p h.va) } }
/-- Something that an xlinv has let go has not performed again yet (R223). -/
def State.retrying (s : State) (vf : Nat) : Bool :=
  s.groups.any (fun g => g.runs && g.vf == vf && g.ctxs.any fun c => c.retryA || c.retryE) ||
    s.heldWrites.any (fun h => h.write.vf == vf && h.retry) ||
    s.allJobs.any fun (_, _, j) => j.vf == vf && (match j.phase with | .held _ _ false => true | _ => false)
/-- Drop the kept translations of a virtual function whose page name satisfies p. -/
def State.dropXlat (s : State) (vf : Nat) (p : Nat → Bool) : State :=
  { s with xlat := s.xlat.filter fun (k, n, _) => !(k / 256 == vf && p n) }
/-- xlinv.pg on an address (R223): its page, or the whole 4 GiB leaf it lies in. -/
def State.xlinvPage (s : State) (vf va : Nat) : State :=
  let s1 := s.dropXlat vf fun n => n == keptName va true || n == keptName va false
  let big := s.xlat.any (fun (k, n, _) => k / 256 == vf && n == keptName va true) ||
    (match s.walk vf va with | .leaf _ b => b | .none _ => false)
  s1.retryHeld vf fun v => keptName v false == keptName va false || (big && keptName v true == keptName va true)
def State.xlinvEvery (s : State) (vf : Nat) : State := (s.dropXlat vf fun _ => true).retryHeld vf fun _ => true
/-- An xlinv: the release before it, the discard, and the wait until what it let go has performed again (R223). -/
def xlinvX (i : Instr) (sup : Bool) (f : State → Group → Ctx → State) (s : State) :=
  runS i s fun s g c =>
    if sup && !c.csr.mode then .raise s 0x14
    else
      let fin := fun (s : State) => if s.retrying g.vf then Act.wait s (.other false) else .done s
      if c.xlinvOn then fin s
      else
        releaseGate s g c fun s =>
          fin ((f (s.updCtx g.id c.num Ctx.release) g c).updCtx g.id c.num fun x => { x with xlinvOn := true })
def execXlinvPg (a : BitVec 5) (s : State) :=
  xlinvX (.xlinvPg a) true (fun s g c => s.xlinvPage g.vf ((c.readX a).toNat % 2 ^ 56)) s
def execXlinvAll (s : State) := xlinvX .xlinvAll true (fun s g _ => s.xlinvEvery g.vf) s
def execXlinvBnd (s : State) :=
  xlinvX .xlinvBnd false (fun s g c => s.updCtx g.id c.num fun x => { x with bounds := [] }) s

/-! ### logrp -/

/-- How a replay ends: with no entry left that it can perform, at one that waits, or at one that has failed, with its cause. -/
inductive ReplayEnd where
  | ends
  | waits
  | fails (e : LogEntry) (cause : Nat)
/-- Replay up to n entries of a group's log (R221): the count, and how it ends. An entry that fails stays first, marked, until its
context's handler returns (R222). -/
def State.replay (s : State) (gid : Nat) : Nat → State × Nat × ReplayEnd
  | 0 => (s, 0, .ends)
  | n + 1 =>
    match s.group? gid with
    | none => (s, 0, .ends)
    | some g =>
      match g.log with
      | [] => (s, 0, .ends)
      | e :: r =>
        if e.failed.isSome then (s, 0, .ends)
        else
        match s.replayEntry g e with
        | .unmapped => (s, 0, .ends)
        | .moves => (s, 0, .waits)
        | .failed s1 cause => (s1.updGroup gid fun x => { x with log := { e with failed := some cause } :: r }, 0, .fails e cause)
        | .gone s1 =>
          let s2 := s1.updGroup gid fun x => { x with log := x.log.drop 1 }
          let (s3, k, f) := s2.replay gid n
          (s3, k + 1, f)
/-- The context of a failed entry takes its cause at its instruction boundary, or at the release that waits for it (R222). -/
def State.failEntry (s : State) (gid : Nat) (f : ReplayEnd) : State :=
  match f with
  | .ends | .waits => s
  | .fails e cause =>
    match s.group? gid with
    | none => s
    | some g =>
      match g.ctx? e.ctx with
      | none => s
      | some c =>
        if c.relWait.isSome then (s.updCtx gid e.ctx Ctx.rejoin).takeTrap gid e.ctx cause e.va c.pcA c.pcA
        else
          let d := s.settled g c
          (s.settle g c).takeTrap gid e.ctx cause e.va d.pcA d.pcE
def execLogrp (d a : BitVec 5) (s : State) :=
  runS (.logrp d a) s fun s g c =>
    supervisor s c <|
      let n := (c.readX a).toNat
      match (if n ≤ 2047 then s.groupOn? n else none) with
      | none => .raise s 0x12
      | some h =>
        if h.vf != g.vf then .raise s 0x12
        else
          let (s1, k, f) := s.replay h.id h.log.length
          match f with
          | .waits => .wait (s1.updCtx g.id c.num fun x => { x with replayed := c.replayed + k }) (.other false)
          | f =>
            let s2 := s1.updCtx g.id c.num fun x => (x.writeX d (wordOf (c.replayed + k))).nextA (offPtr c.pcA (Instr.logrp d a).size)
            .moved (s2.failEntry h.id f)

end Sys2Proof.Machine
end

