-- ==== Sys2Proof/Machine/Ending.lean ====
section
/-! DEFINITION. Kernel objects (R51-R58), how a helper and a group end (R93-R95, R335, R341, R274), and the binding of tiles
(R242, R342). -/

namespace Sys2Proof.Machine

/-! ### Kernel objects -/

/-- The checks of R58 on one object, read at a pointer. A footprint length above 2^56, which R51's table excludes and R58 does not
list, is accepted and the footprint ends at 2^56 (log 74). Bits [127:100] of the inhm field are no reserved field here, and no INHM takes
them (log 106, DESIGN CHOICE). -/
def kernelOk (ptr : Nat) (k : BitVec 1024) : Bool :=
  kf k 1023 704 == 0 && kf k 383 320 == 0 && kf k 191 176 == 0 && kf k 127 100 == 0 && kf k 95 94 == 0 &&
    kf k 87 86 == 0 && kf k 79 73 == 0 && ptr % 64 == 0 && kf k 1 0 == 0 && kClass k != 3 && kHelpers k ≤ 10 &&
    kAcc k ≤ 4 && kRu k + kScratch k + kCache k ≤ 64 && !(kClass k == 0 && kBudget k == 0) && !(kSup k && kClass k == 0)
/-- The checks of R58 on a ladder, top first, each rung with its pointer; `more`: it has more than four rungs. -/
def ladderOk (l : List (Nat × BitVec 1024)) (more : Bool) : Bool :=
  !more && l.all (fun x => kernelOk x.1 x.2) &&
    (match l with
     | [] => false
     | x :: r => r.all fun y => kClass y.2 == kClass x.2)
/-- The next rung's pointer, which classes I and B ignore (R56). -/
def nextRung (k : BitVec 1024) : Nat := if kClass k == 0 then kRung k else 0

/-! ### Jobs of a group -/

/-- A job has a sender in the group that still waits for it. -/
def Job.sentBy (j : Job) (gid : Nat) : Bool := j.senders.any fun x => x.gid == gid && x.live
def Job.isZset (j : Job) : Bool := match j.cmd with | .zclr _ | .zrow _ _ _ => true | _ => false
/-- A zset command into a tile of the group. -/
def Job.zsetOf (j : Job) (g : Group) : Bool :=
  j.isZset && j.launch == some g.launch && (match j.tile? with | some t => g.tiles.contains t | none => false)
/-- The group's jobs that have not written their completion (R232), with their places. -/
def State.groupJobs (s : State) (g : Group) : List (Nat × Eng × Job) :=
  s.allJobs.filter fun (cl, _, j) => j.sentBy g.id || (cl == clusterOf g.core && j.zsetOf g)
/-- A scratch byte of a CVR job's target lies in a unit of 64 KiB that INHM names (R341). -/
def targetInherited (j : Job) (inhm : Guard) : Bool :=
  let t := j.target
  (List.range t.th).any fun r =>
    let lo := t.acc + r * t.stride
    (List.range 16).any fun i => inhm.getLsbD (80 + i) && lo < 65536 * (i + 1) && 65536 * i < lo + 4 * t.tw
/-- The tiles that an INHM hands over. -/
def Group.inherits (g : Group) (inhm : Guard) : List Nat :=
  ((g.tiles.zipIdx).filter fun (_, i) => inhm.getLsbD (96 + i)).map (·.1)
/-- A tile of a cluster is one that the group hands over. -/
def Group.handsTile (g : Group) (inhm : Guard) (cl t : Nat) : Bool := cl == clusterOf g.core && (g.inherits inhm).contains t
/-- A job of a cluster's engine into a tile or scratch that is handed over. -/
def Job.inherited (j : Job) (g : Group) (inhm : Guard) (cl : Nat) : Bool :=
  match j.tile? with
  | some t => g.handsTile inhm cl t
  | none => j.cmd == .raster && targetInherited j inhm
/-- Retirement waits for a job of a cluster's engine (R341): `inhm` is 0 at a retire. -/
def Job.awaited (j : Job) (g : Group) (inhm : Guard) (cl : Nat) : Bool :=
  if (match j.tile? with | some t => g.handsTile inhm cl t | none => false) then false
  else if j.cmd == .raster && targetInherited j inhm then true
  else !kDrop g.kobj
def State.jobsAwaited (s : State) (g : Group) (inhm : Guard) : Bool :=
  (s.groupJobs g).any fun (cl, _, j) => j.awaited g inhm cl
/-- Jobs that are neither waited for nor handed over write no record and raise no line (R341). -/
def State.dropJobs (s : State) (g : Group) (inhm : Guard) : State :=
  { s with clusters := s.clusters.map fun (n, c) =>
      (n, allEng.foldl (fun (c : Cluster) e => c.setQueue e ((c.queue e).map fun (j : Job) =>
        if j.inherited g inhm n then j
        else { j with senders := j.senders.map fun (x : Sender) => if x.gid == g.id then { x with live := false } else x })) c) }

/-! ### Tiles -/

/-- A tile that no group holds and no dropped command still writes (R242, R341). -/
def State.tileFree (s : State) (cl t : Nat) : Bool :=
  s.groups.all (fun g => !(g.tiles.contains t && clusterOf g.core == cl)) &&
    (s.jobs cl .mxe).all fun j => !(j.tile? == some t && j.senders.all (fun x => !x.live))
def State.freeTiles (s : State) (cl : Nat) : List Nat := (List.range 24).filter (s.tileFree cl)
/-- Handles to tiles: each 24 takes the next of the free ones. -/
def bindList : List Nat → List Nat → List Nat
  | [], _ => []
  | t :: r, f => if t == 24 then f.headD 24 :: bindList r (f.drop 1) else t :: bindList r f
/-- Bind the handles of a group that has any unbound once enough tiles are free, and clear them (R242, R342). -/
def State.bindTiles (s : State) (gid : Nat) : State :=
  match s.group? gid with
  | none => s
  | some g =>
    let cl := clusterOf g.core
    let f := s.freeTiles cl
    let n := g.tiles.count 24
    if f.length < n then s
    else
      (f.take n).foldl (fun (s : State) t => s.setTile cl t Tile.clear)
        (s.updGroup gid fun x => { x with tiles := bindList x.tiles f })

/-! ### Ends -/

/-- A member's end counts at every later phase of a barrier that it has (R290). -/
def State.lastArrival (s : State) (id : BarId) (member phase agent tag : Nat) (ended : List Nat) : State :=
  s.updBarrier id fun b =>
    { b with arrivals := b.arrivals ++
        [{ member := member, phase := phase, value := none, last := true, agent := agent, tag := tag, ended := ended }] }
/-- The variable of a helper's hend, which hwait acquires, and of a start, which the helper acquires (R95, R306). -/
def helperVar (gid n : Nat) : Nat := keyOf 7 (gid * 16 + n)
/-- hend (R95). A helper's zset commands have no job record, and it does not wait for them (log 110, DESIGN CHOICE). -/
def execHend (s : State) :=
  runS .hend s fun s g c =>
    if c.num == 0 then .raise s 0x01
    else if !kDrop g.kobj && s.allJobs.any (fun (_, _, j) => j.senders.any fun x => x.agent == c.sync.agent && x.live) then
      .wait s (.other false)
    else
      releaseGate s g c fun s =>
        let tag := c.relTag + 1
        let s1 := s.tock.relAt g c.sync.agent tag .co (helperVar g.id c.num)
        .moved ((s1.lastArrival (.co g.id) c.sync.agent c.arrCo c.sync.agent tag []).updGroup g.id fun x =>
          { x with ctxs := x.ctxs.filter (fun y => y.num != c.num), ended := x.ended ++ [c.sync.agent] })

/-- The scratch of a core reads zero from `lo` on, up to `hi`, and has no records (R91, R95, R342). -/
def State.clearKeys (s : State) (a b : Nat) : State :=
  let inside := fun (x : Nat) => a ≤ x && x < b
  { s with mem := s.mem.filter (fun x => !inside x.1), recs := s.recs.filter (fun x => !inside (x.1 * 4)),
           marks := s.marks.filter (fun x => !inside (x.1 * 4)), olds := s.olds.filter (fun x => !inside (x.1 * 4)),
           code := s.code.filter (fun x => !inside (x.1 * 64)) }
def State.clearScratch (s : State) (core lo hi : Nat) : State := s.clearKeys (scrKey core lo) (scrKey core hi)
/-- The slot of a stage group's entry moves: its end waits at the home slice (R226; log 112). -/
def State.entryMoves (s : State) (g : Group) : Bool :=
  match g.stage, g.slot, (s.launch? g.launch) with
  | some st, some n, some l => (match l.stages[st]? with | some x => s.vWaits [(g.vf, stTag x.record n, 1)] | none => false)
  | _, _, _ => false
/-- The entry of a stage group is handed back: its slot becomes empty (R80). -/
def State.freeEntry (s : State) (g : Group) (rel : Option (Nat × Nat)) : State :=
  match g.stage, g.slot, (s.launch? g.launch) with
  | some st, some n, some l =>
    match l.stages[st]? with
    | none => s
    | some x =>
      let ptr := stTag x.record n
      let s1 := (s.setTag g.vf ptr 0).tock
      (match rel with
       | some (a, t) => s1.relAt g a t .pk (s1.tagKey g.vf ptr)
       | none => s1)
  | _, _, _ => s
/-- The PFE learns that the group of a node task has retired (R261). -/
def State.taskRetired (s : State) (g : Group) (rel : Option (Nat × Nat)) : State :=
  match g.pfeTask with
  | none => s
  | some (agent, node) =>
    let acq := rel.map fun (a, t) => { var := keyOf 8 (g.id), agent := a, tag := t : Acq }
    { s with clusters := s.clusters.map fun (n, c) =>
        (n, { c with pfe := c.pfe.map fun (j : Job) =>
          if j.agent == agent then
            { j with pfe := { j.pfe with tasks := j.pfe.tasks.filter (· != node), retired := j.pfe.retired ++ [(node, acq)] } }
          else j }) }
/-- The barriers of a group above its core. -/
def groupScopes : List Scope := [.cl, .di, .pk, .pd]
def State.lastArrivals (s : State) (g : Group) (agent tag : Nat) : State :=
  groupScopes.foldl (fun (s : State) sc =>
    match s.barIdOf g sc with
    | some id => s.lastArrival id g.id (g.arrivalCount sc) agent tag g.ended
    | none => s) s
/-- A group ends (R335, R331): rel is the agent and tag of its release, none for a killed group. Its barriers, keys, tile,
stage entry, tiles, records and core are let go. -/
def State.endGroup (s : State) (gid : Nat) (rel : Option (Nat × Nat)) : State :=
  match s.group? gid with
  | none => s
  | some g =>
    let (agent, tag) := match rel, g.ctx? 0 with
      | some r, _ => r
      | none, some c => (c.sync.agent, c.relTag)
      | none, none => (0, 0)
    let s1 := (((s.abandonKeys g rel .pk).lastArrivals g agent tag).freeEntry g rel).taskRetired g rel
    let s2 := (s1.dropJobs g 0).updLaunch g.launch fun l =>
      { l with alive := l.alive - 1,
               retired := if l.kind == 2 && !g.tileRetired then l.retired ++ [g.index] else l.retired }
    let s3 := if g.runs then s2.clearScratch g.core 0 (2 ^ 20) else s2.clearKeys (savedKey gid) (savedKey gid + 2 ^ 20)
    { s3 with groups := s3.groups.filter (fun (x : Group) => x.id != gid),
              owned := s3.owned.filter (fun (o : Owned) => !(o.path == pathCvr && o.gid == gid)),
              barriers := s3.barriers.filter (fun (b : Barrier) => b.id != .co gid),
              keys := s3.keys.filter (fun x => x.2 != KeySt.free) }
/-- Act as retire once no helper is live (R335). -/
def retireX (s : State) (g : Group) (c : Ctx) : Act :=
  if s.jobsAwaited g 0 || s.entryMoves g then .wait s (.other false)
  else releaseGate s g c fun s => .moved (s.endGroup g.id (some (c.sync.agent, c.relTag + 1)))
def Group.helpers (g : Group) : Nat := (g.ctxs.filter fun c => c.num != 0).length
def execRetire (s : State) :=
  runS .retire s fun s g c =>
    controlOnly s c (if g.helpers != 0 then .wait s (.other false) else retireX s g c)

end Sys2Proof.Machine
end

