-- ==== Sys2Proof/Machine/Helpers.lean ====
section
/-! DEFINITION. Class S: helpers and the carve-out (R94, R95), the hand-off to a successor (R336-R343). -/

namespace Sys2Proof.Machine

/-- start (R54, R92, R95, R306). A helper starts in user mode (R317). -/
def execStart (d b : BitVec 5) (off : BitVec 23) (s : State) :=
  runS (.start d b off) s fun s g c =>
    controlOnly s c <|
      if kHelpers g.kobj == 0 then .raise s 0x01
      else if kHelpers g.kobj ≤ g.helpers then .wait s (.other false)
      else
        releaseGate s g c fun s =>
          let n := ((List.range 10).map (· + 1)).find? (fun n => (g.ctx? n).isNone)
          let num := n.getD 10
          let tag := c.relTag + 1
          let v := s.vf g.vf
          let h := Ctx.fresh num s.nextAgent (relTarget c.pcA off) (c.readX b) v.tvec v.bndt false
          let a : Acq := { var := helperVar g.id num, agent := c.sync.agent, tag := tag }
          let h1 : Ctx := { h with sync := h.sync.put a, accA := 1, seenA := 1, acqAt := s.tick + 1 }
          let s1 := (s.tock.updCtx g.id c.num fun x => x.release.writeX d (wordOf num)).updGroup g.id fun x =>
            { x with ctxs := x.ctxs ++ [h1] }
          let s2 := s1.updLaunch g.launch fun l => { l with agents := l.agents ++ [s.nextAgent] }
          .done { s2 with nextAgent := s.nextAgent + 1 }

/-- hwait (R95): both streams go on behind the acquire (R197, R306). -/
def execHwait (a : BitVec 5) (s : State) :=
  runS (.hwait a) s fun s g c =>
    controlOnly s c <|
      let n := (c.readX a).toNat
      if n < 1 || 10 < n then .raise s 0x01
      else if (g.ctx? n).isSome then .wait s (.other false)
      else .done ((s.acquireVar g.id c.num (helperVar g.id n) 1 s.tick .co).updCtx g.id c.num Ctx.seeBoth)

/-- carve (R95). The lines in cache units that become scratch are written back and gone. Which lines lie in them the spec does not say:
those that the core took or wrote first go, beyond what the remaining units hold (log 79). -/
def execCarve (d a : BitVec 5) (s : State) :=
  runS (.carve d a) s fun s g c =>
    controlOnly s c <|
      if g.helpers != 0 || s.scratchBusy g then .wait s (.other false)
      else
        let n := (c.readX a).toNat
        let st := fun (v : Nat) => Act.done (s.updCtx g.id c.num fun x => x.writeX d (wordOf v))
        if n < kScratch g.kobj then st 1
        else if (64 : Int) - g.ru - n < kCache g.kobj then st 2
        else if c.r.k.toList.any (fun k => 16384 * n ≤ k.toNat % 2 ^ 32 && k.toNat % 2 ^ 32 < winBase) then st 3
        else
          let lo := 16384 * min n g.scratch
          let s1 := (s.clearScratch g.core lo (2 ^ 20)).keepLines g.core (unitLines * (64 - g.ru - n))
          .done ((s1.updGroup g.id fun x => { x with scratch := n }).updCtx g.id c.num fun x => x.writeX d 0)

/-! ### rets -/

/-- Read an object as a load of its 128 bytes (R336). -/
def State.loadObject (s : State) (g : Group) (c : Ctx) (p : Word) : MRes (BitVec 1024) :=
  match s.load128 g c p 1 with
  | .wait s1 w => .wait s1 w
  | .trap s1 cause a => .trap s1 cause a
  | .ok s1 v => .ok s1 (BitVec.ofNat 1024 v)
/-- An object and the rungs it reaches, at most four, and whether there are more (R58). -/
def State.loadLadder (s : State) (g : Group) (c : Ctx) : Nat → Word → MRes (List (Nat × BitVec 1024) × Bool)
  | 0, _ => .ok s ([], true)
  | n + 1, p =>
    match s.loadObject g c p with
    | .wait s1 w => .wait s1 w
    | .trap s1 cause a => .trap s1 cause a
    | .ok s1 k =>
      if p.toNat % 64 != 0 || nextRung k == 0 then .ok s1 ([(p.toNat, k)], false)
      else
        match s1.loadLadder g (s1.ctxOf g c) n (BitVec.ofNat 64 (nextRung k)) with
        | .wait s2 w => .wait s2 w
        | .trap s2 cause a => .trap s2 cause a
        | .ok s2 (l, more) => .ok s2 ((p.toNat, k) :: l, more)
/-- The rung at a hand-off, a stage boundary for kinds 0 and 2 (R79): every overrun since the last one lowers it by one in all. -/
def Launch.boundary (l : Launch) : Launch :=
  if l.kind == 1 then l
  else
    { l with rung := if l.overrunDue then min (l.rung + 1) (l.ladder.length - 1) else l.rung, overrunDue := false }
/-- The shape of a successor against INHM (R338). -/
def shapeOk (g : Group) (k : BitVec 1024) : Bool :=
  (List.range 16).all (fun i => !g.inhm.getLsbD (80 + i) || (4 * (i + 1) ≤ g.scratch && 4 * (i + 1) ≤ kScratch k)) &&
    (List.range 4).all (fun i => !g.inhm.getLsbD (96 + i) || (i < g.tiles.length && i < kAcc k)) &&
    kClass k == g.cls && kSup k == kSup g.kobj

/-- Registers that INHM does not name are dead, or all false, or zero (R342). -/
def Ctx.scrub (c : Ctx) (inhm : Guard) (regs : Nat) : Ctx :=
  let all := BitVec.allOnes 4096
  let xs := (List.range 32).foldl (fun (m : BitVec 32) i => if inhm.getLsbD (32 + i) then m else m ||| BitVec.twoPow 32 i) 0
  let vs := (List.range 32).foldl
    (fun (m : BitVec 32) i => if inhm.getLsbD i && i < regs then m else m ||| BitVec.twoPow 32 i) 0
  let zero := fun (c : Ctx) (r : RegName) =>
    let c := (c.overtake false r all).overtake true r all
    { c with r := c.r.put r all 0, w := c.w.put r all 0 }
  let c1 := (c.markX xs).markV vs 32
  (List.range 8).foldl (fun (c : Ctx) i =>
    let c := if inhm.getLsbD (64 + i) then c else zero c (.g (BitVec.ofNat 3 i))
    if inhm.getLsbD (72 + i) then c else zero c (.k (BitVec.ofNat 3 i))) c1
/-- A trap frame without what the queues and the repetition buffer hold (R123). -/
def Frame.emptied (f : Frame) : Frame := { f with queues := Queues.empty, rep := none, lag := [], endAt := 0, ahead := [] }
/-- The control context at the successor's first instruction, which follows the rets in its sequence (R127, R336, R339, R342). A rets in a
handler leaves the context in it, with a trap frame that holds no queue entry any more (log 96, DESIGN CHOICE). -/
def Ctx.succeed (c : Ctx) (inhm : Guard) (k : BitVec 1024) : Ctx :=
  let c1 := (c.scrub inhm (kRegs k)).release
  { c1.stop with
    csr := { c1.csr with fflags := 0, cmask := 0, fmt := Vector.replicate 16 0 }, queues := Queues.empty, rep := none,
    frame := c1.stop.frame.map Frame.emptied, evGot := 0, pcA := kEntry k, pcE := kEntry k, seqA := 0, seqE := 0, seqP := 0, endAt := 0,
    ahead := [] }.endInstr false
/-- The job records that the successor takes over (R340, R342). -/
def Group.keepJobs (g : Group) (inhm : Guard) : Group :=
  { g with jobs := g.jobs.map fun (r : JobRec) =>
      match r.tile with
      | some (cl, t) => if r.busy && g.handsTile inhm cl t then r else JobRec.empty
      | none => JobRec.empty }
/-- The handles of the successor: an inherited one keeps its tile. -/
def succTiles (g : Group) (k : BitVec 1024) : List Nat :=
  (List.range (kAcc k)).map fun i => if g.inhm.getLsbD (96 + i) then g.tiles.getD i 24 else 24
/-- Scratch outside the inherited units is written zero (R342). -/
def State.scrubScratch (s : State) (g : Group) : State :=
  (List.range 16).foldl (fun (s : State) i =>
    if g.inhm.getLsbD (80 + i) then s else s.clearScratch g.core (65536 * i) (65536 * (i + 1))) s
/-- The claim of a RASTER job of the group at the hand-over (R266, R341): one that reaches inherited scratch stays, its
completion waited for, until an xfence; any other ends. Log 30. -/
def handClaim (g : Group) (o : Owned) : Option Owned :=
  let kept := (List.range o.rows).any fun r =>
    let lo := o.base + r * o.stride - scrKey g.core 0
    (List.range 16).any fun i => g.inhm.getLsbD (80 + i) && lo < 65536 * (i + 1) && 65536 * i < lo + o.width
  if !(o.path == pathCvr && o.gid == g.id) then some o
  else if kept then some { o with observed := true }
  else none
/-- Escrow (R342, R343), the release at `sc` made and the side log empty (R339): the group runs kernel k, reached at ptr, from its
entry. -/
def State.escrow (s : State) (g : Group) (c : Ctx) (sc : Scope) (ptr : Nat) (k : BitVec 1024) (rung : Nat) : State :=
  let rel := (c.sync.agent, c.relTag + 1)
  let s1 := (((s.abandonKeys g (some rel) sc).dropJobs g g.inhm).scrubScratch g).tock
  let s2 := (s1.updCore g.core fun q => { q with pending := 0 }).keepLines g.core (unitLines * (64 - kRu k - kScratch k))
  let s3 := s2.updGroup g.id fun x =>
    let y := x.keepJobs g.inhm
    { y with kobj := k, kptr := BitVec.ofNat 64 ptr, rung := rung, depth := g.depth + 1, scratch := kScratch k,
             inhm := BitVec.ofNat 128 (kInhm k % 2 ^ 100), tiles := succTiles g k,
             handed := (g.inherits g.inhm).map (fun t => (t, s.tick)), log := [], keys := [], closed := false,
             budget := kBudget k, used := 0, overran := false }
  let s4 := s3.updCtx g.id 0 fun x => x.succeed g.inhm k
  let s5 : State := { s4 with owned := s4.owned.filterMap (handClaim g) }
  s5.bindTiles g.id
/-- The kernel that a rets takes next, from the ladder read at its pointer, at the launch's rung: the rung, the pointer, the object
(R336, R338). -/
def nextKernelOf (s : State) (g : Group) (l : List (Nat × BitVec 1024)) (more : Bool) : Option (Nat × Nat × BitVec 1024) :=
  let i := min (match (s.launch? g.launch).map Launch.boundary with | some b => b.rung | none => 0) (l.length - 1)
  match l[i]? with
  | none => none
  | some (ptr, k) => if ladderOk l more && shapeOk g k then some (i, ptr, k) else none
/-- The hand-over of a rets whose kernel is read: the waits, the release, escrow. An overrun since that read does not change the kernel,
and the boundary lowers the rung for what comes after (log 93, DESIGN CHOICE). -/
def handOver (s : State) (g : Group) (c : Ctx) (sc : Scope) (x : Nat × Nat × BitVec 1024) : Act :=
  if s.jobsAwaited g g.inhm then .wait s (.other false)
  else
    releaseGate s g c fun s =>
      let s1 := s.updLaunch g.launch fun l => { l.boundary with lowest := max l.lowest x.1 }
      .moved (s1.escrow g (s1.ctxOf g c) sc x.2.1 x.2.2 x.1)
/-- rets (R336); the successor's object is read once, before the waits. -/
def execRets (sc : Scope) (a : BitVec 5) (s : State) :=
  runS (.rets sc a) s fun s g c =>
    controlOnly s c <|
      match c.nextKernel with
      | some x => handOver s g c sc x
      | none =>
        if g.helpers != 0 then .wait s (.other false)
        else
          let x := c.readX a
          let p := if x = 0 then BitVec.ofNat 64 (kSucc g.kobj) else x
          if p = 0 then retireX s g c
          else if 255 ≤ g.depth then .raise s 0x29
          else
            Act.ofRes (s.loadLadder g c 4 p) fun s1 (l, more) =>
              match nextKernelOf s1 g l more with
              | none => .raise s1 0x28
              | some k => handOver (s1.updCtx g.id c.num fun y => { y with nextKernel := some k }) g c sc k

end Sys2Proof.Machine
end

