-- ==== Sys2Proof/Machine/Admit.lean ====
section
/-! DEFINITION. Queue managers: the launch record (R71), its checks (R73), placement (R86-R89), admission of class T (R75-R77),
and completion of a launch (R72). -/

namespace Sys2Proof.Machine

/-! ### The launch record -/

abbrev LRec := BitVec 1024
def lObj (r : LRec) : Nat := kf r 63 0
def lPmap (r : LRec) : Nat := kf r 127 64
def lGroups (r : LRec) : Nat := kf r 159 128
def lKind (r : LRec) : Nat := kf r 167 160
def lGridw (r : LRec) : Nat := kf r 191 176
def lDls (r : LRec) : Nat := kf r 239 192
def lDlns (r : LRec) : Nat := kf r 287 256
def lDcnt (r : LRec) : Nat := kf r 383 320
def lTree (r : LRec) : Nat := kf r 447 384
def lCpl (r : LRec) : Nat := kf r 511 448
def lSmask (r : LRec) : Nat := kf r 639 512
def lMxecyc (r : LRec) : Nat := kf r 671 640
def lWsp (r : LRec) : Nat := kf r 679 672
def lFbw (r : LRec) : Nat := kf r 735 704
def lFhops (r : LRec) : Nat := kf r 738 736
/-- Entry i of smask: valid, dx, dy (R81). -/
def smaskAt (m i : Nat) : Option (Int × Int) :=
  let e := m / 2 ^ (8 * i) % 256
  if bit e 7 then some (toI 3 e, toI 3 (e / 8)) else none
/-- Step 1 of R73. -/
def recordOk (r : LRec) : Bool :=
  kf r 1023 739 == 0 && kf r 703 680 == 0 && kf r 319 288 == 0 && kf r 255 240 == 0 && kf r 175 168 == 0 &&
    lKind r ≤ 2 && (lKind r == 1 || 1 ≤ lGroups r) && (lKind r == 2 || (lGridw r == 0 && lSmask r == 0)) &&
    (lKind r == 1 || lTree r == 0) && (List.range 16).all fun i => !bit (lSmask r) (8 * i + 6)
/-- Step 4 of R73: gridw divides ngroups, and every valid offset is earlier (R81). -/
def gridOk (r : LRec) : Bool :=
  lKind r != 2 || (1 ≤ lGridw r && lGroups r % lGridw r == 0 &&
    (List.range 16).all fun i =>
      match smaskAt (lSmask r) i with
      | some (dx, dy) => dy < 0 || (dy == 0 && dx < 0)
      | none => true)

/-! ### What a record names, as the queue manager reads it -/

def State.qObject (s : State) (vf p : Nat) : BitVec 1024 := BitVec.ofNat 1024 (s.vRd vf p 128)
/-- An object and its rungs, at most four, and whether there are more. -/
def State.qLadder (s : State) (vf : Nat) : Nat → Nat → List (Nat × BitVec 1024) × Bool
  | 0, _ => ([], true)
  | n + 1, p =>
    let k := s.qObject vf p
    if nextRung k == 0 then ([(p, k)], false)
    else
      let (l, more) := s.qLadder vf n (nextRung k)
      ((p, k) :: l, more)
def State.qStages (s : State) (vf p : Nat) : List (BitVec 256) :=
  (List.range (bits (s.vRd vf p 32) 7 0)).map fun i => BitVec.ofNat 256 (s.vRd vf (ptrAdd p (32 + 32 * i : Nat)) 32)
/-- The pointers of the rungs that a walk down a ladder reads, and of the kernels of a succ chain (R51, R76). -/
def State.ladderReads (s : State) (vf p : Nat) : VReads := (s.qLadder vf 4 p).1.map fun x => (vf, x.1, 128)
def State.chainReads (s : State) (vf : Nat) : Nat → BitVec 1024 → VReads
  | 0, _ => []
  | n + 1, k => if kSucc k == 0 then [] else (vf, kSucc k, 128) :: s.chainReads vf n (s.qObject vf (kSucc k))
/-- R60. Reserved bits of the header, which R60 does not list, count as malformed (log 73). -/
def State.pipelineOk (s : State) (vf p : Nat) : Bool :=
  let h := s.vRd vf p 32
  let n := bits h 7 0
  let l := s.qStages vf p
  let ks := l.map fun r => s.qLadder vf 4 (stKobj r)
  h / 256 == 0 && 1 ≤ n && n ≤ 16 && l.all stageOk &&
    (l.zipIdx).all (fun (r, i) => stDown r == 0xFF || (stDown r < n && stDown r != i)) &&
    ks.all (fun x => ladderOk x.1 x.2) &&
    (match ks with
     | x :: r => r.all fun y => (y.1.head?.map fun z => kClass z.2) == (x.1.head?.map fun z => kClass z.2)
     | [] => false)
/-- R63 for a launch with n stages. A descriptor that is not 64-byte aligned, which R62 asks for, counts as malformed (log 75). -/
def State.treeOk (s : State) (vf p n : Nat) : Bool :=
  let d := BitVec.ofNat 512 (s.vRd vf p 64)
  p % 64 == 0 && descOk d && dFar d < n && dNear d < n
/-- No rung has a larger budget than the rung above (R73). -/
def budgetsFall : List (Nat × BitVec 1024) → Bool
  | x :: y :: r => kBudget y.2 ≤ kBudget x.2 && budgetsFall (y :: r)
  | _ => true
/-- Step 2 of R73. -/
def State.objectsOk (s : State) (vf : Nat) (r : LRec) : Bool :=
  if lKind r == 1 then
    s.pipelineOk vf (lObj r) && (s.qStages vf (lObj r)).all (fun x => budgetsFall (s.qLadder vf 4 (stKobj x)).1) &&
      (lTree r == 0 || s.treeOk vf (lTree r) (s.qStages vf (lObj r)).length)
  else
    let l := s.qLadder vf 4 (lObj r)
    ladderOk l.1 l.2 && budgetsFall l.1
/-- The top object: the kernel's, or the first stage's. -/
def State.topObject (s : State) (vf : Nat) (r : LRec) : BitVec 1024 :=
  if lKind r == 1 then s.qObject vf (stKobj ((s.qStages vf (lObj r)).headD 0)) else s.qObject vf (lObj r)
/-- The class in whose turn a record is taken (R70): of a malformed one, the class bits of its top object as they stand, 3 after class B
(log 108, DESIGN CHOICE). -/
def State.recordClass (s : State) (vf : Nat) (r : LRec) : Nat := kClass (s.topObject vf r)
/-- What the queue manager reads of a record to know its class: the kernel object, or a pipeline's header and first stage with its. -/
def State.classReads (s : State) (vf : Nat) (r : LRec) : VReads :=
  if lKind r == 1 then [(vf, lObj r, 64), (vf, stKobj ((s.qStages vf (lObj r)).headD 0), 128)] else [(vf, lObj r, 128)]
/-- What it reads for the checks of a record (R73): its object or pipeline with all the rungs, the chains of a class-T launch, the map, and
the traversal's descriptor. -/
def State.recordReads (s : State) (vf : Nat) (r : LRec) : VReads :=
  let tops := if lKind r == 1 then (s.qStages vf (lObj r)).map stKobj else [lObj r]
  (if lKind r == 1 then [(vf, lObj r, 32 + 32 * (s.qStages vf (lObj r)).length)] else []) ++ tops.flatMap (s.ladderReads vf) ++
    (if s.recordClass vf r == 0 then tops.flatMap fun p => (s.qLadder vf 4 p).1.flatMap fun x => s.chainReads vf 255 x.2 else []) ++
    (if lPmap r == 0 then [] else [(vf, lPmap r, 16 + 16 * bits (s.vRd vf (lPmap r) 16) 7 0)]) ++
    (if lTree r == 0 then [] else [(vf, lTree r, 64)])
/-- Step 3 of R73, with the sup rule of R89. -/
def State.classFieldsOk (s : State) (vf : Nat) (r : LRec) : Bool :=
  let cls := s.recordClass vf r
  let sup := if lKind r == 1 then (s.qStages vf (lObj r)).any fun x => kSup (s.qObject vf (stKobj x))
    else kSup (s.topObject vf r)
  (cls != 0 || (lDlns r < nsPerSec && lWsp r ≤ 16)) && (lKind r != 1 || (if cls == 0 then lGroups r != 0 else lGroups r == 0)) &&
    (!sup || (lKind r == 0 && lGroups r == 1))

/-! ### Placement -/

/-- The map's entries in use: base, length, die; none for a map that R87 refuses. -/
def State.mapRanges (s : State) (vf p : Nat) : Option (List (Nat × Nat × Nat)) :=
  if p == 0 then some []
  else
    let h := s.vRd vf p 16
    let n := bits h 7 0
    let es := (List.range n).map fun i => s.vRd vf (ptrAdd p (16 + 16 * i : Nat)) 16
    let used := (es.filter fun e => bit e 127).map fun e => (bits e 55 0, bits e 119 64, bits e 121 120)
    let ok := p % 16 == 0 && 1 ≤ n && n ≤ 16 && h / 256 == 0 && es.all (fun e => !bit e 127 || bits e 126 122 == 0) &&
      used.all (fun (b, l, _) => b % 2 ^ 19 == 0 && l % 2 ^ 19 == 0 && l != 0 && b + l ≤ 2 ^ 56) &&
      (used.zipIdx).all fun ((b, l, _), i) => (used.zipIdx).all fun ((c, m, _), j) => i == j || !overlaps b l c m
    if ok then some used else none
/-- No byte that another launch of the function homes elsewhere (R209). -/
def State.mapAgrees (s : State) (vf : Nat) (l : List (Nat × Nat × Nat)) : Bool :=
  l.all fun (b, n, d) => (s.homed vf).all fun (c, m, e) => d == e || !overlaps b n c m
/-- The bytes of group g's footprint that each die homes, and the die of R88. -/
def dieOfGroup (k : BitVec 1024) (map : List (Nat × Nat × Nat)) (g : Nat) : Nat :=
  let lo := ((kFpb k : Int) + g * kFps k) % (2 ^ 56 : Nat)
  let hi := min (lo + kFpl k) (2 ^ 56 : Nat)
  let count : Nat → Nat := fun d => ((map.filter fun x => x.2.2 == d).map fun (b, n, _) =>
    (min hi ((b + n : Nat) : Int) - max lo (b : Int)).toNat).sum
  (List.range 4).foldl (fun (best : Nat) d => if count best < count d then d else best) 0
/-- The die of a group of a launch: that of supcore for a sup group, the home die for kind 1 (R80, R89). -/
def groupDie (kind home : Nat) (supDie : Nat) (k : BitVec 1024) (map : List (Nat × Nat × Nat)) (g : Nat) : Nat :=
  if kind == 1 then home else if kSup k then supDie else dieOfGroup k map g
/-- A launch's object that placed it, and its groups' dies. -/
def Launch.placedObject (l : Launch) : BitVec 1024 := l.ladder.getD l.placed 0
def State.launchDie (s : State) (l : Launch) (g : Nat) : Nat :=
  groupDie l.kind l.queueDie (dieOfCore (s.vf l.vf).supcore) l.placedObject l.ranges g

/-! ### Cores -/

/-- Time in thirds of a nanosecond. -/
def State.thirds (s : State) : Nat := 3 * s.phcNs
/-- The cores that class-T entries hold on a die. -/
def State.heldCores (s : State) (die : Nat) : List Nat :=
  (s.reservations.filter fun r => r.die == die && s.thirds < r.bound).flatMap (·.cores)
def State.timeShared (s : State) (core : Nat) : Option TimeShare := s.timeShares.find? fun t => t.cores.contains core
/-- The cores of a die that a new class-T entry may hold (R76, R333). -/
def State.mayHold (s : State) (die : Nat) : List Nat :=
  let held := s.heldCores die
  ((List.range 512).map (512 * die + ·)).filter fun c => !held.contains c && (s.timeShared c).isNone
/-- The supcores that only a sup group may take now (R89). -/
def Launch.wantsSup (l : Launch) : Bool := l.kind == 0 && kSup l.placedObject && l.next < l.total
def State.supTaken (s : State) (vf : Nat) : Bool :=
  s.groups.any (fun g => g.vf == vf && kSup g.kobj) || s.launches.any fun l => l.vf == vf && l.wantsSup
/-- A group of another launch is the function's supervisor already: there is one at a time (R317). -/
def State.supHeld (s : State) (vf gid : Nat) : Bool := s.groups.any fun g => g.vf == vf && kSup g.kobj && g.id != gid
/-- A core that runs no group, of a cluster with tiles enough (R242), open to the class and function (R89, R333). -/
def State.coreFree (s : State) (core : Nat) : Bool := (s.groupOn? core).isNone
/-- Where a core is time-shared, its slice is the function's, and the class is not T (R333). -/
def State.sliceOf (s : State) (core vf cls : Nat) : Bool :=
  match s.timeShared core with
  | some t => t.vfs[t.turn]? == some vf && cls != 0
  | none => true
def State.openTo (s : State) (core vf cls lid : Nat) : Bool :=
  s.sliceOf core vf cls &&
    s.reservations.all (fun r => !(r.cores.contains core && s.thirds < r.bound) || (cls == 0 && r.launch == lid)) &&
    (cls != 0 || s.reservations.all (fun r => !(r.launch == lid && r.die == dieOfCore core && s.thirds < r.bound) ||
      r.cores.contains core)) &&
    s.vfs.all fun (v, x) => !(x.supcore == core && s.supTaken v)
def State.tilesFor (s : State) (core : Nat) (k : BitVec 1024) : Bool := kAcc k ≤ (s.freeTiles (clusterOf core)).length
/-- The lowest core of a die that a group may take (R89). A sup group may take supcore while a class-T entry holds it, whatever its own
class (log 94, DESIGN CHOICE). -/
def State.pickCore (s : State) (die vf cls lid : Nat) (k : BitVec 1024) : Option Nat :=
  if kSup k then
    (let c := (s.vf vf).supcore
     if s.coreFree c && s.tilesFor c k && s.sliceOf c vf cls && !s.supHeld vf 0 then some c else none)
  else ((List.range 512).map (512 * die + ·)).find? fun c => s.coreFree c && s.openTo c vf cls lid && s.tilesFor c k

/-! ### Admission of class T (R75-R77); times in thirds of a nanosecond -/

/-- budget + 1,200 over a kernel and its succ chain, at most 255 kernels. -/
def State.chainCycles (s : State) (vf : Nat) : Nat → BitVec 1024 → Nat
  | 0, _ => 0
  | n + 1, k => kBudget k + 1200 + (if kSucc k == 0 then 0 else s.chainCycles vf n (s.qObject vf (kSucc k)))
def fabricThirds (r : LRec) : Nat := if lFbw r == 0 then 0 else 3 * (850 + 140 * lFhops r)
def ceilDiv (a b : Nat) : Nat := (a + b - 1) / b
/-- An entry that a rung needs: die, cores, MXE cycles of each cluster, bound. -/
structure Need where
  die : Nat
  cores : List Nat
  mxe : List (Nat × Nat)
  bound : Nat
/-- The MXE cycles that n groups in w waves can use in each cluster of their cores: a cluster runs at most as many of them in a
wave as it has of the cores (log 22). -/
def mxeOf (r : LRec) (cores : List Nat) (n w : Nat) : List (Nat × Nat) :=
  let cls := cores.map clusterOf
  cls.dedup.map fun c => (c, lMxecyc r * min n (cls.count c * w))
/-- R76 for the groups on one die. -/
def State.needOn (s : State) (vf : Nat) (r : LRec) (k : BitVec 1024) (die n : Nat) : Option Need :=
  let f := s.mayHold die
  if f.isEmpty then none
  else
    let w := ceilDiv n f.length
    let tg := s.chainCycles vf 255 k + 960 * lWsp r
    some { die := die, cores := f.take n, mxe := mxeOf r (f.take n) n w,
           bound := s.thirds + 3000 + w * tg + fabricThirds r }
/-- R77. -/
def State.needPipe (s : State) (vf : Nat) (r : LRec) (home : Nat) (stages : List (BitVec 256)) (ks : List (BitVec 1024)) :
    Option Need :=
  let f := (s.mayHold home).take ((stages.map stMaxc).foldl min 2048)
  if f.isEmpty then none
  else
    let w := ceilDiv (lGroups r) f.length
    let tg := (ks.map (s.chainCycles vf 255)).foldl max 0 + 960 * lWsp r
    some { die := home, cores := f, mxe := mxeOf r f (lGroups r) w,
           bound := s.thirds + 3000 + w * tg + (if lTree r == 0 then 0 else 64 * lGroups r) + fabricThirds r }
/-- The entries of a rung: for kinds 0 and 2 one on each die with groups. -/
def State.needs (s : State) (vf home : Nat) (r : LRec) (map : List (Nat × Nat × Nat)) (rung : Nat) : Option (List Need) :=
  if lKind r == 1 then
    let st := s.qStages vf (lObj r)
    let ks := st.map fun x => let l := (s.qLadder vf 4 (stKobj x)).1; (l.getD (min rung (l.length - 1)) (0, 0)).2
    (s.needPipe vf r home st ks).map fun n => [n]
  else
    let k := ((s.qLadder vf 4 (lObj r)).1.getD rung (0, 0)).2
    let dies := (List.range (lGroups r)).map fun g => groupDie (lKind r) home (dieOfCore (s.vf vf).supcore) k map g
    ((List.range 4).filter fun d => dies.contains d).mapM fun d => s.needOn vf r k d (dies.count d)
/-- MXE cycles of a cluster, and fabric bandwidth, that other launches hold. -/
def State.mxeHeld (s : State) (cl : Nat) : Nat :=
  ((s.reservations.filter fun r => s.thirds < r.bound).map fun r => ((r.mxe.filter fun x => x.1 == cl).map (·.2)).sum).sum
def State.fbwHeld (s : State) : Nat := ((s.reservations.filter fun r => s.thirds < r.bound).map (·.fbw)).sum
def fbwLimit : Nat := 89600
def State.entries (s : State) (die : Nat) : Nat := (s.reservations.filter fun r => r.die == die && s.thirds < r.bound).length
/-- The bound of a launch is the latest of its dies' (R76), and every entry holds until then. -/
def boundAll (l : List Need) : List Need :=
  let b := (l.map (·.bound)).foldl max 0
  l.map fun n => { n with bound := b }
/-- A rung fits (R75-R77, R18), and for a pipeline its minimum cores (R80). -/
def State.fits (s : State) (r : LRec) (minc deadline : Nat) (l : List Need) : Bool :=
  l.all (fun n => n.bound ≤ deadline && s.entries n.die < 64 &&
    n.mxe.all (fun x => x.2 + s.mxeHeld x.1 ≤ n.bound - s.thirds) &&
    (lKind r != 1 || minc ≤ n.cores.length)) && lFbw r + s.fbwHeld ≤ fbwLimit
/-- The first rung that fits. -/
def State.pickRung (s : State) (vf home : Nat) (r : LRec) (map : List (Nat × Nat × Nat)) (minc deadline rungs : Nat) :
    Option (Nat × List Need) :=
  (List.range rungs).findSome? fun i =>
    match (s.needs vf home r map i).map boundAll with
    | some l => if s.fits r minc deadline l then some (i, l) else none
    | none => none

/-! ### Completion (R72) -/

/-- All that an agent has done, as one that is ordered after all its releases names it (R260). -/
def allOf (a : Nat) : Acq := { var := 0, agent := a, tag := 2 ^ 64 }
/-- Write the completion record and then decrement dcnt, as a release by the launch's agent that covers what `agents`, those of the launch,
have done (R72, R260). A cpl or a dcnt that is not 16-byte
aligned is used as it stands (log 91, DESIGN CHOICE). -/
def State.complete (s : State) (vf : Nat) (r : LRec) (overs rung status : Nat) (agent : Nat) (agents : List Nat) : State :=
  let s1 := if lCpl r == 0 then s
    else s.vWr vf (lCpl r) (bytesOfNat 16 (s.phcSub + s.phcSec * 2 ^ 32 + status * 2 ^ 80 + rung * 2 ^ 88 + overs * 2 ^ 96))
  if lDcnt r == 0 then s1
  else
    match s1.vKey vf (lDcnt r) with
    | none => s1
    | some key =>
      let n := s1.rd key 4
      let s1 := s1.vUse vf (lDcnt r) 16 false
      if n == 0 then { s1 with errors := s1.errors ++ [{ kind := .underflow, vf := some vf, addr := lDcnt r }] }
      else
        let s2 := (s1.vUse vf (lDcnt r) 4 true).tock.replaced (key / 4) (s.tick + 1)
        (s2.addRel { var := key, agent := agent, tag := 1, scope := .pk, loc := { vf := vf, launch := 0, gid := 0, core := 0 },
                     tick := s2.tick }).putCount vf key (lDcnt r) (n - 1) (agents.map allOf)
/-- What a completion writes or changes. -/
def endPlaces (vf : Nat) (r : LRec) : VReads :=
  (if lCpl r == 0 then [] else [(vf, lCpl r, 16)]) ++ (if lDcnt r == 0 then [] else [(vf, lDcnt r, 16)])
/-- A launch is refused with a status (R72, R73). The rung of its record, which R72 does not give, is 0 (log 109, DESIGN CHOICE). -/
def State.refuse (s : State) (vf : Nat) (r : LRec) (status : Nat) : State := s.complete vf r 0 0 status 0 []

/-- Every line of a range is written back and dropped (R209). -/
def State.dropRange (s : State) (vf : Nat) (x : Nat × Nat × Nat) : State :=
  s.flushLines fun l => l.vf == vf && overlaps l.va 64 x.1 x.2.1

end Sys2Proof.Machine
end

