-- ==== Sys2Proof/Machine/Qm.lean ====
section
/-! DEFINITION. Queue managers: taking and admitting launches (R70, R73, R253), starting groups (R74, R80, R81, R89), shares
(R80), budgets (R78), pre-emption and resumption (R327-R329), reservations (R75) and completion (R72). -/

namespace Sys2Proof.Machine

/-! ### Admission -/

/-- What an admitted record comes with: its homed ranges, its rung, its reservation entries. -/
abbrev Admission := List (Nat × Nat × Nat) × Nat × List Need
def lDeadline (r : LRec) : Nat := 3 * (lDls r * nsPerSec + lDlns r)
def State.mincTotal (s : State) (vf : Nat) (r : LRec) : Nat :=
  if lKind r == 1 then ((s.qStages vf (lObj r)).map stMinc).sum else 0
def State.rungCount (s : State) (vf : Nat) (r : LRec) : Nat :=
  if lKind r == 1 then ((s.qStages vf (lObj r)).map fun x => (s.qLadder vf 4 (stKobj x)).1.length).foldl max 1
  else (s.qLadder vf 4 (lObj r)).1.length
/-- The checks of R73 in their order: the status of the first that fails. -/
def State.checkLaunch (s : State) (vf home : Nat) (r : LRec) : Except Nat Admission :=
  if !recordOk r then .error 0x01
  else if !s.objectsOk vf r then .error 0x02
  else if !s.classFieldsOk vf r then .error 0x01
  else if !gridOk r then .error 0x05
  else
    match s.mapRanges vf (lPmap r) with
    | none => .error 0x06
    | some m =>
      if !s.mapAgrees vf m then .error 0x06
      else if s.recordClass vf r != 0 then
        (if 512 - (s.heldCores home).length < s.mincTotal vf r then .error 0x03 else .ok (m, 0, []))
      else if 4 < lFhops r || fbwLimit < lFbw r then .error 0x07
      else if lDeadline r ≤ s.thirds then .error 0x04
      else
        match s.pickRung vf home r m (s.mincTotal vf r) (lDeadline r) (s.rungCount vf r) with
        | none => .error 0x03
        | some (i, l) => .ok (m, i, l)
/-- The die whose PFE runs the traversal of a launch (R253). Cluster memory, which has no slice, is homed on none (R205). -/
def State.treeDie (s : State) (vf home cls : Nat) (r : LRec) (m : List (Nat × Nat × Nat)) : Nat :=
  if cls == 0 then home
  else
    let d := BitVec.ofNat 512 (s.vRd vf (lTree r) 64)
    let p := ptrAdd (dNodeA d) (64 * dRootA d : Nat)
    match m.find? fun (b, n, _) => bits p 63 56 != 0xFE && b ≤ p % 2 ^ 56 && p % 2 ^ 56 < b + n with
    | some (_, _, die) => die
    | none => 0
/-- The xfences to path PFE that precede the release which `covers` stands for, as the traversal that it starts sees them (R260): each as
a fence of the job's, ordered after what its own context had done. -/
def State.fencesTo (s : State) (agent : Nat) (covers : List Acq) : List XFence :=
  (s.fences.filter fun f => f.dst.getLsbD pathPfe && covers.any fun a => a.agent == f.sync.agent && f.rel ≤ a.tag).map fun f =>
    { f with sync := { f.sync with agent := agent, bars := f.sync.bars ++ [{ var := 0, agent := f.sync.agent, tag := f.rel }] } }
/-- Start the traversal of a launch: its message, and the publish as xfence core, pfe, which covers the stores before the release that
published the record and those that its agent was ordered after, `covers`, with their xfences to path PFE (R253, R260, R289). -/
def State.startTree (s : State) (vf die lid : Nat) (r : LRec) (acq covers : List Acq) : State :=
  let cl := 64 * die
  let d := BitVec.ofNat 512 (s.vRd vf (lTree r) 64)
  let off := 2 ^ 22 - 16 * dCap d
  let stage := fun (i : Nat) => ptrAdd (lObj r) (32 + 32 * i : Nat)
  let bag := 0xFE * 2 ^ 56 + cl * 2 ^ 32 + off
  let agent := s.nextAgent
  let y : Sync := { agent := agent, acq := acq, bars := [], lost := false }
  let x : Sender := { gid := 0, core := 8 * cl, ctx := 0, agent := agent + 1, record := 0, ev := 0, sync := y, rel := 0,
                      tick := s.tick, live := false }
  let j : Job :=
    { Job.new agent .traverse vf (s.vf vf).bndt (some lid) s.cyc s.phcSec with
      msg := BitVec.ofNat 512 (lTree r * 2 ^ 64 + bag * 2 ^ 128 + stage (dFar d) * 2 ^ 192 + stage (dNear d) * 2 ^ 256),
      senders := [x], qm := true }
  let f : XFence := { src := 1, dst := BitVec.twoPow 8 pathPfe, sync := { y with bars := covers }, rel := 1, tick := s.tick + 1, stamp := 0 }
  let s1 : State := { s.tock with nextAgent := agent + 2, fences := s.fences ++ f :: s.fencesTo agent (acq ++ covers) }
  (s1.setJobs cl .pfe (s1.jobs cl .pfe ++ [j])).updLaunch lid fun l =>
    { l with treeRunning := true, agents := l.agents ++ [agent + 1] }
/-- The stages of an admitted pipeline, each at its minimum until the first shares (R80). -/
def State.newStages (s : State) (vf : Nat) (r : LRec) : List Stage :=
  if lKind r != 1 then []
  else (s.qStages vf (lObj r)).map fun x =>
    let k := (s.qLadder vf 4 (stKobj x)).1
    { record := x, ladder := k.map (·.2), kptrs := k.map (·.1), taken := 0, share := stMinc x }
/-- A launch whose record was joined to a pod barrier before it was taken (R347). -/
def Pod.admitted (src lid : Nat) (p : Pod) : Pod :=
  if p.records.contains (BitVec.ofNat 64 src) then
    { p with records := p.records.filter (· != BitVec.ofNat 64 src), launches := p.launches ++ [lid] }
  else p
/-- Admit a launch. -/
def State.admitLaunch (s : State) (vf home : Nat) (r : LRec) (src : Nat) (acq covers : List Acq) (a : Admission) :
    State :=
  let (m, rung, needs) := a
  let lid := s.nextId
  let cls := s.recordClass vf r
  let k := if lKind r == 1 then [] else (s.qLadder vf 4 (lObj r)).1
  let l : Launch :=
    { id := lid, vf := vf, record := r, queueDie := home, cls := cls, kind := lKind r,
      ladder := k.map (·.2), kptrs := k.map (·.1), stages := s.newStages vf r, ranges := m,
      rung := rung, lowest := rung, overrunDue := false, overruns := 0, next := 0, started := [], retired := [], alive := 0,
      taken := 0, treeStatus := none, treeRunning := false, delayed := false, acq := acq, agents := [], placed := rung,
      beyond := false, deadline := lDeadline r, src := src }
  let entries := (needs.zipIdx).map fun (n, i) =>
    { launch := lid, die := n.die, cores := n.cores, mxe := n.mxe, wsp := lWsp r, fbw := if i == 0 then lFbw r else 0,
      start := s.thirds, bound := n.bound : Reservation }
  let s1 : State :=
    { s with nextId := lid + 1, launches := s.launches ++ [l], reservations := s.reservations ++ entries,
             pods := s.pods.map (Pod.admitted src lid) }
  let s2 := m.foldl (fun (s : State) x => s.dropRange vf x) s1
  if lTree r == 0 then s2 else s2.startTree vf (s.treeDie vf home cls r m) lid r acq covers

/-! ### Taking a slot (R70) -/

/-- The full slots at ridx of a die's queues: class, function, queue, header. -/
def State.takeable (s : State) (die : Nat) : List (Nat × Nat × Nat × QHead) :=
  s.vfs.flatMap fun (vf, _) => (List.range 8).filterMap fun q =>
    match s.qHead vf q with
    | none => none
    | some h =>
      let n := h.ridx % h.cap
      if h.die == die && s.tagAt vf (h.tags + n) % 4 == 2 then
        some (s.recordClass vf (BitVec.ofNat 1024 (s.vRd vf (h.slots + 128 * n) 128)), vf, q, h)
      else none
/-- The next slot to take: class T first, then the lowest function and queue. -/
def State.nextTake (s : State) (die : Nat) : Option (Nat × Nat × Nat × QHead) :=
  (s.takeable die).foldl (fun (best : Option (Nat × Nat × Nat × QHead)) x =>
    match best with
    | none => some x
    | some y => if x.1 < y.1 then some x else best) none
def State.publishedAt (s : State) (key : Nat) : Nat × Nat :=
  match s.published.find? (fun x => x.1 == key) with
  | some (_, t, ns, _) => (t, ns)
  | none => (0, 0)
def State.coversAt (s : State) (key : Nat) : List Acq :=
  match s.published.find? (fun x => x.1 == key) with
  | some (_, _, _, l) => l
  | none => []
/-- What a take reads: the tags and records at ridx of the die's queues with what their classes come from, then what its own record
names. -/
def State.takeReads (s : State) (die vf : Nat) (r : LRec) : VReads :=
  ((s.takeable die).flatMap fun (_, v, _, h) =>
    let n := h.ridx % h.cap
    [(v, h.tags + n, 1), (v, h.slots + 128 * n, 128)] ++ s.classReads v (BitVec.ofNat 1024 (s.vRd v (h.slots + 128 * n) 128))) ++
    s.recordReads vf r
/-- LAUNCH_QUEUE_TAKE: nothing before bring-up (R357), nor while a byte that it reads or writes moves (R226). A record whose traversal
finds the PFE's queue full stays in its slot, and so does every later one of the die, until there is room (log 77). -/
def State.launchQueueTake (s : State) (die : Nat) : State :=
  if !s.mbrdy then s
  else
    match s.nextTake die with
    | none => s
    | some (_, vf, _, h) =>
      let n := h.ridx % h.cap
      let key := s.tagKey vf (h.tags + n)
      let r := BitVec.ofNat 1024 (s.vRd vf (h.slots + 128 * n) 128)
      let acq := s.relsOf key (s.publishedAt key).1
      let reads := s.takeReads die vf r
      if s.vWaits (reads ++ endPlaces vf r) then s
      else
        let s1 := ((s.vUses reads).setTag vf (h.tags + n) 0).wr (hbm (h.pa + 24)) 4 ((h.ridx + 1) % 2 ^ 32)
        match s1.checkLaunch vf die r with
        | .error st => s1.refuse vf r st
        | .ok a =>
          if lTree r != 0 && !s.roomBehind (64 * s.treeDie vf die (s.recordClass vf r) r a.1) .pfe (fun _ => true) then s
          else s1.admitLaunch vf die r (h.slots + 128 * n) acq (s.coversAt key) a
def execLaunchQueueTake (die : Nat) (s : State) : Host.Outcome State Fault Refusal := .next (s.launchQueueTake die)

/-! ### Starting a group -/

/-- Whether the tile grid lets a group start (R81). -/
def Launch.ready (l : Launch) (g : Nat) : Bool :=
  l.kind != 2 ||
    (let w := lGridw l.record
     let x : Int := g % w
     let y : Int := g / w
     (List.range 16).all fun i =>
       match smaskAt (lSmask l.record) i with
       | none => true
       | some (dx, dy) =>
         let (a, b) := (x + dx, y + dy)
         a < 0 || (w : Int) ≤ a || b < 0 || ((l.total / w : Nat) : Int) ≤ b || l.retired.contains (b * w + a).toNat)
/-- The next group of a launch of kind 0 or 2 that may start on a die (R89). -/
def State.nextGroup (s : State) (l : Launch) (die : Nat) : Option Nat :=
  ((List.range (l.total - l.next)).map (l.next + ·)).find? fun g =>
    l.unstarted g && s.launchDie l g == die && l.ready g
/-- Mark a group started. -/
def advanceNext (st : List Nat) : Nat → Nat → Nat
  | 0, n => n
  | k + 1, n => if st.contains n then advanceNext st k (n + 1) else n
def Launch.markStarted (l : Launch) (g : Nat) : Launch :=
  let st := g :: l.started
  let n := advanceNext st st.length l.next
  { l with next := n, started := st.filter (n ≤ ·) }
/-- What a new group starts with. -/
structure NewGroup where
  index : Nat
  entryNo : Nat
  stage : Option Nat
  slot : Option Nat
  core : Nat
  kobj : BitVec 1024
  kptr : Nat
  rung : Nat
  x1 : Word
  acq : List Acq
  task : Option (Nat × Nat)
  fence : Bool
/-- The stores to code that their agents, still at work, have not released (R99). -/
def State.unreleased (s : State) : List Nat :=
  (s.code.flatMap (·.2)).filterMap fun v =>
    match v.entry with
    | none => none
    | some e =>
      let held := s.groups.any (fun g => g.ctxs.any fun c => c.sync.agent == e.agent && c.relTag < e.rel) ||
        s.allJobs.any (fun x => x.2.2.agent == e.agent)
      if held && !s.rels.any (fun r => r.agent == e.agent && e.rel ≤ r.tag) then some v.tick else none
/-- Start a group on its core (R53, R74, R91, R242, R317, R324). Bits [127:100] of its object's inhm go nowhere (log 106, DESIGN
CHOICE). -/
def State.startGroup (s : State) (l : Launch) (n : NewGroup) : State :=
  let v := s.vf l.vf
  let agent := s.nextAgent
  let c0 := Ctx.fresh 0 agent (kEntry n.kobj) n.x1 v.tvec v.bndt (kSup n.kobj)
  let c1 : Ctx := { c0 with sync := n.acq.foldl Sync.add c0.sync, accA := 1, seenA := 1, acqAt := s.tick + 1 }
  let g : Group :=
    { id := s.nextId, launch := l.id, index := n.index, entryNo := n.entryNo, stage := n.stage, slot := n.slot, vf := l.vf,
      cls := l.cls, die := dieOfCore n.core, core := n.core, status := .running, stopping := none, kobj := n.kobj,
      kptr := BitVec.ofNat 64 n.kptr, rung := n.rung, depth := 1, scratch := kScratch n.kobj,
      inhm := BitVec.ofNat 128 (kInhm n.kobj % 2 ^ 100),
      smask := if l.kind == 2 then BitVec.ofNat 128 (lSmask l.record) else 0,
      ctxa := BitVec.ofNat 64 (65536 * Config.ctxArea s.nextId), ctxs := [c1], log := [],
      jobs := Vector.replicate 64 JobRec.empty, tiles := List.replicate (kAcc n.kobj) 24, keys := [], closed := false,
      arrivals := [], budget := kBudget n.kobj, used := 0, overran := false, overAny := false, tileRetired := false,
      incremental := v.incr, pfeTask := n.task, handed := [], startAt := s.tick + 1, unseen := s.unreleased,
      ended := [], saved := [], savedScratch := [] }
  let f : XFence := { src := BitVec.twoPow 8 pathPfe, dst := 1, sync := c1.sync, rel := 1, tick := s.tick + 1, stamp := 0 }
  let s1 : State := { s.tock with nextAgent := agent + 1, nextId := s.nextId + 1, groups := s.groups ++ [g],
                                  fences := if n.fence then s.fences ++ [f] else s.fences }
  let s2 := ((s1.clearScratch n.core 0 (2 ^ 20)).updCore n.core fun k =>
    { Core.fresh with lines := k.lines, jobSeq := k.jobSeq }).keepLines n.core g.cacheLines
  (s2.bindTiles g.id).updLaunch l.id fun x =>
    { x with alive := x.alive + 1, agents := x.agents ++ [agent], lowest := max x.lowest n.rung, taken := x.taken + 1 }
/-- A core that a pre-empted group may resume on (R329): of its cluster, free, and open to it. -/
def State.resumeOn (s : State) (g : Group) (c : Nat) : Bool :=
  clusterOf g.core == clusterOf c && s.coreFree c &&
    (if kSup g.kobj then c == (s.vf g.vf).supcore && s.sliceOf c g.vf g.cls && !s.supHeld g.vf g.id
     else s.openTo c g.vf g.cls g.launch)
/-- A core for a group, where no pre-empted group of its class and function waits to resume (R329). -/
def State.coreFor (s : State) (die : Nat) (l : Launch) (k : BitVec 1024) : Option Nat :=
  (s.pickCore die l.vf l.cls l.id k).filter fun c =>
    !s.groups.any fun h => h.status == .preempted && h.cls == l.cls && h.vf == l.vf && s.resumeOn h c
/-- A group of kind 0 or 2 that can start on a die now. -/
def State.plainStart (s : State) (die : Nat) (l : Launch) : Option NewGroup :=
  if l.kind == 1 then none
  else
    match s.nextGroup l die with
    | none => none
    | some g =>
      let rung := min l.rung (l.ladder.length - 1)
      let k := l.ladder.getD rung 0
      (s.coreFor die l k).map fun c =>
        { index := g, entryNo := g, stage := none, slot := none, core := c, kobj := k,
          kptr := l.kptrs.getD rung 0, rung := rung,
          x1 := BitVec.ofNat 64 g, acq := l.acq, task := none, fence := false }

/-! ### Stages (R80) -/

/-- The tags of a stage's queue: how many are full and how many not empty. -/
def State.stageTags (s : State) (vf : Nat) (r : BitVec 256) : List Nat :=
  (List.range (stQcap r)).map fun i => s.tagAt vf (stTag r i) % 4
def State.fullSlots (s : State) (vf : Nat) (r : BitVec 256) : Nat := (s.stageTags vf r).count 2
def State.busySlots (s : State) (vf : Nat) (r : BitVec 256) : Nat := ((s.stageTags vf r).filter (· != 0)).length
/-- The slot at ridx, if it is full. -/
def State.stageHead (s : State) (vf : Nat) (r : BitVec 256) : Option Nat :=
  let n := s.vRd vf (stCtrl r + 4) 4 % stQcap r
  if s.tagAt vf (stTag r n) % 4 == 2 then some n else none
def State.stageRunning (s : State) (lid st : Nat) : Nat :=
  (s.groups.filter fun g => g.launch == lid && g.stage == some st && g.runs).length
/-- How far the oldest entry exceeds its age limit. The oldest is that at ridx, even if a later slot was published before it (log 92,
DESIGN CHOICE). -/
def State.overdue (s : State) (vf : Nat) (r : BitVec 256) (n : Nat) : Nat :=
  if stAge r == 0 then 0 else s.phcNs - (s.publishedAt (s.tagKey vf (stTag r n))).2 - stAge r
/-- What the queue manager reads of a pipeline's stages: their control words and all their tags. -/
def Launch.stageReads (l : Launch) : VReads :=
  l.stages.flatMap fun st => [(l.vf, stCtrl st.record, 8), (l.vf, stTag st.record 0, stQcap st.record)]
/-- A stage with a full entry and a core count that lets it start one. -/
structure Ripe where
  lid : Nat
  stage : Nat
  slot : Nat
  overdue : Nat
  full : Nat
  cap : Nat
def Ripe.better (a b : Ripe) : Bool :=
  if a.overdue != b.overdue then b.overdue < a.overdue else a.overdue == 0 && b.full * a.cap < a.full * b.cap
def State.ripe (s : State) (l : Launch) (anyBelowMax : Bool) : List Ripe :=
  (l.stages.zipIdx).filterMap fun (st, i) =>
    let lim := if anyBelowMax then stMaxc st.record else st.share
    if lim ≤ s.stageRunning l.id i then none
    else
      (s.stageHead l.vf st.record).map fun n =>
        { lid := l.id, stage := i, slot := n, overdue := s.overdue l.vf st.record n, full := s.fullSlots l.vf st.record,
          cap := stQcap st.record }
/-- Below its share first; in class T then any stage below its maximum (R77). -/
def State.ripeOf (s : State) (l : Launch) : List Ripe :=
  let a := s.ripe l false
  if a.isEmpty && l.cls == 0 then s.ripe l true else a
def bestRipe (l : List Ripe) : Option Ripe :=
  l.foldl (fun (best : Option Ripe) x =>
    match best with
    | none => some x
    | some y => if x.better y then some x else best) none
/-- The launch at a stage boundary of kind 1 (R79). -/
def Launch.stageBoundary (l : Launch) : Launch :=
  let low := (l.stages.map fun st => st.ladder.length - 1).foldl max 0
  { l with rung := if l.overrunDue then min (l.rung + 1) low else l.rung, overrunDue := false }
/-- The PFE task that an entry stands for, and what its group acquires (R261). -/
def State.taskOf (s : State) (agent node : Nat) : Option (List Acq) :=
  (s.allJobs.find? fun (_, _, j) => j.agent == agent && (j.cmd == .sweepup || j.cmd == .sweepdn)).map fun (_, _, j) =>
    (j.pfe.deps.filter fun d => d.1 == node).map (·.2)
/-- Start a group on a stage entry: take it (R80), and begin as R259 and R261 say where the PFE wrote it. It waits while a byte of the
stages' queues moves (R226). -/
def State.startStage (s : State) (die : Nat) (l0 : Launch) (x : Ripe) : State :=
  let l := l0.stageBoundary
  match l.stages[x.stage]? with
  | none => s
  | some st =>
    let beyond := l.cls == 0 && lGroups l.record ≤ l.taken
    let top := st.ladder.length - 1
    let rung := if beyond then top else min l.rung top
    let k := st.ladder.getD rung 0
    match s.coreFor die l k with
    | none => s
    | some core =>
      let ptr := stEntry st.record x.slot
      let tag := stTag st.record x.slot
      let key := s.tagKey l.vf tag
      let acq := s.relsOf key (s.publishedAt key).1
      let pfe := match (s.vKey l.vf ptr).bind (fun k => alGet s.marks (k / 4)) with
        | some m => m.path == pathPfe
        | none => false
      let node := s.vRd l.vf ptr 4
      let task := acq.findSome? fun a => (s.taskOf a.agent node).map fun d => ((a.agent, node), d)
      let reads := l.stageReads ++ [(l.vf, ptr, 4)]
      if s.vWaits reads then s
      else
        let s1 := ((s.vUses reads).setTag l.vf tag 3).vWr l.vf (stCtrl st.record + 4)
          (bytesOfNat 4 ((s.vRd l.vf (stCtrl st.record + 4) 4 + 1) % 2 ^ 32))
        let s2 := s1.startGroup l
          { index := st.taken, entryNo := st.taken, stage := some x.stage, slot := some x.slot, core := core, kobj := k,
            kptr := st.kptrs.getD rung 0, rung := rung,
            x1 := BitVec.ofNat 64 ptr, acq := l.acq ++ acq ++ (match task with | some t => t.2 | none => []),
            task := task.map (·.1), fence := pfe }
        s2.updLaunch l.id fun y =>
          { y with rung := l.rung, overrunDue := false, beyond := y.beyond || beyond,
                   stages := (y.stages.zipIdx).map fun (z, i) => if i == x.stage then { z with taken := z.taken + 1 } else z }
/-- The first start of a class on a die: launches in admission order, the stages of all pipelines as one choice. -/
inductive Start where
  | plain (l : Launch) (n : NewGroup)
  | stage (l : Launch) (x : Ripe)
def State.stageCore (s : State) (die : Nat) (l : Launch) (x : Ripe) : Bool :=
  match l.stages[x.stage]? with
  | none => false
  | some st => (s.coreFor die l (st.ladder.getD (min l.stageBoundary.rung (st.ladder.length - 1)) 0)).isSome
def State.pickStart (s : State) (die cls : Nat) : Option Start :=
  let ls := s.launches.filter fun l => l.cls == cls
  let pipes := ls.filter fun l => l.kind == 1 && l.queueDie == die
  let best := bestRipe (pipes.flatMap fun l => (s.ripeOf l).filter (s.stageCore die l))
  ls.findSome? fun l =>
    if l.kind == 1 then
      (if l.queueDie != die then none
       else best.bind fun x => (s.launch? x.lid).map fun l => Start.stage l x)
    else (s.plainStart die l).map (Start.plain l)
def State.groupStart (s : State) (die : Nat) : State :=
  match [0, 1, 2].findSome? (s.pickStart die) with
  | none => s
  | some (.plain l n) => (s.startGroup l n).updLaunch l.id fun x => x.markStarted n.index
  | some (.stage l x) => s.startStage die l x
/-- GROUP_START on a die. -/
def execGroupStart (die : Nat) (s : State) : Host.Outcome State Fault Refusal := .next (s.groupStart die)

/-! ### Shares (R80) -/

/-- The cores that a pipeline holds. -/
def State.poolOf (s : State) (l : Launch) : Nat :=
  if l.cls == 0 then
    ((s.reservations.filter fun r => r.launch == l.id && s.thirds < r.bound).flatMap (·.cores)).length
  else
    let n := ((List.range 512).map (512 * l.queueDie + ·)).countP fun c =>
      match s.groupOn? c with
      | some g => g.launch == l.id
      | none => s.openTo c l.vf l.cls l.id
    min n (l.stages.map fun st => stMaxc st.record).sum
/-- w(s) as a fraction, over 65536 squared: full slots times the room downstream. -/
def State.weight (s : State) (l : Launch) (st : Stage) : Nat :=
  let occ := s.fullSlots l.vf st.record * (65536 / stQcap st.record)
  let room := match l.stages[stDown st.record]? with
    | some d => 65536 - s.busySlots l.vf d.record * (65536 / stQcap d.record)
    | none => 65536
  occ * room
def clampNat (x lo hi : Nat) : Nat := max lo (min x hi)
/-- Give the spare cores one at a time to the largest w / (t + 1): entries are w, t, maxc. -/
def giveSpare : Nat → List (Nat × Nat × Nat) → List (Nat × Nat × Nat)
  | 0, l => l
  | n + 1, l =>
    let best := (l.zipIdx).foldl (fun (b : Option (Nat × Nat × Nat)) (x, i) =>
      let (w, t, mx) := x
      if mx ≤ t || w == 0 then b
      else
        match b with
        | none => some (i, w, t)
        | some (_, w2, t2) => if w2 * (t + 1) < w * (t2 + 1) then some (i, w, t) else b) none
    match best with
    | none => l
    | some (i, _, _) =>
      giveSpare n ((l.zipIdx).map fun (x, k) => if k == i then (x.1, x.2.1 + 1, x.2.2) else x)
def State.shares (s : State) (l : Launch) : List Nat :=
  let p := s.poolOf l
  let ws := l.stages.map (s.weight l)
  let total := ws.sum
  let ts := (l.stages.zip ws).map fun (st, w) =>
    (w, (if total == 0 then stMinc st.record else clampNat (p * w / total) (stMinc st.record) (stMaxc st.record)),
     stMaxc st.record)
  (giveSpare (p - (ts.map fun x => x.2.1).sum) ts).map fun x => x.2.1
/-- 4 microseconds in cycles. -/
def sharePeriod : Nat := 12000
def State.shareRecompute (s : State) (die : Nat) : State :=
  let s1 := s.launches.foldl (fun (s : State) (l : Launch) =>
    if l.kind == 1 && l.queueDie == die && !s.vWaits l.stageReads then
      (s.vUses l.stageReads).updLaunch l.id fun x => { x with stages := (x.stages.zip (s.shares l)).map fun (st, t) => { st with share := t } }
    else s) s
  { s1 with shareAt := alPut s1.shareAt die (s.cyc + sharePeriod) }
def execShareRecompute (die : Nat) (s : State) : Host.Outcome State Fault Refusal :=
  .next (if (alGet s.shareAt die).getD 0 ≤ s.cyc then s.shareRecompute die else s)

/-! ### Budgets (R78) -/

/-- The count has passed the budget, and no handler runs in the control context. -/
def Group.overBudget (g : Group) : Bool :=
  g.runs && g.stopping.isNone && !g.unbound && g.budget != 0 && g.budget < g.used && !g.overran &&
    (match g.ctx? 0 with | some c => !c.csr.intrap | none => false)
/-- Cause 0x20 in the control context, once for a kernel; the launch has an overrun. -/
def State.budgetTrap (s : State) (gid : Nat) : State :=
  match s.group? gid with
  | none => s
  | some g =>
    match g.ctx? 0 with
    | none => s
    | some c =>
      let d := s.settled g c
      let s1 := ((s.settle g c).updGroup gid fun x => { x with overran := true, overAny := true }).updLaunch g.launch fun l =>
        { l with overrunDue := true, overruns := if g.overAny then l.overruns else l.overruns + 1 }
      s1.takeTrap gid 0 0x20 (BitVec.ofNat 64 g.budget) d.pcA d.pcE
def State.budgetOverrun (s : State) (core : Nat) : State :=
  match s.groupOn? core with
  | some g => if g.overBudget then s.budgetTrap g.id else s
  | none => s
def execBudgetOverrun (core : Nat) (s : State) : Host.Outcome State Fault Refusal := .next (s.budgetOverrun core)

/-! ### Pre-emption and resumption -/

/-- Pre-empt a group (R328): a due trap first, then its streams stop at once, and it leaves its core as soon as the CVR jobs into its
scratch are done and its escrow has ended (R266, R343). -/
def State.preempt (s : State) (gid : Nat) (st : GStatus) : State :=
  match s.group? gid with
  | none => s
  | some g =>
    let s1 := if g.overBudget then s.budgetTrap gid else s
    match s1.group? gid with
    | none => s1
    | some g1 =>
      if g1.runs && g1.stopping.isNone then s1.stopGroup gid { status := st, cause := 0x38, record := none } else s1.finishStop gid
/-- The queue manager needs the core of a class-I or class-B group (R327). -/
def State.mustYield (s : State) (g : Group) : Bool :=
  g.cls != 0 && g.runs &&
    (s.reservations.any (fun r => r.cores.contains g.core && s.thirds < r.bound) ||
     s.launches.any (fun l => l.wantsSup && (s.vf l.vf).supcore == g.core && !s.supHeld l.vf 0) ||
     s.groups.any (fun h => h.status == .preempted && kSup h.kobj && (s.vf h.vf).supcore == g.core && h.id != g.id &&
       !s.supHeld h.vf h.id))
def State.preemption (s : State) (core : Nat) : State :=
  match s.groupOn? core with
  | some g => if s.mustYield g then s.preempt g.id .preempted else s
  | none => s
def execPreemption (core : Nat) (s : State) : Host.Outcome State Fault Refusal := .next (s.preemption core)
/-- The core on which a pre-empted group resumes (R329): the lowest of its cluster that is free for it. -/
def State.resumeCore (s : State) (g : Group) : Option Nat :=
  if g.status != .preempted then none else ((List.range 8).map (8 * clusterOf g.core + ·)).find? (s.resumeOn g)
def State.resumption (s : State) (gid : Nat) : State :=
  match s.group? gid with
  | none => s
  | some g => match s.resumeCore g with | some c => s.resumeGroup gid c | none => s
def execResumption (gid : Nat) (s : State) : Host.Outcome State Fault Refusal := .next (s.resumption gid)

/-! ### Reservations and completion -/

def State.reservationRelease (s : State) (die : Nat) : State :=
  { s with reservations := s.reservations.filter fun r => !(r.die == die && r.bound ≤ s.thirds) }
def execReservationRelease (die : Nat) (s : State) : Host.Outcome State Fault Refusal := .next (s.reservationRelease die)

/-- Everything of a launch has ended (R72). -/
def State.launchDone (s : State) (l : Launch) : Bool :=
  l.alive == 0 && (l.kind == 1 || l.total ≤ l.next) && !l.treeRunning &&
    s.allJobs.all (fun (_, _, j) => j.launch != some l.id) &&
    (l.kind != 1 || l.stages.all fun st => (s.stageTags l.vf st.record).all (· == 0))
/-- The status of a completed launch (R73, R253). -/
def State.launchStatus (s : State) (l : Launch) : Nat :=
  let slow := l.cls == 0 && l.deadline < s.thirds
  let fell := l.overruns != 0 || l.beyond
  match l.treeStatus with
  | some n => if n != 0 then 0x02 else if fell then (if slow then 0x11 else 0x10) else if slow then 0x12 else 0x00
  | none => if fell then (if slow then 0x11 else 0x10) else if slow then 0x12 else 0x00
/-- The launch completes: its ranges are no longer homed (R209), its entries are dropped (R303), the record and dcnt are
written (R72). -/
def State.launchCompletion (s : State) (lid : Nat) : State :=
  match s.launch? lid with
  | none => s
  | some l =>
    if !s.launchDone l || s.vWaits (endPlaces l.vf l.record) then s
    else
      let st := s.launchStatus l
      let s1 := l.ranges.foldl (fun (s : State) x => s.dropRange l.vf x) (s.vUses l.stageReads)
      let s2 := (s1.dropEntries true fun e => l.agents.contains e.own).tellEnds l.vf true (l.agents.map fun a => (a, none))
      let s3 : State :=
        { s2 with gone := s2.gone ++ l.agents, launches := s2.launches.filter (fun (x : Launch) => x.id != lid),
                  barriers := s2.barriers.filter fun (b : Barrier) =>
                    match b.id with
                    | .cl n _ => n != lid
                    | .di n _ => n != lid
                    | .pk n => n != lid
                    | _ => true }
      s3.complete l.vf l.record l.overruns l.lowest st 0 l.agents
def execLaunchCompletion (lid : Nat) (s : State) : Host.Outcome State Fault Refusal := .next (s.launchCompletion lid)

end Sys2Proof.Machine
end

