-- ==== Sys2Proof/Machine/Super.lean ====
section
/-! DEFINITION. Class S: control-store loads (R278), residency (R224-R227) and group images (R331). -/

namespace Sys2Proof.Machine

/-! ### cload -/

/-- cload (R278). The engine takes no further job while it waits until the queue is empty. -/
def execCload (d a b : BitVec 5) (s : State) :=
  runS (.cload d a b) s fun s g c =>
    supervisor s c <|
      let cl := (c.readX a).toNat
      let y := (c.readX b).toNat
      let ty := y % 16
      let n := bits y 11 8
      let fin := fun (s : State) (v : Nat) => Act.done (s.updCtx g.id c.num fun x => x.writeX d (wordOf v))
      if 256 ≤ cl || (ty != 3 && ty != 4) || n < 2 || y != ty + 256 * n then .raise s 0x01
      else
        match s.installed.find? (fun x => x.1 == ty && x.2.1 == n) with
        | none => if s.installed.any (fun x => x.1 == 7 - ty && x.2.1 == n) then fin s 2 else fin s 1
        | some x =>
          if !(s.jobs cl (engOf ty)).isEmpty then
            .wait (s.updCtx g.id c.num fun x => { x with loading := some (cl, engOf ty) }) (.other false)
          else
            fin (s.updCluster cl fun k => { k with images := x :: k.images.filter fun y => !(y.1 == ty && y.2.1 == n) }) 0

/-! ### resid -/

/-- A handle entry (R224). -/
def State.handleAt (s : State) (vf : Nat) (h : Nat) : Nat := hbm ((s.vf vf).htab + 32 * h)
def hBase (e : Nat) : Nat := bits e 55 0
def hLen (e : Nat) : Nat := bits e 127 64
def hPrio (e : Nat) : Nat := bits e 130 128
def hPin (e : Nat) : Bool := bit e 133
def hState (e : Nat) : Nat := bits e 135 134
def handleOk (e : Nat) : Bool :=
  bits e 255 136 == 0 && bits e 132 131 == 0 && bits e 63 56 == 0 && hLen e != 0 && hLen e % 2 ^ 19 == 0 &&
    hBase e % 2 ^ 19 == 0 && hBase e + hLen e ≤ 2 ^ 56
/-- The pages of a tensor. -/
def hPages (e : Nat) : List Nat := (List.range (hLen e / 2 ^ 19)).map fun i => hBase e + 2 ^ 19 * i
/-- The leaf that maps an address, or the place of one: where it stands, its value, whether it maps 4 GiB (R215). A level-2 entry that an
eviction has made invalid keeps its leaf bit, and its place (R225). -/
structure Mapping where
  place : Nat
  leaf : Nat
  big : Bool
def State.mappingOf (s : State) (vf va : Nat) : Option Mapping :=
  let e1 := s.rd (hbm ((s.vf vf).ptroot + 8 * bits va 55 44)) 8
  if !leafValid e1 || leafIs e1 || !tableOk e1 then none
  else
    let k2 := hbm (tableOf e1 + 8 * bits va 43 32)
    let e2 := s.rd k2 8
    if leafIs e2 then some { place := k2, leaf := e2, big := true }
    else if !leafValid e2 || !tableOk e2 then none
    else
      let k3 := hbm (tableOf e2 + 8 * bits va 31 19)
      some { place := k3, leaf := s.rd k3 8, big := false }
def Mapping.size (m : Mapping) : Nat := if m.big then 2 ^ 32 else 2 ^ 19
/-- A page lies in a space. -/
def Mapping.inSpace (m : Mapping) (space : Nat) : Bool := leafValid m.leaf && leafSpace m.leaf == space
/-- The mappings of a tensor, each with its first address. A page to which no tables lead has none, and stays so (log 28). -/
def State.mappings (s : State) (vf e : Nat) : List (Nat × Mapping) :=
  let l := (hPages e).filterMap fun va => (s.mappingOf vf va).map fun m => va / m.size * m.size
  l.dedup.filterMap fun va => (s.mappingOf vf va).map fun m => (va, m)
/-- Rewrite a leaf and discard its translations (R225). -/
def State.setLeaf (s : State) (vf va : Nat) (m : Mapping) (e : Nat) : State := (s.wr m.place 8 e).xlinvPage vf va
/-- Write back and drop every cached line of a tensor (R225). -/
def State.dropTensor (s : State) (vf e : Nat) : State := s.flushLines fun l => l.vf == vf && overlaps l.va 64 (hBase e) (hLen e)

/-- Frames hold bytes, or a leaf maps them. -/
def State.usedFrames (s : State) (space f n : Nat) : Bool :=
  let k := keyOf space (f * 2 ^ 19)
  let maps := fun (e : Nat) => leafValid e && leafIs e && leafSpace e == space &&
    overlaps (leafKey e) (if bits e 31 19 == 0 then 2 ^ 32 else 2 ^ 19) k (n * 2 ^ 19)
  s.mem.any fun x => (k ≤ x.1 && x.1 < k + n * 2 ^ 19) || (x.1 % 8 == 0 && x.1 / 2 ^ 60 == 0 && maps (s.rd x.1 8))
/-- Where n frames for a page begin, in HBM those of a die: the first unused ones behind a free choice (log 28). -/
def State.freeFrames (s : State) (space die n : Nat) : Nat :=
  let lo := if space == 0 then die * 2 ^ 18 else 0
  let all := (if space == 0 then 2 ^ 18 else 2 ^ 20) / n
  let f := fun (i : Nat) => lo + (Config.freeFrame space s.free + i) % all * n
  (((List.range 16384).map f).find? fun x => !s.usedFrames space x n).getD (f 0)
/-- What is known of physical bytes goes with them to another place: records, marks, values, code, releases, section keys, owned
ranges and published tags (R226). -/
def State.relocate (s : State) (src dst n : Nat) : State :=
  let mv := fun (k : Nat) => if src ≤ k && k < src + n then dst + (k - src) else k
  let acq := fun (y : Sync) => { y with acq := y.acq.map fun a => { a with var := mv a.var } }
  { s with
    mem := moveCells s.mem src dst n,
    recs := moveKeys s.recs (src / 4) (dst / 4) (n / 4), marks := moveKeys s.marks (src / 4) (dst / 4) (n / 4),
    olds := moveKeys s.olds (src / 4) (dst / 4) (n / 4), code := moveKeys s.code (src / 64) (dst / 64) (n / 64),
    rels := s.rels.map fun r => { r with var := mv r.var }, keys := moveKeys s.keys src dst n,
    owned := s.owned.map fun (o : Owned) => { o with base := mv o.base }, published := s.published.map fun x => (mv x.1, x.2),
    groups := s.groups.map fun (g : Group) =>
      { g with keys := g.keys.map fun (k : Key) => { k with key := mv k.key },
               ctxs := g.ctxs.map fun (c : Ctx) =>
                 { c with saw := moveKeys c.saw (src / 4) (dst / 4) (n / 4), sync := acq c.sync,
                          earlyReads := c.earlyReads.map fun r => { r with var := mv r.var } } } }
/-- Move a page to a space, in HBM to a die; an invalid page becomes a zero page where the tensor has been evicted, and stays invalid
otherwise (R225). -/
def State.movePage (vf space die : Nat) (fresh : Bool) (s : State) (x : Nat × Mapping) : State :=
  let (va, m) := x
  if m.inSpace space || (!fresh && !leafValid m.leaf) then s
  else
    let f := s.freeFrames space die (m.size / 2 ^ 19)
    let dst := keyOf space (f * 2 ^ 19)
    let s1 := if leafValid m.leaf then (s.flushLines (Line.within (leafKey m.leaf) m.size)).relocate (leafKey m.leaf) dst m.size
      else s.clearKeys dst (dst + m.size)
    State.setLeaf { s1 with free := s.free + 1 } vf va m (m.leaf % 2 ^ 16 / 4 * 4 + 3 + space * 2 ^ 16 + f * 2 ^ 19)
/-- Make a page of a tensor invalid and discard its contents; of a 4 GiB page that reaches beyond the tensor only the contents go
(log 28). -/
def State.evictPage (vf e : Nat) (s : State) (x : Nat × Mapping) : State :=
  let (va, m) := x
  if !leafValid m.leaf then s
  else
    let lo := max va (hBase e)
    let hi := min (va + m.size) (hBase e + hLen e)
    let s1 := s.clearKeys (leafKey m.leaf + (lo - va)) (leafKey m.leaf + (hi - va))
    if hi - lo < m.size then s1 else s1.setLeaf vf va m (m.leaf / 2 * 2)
/-- The residency logic knows a handle's entry (R224). -/
def State.name (s : State) (vf h e : Nat) : State :=
  { s with named := s.named.filter (fun x => !(x.1 == vf && x.2.1 == h)) ++ [(vf, h, e)] }
/-- The top byte of the fields of an entry, [135:128], with its state replaced, and its pin bit where `pin` gives one. -/
def hByte (b st : Nat) (pin : Option Bool) : Nat :=
  b % 32 + 32 * (match pin with | some p => (if p then 1 else 0) | none => b / 32 % 2) + 64 * st
/-- An entry with that byte rewritten. -/
def hPut (e st : Nat) (pin : Option Bool) : Nat :=
  e - bits e 135 128 * 2 ^ 128 + hByte (bits e 135 128) st pin * 2 ^ 128
/-- Write the state of a handle, and its pin bit where a variant of resid sets or clears it (R224, R225): byte 16. -/
def State.setHandle (s : State) (vf h st : Nat) (pin : Option Bool) : State :=
  let k := s.handleAt vf h + 16
  let s1 := s.wr k 1 (hByte (s.rd k 1) st pin)
  { s1 with named := s1.named.map fun x => if x.1 == vf && x.2.1 == h then (vf, h, hPut x.2.2 st pin) else x }
/-- A transfer in flight has the tensor as its target or source (R227). -/
def State.inTransfer (s : State) (vf e : Nat) : Bool :=
  let meets := fun (p n : Nat) => bits p 63 56 != 0xFE && overlaps (p % 2 ^ 56) n (hBase e) (hLen e)
  (s.dueWrites ++ s.heldWrites.map (·.write)).any (fun w => w.vf == vf && meets w.ptr.toNat w.data.length) ||
  s.allJobs.any fun (_, _, j) => j.vf == vf &&
    (match j.cmd with
     | .copy =>
       let span := fun (p : Nat) (st : Int) =>
         let x := envelope (p % 2 ^ 56) (j.f 255 224) (j.f 223 192) st
         bits p 63 56 != 0xFE && overlaps x.1.toNat (x.2 - x.1).toNat (hBase e) (hLen e)
       span (j.f 127 64) (toI 32 (j.f 287 256)) || span (j.f 191 128) (toI 32 (j.f 319 288))
     | .gather =>
       meets (j.f 127 64) (j.elemSize * j.arg) ||
         [1, 2, 3].any fun lv => j.gCount lv != 0 && meets (j.gBase lv) ((if lv == j.levels then j.elemSize else 4) * j.gCount lv)
     | _ => false)
/-- The last access to any page of a tensor. -/
def State.lastTouch (s : State) (vf e : Nat) : Nat :=
  ((s.touched.filter fun (k, _) => k / 2 ^ 37 == vf && hBase e ≤ k % 2 ^ 37 * 2 ^ 19 && k % 2 ^ 37 * 2 ^ 19 < hBase e + hLen e).map
    (·.2)).foldl max 0

/-! Moves: a tensor is in state 3 between the two parts of the resid that moves it, and accesses to it wait (R226). -/

/-- The die of a tensor: that of its home slice. -/
def State.tensorDie (s : State) (vf e : Nat) : Nat := dieOfCluster (s.homeSlice vf (hBase e))
/-- A move begins: the tensor's lines are written back and dropped, its state is 3. -/
def State.beginMove (s : State) (m : Move) (e : Nat) : State :=
  let s1 := (s.dropTensor m.vf e).setHandle m.vf m.handle 3 none
  let l := (s.mappings m.vf e).filter fun x => leafValid x.2.leaf
  { s1 with moving := s1.moving ++
      [{ m with base := hBase e, len := hLen e, leaves := l.map fun x => (leafKey x.2.leaf, x.2.size) }] }
/-- It ends: every page is at its new place, the handle has its new state. -/
def State.endMove (s : State) (m : Move) : State :=
  match s.named.find? fun x => x.1 == m.vf && x.2.1 == m.handle with
  | none => s
  | some x =>
    ((s.mappings m.vf x.2.2).foldl (State.movePage m.vf m.space (s.tensorDie m.vf x.2.2) m.fresh) s).setHandle m.vf m.handle m.final m.pin
/-- The moves that satisfy p end: those that a resid has begun, or those of a group that ends. -/
def State.endMoves (s : State) (p : Move → Bool) : State :=
  let s1 := (s.moving.filter p).foldl State.endMove s
  { s1 with moving := s1.moving.filter fun m => !p m }
/-- The move of a handle to a space for a resid; what its entry does not give. -/
def Move.new (vf h space final : Nat) (pin : Option Bool) (fresh : Bool) (who : Nat × Nat × Nat) : Move :=
  { vf := vf, handle := h, base := 0, len := 0, space := space, final := final, pin := pin, fresh := fresh, leaves := [], owner := who }
def toHost (vf h : Nat) (who : Nat × Nat × Nat) : Move := Move.new vf h 2 1 none false who
/-- Lowest priority first, then the least recently accessed (R227). -/
def victimBefore (s : State) (x y : Nat × Nat × Nat) : Bool :=
  hPrio x.2.2 < hPrio y.2.2 || (hPrio x.2.2 == hPrio y.2.2 && s.lastTouch x.1 x.2.2 ≤ s.lastTouch y.1 y.2.2)
def insertVictim (s : State) (x : Nat × Nat × Nat) : List (Nat × Nat × Nat) → List (Nat × Nat × Nat)
  | [] => [x]
  | y :: r => if victimBefore s x y then x :: y :: r else y :: insertVictim s x r
/-- The frames of a tensor in HBM on a die (R213). -/
def State.framesOn (s : State) (vf e die : Nat) : Nat :=
  (((s.mappings vf e).filter fun x => x.2.inSpace 0 && bits (leafFrame x.2.leaf) 38 37 == die).map fun x => x.2.size / 2 ^ 19).sum
/-- The handles that may be demoted to make room on a die: unpinned, in HBM there, in no transfer, lowest first (R227). -/
def State.victims (s : State) (die : Nat) : List (Nat × Nat × Nat) :=
  (s.named.filter fun (vf, _, e) =>
    handleOk e && !hPin e && hState e == 0 && s.framesOn vf e die != 0 && !s.inTransfer vf e).foldr (insertVictim s) []
/-- The first of them that give a number of frames; none if all do not. -/
def State.enough (s : State) (die need : Nat) : List (Nat × Nat × Nat) → Nat → Option (List (Nat × Nat × Nat))
  | [], room => if need ≤ room then some [] else none
  | x :: r, room =>
    if need ≤ room then some [] else (s.enough die need r (room + s.framesOn x.1 x.2.2 die)).map fun l => x :: l

/-- What a variant of resid does with a handle: it ends with a status, or begins moves. -/
inductive ResidAct where
  | ends (s : State) (status : Nat)
  | begins (s : State)
/-- resid.pin. -/
def State.pinTensor (s : State) (who : Nat × Nat × Nat) (vf h e : Nat) : ResidAct :=
  let fresh := hState e == 2
  let need := (((s.mappings vf e).filter fun x => !x.2.inSpace 0 && (fresh || leafValid x.2.leaf)).map fun x => x.2.size / 2 ^ 19).sum
  if need == 0 then .ends ((s.dropTensor vf e).setHandle vf h 0 (some true)) 0
  else
    let die := s.tensorDie vf e
    let s0 : State := { s with free := s.free + 1 }
    match s0.enough die need ((s.victims die).filter fun x => !(x.1 == vf && x.2.1 == h)) (Config.hbmRoom die s.free) with
    | none => .ends s 3
    | some l =>
      let s1 := l.foldl (fun (s : State) x => s.beginMove (toHost x.1 x.2.1 who) x.2.2) s0
      .begins (s1.beginMove (Move.new vf h 0 0 (some true) fresh who) e)
def State.demoteTensor (s : State) (who : Nat × Nat × Nat) (vf h e : Nat) : ResidAct :=
  if hState e == 2 then .ends ((s.dropTensor vf e).setHandle vf h 1 none) 0
  else .begins (s.beginMove (toHost vf h who) e)
def State.evictTensor (s : State) (_who : Nat × Nat × Nat) (vf h e : Nat) : ResidAct :=
  .ends ((((s.mappings vf e).foldl (State.evictPage vf e) (s.dropTensor vf e))).setHandle vf h 2 none) 0
def State.unpinTensor (s : State) (_who : Nat × Nat × Nat) (vf h e : Nat) : ResidAct :=
  .ends ((s.dropTensor vf e).setHandle vf h (hState e) (some false)) 0
/-- The four variants (R225). `waits`: a pinned handle is refused, and a transfer waited for; f does the rest. A handle that another
resid moves is waited for first. -/
def residX (i : Instr) (d a : BitVec 5) (waits : Bool) (f : State → Nat × Nat × Nat → Nat → Nat → Nat → ResidAct) (s : State) :=
  runS i s fun s g c =>
    let h := (c.readX a).toNat
    let fin := fun (s : State) (v : Nat) => Act.done (s.updCtx g.id c.num fun x => x.writeX d (wordOf v))
    let who := (g.id, c.num, h)
    if s.moving.any fun m => m.owner == who then fin (s.endMoves fun m => m.owner == who) 0
    else if s.moving.any fun m => m.vf == g.vf && m.handle == h then .wait s (.other false)
    else
      let e := s.rd (s.handleAt g.vf h) 32
      if 4095 < h || !handleOk e then fin s 1
      else
        let s := s.name g.vf h e
        if waits && hPin e then fin s 2
        else if waits && s.inTransfer g.vf e then .wait s (.other false)
        else
          match f s who g.vf h e with
          | .ends s st => fin s st
          | .begins s => .wait s (.other false)
def execResidPin (d a : BitVec 5) (s : State) := residX (.residPin d a) d a false State.pinTensor s
def execResidUnpin (d a : BitVec 5) (s : State) := residX (.residUnpin d a) d a false State.unpinTensor s
def execResidDemote (d a : BitVec 5) (s : State) := residX (.residDemote d a) d a true State.demoteTensor s
def execResidEvict (d a : BitVec 5) (s : State) := residX (.residEvict d a) d a true State.evictTensor s

/-! ### Group images -/

/-- ctxsv ends with the area of the group that it has parked (R331). -/
def State.parkedBy (s : State) (g : Group) (c : Ctx) (d : BitVec 5) (h : Group) : Act :=
  .done ((s.markDelayed h.launch).updCtx g.id c.num fun x => x.writeX d h.ctxa)
/-- ctxsv (R331): it waits until the group has left its core (R328), which may be by a turn of the group's own. -/
def execCtxsv (d a : BitVec 5) (s : State) :=
  runS (.ctxsv d a) s fun s g c =>
    supervisor s c <|
      let n := (c.readX a).toNat
      let no := Act.done (s.updCtx g.id c.num fun x => x.writeX d 1)
      match (c.saving.bind s.group?).filter fun h => h.core == n && h.status == .parked, if n ≤ 2047 then s.groupOn? n else none with
      | some h, _ => s.parkedBy g c d h
      | none, none => no
      | none, some h =>
        if h.vf != g.vf || h.id == g.id then no
        else
          let s1 := s.preempt h.id .parked
          match s1.group? h.id with
          | none => .done (s1.updCtx g.id c.num fun x => x.writeX d 1)
          | some h1 =>
            match h1.status with
            | .parked => s1.parkedBy g c d h1
            | .running => .wait (s1.updCtx g.id c.num fun x => { x with saving := some h.id }) (.other false)
            | _ => .done (s1.updCtx g.id c.num fun x => x.writeX d 1)
/-- The parked or halted group of a virtual function whose area is at an address. -/
def State.savedAt (s : State) (vf : Nat) (area : Word) : Option Group :=
  s.groups.find? fun h => h.vf == vf && h.ctxa == area &&
    (match h.status with | .parked | .halted _ => true | _ => false)
/-- A core on which ctxld resumes a saved group: free, and of its cluster (R331). -/
def State.mayResume (s : State) (h : Group) (core : Nat) : Bool := core ≤ 2047 && clusterOf core == clusterOf h.core && s.coreFree core
/-- Clear the parked and halted flags of an image (R331). -/
def State.clearFlags (s : State) (area : Word) : State :=
  let k := hbm (area.toNat + 0x58)
  s.wr k 8 (s.rd k 8 / 4 * 4)
def execCtxld (kill : Bool) (d a b : BitVec 5) (s : State) :=
  runS (.ctxld kill d a b) s fun s g c =>
    supervisor s c <|
      let core := (c.readX b).toNat
      let fin := fun (s : State) (v : Nat) => Act.done (s.updCtx g.id c.num fun x => x.writeX d (wordOf v))
      match s.savedAt g.vf (c.readX a) with
      | none => fin s 1
      | some h =>
        if kill && s.entryMoves h then .wait s (.other false)
        else if kill then fin ((s.endMoves fun m => m.owner.1 == h.id).endGroup h.id none) 0
        else if !s.mayResume h core then fin s 2
        else fin ((s.resumeGroup h.id core).clearFlags h.ctxa) 0

end Sys2Proof.Machine
end

