-- ==== Sys2Proof/Machine/Events.lean ====
section
/-! DEFINITION. Events that no instruction starts: stream deadlock (R124), doorbells (R69), world switches (R333), barrier
phases (R290, R291, R303), the clock and its counters (R211, R295, R332, R352), the notification queue (R229), the fabric
(R310, R311), host accesses (R346) and soft errors (R318, R343). -/

namespace Sys2Proof.Machine

/-! ### Stream deadlock (R124) -/

/-- What the access stream waits for the execute stream for, if it still does. -/
def Ctx.awaitCode (c : Ctx) : Option Nat :=
  match c.waitA with
  | some (.queue n _) =>
    if 4 ≤ n && n ≤ 6 then (if c.queues.isEmpty n then some n else none)
    else if c.queues.full n then some n else none
  | some .drain => if c.drained then none else some 9
  | _ => none
/-- The queue entries that an instruction pops from a queue that its A and B both name (R113, R122). -/
def popsOf (i : Instr) (q : Nat) : Nat :=
  match instrFields i with
  | some f =>
    let twice := f.len == .long && f.asrc == f.bsrc && f.asrc.toNat == q + 9 &&
      (match eShape f.op.toNat with | some sh => sh.b == .v | none => false)
    if twice then 2 else 1
  | none => 1
/-- What the execute stream waits for the access stream for. A wait for a commit is one only where it holds a class-E instruction,
or a fetch that has failed (log 113); before a control-flow instruction it is one for bq. -/
def State.ewaitCode (s : State) (g : Group) (c : Ctx) : Option Nat :=
  match c.waitE with
  | some (.queue n _) =>
    if 4 ≤ n && n ≤ 6 then (if c.queues.full n then some n else none)
    else if c.queues.isEmpty n then some n
    else
      match s.fetchSeq g c c.seqE c.pcE with
      | .instr _ i => if c.queues.count n < popsOf i n then some n else none
      | _ => none
  | some .commit =>
    let free := match s.fetchSeq g c c.seqE c.pcE with
      | .instr _ i => c.committedTo (if i.isExec then c.seqP else max c.seqP (c.seqE + 1))
      | .bad _ _ | .trap _ _ _ => c.trapsAlone
      | _ => true
    if free then none
    else
      let d := s.settled g c
      match s.fetchSeq g d d.seqE d.pcE with
      | .instr _ i => if i.isFlow then some 8 else if i.isExec then some 9 else none
      | .bad _ _ | .trap _ _ _ => some 9
      | _ => none
  | _ => none
def State.deadlocked (s : State) (core n : Nat) : Option (Group × Ctx × Nat × Nat) :=
  match s.groupOn? core with
  | none => none
  | some g =>
    match g.ctx? n with
    | none => none
    | some c =>
      match c.awaitCode, s.ewaitCode g c with
      | some a, some e => some (g, c, a, e)
      | _, _ => none
/-- The context takes cause 0x04, EPC and EPCE at the stalled instructions. -/
def execStreamDeadlock (core n : Nat) (s : State) : Host.Outcome State Fault Refusal :=
  match s.deadlocked core n with
  | some (g, c, a, e) =>
    let d := s.settled g c
    .next ((s.settle g c).takeTrap g.id n 0x04 (BitVec.ofNat 64 (e * 256 + a)) d.pcA d.pcE)
  | none => .next s

/-! ### Doorbells (R69) -/

/-- Nothing comes from the host before the CXL link is up (R357). A slot number at or above cap, for which R69 gives no outcome, is an
error as at a queue of mode 0 (log 76). The doorbell of a slot whose tag moves comes when the move is over (R226; log 112). -/
def execDoorbell (vf q slot : Nat) (s : State) : Host.Outcome State Fault Refusal :=
  let bad : State := { s with errors := s.errors ++ [{ kind := .doorbell, vf := some vf, addr := 0x100 + 8 * q }] }
  .next <|
    if !s.mbrdy then s
    else
    match s.qHead vf q with
    | none => bad
    | some h =>
      if h.mode != 1 || h.cap ≤ slot || 2 ≤ s.tagAt vf (h.tags + slot) % 4 then bad
      else if s.vWaits [(vf, h.tags + slot, 1)] then s
      else ((s.setTag vf (h.tags + slot) 2).tock).notePublish (s.tagKey vf (h.tags + slot)) []

/-! ### World switch (R333) -/

/-- A core's counters and lines go to the outgoing function, and the incoming one's come. -/
def State.swapCore (out inn : Nat) (x : State × List (Nat × Nat × Core)) (core : Nat) : State × List (Nat × Nat × Core) :=
  let k := x.1.core core
  let others := x.2.filter fun (c, v, _) => !(c == core && (v == out || v == inn))
  let k2 := if inn == out then k
    else match x.2.find? (fun (c, v, _) => c == core && v == inn) with
      | some (_, _, q) => q
      | none => Core.fresh
  (x.1.updCore core fun q => { q with pmc := k2.pmc, pmsel := k2.pmsel, pending := k2.pending }, others ++ [(core, out, k)])
def TimeShare.now (t : TimeShare) : Nat := t.vfs.getD t.turn 0
def TimeShare.next (t : TimeShare) : Nat := (t.turn + 1) % t.vfs.length
def State.outgoing (s : State) (t : TimeShare) : List Group :=
  s.groups.filter fun g => g.runs && t.cores.contains g.core && g.vf == t.now
/-- The slice of a core's set has ended: pre-empt the groups of class I or B, which alone may be (R76, R327); once none runs, swap and
resume. -/
def State.worldSwitch (s : State) (t : TimeShare) : State :=
  let s1 := ((s.outgoing t).filter fun g => g.cls != 0).foldl (fun (s : State) g => s.preempt g.id .preempted) s
  if !(s1.outgoing t).isEmpty then s1
  else
    let inn := t.vfs.getD t.next 0
    let (s2, sv) := t.cores.foldl (State.swapCore t.now inn) (s1, t.saved)
    let t2 : TimeShare := { t with turn := t.next, start := s.cyc, saved := sv }
    let s3 : State := { s2 with timeShares := s2.timeShares.map fun x => if x.cores == t.cores then t2 else x }
    t.cores.foldl (fun (s : State) core =>
      match s.groups.find? (fun g => g.status == .preempted && g.core == core && g.vf == inn) with
      | some g => if s.coreFree core then s.resumeGroup g.id core else s
      | none => s) s3
def TimeShare.due (t : TimeShare) (cyc : Nat) : Bool := t.start + t.slice ≤ cyc
def execWorldSwitchSliceEnd (core : Nat) (s : State) : Host.Outcome State Fault Refusal :=
  match s.timeShared core with
  | some t => .next (if t.due s.cyc then s.worldSwitch t else s)
  | none => .next s

/-! ### Barrier phases (R290, R291, R303) -/

def Barrier.has (b : Barrier) (p member : Nat) : Bool := b.arrivals.any fun a => a.member == member && a.atPhase p
/-- A group of the launch has yet to start on a die (every die for none); with `core`, one that waits for nothing but a core (R81, R89).
Kind 1 has a group for each entry that a stage's queue holds full, on its home die (R77, R80; log 83). -/
def State.awaitsStart (s : State) (lid : Nat) (die : Option Nat) (core : Bool) : Bool :=
  match s.launch? lid with
  | none => false
  | some l =>
    let on := fun (d : Nat) => match die with | some x => d == x | none => true
    if l.kind == 1 then on l.queueDie && l.stages.any fun st => s.fullSlots l.vf st.record != 0
    else (List.range (l.total - l.next)).any fun i => l.unstarted (l.next + i) && on (s.launchDie l (l.next + i)) &&
      (!core || l.ready (l.next + i))
/-- Every group of the launch that satisfies p has arrived at a phase. -/
def State.groupsIn (s : State) (b : Barrier) (ph lid : Nat) (p : Group → Bool) : Bool :=
  s.groups.all fun g => !(g.launch == lid && p g) || b.has ph g.id
/-- A launch has arrived at a phase of its pod barrier once its groups have; one that is gone has. -/
def State.launchIn (s : State) (b : Barrier) (ph lid : Nat) : Bool :=
  !s.awaitsStart lid none false && s.groupsIn b ph lid fun _ => true
def Pod.members (p : Pod) : Nat := p.launches.length + p.records.length
/-- Every member on this device has arrived at a phase. -/
def State.podHere (s : State) (p : Pod) (b : Barrier) (ph : Nat) : Bool :=
  p.records.isEmpty && p.launches.all (s.launchIn b ph)
def State.allIn (s : State) (b : Barrier) : Bool :=
  let ph := b.complete
  match b.id with
  | .co gid => (match s.group? gid with | some g => g.ctxs.all fun c => b.has ph c.sync.agent | none => false)
  | .cl l c => !s.awaitsStart l (some (dieOfCluster c)) true && s.groupsIn b ph l fun g => clusterOf g.core == c
  | .di l d => !s.awaitsStart l (some d) false && s.groupsIn b ph l fun g => g.die == d
  | .pk l => !s.awaitsStart l none false && s.groupsIn b ph l fun _ => true
  | .pd n =>
    match s.pods.find? (fun p => p.id == n) with
    | some p => s.podHere p b ph && (p.count - p.members) * (ph + 1) ≤ p.remote
    | none => false
/-- An entry that the drop rule drops when this phase completes: of a member, or of a helper of it that had ended, or of a
job of either, before the arrival. -/
def Barrier.drops (b : Barrier) (ph : Nat) (e : Entry) : Bool :=
  b.arrivals.any fun a => a.atPhase ph && ((e.own == a.agent && e.ownRel ≤ a.tag) || a.ended.contains e.own)
/-- What other devices drop likewise (R303): each member's agent up to its arrival, and the helpers that had ended. -/
def Barrier.ends (b : Barrier) (ph : Nat) : List (Nat × Option Nat) :=
  (b.arrivals.filter fun a => a.atPhase ph).flatMap fun a => (a.agent, some a.tag) :: a.ended.map fun h => (h, none)
def State.dropPhase (s : State) (b : Barrier) : State :=
  match b.id with
  | .di l _ | .pk l =>
    (s.dropEntries true (b.drops b.complete)).tellEnds ((s.launch? l).map (·.vf) |>.getD 0) false (b.ends b.complete)
  | .co _ | .cl _ _ => s.dropEntries false (b.drops b.complete)
  | .pd _ => s
/-- The arrivals of a phase of a pod barrier go to the other devices (log 13): the first with the number of members here. -/
def State.announce (s : State) (p : Pod) (b : Barrier) : State :=
  let l := b.arrivals.filter fun a => a.atPhase p.announced && a.agent < 2 ^ 40
  let s1 := (l.zipIdx).foldl (fun (s : State) (x : Arrival × Nat) =>
    let g := s.group? x.1.member
    let core := match g with | some g => g.core | none => 0
    let vf := match g with | some g => g.vf | none => 0
    s.sendFabric { FabWrite.new (4096 + core) 0xFFFF vf (BitVec.ofNat 64 (p.id * 2 ^ 32 + p.announced))
        (bytesOfNat 4 (if x.2 == 0 then p.members else 0)) with
      agent := x.1.agent, tag := x.1.tag, adopts := s.adoptsOf x.1.agent x.1.tag [], value := x.1.value }) s
  { s1 with pods := s1.pods.map fun q => if q.id == p.id then { q with announced := q.announced + 1 } else q }
def Barrier.started (b : Barrier) : Bool := b.arrivals.any fun a => a.phase == b.complete && !a.last
/-- A pod barrier whose members here have all arrived at a phase that the other devices have not been told. -/
def State.toAnnounce (s : State) (b : Barrier) : Option Pod :=
  match b.id with
  | .pd n => s.pods.find? fun p => p.id == n && p.members < p.count && p.announced ≤ b.complete && s.podHere p b p.announced
  | _ => none
/-- A phase completes once every member has arrived; a pod barrier first tells the other devices. -/
def State.phaseComplete (s : State) (b : Barrier) : State :=
  if !b.started then s
  else
    match s.toAnnounce b with
    | some p => s.announce p b
    | none =>
      if !s.allIn b then s
      else (s.dropPhase b).updBarrier b.id fun x => { x with complete := x.complete + 1 }
def execBarrierPhaseComplete (i : Nat) (s : State) : Host.Outcome State Fault Refusal :=
  .next (match s.barriers[i]? with | some b => s.phaseComplete b | none => s)

/-! ### Time, counters, notifications -/

/-- The refresh window of a bank that is in it comes to its end (R211). -/
def execRefreshWindowEnd (_die bank : Nat) (s : State) : Host.Outcome State Fault Refusal :=
  if s.refreshing bank then
    let stop := (s.phcNs - s.phase + 1000 * bank + 320) * phcUnit
    let per := (1000000000000 + s.rate).toNat
    .next (s.advance ((stop - s.phc + per - 1) / per))
  else .next s
/-- The event codes that count something (R332). -/
def pmcEvents : List Nat := [1, 2, 3, 4, 5, 6, 7, 0x10, 0x11, 0x12, 0x20, 0x21, 0x22, 0x30, 0x31, 0x40]
/-- A selection counts events of the group that runs on a core: one of R332's, in a mode of one of its contexts. -/
def State.counts (s : State) (core sel : Nat) : Bool :=
  pmcEvents.contains (sel % 2 ^ 16) &&
    (match s.groupOn? core with
     | some g => g.ctxs.any fun c => if c.csr.mode then bit sel 18 else bit sel 17
     | none => false)
/-- A counter that stands at its largest value counts an event and wraps (R332). -/
def execPmcOverflow (core n : Nat) (s : State) : Host.Outcome State Fault Refusal :=
  let i := n % 8
  let k := s.core core
  if n < 8 && (k.pmc.toList.getD i 0) == BitVec.allOnes 48 && s.counts core (k.pmsel.toList.getD i 0).toNat then
    let f := fun (q : Core) =>
      { q with pmc := Vector.ofFn fun (j : Fin 8) => if j.val == i then 0 else q.pmc[j],
               pmsel := Vector.ofFn fun (j : Fin 8) => if j.val == i then q.pmsel[j] ||| BitVec.twoPow 64 63 else q.pmsel[j] }
    let s1 := s.updCore core f
    match s.groupOn? core with
    | some g =>
      .next (if (k.pmsel.toList.getD i 0).getLsbD 19 then
        s1.inform g.vf (faultRecord (BitVec.ofNat 64 i) 0 0 core 0 8 false false 0x24) else s1)
    | none => .next s1
  else .next s
/-- Queue the overflowed pages of a function while there is room (R229). -/
def State.drainPage (vf : Nat) (s : State) (x : Nat × Page) : State :=
  if x.2.vf == vf && x.2.overflow && !s.nqFull vf then
    let s1 : State := { s with pages := alPut s.pages x.1 { x.2 with overflow := false, queued := some (s.nqTail vf) } }
    s1.nqPut vf x.1 x.2.count true
  else s
def State.overflowed (s : State) (vf : Nat) : Bool := s.pages.any fun x => x.2.vf == vf && x.2.overflow
def execNotifyOverflowDrain (vf : Nat) (s : State) : Host.Outcome State Fault Refusal :=
  if s.overflowed vf then
    let s1 := s.pages.foldl (State.drainPage vf) s
    .next (if s1.overflowed vf then s1 else s1.nqPending vf false)
  else .next s

/-! ### The fabric (R310, R311); log 13 -/

/-- The name on this device of an agent that a device numbers `a`: each device numbers its own below 2^40, and those of the device with
number d are named from 2^40 (d + 1) on. A write of this device's own keeps the names. -/
def State.nameAt (s : State) (src a : Nat) : Nat :=
  if src == s.device then a else if a < 2 ^ 40 then 2 ^ 40 * (src + 1) + a else if a / 2 ^ 40 == s.device + 1 then a % 2 ^ 40 else a
def State.namedAcq (s : State) (src : Nat) (a : Acq) : Acq := { a with agent := s.nameAt src a.agent }
def State.namedSync (s : State) (src : Nat) (y : Sync) : Sync :=
  { y with agent := s.nameAt src y.agent, acq := y.acq.map (s.namedAcq src), bars := y.bars.map (s.namedAcq src) }
/-- The agent that a write of another device is made by. -/
def State.fabAgent (s : State) (w : FabWrite) : Nat := s.nameAt w.src w.agent
/-- How such a write is checked (R299, R313). -/
def State.fabWho (s : State) (w : FabWrite) (path : Nat) : Who :=
  { syncs := w.syncs.map (s.namedSync w.src),
    entry := { agent := s.fabAgent w, rel := w.rel, own := s.nameAt w.src w.own, ownRel := w.ownRel }, path := path, seen := none,
    before := [],
    fences := w.fences.map fun x => ({ x.1 with sync := s.namedSync w.src x.1.sync }, x.2.map (s.nameAt w.src)) }
/-- What is adopted by the releases that a write makes or is ordered after (R314), as far as it is not known here yet. -/
def State.fabAdopts (s : State) (w : FabWrite) : State :=
  let l := w.adopts.map fun (j, a, r) => (s.nameAt w.src j, s.nameAt w.src a, r)
  { s with adopted := s.adopted ++
      (l.filter fun (j, a, r) => !s.adopted.any fun d => d.job == j && d.agent == a && d.rel == r).map fun (j, a, r) =>
        { job := j, agent := a, rel := r, tick := s.tick, stamp := 0 } }
/-- The sequence is above the highest committed. -/
def seqAbove (n : Nat) (last : Option Nat) : Bool :=
  match last with
  | none => true
  | some m => 0 < (n + 2 ^ 32 - m) % 2 ^ 32 && (n + 2 ^ 32 - m) % 2 ^ 32 < 2 ^ 31
/-- The job at the other end of a copy's write, as far as the checks need it. -/
def fabJob (s : State) (w : FabWrite) : Job :=
  { Job.new (s.fabAgent w) .copy w.vf (s.vf w.vf).bndt none s.cyc s.phcSec with
    senders := w.syncs.map fun y =>
      { gid := 0, core := 2048, ctx := 0, agent := s.fabAgent w, record := 0, ev := 0, sync := s.namedSync w.src y, rel := w.rel - 1,
        tick := s.tick, live := false },
    phase := .running, checked := true, pfe := { Pfe.empty with seqno := w.rel - 1 } }
/-- A row of a copy has been acknowledged, or the copy has failed: a status, and how many rows on (R237, R239). -/
def Job.rowDone (w : FabWrite) (j : Job) : Job :=
  if j.cmd == .copy && j.rowSent == some w.seq && (j.senders.head?.map (·.core)) == some (w.stream % 2048) then
    match w.data with
    | [] => { j with rowSent := none, pos := j.pos + 1 }
    | st :: r => { j with rowSent := none, nack := some st.toNat, pos := j.pos + natOfBytes r }
  else j
/-- An acknowledgement of a write of this device, or the status of the check that it failed. -/
def State.acknowledged (s : State) (w : FabWrite) : State :=
  { s with sent := s.sent.filter (fun x => !(x.stream == w.stream && x.seq == w.seq)),
           clusters := if w.stream / 2048 == 1 then s.clusters.map fun (n, c) => (n, { c with cpy := c.cpy.map (Job.rowDone w) })
             else s.clusters }
/-- Where a write is committed: its home slice; pod arrivals and the ends of agents have a place of their own. -/
def State.fabHome (s : State) (w : FabWrite) : Nat :=
  if 2 ≤ w.stream / 2048 then 257 + w.stream / 2048 else if bits w.ptr.toNat 63 56 == 0xFE then localHome else s.homeSlice w.vf w.ptr.toNat
/-- What a home slice keeps per source device and stream (R310). -/
def State.fabKey (s : State) (w : FabWrite) : Nat := s.fabHome w * 2 ^ 32 + w.src * 2 ^ 16 + w.stream
/-- A write has been committed, or has failed with a status: it is acknowledged (R310). -/
def State.fabDone (s : State) (w : FabWrite) (status : List Byte) : State :=
  let k := s.fabKey w
  { s with committed := if status.isEmpty && seqAbove w.seq (alGet s.committed k) then alPut s.committed k w.seq else s.committed,
           acks := s.acks ++ [{ w with data := status, ack := true }] }
/-- A flag before its time, or a copy's write that meets a busy bank or a tensor that moves, waits at its home. -/
def State.fabWaits (s : State) (w : FabWrite) : State := { s with dueWrites := s.dueWrites ++ [w] }
/-- One waits there for an xlinv that covers its page, and is reported (R219, R237); at a tensor that moves it only waits (R226). -/
def State.fabHeld (s : State) (w : FabWrite) (va : Nat) (malf : Bool) : State :=
  if s.movesVa w.vf va then s.fabWaits w
  else
    let s1 := s.report w.vf (faultRecord (BitVec.ofNat 64 va) 0 0 0 0 pathFab false malf 0x10)
    { s1 with heldWrites := s1.heldWrites ++ [{ write := w, va := va, retry := false }] }
/-- The first of n rows of a copy from row r behind this one on that lies in a weight store which may not be written, or after them its
slot, if none before it fails another check (R210). -/
def State.barredAhead (s : State) (j : Job) (w : FabWrite) : Nat → Nat → State × Option Nat
  | 0, _ => (s, if s.barredSlot j w.slot then some 0 else none)
  | n + 1, r =>
    let ptr := ptrAdd w.ptr.toNat (r * w.more.2)
    let dst := s.jobSpots j (s.fabWho w pathFab) .write .w false (piecesOf ptr w.data.length)
    match s.barredAt j ptr w.data.length, dst with
    | true, _ => (dst.state, some r)
    | _, .fail _ _ => (dst.state, none)
    | _, _ => dst.state.barredAhead j w n (r + 1)
/-- Commit a row of a copy, or publish its slot. -/
def State.commitRow (s : State) (w : FabWrite) : State :=
  let j := fabJob s w
  match (if w.data.isEmpty then (s, none) else s.barredAhead j w (w.more.1 + 1) 0) with
  | (s, some r) => s.fabDone w (BitVec.ofNat 8 0x16 :: bytesOfNat 4 r)
  | (s, none) =>
    match (if w.data.isEmpty then s.publishSlot j pathFab w.ptr.toNat else s.jobWrite j pathFab w.ptr.toNat w.data) with
    | .ok s1 _ => s1.fabDone w []
    | .busy s1 _ => s1.fabWaits w
    | .hold s1 va m => s1.fabHeld w va m
    | .fail s1 st => s1.fabDone w [BitVec.ofNat 8 st]
/-- Agents of another device have ended, or have come to a phase that drops their entries (R303). -/
def State.fabEnds (s : State) (w : FabWrite) : State :=
  let l := w.ends.map fun (a, t) => (s.nameAt w.src a, t)
  let s1 := s.dropEntries true fun e => l.any fun (a, t) => e.own == a && (match t with | some n => e.ownRel ≤ n | none => true)
  if w.flag then { s1 with gone := s1.gone ++ l.map (·.1) } else s1
/-- Commit a write at its home. -/
def State.commitFabric (s0 : State) (w : FabWrite) : State :=
  let s := s0.fabAdopts w
  match w.stream / 2048 with
  | 0 =>
    if s.flagWaits w.vf (s.vf w.vf).bndt w.ptr then s.fabWaits w
    else
      (s.flagStore (s.fabWho w pathCore) w.vf (s.vf w.vf).bndt { vf := w.vf, launch := 0, gid := 0, core := 2048 } w.tag w.ptr
        w.data).fabDone w []
  | 1 => s.commitRow w
  | 3 => (s.fabEnds w).fabDone w []
  | _ =>
    let pod := w.ptr.toNat / 2 ^ 32
    let a : Arrival := { member := s.fabAgent w, phase := w.ptr.toNat % 2 ^ 32, value := w.value, last := false, agent := s.fabAgent w,
                         tag := w.tag, ended := [] }
    let s1 := s.updBarrier (.pd pod) fun b => { b with arrivals := b.arrivals ++ [a] }
    State.fabDone { s1 with pods := s1.pods.map fun p => if p.id == pod then { p with remote := p.remote + natOfBytes w.data } else p }
      w []
/-- A write waits at its home already. -/
def State.atHome (s : State) (w : FabWrite) : Bool :=
  (s.dueWrites ++ s.heldWrites.map (·.write)).any fun x => x.src == w.src && x.stream == w.stream && x.seq == w.seq
/-- A write arrives over the fabric, from another device or sent to this one by itself (R239), or an acknowledgement: a write that already
waits at its home is discarded, one that its home has committed is only acknowledged again, and a flag whose time has not come waits
(R295, R310, R311). -/
def execFabricWriteArrival (w : FabWrite) (s : State) : Host.Outcome State Fault Refusal :=
  .next <|
    if w.ack then (if w.src == s.device then s.acknowledged w else s)
    else if !(w.dst == s.device || (w.dst == 0xFFFF && w.src != s.device)) || s.atHome w then s
    else if !seqAbove w.seq (alGet s.committed (s.fabKey w)) then { s with acks := s.acks ++ [{ w with data := [], ack := true }] }
    else if s.clockNs < w.due then (s.usesFabric w.vf).fabWaits w
    else (s.usesFabric w.vf).commitFabric w
/-- A write that waits at its home can be committed. -/
def State.fabDue (s : State) (w : FabWrite) : Bool :=
  w.due ≤ s.clockNs &&
    (match w.stream / 2048 with
     | 0 => !s.flagWaits w.vf (s.vf w.vf).bndt w.ptr
     | 1 =>
       (match s.probeJob (fabJob s w) w.ptr.toNat (max 1 w.data.length) .w with
        | .page va _ => !s.movesVa w.vf va
        | .at p => !s.moves p
        | .trap _ => true)
     | _ => true)
/-- The stores of an armed trel whose time has come; behind the places of the armed ones, a write of another device that waits here
(R295), and behind those one that an xlinv has let perform afresh (R219). -/
def execTrelFire (i : Nat) (s : State) : Host.Outcome State Fault Refusal :=
  .next <|
    match s.trels[i]? with
    | some t => if s.trelDue t then State.trelAll { s with trels := s.trels.eraseIdx i } t 0 else s
    | none =>
      match s.dueWrites[i - s.trels.length]? with
      | some w =>
        if s.fabDue w then State.commitFabric { s with dueWrites := s.dueWrites.eraseIdx (i - s.trels.length) } w else s
      | none =>
        match s.heldWrites[i - s.trels.length - s.dueWrites.length]? with
        | some h =>
          if h.retry then
            State.commitFabric { s with heldWrites := s.heldWrites.eraseIdx (i - s.trels.length - s.dueWrites.length) } h.write
          else s
        | none => s
/-- A link fails: what is not acknowledged stays sent, with its tags, and the functions that have sent or received over the fabric
enter ownership mode (R311). -/
def execLinkFailure (link : Nat) (s : State) : Host.Outcome State Fault Refusal :=
  match alGet s.links link with
  | some k =>
    if !k.up then .next s
    else
      let sends := fun (vf : Nat) => s.sent.any fun w => w.vf == vf
      .next
        { s with links := alPut s.links link { k with up := false },
                 vfs := s.vfs.map (fun (n, v) => if s.fabUsers.contains n then (n, { v with own := true, why := 1 }) else (n, v)),
                 launches := s.launches.map fun (l : Launch) => if l.cls == 0 && sends l.vf then { l with delayed := true } else l }
  | none => .next s

/-! ### The clock's reference (R352); log 23 -/

/-- Step the PHC by nanoseconds. -/
def State.stepPhc (s : State) (ns : Int) : State := { s with phc := ((s.phc : Int) + ns * (phcUnit : Nat)).toNat }
/-- An event message: before the first lock the servo may step forward, and locks at a moment of its own; then it only slews, in
holdover too (R294, R352). -/
def execPtpEventMessage (port stamp : Nat) (s : State) : Host.Outcome State Fault Refusal :=
  let s1 : State := { s with ptp := alPut s.ptp port stamp }
  if s.profile == 0 then .next s1
  else
    let s2 := if s.clk == 0 then s1.stepPhc (Config.servoStep s.free : Nat) else s1
    .next { s2 with correction := Config.servo s.free, free := s.free + 1,
                    clk := if s.clk == 1 || Config.freeChoice s.free % 2 == 1 then 1 else s.clk }
def execHoldover (s : State) : Host.Outcome State Fault Refusal := .next (if s.clk == 1 then { s with clk := 2 } else s)

/-! ### The host (R210, R346) -/

/-- 512 GiB of HBM4 are exposed. -/
def hostLimit : Nat := 2 ^ 39
/-- The PF's BAR0 as the host's accesses name it: the mailbox's registers (R347; log 89). -/
def barBase : Nat := 9 * 2 ^ 60 + 0x1000
def State.barBytes (s : State) : List Byte :=
  [s.mbctl, s.mbarg, s.mbres, s.mbstat, if s.mbrdy then 1 else 0].flatMap fun w => bytesOfNat 8 w.toNat
/-- The host's claim on addresses: HBM4 below 512 GiB, the weight stores from 2^60, host memory itself from 2^61 (log 45). -/
def hostClaims (pa n : Nat) : Bool :=
  pa + n ≤ hostLimit || (2 ^ 60 ≤ pa && pa + n ≤ 2 ^ 60 + 2 ^ 31) || (2 ^ 61 ≤ pa && pa + n ≤ 3 * 2 ^ 60)
/-- A host read is served what stands there now. -/
def execHostRead (pa n : Nat) (s : State) : Host.Outcome State Fault Refusal :=
  .next <|
    if barBase ≤ pa then { s with hostData := (s.barBytes.drop (pa - barBase)).take n }
    else if hostClaims pa n && (s.mbrdy || 2 ^ 61 ≤ pa) then { s with hostData := s.rdBytes pa n }
    else { s with hostData := [] }
/-- The leaf of an executable page that a translation maps to bytes at a key. -/
def State.codeLeafAt (s : State) (key n : Nat) : Option Nat :=
  (s.xlat.find? fun (_, name, e) => leafX e.toNat &&
    overlaps key n (leafKey e.toNat) (if name % 2 == 1 then 2 ^ 32 else 2 ^ 19)).map fun x => x.2.2.toNat
/-- The host commits bytes; a word that it wrote carries no path (log 18). -/
def State.hostPut (s : State) (key : Nat) (data : List Byte) : State :=
  let ws := wordsOf key data.length
  let s0 := s.tock.codeWrite key data.length (s.codeLeafAt key data.length) none
  let s1 := (s0.store key data).dropLines key (max 1 data.length)
  { s1.settledWords ws with marks := s1.marks.filter fun x => !ws.contains x.1 }
/-- A mailbox command runs (R347). -/
def State.mbBusy (s : State) : Bool := s.mbctl.getLsbD 0
/-- A write of a mailbox register. A go with a code that no command has gives status 1; a command's own row stands for its code (R347). -/
def State.barWrite (s : State) (off v : Nat) : State :=
  match off with
  | 0 =>
    let s1 : State := { s with mbctl := BitVec.ofNat 64 (v / 256 % 256 * 256 + v / 2 ^ 16 % 512 * 2 ^ 16) }
    if s.mbBusy || !bit v 0 || (1 ≤ bits v 15 8 && bits v 15 8 ≤ 11) then s
    else { s1 with mbstat := if s.mbrdy then 1 else 3 }
  | 8 => { s with mbarg := BitVec.ofNat 64 v }
  | 16 => { s with mbres := BitVec.ofNat 64 v }
  | _ => s
/-- A host write. To the weight stores it is discarded and recorded while a kernel runs on their die (R210); to the device it comes only
once the CXL link is up (R357). -/
def execHostWrite (pa : Nat) (data : List Byte) (s : State) : Host.Outcome State Fault Refusal :=
  .next <|
    if barBase ≤ pa then s.barWrite (pa - barBase) (natOfBytes (data.take 8))
    else if 2 ^ 61 ≤ pa then (if hostClaims pa data.length then s.hostPut pa data else s)
    else if !s.mbrdy then s
    else if pa < hostLimit then s.hostPut pa (data.take (hostLimit - pa))
    else if hostClaims pa data.length then
      match s.groups.find? (fun g => g.runs && wsDie pa ≤ g.die && g.die ≤ wsDie (pa + data.length - 1)) with
      | some g => { s with errors := s.errors ++ [{ kind := .hostWeight, vf := some g.vf, addr := pa % 2 ^ 60 }] }
      | none => s.hostPut pa data
    else s

/-! ### Uncorrectable soft errors (R318, R343) -/

def execUncorrectableSoftError (w : SoftErr) (s : State) : Host.Outcome State Fault Refusal :=
  .next <|
    match w with
    | .context core n =>
      (match s.groupOn? core with
       | some g =>
         (match g.ctx? n with
          | some c =>
            let d := s.settled g c
            (s.settle g c).takeTrap g.id n 0x3F (s.parcelAt g c d.pcA) d.pcA d.pcE
          | none => s)
       | none => s)
    | .storage core =>
      (match s.groupOn? core with
       | some g => s.report g.vf (faultRecord 0 0 0 core 0 0 false false 0x3F)
       | none => s)
    | .engine cl e =>
      (match (s.jobs cl e).head? with
       | some j =>
         (match j.phase, e with
          | .done _, _ => s
          | _, .pfe => s.pfeEnd cl j 0x3F
          | _, _ => s.endJob cl e j (doneWord 0x3F 0 0))
       | none => s)
    | .escrow core =>
      (match s.groupOn? core with
       | some g => if g.unbound then s.haltGroup g.id 0 0x3F 0 (kEntry g.kobj) else s
       | none => s)

end Sys2Proof.Machine
end

