-- ==== Sys2Proof/Machine/Mailbox.lean ====
section
/-! DEFINITION. The PF mailbox's commands (R347-R356, R358, R333) and power (R357, R358). Logs 11-14, 23. -/

namespace Sys2Proof.Machine

/-! ### A command (R347) -/

/-- Host memory at a physical address. -/
def hostKey (a : Word) : Nat := keyOf 2 a.toNat
/-- Run a command: `f` answers a status, or the new state and the result bytes. A failed command changes only MBSTAT; a go while one
runs is ignored. -/
def State.mbox (s : State) (code : Nat) (m : MbCmd) (f : State → Except Nat (State × List Byte)) : State :=
  let s1 : State :=
    { s with mbctl := BitVec.ofNat 64 (code * 2 ^ 8 + m.vf % 512 * 2 ^ 16), mbarg := m.arg, mbres := m.res }
  let fail := fun (st : Nat) => ({ s1 with mbstat := BitVec.ofNat 64 st } : State)
  if s.mbBusy then s
  else if !s.mbrdy then fail 3
  else if m.arg.toNat % 4096 != 0 || m.res.toNat % 65536 != 0 || 512 ≤ m.vf then fail 2
  else
    match f s1 with
    | .error st => fail st
    | .ok (s2, out) =>
      let s3 := if out.isEmpty then s2 else s2.hostPut (hostKey m.res) out
      { s3 with mbstat := BitVec.ofNat 64 (out.length * 2 ^ 32) }
/-- A word of the argument block. -/
def State.mbArg (s : State) (m : MbCmd) (n : Nat) : Nat := s.rd (hostKey m.arg) n

/-! ### Virtual functions -/

/-- The pointers and reserved bits of a configuration block (R348, R214, R215, R275, R323). -/
def blockOk (b : Nat) : Bool :=
  bits b 1023 533 == 0 && !bit b 523 && bits b 63 0 % 65536 == 0 && bits b 383 320 % 512 == 0 && bits b 447 384 % 4096 == 0 &&
    bits b 319 256 % 64 == 0 && bits b 511 448 % 4 == 0 && bits b 191 128 % 64 == 0 && bits b 255 192 % 64 == 0 &&
    bits b 127 64 % 64 == 0
def execVfcfg (m : MbCmd) (s : State) : Host.Outcome State Fault Refusal :=
  .next <| s.mbox 1 m fun s =>
    let b := s.mbArg m 128
    if !blockOk b then .error 2
    else if s.groups.any fun g => g.vf == m.vf then .error 3
    else .ok (s.updVf m.vf fun v => { v with block := BitVec.ofNat 1024 b }, [])
/-- Empty a launch queue: every tag empty, ridx at widx. -/
def State.emptyQueue (vf : Nat) (s : State) (q : Nat) : State :=
  match s.qHead vf q with
  | none => s
  | some h =>
    ((List.range h.cap).foldl (fun (s : State) i => s.setTag vf (h.tags + i) 0) s).wr (hbm (h.pa + 24)) 4 h.widx
/-- Empty the queues of a launch's stages. -/
def State.emptyStages (s : State) (l : Launch) : State :=
  l.stages.foldl (fun (s : State) (st : Stage) =>
    let s1 := (List.range (stQcap st.record)).foldl (fun (s : State) i => s.setTag l.vf (stTag st.record i) 0) s
    s1.vWr l.vf (stCtrl st.record + 4) (bytesOfNat 4 (s1.vRd l.vf (stCtrl st.record) 4))) s
/-- Jobs of a function that is reset, which nothing lets go on any more: those that are held, and the PFE's, whose launches and groups
are gone. They end. -/
def Job.stuck (vf : Nat) (j : Job) : Bool :=
  j.vf == vf &&
    (match j.phase, j.cmd with
     | .done _, _ => false
     | .held .., _ | _, .traverse | _, .sweepup | _, .sweepdn => true
     | _, _ => false)
def State.endStuck (s : State) (vf : Nat) : State :=
  { s with clusters := s.clusters.map fun (n, c) =>
      (n, allEng.foldl (fun (c : Cluster) e => c.setQueue e ((c.queue e).map fun j =>
        if j.stuck vf then { j with phase := .done (doneWord 0x10 0 0) } else j)) c) }
/-- Kill the groups; their jobs run on without their senders; the queues are emptied and no group of a launch starts any more. -/
def State.vfReset (s : State) (vf : Nat) : State :=
  let mine := (s.groups.filter fun g => g.vf == vf).map (·.id)
  let s1 := mine.foldl (fun (s : State) gid => s.endGroup gid none) (s.endMoves fun m => mine.contains m.owner.1)
  let lost := (s1.allJobs.filter fun (_, _, j) => j.stuck vf).map fun (_, _, j) => j.agent
  let s2 : State :=
    { s1.endStuck vf with
              owned := s1.owned.filter (fun o => !lost.contains o.agent),
              submits := s1.submits.filter (fun x => x.vf != vf), pending := s1.pending.filter (fun p => p.vf != vf) }
  let s3 := (List.range 8).foldl (State.emptyQueue vf) s2
  let s4 := (s3.launches.filter fun l => l.vf == vf).foldl State.emptyStages s3
  { s4 with launches := s4.launches.map fun (l : Launch) =>
      if l.vf == vf then { l with next := l.total, started := [], treeRunning := false } else l }
/-- VFRESET is done once the last job of the function is (R347). -/
def State.vfResetEnd (s : State) (vf : Nat) : State :=
  let s1 := s.endStuck vf
  let code := (2 * 2 ^ 8 + vf % 512 * 2 ^ 16 : Nat)
  if s1.allJobs.any fun (_, _, j) => j.vf == vf then { s1 with mbctl := BitVec.ofNat 64 (code + 1) }
  else { s1 with mbctl := BitVec.ofNat 64 code, mbstat := 0 }
/-- The VFRESET that runs. -/
def State.resetting (s : State) (vf : Nat) : Bool := s.mbBusy && bits s.mbctl.toNat 15 8 == 2 && bits s.mbctl.toNat 24 16 == vf
def execVfreset (m : MbCmd) (s : State) : Host.Outcome State Fault Refusal :=
  .next <|
    if s.resetting m.vf then s.vfResetEnd m.vf
    else
      let s1 := s.mbox 2 m fun s => .ok (s.vfReset m.vf, [])
      if s.mbBusy || s1.mbstat != 0 then s1 else s1.vfResetEnd m.vf
def execCapiss (m : MbCmd) (s : State) : Host.Outcome State Fault Refusal :=
  .next <| s.mbox 3 m fun s => .ok (s, bytesOfNat 8 (s.capTag (s.mbArg m 8)))

/-! ### Trust (R355, R356) -/

/-- Measure a component into the chain. -/
def State.measure (s : State) (image : List Byte) : State :=
  let d := shake256 image 64
  { s with digests := s.digests ++ [d], chain := shake256 (s.chain ++ d) 64 }
/-- CSLOAD of a PFE image (engine type 3) or a CVR image (4). -/
def execCsload (m : MbCmd) (etype num : Nat) (image sig : List Byte) (s : State) : Host.Outcome State Fault Refusal :=
  .next <| s.mbox 4 m fun s =>
    if !(etype == 3 || etype == 4) || num < 2 || 15 < num then .error 2
    else if !Config.signatureOk image sig then .error 4
    else
      .ok ({ s.measure image with
               installed := s.installed.filter (fun x => !(x.1 == etype && x.2.1 == num)) ++ [(etype, num, image)] }, [])
/-- The signed part of an attestation record. -/
def State.attested (s : State) (m : MbCmd) : List Byte :=
  bytesOfNat 32 (s.mbArg m 32) ++ s.digests.flatten ++ s.chain ++ bytesOfNat 8 s.phcWord.toNat
def execAttest (m : MbCmd) (s : State) : Host.Outcome State Fault Refusal :=
  .next <| s.mbox 5 m fun s =>
    let b := s.attested m
    .ok (s, b ++ bytesOfNat 3309 (Config.signature b).toNat)

/-! ### RESYNC (R349) -/

/-- A section that holds these bytes, whose layout R349 leaves open: they are turned by a free value, and more may follow (log 14). -/
def openBytes (seed more : Nat) (b : List Byte) : List Byte :=
  ((b ++ List.replicate more 0).zipIdx).map fun (x, i) => x ^^^ Config.resyncPart (seed * 2 ^ 40 + i)
/-- A launch queue: its header and its tag array. -/
def State.queuePart (s : State) (vf q : Nat) : List Byte :=
  match s.qHead vf q with
  | none => []
  | some h => s.rdBytes (hbm h.pa) 64 ++ (List.range h.cap).map fun i => BitVec.ofNat 8 (s.vRd vf (h.tags + i) 1)
/-- A group in flight: core, kernel object, rung, chain depth, parked and halted. -/
def Group.flightPart (g : Group) : List Byte :=
  let st := match g.status with | .parked => 1 | .halted _ => 2 | _ => 0
  bytesOfNat 2 g.core ++ bytesOfNat 8 g.kptr.toNat ++ bytesOfNat 1 g.rung ++ bytesOfNat 1 g.depth ++ bytesOfNat 1 st
/-- Its busy job records: core, number, sequence, and the completion word if it is done. -/
def Group.jobPart (g : Group) : List Byte :=
  ((g.jobs.toList.zipIdx).filter fun (r, _) => r.busy).flatMap fun (r, i) =>
    bytesOfNat 2 g.core ++ bytesOfNat 1 i ++ bytesOfNat 2 r.seq ++ bytesOfNat 8 (r.done.getD 0).toNat
/-- What the section of a function holds (R349). -/
def State.vfPart (s : State) (vf : Nat) : List Byte :=
  let gs := s.groups.filter fun g => g.vf == vf
  (List.range 8).flatMap (s.queuePart vf) ++ gs.flatMap Group.flightPart ++ gs.flatMap Group.jobPart ++
    gs.flatMap (fun g => bytesOfNat 2 g.core ++ bytesOfNat 1 g.log.length) ++ s.rdBytes (hbm (s.vf vf).fq) 8 ++
    s.rdBytes (hbm (s.vf vf).nq) 8
/-- A link record of 16 bytes: state, peer device, peer link, CRC errors. -/
def State.linkPart (s : State) (i : Nat) : List Byte :=
  match alGet s.links i with
  | some k =>
    bytesOfNat 2 ((if k.enabled then 1 else 0) + (if k.up then 2 else 0)) ++ bytesOfNat 2 k.peer ++ bytesOfNat 4 k.peerLink ++
      bytesOfNat 8 k.crc
  | none => List.replicate 16 0
/-- An entry of the device error log. -/
def ErrKind.code : ErrKind → Nat
  | .doorbell => 0 | .underflow => 1 | .dropped => 2 | .hostWeight => 3 | .trel => 4 | .head => 5
def ErrRec.part (e : ErrRec) : List Byte := bytesOfNat 1 e.kind.code ++ bytesOfNat 2 (e.vf.getD 0) ++ bytesOfNat 8 e.addr
/-- The links that are up, whether LINKCTL has enabled them or not (R349). -/
def State.linkMask (s : State) : Nat :=
  ((s.links.filter fun x => x.1 < 18 && x.2.up).map fun x => 2 ^ x.1).sum
def resyncHeader (links clk phc len nvf : Nat) : List Byte :=
  bytesOfNat 64 (1 + nvf % 2 ^ 16 * 2 ^ 16 + len % 2 ^ 32 * 2 ^ 32 + phc * 2 ^ 64 + clk * 2 ^ 128 + links * 2 ^ 136)
/-- A section for each configured function, 18 link records, the error log (R349), all taken at one moment (R350). A function has an entry
once it is configured, with a block of zeros too. -/
def State.summary (s : State) : List Byte :=
  let vs := s.vfs.map (·.1)
  let n := vs.length
  let more := fun (i : Nat) => Config.resyncLen (s.free + i)
  let body := (vs.zipIdx).flatMap (fun (v, i) => openBytes (s.free + i) (more i) (s.vfPart v)) ++
    openBytes (s.free + n) 0 ((List.range 18).flatMap s.linkPart) ++
    openBytes (s.free + n + 1) (more (n + 1)) (s.errors.flatMap ErrRec.part)
  resyncHeader s.linkMask s.clk s.phcWord.toNat (64 + body.length) n ++ body
def execResync (m : MbCmd) (s : State) : Host.Outcome State Fault Refusal :=
  .next <| s.mbox 6 m fun s => .ok ({ s with free := s.free + s.vfs.length + 2 }, s.summary)

/-! ### Pods, the clock, time shares -/

/-- Join a launch, or a record that is not taken yet, to a pod. -/
def Pod.join (p : Pod) (l : Option Launch) (ptr : Word) : Pod :=
  match l with
  | some l => { p with launches := p.launches ++ [l.id] }
  | none => { p with records := p.records ++ [ptr] }
def execPodbar (m : MbCmd) (pod count : Nat) (ptr : Word) (s : State) : Host.Outcome State Fault Refusal :=
  .next <| s.mbox 7 m fun s =>
    if count < 2 || 4096 < count then .error 2
    else
      let l := s.launches.find? fun l => l.vf == m.vf && l.src == ptr.toNat
      match s.pods.find? (fun p => p.id == pod) with
      | none =>
        .ok ({ s with pods := s.pods ++
          [({ id := pod, count := count, launches := [], records := [], announced := 0, remote := 0 } : Pod).join l ptr] }, [])
      | some p =>
        if p.count != count then .error 2
        else if p.count ≤ p.members then .error 3
        else .ok ({ s with pods := s.pods.map fun q => if q.id == pod then q.join l ptr else q }, [])
/-- PHCSET (R353, R354): the block's op must be the row's, and the fields that it does not use zero. -/
def phcset (m : MbCmd) (op : Nat) (used : Nat → Bool) (f : Nat → State → Except Nat State) (s : State) : State :=
  s.mbox 8 m fun s =>
    let v := s.mbArg m 32
    if bits v 255 160 != 0 || bits v 63 16 != 0 || bits v 7 0 != op || !used v then .error 2
    else (f v s).map fun s => (s, [])
def phcProf (v : Nat) : Nat := bits v 15 8
def phcStep (v : Nat) : Int := toI 64 (bits v 127 64)
def phcFreq (v : Nat) : Int := toI 32 (bits v 159 128)
def execPhcsetProfile (m : MbCmd) (s : State) : Host.Outcome State Fault Refusal :=
  .next <| phcset m 0 (fun v => phcProf v ≤ 2 && phcStep v == 0 && phcFreq v == 0)
    (fun v s => .ok { s with profile := phcProf v, clk := 0, correction := 0 }) s
def execPhcsetStep (m : MbCmd) (s : State) : Host.Outcome State Fault Refusal :=
  .next <| phcset m 1 (fun v => phcProf v == 0 && phcFreq v == 0)
    (fun v s => if s.reservations.any (fun r => s.thirds < r.bound) then .error 3 else .ok (s.stepPhc (phcStep v))) s
def execPhcsetSlew (m : MbCmd) (s : State) : Host.Outcome State Fault Refusal :=
  .next <| phcset m 2
    (fun v => phcProf v == 0 && phcStep v == 0 && decide (-maxRate ≤ phcFreq v) && decide (phcFreq v ≤ maxRate))
    (fun v s => .ok { s with freq := phcFreq v }) s
/-- TSHARE (R333): the slice in cycles; a set that meets the new one is replaced. -/
def execTshare (m : MbCmd) (cores vfs : List Nat) (slice : Nat) (s : State) : Host.Outcome State Fault Refusal :=
  .next <| s.mbox 9 m fun s =>
    if cores.isEmpty || vfs.isEmpty || 8 < vfs.length || slice == 0 || cores.any (2048 ≤ ·) || vfs.any (512 ≤ ·) then .error 2
    else if cores.any fun c => (s.heldCores (dieOfCore c)).contains c then .error 3
    else
      .ok ({ s with timeShares := s.timeShares.filter (fun t => !t.cores.any fun c => cores.contains c) ++
        [{ cores := cores, vfs := vfs, slice := 3000 * slice, start := s.cyc, turn := 0, saved := [] }] }, [])

/-! ### Links and power -/

/-- A link as bring-up trains it, before LINKCTL enables it. -/
def Link.trained : Link := { enabled := false, up := true, peer := 0, peerLink := 0, crc := 0 }
def execLinkctl (m : MbCmd) (dev links : Nat) (s : State) : Host.Outcome State Fault Refusal :=
  .next <| s.mbox 10 m fun s =>
    if 0xFFFF ≤ dev || 2 ^ 18 ≤ links then .error 2
    else
      .ok ({ s with device := dev,
                    links := (List.range 18).map fun i =>
                      (i, { (alGet s.links i).getD Link.trained with enabled := bit links i }) }, [])
/-- PWRLIM (R347). Reserved bits of its argument count as part of the value, which is out of range where they are set (log 102, DESIGN
CHOICE). -/
def execPwrlim (m : MbCmd) (s : State) : Host.Outcome State Fault Refusal :=
  .next <| s.mbox 11 m fun s =>
    let v := s.mbArg m 8
    if v < 1200 || 2400 < v then .error 2 else .ok ({ s with powerLimit := v }, [])
/-- Bring-up (R357): firmware verified and measured, links trained, the PHC free-running at 0 s, MBRDY. It does not go on where the
firmware does not verify (log 11). -/
def execPowerGood (s : State) : Host.Outcome State Fault Refusal :=
  if s.powered then .next s
  else if !Config.firmwareOk s.boots then .next { s with powered := true, boots := s.boots + 1 }
  else
    let s1 : State := { s with chain := List.replicate 64 0, digests := [] }
    let s2 := (List.range 3).foldl (fun (s : State) i => s.measure (Config.firmware i)) s1
    .next
      { s2 with powered := true, boots := s.boots + 1, deviceKey := bytesOfNat 32 (Config.deviceKey s.boots).toNat, phc := 0, clk := 0,
                profile := 0,
                freq := 0, correction := 0, powerLimit := 2400, links := (List.range 18).map (fun i => (i, Link.trained)),
                mbrdy := true }
/-- A thermal trip (R358): the device's state is lost; host memory, what stands for the world outside, and the model's
counters go on. -/
def execThermalTrip (s : State) : Host.Outcome State Fault Refusal :=
  .next { State.reset with mem := s.mem.filter (fun x => x.1 / 2 ^ 60 == 2), boots := s.boots, script := s.script, rotor := s.rotor,
                           free := s.free, tick := s.tick,
                           nextAgent := s.nextAgent, nextId := s.nextId }

end Sys2Proof.Machine
end

