-- ==== Sys2Proof/Machine/XLaunch.lean ====
section
/-! DEFINITION. Class X: counters, slot tags, tile grids and launch (R82, R83), ordered sections (R272, R273). -/

namespace Sys2Proof.Machine

/-- An access of n bytes at an address by an instruction of R82: held as a load where the page is not mapped or where the
side log holds its bytes; k gets the spot and its key. -/
def spotX (s0 : State) (g : Group) (c : Ctx) (ea : Word) (n : Nat) (right : Right) (kind : Kind) (w : Who)
    (k : State → Spot → Nat → Act) : Act :=
  let s := s0.tried g c ea n n right
  match s0.probeX g c ea n right with
  | .trap cause => .fail s cause ea
  | .page va m => .wait (s.hold g c false (BitVec.ofNat 64 va) m) .page
  | .at p =>
    if !isLocal ea && g.logged ea.toNat n then .wait s .page
    else if s.moves p then .wait s .bank
    else
      match s.checkSpot w kind p n with
      | some cause => .fail s cause ea
      | none =>
        match p with
        | .mem key _ _ _ => k s p key
        | .win _ _ => .fail s 0x05 ea
/-- A checked read-modify-write of the access stream at its home: the record, the other stream's view of local words, the slice. -/
def State.noteX (s : State) (g : Group) (c : Ctx) (ea : Word) (w : Who) (kind : Kind) (p : Spot) (n : Nat) (b : List Byte) (use : Use) :
    State :=
  let s1 := s.noteSpot w kind p n
  let s2 := match p with
    | .mem key home _ _ => if home == localHome then s1.updCtx g.id c.num fun x => x.looseStore s1 false true [(key, b)] else s1
    | .win _ _ => s1
  (s2.homeTurn g c p (match use with | .write _ => b.length | _ => n) use).touchEa g ea

/-- setcnt and deccnt (R83): the new count from the old one, or a trap. Each is checked and noted as one atomic access of the counter's 16
bytes (log 107, DESIGN CHOICE). -/
def countX (i : Instr) (s : State) (a : BitVec 5) (right : Right) (new : Ctx → Nat → Option Nat) (fin : Nat → Ctx → Ctx) :=
  runA i s fun s g c =>
    releaseGate s g c fun s =>
      let ea := c.readX a
      let w := c.release.who false pathCore
      spotX s g c ea 16 right .atomic w fun s p key =>
        let old := s.rd key 4
        match new c old with
        | none => .raise s 0x18
        | some n =>
          let s1 := (s.updCtx g.id c.num Ctx.release).noteX g c ea w .atomic p 16 (bytesOfNat 4 n) (if right == .w then .write 0 else .both)
          let s2 := s1.relAt g c.sync.agent (c.relTag + 1) .pk key
          .done ((s2.putCount g.vf key ea.toNat n (c.sync.acq ++ c.sync.bars)).updCtx g.id c.num (fin old))
def execSetcnt (a b : BitVec 5) (s : State) :=
  countX (.setcnt a b) s a .w (fun c _ => some ((c.readX b).toNat % 2 ^ 32)) fun _ x => x
def execDeccnt (d a : BitVec 5) (s : State) :=
  countX (.deccnt d a) s a .rw (fun _ old => if old == 0 then none else some (old - 1)) fun old x => x.writeX d (wordOf old)

/-- tsbret (R83). -/
def execTsbret (s : State) :=
  runA .tsbret s fun s g c =>
    match s.launch? g.launch with
    | none => .done s
    | some l =>
      if l.kind != 2 || g.tileRetired then .done s
      else
        releaseGate s g c fun s =>
          .done (((s.updCtx g.id c.num Ctx.release).updGroup g.id fun x => { x with tileRetired := true }).updLaunch g.launch
            fun x => { x with retired := x.retired ++ [g.index] })

/-- The state that a transition needs and the one it makes (R68). -/
def SlotOp.src : SlotOp → Nat
  | .claim => 0 | .publish => 1 | .take => 2 | .free => 3
def SlotOp.releases (t : SlotOp) : Bool := t == .publish || t == .free
def execSlotadv (t : SlotOp) (d a : BitVec 5) (s : State) :=
  runA (.slotadv t d a) s fun s g c =>
    let rel := SlotOp.releases t
    let go := fun (s : State) =>
      let ea := c.readX a
      let c1 := if rel then c.release else c
      let w := c1.who false pathCore
      spotX s g c ea 1 .rw .tag w fun s p key =>
        let old := s.rd key 1
        if old % 4 != SlotOp.src t then .raise s 0x1A
        else
          let b := [BitVec.ofNat 8 (tagPut old ((SlotOp.src t + 1) % 4))]
          let s2 := (s.noteX g c ea w .tag p 1 b .both).store key b
          let s3 := s2.updCtx g.id c.num fun x => x.writeX d (wordOf (old % 4))
          if rel then
            let s4 := (s3.updCtx g.id c.num Ctx.release).relAt g c.sync.agent (c.relTag + 1) .pk key
            .done (if t == .publish then s4.notePublish key (c.sync.acq ++ c.sync.bars) else s4)
          else .done (s3.acquireVar g.id c.num key 1 s.tick .pk)
    if rel then releaseGate s g c go else go s

/-- A byte of virtual memory that is not mapped: whether by a malformed entry (R217). -/
def State.unmappedAt (s : State) (vf ptr : Nat) : Option Bool :=
  if bits ptr 63 56 == 0xFE then none else match s.translate vf ptr with | .none m => some m | .leaf _ _ => none
/-- launch (R83), its release made: once the slot at widx is empty, the record is read, and the slot claimed and published in the step
that has read it (log 90). A control word or tag on a page that is not mapped holds it as a load (R82); one that moves lets it wait
(R226). -/
def publishRecord (s : State) (g : Group) (c : Ctx) (h : QHead) (nw : Bool) (d a : BitVec 5) (tag : Nat) : Act :=
  let ea := c.readX a
  let n := h.widx % h.cap
  match [h.tags + n, h.slots + 128 * n].findSome? fun p => (s.unmappedAt g.vf p).map fun m => (p, m) with
  | some (p, m) => .wait (s.hold g c false (BitVec.ofNat 64 p) m) .page
  | none =>
    if s.vWaits (h.nextSlot g.vf) then .wait s .bank
    else if s.tagAt g.vf (h.tags + n) % 4 != 0 then
      (if nw then .done (s.updCtx g.id c.num fun x => x.writeX d (BitVec.allOnes 64)) else .wait s (.other false))
    else
      Act.ofRes (s.load128 g (s.ctxOf g c) ea 64) fun s1 v =>
        match s1.qPublish g.vf h (bytesOfNat 128 v) (c.sync.acq ++ c.sync.bars) with
        | none => .wait s1 (.other false)
        | some (slot, s2) =>
          let s3 := s2.updCtx g.id c.num fun x => x.writeX d (wordOf slot)
          .done (s3.relAt g c.sync.agent tag .pk (s3.tagKey g.vf (h.tags + slot)))
def execLaunch (nw : Bool) (d a b : BitVec 5) (s : State) :=
  runA (.launch nw d a b) s fun s g c =>
    match s.qHead g.vf ((c.readX b).toNat % 2 ^ 32) with
    | none => .raise s 0x14
    | some h => if h.mode == 1 then .raise s 0x14 else released s g c fun s tag => publishRecord s g c h nw d a tag

/-! ### Ordered sections -/

/-- The key at a pointer: steps 1, 2, 4 and 5 of R151 as a 4-byte store; an unmapped page holds it (R271). -/
def withKey (s0 : State) (g : Group) (c : Ctx) (ptr : Word) (k : State → Nat → Act) : Act :=
  let i := bits ptr.toNat 63 56
  let e := s0.boundsOf c i
  let s := s0.tried g c ptr 4 4 .w
  if ptr.toNat % 4 != 0 then .fail s 0x15 ptr
  else if i == 0xFE then
    (match s.probeCluster g.vf ptr.toNat 4 with
     | .at (.mem key _ _ _) => k s key
     | .trap cause => .fail s cause ptr
     | _ => .fail s 0x12 ptr)
  else if !boundsOk e ptr.toNat 4 then .fail s 0x12 ptr
  else if !Right.bound e .w then .fail s 0x14 ptr
  else
    match s0.translate g.vf ptr.toNat with
    | .none m => .wait (s.hold g c false ptr m) .page
    | .leaf e big =>
      if leafTag e != 0 && leafTag e != i then .fail s 0x13 ptr
      else if !leafW e then .fail s 0x14 ptr
      else k s (keyOf (leafSpace e) (physOf e ptr.toNat big))
def Group.reserves (g : Group) (k : Nat) : Bool := g.keys.any (fun x => x.key == k)
def Group.holds (g : Group) (k : Nat) : Bool := g.keys.any (fun x => x.key == k && x.held)
/-- A further key may not be reserved. -/
def Group.noKey (g : Group) : Bool := g.closed || 16 ≤ g.keys.length
def State.reserve (s : State) (gid k : Nat) (ptr : Word) : State :=
  s.updGroup gid fun x => { x with keys := x.keys ++ [{ key := k, ptr := ptr, held := false }] }
def execOrdentRsv (a : BitVec 5) (s : State) :=
  runA (.ordentRsv a) s fun s g c =>
    withKey s g c (c.readX a) fun s k =>
      if g.noKey then .raise s 0x01
      else .done (if g.reserves k then s else s.reserve g.id k (c.readX a))
/-- The context has its key: the group holds it, the last release of the key is acquired, and D gets its abandoned mark, which is
cleared (R273). -/
def State.takeKey (s : State) (g : Group) (c : Ctx) (d : BitVec 5) (k : Nat) (ptr : Word) : State :=
  let s1 := (s.updKey k fun x => { x with abandoned := false }).updGroup g.id fun x =>
    { x with keys := if x.reserves k then x.keys.map fun (y : Key) => if y.key == k then { y with held := true } else y
                     else x.keys ++ [{ key := k, ptr := ptr, held := true }] }
  (s1.acquireVar g.id c.num k 4 s1.tick .pk).updCtx g.id c.num fun x => x.writeX d (if (s.keySt k).abandoned then 1 else 0)
/-- The group waits to be granted a key, its checks made: it is committed (R119, R273). -/
def State.enterKey (s : State) (g : Group) (c : Ctx) (d : BitVec 5) (k : Nat) (ptr : Word) : Act :=
  let s1 := s.updGroup g.id fun x => { x with closed := true }
  let s2 := if (s1.keySt k).holder == some g.id || (s1.keySt k).waiting.contains g.id then s1
    else s1.updKey k fun x => { x with waiting := x.waiting ++ [g.id] }
  let s3 := s2.grantKey k
  if (s3.keySt k).holder == some g.id && !g.holds k then .done (s3.takeKey g c d k ptr)
  else .wait (s3.updCtx g.id c.num fun x => { x with entering := some k }) (.other true)
/-- ordent (R273). Its checks are made once: while it waits, another context of the group may free the key, and it waits on. -/
def execOrdent (d a : BitVec 5) (s : State) :=
  runA (.ordent d a) s fun s g c =>
    match c.entering with
    | some k => s.enterKey g c d k (c.readX a)
    | none =>
      withKey s g c (c.readX a) fun s k =>
        if !g.reserves k && g.noKey then .raise s 0x01
        else (if g.reserves k then s else s.reserve g.id k (c.readX a)).enterKey g c d k (c.readX a)
def execOrdlv (a : BitVec 5) (s : State) :=
  runA (.ordlv a) s fun s g c =>
    withKey s g c (c.readX a) fun s k =>
      if !g.reserves k then .done s
      else
        releaseGate s g c fun s =>
          .done (((s.updCtx g.id c.num Ctx.release).freeKey g.id k false).relAt g c.sync.agent (c.relTag + 1) .pk k)

end Sys2Proof.Machine
end

