-- ==== Sys2Proof/Machine/Dispatch.lean ====
section
/-! DEFINITION. One arm per constructor: the meaning of every instruction and event. -/

namespace Sys2Proof.Machine

def exec (i : Instr) (s : State) : Host.Outcome State Fault Refusal :=
  match i with
  | .nop x0 => Sys2Proof.Machine.execNop x0 s
  | .add x0 x1 x2 => Sys2Proof.Machine.execAdd x0 x1 x2 s
  | .sub x0 x1 x2 => Sys2Proof.Machine.execSub x0 x1 x2 s
  | .mul x0 x1 x2 => Sys2Proof.Machine.execMul x0 x1 x2 s
  | .mulh x0 x1 x2 x3 => Sys2Proof.Machine.execMulh x0 x1 x2 x3 s
  | .div x0 x1 x2 x3 => Sys2Proof.Machine.execDiv x0 x1 x2 x3 s
  | .rem x0 x1 x2 x3 => Sys2Proof.Machine.execRem x0 x1 x2 x3 s
  | .and x0 x1 x2 => Sys2Proof.Machine.execAnd x0 x1 x2 s
  | .or x0 x1 x2 => Sys2Proof.Machine.execOr x0 x1 x2 s
  | .xor x0 x1 x2 => Sys2Proof.Machine.execXor x0 x1 x2 s
  | .andn x0 x1 x2 => Sys2Proof.Machine.execAndn x0 x1 x2 s
  | .shl x0 x1 x2 => Sys2Proof.Machine.execShl x0 x1 x2 s
  | .shr x0 x1 x2 => Sys2Proof.Machine.execShr x0 x1 x2 s
  | .sra x0 x1 x2 => Sys2Proof.Machine.execSra x0 x1 x2 s
  | .rot x0 x1 x2 => Sys2Proof.Machine.execRot x0 x1 x2 s
  | .min x0 x1 x2 x3 => Sys2Proof.Machine.execMin x0 x1 x2 x3 s
  | .max x0 x1 x2 x3 => Sys2Proof.Machine.execMax x0 x1 x2 x3 s
  | .slt x0 x1 x2 x3 => Sys2Proof.Machine.execSlt x0 x1 x2 x3 s
  | .seq x0 x1 x2 => Sys2Proof.Machine.execSeq x0 x1 x2 s
  | .sel x0 x1 x2 => Sys2Proof.Machine.execSel x0 x1 x2 s
  | .clz x0 x1 => Sys2Proof.Machine.execClz x0 x1 s
  | .ctz x0 x1 => Sys2Proof.Machine.execCtz x0 x1 s
  | .pop x0 x1 => Sys2Proof.Machine.execPop x0 x1 s
  | .bfx x0 x1 x2 x3 => Sys2Proof.Machine.execBfx x0 x1 x2 x3 s
  | .bfxImm x0 x1 x2 x3 x4 => Sys2Proof.Machine.execBfxImm x0 x1 x2 x3 x4 s
  | .bfi x0 x1 x2 => Sys2Proof.Machine.execBfi x0 x1 x2 s
  | .bfiImm x0 x1 x2 x3 => Sys2Proof.Machine.execBfiImm x0 x1 x2 x3 s
  | .li x0 x1 x2 => Sys2Proof.Machine.execLi x0 x1 x2 s
  | .lia x0 x1 => Sys2Proof.Machine.execLia x0 x1 s
  | .mac x0 x1 x2 => Sys2Proof.Machine.execMac x0 x1 x2 s
  | .xmint x0 x1 x2 x3 => Sys2Proof.Machine.execXmint x0 x1 x2 x3 s
  | .b x0 => Sys2Proof.Machine.execB x0 s
  | .bc x0 x1 x2 x3 => Sys2Proof.Machine.execBc x0 x1 x2 x3 s
  | .bz x0 x1 x2 => Sys2Proof.Machine.execBz x0 x1 x2 s
  | .j x0 => Sys2Proof.Machine.execJ x0 s
  | .call x0 x1 => Sys2Proof.Machine.execCall x0 x1 s
  | .callLabel x0 x1 => Sys2Proof.Machine.execCallLabel x0 x1 s
  | .ret x0 => Sys2Proof.Machine.execRet x0 s
  | .loop x0 x1 => Sys2Proof.Machine.execLoop x0 x1 s
  | .bqe x0 x1 x2 => Sys2Proof.Machine.execBqe x0 x1 x2 s
  | .yield => Sys2Proof.Machine.execYield s
  | .ld x0 x1 x2 x3 => Sys2Proof.Machine.execLd x0 x1 x2 x3 s
  | .st x0 x1 x2 x3 => Sys2Proof.Machine.execSt x0 x1 x2 x3 s
  | .lds x0 x1 x2 x3 => Sys2Proof.Machine.execLds x0 x1 x2 x3 s
  | .sts x0 x1 x2 x3 => Sys2Proof.Machine.execSts x0 x1 x2 x3 s
  | .ldq x0 x1 x2 => Sys2Proof.Machine.execLdq x0 x1 x2 s
  | .stq x0 x1 x2 => Sys2Proof.Machine.execStq x0 x1 x2 s
  | .ldsq x0 x1 x2 => Sys2Proof.Machine.execLdsq x0 x1 x2 s
  | .stsq x0 x1 x2 => Sys2Proof.Machine.execStsq x0 x1 x2 s
  | .pfx x0 x1 x2 => Sys2Proof.Machine.execPfx x0 x1 x2 s
  | .pushq x0 => Sys2Proof.Machine.execPushq x0 s
  | .popq x0 => Sys2Proof.Machine.execPopq x0 s
  | .qstat x0 x1 => Sys2Proof.Machine.execQstat x0 x1 s
  | .cln x0 x1 => Sys2Proof.Machine.execCln x0 x1 s
  | .inv x0 x1 => Sys2Proof.Machine.execInv x0 x1 s
  | .vadd x0 => Sys2Proof.Machine.execVadd x0 s
  | .vsub x0 => Sys2Proof.Machine.execVsub x0 s
  | .vmul x0 => Sys2Proof.Machine.execVmul x0 s
  | .vfma x0 => Sys2Proof.Machine.execVfma x0 s
  | .vfms x0 => Sys2Proof.Machine.execVfms x0 s
  | .vfnma x0 => Sys2Proof.Machine.execVfnma x0 s
  | .vmin x0 => Sys2Proof.Machine.execVmin x0 s
  | .vmax x0 => Sys2Proof.Machine.execVmax x0 s
  | .vabs x0 => Sys2Proof.Machine.execVabs x0 s
  | .vneg x0 => Sys2Proof.Machine.execVneg x0 s
  | .vabd x0 => Sys2Proof.Machine.execVabd x0 s
  | .vavg x0 => Sys2Proof.Machine.execVavg x0 s
  | .vclamp x0 => Sys2Proof.Machine.execVclamp x0 s
  | .vaddw x0 => Sys2Proof.Machine.execVaddw x0 s
  | .vmulw x0 => Sys2Proof.Machine.execVmulw x0 s
  | .vdot x0 => Sys2Proof.Machine.execVdot x0 s
  | .vmulh x0 => Sys2Proof.Machine.execVmulh x0 s
  | .vadds x0 => Sys2Proof.Machine.execVadds x0 s
  | .vsubs x0 => Sys2Proof.Machine.execVsubs x0 s
  | .vmac x0 => Sys2Proof.Machine.execVmac x0 s
  | .vcopysign x0 => Sys2Proof.Machine.execVcopysign x0 s
  | .vdiv x0 => Sys2Proof.Machine.execVdiv x0 s
  | .vsqrt x0 => Sys2Proof.Machine.execVsqrt x0 s
  | .vrcp x0 => Sys2Proof.Machine.execVrcp x0 s
  | .vrsqrt x0 => Sys2Proof.Machine.execVrsqrt x0 s
  | .vexp2 x0 => Sys2Proof.Machine.execVexp2 x0 s
  | .vlog2 x0 => Sys2Proof.Machine.execVlog2 x0 s
  | .vsinp x0 => Sys2Proof.Machine.execVsinp x0 s
  | .vcosp x0 => Sys2Proof.Machine.execVcosp x0 s
  | .vtanh x0 => Sys2Proof.Machine.execVtanh x0 s
  | .vsigm x0 => Sys2Proof.Machine.execVsigm x0 s
  | .vfloor x0 => Sys2Proof.Machine.execVfloor x0 s
  | .vand x0 => Sys2Proof.Machine.execVand x0 s
  | .vor x0 => Sys2Proof.Machine.execVor x0 s
  | .vxor x0 => Sys2Proof.Machine.execVxor x0 s
  | .vandn x0 => Sys2Proof.Machine.execVandn x0 s
  | .vnot x0 => Sys2Proof.Machine.execVnot x0 s
  | .vshl x0 => Sys2Proof.Machine.execVshl x0 s
  | .vshr x0 => Sys2Proof.Machine.execVshr x0 s
  | .vsra x0 => Sys2Proof.Machine.execVsra x0 s
  | .vrot x0 => Sys2Proof.Machine.execVrot x0 s
  | .vpop x0 => Sys2Proof.Machine.execVpop x0 s
  | .vclz x0 => Sys2Proof.Machine.execVclz x0 s
  | .vbsel x0 => Sys2Proof.Machine.execVbsel x0 s
  | .vbfx x0 => Sys2Proof.Machine.execVbfx x0 s
  | .vcmp x0 => Sys2Proof.Machine.execVcmp x0 s
  | .vclass x0 => Sys2Proof.Machine.execVclass x0 s
  | .gand x0 => Sys2Proof.Machine.execGand x0 s
  | .gor x0 => Sys2Proof.Machine.execGor x0 s
  | .gxor x0 => Sys2Proof.Machine.execGxor x0 s
  | .gnot x0 => Sys2Proof.Machine.execGnot x0 s
  | .gmov x0 => Sys2Proof.Machine.execGmov x0 s
  | .gcnt x0 => Sys2Proof.Machine.execGcnt x0 s
  | .gfirst x0 => Sys2Proof.Machine.execGfirst x0 s
  | .gset x0 => Sys2Proof.Machine.execGset x0 s
  | .vcvt x0 => Sys2Proof.Machine.execVcvt x0 s
  | .vwiden x0 => Sys2Proof.Machine.execVwiden x0 s
  | .vnarrow x0 => Sys2Proof.Machine.execVnarrow x0 s
  | .vpack x0 => Sys2Proof.Machine.execVpack x0 s
  | .vunpack x0 => Sys2Proof.Machine.execVunpack x0 s
  | .vscale x0 => Sys2Proof.Machine.execVscale x0 s
  | .vqnt x0 => Sys2Proof.Machine.execVqnt x0 s
  | .fmtld x0 => Sys2Proof.Machine.execFmtld x0 s
  | .vmov x0 => Sys2Proof.Machine.execVmov x0 s
  | .vsplat x0 => Sys2Proof.Machine.execVsplat x0 s
  | .vperm x0 => Sys2Proof.Machine.execVperm x0 s
  | .vext x0 => Sys2Proof.Machine.execVext x0 s
  | .vins x0 => Sys2Proof.Machine.execVins x0 s
  | .vsel x0 => Sys2Proof.Machine.execVsel x0 s
  | .vcompress x0 => Sys2Proof.Machine.execVcompress x0 s
  | .vexpand x0 => Sys2Proof.Machine.execVexpand x0 s
  | .vscan x0 => Sys2Proof.Machine.execVscan x0 s
  | .vred x0 => Sys2Proof.Machine.execVred x0 s
  | .vtopk x0 => Sys2Proof.Machine.execVtopk x0 s
  | .vmint x0 => Sys2Proof.Machine.execVmint x0 s
  | .vidx x0 => Sys2Proof.Machine.execVidx x0 s
  | .vpush x0 => Sys2Proof.Machine.execVpush x0 s
  | .vpull x0 => Sys2Proof.Machine.execVpull x0 s
  | .kset x0 x1 x2 x3 => Sys2Proof.Machine.execKset x0 x1 x2 x3 s
  | .kget x0 => Sys2Proof.Machine.execKget x0 s
  | .vlds x0 => Sys2Proof.Machine.execVlds x0 s
  | .vsts x0 => Sys2Proof.Machine.execVsts x0 s
  | .vldsx x0 => Sys2Proof.Machine.execVldsx x0 s
  | .vstsx x0 => Sys2Proof.Machine.execVstsx x0 s
  | .rep x0 x1 x2 => Sys2Proof.Machine.execRep x0 x1 x2 s
  | .zmov x0 => Sys2Proof.Machine.execZmov x0 s
  | .zset x0 => Sys2Proof.Machine.execZset x0 s
  | .vtex x0 => Sys2Proof.Machine.execVtex x0 s
  | .vwind x0 => Sys2Proof.Machine.execVwind x0 s
  | .emsg x0 x1 x2 => Sys2Proof.Machine.execEmsg x0 x1 x2 s
  | .jtest x0 x1 => Sys2Proof.Machine.execJtest x0 x1 s
  | .jwait x0 x1 => Sys2Proof.Machine.execJwait x0 x1 s
  | .amo x0 x1 x2 x3 x4 => Sys2Proof.Machine.execAmo x0 x1 x2 x3 x4 s
  | .amoOrdered x0 x1 x2 x3 x4 x5 x6 => Sys2Proof.Machine.execAmoOrdered x0 x1 x2 x3 x4 x5 x6 s
  | .cas x0 x1 x2 x3 => Sys2Proof.Machine.execCas x0 x1 x2 x3 s
  | .casOrdered x0 x1 x2 x3 x4 x5 => Sys2Proof.Machine.execCasOrdered x0 x1 x2 x3 x4 x5 s
  | .wacc x0 x1 x2 => Sys2Proof.Machine.execWacc x0 x1 x2 s
  | .waccImm x0 x1 x2 => Sys2Proof.Machine.execWaccImm x0 x1 x2 s
  | .ldacq x0 x1 x2 x3 x4 => Sys2Proof.Machine.execLdacq x0 x1 x2 x3 x4 s
  | .strel x0 x1 x2 x3 x4 => Sys2Proof.Machine.execStrel x0 x1 x2 x3 x4 s
  | .fence x0 => Sys2Proof.Machine.execFence x0 s
  | .xfence x0 x1 => Sys2Proof.Machine.execXfence x0 x1 s
  | .bar x0 => Sys2Proof.Machine.execBar x0 s
  | .barv x0 x1 x2 x3 => Sys2Proof.Machine.execBarv x0 x1 x2 x3 s
  | .barwArr x0 x1 => Sys2Proof.Machine.execBarwArr x0 x1 s
  | .barwWt x0 x1 => Sys2Proof.Machine.execBarwWt x0 x1 s
  | .wfe x0 x1 => Sys2Proof.Machine.execWfe x0 x1 s
  | .sev x0 x1 => Sys2Proof.Machine.execSev x0 x1 s
  | .deccnt x0 x1 => Sys2Proof.Machine.execDeccnt x0 x1 s
  | .setcnt x0 x1 => Sys2Proof.Machine.execSetcnt x0 x1 s
  | .tsbret => Sys2Proof.Machine.execTsbret s
  | .slotadv x0 x1 x2 => Sys2Proof.Machine.execSlotadv x0 x1 x2 s
  | .ordent x0 x1 => Sys2Proof.Machine.execOrdent x0 x1 s
  | .ordentRsv x0 => Sys2Proof.Machine.execOrdentRsv x0 s
  | .ordlv x0 => Sys2Proof.Machine.execOrdlv x0 s
  | .trel x0 x1 x2 x3 => Sys2Proof.Machine.execTrel x0 x1 x2 x3 s
  | .phcrd x0 x1 => Sys2Proof.Machine.execPhcrd x0 x1 s
  | .launch x0 x1 x2 x3 => Sys2Proof.Machine.execLaunch x0 x1 x2 x3 s
  | .csrr x0 x1 => Sys2Proof.Machine.execCsrr x0 x1 s
  | .csrw x0 x1 => Sys2Proof.Machine.execCsrw x0 x1 s
  | .csrx x0 x1 x2 x3 => Sys2Proof.Machine.execCsrx x0 x1 x2 x3 s
  | .cohmodeWrite x0 x1 => Sys2Proof.Machine.execCohmodeWrite x0 x1 s
  | .bndtWrite x0 x1 => Sys2Proof.Machine.execBndtWrite x0 x1 s
  | .trap => Sys2Proof.Machine.execTrap s
  | .trapN x0 => Sys2Proof.Machine.execTrapN x0 s
  | .eret => Sys2Proof.Machine.execEret s
  | .start x0 x1 x2 => Sys2Proof.Machine.execStart x0 x1 x2 s
  | .hend => Sys2Proof.Machine.execHend s
  | .hwait x0 => Sys2Proof.Machine.execHwait x0 s
  | .carve x0 x1 => Sys2Proof.Machine.execCarve x0 x1 s
  | .rets x0 x1 => Sys2Proof.Machine.execRets x0 x1 s
  | .retire => Sys2Proof.Machine.execRetire s
  | .xlinvPg x0 => Sys2Proof.Machine.execXlinvPg x0 s
  | .xlinvAll => Sys2Proof.Machine.execXlinvAll s
  | .xlinvBnd => Sys2Proof.Machine.execXlinvBnd s
  | .ctxsv x0 x1 => Sys2Proof.Machine.execCtxsv x0 x1 s
  | .ctxld x0 x1 x2 x3 => Sys2Proof.Machine.execCtxld x0 x1 x2 x3 s
  | .logrp x0 x1 => Sys2Proof.Machine.execLogrp x0 x1 s
  | .idle x0 => Sys2Proof.Machine.execIdle x0 s
  | .cload x0 x1 x2 => Sys2Proof.Machine.execCload x0 x1 x2 s
  | .residPin x0 x1 => Sys2Proof.Machine.execResidPin x0 x1 s
  | .residUnpin x0 x1 => Sys2Proof.Machine.execResidUnpin x0 x1 s
  | .residDemote x0 x1 => Sys2Proof.Machine.execResidDemote x0 x1 s
  | .residEvict x0 x1 => Sys2Proof.Machine.execResidEvict x0 x1 s
  | .brk => Sys2Proof.Machine.execBrk s
  | .wdead x0 => Sys2Proof.Machine.execWdead x0 s
  | .streamDeadlock x0 x1 => Sys2Proof.Machine.execStreamDeadlock x0 x1 s
  | .budgetOverrun x0 => Sys2Proof.Machine.execBudgetOverrun x0 s
  | .doorbell x0 x1 x2 => Sys2Proof.Machine.execDoorbell x0 x1 x2 s
  | .launchQueueTake x0 => Sys2Proof.Machine.execLaunchQueueTake x0 s
  | .groupStart x0 => Sys2Proof.Machine.execGroupStart x0 s
  | .shareRecompute x0 => Sys2Proof.Machine.execShareRecompute x0 s
  | .counterSubmit x0 => Sys2Proof.Machine.execCounterSubmit x0 s
  | .launchCompletion x0 => Sys2Proof.Machine.execLaunchCompletion x0 s
  | .reservationRelease x0 => Sys2Proof.Machine.execReservationRelease x0 s
  | .preemption x0 => Sys2Proof.Machine.execPreemption x0 s
  | .resumption x0 => Sys2Proof.Machine.execResumption x0 s
  | .worldSwitchSliceEnd x0 => Sys2Proof.Machine.execWorldSwitchSliceEnd x0 s
  | .barrierPhaseComplete x0 => Sys2Proof.Machine.execBarrierPhaseComplete x0 s
  | .orderedSectionGrant x0 => Sys2Proof.Machine.execOrderedSectionGrant x0 s
  | .jobCompletion x0 x1 => Sys2Proof.Machine.execJobCompletion x0 x1 s
  | .copy x0 => Sys2Proof.Machine.execCopy x0 s
  | .gather x0 => Sys2Proof.Machine.execGather x0 s
  | .mloadw x0 => Sys2Proof.Machine.execMloadw x0 s
  | .mloadb x0 => Sys2Proof.Machine.execMloadb x0 s
  | .mma x0 => Sys2Proof.Machine.execMma x0 s
  | .mmab x0 => Sys2Proof.Machine.execMmab x0 s
  | .mepi x0 => Sys2Proof.Machine.execMepi x0 s
  | .traverse x0 => Sys2Proof.Machine.execTraverse x0 s
  | .sweepup x0 => Sys2Proof.Machine.execSweepup x0 s
  | .sweepdn x0 => Sys2Proof.Machine.execSweepdn x0 s
  | .pfeEmitEntry x0 x1 => Sys2Proof.Machine.execPfeEmitEntry x0 x1 s
  | .sweepCounterDecrement x0 => Sys2Proof.Machine.execSweepCounterDecrement x0 s
  | .raster x0 => Sys2Proof.Machine.execRaster x0 s
  | .refreshWindowEnd x0 x1 => Sys2Proof.Machine.execRefreshWindowEnd x0 x1 s
  | .trelFire x0 => Sys2Proof.Machine.execTrelFire x0 s
  | .pmcOverflow x0 x1 => Sys2Proof.Machine.execPmcOverflow x0 x1 s
  | .notifyOverflowDrain x0 => Sys2Proof.Machine.execNotifyOverflowDrain x0 s
  | .fabricWriteArrival x0 => Sys2Proof.Machine.execFabricWriteArrival x0 s
  | .linkFailure x0 => Sys2Proof.Machine.execLinkFailure x0 s
  | .ptpEventMessage x0 x1 => Sys2Proof.Machine.execPtpEventMessage x0 x1 s
  | .hostRead x0 x1 => Sys2Proof.Machine.execHostRead x0 x1 s
  | .hostWrite x0 x1 => Sys2Proof.Machine.execHostWrite x0 x1 s
  | .vfcfg x0 => Sys2Proof.Machine.execVfcfg x0 s
  | .vfreset x0 => Sys2Proof.Machine.execVfreset x0 s
  | .capiss x0 => Sys2Proof.Machine.execCapiss x0 s
  | .csload x0 x1 x2 x3 x4 => Sys2Proof.Machine.execCsload x0 x1 x2 x3 x4 s
  | .attest x0 => Sys2Proof.Machine.execAttest x0 s
  | .resync x0 => Sys2Proof.Machine.execResync x0 s
  | .podbar x0 x1 x2 x3 => Sys2Proof.Machine.execPodbar x0 x1 x2 x3 s
  | .phcsetProfile x0 => Sys2Proof.Machine.execPhcsetProfile x0 s
  | .phcsetStep x0 => Sys2Proof.Machine.execPhcsetStep x0 s
  | .phcsetSlew x0 => Sys2Proof.Machine.execPhcsetSlew x0 s
  | .tshare x0 x1 x2 x3 => Sys2Proof.Machine.execTshare x0 x1 x2 x3 s
  | .linkctl x0 x1 x2 => Sys2Proof.Machine.execLinkctl x0 x1 x2 s
  | .pwrlim x0 => Sys2Proof.Machine.execPwrlim x0 s
  | .powerGood => Sys2Proof.Machine.execPowerGood s
  | .thermalTrip => Sys2Proof.Machine.execThermalTrip s
  | .decodeTrap x0 => Sys2Proof.Machine.execDecodeTrap x0 s
  | .uncorrectableSoftError x0 => Sys2Proof.Machine.execUncorrectableSoftError x0 s
  | .holdover => Sys2Proof.Machine.execHoldover s

end Sys2Proof.Machine
end

