-- ==== Sys2Proof/Machine/Schedule.lean ====
section
/-! DEFINITION. Whose turn it is: the turns of contexts, engines and events, and what can happen next where the script says
nothing (log 3). Where withFetchWord places its code (log 26). -/

namespace Sys2Proof.Machine

/-! ### Contexts -/

/-- Point the cursor at a context. -/
def State.at (s : State) (gid n : Nat) : State := { s with cur := { gid := gid, ctx := n } }

/-- The access stream's turn: a class-E instruction is passed by, any other runs (R119). -/
def accessTurn (s : State) (g : Group) (c : Ctx) : Host.Outcome State Fault Refusal :=
  if c.heldA.isSome then .next s
  else
    match s.fetchSeq g c c.seqA c.pcA with
    | .instr s1 i =>
      if i.isExec then .next ((s1.noteCode g c c.seqA i).updCtx g.id c.num fun x => x.passA i)
      else exec i (s1.noteCode g c c.seqA i)
    | .bad s1 cause => exec (.decodeTrap cause) s1
    | .trap s1 cause tval => .next (s1.fetchTrap g c cause tval)
    | .page s1 va m => .next ((s1.hold g c false (BitVec.ofNat 64 va) m).updCtx g.id c.num (Ctx.waitForA .page))
    | .busy s1 bank => .next ((s1.bankWaitA g c bank).updCtx g.id c.num (Ctx.waitForA .bank))
/-- The execute stream is held at its own fetch where the access stream does not come to it: it has passed, or it waits for the execute
stream at a queue (R98, R124). -/
def Ctx.fetchesAlone (c : Ctx) : Bool :=
  c.trapsAlone || (c.committedTo c.seqP && (match c.waitA with | some (.queue _ true) => true | _ => false))
/-- The execute stream's turn: a class-E instruction runs once what precedes it is committed, any other is passed by (R119). It
does not fetch a place at which the access stream is held (R372). -/
def executeTurn (s : State) (g : Group) (c : Ctx) : Host.Outcome State Fault Refusal :=
  let waits := fun (s : State) => Host.Outcome.next (s.updCtx g.id c.num (Ctx.waitForE .commit))
  if c.heldE.isSome then .next s
  else if c.heldA.isSome && c.seqA ≤ c.seqE && (alGet c.code c.seqE).isNone then waits s
  else
    match s.fetchSeq g c c.seqE c.pcE with
    | .instr s1 i =>
      let s2 := s1.noteCode g c c.seqE i
      if !i.isExec then .next (s2.updCtx g.id c.num fun x => x.passE i)
      else if c.committedTo c.seqP then exec i s2
      else waits s2
    | .page s1 va m =>
      if c.fetchesAlone then .next ((s1.hold g c true (BitVec.ofNat 64 va) m).updCtx g.id c.num (Ctx.waitForE .page)) else waits s1
    | .trap s1 cause tval => if c.trapsAlone then .next (s1.fetchTrapE g c cause tval) else waits s1
    | .bad s1 cause => if c.trapsAlone then .next (s1.fetchTrapE g c cause (s1.parcelAt g c c.pcE)) else waits s1
    | .busy s1 bank => .next ((s1.bankWaitE g c bank).updCtx g.id c.num (Ctx.waitForE .bank))

/-- The turn of a context of the group that runs on a core; none runs during escrow (R343) or once the group's streams have stopped
(R328), and a budget that has run out is seen before the control context's next instruction (R78). -/
def contextTurn (s : State) (core n : Nat) (f : State → Group → Ctx → Host.Outcome State Fault Refusal) :
    Host.Outcome State Fault Refusal :=
  match s.groupOn? core with
  | none => .next s
  | some g =>
    if g.unbound then .next (s.bindTiles g.id)
    else if g.stopping.isSome then .next (s.finishStop g.id)
    else if n == 0 && g.overBudget then .next (s.budgetTrap g.id)
    else
      match g.ctx? n with
      | none => .next s
      | some c => f (s.at g.id n) g c

/-! ### Engines and events -/

/-- The row that the head of an engine's queue runs next. -/
def headRow (cl : Nat) (e : Eng) (j : Job) : Instr :=
  match j.phase with
  | .done _ => .jobCompletion cl e
  | _ =>
    match j.cmd with
    | .copy => .copy cl
    | .gather => .gather cl
    | .mloadw => .mloadw cl
    | .mloadb => .mloadb cl
    | .mma => .mma cl
    | .mmab => .mmab cl
    | .mepi => .mepi cl
    | .traverse => .traverse cl
    | .sweepup => .sweepup cl
    | .sweepdn => .sweepdn cl
    | .raster => .raster cl
    | .zclr _ | .zrow .. | .bad => .jobCompletion cl e
/-- A row that no program encodes; a decode trap comes only from a fetch. -/
def isEvent (i : Instr) : Bool :=
  match i with
  | .decodeTrap _ => false
  | i => (encode i).isEmpty

/-- One turn. -/
def turn (t : Turn) (s : State) : Host.Outcome State Fault Refusal :=
  match t with
  | .access core n => contextTurn s core n accessTurn
  | .execute core n => contextTurn s core n executeTurn
  | .engine cl e => (match (s.jobs cl e).head? with | some j => exec (headRow cl e j) s | none => .next s)
  | .event i => if isEvent i then exec i s else .next s

/-! ### What can happen next -/

def dies : List Nat := [0, 1, 2, 3]
def engines (cl : Nat) : List Turn := allEng.map fun e => Turn.engine cl e
/-- The turns of a group. -/
def State.groupTurns (s : State) (g : Group) : List Turn :=
  if g.runs then
    g.ctxs.flatMap (fun c => [Turn.access g.core c.num, Turn.execute g.core c.num] ++
      (if (s.deadlocked g.core c.num).isSome then [Turn.event (.streamDeadlock g.core c.num)] else [])) ++
    (if g.overBudget then [Turn.event (.budgetOverrun g.core)] else []) ++
    (if s.mustYield g then [Turn.event (.preemption g.core)] else [])
  else if (s.resumeCore g).isSome then [Turn.event (.resumption g.id)] else []
/-- The turns of a die's queue manager. -/
def State.dieTurns (s : State) (d : Nat) : List Turn :=
  (if s.mbrdy && !(s.takeable d).isEmpty then [Turn.event (.launchQueueTake d)] else []) ++
  (if s.launches.isEmpty then [] else [Turn.event (.groupStart d)]) ++
  (if s.launches.any (fun l => l.kind == 1 && l.queueDie == d) && (alGet s.shareAt d).getD 0 ≤ s.cyc then
    [Turn.event (.shareRecompute d)] else []) ++
  (if s.reservations.any (fun r => r.die == d && r.bound ≤ s.thirds) then [Turn.event (.reservationRelease d)] else [])
/-- The head of an engine's queue can go on. -/
def State.headMoves (s : State) (cl : Nat) (e : Eng) : Bool :=
  match (s.jobs cl e).head? with
  | none => false
  | some j =>
    match j.phase, j.cmd with
    | .done _, _ | _, .zclr _ | _, .zrow _ _ _ => j.slotEnd ≤ s.cyc
    | _, _ => j.ready && j.settledAt cl s.cyc && (j.rowSent.isNone || j.nack.isSome)
/-- The turns of a cluster's engines. -/
def State.clusterTurns (s : State) (cl : Nat) : List Turn :=
  (allEng.filter (s.headMoves cl)).map (fun e => Turn.engine cl e) ++
  (match (s.jobs cl .pfe).head? with
   | some j =>
     (if j.pfe.pending.isEmpty then [] else [Turn.event (.pfeEmitEntry cl 0)]) ++
       (if j.pfe.retired.isEmpty then [] else [Turn.event (.sweepCounterDecrement cl)])
   | none => [])
/-- The indexes of a list whose elements satisfy p. -/
def places {α : Type} (p : α → Bool) (l : List α) : List Nat := ((l.zipIdx).filter fun x => p x.1).map (·.2)
/-- Everything that the machine can do of itself. -/
def State.candidates (s : State) : List Turn :=
  s.groups.flatMap s.groupTurns ++ dies.flatMap s.dieTurns ++ s.clusters.flatMap (fun x => s.clusterTurns x.1) ++
  (List.range s.submits.length).map (fun i => Turn.event (.counterSubmit i)) ++
  (s.launches.filter s.launchDone).map (fun l => Turn.event (.launchCompletion l.id)) ++
  (s.timeShares.filter fun t => t.due s.cyc).map (fun t => Turn.event (.worldSwitchSliceEnd (t.cores.headD 0))) ++
  (places (fun b => b.started && (s.allIn b || (s.toAnnounce b).isSome)) s.barriers).map
    (fun i => Turn.event (.barrierPhaseComplete i)) ++
  (places (fun x => (s.nextHolder x.1).isSome) s.keys).map (fun i => Turn.event (.orderedSectionGrant i)) ++
  (places s.trelDue s.trels).map (fun i => Turn.event (.trelFire i)) ++
  (places s.fabDue s.dueWrites).map (fun i => Turn.event (.trelFire (s.trels.length + i))) ++
  (places (fun (h : HeldWrite) => h.retry) s.heldWrites).map
    (fun i => Turn.event (.trelFire (s.trels.length + s.dueWrites.length + i))) ++
  (if s.mbBusy then
    [Turn.event (.vfreset { vf := bits s.mbctl.toNat 24 16, arg := s.mbarg, res := s.mbres })] else []) ++
  (s.vfs.filter fun x => s.overflowed x.1 && !s.nqFull x.1).map (fun x => Turn.event (.notifyOverflowDrain x.1))
/-- With an empty script: the rotor's turn among the candidates. -/
def State.ownTurn (s : State) : Host.Outcome State Fault Refusal :=
  match s.candidates with
  | [] => .next s
  | t :: r => turn ((t :: r).getD (s.rotor % (r.length + 1)) t) { s with rotor := s.rotor + 1 }

/-! ### Placing an instruction -/

/-- Where withFetchWord puts its code, and the bounds entry and leaf that lead there. -/
def codeBase : Word := 0x0100000000001000
def codeEntry : BitVec 128 := BitVec.ofNat 128 (2 ^ 127 + 7 * 2 ^ 120 + (2 ^ 56 - 1) * 2 ^ 64)
def codeLeaf : Word := 0x1F
/-- The kernel object of that code: 32 v registers, 4 helpers, 4 tiles, 8 scratch units. -/
def codeObject : BitVec 1024 := BitVec.ofNat 1024 (codeBase.toNat + 3 * 2 ^ 64 + 4 * 2 ^ 66 + 4 * 2 ^ 70 + 8 * 2 ^ 80)
/-- The word that R97's opcode field holds says which stream runs it. -/
def wordTurn (w : Nat) : Turn := if isExecOp (BitVec.ofNat 8 (w / 4)) then .execute 0 0 else .access 0 0
/-- Place an instruction where the next step fetches: a running group on core 0, its translation, and its turn. -/
def State.placeWord (s : State) (nbits w : Nat) : State :=
  let c : Ctx := { Ctx.fresh 0 0 codeBase 0 0 0 true with bounds := [(1, codeEntry)] }
  let g : Group :=
    { id := 0, launch := 0, index := 0, entryNo := 0, stage := none, slot := none, vf := 0, cls := 2, die := 0, core := 0,
      status := .running, stopping := none, kobj := codeObject, kptr := 0, rung := 0, depth := 1, scratch := 8, inhm := 0, smask := 0,
      ctxa := 0, ctxs := [c], log := [], jobs := Vector.replicate 64 JobRec.empty, tiles := [], keys := [],
      closed := false, arrivals := [], budget := 0, used := 0, overran := false, overAny := false, tileRetired := false,
      incremental := false, pfeTask := none, handed := [], startAt := s.tick, unseen := [], ended := [], saved := [], savedScratch := [] }
  let s1 : State :=
    { s with groups := g :: s.groups.filter (fun (x : Group) => x.core != 0 && x.id != 0),
             script := (wordTurn w, 0) :: s.script }
  { s1 with xlat := (s1.homeSlice 0 codeBase.toNat, keptName codeBase.toNat true, codeLeaf) :: s1.xlat,
            mem := writeBytes s.mem (hbm (physOf codeLeaf.toNat codeBase.toNat true)) (bytesOfWord 12 (w % 2 ^ nbits)) }

end Sys2Proof.Machine
end

