-- ==== Sys2Proof/Machine/Step.lean ====
section
/-! DEFINITION. One step of the machine. -/

namespace Sys2Proof.Machine

/-- A step: waiting fault records enter their queues, then the next turn of the script, or a turn of the machine's own. -/
def step (s : State) : Host.Outcome State Fault Refusal :=
  match s.drainPending.script with
  | [] => (s.drainPending.advance 1).ownTurn
  | (t, n) :: r => turn t ({ s.drainPending with script := r }.advance n)

/-- The instruction stored where the next step fetches (log 26). -/
def State.withFetchWord (s : State) (nbits w : Nat) : State := s.placeWord nbits w

end Sys2Proof.Machine
end

