-- ==== Sys2Proof/Safety.lean ====
section
/-! DEFINITION. What counts as a safe step, the invariant that a run keeps, and the words that the statements use: where
an instruction acts, how it ends, and the results of the arithmetic instructions as the spec's own formulas. -/

namespace Sys2Proof.Machine

/-- The memory lists addresses in rising order and no unlisted value. -/
def Inv (s : State) : Prop := Memory.wf s.mem = true

/-- No two groups have one number, and each number is below the next that the machine gives. -/
def State.Ids (s : State) : Prop := (s.groups.map fun g => g.id).Nodup ∧ ∀ g ∈ s.groups, g.id < s.nextId
/-- The step of a state ends in a next state: no fault and no refusal. -/
def SafeStep (s : State) : Prop := ∃ t, step s = .next t

/-! ### Where an instruction acts -/

/-- The cursor names context c of group g, which runs on its core. -/
def State.Acts (s : State) (g : Group) (c : Ctx) : Prop := s.here? = some (g, c)
/-- A context by its group's id and its number. -/
def State.cx (s : State) (gid n : Nat) : Option Ctx := (s.group? gid).bind fun g => g.ctx? n
/-- The byte at a key of memory. -/
def State.byteAt (s : State) (a : Nat) : Byte := readByte s.mem a

/-! ### What a stream finds at its address -/

/-- The reserved opcodes of R115. -/
def reservedOp (op : Nat) : Prop :=
  (0x1D ≤ op ∧ op ≤ 0x1F) ∨ (0x29 ≤ op ∧ op ≤ 0x2F) ∨ (0x3E ≤ op ∧ op ≤ 0x3F) ∨ (0x6D ≤ op ∧ op ≤ 0x6F) ∨
  (0x7A ≤ op ∧ op ≤ 0x7F) ∨ (0x88 ≤ op ∧ op ≤ 0x8F) ∨ op = 0x9F ∨ (0xAB ≤ op ∧ op ≤ 0xBF) ∨ (0xD8 ≤ op ∧ op ≤ 0xDF) ∨
  (0xF4 ≤ op ∧ op ≤ 0xFF)
/-- A stream finds i at place n of the sequence: what the other stream has fetched for that place (R119), else what the parcels from
pc decode to. -/
def State.Reads (s : State) (g : Group) (c : Ctx) (n : Nat) (pc : Word) (t : State) (i : Instr) : Prop :=
  (alGet c.code n = some i ∧ t = s) ∨
  (alGet c.code n = none ∧ ∃ (p0 : Parcel) (ps : List Parcel) (k : Nat) (s1 : State),
    s.fetchParcels g c pc 1 = .ok ([p0], s1) ∧ parcelCount p0 = some k ∧
    s1.fetchParcels g c (offPtr pc 4) (k - 1) = .ok (ps, t) ∧ decodeParcels p0 (ps.getD 0 0) (ps.getD 1 0) = .ok i)

/-! ### How an instruction ends -/

/-- The access stream's instruction has ended and its stream goes on at `dest`; event 2 counts (R332). -/
def State.endsA (s : State) (g : Group) (c : Ctx) (dest : Word) : State :=
  (s.updCtx g.id c.num fun x => x.nextA dest).count g.core 2 1 g.vf c.csr.mode
/-- The execute stream's instruction has ended, at `dest` or at the next place of an active rep; event 3 counts. -/
def State.endsE (s : State) (g : Group) (c : Ctx) (dest : Word) : State :=
  (s.updCtx g.id c.num fun x => (x.nextE dest).repStep).count g.core 3 1 g.vf c.csr.mode
/-- The access stream waits at its instruction, which has had no effect; a wait for a queue counts as event 4. What an xlinv has let
perform afresh has performed, unless it waits for a bank (R223). -/
def State.waitsA (s : State) (g : Group) (c : Ctx) (w : Wait) : State :=
  (s.updCtx g.id c.num fun x => { x with waitA := some w, retryA := x.retryA && w == .bank }).stalled g c 4 w
/-- The execute stream waits at its instruction; a wait for a queue counts as event 5. -/
def State.waitsE (s : State) (g : Group) (c : Ctx) (w : Wait) : State :=
  (s.updCtx g.id c.num fun x => { x with waitE := some w, retryE := x.retryE && w == .bank }).stalled g c 5 w
/-- An access-stream instruction about to trap waits for the execute stream (R118, R124). -/
def State.drainsA (s : State) (g : Group) (c : Ctx) : State :=
  s.updCtx g.id c.num fun x => { x with waitA := some .drain, retryA := false }
/-- An access-stream instruction traps at its own address, where the drained execute stream stands too (R136). -/
def State.trapsA (s : State) (g : Group) (c : Ctx) (cause : Nat) (tval : Word) : State :=
  (s.updCtx g.id c.num Ctx.rejoin).takeTrap g.id c.num cause tval c.pcA c.pcA
/-- A class-S instruction has ordered the two streams (R197). -/
def State.synced (s : State) (g : Group) (c : Ctx) : State := s.updCtx g.id c.num Ctx.seeBoth

/-- No counter of the core reports its overflow (PMSEL bit 19, R332). -/
def State.Calm (s : State) (core : Nat) : Prop := ∀ i : Fin 8, bit ((s.core core).pmsel[i.val]).toNat 19 = false
/-- Nothing waits for a fault queue's room, and no function's queues count pages (R228, R323). -/
def State.Quiet (s : State) : Prop := s.pending = [] ∧ ∀ v ∈ s.vfs, v.2.migth = 0
/-- No word of these bytes is the head of a fault queue or of a notification queue (R229, R323). -/
def State.NoHead (s : State) (key n : Nat) : Prop :=
  ∀ v ∈ s.vfs, overlaps key n (hbm v.2.fq) 4 = false ∧ overlaps key n (hbm v.2.nq) 4 = false

/-- A context in its handler (R320): the frame, empty queues, no rep, both streams at TVEC, supervisor mode. -/
def Ctx.inHandler (c : Ctx) (cause : Nat) (tval epc epce : Word) : Ctx :=
  { c with
    waitA := none, waitE := none, heldA := none, heldE := none, retryA := false, retryE := false, xlinvOn := false, logHeld := false,
    relWait := none, loaded := none, tagged := none, listed := none, nextKernel := none, loading := none, popped := none, code := [],
    entering := none, askA := none, askE := none, replayed := 0, saving := none, evWait := 0,
    frame := some { endAt := c.endAt, ahead := c.ahead, early := c.earlyReads.filter fun r => c.seqA < r.seq,
                    queues := (match c.popped with | some e => { c.queues with q6 := e :: c.queues.q6 } | none => c.queues), rep := c.rep,
                    lag := c.lag, seqA := c.seqA, seqE := c.seqE, seqP := c.seqP, barWait := c.barWait },
    queues := Queues.empty, rep := none, lag := [], seqA := 0, seqE := 0, seqP := 0, endAt := 0, ahead := [], barWait := none,
    earlyReads := earlyBefore (c.earlyReads.filter fun r => r.seq ≤ c.seqA), pcA := c.csr.tvec, pcE := c.csr.tvec,
    csr := { c.csr with tcause := BitVec.ofNat 64 cause, tval := tval, epc := epc, epce := epce, pmode := c.csr.mode,
                        mode := true, intrap := true, redir := false } }

/-! ### The results of class A, as R139-R142 write them -/

/-- i64 or the unsigned value of an operand, by FN (R138). -/
def byFn (u : Bool) (x : Word) : Int := if u then (x.toNat : Int) else x.toInt
/-- R141: the field at pos of length len. -/
def fieldRule (sg : Bool) (x : Word) (pos len : Nat) : Word :=
  let f := x.toNat / 2 ^ pos % 2 ^ len
  if sg = true ∧ 0 < len ∧ f.testBit (len - 1) = true then BitVec.ofInt 64 (f - 2 ^ len) else BitVec.ofNat 64 f
/-- R141: the field put in place. -/
def insertRule (old x : Word) (pos len : Nat) : Word :=
  let m := BitVec.ofNat 64 ((2 ^ len - 1) * 2 ^ pos)
  (old &&& ~~~m) ||| (BitVec.ofNat 64 (x.toNat * 2 ^ pos) &&& m)
/-- The pointer p plus an offset, in p's region (R142, R144, R149). -/
def inRegion (p : Word) (off : Int) : Word :=
  BitVec.ofNat 64 (p.toNat / 2 ^ 56 * 2 ^ 56 + (((p.toNat % 2 ^ 56 : Nat) + off) % 2 ^ 56).toNat)

/-- The register that an arithmetic instruction writes and the value (R139-R142). -/
def aluRule (c : Ctx) : Instr → Option (BitVec 5 × Word)
  | .add d a b => some (d, BitVec.ofNat 64 ((c.readX a).toNat + (c.opB b).toNat))
  | .sub d a b => some (d, BitVec.ofInt 64 ((c.readX a).toNat - (c.opB b).toNat : Int))
  | .mul d a b => some (d, BitVec.ofNat 64 ((c.readX a).toNat * (c.opB b).toNat))
  | .mulh u d a b => some (d, BitVec.ofInt 64 (byFn u (c.readX a) * byFn u (c.opB b) / 2 ^ 64))
  | .div u d a b =>
    let x := c.readX a
    let y := c.opB b
    some (d, if y.toNat = 0 then BitVec.ofNat 64 (2 ^ 64 - 1)
      else if u = false ∧ x.toInt = -2 ^ 63 ∧ y.toInt = -1 then x
      else if u then BitVec.ofNat 64 (x.toNat / y.toNat) else BitVec.ofInt 64 (x.toInt.tdiv y.toInt))
  | .rem u d a b =>
    let x := c.readX a
    let y := c.opB b
    some (d, if y.toNat = 0 then x else if u = false ∧ y.toInt = -1 then 0
      else if u then BitVec.ofNat 64 (x.toNat % y.toNat)
      else BitVec.ofInt 64 (x.toInt - x.toInt.tdiv y.toInt * y.toInt))
  | .and d a b => some (d, c.readX a &&& c.opB b)
  | .or d a b => some (d, c.readX a ||| c.opB b)
  | .xor d a b => some (d, c.readX a ^^^ c.opB b)
  | .andn d a b => some (d, c.readX a &&& ~~~ c.opB b)
  | .shl d a b => some (d, BitVec.ofNat 64 ((c.readX a).toNat * 2 ^ ((c.opB b).toNat % 64)))
  | .shr d a b => some (d, BitVec.ofNat 64 ((c.readX a).toNat / 2 ^ ((c.opB b).toNat % 64)))
  | .sra d a b => some (d, BitVec.ofInt 64 ((c.readX a).toInt / 2 ^ ((c.opB b).toNat % 64)))
  | .rot d a b =>
    let x := (c.readX a).toNat
    let n := (c.opB b).toNat % 64
    some (d, BitVec.ofNat 64 (x * 2 ^ n) ||| BitVec.ofNat 64 (x / 2 ^ (64 - n)))
  | .min u d a b => some (d, if byFn u (c.opB b) < byFn u (c.readX a) then c.opB b else c.readX a)
  | .max u d a b => some (d, if byFn u (c.readX a) < byFn u (c.opB b) then c.opB b else c.readX a)
  | .slt u d a b => some (d, if byFn u (c.readX a) < byFn u (c.opB b) then 1 else 0)
  | .seq d a b => some (d, if (c.readX a).toNat = (c.opB b).toNat then 1 else 0)
  | .sel d a b => some (d, if (c.readX d).toNat = 0 then c.readX b else c.readX a)
  | .clz d a => some (d, BitVec.ofNat 64 (((List.range 64).find? fun i => (c.readX a).getMsbD i).getD 64))
  | .ctz d a => some (d, BitVec.ofNat 64 (((List.range 64).find? fun i => (c.readX a).getLsbD i).getD 64))
  | .pop d a => some (d, BitVec.ofNat 64 ((List.range 64).countP fun i => (c.readX a).getLsbD i))
  | .bfx sg d a b =>
    let k := (c.readX b).toNat
    some (d, fieldRule sg (c.readX a) (k % 64) (min (k / 64 % 128) 64))
  | .bfxImm sg d a pos len => some (d, fieldRule sg (c.readX a) pos.toNat (min len.toNat 64))
  | .bfi d a b =>
    let k := (c.readX b).toNat
    some (d, insertRule (c.readX d) (c.readX a) (k % 64) (min (k / 64 % 128) 64))
  | .bfiImm d a pos len => some (d, insertRule (c.readX d) (c.readX a) pos.toNat (min len.toNat 64))
  | .li hi d v =>
    some (d, if hi then BitVec.ofNat 64 ((immOf v).toNat % 2 ^ 32 * 2 ^ 32 + (c.readX d).toNat % 2 ^ 32) else immOf v)
  | .lia d v => some (d, inRegion c.pcA (immOf v).toInt)
  | .mac d a b => some (d, BitVec.ofNat 64 ((c.readX d).toNat + (c.readX a).toNat * (c.opB b).toNat))
  | .xmint h d a b =>
    let x := (c.readX a).toNat
    let y := (c.opB b).toNat
    some (d, BitVec.ofNat 64 (if h then mint16 (x % 2 ^ 16) (y % 2 ^ 16) else mint32 (x % 2 ^ 32) (y % 2 ^ 32)))
  | _ => none

/-! ### What an instruction leaves alone -/

/-- From s to t only context c of group g, and the counters of its core, have changed. -/
structure OnlyContext (s t : State) (g : Group) (c : Ctx) : Prop where
  rest : { t with groups := s.groups, cores := s.cores } = s
  groups : t.groups.map (fun x => { x with ctxs := [] }) = s.groups.map fun x => { x with ctxs := [] }
  others : ∀ gid n, ¬(gid = g.id ∧ n = c.num) → t.cx gid n = s.cx gid n
  cores : ∀ k, k ≠ g.core → t.core k = s.core k
  lines : (t.core g.core).lines = (s.core g.core).lines ∧ (t.core g.core).pending = (s.core g.core).pending ∧
    (t.core g.core).jobSeq = (s.core g.core).jobSeq
/-- No queued update comes about with the end of the access stream's next instruction (R127). -/
def Ctx.NothingDue (c : Ctx) : Prop := ∀ u ∈ c.lag, if u.execute then 0 < u.left else 1 < u.left
/-- The class-A instructions that touch no memory and cannot trap. -/
def contextOnly (i : Instr) : Bool :=
  match i with
  | .nop _ | .add .. | .sub .. | .mul .. | .mulh .. | .div .. | .rem .. | .and .. | .or .. | .xor .. | .andn ..
  | .shl .. | .shr .. | .sra .. | .rot .. | .min .. | .max .. | .slt .. | .seq .. | .sel .. | .clz .. | .ctz .. | .pop ..
  | .bfx .. | .bfxImm .. | .bfi .. | .bfiImm .. | .li .. | .lia .. | .mac .. | .xmint .. | .b .. | .bc .. | .bz ..
  | .loop .. | .bqe .. | .yield | .pfx .. | .pushq .. | .popq .. | .qstat .. => true
  | _ => false

/-! ### Control flow (R143-R145) -/

/-- The conditions of bc. -/
def condRule (k : BCond) (x y : Word) : Bool :=
  match k with
  | .eq => x.toNat == y.toNat
  | .ne => !(x.toNat == y.toNat)
  | .lt => decide (x.toInt < y.toInt)
  | .ge => !decide (x.toInt < y.toInt)
  | .ltn => decide (x.toNat < y.toNat)
  | .gen => !decide (x.toNat < y.toNat)
/-- A code address a number of parcels from the instruction. -/
def codeTarget (c : Ctx) (off : BitVec 23) : Word := inRegion c.pcA (4 * off.toInt)
/-- Where a control-flow instruction goes, the v registers that its bq entry marks dead, and what it does to the registers
of the access stream. Everything is read from c as it stands before. None for a bqe that finds q6 empty. -/
def flowRule (c : Ctx) (i : Instr) : Option (Word × BitVec 32 × (Ctx → Ctx)) :=
  let next := inRegion c.pcA i.size
  match i with
  | .b off => some (codeTarget c off, 0, id)
  | .bc k a b off => some (if condRule k (c.readX a) (c.readX b) then codeTarget c off else next, 0, id)
  | .bz nz a off => some (if ((c.readX a).toNat == 0) != nz then codeTarget c off else next, 0, id)
  | .j a => some (c.readX a, 0, id)
  | .call d a => some (c.readX a, c.vmask, fun x => (x.markX c.xmask).writeX d next)
  | .callLabel d off => some (codeTarget c off, c.vmask, fun x => (x.markX c.xmask).writeX d next)
  | .ret a => some (c.readX a, c.vmask, fun x => x.markX c.xmask)
  | .loop d off =>
    let v := BitVec.ofInt 64 ((c.readX d).toNat - 1 : Int)
    some (if v.toNat = 0 then next else codeTarget c off, 0, fun x => x.writeX d v)
  | .bqe z d off =>
    match c.popped.or c.queues.q6.head? with
    | none => none
    | some e => some (if (e.data.toNat == 0) == z then codeTarget c off else next, 0, fun x => x.writeX d e.data)
  | _ => none
/-- What a control-flow instruction does before its continuation is known: bqe pops q6, if it has not yet (R144). -/
def flowPop (c : Ctx) (i : Instr) (x : Ctx) : Ctx :=
  match i, c.popped, c.queues.q6 with
  | .bqe .., none, e :: _ => { x.popQ6 with popped := some e }
  | _, _, _ => x
/-- The control-flow instructions whose target must be a multiple of 4 (R144). -/
def isJump (i : Instr) : Bool :=
  match i with
  | .j _ | .call .. | .callLabel .. | .ret _ => true
  | _ => false

/-! ### Loads and stores (R148-R152) -/

/-- The width in bytes and the value a load writes for the number that it reads. -/
def loadBytes (w : LdW) : Nat :=
  match w with
  | .i8 | .n8 => 1 | .i16 | .n16 => 2 | .i32 | .n32 => 4 | .i64 => 8
def loadValue (w : LdW) (v : Nat) : Word :=
  match w with
  | .i8 => (BitVec.ofNat 8 v).signExtend 64 | .i16 => (BitVec.ofNat 16 v).signExtend 64
  | .i32 => (BitVec.ofNat 32 v).signExtend 64 | _ => BitVec.ofNat 64 v
/-- Destination, width and effective address of a scalar load; source and bytes of a scalar store. -/
def loadRule (c : Ctx) (i : Instr) : Option (BitVec 5 × LdW × Word) :=
  match i with
  | .ld w d a b => some (d, w, inRegion (c.readX a) (c.opB b).toInt)
  | .lds w d a b => some (d, w, BitVec.ofNat 64 (((c.readX a).toNat + (c.opB b).toNat) % 2 ^ 32))
  | _ => none
def storeRule (c : Ctx) (i : Instr) : Option (Word × List Byte) :=
  let data := fun (w : StW) (d : BitVec 5) =>
    let n := match w with | .i8 => 1 | .i16 => 2 | .i32 => 4 | .i64 => 8
    (List.range n).map fun k => BitVec.ofNat 8 ((c.readX d).toNat / 256 ^ k)
  match i with
  | .st w d a b => some (inRegion (c.readX a) (c.opB b).toInt, data w d)
  | .sts w d a b => some (BitVec.ofNat 64 (((c.readX a).toNat + (c.opB b).toNat) % 2 ^ 32), data w d)
  | _ => none
/-- An access of the access stream may be made at a spot now: its checks pass, no side-log entry overlaps it, and neither a refresh
window nor a move of its tensor is in its way (R150, R151, R154, R211, R226). -/
structure State.Admits (s : State) (g : Group) (c : Ctx) (ea : Word) (n : Nat) (right : Right) (p : Spot) : Prop where
  probe : s.probeA g c ea n n right = .at p
  log : isLocal ea = true ∨ g.logged ea.toNat n = false
  bank : right.writes = true ∨ s.bankBusy p = false
  moves : s.moves p = false
  order : s.checkSpot (c.who false pathCore) (if right.writes then .write else .read) p n = none
/-- A block of the access stream may be loaded or stored now: every part of it, at these spots (R157). -/
structure State.AdmitsBlock (s : State) (g : Group) (c : Ctx) (ea : Word) (right : Right) (l : List (Spot × Nat × Nat)) : Prop where
  probe : blockProbe (s.partProbe g c ea 64 right) (s.partsOf g.vf ea 512) = .ok l
  log : isLocal ea = true ∨ g.logged ea.toNat 512 = false
  bank : right.writes = true ∨ ∀ x ∈ l, s.bankBusy x.1 = false
  moves : ∀ x ∈ l, s.moves x.1 = false
  order : s.blockCheck (c.who false pathCore) (if right.writes then .write else .read) l = none
/-- Byte j of a block whose parts fall at these spots stands at key a. -/
def blockByte (l : List (Spot × Nat × Nat)) (j a : Nat) : Prop :=
  ∃ (key home : Nat) (t : Bool) (e : Option (Nat × Nat × Nat)) (o n : Nat),
    (Spot.mem key home t e, o, n) ∈ l ∧ o ≤ j ∧ j < o + n ∧ a = key + (j - o)
/-- Byte k of the bytes whose pieces fall at these spots, one behind the other, stands at key a. -/
def pieceByte : List (Spot × Nat) → Nat → Nat → Prop
  | [], _, _ => False
  | (.mem key _ _ _, n) :: r, k, a => (k < n ∧ a = key + k) ∨ (n ≤ k ∧ pieceByte r (k - n) a)
  | (.win _ _, _) :: r, k, a => pieceByte r k a

/-! ### Classes X and S -/

/-- A release's waits are over (R158, R280): the execute stream has drained, and no entry logged before it is left but one that has
failed for this context, in the handler that it led to (R222). -/
def State.GateOpen (s : State) (g : Group) (c : Ctx) : Prop :=
  c.drained = true ∧ ∀ e ∈ g.log, e.delays c (c.relWait.getD s.tick) = false
/-- A release that is made once, whatever the instruction waits for after it (R282, R295), has been made: the state, and its tag. -/
def State.Released (s : State) (g : Group) (c : Ctx) (t : State) (tag : Nat) : Prop :=
  (c.tagged = some tag ∧ t = s) ∨
  (c.tagged = none ∧ s.GateOpen g c ∧ tag = c.relTag + 1 ∧
    t = s.updCtx g.id c.num fun x => { x.release with tagged := some tag })
/-- An instruction of R82 may act at the spot of an address now, at this key. -/
structure State.AdmitsX (s : State) (g : Group) (c : Ctx) (ea : Word) (n : Nat) (right : Right) (kind : Kind) (w : Who) (p : Spot)
    (key : Nat) : Prop where
  probe : s.probeX g c ea n right = .at p
  place : ∃ home t e, p = .mem key home t e
  log : isLocal ea = true ∨ g.logged ea.toNat n = false
  moves : s.moves p = false
  order : s.checkSpot w kind p n = none
/-- The acquire part of an atomic, once it has read its variable. -/
def State.acqPart (s : State) (g : Group) (c : Ctx) (key n tick : Nat) (acq : Option Scope) : State :=
  match acq with
  | some sc => s.acquireVar g.id c.num key n tick sc
  | none => s
/-- Execution of i comes to t, its access stream behind i. -/
def State.DoneA (s : State) (i : Instr) (g : Group) (c : Ctx) (t : State) : Prop :=
  exec i s = .next (t.endsA g c (inRegion c.pcA i.size))
/-- Execution of i comes to t, its access stream behind i; i is of class S, so the execute stream must have drained, and i acts
where the two streams are ordered (R5, R197). -/
def State.DoneS (s : State) (i : Instr) (g : Group) (c : Ctx) (t : State → Ctx → State) : Prop :=
  c.drained = true → exec i s = .next ((t (s.synced g c) c.seeBoth).endsA g c (inRegion c.pcA i.size))
/-- The new value of a read-modify-write on w bits (R286): none where nothing is written. -/
def atomRule (op : LogOp) (operand old : Nat) : Option Nat :=
  let go := fun (k : AmoOp) (w : Nat) =>
    let m := BitVec.ofNat w old
    let v := BitVec.ofNat w operand
    (match k with
     | .add => m + v
     | .min => if m.toInt ≤ v.toInt then m else v
     | .max => if v.toInt ≤ m.toInt then m else v
     | .and => m &&& v
     | .or => m ||| v
     | .xor => m ^^^ v
     | .xchg => v).toNat
  match op with
  | .store | .release _ _ => some operand
  | .amo k w64 => some (go k (if w64 then 64 else 32))
  | .cas true e => if old = e.toNat then some (operand % 2 ^ 64) else none
  | .cas false e => if old = e.toNat % 2 ^ 32 then some (operand % 2 ^ 32) else none
  | .wacc w => some (slotAdd old operand w)
/-- The little-endian bytes of a number. -/
def leByte (v k : Nat) : Byte := BitVec.ofNat 8 (v / 256 ^ k)

/-! ### Class E -/

/-- The form's fields are legal for this execution (R32, R126, R132): `e` are the fields of the pass, `sh` the opcode's shape,
`sizes` the numbers of registers that D, A and B name. -/
structure EReady (g : Group) (c : Ctx) (op : Nat) (e0 : EArgs) (sizes : Ctx → EArgs → Nat × Nat × Nat) (sh : EShape)
    (e : EArgs) : Prop where
  shape : eShape op = some sh
  args : c.passArgs sh e0 = e
  pass : c.rep = none ∨ eOk op e = true
  fmts : c.fmtsOk sh e = true
  regs : regsOk g sh e (sizes c e).1 (sizes c e).2.1 (sizes c e).2.2 = true
/-- The results of an elementwise instruction (R109, R164, R168): an element whose lane is disabled is left alone; the enabled
ones at n and above become zero; the others are f's, whose flags accumulate. -/
def elemResults (w n : Nat) (gd : Guard) (f : Nat → Nat × Flags) : List (Option Nat) × Flags :=
  ((List.range (4096 / w)).map fun p => if gd.getLsbD (p * w / 32) then some (if p < n then (f p).1 else 0) else none,
   (List.range (4096 / w)).foldl (fun fl p => if gd.getLsbD (p * w / 32) = true ∧ p < n then fl ||| (f p).2 else fl) 0)
/-- Execution of i comes to s1 with context c changed by f, its execute stream behind i. -/
def State.EndsE (s : State) (i : Instr) (g : Group) (c : Ctx) (s1 : State) (f : Ctx → Ctx) : Prop :=
  exec i s = .next ((s1.updCtx g.id c.num f).endsE g c (inRegion c.pcE i.size))
/-- Execution of i comes to s1 with context c changed by f, its access stream behind i. -/
def State.EndsA (s : State) (i : Instr) (g : Group) (c : Ctx) (s1 : State) (f : Ctx → Ctx) : Prop :=
  exec i s = .next ((s1.updCtx g.id c.num f).endsA g c (inRegion c.pcA i.size))
/-- An FMT register set. -/
def Ctx.setFmt (c : Ctx) (d : Nat) (v : Word) : Ctx :=
  { c with csr := { c.csr with fmt := c.csr.fmt.set (d % 16) v (Nat.mod_lt d (by decide)) } }
/-- A class-E instruction traps: EPC is the instruction that the access stream would execute next (R167). -/
def State.trapsE (s : State) (g : Group) (c : Ctx) (cause : Nat) (tval : Word) : State :=
  let a := s.settled g c
  (s.updCtx g.id c.num fun x => { x with pcA := a.pcA, seqA := a.seqA }).takeTrap g.id c.num cause tval a.pcA c.pcE
/-- The element function of each elementwise instruction: source type, destination type, position, d, a, b. -/
abbrev ElemFn := ETy → ETy → Nat → Nat → Nat → Nat → Nat × Flags
/-- The elementwise instructions (R164, R169-R178, R184, R187): opcode, fields, element function. -/
def mapRule (i : Instr) : Option (Nat × EArgs × ElemFn) :=
  match i with
  | .vadd e => some (0x40, e, elem iAdd fun _ a b => fAdd a b)
  | .vsub e => some (0x41, e, elem iSub fun _ a b => fSub a b)
  | .vmul e => some (0x42, e, elem iMul fun _ a b => fMul a b)
  | .vfma e => some (0x43, e, elem noI fun d a b => fFma false false a b d)
  | .vfms e => some (0x44, e, elem noI fun d a b => fFma false true a b d)
  | .vfnma e => some (0x45, e, elem noI fun d a b => fFma true false a b d)
  | .vmin e => some (0x46, e, elem iMin fun _ a b => fMinMax false a b)
  | .vmax e => some (0x47, e, elem iMax fun _ a b => fMinMax true a b)
  | .vabs e => some (0x48, e, signElem iAbs absCode)
  | .vneg e => some (0x49, e, signElem iNeg negCode)
  | .vabd e => some (0x4A, e, elem iAbd fun _ a b => fAbd a b)
  | .vavg e => some (0x4B, e, elem iAvg fun _ a b => fAvg a b)
  | .vclamp e => some (0x4C, e, elem iClamp fClamp)
  | .vmulh e => some (0x50, e, elem iMulh noF)
  | .vadds e => some (0x51, e, elem iAdds noF)
  | .vsubs e => some (0x52, e, elem iSubs noF)
  | .vmac e => some (0x53, e, elem iMac fun d a b => fFma false false a b d)
  | .vcopysign e => some (0x54, e, signElem noI copyCode)
  | .vdiv e => some (0x55, e, divElem)
  | .vsqrt e => some (0x56, e, sfElem (exactSf fSqrt))
  | .vrcp e => some (0x57, e, sfElem (exactSf fRcp))
  | .vrsqrt e => some (0x58, e, sfElem (exactSf fRsqrt))
  | .vexp2 e => some (0x59, e, sfElem sfExp2)
  | .vlog2 e => some (0x5A, e, sfElem sfLog2)
  | .vsinp e => some (0x5B, e, sfElem (sfTrig false))
  | .vcosp e => some (0x5C, e, sfElem (sfTrig true))
  | .vtanh e => some (0x5D, e, sfElem sfTanh)
  | .vsigm e => some (0x5E, e, sfElem sfSigm)
  | .vfloor e => some (0x5F, e, floorElem (Rm.ofCode e.fn.toNat))
  | .vand e => some (0x60, e, bitElem bAnd)
  | .vor e => some (0x61, e, bitElem bOr)
  | .vxor e => some (0x62, e, bitElem bXor)
  | .vandn e => some (0x63, e, bitElem bAndn)
  | .vnot e => some (0x64, e, bitElem bNot)
  | .vshl e => some (0x65, e, bitElem bShl)
  | .vshr e => some (0x66, e, bitElem bShr)
  | .vsra e => some (0x67, e, bitElem bSra)
  | .vrot e => some (0x68, e, bitElem bRot)
  | .vpop e => some (0x69, e, bitElem bPop)
  | .vclz e => some (0x6A, e, bitElem bClz)
  | .vbsel e => some (0x6B, e, bitElem bSel)
  | .vbfx e => some (0x6C, e, bfxElem e.immU)
  | .vclass e => some (0x71, e, classElem)
  | .vscale e => some (0x85, e, scaleElem)
  | .vmov e => some (0x90, e, fun _ _ _ _ a _ => (a, 0))
  | _ => none
/-- The destination type: that of the source where the form gives none. -/
def Ctx.outTy (c : Ctx) (sh : EShape) (e : EArgs) : ETy := if sh.dstTy e == 15 then c.srcTy sh e else c.dstTy sh e
/-- A float element takes part in none of the integer rules. -/
def intTy (sg : Bool) (w : Nat) : ETy := if sg then .i w else .n w
/-- The pattern of an exact integer result (R22). -/
def wrapped (w : Nat) (x : Int) : Nat := (x % (2 ^ w : Nat)).toNat
/-- A saturating result and its flag (R22, R170). -/
def clamped (sg : Bool) (w : Nat) (x : Int) : Nat × Flags :=
  let lo : Int := if sg then -(2 ^ (w - 1) : Nat) else 0
  let hi : Int := if sg then (2 ^ (w - 1) : Nat) - 1 else (2 ^ w : Nat) - 1
  if x < lo then (wrapped w lo, fSA) else if hi < x then (wrapped w hi, fSA) else (wrapped w x, 0)
/-- A vector source is there (R113, R194): a register, the block at a k pointer whose access may be made, or a queue's head. -/
def State.SrcReady (s : State) (g : Group) (c : Ctx) (src : BitVec 4) (_reg : BitVec 5) : Prop :=
  src = 0 ∨
  (∃ (k : BitVec 3) (p : Spot), src.toNat = 1 + k.toNat ∧ s.spotE g c (c.kAddr k) 512 64 .read = .ok p) ∨
  ∃ q : Fin 6, src.toNat = 9 + q.val ∧ c.headBlock q ≠ none
/-- R196: what a single-lane access traps on: the cause, and the address of the lowest enabled lane that fails its check; each check
is made of every lane before the next. -/
def LaneTrap (g : Group) (gd : Guard) (base : Nat) (b : List Nat) (cause la : Nat) : Prop :=
  let on := fun (i : Nat) => i < b.length ∧ gd.getLsbD i = true
  let adr := fun (i : Nat) => (base + b.getD i 0) % 2 ^ 32
  let lowest := fun (fails : Nat → Prop) => ∃ i, on i ∧ fails (adr i) ∧ la = adr i ∧ ∀ j < i, on j → ¬fails (adr j)
  let odd := fun (x : Nat) => x % 4 ≠ 0
  let scratch := fun (x : Nat) => x + 4 ≤ 16384 * g.scratch
  let window := fun (x : Nat) => ¬scratch x ∧ 0x00200000 ≤ x ∧ x < 0x00258000
  let outside := fun (x : Nat) => ¬scratch x ∧ ¬(0x00200000 ≤ x ∧ x < 0x00258000) ∧ ¬(0x01000000 ≤ x ∧ x < 0x01400000)
  (cause = 0x15 ∧ lowest odd) ∨
  (cause = 0x05 ∧ (∀ i, on i → ¬odd (adr i)) ∧ lowest window) ∨
  (cause = 0x12 ∧ (∀ i, on i → ¬odd (adr i) ∧ ¬window (adr i)) ∧ lowest outside)
/-- The integer element rules (R22, R170, R175, R176): by opcode, immediate, sign, width, and the values of d, a, b; the exact result
of the arithmetic, the bits of the rest. -/
def intRule (op imm : Nat) (sg : Bool) (w d a b : Nat) : Option (Nat × Flags) :=
  let v := intVal sg w
  let exact := fun (x : Int) => some (wrapped w x, (0 : Flags))
  let count := fun (n : Nat) => some (n, (0 : Flags))
  let pattern := fun (x : BitVec w) => some (x.toNat, (0 : Flags))
  let D := BitVec.ofNat w d
  let A := BitVec.ofNat w a
  let B := BitVec.ofNat w b
  match op with
  | 0x40 => exact (v a + v b)
  | 0x41 => exact (v a - v b)
  | 0x42 => exact (v a * v b)
  | 0x46 => exact (min (v a) (v b))
  | 0x47 => exact (max (v a) (v b))
  | 0x48 => exact |v a|
  | 0x49 => exact (-(v a))
  | 0x4A => exact |v a - v b|
  | 0x4B => exact ((v a + v b + 1) / 2)
  | 0x4C => exact (min (max (v d) (v a)) (v b))
  | 0x50 => exact (v a * v b / (2 ^ w : Nat))
  | 0x51 => some (clamped sg w (v a + v b))
  | 0x52 => some (clamped sg w (v a - v b))
  | 0x53 => exact (v d + v a * v b)
  | 0x55 => some (if b = 0 then (2 ^ w - 1, 0) else (wrapped w ((v a).tdiv (v b)), 0))
  | 0x60 => pattern (A &&& B)
  | 0x61 => pattern (A ||| B)
  | 0x62 => pattern (A ^^^ B)
  | 0x63 => pattern (A &&& ~~~B)
  | 0x64 => pattern (~~~A)
  | 0x65 => pattern (A <<< (b % w))
  | 0x66 => pattern (A >>> (b % w))
  | 0x67 => pattern (A.sshiftRight (b % w))
  | 0x68 => pattern (A.rotateLeft (b % w))
  | 0x69 => count ((List.range w).countP fun i => A.getLsbD i)
  | 0x6A => count (((List.range w).find? fun i => A.getMsbD i).getD w)
  | 0x6B => pattern ((D &&& A) ||| (~~~D &&& B))
  | 0x6C =>
    let len := if imm / 32 % 64 = 0 then w else imm / 32 % 64
    let f := a / 2 ^ (imm % 32) % 2 ^ len
    if sg = true ∧ f.testBit (len - 1) = true then exact ((f : Int) - (2 ^ len : Nat)) else count f
  | _ => none

end Sys2Proof.Machine
end

