-- ==== Sys2Proof/Certificates/Slice0/Obligations.lean ====
section
/-! DEFINITION. The statements for the provers. Each docstring names the rules of spec/ that it rests on; `Acts`, `endsA`,
`endsE` and the other words are those of Sys2Proof/Safety.lean. Where a statement says what an instruction answers, the
state that it names is the whole next state: what the equation does not change is unchanged. -/

open Sys2Proof Sys2Proof.Machine

/-! ### Reset -/

/-- Every step keeps the canonical form of memory: addresses rising, no unlisted value listed. -/
def Obligations.StepKeepsMemoryForm : Prop := ∀ s t : State, Inv s → step s = .next t → Inv t

/-- R347, R357: every mailbox register reads 0 before bring-up, and MBRDY with it; until MBRDY is set no queue manager takes a
launch. The canonical form of memory and the groups' numbers hold at reset. -/
def Obligations.ResetState : Prop :=
  Inv State.reset ∧ State.reset.Ids ∧
  State.reset.mbctl = 0 ∧ State.reset.mbarg = 0 ∧ State.reset.mbres = 0 ∧ State.reset.mbstat = 0 ∧
    State.reset.mbrdy = false ∧
    ∀ (s : State) (die : Nat), s.mbrdy = false → exec (.launchQueueTake die) s = .next s

/-! ### Decode -/

/-- Words of the spec's worked encodings, each decoded to the instruction that it stands for. -/
def Obligations.WorkedEncodingsDecode : Prop :=
  decodeParcels 0x00629404 0 0 = .ok (.add 5 5 (.reg 6)) ∧
  decodeParcels 0x00033419 0xFFFFFA00 0 = .ok (.rem false 13 6 (.imm (BitVec.ofInt 23 (-3)))) ∧
  decodeParcels 0x0004385D 0x00027800 0 = .ok (.bfxImm false 14 8 60 4) ∧
  decodeParcels 0x00002066 0 0x01000000 = .ok (.li false 8 (.lit 0 0x01000000)) ∧
  decodeParcels 0x02030085 0xFFFFFA00 0 = .ok (.bc .ne 6 0 (BitVec.ofInt 23 (-3))) ∧
  decodeParcels 0x00000299 0x08010200 0 = .ok (.rep 1 4 1) ∧
  decodeParcels 0x0005AB00 0 0 = .ok (.emsg 10 11 0) ∧
  decodeParcels 0x00020F34 0 0 = .ok (.wfe 3 4) ∧
  decodeParcels 0x000217B0 0 0 = .ok (.ctxsv 5 4)

/-- Decoding what the encoder writes for a well-formed instruction gives it back, whatever its operands. -/
def Obligations.DecodeOfEncode : Prop :=
  ∀ i : Instr, i.wf = true → encode i ≠ [] →
    decodeParcels ((encode i).getD 0 0) ((encode i).getD 1 0) ((encode i).getD 2 0) = .ok i

/-- What decodes is well formed, and its first parcel says its length (R96, R97). -/
def Obligations.DecodedIsWellFormed : Prop :=
  ∀ (p0 p1 p2 : Parcel) (i : Instr), decodeParcels p0 p1 p2 = .ok i →
    i.wf = true ∧ parcelCount p0 = some (encode i).length

/-- R97, R115, R117: the length 0b11 gives cause 0x02 whatever follows, and each of the 71 reserved opcodes of R115 cause 0x01. -/
def Obligations.ReservedEncodingsRefused : Prop :=
  (∀ p0 p1 p2 : Parcel, p0.extractLsb' 0 2 = 3 → decodeParcels p0 p1 p2 = .error 2) ∧
  (∀ p0 p1 p2 : Parcel, p0.extractLsb' 0 2 ≠ 3 → reservedOp (p0.extractLsb' 2 8).toNat → decodeParcels p0 p1 p2 = .error 1)

/-! ### A step runs the instruction at its stream's address -/

/-- A parcel of code is the four bytes at its place, little-endian (R2, R96), fetched with the execute right (R98), where no store
to its line is unseen by the group (R99); the bounds entry and the translation that lead there are kept (R214, R215), and its slice
reads the line (R206). -/
def Obligations.FetchReadsTheParcel : Prop :=
  ∀ (s : State) (g : Machine.Group) (c : Ctx) (pc : Word) (key die : Nat) (t : Bool) (e : Option Nat),
    s.fetchProbe g c pc = .at (.mem key die t e) → s.bankBusy (.mem key die t e) = false → s.moves (.mem key die t e) = false →
    s.versionsOf g (key / 64) = [] →
    s.fetchParcels g c pc 1 =
      .ok ([BitVec.ofNat 32 ((s.byteAt key).toNat + 256 * (s.byteAt (key + 1)).toNat +
        65536 * (s.byteAt (key + 2)).toNat + 16777216 * (s.byteAt (key + 3)).toNat)],
        ((s.tried g c pc 4 4 .x).fetchLine g (.mem key die t e)).touchEa g pc)

/-- A turn of an access stream that finds an instruction of class A, X or S at its address runs it for its context; one that finds
class E passes it by (R119). Waiting fault records enter their queues first, and the turn's time passes. A budget that has run out is
seen before the control context's next instruction (R78); a group in escrow or about to leave its core runs nothing (R328, R343). -/
def Obligations.AccessTurnRunsDecoded : Prop :=
  ∀ (s s1 s2 : State) (r : List (Turn × Nat)) (core num k : Nat) (g : Machine.Group) (c : Ctx) (i : Instr),
    s.drainPending.script = (.access core num, k) :: r →
    s1 = (State.advance { s.drainPending with script := r } k).at g.id num →
    (State.advance { s.drainPending with script := r } k).groupOn? core = some g → g.unbound = false → g.stopping = none →
    (num = 0 → g.overBudget = false) → g.ctx? num = some c → c.heldA = none → s1.Reads g c c.seqA c.pcA s2 i →
    step s = if i.isExec then .next ((s2.noteCode g c c.seqA i).updCtx g.id c.num fun x => x.passA i)
      else exec i (s2.noteCode g c c.seqA i)

/-- A turn of an execute stream that finds an instruction of class E at its address runs it, once no access-stream instruction that
it has passed can trap any more, and waits until then; it passes any other by (R119). -/
def Obligations.ExecuteTurnRunsDecoded : Prop :=
  ∀ (s s1 s2 : State) (r : List (Turn × Nat)) (core num k : Nat) (g : Machine.Group) (c : Ctx) (i : Instr),
    s.drainPending.script = (.execute core num, k) :: r →
    s1 = (State.advance { s.drainPending with script := r } k).at g.id num →
    (State.advance { s.drainPending with script := r } k).groupOn? core = some g → g.unbound = false → g.stopping = none →
    (num = 0 → g.overBudget = false) → g.ctx? num = some c → c.heldE = none →
    c.heldA = none ∨ c.seqE < c.seqA ∨ alGet c.code c.seqE ≠ none → s1.Reads g c c.seqE c.pcE s2 i →
    step s =
      if i.isExec = false then .next ((s2.noteCode g c c.seqE i).updCtx g.id c.num fun x => x.passE i)
      else if c.seqP ≤ c.seqA ∨ (c.seqP = c.seqA + 1 ∧ c.waitsCommitted = true) then exec i (s2.noteCode g c c.seqE i)
      else .next ((s2.noteCode g c c.seqE i).updCtx g.id c.num fun x => { x with waitE := some .commit, retryE := false })

/-! ### Class A: arithmetic -/

/-- R139-R142: each arithmetic instruction writes the register that `aluRule` names with the value that it gives, and nothing
else; a write of x0 is discarded. The other operand forms are those of `Ctx.opB`. -/
def Obligations.ArithmeticResult : Prop :=
  ∀ (s : State) (g : Machine.Group) (c : Ctx) (i : Instr) (d : BitVec 5) (v : Word),
    s.Acts g c → aluRule c i = some (d, v) →
    exec i s = .next ((s.updCtx g.id c.num fun x => x.writeX d v).endsA g c (inRegion c.pcA i.size))

/-- R125, R139: after an arithmetic instruction x0 reads 0, the destination reads the result, every other x register, every g,
k and v register, the queues, the CSRs and the execute stream's place are as before, where no window store comes due. -/
def Obligations.ArithmeticFrame : Prop :=
  ∀ (s : State) (g : Machine.Group) (c : Ctx) (i : Instr) (d : BitVec 5) (v : Word) (r : BitVec 5),
    s.Acts g c → aluRule c i = some (d, v) → c.NothingDue → s.Calm g.core →
    ∃ t c', exec i s = .next t ∧ t.cx g.id c.num = some c' ∧
      c'.readX r = (if r = 0 then 0 else if r = d then v else c.readX r) ∧ c'.r.g = c.r.g ∧ c'.r.k = c.r.k ∧
      c'.r.v = c.r.v ∧ c'.queues = c.queues ∧ c'.csr = c.csr ∧ c'.pcE = c.pcE ∧ c'.rep = c.rep ∧
      c'.pcA = inRegion c.pcA i.size ∧ (∀ a, t.byteAt a = s.byteAt a)

/-- An instruction of class A that touches no memory and cannot trap changes its own context alone, with the counters of its
core: all of memory, every other context and everything else of the machine stay as they are, whether it ends or waits. -/
def Obligations.ContextOnlyFrame : Prop :=
  ∀ (s t : State) (g : Machine.Group) (c : Ctx) (i : Instr),
    s.Acts g c → s.Calm g.core → contextOnly i = true → exec i s = .next t →
    OnlyContext s t g c ∧ ∀ a, t.byteAt a = s.byteAt a

/-- R127: a direct write reaches the window view with the end of the sixth instruction of its stream after it, and the register
file at once: with no update queued, after the write and k further ends the window reads the old value up to k = 6 and the new one
from k = 7 on, the write's own end counted. -/
def Obligations.WindowLag : Prop :=
  ∀ (c : Ctx) (d : BitVec 5) (v : Word) (k : Nat), c.lag = [] → d ≠ 0 →
    let after := Nat.repeat (fun x => Ctx.endInstr x false) k (c.writeX d v)
    after.readX d = v ∧ after.w.x[d.toNat] = if k < 7 then c.w.x[d.toNat] else v

/-! ### Class A: control flow -/

/-- R120, R143-R145: a control-flow instruction puts its continuation with the mask of v registers into bq and goes there;
while bq is full it waits with no effect, but that a bqe has popped q6 (R144), which it does before anything else. A bqe that finds
q6 empty waits. A jump to an address that is no multiple of 4 takes cause 0x15. -/
def Obligations.ControlFlowResult : Prop :=
  (∀ (s : State) (g : Machine.Group) (c : Ctx) (i : Instr) (t : Word) (m : BitVec 32) (f : Ctx → Ctx),
    s.Acts g c → flowRule c i = some (t, m, f) →
    let s1 := s.updCtx g.id c.num (flowPop c i)
    exec i s = .next (
      if isJump i = true ∧ t.toNat % 4 ≠ 0 then
        (if c.drained then s.trapsA g c 0x15 (firstParcel i) else s.drainsA g c)
      else if c.queues.bq.length < 16 then (s1.updCtx g.id c.num fun x => (f x).pushBq t m).endsA g c t
      else s1.waitsA g c (.queue 8 false))) ∧
  (∀ (s : State) (g : Machine.Group) (c : Ctx) (z : Bool) (d : BitVec 5) (off : BitVec 23), s.Acts g c → c.popped = none →
    c.queues.q6 = [] → exec (.bqe z d off) s = .next (s.waitsA g c (.queue 6 false)))

/-! ### Class A: memory and queues -/

/-- R148-R152: a scalar load whose access may be made reads its register image or its memory bytes and writes the extended
value. Without stores of the other stream that it is not ordered after (R197), and where no counter or page count writes
memory, the number read is the little-endian one of the bytes; a word that only atomics have written may also give one of its
earlier values (R302). -/
def Obligations.LoadResult : Prop :=
  ∀ (s : State) (g : Machine.Group) (c : Ctx) (i : Instr) (d : BitVec 5) (w : LdW) (ea : Word) (p : Spot),
    s.Acts g c → loadRule c i = some (d, w, ea) → s.Admits g c ea (loadBytes w) .r p →
    s.Calm g.core → s.Quiet → c.loose = [] →
    ∃ (t : State) (v : Nat), exec i s = .next ((t.updCtx g.id c.num fun x => x.writeX d (loadValue w v)).endsA g c
        (inRegion c.pcA i.size)) ∧ t.mem = s.mem ∧
      match p with
      | .win img off => v = c.winRead img off (loadBytes w)
      | .mem key _ _ _ =>
        ((∀ x ∈ wordsOf key (loadBytes w), alGet s.olds x = none) → v = s.rd key (loadBytes w)) ∧
        (loadBytes w = 4 → key % 4 = 0 → v = s.rd key 4 ∨ ∃ x ∈ s.staleOf c (key / 4), v = x.2.toNat)

/-- R148-R152: a scalar store whose access may be made puts the low bytes of its register at the spot of its effective
address. -/
def Obligations.StoreResult : Prop :=
  ∀ (s : State) (g : Machine.Group) (c : Ctx) (i : Instr) (ea : Word) (b : List Byte) (p : Spot),
    s.Acts g c → storeRule c i = some (ea, b) → s.Admits g c ea b.length .w p →
    exec i s = .next (((((s.tried g c ea b.length b.length .w).putSpot g c false p b (BitVec.allOnes 4096)).touchEa g ea).endsA
      g c (inRegion c.pcA i.size)))

/-- The frame of a scalar store to memory: the bytes at the key of its effective address read as the data, every other byte of
memory as before, where no word stored to is a queue's head and no counter or page count writes memory. -/
def Obligations.StoreFrame : Prop :=
  ∀ (s : State) (g : Machine.Group) (c : Ctx) (i : Instr) (ea : Word) (b : List Byte) (key die : Nat) (tr : Bool) (e : Option Nat),
    s.Acts g c → storeRule c i = some (ea, b) → s.Admits g c ea b.length .w (.mem key die tr e) →
    Inv s → s.Calm g.core → s.Quiet → s.NoHead key b.length →
    ∃ t, exec i s = .next t ∧
      ∀ a, t.byteAt a = if key ≤ a ∧ a < key + b.length then b.getD (a - key) 0 else s.byteAt a

/-- R153, R157: a block load pushes the block read into its queue, and a block store stores its queue's head and pops it. Where the
access may be made, in one page or in two, byte j of a block read is that of memory at the key of the effective address plus j, by the
model's own probe of each part, and no byte changes; a block store changes those 512 bytes, to the head's, and no other. -/
def Obligations.BlockAccess : Prop :=
  (∀ (s t : State) (g : Machine.Group) (c : Ctx) (q : BitVec 2) (a : BitVec 5) (b : OpB) (v : Block),
    s.Acts g c → c.loaded = none → (c.queues.blocks[q.toNat]'(by omega)).length < 4 →
    (s.loadBlock g c (inRegion (c.readX a) (c.opB b).toInt) = .ok t v →
      exec (.ldq q a b) s = .next ((t.updCtx g.id c.num fun x => x.pushBlock (Fin.ofNat 6 q.toNat) v).endsA g c
        (inRegion c.pcA (Instr.ldq q a b).size))) ∧
    (s.loadBlock g c (BitVec.ofNat 64 (((c.readX a).toNat + (c.opB b).toNat) % 2 ^ 32)) = .ok t v →
      exec (.ldsq q a b) s = .next ((t.updCtx g.id c.num fun x => x.pushBlock (Fin.ofNat 6 q.toNat) v).endsA g c
        (inRegion c.pcA (Instr.ldsq q a b).size)))) ∧
  (∀ (s t : State) (g : Machine.Group) (c : Ctx) (q5 : Bool) (a : BitVec 5) (b : OpB) (e : QBlock),
    s.Acts g c → c.headBlock (if q5 then 5 else 4) = some e →
    (s.storeBlock g c (inRegion (c.readX a) (c.opB b).toInt) e.data = .ok t () →
      exec (.stq q5 a b) s = .next ((t.updCtx g.id c.num fun x => x.popBlock (if q5 then 5 else 4)).endsA g c
        (inRegion c.pcA (Instr.stq q5 a b).size))) ∧
    (s.storeBlock g c (BitVec.ofNat 64 (((c.readX a).toNat + (c.opB b).toNat) % 2 ^ 32)) e.data = .ok t () →
      exec (.stsq q5 a b) s = .next ((t.updCtx g.id c.num fun x => x.popBlock (if q5 then 5 else 4)).endsA g c
        (inRegion c.pcA (Instr.stsq q5 a b).size)))) ∧
  (∀ (s : State) (g : Machine.Group) (c : Ctx) (q : BitVec 2) (a : BitVec 5) (b : OpB) (i : Instr) (ea : Word)
    (l : List (Spot × Nat × Nat)), s.Acts g c → c.loaded = none → (c.queues.blocks[q.toNat]'(by omega)).length < 4 →
    (i = .ldq q a b ∧ ea = inRegion (c.readX a) (c.opB b).toInt) ∨
      (i = .ldsq q a b ∧ ea = BitVec.ofNat 64 (((c.readX a).toNat + (c.opB b).toNat) % 2 ^ 32)) →
    s.AdmitsBlock g c ea .r l → s.Calm g.core → s.Quiet → c.loose = [] →
    (∀ j a, j < 512 → blockByte l j a → alGet s.olds (a / 4) = none) →
    ∃ (t : State) (v : Block), exec i s = .next ((t.updCtx g.id c.num fun x => x.pushBlock (Fin.ofNat 6 q.toNat) v).endsA g c
        (inRegion c.pcA i.size)) ∧ t.mem = s.mem ∧
      ∀ j, j < 512 → ∃ a, blockByte l j a ∧ v.extractLsb' (8 * j) 8 = s.byteAt a) ∧
  ∀ (s : State) (g : Machine.Group) (c : Ctx) (q5 : Bool) (a : BitVec 5) (b : OpB) (i : Instr) (ea : Word) (e : QBlock)
    (l : List (Spot × Nat × Nat)), s.Acts g c → c.headBlock (if q5 then 5 else 4) = some e →
    (i = .stq q5 a b ∧ ea = inRegion (c.readX a) (c.opB b).toInt) ∨
      (i = .stsq q5 a b ∧ ea = BitVec.ofNat 64 (((c.readX a).toNat + (c.opB b).toNat) % 2 ^ 32)) →
    s.AdmitsBlock g c ea .w l → Inv s → s.Calm g.core → s.Quiet →
    (∀ key home t e o n, (Spot.mem key home t e, o, n) ∈ l → s.NoHead key n) →
    ∃ t, exec i s = .next t ∧ (∀ j, j < 512 → ∃ a, blockByte l j a ∧ t.byteAt a = leByte e.data.toNat j) ∧
      ∀ a, (∀ j, j < 512 → ¬blockByte l j a) → t.byteAt a = s.byteAt a

/-- R121, R142, R147, R158-R162: the queue instructions of the access stream, the hints, and the cache instructions: none on a local
address, on the core's copy of the line in global memory, cause 0x12 outside the bounds. -/
def Obligations.QueueAndHintResult : Prop :=
  ∀ (s : State) (g : Machine.Group) (c : Ctx), s.Acts g c →
    (∀ f, exec (.nop f) s = .next (s.endsA g c (inRegion c.pcA (Instr.nop f).size))) ∧
    exec .yield s = .next (s.endsA g c (inRegion c.pcA Instr.yield.size)) ∧
    (∀ cl a b, exec (.pfx cl a b) s = .next (s.endsA g c (inRegion c.pcA (Instr.pfx cl a b).size))) ∧
    (∀ a, exec (.pushq a) s = .next (if c.queues.q7.length < 16 then
      (s.updCtx g.id c.num fun x => x.pushQ7 (c.readX a)).endsA g c (inRegion c.pcA (Instr.pushq a).size)
      else s.waitsA g c (.queue 7 true))) ∧
    (∀ d, exec (.popq d) s = .next (match c.queues.q6 with
      | [] => s.waitsA g c (.queue 6 true)
      | e :: _ => (s.updCtx g.id c.num fun x => x.popQ6.writeX d e.data).endsA g c (inRegion c.pcA (Instr.popq d).size))) ∧
    (∀ d q, exec (.qstat d q) s = .next ((s.updCtx g.id c.num fun x => x.writeX d (BitVec.ofNat 64
      (match q with
       | none => c.queues.bq.length
       | some n => if h : n.toNat < 6 then (c.queues.blocks[n.toNat]).length
                   else if n.toNat = 6 then c.queues.q6.length else c.queues.q7.length))).endsA g c
      (inRegion c.pcA (Instr.qstat d q).size))) ∧
    (∀ (i : Instr) a b drop, i = (if drop then Instr.inv a b else Instr.cln a b) →
      let ea := inRegion (c.readX a) (c.opBSM b).toInt
      (isLocal ea = true → exec i s = .next (s.endsA g c (inRegion c.pcA i.size))) ∧
      (isLocal ea = false → bits ea.toNat 63 56 ≠ 0xFE → exec i s = .next (
        let s1 := s.keepEntry g c ea
        if boundsOk (s.boundsOf c (bits ea.toNat 63 56)) ea.toNat 1 then
          (s1.cleanLine g.core g.vf (ea.toNat % 2 ^ 56) drop).endsA g c (inRegion c.pcA i.size)
        else if c.drained then s1.trapsA g c 0x12 ea else s.drainsA g c)))


/-! ### Class E: the elementwise instructions -/

/-- R108, R109, R164, R168: an elementwise instruction whose fields are legal and whose sources can be read writes to each
enabled element of vD what its function gives for the elements at that position, leaves every other element alone, and ORs
the flags of the enabled elements into FFLAGS. -/
def Obligations.ElementwiseResult : Prop :=
  ∀ (s s1 : State) (g : Machine.Group) (c : Ctx) (i : Instr) (op : Nat) (e0 e : EArgs) (sh : EShape) (f : ElemFn) (a b : List Nat),
    s.Acts g c → mapRule i = some (op, e0, f) → EReady g c op e0 one3 sh e →
    readAB s g c sh e (c.srcTy sh e) = .ok s1 (a, b) →
    let st := c.srcTy sh e
    let dt := c.outTy sh e
    let r := elemResults dt.w (min (4096 / st.w) (4096 / dt.w)) (c.guard e) fun p =>
      f st dt p ((blockElems dt.w (c.readV e.d)).getD p 0) (a.getD p 0) (b.getD p 0)
    s.EndsE i g c s1 fun x => (x.writeElems e.d dt.w r.1).flags r.2

/-- R22, R170, R175, R176: on integer elements the arithmetic instructions give the exact result reduced mod 2^w, or saturated with
the SA flag for vadds and vsubs; division truncates, and by zero gives all ones; the logic, shift and counting instructions and the
bit field act on the elements as bit vectors of their width. That a field of vbfx which is cut off at the top takes its sign from bit
len - 1, as in bfx, is the model's choice (log 32, DEDUCED). -/
def Obligations.IntegerElements : Prop :=
  ∀ (i : Instr) (op : Nat) (e0 : EArgs) (f : ElemFn) (sg : Bool) (w p d a b : Nat) (r : Nat × Flags),
    mapRule i = some (op, e0, f) → w ∈ [4, 8, 16, 32] → a < 2 ^ w → b < 2 ^ w → d < 2 ^ w → intRule op e0.immU sg w d a b = some r →
    f (intTy sg w) (intTy sg w) p d a b = r

/-- R109, R125: results written to vD stand in their elements, every element without a result and every other register is as
before. -/
def Obligations.ElementWritten : Prop :=
  ∀ (c : Ctx) (d : BitVec 5) (w : Nat) (l : List (Option Nat)), w ∈ [4, 8, 16, 32] → l.length = 4096 / w →
    (∀ v, some v ∈ l → v < 2 ^ w) →
    (∀ p, p < 4096 / w → (blockElems w ((c.writeElems d w l).readV d)).getD p 0 =
      (l.getD p none).getD ((blockElems w (c.readV d)).getD p 0)) ∧
    (∀ r, r ≠ d → (c.writeElems d w l).readV r = c.readV r) ∧ (c.writeElems d w l).r.x = c.r.x ∧
    (c.writeElems d w l).r.g = c.r.g ∧ (c.writeElems d w l).r.k = c.r.k ∧ (c.writeElems d w l).csr = c.csr ∧
    (c.writeElems d w l).queues = c.queues

/-- R113, R194: a vector source is the register; or the head of q0-q3, which is popped; or the 512 bytes at a k pointer, which
then advances by its stride. What the source is comes from the state and the fields alone. -/
def Obligations.VectorSources : Prop :=
  ∀ (s : State) (g : Machine.Group) (c : Ctx) (reg : BitVec 5), s.Acts g c →
    s.vSrc g c 0 reg = .ok s (c.readV reg) ∧
    (∀ (src : BitVec 4) (q : Fin 6), src.toNat = 9 + q.val → q.val < 4 →
      s.vSrc g c src reg = match c.headBlock q with
        | none => .wait (.queue q.val false)
        | some b => .ok (s.updCtx g.id c.num fun x => x.popBlock q) b.data) ∧
    (∀ (src : BitVec 4) (k : BitVec 3) (key die : Nat) (tr : Bool) (e : Option Nat), src.toNat = 1 + k.toNat →
      s.spotE g c (c.kAddr k) 512 64 .read = .ok (.mem key die tr e) → c.loose = [] →
      (∀ x ∈ wordsOf key 512, alGet s.olds x = none) →
      ∃ s1 : State, s1.mem = s.mem ∧ ((∀ r ∈ s.rels, r.var < key ∨ key + 512 ≤ r.var) → s1.groups = s.groups) ∧
        s.vSrc g c src reg =
        .ok (s1.updCtx g.id c.num fun x =>
          x.writeK k (((c.kAddr k : Int) + c.kStride k) % 2 ^ 32).toNat (c.kStride k % 2 ^ 16).toNat)
          (BitVec.ofNat 4096 (s.rd key 512))) ∧
    ∀ src, s.SrcReady g c src reg → ∃ s1 v, s.vSrc g c src reg = .ok s1 v

/-- R32, R126, R132, R167: an elementwise instruction takes cause 0x01 where an FMT register that it uses is not valid or a
pass of rep makes its fields illegal, cause 0x05 where it names a register past the declared count, and the cause of the
source that fails; EPC is where the access stream stands and EPCE its own address. It waits where a queue is empty. The model's
choices: the FMT check comes before that of the declared registers (log 51, DEDUCED), and TVAL of cause 0x05 is the first parcel
(log 50, DEDUCED). -/
def Obligations.ElementwiseTraps : Prop :=
  ∀ (s : State) (g : Machine.Group) (c : Ctx) (i : Instr) (op : Nat) (e0 e : EArgs) (sh : EShape) (f : ElemFn),
    s.Acts g c → mapRule i = some (op, e0, f) → eShape op = some sh → e = c.passArgs sh e0 →
    ((c.rep.isSome = true ∧ eOk op e = false) ∨ c.fmtsOk sh e = false →
      exec i s = .next (s.trapsE g c 0x01 (firstParcel i))) ∧
    (c.rep = none ∨ eOk op e = true → c.fmtsOk sh e = true → regsOk g sh e 1 1 1 = false →
      exec i s = .next (s.trapsE g c 0x05 (firstParcel i))) ∧
    (EReady g c op e0 one3 sh e → ∀ w, readAB s g c sh e (c.srcTy sh e) = .wait w → exec i s = .next (s.waitsE g c w)) ∧
    (EReady g c op e0 one3 sh e → ∀ cause la, readAB s g c sh e (c.srcTy sh e) = .trap cause la →
      exec i s = .next (s.trapsE g c cause (if [0x05, 0x08, 0x12, 0x15].contains cause then la else firstParcel i)))

/-! ### Class E: the other vector instructions -/

/-- R165, R171, R172: vaddw and vmulw write sums and products of twice the width to a pair of registers, element i to register
i mod 2 at position i div 2; vdot adds the products of each lane to the 32-bit element of vD. -/
def Obligations.WideResult : Prop :=
  ∀ (s s1 : State) (g : Machine.Group) (c : Ctx) (e0 e : EArgs) (sh : EShape) (a b : List Nat), s.Acts g c →
    readAB s g c sh e (c.srcTy sh e) = .ok s1 (a, b) →
    let t := c.srcTy sh e
    let wide := fun (r : List (Option Nat) × Flags) (x : Ctx) => (x.writeGroup e.d 2 (2 * t.w) r.1).flags r.2
    (EReady g c 0x4D e0 (fun _ _ => (2, 1, 1)) sh e →
      s.EndsE (.vaddw e0) g c s1 (wide (guardGroup (c.guard e) 2 (2 * t.w) (List.zipWith (wideElem (· + ·) fAdd t) a b)))) ∧
    (EReady g c 0x4E e0 (fun _ _ => (2, 1, 1)) sh e →
      s.EndsE (.vmulw e0) g c s1 (wide (guardGroup (c.guard e) 2 (2 * t.w) (List.zipWith (wideElem (· * ·) fMul t) a b)))) ∧
    (EReady g c 0x4F e0 one3 sh e →
      let r := guardGroup (c.guard e) 1 32 (List.zipWith (fun d (x : List Nat × List Nat) => dotElem t d x.1 x.2)
        (blockElems 32 (c.readV e.d)) ((runsOf (32 / t.w) 128 a).zip (runsOf (32 / t.w) 128 b)))
      s.EndsE (.vdot e0) g c s1 fun x => (x.writeElems e.d 32 r.1).flags r.2)

/-- R177: vcmp sets lane i of gD, where its guard is true, when every element of the lane meets the condition. -/
def Obligations.CompareResult : Prop :=
  ∀ (s s1 : State) (g : Machine.Group) (c : Ctx) (e0 e : EArgs) (sh : EShape) (a b : List Nat), s.Acts g c →
    EReady g c 0x70 e0 one3 sh e → readAB s g c sh e (c.srcTy sh e) = .ok s1 (a, b) →
    a.length = 4096 / (c.srcTy sh e).w → b.length = a.length → 4 ≤ (c.srcTy sh e).w → (c.srcTy sh e).w ≤ 32 →
    ∃ (v : Guard) (fl : Flags), s.EndsE (.vcmp e0) g c s1 (fun x => (x.writeGuard (gReg e.d) (c.guard e) v).flags fl) ∧
      ∀ i, i < 128 → v.getLsbD i = decide (∀ j, j < 32 / (c.srcTy sh e).w →
        (cmpElem e.fn.toNat (c.srcTy sh e) (a.getD (i * (32 / (c.srcTy sh e).w) + j) 0)
          (b.getD (i * (32 / (c.srcTy sh e).w) + j) 0)).1 = true)

/-- R108, R179: the guard instructions write gD in the lanes whose guard is true; gcnt pushes the number of the set lanes into q6
and waits while q6 is full. -/
def Obligations.GuardResult : Prop :=
  ∀ (s : State) (g : Machine.Group) (c : Ctx) (e0 e : EArgs) (sh : EShape), s.Acts g c →
    let a := c.readG (e.a.setWidth 3)
    let b := c.readG (e.b.setWidth 3)
    let gd := c.guard e
    let put := fun (v : Guard) (x : Ctx) => x.writeG (e.d.setWidth 3) ((x.readG (e.d.setWidth 3) &&& ~~~gd) ||| (v &&& gd))
    (EReady g c 0x72 e0 one3 sh e → s.EndsE (.gand e0) g c s (put (a &&& b))) ∧
    (EReady g c 0x73 e0 one3 sh e → s.EndsE (.gor e0) g c s (put (a ||| b))) ∧
    (EReady g c 0x74 e0 one3 sh e → s.EndsE (.gxor e0) g c s (put (a ^^^ b))) ∧
    (EReady g c 0x75 e0 one3 sh e → s.EndsE (.gnot e0) g c s (put (~~~a))) ∧
    (EReady g c 0x76 e0 one3 sh e → s.EndsE (.gmov e0) g c s (put a)) ∧
    (EReady g c 0x78 e0 one3 sh e → ∃ v, s.EndsE (.gfirst e0) g c s (put v) ∧ ∀ i, v.getLsbD i = true ↔
      (a &&& gd).getLsbD i = true ∧ ∀ j < i, (a &&& gd).getLsbD j = false) ∧
    (EReady g c 0x79 e0 one3 sh e → ∃ v, s.EndsE (.gset e0) g c s (put v) ∧ ∀ i, v.getLsbD i = (decide (i < 128 ∧ i < e.immU))) ∧
    (EReady g c 0x77 e0 one3 sh e → exec (.gcnt e0) s = .next (if c.queues.q6.length < 16 then
      (s.updCtx g.id c.num fun x => x.pushQ6 (BitVec.ofNat 64 ((List.range 128).countP fun i => (a &&& gd).getLsbD i))).endsE
        g c (inRegion c.pcE (Instr.gcnt e0).size)
      else s.waitsE g c (.queue 6 false)))

/-- R180-R182: vcvt, vwiden and vnarrow convert each element once from the source's type to the destination's, with the words of
stochastic rounding where FN asks for them. The model's choices: vcvt sizes the group of random words by N, not by the N_d of R181
(log 48, DEDUCED), and a pattern on the random words of vcvt and vnarrow permutes them at the width of the source's type (log 49,
DEDUCED). -/
def Obligations.ConvertResult : Prop :=
  ∀ (s s1 s2 : State) (g : Machine.Group) (c : Ctx) (e0 e : EArgs) (sh : EShape) (av : Block) (u : List Nat), s.Acts g c →
    let st := c.srcTy sh e
    let dt := c.dstTy sh e
    let n := min (4096 / st.w) (4096 / dt.w)
    (EReady g c 0x80 e0 (fun c e => (1, 1, uRegs (4096 / max (c.srcTy sh e).w (c.dstTy sh e).w))) sh e → uOk e n = true →
      s.vSrc g c e.asrc e.a = .ok s1 av → readU s1 g c e n st.w = .ok s2 u →
      let r := elemResults dt.w n (c.guard e) fun p =>
        cvtElem (Rm.ofCode e.fn.toNat) (u.getD p 0) st dt ((aElems e st.w av).getD p 0)
      s.EndsE (.vcvt e0) g c s2 fun x => (x.writeElems e.d dt.w r.1).flags r.2) ∧
    (∀ r, r = widthRatio dt.w st.w → r ≠ 0 → e.d.toNat % r = 0 →
      EReady g c 0x81 e0 (fun c e => (max 1 (widthRatio (c.dstTy sh e).w (c.srcTy sh e).w), 1, 1)) sh e →
      s.vSrc g c e.asrc e.a = .ok s1 av →
      let q := guardGroup (c.guard e) r dt.w ((pattern e (blockElems st.w av)).map (cvtElem .rne 0 st dt))
      s.EndsE (.vwiden e0) g c s1 fun x => (x.writeGroup e.d r dt.w q.1).flags q.2) ∧
    (∀ r, r = widthRatio st.w dt.w → r ≠ 0 → e.a.toNat % r = 0 → uOk e (4096 / dt.w) = true →
      EReady g c 0x82 e0 (fun c e => (1, max 1 (widthRatio (c.srcTy sh e).w (c.dstTy sh e).w), uRegs (4096 / (c.dstTy sh e).w)))
        sh e →
      readU s g c e (4096 / dt.w) st.w = .ok s1 u →
      let a := interleave ((List.range r).map fun k => aElems e st.w (c.readV (e.a + BitVec.ofNat 5 k))) (4096 / st.w)
      let q := elemResults dt.w (4096 / dt.w) (c.guard e) fun p =>
        cvtElem (Rm.ofCode e.fn.toNat) (u.getD p 0) st dt (a.getD p 0)
      s.EndsE (.vnarrow e0) g c s1 fun x => (x.writeElems e.d dt.w q.1).flags q.2)

/-- R36, R37, R65, R183, R185, R186: vpack and vunpack move elements of 5 and 6 bits between bytes and fields of 6 bits; vqnt
scales each block by the power of two of its greatest exponent, converts, and pushes the four or eight scales; fmtld puts the
format of a tensor record with its clamp into an FMT register. The model's choices: vpack moves the low 6 bits of a lane as they stand,
of a format of width 5 too, and vunpack clears the bits that a lane does not use (log 105, DEDUCED); a pattern on fmtld's operand
permutes elements of 32 bits (log 111, DEDUCED). -/
def Obligations.PackResult : Prop :=
  ∀ (s s1 : State) (g : Machine.Group) (c : Ctx) (e0 e : EArgs) (sh : EShape) (av : Block), s.Acts g c →
    s.vSrc g c e.asrc e.a = .ok s1 av →
    (∀ x : Fmt, c.srcTy sh e = .f x → x.width = 5 ∨ x.width = 6 →
      let a := pattern e (blockElems x.lane av)
      (EReady g c 0x83 e0 one3 sh e → s.EndsE (.vpack e0) g c s1 fun y =>
        y.writeV e.d (BitVec.allOnes 4096) (BitVec.ofNat 4096 (joinElems 6 (a.map (· % 64))))) ∧
      (EReady g c 0x84 e0 one3 sh e → s.EndsE (.vunpack e0) g c s1 fun y =>
        y.writeV e.d (BitVec.allOnes 4096) (blockOf 8 ((elems 6 512 (joinElems 8 (a.take 384))).map (· % 2 ^ x.width))))) ∧
    (∀ fd : Fmt, c.dstTy sh e = .f fd → EReady g c 0x86 e0 one3 sh e → e.fn ≠ 5 → (s.ctxOf g c).queues.full 6 = false →
      let d := (c.csr.fmt[e.dfmt.toNat]).toNat
      let k := if bscaleOf d = 2 then 16 else 32
      let vals := (pattern e (blockElems 32 av)).map f32.value
      let scale := fun j => blockScale d (((List.range 128).filter fun i => i / k = j).filterMap fun i =>
        if enabled (c.guard e) fd.lane i then vals[i]? else none)
      let r := elemResults fd.lane 128 (c.guard e) fun p => fd.convert (Rm.ofCode e.fn.toNat) 0
        (match vals[p]? with
         | some (.fin s m x) => .fin s m (x - (scale (p / k) : Int) + 127)
         | some v => v
         | none => .gen)
      bscaleOf d ≠ 0 → s.EndsE (.vqnt e0) g c s1 fun x => ((x.writeElems e.d fd.lane r.1).flags r.2).pushQ6
        (BitVec.ofNat 64 (joinElems 8 ((List.range (128 / k)).map scale)))) ∧
    (EReady g c 0x87 e0 one3 sh e →
      let w := joinElems 32 (pattern e (blockElems 32 av))
      s.EndsE (.fmtld e0) g c s1 fun x =>
        x.setFmt e.d.toNat (BitVec.ofNat 64 (bits w 31 0 + bits w 239 224 * 2 ^ 32 + bits w 63 48 * 2 ^ 48)))

/-- R21, R187, R188, R192: the instructions that fill, permute and select elements, and those that move one element to q6 or from
q7. An element of a narrow format is its code: what lies above it in the lane is ignored and written zero. -/
def Obligations.MoveResult : Prop :=
  ∀ (s s1 : State) (g : Machine.Group) (c : Ctx) (e0 e : EArgs) (sh : EShape) (a b : List Nat) (av : Block) (q : Word),
    s.Acts g c →
    let t := c.srcTy sh e
    let n := 4096 / t.w
    let put := fun (gd : Guard) (f : Nat → Nat) (x : Ctx) =>
      x.writeElems e.d t.w (elemResults t.w n gd fun p => (f p, 0)).1
    (EReady g c 0x91 e0 one3 sh e → e0.immU < 2 ^ t.w → s.EndsE (.vsplat e0) g c s (put (c.guard e) fun _ => t.code e0.immU)) ∧
    (EReady g c 0x9C e0 one3 sh e → s.EndsE (.vidx e0) g c s (put (c.guard e) fun p => toN t.w (e0.immI + p))) ∧
    (EReady g c 0x92 e0 one3 sh e → readAB s g c sh e t = .ok s1 (a, b) →
      s.EndsE (.vperm e0) g c s1 (put (c.guard e) fun p => a.toArray.getD (b.getD p 0 % n) 0)) ∧
    (EReady g c 0x95 e0 one3 sh e → readAB s g c sh e t = .ok s1 (a, b) →
      s.EndsE (.vsel e0) g c s1 (put (BitVec.allOnes 128) fun p =>
        if enabled (c.guard e) t.w p then a.getD p 0 else b.getD p 0)) ∧
    (EReady g c 0x9E e0 one3 sh e → s.q7Src g c = .ok s1 q →
      s.EndsE (.vpull e0) g c s1 (put (c.guard e) fun _ => t.code (q.toNat % 2 ^ t.w))) ∧
    (EReady g c 0x9B e0 one3 sh e → s.q7Src g c = .ok s1 q →
      s.EndsE (.vmint e0) g c s1 (put (c.guard e) fun p =>
        if t.w == 32 then mint32 (q.toNat % 2 ^ 32) ((q.toNat / 2 ^ 32 + p) % 2 ^ 32)
        else mint16 (q.toNat % 2 ^ 32 % 2 ^ 16) ((q.toNat / 2 ^ 32 + p) % 2 ^ 16))) ∧
    (EReady g c 0x94 e0 one3 sh e → e.immU < n → s.q7Src g c = .ok s1 q →
      s.EndsE (.vins e0) g c s1 fun x => x.writeElems e.d t.w ((List.range n).map fun p =>
        if p == e.immU && enabled (c.guard e) t.w p then some (t.code (q.toNat % 2 ^ t.w)) else none)) ∧
    (EReady g c 0x93 e0 one3 sh e → e.immU < n → s.vSrc g c e.asrc e.a = .ok s1 av → (s.ctxOf g c).queues.full 6 = false →
      s.EndsE (.vext e0) g c s1 fun x => x.pushQ6 (BitVec.ofNat 64
        (match t with
         | .i w => toN 64 (toI w ((pattern e (blockElems t.w av)).getD e.immU 0))
         | _ => t.code ((pattern e (blockElems t.w av)).getD e.immU 0))))

/-- R48, R49, R188-R191: compress, expand, scan, reduce, the k greatest, and a push of a whole block, each complete where its source
is there. vtopk keeps the first k of the enabled elements by rank, an equal rank by lower position. -/
def Obligations.RearrangeResult : Prop :=
  ∀ (s : State) (g : Machine.Group) (c : Ctx) (e0 e : EArgs) (sh : EShape), s.Acts g c → s.SrcReady g c e.asrc e.a →
    let t := c.srcTy sh e
    let n := 4096 / t.w
    ∃ (s1 : State) (av : Block), s.vSrc g c e.asrc e.a = .ok s1 av ∧
    let a := pattern e (t.elems av)
    (EReady g c 0x96 e0 one3 sh e →
      let kept := (a.zipIdx.filter fun x => enabled (c.guard e) t.w x.2).map (·.1)
      s.EndsE (.vcompress e0) g c s1 fun x =>
        x.writeElems e.d t.w ((kept ++ List.replicate (n - kept.length) 0).map some)) ∧
    (EReady g c 0x97 e0 one3 sh e →
      s.EndsE (.vexpand e0) g c s1 fun x => x.writeElems e.d t.w ((List.range n).map fun p =>
        if enabled (c.guard e) t.w p then some (a.getD ((List.range p).countP (enabled (c.guard e) t.w)) 0) else none)) ∧
    (let l := redInput (c.guard e) e.b.toNat t a
     (EReady g c 0x98 e0 one3 sh e →
       let r := scanAll e.b.toNat t (Nat.log2 n) 1 (l, 0)
       s.EndsE (.vscan e0) g c s1 fun x => (x.writeElems e.d t.w (r.1.map some)).flags r.2) ∧
     (EReady g c 0x99 e0 one3 sh e →
       let r := redTree e.b.toNat t (Nat.log2 n) (l, 0)
       s.EndsE (.vred e0) g c s1 fun x =>
         (x.writeElems e.d t.w ((r.1.headD 0 :: List.replicate (n - 1) 0).map some)).flags r.2)) ∧
    (EReady g c 0x9A e0 (fun _ _ => (2, 1, 1)) sh e → ∃ top : List (Nat × Nat × Nat),
      top.length = min e.immU ((a.zipIdx.filter fun x => enabled (c.guard e) t.w x.2).length) ∧
      (top.map fun (x : Nat × Nat × Nat) => x.2.1).Nodup ∧
      (∀ x ∈ top, a[x.2.1]? = some x.2.2 ∧ enabled (c.guard e) t.w x.2.1 = true ∧ x.1 = topRank t x.2.2) ∧
      top.Pairwise (fun x y => y.1 < x.1 ∨ (y.1 = x.1 ∧ x.2.1 < y.2.1)) ∧
      (∀ (p v : Nat), a[p]? = some v → enabled (c.guard e) t.w p = true → (∀ x ∈ top, x.2.1 ≠ p) →
        ∀ x ∈ top, topRank t v < x.1 ∨ (topRank t v = x.1 ∧ x.2.1 < p)) ∧
      s.EndsE (.vtopk e0) g c s1 fun x =>
        (x.writeElems e.d t.w ((top.map (fun (x : Nat × Nat × Nat) => x.2.2) ++ List.replicate (n - top.length) 0).map
          some)).writeElems (e.d + 1) t.w
          ((top.map (fun (x : Nat × Nat × Nat) => x.2.1) ++ List.replicate (n - top.length) (2 ^ t.w - 1)).map some)) ∧
    (EReady g c 0x9D e0 one3 sh e → c.queues.full (e.d.toNat % 6) = false →
      s.EndsE (.vpush e0) g c s1 fun x =>
        x.pushBlock (Fin.ofNat 6 e.d.toNat) (blockOf 32 (pattern e (blockElems 32 av))))

/-- R113, R125, R167: an elementwise instruction on registers changes its own context and the counters of its core alone; in its
context no x, g or k register, no queue, no pointer, no CSR but FFLAGS, and no v register but its destination. -/
def Obligations.ElementwiseFrame : Prop :=
  ∀ (s : State) (g : Machine.Group) (c : Ctx) (i : Instr) (op : Nat) (e0 e : EArgs) (sh : EShape) (f : ElemFn),
    s.Acts g c → mapRule i = some (op, e0, f) → EReady g c op e0 one3 sh e → e.asrc = 0 → e.bsrc = 0 → s.Calm g.core →
    c.lag = [] →
    ∃ t c', exec i s = .next t ∧ OnlyContext s t g c ∧ t.cx g.id c.num = some c' ∧ (∀ a, t.byteAt a = s.byteAt a) ∧
      c'.r.x = c.r.x ∧ c'.r.g = c.r.g ∧ c'.r.k = c.r.k ∧ c'.queues = c.queues ∧ c'.pcA = c.pcA ∧
      c'.csr = { c.csr with fflags := c'.csr.fflags } ∧ ∀ r, r ≠ e.d → c'.readV r = c.readV r

/-- R193-R197: the k registers, and the block and single-lane accesses of the scratch memory: a load writes the enabled elements,
a store writes the enabled words at their lanes' addresses. That a pattern on vldsx applies to B (log 95, DEDUCED), and that vstsx takes
its base before an advance of the same pointer (log 99, DESIGN CHOICE), are the model's choices. -/
def Obligations.ScratchResult : Prop :=
  ∀ (s s1 : State) (g : Machine.Group) (c : Ctx) (e0 e : EArgs) (sh : EShape), s.Acts g c →
    (∀ k addr stride hint, s.EndsE (.kset k addr stride hint) g c s fun x => x.writeK k addr.toNat stride.toNat) ∧
    (EReady g c 0xA1 e0 one3 sh e → c.queues.q6.length < 16 →
      s.EndsE (.kget e0) g c s fun x => x.pushQ6 (BitVec.ofNat 64 ((c.readK (e.a.setWidth 3)).toNat % 2 ^ 48))) ∧
    (EReady g c 0xA2 e0 one3 sh e → ∀ b, s.kRead g c (e.a.setWidth 3) = .ok s1 b →
      s.EndsE (.vlds e0) g c s1 fun x => x.writeElems e.d (c.srcTy sh e).w
        ((blockElems (c.srcTy sh e).w b).zipIdx.map fun y => if enabled (c.guard e) (c.srcTy sh e).w y.2 then some y.1 else none)) ∧
    (EReady g c 0xA3 e0 one3 sh e → ∀ av s2, s.vSrc g c e.asrc e.a = .ok s1 av →
      s1.kWrite g c (e.d.setWidth 3) (c.guard e)
        (blockOf (c.srcTy sh e).w (pattern e (blockElems (c.srcTy sh e).w av))) = .ok s2 () →
      exec (.vsts e0) s = .next (s2.endsE g c (inRegion c.pcE (Instr.vsts e0).size))) ∧
    (EReady g c 0xA4 e0 one3 sh e → ∀ bv l, s.vSrc g c e.bsrc e.b = .ok s1 bv → (s1.ctxOf g c).loose = [] →
      (∀ y ∈ l, ∀ x ∈ wordsOf y.2 4, alGet s1.olds x = none) →
      lanesOf g (c.guard e) (c.kAddr (e.a.setWidth 3)) (pattern e (blockElems 32 bv)).zipIdx = .ok l →
      s1.lanesCheck c .read (c.kAddr (e.a.setWidth 3)) (pattern e (blockElems 32 bv)) l = none →
      ∃ t : State, t.mem = s1.mem ∧
        ((∀ r ∈ s1.rels, ∀ y ∈ l, r.var < y.2 ∨ y.2 + 4 ≤ r.var) → t.groups = s1.groups) ∧ s.EndsE (.vldsx e0) g c t fun x =>
        x.writeElems e.d 32 ((List.range 128).map fun i => (l.find? fun y => y.1 == i).map fun y => s1.rd y.2 4)) ∧
    (EReady g c 0xA5 e0 one3 sh e → ∀ a b l, readAB s g c sh e (.n 32) = .ok s1 (a, b) →
      lanesOf g (c.guard e) (c.kAddr (e.d.setWidth 3)) b.zipIdx = .ok l →
      s1.lanesCheck c .write (c.kAddr (e.d.setWidth 3)) b l = none →
      exec (.vstsx e0) s = .next ((s1.storeWords g c (l.map fun y => (y.2 / 4, a.getD y.1 0))).endsE g c
        (inRegion c.pcE (Instr.vstsx e0).size)))

/-- R126, R196: a single-lane access of which some enabled lane's address is no multiple of 4 takes cause 0x15; else one of which some
lies in the register window, cause 0x05; else one of which some lies outside scratch and cluster memory, cause 0x12. TVAL is the
address of the lowest such lane, the model's choice (log 34, DEDUCED), and no lane takes effect. -/
def Obligations.LaneTraps : Prop :=
  ∀ (s s1 : State) (g : Machine.Group) (c : Ctx) (e0 e : EArgs) (sh : EShape) (cause la : Nat), s.Acts g c →
    (EReady g c 0xA4 e0 one3 sh e → ∀ bv, s.vSrc g c e.bsrc e.b = .ok s1 bv →
      LaneTrap g (c.guard e) (c.kAddr (e.a.setWidth 3)) (pattern e (blockElems 32 bv)) cause la →
      exec (.vldsx e0) s = .next (s.trapsE g c cause (BitVec.ofNat 64 la))) ∧
    (EReady g c 0xA5 e0 one3 sh e → ∀ a b, readAB s g c sh e (.n 32) = .ok s1 (a, b) →
      LaneTrap g (c.guard e) (c.kAddr (e.d.setWidth 3)) b cause la →
      exec (.vstsx e0) s = .next (s.trapsE g c cause (BitVec.ofNat 64 la)))

/-- R132, R133, R198: rep makes the next N class-E instructions the body of COUNT passes; with N or COUNT out of range, or a
control-flow instruction or another rep in the body, it takes cause 0x06 with the address at fault in TVAL. That it looks
at the whole body first, and waits while a page of it is not mapped or its bank busy, is the model's choice (log 20, DESIGN CHOICE). -/
def Obligations.RepResult : Prop :=
  ∀ (s : State) (g : Machine.Group) (c : Ctx) (n : BitVec 5) (count : BitVec 13) (stride : BitVec 5), s.Acts g c →
    let ok := 1 ≤ n.toNat ∧ n.toNat ≤ 16 ∧ 1 ≤ count.toNat ∧ count.toNat ≤ 4096
    let next := inRegion c.pcE 8
    let back := s.updCtx g.id c.num fun x => { x with seqA := x.seqE }
    (ok → s.repScan g c repFuel n.toNat (c.seqE + 1) next = .clear →
      let r : Rep := { body := next, seq := c.seqE + 1, n := n.toNat, count := count.toNat, stride := stride.toNat, pass := 0,
                       idx := 0 }
      exec (.rep n count stride) s = .next ((s.updCtx g.id c.num fun x => ({ x with rep := some r } : Ctx).nextE next).count
        g.core 3 1 g.vf c.csr.mode)) ∧
    (¬ok → exec (.rep n count stride) s = .next (back.takeTrap g.id c.num 0x06 c.pcE c.pcE c.pcE)) ∧
    (∀ pc, ok → s.repScan g c repFuel n.toNat (c.seqE + 1) next = .bad pc →
      exec (.rep n count stride) s = .next (back.takeTrap g.id c.num 0x06 pc c.pcE c.pcE)) ∧
    (∀ s1 va m, ok → s.repScan g c repFuel n.toNat (c.seqE + 1) next = .page s1 va m →
      exec (.rep n count stride) s = .next ((s1.hold g c true (BitVec.ofNat 64 va) m).waitsE g c .page)) ∧
    (∀ s1 bank, ok → s.repScan g c repFuel n.toNat (c.seqE + 1) next = .busy s1 bank →
      exec (.rep n count stride) s = .next ((s1.bankWaitE g c bank).waitsE g c .bank))

/-- R132: after j instructions of the execute stream under a rep of N instructions and COUNT passes, the pass is j / N and the
place j mod N; after N times COUNT of them the rep is over. -/
def Obligations.RepCounts : Prop :=
  ∀ (c : Ctx) (r : Rep) (j : Nat), c.rep = some r → r.pass = 0 → r.idx = 0 → 0 < r.n → 0 < r.count → j ≤ r.n * r.count →
    (Nat.repeat Ctx.repStep j c).rep =
      if j = r.n * r.count then none else some { r with pass := j / r.n, idx := j % r.n }

/-- R199-R203, R276: zmov writes the accumulators of a tile's row rounded to its type and pushes the tile's count; zset enters a
command into the matrix engine's queue, at once or once it has waited for a place (log 82); vtex writes texels and their status words; vwind writes coverage as bytes. -/
def Obligations.TileTextureCoverage : Prop :=
  ∀ (s s1 : State) (g : Machine.Group) (c : Ctx) (e0 e : EArgs) (sh : EShape), s.Acts g c →
    (∀ t : Nat, EReady g c 0xA7 e0 one3 sh e → g.tiles[e.a.toNat]? = some t → e.a.toNat < kAcc g.kobj →
      s.tilePending g t = false → c.queues.q6.length < 16 →
      let tl := s.tile (clusterOf g.core) t
      let w := if e.fn == 0 || e.fn == 7 then 32 else 16
      let r := elemResults w 128 (c.guard e) fun p =>
        zmovElem e.fn.toNat (e.immU / 128) (if tl.count == 0 then 0 else tl.window) (tl.at (e.immU % 128) p)
      s.EndsE (.zmov e0) g c (s.updGroup g.id fun x => { x with handed := alDel x.handed t }) fun x =>
        ((x.writeElems e.d w r.1).flags r.2).pushQ6 (BitVec.ofNat 64 tl.count)) ∧
    (∀ t : Nat, EReady g c 0xA8 e0 one3 sh e → g.tiles[e.d.toNat]? = some t → e.d.toNat < kAcc g.kobj →
      let cl := clusterOf g.core
      let asked := askedAt c.askE cl .mxe
      let goes := fun (s1 : State) (j : Job) => ∃ u : State, u = s1.enter cl .mxe false j ∧
        exec (.zset e0) s = .next (u.endsE g c (inRegion c.pcE (Instr.zset e0).size)) ∧
        (u.jobs cl .mxe).length = (s1.jobs cl .mxe).length + 1 ∧ (∀ y ∈ s1.jobs cl .mxe, y ∈ u.jobs cl .mxe) ∧
        ∃ k ∈ u.jobs cl .mxe, k.cmd = j.cmd ∧ k.senders = j.senders ∧ k.arrived = s1.cyc ∧ k.phase = .queued
      (s.mayEnter cl .mxe g asked = true →
        (e.fn = 0 → goes s (zJob s g c (.zclr t))) ∧
        (e.fn ≠ 0 → ∀ av, s.vSrc g c e.asrc e.a = .ok s1 av →
          goes s1 (zJob s1 g c (.zrow t (e.immU % 128) (blockOf 32 (pattern e (blockElems 32 av))))))) ∧
      (s.mayEnter cl .mxe g asked = false → exec (.zset e0) s =
        .next ((s.updCtx g.id c.num fun x => { x with askE := s.askFor asked cl .mxe }).waitsE g c (.other false)))) ∧
    (∀ a b s2 desc s3 l, EReady g c 0xA9 e0 (fun _ _ => (2, 1, 1)) sh e → readAB s g c sh e (.n 32) = .ok s1 (a, b) →
      s1.texRead g c (e.immU % 16) = .ok (s2, desc) →
      s2.texLanes g c (c.guard e) (texDesc desc) (e.immU / 16 % 16)
        ((a.zip b).zipIdx.map fun y => (y.1.1, y.1.2, y.2)) = .ok (s3, l) →
      s.EndsE (.vtex e0) g c s3 fun x => (x.writeElems e.d 32 (l.map fun r => r.map (·.1))).writeElems (e.d + 1) 32
        (l.map fun r => r.map (·.2))) ∧
    (∀ a b, EReady g c 0xAA e0 one3 sh e → readAB s g c sh e (.n 32) = .ok s1 (a, b) →
      s.EndsE (.vwind e0) g c s1 fun x => x.writeElems e.d 8
        ((a.zipIdx.map fun y => if (c.guard e).getLsbD y.2 then some (windAlpha (e.fn == 1) y.1) else none) ++
          List.replicate 384 (some 0)))


/-! ### Class X: atomics, ordering, barriers -/

/-- R284-R286: an atomic at a place of memory reads its old value and writes the new one to its bytes; a compare-and-swap that finds
another value writes nothing; every other byte of memory stays as it is. -/
def Obligations.AtomicMemory : Prop :=
  ∀ (s : State) (g : Machine.Group) (c : Ctx) (w : Who) (key die n : Nat) (tr : Bool) (e : Option Nat) (op : LogOp) (operand : Nat),
    Inv s → s.Calm g.core → s.Quiet → s.NoHead key n →
    (match op with | .amo _ w64 | .cas w64 _ => n = (if w64 then 8 else 4) | _ => True) →
    let r := s.actAt g c w (.mem key die tr e) n op operand
    r.2.1 = s.rd key n ∧ r.2.2 = (atomRule op operand (s.rd key n)).isSome ∧
      ∀ a, r.1.byteAt a = match atomRule op operand (s.rd key n) with
        | none => s.byteAt a
        | some v => if key ≤ a ∧ a < key + n then leByte v (a - key) else s.byteAt a

/-- R284-R288: the atomics and the ordered accesses: a release's waits come first; the register gets the old value sign-extended,
and an acquire part acquires the variable; an operation with no register result that its page's fault has put into the side log
ends as well. -/
def Obligations.AtomicResult : Prop :=
  ∀ (s s1 : State) (g : Machine.Group) (c : Ctx) (w64 : Bool) (op : AmoOp) (ord : MemOrd) (sc : Scope) (d a b : BitVec 5)
    (o : OpBSM) (w : BitVec 16) (r : AtomOut), s.Acts g c →
    let n := bytesOf w64
    let W := widthOf w64
    let v := (c.readX b).toNat
    let rel := if ord = .rel ∨ ord = .acqrel then some sc else none
    let acq := if ord = .acq ∨ ord = .acqrel then some sc else none
    let logs := d == 0 && acq.isNone
    let rx := rel.isNone && acq.isNone
    let fin := fun (acq : Option Scope) => match r with
      | none => s1
      | some (key, tick, old) =>
        (s1.updCtx g.id c.num fun x => x.writeX d (n64 (toI W old))).acqPart g c key n tick acq
    (s.atomicA g c (c.readX a) n .rw (.amo op w64) v (d == 0) true none = .ok s1 r → s.DoneA (.amo w64 op d a b) g c (fin none)) ∧
    (s.atomicA g c (c.readX a) n .rw (.cas w64 (c.readX d)) v (d == 0) true none = .ok s1 r →
      s.DoneA (.cas w64 d a b) g c (fin none)) ∧
    ((rel.isSome = true → s.GateOpen g c) → s.atomicA g c (c.readX a) n .rw (.amo op w64) v logs rx rel = .ok s1 r →
      s.DoneA (.amoOrdered w64 op ord sc d a b) g c (fin acq)) ∧
    ((rel.isSome = true → s.GateOpen g c) → s.atomicA g c (c.readX a) n .rw (.cas w64 (c.readX d)) v logs rx rel = .ok s1 r →
      s.DoneA (.casOrdered w64 ord sc d a b) g c (fin acq)) ∧
    (s.atomicA g c (c.readX a) 16 .rw (.wacc (toI 16 (c.readX d).toNat)) (v % 2 ^ 32) true true none = .ok s1 r →
      s.DoneA (.wacc d a b) g c s1) ∧
    (s.atomicA g c (c.readX a) 16 .rw (.wacc w.toInt) (v % 2 ^ 32) true true none = .ok s1 r → s.DoneA (.waccImm w a b) g c s1) ∧
    (s.GateOpen g c → s.atomicA g c (inRegion (c.readX a) (c.opBSM o).toInt) n .w (.release sc (c.relTag + 1))
      ((c.readX d).toNat % 2 ^ W) true false (some sc) = .ok s1 r → s.DoneA (.strel w64 sc d a o) g c s1) ∧
    (∀ v key, s.loadA g c (inRegion (c.readX a) (c.opBSM o).toInt) n n .atomic = .ok s1 v →
      s.varAt g c (inRegion (c.readX a) (c.opBSM o).toInt) n = some key →
      s.DoneA (.ldacq w64 sc d a o) g c
        ((s1.updCtx g.id c.num fun x => x.writeX d (n64 (toI W v))).acquireVar g.id c.num key n s1.tick sc))

/-- R288, R289: a fence releases, acquires what the early reads of its region have read, and starts a region; an xfence adds its
entry between the two path sets and ends the region of its context. -/
def Obligations.FenceResult : Prop :=
  ∀ (s : State) (g : Machine.Group) (c : Ctx), s.Acts g c →
    (∀ sc, s.GateOpen g c → s.DoneA (.fence sc) g c
      (((s.updCtx g.id c.num Ctx.release).acquireEarly g c sc c.earlyReads).updCtx g.id c.num fun x =>
        { x with fenceRel := some (sc, c.relTag + 1), earlyReads := [] })) ∧
    (∀ src dst, ∃ t : State, s.DoneA (.xfence src dst) g c (t.updCtx g.id c.num fun x =>
        ({ x with accA := x.accA + 1, ahead := x.ahead.filter (fun y => x.seqE ≤ y.1) ++ [(x.seqA, s.tick + 1)] } : Ctx).endRegion) ∧
      t.mem = s.mem ∧ t.groups = s.groups ∧ t.fences.length = s.fences.length + 1 ∧
      (∀ f, t.fences.getLast? = some f → f.src = src ∧ f.dst = dst ∧ f.sync = c.sync))

/-- R281, R290, R291: the barriers. At .ln an arrival counts, nothing is waited for, and the region ends. Above, bar and barv wait once
they have arrived and end when their phase is complete; the split forms arrive with the phase in a register, and wait for one that
has been arrived at, taking cause 0x01 for any other. -/
def Obligations.BarrierResult : Prop :=
  ∀ (s : State) (g : Machine.Group) (c : Ctx) (mx : Bool) (d a : BitVec 5), s.Acts g c →
    let ln := fun (f : Ctx → Ctx) => (s.countArrival g c .ln).updCtx g.id c.num fun x => (f x).endRegion
    s.DoneA (.bar .ln) g c (ln id) ∧
    s.DoneA (.barv mx .ln d a) g c (ln fun x => x.writeX d (x.readX a)) ∧
    s.DoneA (.barwArr .ln d) g c (ln fun x => x.writeX d (BitVec.ofNat 64 c.arrLn)) ∧
    ((c.readX a).toNat < c.arrLn → s.DoneA (.barwWt .ln a) g c (s.updCtx g.id c.num Ctx.endRegion)) ∧
    (c.arrLn ≤ (c.readX a).toNat → c.drained = true →
      exec (.barwWt .ln a) s = .next (s.trapsA g c 0x01 (firstParcel (.barwWt .ln a)))) ∧
    (∀ sc bid p sc', sc ≠ .ln → (sc = .co ∨ c.num = 0) → s.barIdOf g sc = some bid →
      (c.barWait = some (sc', p) → p < (s.barrier bid).complete →
        s.DoneA (.bar sc) g c (s.endWait g c bid p) ∧
        s.DoneA (.barv mx sc d a) g c ((s.endWait g c bid p).updCtx g.id c.num fun x =>
          x.writeX d (combined mx ((s.barrier bid).arrivals.filter fun y => y.atPhase p)))) ∧
      (c.barWait = none → s.GateOpen g c → ¬arrivals g c sc < (s.barrier bid).complete →
        exec (.bar sc) s = .next (((s.arrive g c sc bid none).updCtx g.id c.num fun x =>
          { x with barWait := some (sc, arrivals g c sc) }).waitsA g c (.other true)) ∧
        exec (.barv mx sc d a) s = .next (((s.arrive g c sc bid (some (c.readX a))).updCtx g.id c.num fun x =>
          { x with barWait := some (sc, arrivals g c sc) }).waitsA g c (.other true))) ∧
      (s.GateOpen g c → s.DoneA (.barwArr sc d) g c ((s.arrive g c sc bid none).updCtx g.id c.num fun x =>
        x.writeX d (BitVec.ofNat 64 (arrivals g c sc)))) ∧
      ((c.readX a).toNat < arrivals g c sc → (c.readX a).toNat < (s.barrier bid).complete →
        s.DoneA (.barwWt sc a) g c (s.endWait g c bid (c.readX a).toNat)) ∧
      ((c.readX a).toNat < arrivals g c sc → ¬(c.readX a).toNat < (s.barrier bid).complete →
        exec (.barwWt sc a) s = .next (s.waitsA g c (.other true))) ∧
      (arrivals g c sc ≤ (c.readX a).toNat → c.drained = true →
        exec (.barwWt sc a) s = .next (s.trapsA g c 0x01 (firstParcel (.barwWt sc a)))))

/-- R292, R293: wfe with an empty mask writes 0; else it waits until a line of its mask is raised and takes the raised lines of its
mask, which it clears. sev raises a line of a core that runs a group of its own virtual function, and takes cause 0x12 for any
other core. -/
def Obligations.EventLineResult : Prop :=
  ∀ (s : State) (g : Machine.Group) (c : Ctx) (d a b : BitVec 5), s.Acts g c →
    (c.readX a = 0 → s.EndsA (.wfe d a) g c s fun x => x.writeX d 0) ∧
    (c.readX a ≠ 0 → ((s.core g.core).pending ||| c.evGot) &&& c.readX a = 0 →
      exec (.wfe d a) s = .next ((s.updCtx g.id c.num fun x => { x with evWait := c.readX a }).waitsA g c (.other true))) ∧
    (((s.core g.core).pending ||| c.evGot) &&& c.readX a ≠ 0 → ∃ t : State,
      s.EndsA (.wfe d a) g c t (fun x => x.writeX d (((s.core g.core).pending ||| c.evGot) &&& c.readX a)) ∧
      (t.core g.core).pending = (s.core g.core).pending &&& ~~~(c.readX a) ∧ t.mem = s.mem ∧
      (∀ k, k ≠ g.core → t.core k = s.core k)) ∧
    (∀ h, (c.readX b).toNat < 64 → (c.readX a).toNat ≤ 2047 → s.groupOn? (c.readX a).toNat = some h → h.vf = g.vf →
      s.DoneA (.sev a b) g c (s.raiseLine (c.readX a).toNat (c.readX b).toNat)) ∧
    ((c.readX b).toNat < 64 → c.drained = true →
      (2047 < (c.readX a).toNat ∨ (∀ h, s.groupOn? (c.readX a).toNat = some h → h.vf ≠ g.vf)) →
      exec (.sev a b) s = .next (s.trapsA g c 0x12 (firstParcel (.sev a b))))

/-- R82, R83: setcnt writes a counter's word, deccnt takes one from it and gives the value before, and takes cause 0x18 where it is 0;
both release. tsbret marks a tile of a grid retired, once. -/
def Obligations.CounterResult : Prop :=
  ∀ (s : State) (g : Machine.Group) (c : Ctx) (d a b : BitVec 5) (p : Spot) (key : Nat), s.Acts g c → s.GateOpen g c →
    let ea := c.readX a
    let w := c.release.who false pathCore
    let kept := fun (right : Right) => s.tried g c ea 16 16 right
    let after := fun (right : Right) (use : Use) (n : Nat) (f : Ctx → Ctx) (i : Instr) =>
      s.AdmitsX g c ea 16 right .atomic w p key →
      s.EndsA i g c (((((kept right).updCtx g.id c.num Ctx.release).noteX g c ea w .atomic p 16 (bytesOfNat 4 n) use).relAt g c.sync.agent
        (c.relTag + 1) .pk key).putCount g.vf key ea.toNat n (c.sync.acq ++ c.sync.bars)) f
    after .w (.write 0) ((c.readX b).toNat % 2 ^ 32) (fun x => x) (.setcnt a b) ∧
    ((kept .rw).rd key 4 ≠ 0 → after .rw .both ((kept .rw).rd key 4 - 1)
      (fun x => x.writeX d (BitVec.ofNat 64 ((kept .rw).rd key 4))) (.deccnt d a)) ∧
    ((kept .rw).rd key 4 = 0 → s.AdmitsX g c ea 16 .rw .atomic w p key →
      exec (.deccnt d a) s = .next ((kept .rw).trapsA g c 0x18 (firstParcel (.deccnt d a)))) ∧
    (∀ l, s.launch? g.launch = some l →
      (l.kind ≠ 2 ∨ g.tileRetired = true → s.DoneA .tsbret g c s) ∧
      (l.kind = 2 → g.tileRetired = false → s.DoneA .tsbret g c
        (((s.updCtx g.id c.num Ctx.release).updGroup g.id fun x => { x with tileRetired := true }).updLaunch g.launch
          fun x => { x with retired := x.retired ++ [g.index] })))

/-- R68: slotadv moves a slot's tag from the state its operation needs to the next one and gives the old state; in any other state
it takes cause 0x1A and the tag stays. publish and free release, claim and take acquire. -/
def Obligations.SlotResult : Prop :=
  ∀ (s : State) (g : Machine.Group) (c : Ctx) (op : SlotOp) (d a : BitVec 5) (p : Spot) (key : Nat), s.Acts g c →
    let src := match op with | .claim => 0 | .publish => 1 | .take => 2 | .free => 3
    let rel := op = .publish ∨ op = .free
    let w := (if rel then c.release else c).who false pathCore
    let s0 := s.tried g c (c.readX a) 1 1 .rw
    let old := s0.rd key 1
    let tag := [BitVec.ofNat 8 (tagPut old ((src + 1) % 4))]
    (rel → s.GateOpen g c) → s.AdmitsX g c (c.readX a) 1 .rw .tag w p key →
    let s1 := ((s0.noteX g c (c.readX a) w .tag p 1 tag .both).store key tag).updCtx g.id c.num fun x =>
      x.writeX d (BitVec.ofNat 64 (old % 4))
    let rels := (s1.updCtx g.id c.num Ctx.release).relAt g c.sync.agent (c.relTag + 1) .pk key
    (old % 4 = src → s.DoneA (.slotadv op d a) g c
      (match op with
       | .publish => rels.notePublish key (c.sync.acq ++ c.sync.bars)
       | .free => rels
       | _ => s1.acquireVar g.id c.num key 1 s0.tick .pk)) ∧
    (old % 4 ≠ src → c.drained = true → exec (.slotadv op d a) s = .next (s0.trapsA g c 0x1A (firstParcel (.slotadv op d a))))

/-- R271-R274: an ordered section. A reservation adds a key once. The entry, its check of the reservation made once, is granted when
the group is the key's next: the group then holds the key, its phase of reservations is closed, it has acquired the key's last release,
and it gets whether the key was abandoned, a mark that is cleared; else it waits, committed, and the check is not repeated. The leave
releases and frees the key. -/
def Obligations.SectionResult : Prop :=
  ∀ (s s0 : State) (g : Machine.Group) (c : Ctx) (d a : BitVec 5) (k : Nat), s.Acts g c →
    (∀ r, withKey s g c (c.readX a) r = r s0 k) → s0 = s.tried g c (c.readX a) 4 4 .w →
    let s1 := if g.reserves k then s0 else s0.reserve g.id k (c.readX a)
    let enters := fun (w : State) (k : Nat) => ∀ s2 s3 : State,
      s2 = w.updGroup g.id (fun x => { x with closed := true }) →
      s3 = (if (s2.keySt k).holder = some g.id ∨ g.id ∈ (s2.keySt k).waiting then s2
        else s2.updKey k fun x => { x with waiting := x.waiting ++ [g.id] }).grantKey k →
      ((s3.keySt k).holder = some g.id → g.holds k = false → ∃ t : State,
        t = (s3.updKey k fun x => { x with abandoned := false }).updGroup g.id (fun x =>
          { x with keys := if x.reserves k = true then x.keys.map fun (y : Key) => if y.key = k then { y with held := true } else y
                           else x.keys ++ [{ key := k, ptr := c.readX a, held := true }] }) ∧
        s.EndsA (.ordent d a) g c (t.acquireVar g.id c.num k 4 s3.tick .pk) (fun x =>
          x.writeX d (if (s3.keySt k).abandoned then 1 else 0)) ∧
        (t.keySt k).abandoned = false ∧ (t.keySt k).holder = some g.id ∧
        ∃ g', t.group? g.id = some g' ∧ g'.holds k = true ∧ g'.closed = true) ∧
      ((s3.keySt k).holder ≠ some g.id ∨ g.holds k = true → exec (.ordent d a) s =
        .next ((s3.updCtx g.id c.num fun x => { x with entering := some k }).waitsA g c (.other true)))
    (g.noKey = false → s.DoneA (.ordentRsv a) g c s1) ∧
    (g.noKey = true → c.drained = true → exec (.ordentRsv a) s = .next (s0.trapsA g c 0x01 (firstParcel (.ordentRsv a)))) ∧
    (c.entering = none → g.reserves k = true ∨ g.noKey = false → enters s1 k) ∧
    (c.entering = none → g.reserves k = false → g.noKey = true → c.drained = true →
      exec (.ordent d a) s = .next (s0.trapsA g c 0x01 (firstParcel (.ordent d a)))) ∧
    (∀ j, c.entering = some j → enters s j) ∧
    (g.reserves k = false → s.DoneA (.ordlv a) g c s0) ∧
    (g.reserves k = true → s0.GateOpen g c → s.DoneA (.ordlv a) g c
      (((s0.updCtx g.id c.num Ctx.release).freeKey g.id k false).relAt g c.sync.agent (c.relTag + 1) .pk k))

/-- R294, R295: phcrd reads the device clock; trel, its release made and its entries read, arms a set of stores for a later time and
gives 0, or performs them and gives 1 where the time is not at least 5 us ahead. It waits while four are armed, and takes cause 0x01
for a time or a device number out of range. That stores which come too late to be armed wait with the armed ones where one of them
meets a tensor that moves is the model's choice (log 112, DESIGN CHOICE). -/
def Obligations.ClockResult : Prop :=
  ∀ (s s0 s1 : State) (g : Machine.Group) (c : Ctx) (n d a b : BitVec 5) (tag : Nat), s.Acts g c →
    (∀ sec, s.EndsA (.phcrd sec d) g c s fun x => x.writeX d (if sec then BitVec.ofNat 64 s.phcSec else s.phcWord)) ∧
    ((c.readX b).toNat % 2 ^ 32 < 1000000000 → s.Released g c s0 tag →
      s0.trelList g (s0.ctxOf g c) (c.readX a) (n.toNat - ((s0.ctxOf g c).listed.getD []).length) = .ok s1 () →
      let l := (s1.ctxOf g c).listed.getD []
      let t : Trel := { core := g.core, vf := g.vf, time := timeNs (c.readX b), entries := l, bndt := c.csr.bndt, sync := c.sync,
                        tag := tag, loc := g.loc }
      ((∃ e ∈ l, 2 ^ 16 ≤ e.1) → c.drained = true →
        exec (.trel n d a b) s = .next (s1.trapsA g c 0x01 (firstParcel (.trel n d a b)))) ∧
      ((∀ e ∈ l, e.1 < 2 ^ 16) →
        (s1.armed g.core < 4 → s1.clockNs + 5000 ≤ timeNs (c.readX b) →
          s.EndsA (.trel n d a b) g c (s1.arm t) fun x => x.writeX d 0) ∧
        (s1.armed g.core < 4 → timeNs (c.readX b) < s1.clockNs + 5000 →
          s.EndsA (.trel n d a b) g c (if s1.trelMoves t then s1.arm t else s1.trelAll t 0) fun x => x.writeX d 1) ∧
        (4 ≤ s1.armed g.core → exec (.trel n d a b) s = .next (s1.waitsA g c (.other true))))) ∧
    (1000000000 ≤ (c.readX b).toNat % 2 ^ 32 → c.drained = true →
      exec (.trel n d a b) s = .next (s.trapsA g c 0x01 (firstParcel (.trel n d a b))))

/-! ### Class X: jobs and launches -/

/-- R230-R235, R282: emsg, its release made, pops q4, takes a free job record and gives its id; the record is busy with its sequence
number. The message becomes a queued job of its engine, or its context one more sender of a job that it merges with. A mesh address
with reserved bits, or of no engine, makes no job: the record is done at once with status 0x01, and the event line is raised. It
waits for q4, for a record, and for room; that it asks for a place and waits where those left might not do for one cycle's messages is
the model's choice (log 82, DESIGN CHOICE). -/
def Obligations.MessageResult : Prop :=
  ∀ (s s0 : State) (g : Machine.Group) (c : Ctx) (d a b : BitVec 5) (tag : Nat), s.Acts g c →
    (c.headBlock 4 = none → exec (.emsg d a b) s = .next (s.waitsA g c (.queue 4 true))) ∧
    (s.Released g c s0 tag → c.headBlock 4 ≠ none → g.freeRecord = none →
      exec (.emsg d a b) s = .next (s0.waitsA g c (.other true))) ∧
    ∀ (q : QBlock) (r : Nat), s.Released g c s0 tag → c.headBlock 4 = some q → g.freeRecord = some r →
      let x := c.readX a
      let cl := bits x.toNat 15 8
      let e := engOf (x.toNat % 16)
      let m := messageOf q.data (if b = 0 then none else some (c.readX b))
      let sq := ((s0.core g.core).jobSeq + 1) % 1024
      let jid := sq * 64 + r
      let asked := askedAt c.askA cl e
      let tile := (tileNamed e m).map fun t => (cl, t)
      let record := fun (done : Option Word) (agent : Nat) (tile : Option (Nat × Nat)) =>
        ({ busy := true, seq := sq, done := done, agent := agent, tile := tile } : JobRec)
      let sent := fun (j : JobRec) =>
        ({ (((s0.updCtx g.id c.num fun z => (z.popBlock 4).writeX d (BitVec.ofNat 64 jid)).updGroup g.id fun z =>
             z.setJob r j).updCore g.core fun k => { k with jobSeq := sq }) with nextAgent := s0.nextAgent + 1 } : State)
      (∀ j, (∃ g', (sent j).group? g.id = some g' ∧ ∀ i : Fin 64, g'.jobs[i] = if i.val = r then j else g.jobs[i])) ∧
      (meshOk x = true → s0.mergeWith g c cl e m = none → s0.mayEnter cl e g asked = true →
        ∃ t : State, t = (sent (record none s0.nextAgent tile)).deliver g c cl e m jid
            (senderOf s0 g c m r tag s0.nextAgent) none ∧
          s.DoneA (.emsg d a b) g c t ∧ (t.jobs cl e).length = (s0.jobs cl e).length + 1 ∧
          (∀ y ∈ s0.jobs cl e, y ∈ t.jobs cl e) ∧
          ∃ j ∈ t.jobs cl e, j.id = jid ∧ j.msg = m ∧ j.cmd = cmdOf e (m.toNat % 256) ∧ j.phase = .queued ∧
            j.senders = [senderOf s0 g c m r tag s0.nextAgent]) ∧
      (∀ j, meshOk x = true → s0.mergeWith g c cl e m = some j →
        s.DoneA (.emsg d a b) g c ((sent (record none j.agent tile)).deliver g c cl e m jid
          (senderOf s0 g c m r tag j.agent) (some j))) ∧
      (meshOk x = true → s0.mergeWith g c cl e m = none → s0.mayEnter cl e g asked = false → exec (.emsg d a b) s =
        .next ((s0.updCtx g.id c.num fun z => { z with askA := s0.askFor asked cl e }).waitsA g c (.other true))) ∧
      (meshOk x = false → s.DoneA (.emsg d a b) g c
        ((sent (record (some (doneWord 0x01 0 0)) s0.nextAgent none)).raiseLine g.core (bits m.toNat 13 8)))

/-- R236, R283: jtest and jwait give a completed job's word, acquire and free its record; a stale id gives 0x80000000000000FF; an open
job gives 0 to jtest and holds jwait. -/
def Obligations.JobResult : Prop :=
  ∀ (s : State) (g : Machine.Group) (c : Ctx) (d a : BitVec 5), s.Acts g c →
    let x := (c.readX a).toNat
    let r := g.jobs[x % 64]'(by omega)
    let stale := 2 ^ 16 ≤ x ∨ r.busy = false ∨ r.seq ≠ x / 64 % 1024
    (stale → s.EndsA (.jtest d a) g c s (fun z => z.writeX d 0x80000000000000FF) ∧
      s.EndsA (.jwait d a) g c s fun z => z.writeX d 0x80000000000000FF) ∧
    (∀ w, ¬stale → r.done = some w → s.DoneA (.jtest d a) g c (s.observe g c (x % 64) r d w) ∧
      s.DoneA (.jwait d a) g c (s.observe g c (x % 64) r d w)) ∧
    (¬stale → r.done = none → s.EndsA (.jtest d a) g c s (fun z => z.writeX d 0) ∧
      exec (.jwait d a) s = .next (s.waitsA g c (.other true)))

/-- R83: launch, its release made, publishes its 128 bytes in a slot of the launch queue and gives the slot; the form that does not wait
gives all ones where there is none, the other waits. A queue that is absent, or written by the host (mode 1), takes cause 0x14. That
the slot is taken in the step that has read the record is the model's choice (log 90, DESIGN CHOICE). -/
def Obligations.LaunchResult : Prop :=
  ∀ (s s0 s1 : State) (g : Machine.Group) (c : Ctx) (nw : Bool) (d a b : BitVec 5) (h : QHead) (v tag : Nat), s.Acts g c →
    (s.qHead g.vf ((c.readX b).toNat % 2 ^ 32) = none → c.drained = true →
      exec (.launch nw d a b) s = .next (s.trapsA g c 0x14 (firstParcel (.launch nw d a b)))) ∧
    (s.qHead g.vf ((c.readX b).toNat % 2 ^ 32) = some h →
      (h.mode = 1 → c.drained = true → exec (.launch nw d a b) s = .next (s.trapsA g c 0x14 (firstParcel (.launch nw d a b)))) ∧
      (h.mode ≠ 1 → s.Released g c s0 tag →
        let n := h.widx % h.cap
        s0.unmappedAt g.vf (h.tags + n) = none → s0.unmappedAt g.vf (h.slots + 128 * n) = none →
        (s0.vWaits (h.nextSlot g.vf) = true → exec (.launch nw d a b) s = .next (s0.waitsA g c .bank)) ∧
        (s0.vWaits (h.nextSlot g.vf) = false → s0.tagAt g.vf (h.tags + n) % 4 ≠ 0 →
          (nw = true → s.EndsA (.launch nw d a b) g c s0 fun x => x.writeX d (BitVec.allOnes 64)) ∧
          (nw = false → exec (.launch nw d a b) s = .next (s0.waitsA g c (.other false)))) ∧
        (s0.vWaits (h.nextSlot g.vf) = false → s0.tagAt g.vf (h.tags + n) % 4 = 0 →
          s0.load128 g (s0.ctxOf g c) (c.readX a) 64 = .ok s1 v →
          ∀ slot s3, s1.qPublish g.vf h (bytesOfNat 128 v) (c.sync.acq ++ c.sync.bars) = some (slot, s3) →
          let s4 := s3.updCtx g.id c.num fun x => x.writeX d (BitVec.ofNat 64 slot)
          s.DoneA (.launch nw d a b) g c (s4.relAt g c.sync.agent tag .pk (s4.tagKey g.vf (h.tags + slot))))))


/-! ### Class S -/

/-- R324, R325, R312: csrr gives a CSR's value; csrw and csrx put the defined bits of a value into one that the mode may write,
csrx with the old value to its register; a write of COHMODE releases first, and the slices write back the function's lines. What has
been written reads back, BNDT without its bits [11:0] (the model's choice, log 81), and the write itself changes no byte of memory. -/
def Obligations.CsrResult : Prop :=
  ∀ (s : State) (g : Machine.Group) (c : Ctx) (n : BitVec 12) (d a : BitVec 5) (op : CsrxOp), s.Acts g c →
    let k := n.toNat
    let v := c.readX a
    let old := s.csrValue g c k
    let assigned := k ≤ 0x00A ∨ (0x010 ≤ k ∧ k ≤ 0x01F) ∨ (0x100 ≤ k ∧ k ≤ 0x109) ∨ (0x200 ≤ k ∧ k ≤ 0x20F)
    let readable := assigned ∧ ((0x100 ≤ k ∧ k ≤ 0x109 ∧ k ≠ 0x105) ∨ (0x208 ≤ k ∧ k ≤ 0x20F) → c.csr.mode = true)
    let writable := readable ∧ ¬(0x004 ≤ k ∧ k ≤ 0x00A) ∧ (k = 0x105 ∨ (0x200 ≤ k ∧ k ≤ 0x207) → c.csr.mode = true) ∧
      (k = 0x105 → s.GateOpen g c)
    let put := fun (v : Word) (s1 : State) =>
      (if k = 0x105 then (s1.updCtx g.id c.num Ctx.release).cleanSlices fun l => l.vf == g.vf else s1).csrPut g c k v
    let new := match op with | .swap => v | .set => old ||| v | .clr => old &&& ~~~v
    let back := fun (s1 : State) => s1.updCtx g.id c.num fun x => x.writeX d old
    let fits := fun (v : Word) => k = 0x100 → v.toNat % 4 = 0
    (readable → s.DoneS (.csrr d n) g c fun s1 _ => back s1) ∧
    (writable → fits v → s.DoneS (.csrw n a) g c (fun s1 _ => put v s1) ∧
      (k = 0x105 → s.DoneS (.cohmodeWrite .csrw a) g c fun s1 _ => put v s1) ∧
      (k = 0x106 → s.DoneS (.bndtWrite .csrw a) g c fun s1 _ => put v s1)) ∧
    (writable → fits new → s.DoneS (.csrx op d n a) g c (fun s1 _ => back (put new s1)) ∧
      (k = 0x105 → s.DoneS (.cohmodeWrite (.csrx op d) a) g c fun s1 _ => back (put new s1)) ∧
      (k = 0x106 → s.DoneS (.bndtWrite (.csrx op d) a) g c fun s1 _ => back (put new s1))) ∧
    (writable → ∃ g1 c1, (s.csrPut g c k v).Acts g1 c1 ∧ (∀ b, (s.csrPut g c k v).byteAt b = s.byteAt b) ∧
      (s.csrPut g c k v).csrValue g1 c1 k = BitVec.ofNat 64 (match k with
        | 0x000 => v.toNat % 2 ^ 6
        | 0x003 => v.toNat % 2 ^ 36
        | 0x105 => if v.toNat % 2 = 1 then (s.vf g.vf).why.toNat * 16 + 1 else 0
        | 0x106 => v.toNat / 2 ^ 12 * 2 ^ 12
        | _ => if 0x200 ≤ k ∧ k ≤ 0x207 then v.toNat % 2 ^ 48
          else if 0x208 ≤ k ∧ k ≤ 0x20F then v.toNat % 2 ^ 20 - v.toNat / 2 ^ 16 % 2 * 2 ^ 16 + v.toNat / 2 ^ 63 * 2 ^ 63
          else v.toNat))

/-- The causes that an instruction of the access stream takes at its own address once the execute stream has drained, before it
does anything: 0x15 for a jump or a TVEC that is no multiple of 4 (R144, R325); 0x01 for a barrier above .co in a helper, a CSR
number that is not assigned, an instruction of the other kind of context, and eret outside a handler; 0x14 for a pod barrier that
is not configured, a supervisor's instruction or CSR in user mode, and a write of a CSR that is read-only. The instructions of the
control context and of a supervisor are those of R94, R221, R223, R278, R321, R326, R331 and R334. -/
def Obligations.PreciseTraps : Prop :=
  ∀ (s : State) (g : Machine.Group) (c : Ctx) (d a b : BitVec 5) (n : BitVec 12) (op : CsrxOp) (sc : Scope) (mx kill : Bool)
    (off : BitVec 23), s.Acts g c → c.drained = true →
    let traps := fun (i : Instr) (s1 : State) (cause : Nat) => exec i s = .next (s1.trapsA g c cause (firstParcel i))
    let k := n.toNat
    let assigned := k ≤ 0x00A ∨ (0x010 ≤ k ∧ k ≤ 0x01F) ∨ (0x100 ≤ k ∧ k ≤ 0x109) ∨ (0x200 ≤ k ∧ k ≤ 0x20F)
    let supOnly := (0x100 ≤ k ∧ k ≤ 0x109 ∧ k ≠ 0x105) ∨ (0x208 ≤ k ∧ k ≤ 0x20F)
    (∀ i t m f, flowRule c i = some (t, m, f) → isJump i = true → t.toNat % 4 ≠ 0 → traps i s 0x15) ∧
    (∀ i ∈ [Instr.bar sc, .barv mx sc d a, .barwArr sc d, .barwWt sc a],
      (sc ≠ .ln → sc ≠ .co → c.num ≠ 0 → traps i s 0x01) ∧
      (sc = .pd → c.num = 0 → s.barIdOf g sc = none → traps i s 0x14)) ∧
    (c.csr.mode = false → ∀ i ∈ [Instr.idle d, .logrp d a, .ctxsv d a, .ctxld kill d a b, .cload d a b, .xlinvPg a, .xlinvAll, .eret],
      traps i (s.synced g c) 0x14) ∧
    (c.csr.mode = true → c.csr.intrap = false → traps .eret (s.synced g c) 0x01) ∧
    (c.num ≠ 0 → ∀ i ∈ [Instr.start d b off, .hwait a, .carve d a, .rets sc a, .retire], traps i (s.synced g c) 0x01) ∧
    (c.num = 0 → traps .hend (s.synced g c) 0x01) ∧
    (∀ i ∈ [Instr.csrr d n, .csrw n a, .csrx op d n a],
      (¬assigned → traps i (s.synced g c) 0x01) ∧ (supOnly → c.csr.mode = false → traps i (s.synced g c) 0x14)) ∧
    (∀ i ∈ [Instr.csrw n a, .csrx op d n a],
      ((0x004 ≤ k ∧ k ≤ 0x00A) ∨ ((k = 0x105 ∨ (0x200 ≤ k ∧ k ≤ 0x207)) ∧ c.csr.mode = false) → traps i (s.synced g c) 0x14)) ∧
    (∀ i ∈ [Instr.cohmodeWrite .csrw a, .cohmodeWrite (.csrx op d) a, .bndtWrite .csrw a, .bndtWrite (.csrx op d) a],
      c.csr.mode = false → traps i (s.synced g c) 0x14) ∧
    (c.csr.mode = true → (c.readX a).toNat % 4 ≠ 0 → traps (.csrw 0x100 a) (s.synced g c) 0x15)

/-- R320-R322, R326: trap and brk and a failed decode take their exception. Entry saves the queues, the repetition and the queued
updates in the frame and sends both streams to TVEC in supervisor mode; an exception in a handler, or without a TVEC, halts the
group instead. eret puts back what entry saved; after a redirecting write of EPC both streams go to EPC with an empty branch
queue, and the side-log entries that have failed for the context are gone (R222). A halt of a group whose scratch a CVR job still
writes stops its streams and waits for the job (R266, R322). -/
def Obligations.TrapResult : Prop :=
  ∀ (s : State) (g : Machine.Group) (c : Ctx) (cause : Nat) (tval epc epce : Word), s.Acts g c →
    let goes := fun (cause : Nat) (tval e : Word) =>
      ((s.synced g c).updCtx g.id c.num fun x => x.rejoin.endInstr false).takeTrap g.id c.num cause tval e e
    let t := s.takeTrap g.id c.num cause tval epc epce
    (c.drained = true → exec .trap s = .next (goes 0x30 0 (inRegion c.pcA (Instr.trap).size)) ∧
      (∀ n, exec (.trapN n) s = .next (goes 0x30 (BitVec.ofNat 64 n.toNat) (inRegion c.pcA (Instr.trapN n).size))) ∧
      exec .brk s = .next ((s.synced g c).trapsA g c 0x31 (firstParcel .brk)) ∧
      (∀ key die w e, s.fetchProbe g c c.pcA = .at (.mem key die w e) →
        exec (.decodeTrap cause) s = .next (s.trapsA g c cause (BitVec.ofNat 64 (s.codeAt g c key))))) ∧
    (c.csr.intrap = false → c.csr.tvec ≠ 0 → t.cx g.id c.num = some (c.inHandler cause tval epc epce) ∧
      (∀ gid n, ¬(gid = g.id ∧ n = c.num) → t.cx gid n = s.cx gid n) ∧ { t with groups := s.groups } = s) ∧
    (c.csr.intrap = true ∨ c.csr.tvec = 0 → s.scratchBusy g = false →
      (t.group? g.id).map (fun x => x.status) = some (.halted cause)) ∧
    (c.csr.intrap = true ∨ c.csr.tvec = 0 → s.scratchBusy g = true →
      (t.group? g.id).map (fun x => (x.status, x.stopping.map fun y => y.status)) = some (.running, some (.halted cause))) ∧
    (c.drained = true → c.csr.mode = true → c.csr.intrap = true →
      exec .eret s = .next ((((s.synced g c).updCtx g.id c.num Ctx.leaveTrap).updGroup g.id fun x =>
        { x with log := x.log.filter fun e => !(e.failed.isSome && e.ctx == c.num) }).count g.core 2 1 g.vf c.csr.mode)) ∧
    (∀ f, c.frame = some f → c.lag = [] → let r := c.leaveTrap;
      r.csr = { c.csr with mode := c.csr.pmode, intrap := false, redir := false } ∧ r.frame = none ∧ r.r = c.r ∧ r.w = c.w ∧
      (c.csr.redir = false → r.queues = f.queues ∧ r.rep = f.rep ∧ r.lag = f.lag ∧ r.seqA = f.seqA ∧ r.seqE = f.seqE ∧
        r.seqP = f.seqP ∧ r.barWait = f.barWait ∧ r.pcA = c.csr.epc ∧ r.pcE = c.csr.epce) ∧
      (c.csr.redir = true → r.queues = { f.queues with bq := [] } ∧ r.rep = none ∧ r.lag = [] ∧ r.seqA = 0 ∧ r.seqE = 0 ∧
        r.seqP = 0 ∧ r.pcA = c.csr.epc ∧ r.pcE = c.csr.epc)) ∧
    (let r := (c.inHandler cause tval epc epce).leaveTrap;
      r.queues = (match c.popped with | some e => { c.queues with q6 := e :: c.queues.q6 } | none => c.queues) ∧
      r.rep = c.rep ∧ r.lag = c.lag ∧ r.seqA = c.seqA ∧ r.seqE = c.seqE ∧ r.seqP = c.seqP ∧ r.barWait = c.barWait ∧
      r.r = c.r ∧ r.w = c.w ∧ r.pcA = epc ∧ r.pcE = epce ∧ r.csr.mode = c.csr.mode ∧ r.csr.intrap = false)

/-- R94, R95, R335, R336, R342: the control context starts a helper at a label with its argument in x1, waits for it, changes the
carve-out, retires, and hands over to a successor; a helper ends. Its group has no such context any more, or is gone, or runs the
successor's object, which a rets reads once, before it waits; a ladder that does not fit gives it cause 0x28. That the kernel read
stays the successor over an overrun that comes while it waits is the model's choice (log 93, DESIGN CHOICE). -/
def Obligations.GroupResult : Prop :=
  ∀ (s : State) (g : Machine.Group) (c : Ctx) (d a b : BitVec 5) (off : BitVec 23) (sc : Scope), s.Acts g c → c.drained = true →
    (c.num = 0 → g.helpers < kHelpers g.kobj → s.GateOpen g c → ∀ n, 1 ≤ n → n ≤ 10 → g.ctx? n = none →
      (∀ m, 1 ≤ m → m < n → (g.ctx? m).isSome = true) →
      ∃ (t : State) (h : Ctx), s.DoneS (.start d b off) g c (fun _ _ => t) ∧ t.mem = s.mem ∧ t.cx g.id n = some h ∧
        h.pcA = codeTarget c off ∧ h.pcE = codeTarget c off ∧ h.readX 1 = c.readX b ∧ h.csr.mode = false ∧
        h.csr.tvec = (s.vf g.vf).tvec ∧ h.csr.bndt = (s.vf g.vf).bndt ∧ t.nextAgent = s.nextAgent + 1 ∧
        t.cx g.id 0 = some (c.seeBoth.release.writeX d (BitVec.ofNat 64 n))) ∧
    (c.num = 0 → 1 ≤ (c.readX a).toNat → (c.readX a).toNat ≤ 10 → g.ctx? (c.readX a).toNat = none →
      s.DoneS (.hwait a) g c fun s1 _ =>
        (s1.acquireVar g.id c.num (helperVar g.id (c.readX a).toNat) 1 s.tick .co).updCtx g.id c.num Ctx.seeBoth) ∧
    (c.num ≠ 0 → s.GateOpen g c →
      (kDrop g.kobj = true ∨ ∀ x ∈ s.allJobs, ∀ y ∈ x.2.2.senders, y.agent = c.sync.agent → y.live = false) →
      ∃ t, exec .hend s = .next t ∧ t.cx g.id c.num = none ∧ ∀ gid n, ¬(gid = g.id ∧ n = c.num) → t.cx gid n = s.cx gid n) ∧
    (c.num = 0 → g.helpers = 0 → s.scratchBusy g = false → let n := (c.readX a).toNat;
      let st := fun (v : Nat) (s1 : State) => s1.updCtx g.id c.num fun x => x.writeX d (BitVec.ofNat 64 v);
      let under := c.r.k.toList.any fun k => decide (16384 * n ≤ k.toNat % 2 ^ 32 ∧ k.toNat % 2 ^ 32 < winBase);
      (n < kScratch g.kobj → s.DoneS (.carve d a) g c fun s1 _ => st 1 s1) ∧
      (kScratch g.kobj ≤ n → 64 < kRu g.kobj + n + kCache g.kobj → s.DoneS (.carve d a) g c fun s1 _ => st 2 s1) ∧
      (kScratch g.kobj ≤ n → kRu g.kobj + n + kCache g.kobj ≤ 64 → under = true → s.DoneS (.carve d a) g c fun s1 _ => st 3 s1) ∧
      (kScratch g.kobj ≤ n → kRu g.kobj + n + kCache g.kobj ≤ 64 → under = false → ∃ t : State,
        s.DoneS (.carve d a) g c (fun _ _ => st 0 t) ∧ (t.group? g.id).map (fun x => x.scratch) = some n ∧
        (s.Quiet → ∀ k, k < scrKey g.core (16384 * min n g.scratch) ∨ scrKey g.core (2 ^ 20) ≤ k → t.byteAt k = s.byteAt k))) ∧
    (c.num = 0 → g.helpers = 0 → s.jobsAwaited g 0 = false → s.entryMoves g = false → s.GateOpen g c →
      ∀ i, (i = .retire ∨ (i = .rets sc a ∧ c.nextKernel = none ∧ c.readX a = 0 ∧ kSucc g.kobj = 0)) →
        ∃ t, exec i s = .next t ∧ t.group? g.id = none ∧
          t = ((s.synced g c).endGroup g.id (some (c.sync.agent, c.relTag + 1))).count g.core 2 1 g.vf c.csr.mode) ∧
    (let handed := fun (s2 : State) (i ptr : Nat) (k : BitVec 1024) =>
      (s2.jobsAwaited g g.inhm = true → exec (.rets sc a) s = .next (s2.waitsA g c (.other false))) ∧
      (s2.jobsAwaited g g.inhm = false → s2.GateOpen g c →
        let s3 := s2.updLaunch g.launch fun y => { y.boundary with lowest := max y.lowest i }
        exec (.rets sc a) s = .next ((s3.escrow g (s3.ctxOf g c.seeBoth) sc ptr k i).count g.core 2 1 g.vf c.csr.mode));
      (∀ i ptr k, c.num = 0 → c.nextKernel = some (i, ptr, k) → handed (s.synced g c) i ptr k) ∧
      (c.num = 0 → g.helpers = 0 → c.nextKernel = none → (c.readX a ≠ 0 ∨ kSucc g.kobj ≠ 0) → g.depth < 255 →
        ∀ (s1 : State) (l : List (Nat × BitVec 1024)) (more : Bool) (i ptr : Nat) (k : BitVec 1024) (la : Launch),
        (s.synced g c).loadLadder g c.seeBoth 4 (if c.readX a = 0 then BitVec.ofNat 64 (kSucc g.kobj) else c.readX a) = .ok s1 (l, more) →
        s1.launch? g.launch = some la → i = min la.boundary.rung (l.length - 1) → l[i]? = some (ptr, k) →
        (ladderOk l more = false ∨ shapeOk g k = false → exec (.rets sc a) s = .next (s1.trapsA g c 0x28 (firstParcel (.rets sc a)))) ∧
        (ladderOk l more = true → shapeOk g k = true →
          handed (s1.updCtx g.id c.num fun x => { x with nextKernel := some (i, ptr, k) }) i ptr k))) ∧
    (c.num = 0 → g.helpers = 0 → c.nextKernel = none → (c.readX a ≠ 0 ∨ kSucc g.kobj ≠ 0) → 255 ≤ g.depth →
      exec (.rets sc a) s = .next ((s.synced g c).trapsA g c 0x29 (firstParcel (.rets sc a))))


/-- R129, R130, R221-R227, R278, R323, R331, R344: the supervisor's instructions and wdead. xlinv leaves no kept translation of its
page, or of its function, and no copy of the bounds table; wdead makes registers read zero; idle waits for a fault record and gives
their number; logrp replays a group's side log and gives the count; cload loads an installed image into an engine that has no job;
ctxsv parks the group of a core and gives its area; ctxld resumes or ends the group of an area; resid moves a tensor by its
handle, which has state 3 while it moves. Each gives its status in a register. xlinv waits until what it let go has performed again
(R223), cload and ctxsv until the queue is empty and the group is off its core. That resid moves a tensor in two steps, waiting with
state 3 and ending with status 0 on a later turn, and waits while another resid moves its handle, is the model's choice (log 28, DESIGN
CHOICE), and so is that a kill waits while the slot of its stage's entry moves (log 112, DESIGN CHOICE). -/
def Obligations.SystemResult : Prop :=
  ∀ (s : State) (g : Machine.Group) (c : Ctx) (d a b : BitVec 5) (kill : Bool), s.Acts g c → c.drained = true →
    let x := (c.readX a).toNat
    let y := (c.readX b).toNat
    let u := s.synced g c
    let st := fun (v : Nat) (s1 : State) => s1.updCtx g.id c.num fun z => z.writeX d (BitVec.ofNat 64 v)
    let gives := fun (i : Instr) (v : Nat) (t : State) => s.DoneS i g c fun _ _ => st v t
    let waits := fun (i : Instr) (t : State) => exec i s = .next (t.waitsA g c (.other false))
    let retries := fun (i : Instr) (t : State) =>
      (t.retrying g.vf = false → s.DoneS i g c fun _ _ => t) ∧ (t.retrying g.vf = true → waits i t)
    let begun := fun (t : State) => t.updCtx g.id c.num fun z => { z with xlinvOn := true }
    let rel := u.updCtx g.id c.num Ctx.release
    (c.csr.mode = true → c.xlinvOn = false → s.GateOpen g c →
      retries (.xlinvPg a) (begun (rel.xlinvPage g.vf (x % 2 ^ 56))) ∧ retries .xlinvAll (begun (rel.xlinvEvery g.vf))) ∧
    (c.csr.mode = true → c.xlinvOn = true → retries (.xlinvPg a) u ∧ retries .xlinvAll u) ∧
    (c.xlinvOn = false → s.GateOpen g c →
      retries .xlinvBnd (begun (rel.updCtx g.id c.num fun z => { z with bounds := [] }))) ∧
    (c.xlinvOn = true → retries .xlinvBnd u) ∧
    (∀ (w : State) (vf va : Nat), (w.xlinvPage vf va).mem = w.mem ∧
      (∀ e ∈ (w.xlinvPage vf va).xlat, e.1 / 256 = vf → e.2.1 ≠ keptName va true ∧ e.2.1 ≠ keptName va false) ∧
      ∀ e ∈ (w.xlinvEvery vf).xlat, e.1 / 256 ≠ vf) ∧
    s.DoneS (.wdead a) g c (fun s1 _ => s1.updCtx g.id c.num fun z =>
      (z.markX (BitVec.ofNat 32 x)).markV (BitVec.ofNat 32 (x / 2 ^ 32)) (kRegs g.kobj)) ∧
    (∀ (m : BitVec 32) (n : BitVec 5) (k : Nat),
      (c.markX m).readX n = (if m.getLsbD n.toNat = true then 0 else c.readX n) ∧
      (c.markV m k).readV n = (if m.getLsbD n.toNat = true ∧ n.toNat < k then 0 else c.readV n)) ∧
    (c.csr.mode = true → (u.fqCount g.vf = 0 → waits (.idle d) u) ∧
      (u.fqCount g.vf ≠ 0 → s.DoneS (.idle d) g c fun _ _ => u.updCtx g.id c.num fun z =>
        ((z.acquireNone.acquiredAt s.tick).writeX d (BitVec.ofNat 64 (u.fqCount g.vf))).seeBoth)) ∧
    (c.csr.mode = true →
      (∀ h, x ≤ 2047 → u.groupOn? x = some h → h.vf = g.vf → let r := u.replay h.id h.log.length;
        (r.2.2 = .waits → waits (.logrp d a) (r.1.updCtx g.id c.num fun z => { z with replayed := c.replayed + r.2.1 })) ∧
        (r.2.2 ≠ .waits → exec (.logrp d a) s = .next (((r.1.updCtx g.id c.num fun z =>
          (z.writeX d (BitVec.ofNat 64 (c.replayed + r.2.1))).nextA (inRegion c.pcA (Instr.logrp d a).size)).failEntry h.id r.2.2).count
            g.core 2 1 g.vf c.csr.mode))) ∧
      ((2047 < x ∨ ∀ h, u.groupOn? x = some h → h.vf ≠ g.vf) →
        exec (.logrp d a) s = .next (u.trapsA g c 0x12 (firstParcel (.logrp d a)))) ∧
      ∀ (w : State) (q : Machine.Group) (n : Nat), w.group? q.id = some q →
        (q.log = [] ∨ ∃ e r, q.log = e :: r ∧ e.failed.isSome = true) → w.replay q.id n = (w, 0, .ends)) ∧
    (c.csr.mode = true → let ty := y % 16;
      let n := y / 2 ^ 8 % 16;
      let e := if ty = 3 then Eng.pfe else .cvr;
      (256 ≤ x ∨ (ty ≠ 3 ∧ ty ≠ 4) ∨ n < 2 ∨ y ≠ ty + 256 * n →
        exec (.cload d a b) s = .next (u.trapsA g c 0x01 (firstParcel (.cload d a b)))) ∧
      (x < 256 → ty = 3 ∨ ty = 4 → 2 ≤ n → y = ty + 256 * n →
        ((∀ z ∈ u.installed, z.2.1 ≠ n) → gives (.cload d a b) 1 u) ∧
        ((∀ z ∈ u.installed, z.1 = ty → z.2.1 ≠ n) → (∃ z ∈ u.installed, z.1 = 7 - ty ∧ z.2.1 = n) → gives (.cload d a b) 2 u) ∧
        (∀ z, u.installed.find? (fun z => z.1 == ty && z.2.1 == n) = some z →
          (u.jobs x e ≠ [] → waits (.cload d a b) (u.updCtx g.id c.num fun k => { k with loading := some (x, e) })) ∧
          (u.jobs x e = [] → gives (.cload d a b) 0
            (u.updCluster x fun k => { k with images := z :: k.images.filter fun w => !(w.1 == ty && w.2.1 == n) }))))) ∧
    (c.csr.mode = true →
      (∀ h, (c.saving.bind u.group?) = some h → h.core = x → h.status = .parked →
        gives (.ctxsv d a) h.ctxa.toNat (u.markDelayed h.launch)) ∧
      (c.saving = none →
        ((2047 < x ∨ ∀ h, u.groupOn? x = some h → h.vf ≠ g.vf ∨ h.id = g.id) → gives (.ctxsv d a) 1 u) ∧
        ∀ h h1, x ≤ 2047 → u.groupOn? x = some h → h.vf = g.vf → h.id ≠ g.id → (u.preempt h.id .parked).group? h.id = some h1 →
          (h1.status = .parked → gives (.ctxsv d a) h1.ctxa.toNat ((u.preempt h.id .parked).markDelayed h1.launch)) ∧
          (h1.status = .running → waits (.ctxsv d a)
            ((u.preempt h.id .parked).updCtx g.id c.num fun k => { k with saving := some h.id }))) ∧
      ∀ (w : State) (q : Machine.Group), w.group? q.id = some q → q.runs = true → q.stopping = none → q.unbound = false → q.overBudget = false →
        w.scratchBusy q = false → ((w.preempt q.id .parked).group? q.id).map (fun z => z.status) = some .parked) ∧
    (c.csr.mode = true →
      (u.savedAt g.vf (c.readX a) = none → gives (.ctxld kill d a b) 1 u) ∧
      (∀ h, u.savedAt g.vf (c.readX a) = some h →
        (u.entryMoves h = false → gives (.ctxld true d a b) 0 ((u.endMoves fun m => m.owner.1 == h.id).endGroup h.id none)) ∧
        (u.entryMoves h = true → waits (.ctxld true d a b) u) ∧
        (u.mayResume h y = false → gives (.ctxld false d a b) 2 u) ∧
        (u.mayResume h y = true → gives (.ctxld false d a b) 0 ((u.resumeGroup h.id y).clearFlags h.ctxa)))) ∧
    (let e := u.rd (u.handleAt g.vf x) 32;
      let all := [Instr.residPin d a, .residUnpin d a, .residDemote d a, .residEvict d a];
      let who := (g.id, c.num, x);
      let mine := u.moving.any fun m => m.owner == who;
      let moves := u.moving.any fun m => m.vf == g.vf && m.handle == x;
      let bad := 4095 < x ∨ handleOk e = false;
      let n := u.name g.vf x e;
      let comes := fun (i : Instr) (r : ResidAct) =>
        (∀ t v, r = .ends t v → gives i v t) ∧ (∀ t, r = .begins t → waits i t);
      (mine = true → ∀ i ∈ all, gives i 0 (u.endMoves fun m => m.owner == who)) ∧
      (mine = false → moves = true → ∀ i ∈ all, waits i u) ∧
      (mine = false → moves = false → bad → ∀ i ∈ all, gives i 1 u) ∧
      (mine = false → moves = false → ¬bad → comes (.residPin d a) (n.pinTensor who g.vf x e) ∧
        gives (.residUnpin d a) 0 ((n.dropTensor g.vf e).setHandle g.vf x (hState e) (some false)) ∧
        (hPin e = true → gives (.residDemote d a) 2 n ∧ gives (.residEvict d a) 2 n) ∧
        (hPin e = false → n.inTransfer g.vf e = true → waits (.residDemote d a) n ∧ waits (.residEvict d a) n) ∧
        (hPin e = false → n.inTransfer g.vf e = false → comes (.residDemote d a) (n.demoteTensor who g.vf x e) ∧
          gives (.residEvict d a) 0 (((n.mappings g.vf e).foldl (State.evictPage g.vf e) (n.dropTensor g.vf e)).setHandle g.vf x 2
            none))) ∧
      (∀ (w : State) (vf h e : Nat), hState e = 2 →
        w.demoteTensor who vf h e = .ends ((w.dropTensor vf e).setHandle vf h 1 none) 0) ∧
      (∀ (w : State) (vf h e : Nat), hState e ≠ 2 → ∃ (t : State) (m : Move), w.demoteTensor who vf h e = .begins t ∧
        t.mem = ((w.dropTensor vf e).setHandle vf h 3 none).mem ∧ t.moving = w.moving ++ [m] ∧ m.vf = vf ∧ m.handle = h ∧
        m.owner = who ∧ m.space = 2 ∧ m.final = 1 ∧ m.fresh = false) ∧
      (∀ (w : State) (vf h e : Nat), (∀ y ∈ w.mappings vf e, y.2.inSpace 0 = true) →
        w.pinTensor who vf h e = .ends ((w.dropTensor vf e).setHandle vf h 0 (some true)) 0) ∧
      (∀ (w : State) (vf h k : Nat) (pin : Bool), Inv w → k < 4 → (w.setHandle vf h k (some pin)).rd (w.handleAt vf h + 16) 1 =
        w.rd (w.handleAt vf h + 16) 1 % 32 + (if pin then 32 else 0) + 64 * k) ∧
      ∀ (w : State) (vf h k : Nat), Inv w → k < 4 → (w.setHandle vf h k none).rd (w.handleAt vf h + 16) 1 =
        w.rd (w.handleAt vf h + 16) 1 % 64 + 64 * k)

/-! ### Events -/

/-- What the queue managers and the contexts' own events do when they are due (R69-R83, R89, R124, R206, R271, R290, R327-R333): a
deadlock and an overrun take their exception, a doorbell fills a slot of a queue of mode 1, a launch is taken, admitted or refused,
a group starts at its entry with its number or entry in x1, a counter's submission is published, a launch that has ended writes its
record with status 0x12 where it was late and no group overran (R373), reservations end, groups are pre-empted and resume, a time
slice ends, a barrier's phase completes, and a key is granted. A take, a doorbell, a submission and a completion wait while
a byte that they read or write moves (R226). The model's choices: class T starts before I and B (log 41, DEDUCED), and which events wait
with a tensor that moves (log 112, DESIGN CHOICE). -/
def Obligations.QueueEvents : Prop :=
  ∀ (s : State) (g : Machine.Group) (c : Ctx) (core die n m : Nat),
    (∀ q p b w, s.groupOn? core = some g → g.ctx? n = some c → c.waitA = some (.queue q b) → c.waitE = some (.queue p w) →
      q ≤ 8 → p ≤ 8 →
      (if 4 ≤ q ∧ q ≤ 6 then c.queues.count q = 0 else queueDepth q ≤ c.queues.count q) →
      (if 4 ≤ p ∧ p ≤ 6 then queueDepth p ≤ c.queues.count p else c.queues.count p = 0) →
      exec (.streamDeadlock core n) s = .next ((s.settle g c).takeTrap g.id n 0x04 (BitVec.ofNat 64 (p * 256 + q)) c.pcA c.pcE)) ∧
    (s.groupOn? core = some g → s.group? g.id = some g → g.unbound = false → 0 < g.budget → g.budget < g.used →
      g.overran = false → g.stopping = none → g.ctx? 0 = some c → c.csr.intrap = false →
      let d := s.settled g c;
      exec (.budgetOverrun core) s = .next ((((s.settle g c).updGroup g.id fun x => { x with overran := true, overAny := true }).updLaunch
        g.launch fun l => { l with overrunDue := true, overruns := if g.overAny then l.overruns else l.overruns + 1 }).takeTrap g.id 0
        0x20 (BitVec.ofNat 64 g.budget) d.pcA d.pcE)) ∧
    (s.mbrdy = false → ∀ vf q, exec (.doorbell vf q n) s = .next s) ∧
    (∀ vf q h, s.mbrdy = true → s.qHead vf q = some h → h.mode = 1 → n < h.cap →
      (s.tagAt vf (h.tags + n) % 4 < 2 → s.vWaits [(vf, h.tags + n, 1)] = true → exec (.doorbell vf q n) s = .next s) ∧
      (s.tagAt vf (h.tags + n) % 4 < 2 → s.vWaits [(vf, h.tags + n, 1)] = false → exec (.doorbell vf q n) s = .next
        (((s.setTag vf (h.tags + n) 2).tock).notePublish (s.tagKey vf (h.tags + n)) [])) ∧
      (2 ≤ s.tagAt vf (h.tags + n) % 4 → exec (.doorbell vf q n) s = .next
        { s with errors := s.errors ++ [{ kind := .doorbell, vf := some vf, addr := 0x100 + 8 * q }] })) ∧
    (∀ cls vf q h, s.mbrdy = true → s.nextTake die = some (cls, vf, q, h) →
      let k := h.ridx % h.cap;
      let r := BitVec.ofNat 1024 (s.vRd vf (h.slots + 128 * k) 128);
      let key := s.tagKey vf (h.tags + k);
      let reads := s.takeReads die vf r;
      let s1 := ((s.vUses reads).setTag vf (h.tags + k) 0).wr (hbm (h.pa + 24)) 4 ((h.ridx + 1) % 2 ^ 32);
      (s.vWaits (reads ++ endPlaces vf r) = true → exec (.launchQueueTake die) s = .next s) ∧
      (∀ st, s.vWaits (reads ++ endPlaces vf r) = false → s1.checkLaunch vf die r = .error st →
        exec (.launchQueueTake die) s = .next (s1.refuse vf r st)) ∧
      (∀ y, s.vWaits (reads ++ endPlaces vf r) = false → s1.checkLaunch vf die r = .ok y →
        (lTree r = 0 ∨ s.roomBehind (64 * s.treeDie vf die (s.recordClass vf r) r y.1) .pfe (fun _ => true) = true) →
        exec (.launchQueueTake die) s = .next (s1.admitLaunch vf die r (h.slots + 128 * k) (s.relsOf key (s.publishedAt key).1) (s.coversAt key) y))) ∧
    (∀ l p, [0, 1, 2].findSome? (s.pickStart die) = some (.plain l p) →
      exec (.groupStart die) s = .next ((s.startGroup l p).updLaunch l.id fun x => x.markStarted p.index)) ∧
    (∀ l x, [0, 1, 2].findSome? (s.pickStart die) = some (.stage l x) →
      exec (.groupStart die) s = .next (s.startStage die l x)) ∧
    (∀ (l : Launch) (p : NewGroup), (∀ x ∈ s.groups, x.id ≠ s.nextId) → ∃ c0 : Ctx, (s.startGroup l p).cx s.nextId 0 = some c0 ∧
      c0.pcA = kEntry p.kobj ∧ c0.pcE = kEntry p.kobj ∧ c0.readX 1 = p.x1 ∧ c0.csr.mode = kSup p.kobj ∧
      c0.csr.tvec = (s.vf l.vf).tvec ∧ c0.queues = Queues.empty ∧ c0.vlive = 0 ∧ c0.xlive = 2) ∧
    ((alGet s.shareAt die).getD 0 ≤ s.cyc → exec (.shareRecompute die) s = .next (s.shareRecompute die) ∧
      alGet (s.shareRecompute die).shareAt die = some (s.cyc + 12000)) ∧
    (∀ (x : Submit) h, s.submits[n]? = some x → s.qHead x.vf x.lq = some h → h.mode ≠ 1 →
      s.vWaits ((x.vf, x.lrec.toNat, 128) :: h.nextSlot x.vf) = true → exec (.counterSubmit n) s = .next s) ∧
    (∀ (x : Submit) h k t, s.submits[n]? = some x → s.qHead x.vf x.lq = some h → h.mode ≠ 1 →
      s.vWaits ((x.vf, x.lrec.toNat, 128) :: h.nextSlot x.vf) = false →
      (State.vUse { s with submits := s.submits.eraseIdx n } x.vf x.lrec.toNat 128 false).qPublish x.vf h
        (bytesOfNat 128 (s.vRd x.vf x.lrec.toNat 128)) x.covers = some (k, t) →
      exec (.counterSubmit n) s = .next (x.acq.foldl (fun (w : State) (y : Acq) => w.addRel
        { var := t.tagKey x.vf (h.tags + k), agent := y.agent, tag := y.tag, scope := .pk,
          loc := { vf := x.vf, launch := 0, gid := 0, core := 0 }, tick := t.tick }) t)) ∧
    (∀ l, s.launch? n = some l → s.launchDone l = true → s.vWaits (endPlaces l.vf l.record) = true →
      exec (.launchCompletion n) s = .next s) ∧
    (∀ l, s.launch? n = some l → s.launchDone l = true → s.vWaits (endPlaces l.vf l.record) = false → ∃ t : State, t.launch? n = none ∧ t.groups = s.groups ∧
      exec (.launchCompletion n) s = .next (t.complete l.vf l.record l.overruns l.lowest (s.launchStatus l) 0 l.agents)) ∧
    (∀ l, l.cls = 0 → l.overruns = 0 → l.beyond = false → l.treeStatus = none →
      s.launchStatus l = if l.deadline < s.thirds then 0x12 else 0) ∧
    exec (.reservationRelease die) s = .next { s with reservations := s.reservations.filter fun r => !(r.die == die && r.bound ≤ s.thirds) } ∧
    (s.groupOn? core = some g → s.mustYield g = true → exec (.preemption core) s = .next (s.preempt g.id .preempted)) ∧
    (s.group? n = some g → s.resumeCore g = some m → exec (.resumption n) s = .next (s.resumeGroup n m)) ∧
    (∀ t, s.timeShared core = some t → t.due s.cyc = true → exec (.worldSwitchSliceEnd core) s = .next (s.worldSwitch t)) ∧
    (∀ b, s.barriers[n]? = some b → b.started = true → s.toAnnounce b = none → s.allIn b = true →
      exec (.barrierPhaseComplete n) s = .next ((s.dropPhase b).updBarrier b.id fun x => { x with complete := x.complete + 1 })) ∧
    (∀ k y gid, s.keys[n]? = some (k, y) → s.nextHolder k = some gid → exec (.orderedSectionGrant n) s = .next
      (s.updKey k fun x => { x with holder := some gid, waiting := x.waiting.filter (· != gid) }))


/-- R231-R241, R244-R248, R250-R262, R264-R270: what an engine does with the job at the head of its queue, once it has arrived and
no message can be merged with it any more. COPY, GATHER and RASTER end with status 0, or with that of a check that fails; the matrix
engine's commands run after their header and capability checks (0x01, 0x19), made once, and leave the queue at the end of their
slots, when MMA, MMAB and a clearing MEPI change their tile; a traversal starts, decides one pair a step and ends; a sweep starts,
walks, and ends once nothing is outstanding; emission claims an index and then fills its slot, for a sweep in the order in which the
nodes were visited; a retired task decrements its dependents; a job that is done leaves the queue and writes its senders' records. In
memory, by the model's own probes: row r of a COPY's source stands at dst + r x dstride, element i of a GATHER at dst + e x i, and what
a RASTER adds in the words of its target; every other byte is as before. The model's choices: a COPY to the own device's number goes
over the fabric (log 85), a copy looks ahead for rows that R210 bars (log 36), an engine's command is one step up to where it waits and
a tile takes a whole command at its slot's end (logs 24, 86), the k of an MMA adds nothing to the total of a chain (log 87), and a
message with comb set starts once its window has passed (log 84). -/
def Obligations.EngineEvents : Prop :=
  ∀ (s : State) (cl n : Nat) (j : Job),
    let heads := fun (e : Eng) (cmd : Cmd) =>
      (s.jobs cl e).head? = some j ∧ j.cmd = cmd ∧ j.ready = true ∧ j.settledAt cl s.cyc = true
    let ends := fun (i : Instr) (e : Eng) (w : State) (k : Job) (status : Nat) =>
      exec i s = .next (w.endJob cl e k (doneWord status 0 0))
    let leaves := fun (e : Eng) (t : State) (w : Word) =>
      exec (.jobCompletion cl e) s = .next ((t.setJobs cl e ((s.jobs cl e).drop 1)).completeJob j w)
    (∀ e, (s.jobs cl e).head? = some j → (j.cmd = .mma ∨ j.cmd = .mmab ∨ j.cmd = .mepi ∨ j.cmd = .mloadw ∨ j.cmd = .mloadb) →
      s.cyc < j.slotEnd → exec (.jobCompletion cl e) s = .next s) ∧
    (∀ e w, (s.jobs cl e).head? = some j → j.slotEnd ≤ s.cyc → j.phase = .done w →
      (∀ t, j.cmd ≠ .zclr t) → (∀ t r d, j.cmd ≠ .zrow t r d) →
      ((j.cmd ≠ .mma ∧ j.cmd ≠ .mmab ∧ j.cmd ≠ .mepi) ∨ w ≠ doneWord 0 0 0 → leaves e s w) ∧
      (w = doneWord 0 0 0 →
        (j.cmd = .mma → leaves e (s.putProduct cl j (s.mmaOut cl j)) w) ∧
        (j.cmd = .mmab → leaves e (s.putProduct cl j (s.mmabOut cl j)) w) ∧
        (j.cmd = .mepi → leaves e (if bit j.p 3 then s.setTile cl (j.f 263 256) Tile.clear else s) w))) ∧
    (let t0 := if bit j.p 0 then Tile.clear else s.tile cl (j.f 215 208);
      let r := j.read.headD 0;
      let d := recDesc r;
      let K := 128 * j.f 223 216;
      let rows := ((pairUp (j.read.drop 1)).zipIdx).map fun x =>
        rowVals d (unpackCodes (fmtOf d).width K (bytesOfNat (K * containerOf (fmtOf d).width / 8) x.1.1))
          ((bytesOfNat (K / 16 + 2) x.1.2).map BitVec.toNat) (x.2 * recCols r);
      let t1 := (rows.zipIdx).foldl (fun (t : Tile) x => mmaRow (s.cluster cl).macros (toI 16 (j.f 207 192)) x.2 x.1 t) t0;
      let t2 := (j.read.zipIdx).foldl (fun (t : Tile) x =>
        mmabRow (s.cluster cl).macros (bit j.p 1) (j.f 223 216) x.2 x.1 t) t0;
      (s.mmaOut cl j).1 = { t1 with count := t1.count + 1, window := toI 16 (j.f 207 192) } ∧
      (s.mmaOut cl j).2.2 = (rows.map fun l => l.countP FVal.isZero).sum ∧
      (s.mmabOut cl j).1 = { t2 with count := t2.count + 1, window := toI 16 (j.f 207 192),
                                     ktotal := t0.ktotal + 1024 * j.f 223 216 }) ∧
    (∀ t, (s.jobs cl .mxe).head? = some j → j.phase = .running → j.slotEnd ≤ s.cyc →
      let s1 := s.setJobs cl .mxe ((s.jobs cl .mxe).drop 1);
      (j.cmd = .zclr t → exec (.jobCompletion cl .mxe) s = .next (s1.setTile cl t Tile.clear)) ∧
      (∀ row d, j.cmd = .zrow t row d → exec (.jobCompletion cl .mxe) s = .next (s1.setTile cl t ((s.tile cl t).setRow row d)))) ∧
    (heads .cpy .copy →
      let rows := j.f 255 224;
      let here := j.f 399 384 = 0xFFFF;
      let bad := copyBad j = true ∨ copyOverlap j (j.f 399 384 == 0xFFFF || j.f 399 384 == s.device) = true;
      let fails := fun (w : State) (st index : Nat) => exec (.copy cl) s = .next (w.endJob cl .cpy j (doneWord st index 0));
      let ahead := s.barredRow j (rows - j.pos) j.pos;
      (bad → ends (.copy cl) .cpy s j 0x01) ∧
      (¬bad → here → ∀ r, ahead.2 = some r → exec (.copy cl) s = .next (ahead.1.endJob cl .cpy j (doneWord 0x16 r 0))) ∧
      (∀ w, ¬bad → here → ahead.2 = none → bit j.p 0 = false → ahead.1.copyRows j (rows - j.pos) j.pos = .done w →
        ends (.copy cl) .cpy w (j.goesOn rows) 0) ∧
      (∀ w r st, ¬bad → here → ahead.2 = none → ahead.1.copyRows j (rows - j.pos) j.pos = .fail w r st →
        exec (.copy cl) s = .next (w.endJob cl .cpy j (doneWord st r 0))) ∧
      (∀ w b, ¬bad → ¬here → j.nack = none → j.rowSent = none → j.pos < rows →
        s.jobRead j pathCpy (j.rowSrc j.pos) (j.f 223 192) = .ok w b →
        (w.boundJob j (j.rowDst j.pos) (j.f 223 192) .w = none →
          exec (.copy cl) s = .next (w.sendRow cl (j.goesOn j.pos) (j.rowDst j.pos) b)) ∧
        ∀ st, w.boundJob j (j.rowDst j.pos) (j.f 223 192) .w = some st → fails w st j.pos) ∧
      (∀ st, ¬bad → ¬here → j.nack = some st → j.pos < rows → fails s st j.pos) ∧
      (¬bad → ¬here → j.nack = none → j.rowSent = none → j.pos = rows → bit j.p 0 = true →
        (s.boundJob j (j.f 383 320) 1 .rw = none → exec (.copy cl) s = .next (s.sendRow cl (j.goesOn j.pos) (j.f 383 320) [])) ∧
        ∀ st, s.boundJob j (j.f 383 320) 1 .rw = some st → fails s st 0) ∧
      (¬bad → ¬here → j.nack = none → j.rowSent = none → rows ≤ j.pos → bit j.p 0 = false → ends (.copy cl) .cpy s j 0)) ∧
    (∀ (r m : Nat) (s0 s1 s2 s3 : State) (b : List Byte) (ls ld : List (Spot × Nat)),
      let n := j.f 223 192;
      Inv s → s.Quiet → s.jobSpots j (s.jobWho j pathCpy) .read .r true (piecesOf (j.rowSrc r) n) = .ok s0 ls →
      s.jobRead j pathCpy (j.rowSrc r) n = .ok s1 b →
      s1.jobSpots j (s1.jobWho j pathCpy) .write .w false (piecesOf (j.rowDst r) n) = .ok s2 ld →
      s.copyRow j r = .ok s3 () → (∀ k a, k < n → pieceByte ld k a → s.NoHead a 1) →
      s.copyRows j (m + 1) r = s3.copyRows j m (r + 1) ∧ (s.barredRow j m r).1.mem = s.mem ∧
      (∀ k, k < n → (∃ a, pieceByte ld k a) ∧ ∃ x, pieceByte ls k x ∧
        ∀ a, pieceByte ld k a → (∀ l, k < l → l < n → ¬pieceByte ld l a) → s3.byteAt a = s.byteAt x) ∧
      ∀ a, (∀ k, k < n → ¬pieceByte ld k a) → s3.byteAt a = s.byteAt a) ∧
    (heads .ixe .gather →
      (gatherBad j = true → ends (.gather cl) .ixe s j 0x01) ∧
      (∀ w, gatherBad j = false → s.gatherRun j (j.arg - j.pos) j.pos j.oob = (.done w, none) → ends (.gather cl) .ixe w j 0) ∧
      (∀ w i lv, gatherBad j = false → s.gatherRun j (j.arg - j.pos) j.pos j.oob = (.done w, some (i, lv)) →
        exec (.gather cl) s = .next (w.endJob cl .ixe j (doneWord 0x1B i lv)))) ∧
    (∀ (i m : Nat) (oob : Option (Nat × Nat)),
      let e := j.elemSize;
      (∀ s1 b lv, s.gatherAt j 3 1 i = .ok s1 (b, lv) → j.f 127 64 % e = 0 →
        ∀ (s2 s3 : State) (ld : List (Spot × Nat)),
        s1.jobSpots j (s1.jobWho j pathIxe) .write .w false (piecesOf (ptrAdd (j.f 127 64) ((e * i : Nat) : Int)) b.length) = .ok s2 ld →
        s1.jobWrite j pathIxe (ptrAdd (j.f 127 64) ((e * i : Nat) : Int)) b = .ok s3 () →
        s.gatherRun j (m + 1) i oob = s3.gatherRun j m (i + 1) (oob.or (lv.map fun l => (i, l))) ∧
        (Inv s1 → s1.Quiet → (∀ k a, k < b.length → pieceByte ld k a → s1.NoHead a 1) →
          (∀ k, k < b.length → (∃ a, pieceByte ld k a) ∧
            ∀ a, pieceByte ld k a → (∀ l, k < l → l < b.length → ¬pieceByte ld l a) → s3.byteAt a = b.getD k 0) ∧
          ∀ a, (∀ k, k < b.length → ¬pieceByte ld k a) → s3.byteAt a = s1.byteAt a)) ∧
      (∀ lv x, j.gCount lv ≤ x → ∃ b, s.gatherAt j (m + 1) lv x = .ok s (b, some lv) ∧ b.length = e ∧
        ∀ k, k < e → b.getD k 0 = BitVec.ofNat 8 (j.f 191 128 / 256 ^ (k % 8))) ∧
      (∀ lv x s1 v, x < j.gCount lv → lv < j.levels → j.gBase lv % 4 = 0 →
        s.jobReadN j pathIxe (ptrAdd (j.gBase lv) ((4 * x : Nat) : Int)) 4 = .ok s1 v →
        s.gatherAt j (m + 1) lv x = s1.gatherAt j m (lv + 1) v) ∧
      (∀ lv x s0 s1 b ls, x < j.gCount lv → j.levels ≤ lv → j.gBase lv % e = 0 → s.Quiet →
        s.jobSpots j (s.jobWho j pathIxe) .read .r true (piecesOf (ptrAdd (j.gBase lv) ((e * x : Nat) : Int)) e) = .ok s0 ls →
        s.jobRead j pathIxe (ptrAdd (j.gBase lv) ((e * x : Nat) : Int)) e = .ok s1 b →
        s.gatherAt j (m + 1) lv x = .ok s1 (b, none) ∧ s1.mem = s.mem ∧ b.length = e ∧
        ∀ k, k < e → ∃ a, pieceByte ls k a ∧ b.getD k 0 = s.byteAt a)) ∧
    (heads .cvr .raster →
      (∀ st, j.pos = 0 → s.rasterCheck cl j = some st → ends (.raster cl) .cvr s j st) ∧
      (∀ w st, j.pos = 0 → s.rasterCheck cl j = none → s.rasterPtrs j = .fail w st → ends (.raster cl) .cvr w j st) ∧
      (∀ s1, (if j.pos = 0 then s.rasterCheck cl j = none ∧ s.rasterPtrs j = .ok s1 () else s1 = s) →
        (∀ w l i st, s1.readSegs j (j.arg - j.pos) j.pos j.read = (.fail w i st, l) → ends (.raster cl) .cvr w j st) ∧
        (∀ s2 s3 l, s1.readSegs j (j.arg - j.pos) j.pos j.read = (.done s2, l) → s2.rasterAdd cl j l = .ok s3 () →
          ends (.raster cl) .cvr s3 j 0))) ∧
    (∀ (segs : List Nat) (s3 : State), s.rasterAdd cl j segs = .ok s3 () →
      (j.p = 0 → j.f 319 256 = 0 ∨ ∀ v ∈ segs, (segLevel v).2 = false) → Inv s →
      (s.rasterCore j = none → s3.mem = s.mem) ∧
      ∀ core, s.rasterCore j = some core →
        let adds := (s.rasterAdds cl j segs).map fun (x : Nat × Int) => (scrKey core (j.target.acc + x.1), x.2);
        (∀ x ∈ adds, x.1 % 4 = 0) → ∀ key, key % 4 = 0 →
          (s3.rd key 4 : Int) = ((s.rd key 4 : Int) + ((adds.filter fun x => x.1 == key).map fun x => x.2).sum) % 2 ^ 32) ∧
    (let j1 := { j with begun := some s.cyc, slotEnd := s.cyc };
      ∀ p ∈ [(Cmd.mloadw, Instr.mloadw cl), (.mloadb, .mloadb cl), (.mma, .mma cl), (.mmab, .mmab cl), (.mepi, .mepi cl)],
      heads .mxe p.1 → j.begun = none → (mxeHeadOk j = false → ends p.2 .mxe s j1 0x01) ∧
        (mxeHeadOk j = true → s.capOk cl j = false → ends p.2 .mxe s j1 0x19)) ∧
    (let k := if j.begun.isSome then j else { j with begun := some s.cyc, slotEnd := s.cyc };
      let slot := fun (m : Nat) => { k with slotEnd := k.begun.getD 0 + m };
      j.begun.isSome = true ∨ (mxeHeadOk j = true ∧ s.capOk cl j = true) →
      (∀ s1 r s2 k2, heads .mxe .mloadw → loadBad j = false → s.keptRecord k.loadBegin (j.f 191 128) = .ok s1 r → fmtValid (recDesc r) = true →
        bscaleOf (recDesc r) = 0 → (let w := (fmtOf (recDesc r)).width;
          s1.loadMacros cl (fun u base => (u.jobRows k.loadBegin (16 * containerOf w) (recStride r) 128 base).bind fun v rows =>
            .ok v { fmt := some (BitVec.ofNat 64 (recDesc r)), binary := false,
                    bits := joinElems 1024 (rows.map fun b => joinElems 8 (unpackCodes w 128 b)) }) 128 (16 * containerOf w) (recStride r)
            { k.loadBegin with read := [r] } (j.maskList.drop j.pos) j.pos = (.done s2, k2)) →
        ends (.mloadw cl) .mxe s2 k2 0) ∧
      (∀ s2 k2, heads .mxe .mloadb → loadBad j = false → j.f 191 128 = 0 →
        s.loadMacros cl (fun u base => (u.jobReadW k pathMxe base 16384 false).bind fun v b =>
          .ok v { fmt := none, binary := true, bits := natOfBytes b }) 1024 16 16 k.loadBegin (j.maskList.drop j.pos) j.pos =
          (.done s2, k2) →
        ends (.mloadb cl) .mxe s2 k2 0) ∧
      (∀ s1 r s2 l, heads .mxe .mma → mmaBad j = false → (∀ x ∈ s.used16 cl (j.f 223 216), x.binary = false) →
        let k0 := if j.read.isEmpty then slot 64 else k;
        s.keptRecord k0 (j.f 191 128) = .ok s1 r → fmtValid (recDesc r) = true →
        let k1 := { slot (64 + j.f 231 224 * (fmtOf (recDesc r)).width) with read := if j.read.isEmpty then [r] else j.read };
        s1.rowsRead (fun u i => (u.mmaRead k0 r (recDesc r) (128 * j.f 223 216) i).bind fun u x => .ok u [x.1, x.2])
          (j.arg - j.pos) j.pos k1.read = (.done s2, l) →
        ends (.mma cl) .mxe s2 { k1 with read := l } 0) ∧
      (heads .mxe .mmab → mmaBad j = false → j.f 191 128 = 0 → (∀ x ∈ s.used16 cl (j.f 223 216), x.fmt = none) →
        let t0 := if bit j.p 0 then Tile.clear else s.tile cl (j.f 215 208);
        (∀ s2 l, t0.ktotal + 1024 * j.f 223 216 ≤ 2 ^ 20 →
          s.rowsRead (fun u i => (u.jobReadN k pathMxe (ptrAdd (j.f 127 64) ((128 * j.f 223 216 * i : Nat) : Int))
            (128 * j.f 223 216)).bind fun u b => .ok u [b]) (j.arg - j.pos) j.pos j.read = (.done s2, l) →
          ends (.mmab cl) .mxe s2 { slot (64 + 8 * j.f 231 224) with read := l } 0) ∧
        (2 ^ 20 < t0.ktotal + 1024 * j.f 223 216 → ends (.mmab cl) .mxe s (slot 64) 0x17)) ∧
      (∀ s1 r s2 s3, heads .mxe .mepi → j.f 383 272 = 0 → 0 < j.f 271 264 → j.f 271 264 ≤ 128 → j.f 255 192 % 8 = 0 →
        let k1 := slot (64 + 2 * j.f 271 264);
        s.keptRecord k1 (j.f 191 128) = .ok s1 r → (j.p % 8 = 3 → fmtValid (recDesc r) = true) →
        let t := s1.tile cl (j.f 263 256);
        let k2 := { k1 with read := [r] };
        s1.epiRows k2 (epiFmt (j.p % 8) r) t (if t.count = 0 then 0 else t.window) (recStride r) (j.f 271 264 - j.pos) j.pos = .done s2 →
        s2.jobWrite k2 pathMxe (j.f 255 192) (bytesOfNat 8 t.counter) = .ok s3 () →
        ends (.mepi cl) .mxe s3 (k2.goesOn (j.f 271 264)) 0)) ∧
    (heads .pfe .traverse →
      (j.pos = 0 → exec (.traverse cl) s = .next (s.travStart cl j)) ∧
      (j.pos ≠ 0 → j.pfe.mayDecide = true →
        (∀ x y p, j.pfe.pop = some (x, y, p) → exec (.traverse cl) s = .next (s.travDecide cl j x y p)) ∧
        (∀ s1, j.pfe.pop = none → j.pfe.pending = [] →
          s.jobWrite j pathPfe (travBag j) (List.replicate (16 * dCap j.pfe.desc) 0) = .ok s1 () →
          exec (.traverse cl) s = .next (s1.pfeEnd cl j 0)))) ∧
    (∀ up, heads .pfe (if up then .sweepup else .sweepdn) →
      let i := if up then Instr.sweepup cl else .sweepdn cl;
      (j.pos = 0 → exec i s = .next (s.sweepStart cl j up)) ∧
      (0 < j.pos → j.pos ≤ dCountA j.pfe.desc → exec i s = .next (s.sweepInit cl j up (j.pos - 1))) ∧
      (dCountA j.pfe.desc < j.pos → j.pfe.mayVisit = true →
        (∀ x k t, j.pfe.walk = (x, k) :: t → exec i s = .next (s.sweepWalk cl j up x k t)) ∧
        (j.pfe.walk = [] → j.pfe.pending = [] → j.pfe.tasks = [] → j.pfe.retired = [] → exec i s = .next (s.pfeEnd cl j 0)))) ∧
    ((s.jobs cl .pfe).head? = some j → j.ready = true →
      let m := if j.cmd = .traverse then n else 0;
      (∀ e s1 k, j.pfe.pending[m]? = some e → e.slot = none → s.claimIndex j (j.pfe.record e) = .ok s1 k →
        exec (.pfeEmitEntry cl n) s = .next (s1.setHead cl .pfe (j.withPfe { j.pfe with
          pending := j.pfe.pending.take m ++ { e with slot := some k } :: j.pfe.pending.drop (m + 1) }))) ∧
      (∀ e s1 k, j.pfe.pending[m]? = some e → e.slot = some k → e.filling = false → s.claimSlot j (j.pfe.record e) k = .ok s1 none →
        exec (.pfeEmitEntry cl n) s = .next (s1.setHead cl .pfe (j.withPfe j.pfe))) ∧
      (∀ e s1 s2 k j1, j.pfe.pending[m]? = some e → e.slot = some k → e.filling = false →
        s.claimSlot j (j.pfe.record e) k = .ok s1 (some j1) →
        let out := { j.pfe with pending := j.pfe.pending.eraseIdx m, seqno := j.pfe.seqno + 1,
                                tasks := if 2 ≤ e.kind then j.pfe.tasks ++ [e.a] else j.pfe.tasks }
        j1.pfe = j.pfe ∧
        (s1.fillSlot j1 (j.pfe.record e) e k = .ok s2 () →
          exec (.pfeEmitEntry cl n) s = .next (s2.setHead cl .pfe (j1.withPfe out)))) ∧
      (∀ e s1 k, j.pfe.pending[m]? = some e → e.slot = some k → e.filling = true → s.fillSlot j (j.pfe.record e) e k = .ok s1 () →
        exec (.pfeEmitEntry cl n) s = .next (s1.setHead cl .pfe (j.withPfe { j.pfe with
          pending := j.pfe.pending.eraseIdx m, seqno := j.pfe.seqno + 1,
          tasks := if 2 ≤ e.kind then j.pfe.tasks ++ [e.a] else j.pfe.tasks }))) ∧
      (∀ x acq r, j.pfe.retired = (x, acq) :: r →
        (j.pfe.left = some [] →
          exec (.sweepCounterDecrement cl) s = .next (s.setHead cl .pfe (j.withPfe { j.pfe with retired := r, left := none }))) ∧
        (∀ y s1 j1, j.pfe.left = some [y] → s.decOne j acq y = .ok s1 j1 → exec (.sweepCounterDecrement cl) s =
          .next (s1.setHead cl .pfe (j1.withPfe { j1.pfe with retired := j1.pfe.retired.drop 1, left := none }))) ∧
        (∀ s1 l, j.pfe.left = none → s.dependents j x = .ok s1 l →
          exec (.sweepCounterDecrement cl) s = .next (s1.decAll cl acq j l))))

/-- R211, R228, R229, R294, R295, R310, R311, R318, R332, R343, R346, R352, R357, R358: what happens to the machine of itself or
from outside: a refresh window passes, an armed set of stores is performed, a counter wraps, overflowed pages are queued, writes of
the fabric commit in order and are acknowledged, a link fails, the clock follows its reference or holds over, the host reads and writes,
a soft error is delivered, and power comes and goes. The model's choices: the numbering of streams and agents of the fabric, its
acknowledgements and the functions that count as using a link that fails (log 13), the free values of the firmware check and of the
device key (logs 11, 12), the servo (log 23), what a host access at each address reaches (log 45), and that host memory outlasts a
thermal trip (log 69). -/
def Obligations.EnvironmentEvents : Prop :=
  ∀ (s : State) (n : Nat) (w : FabWrite),
    (∀ die, s.refreshing n = false → exec (.refreshWindowEnd die n) s = .next s) ∧
    (∀ die, s.refreshing n = true → let stop := (s.phcNs - s.phase + 1000 * n + 320) * 3000000000000;
      let per := (1000000000000 + s.rate).toNat;
      ∃ k, exec (.refreshWindowEnd die n) s = .next (s.advance k) ∧ stop ≤ s.phc + k * per ∧ ∀ m, m < k → s.phc + m * per < stop) ∧
    (∀ t, s.trels[n]? = some t → t.time ≤ s.clockNs → s.trelMoves t = false →
      exec (.trelFire n) s = .next (State.trelAll { s with trels := s.trels.eraseIdx n } t 0)) ∧
    (∀ k y, n = s.trels.length + k → s.dueWrites[k]? = some y → s.fabDue y = true →
      exec (.trelFire n) s = .next (State.commitFabric { s with dueWrites := s.dueWrites.eraseIdx k } y)) ∧
    (∀ k y, n = s.trels.length + s.dueWrites.length + k → s.heldWrites[k]? = some y →
      exec (.trelFire n) s =
        .next (if y.retry then State.commitFabric { s with heldWrites := s.heldWrites.eraseIdx k } y.write else s)) ∧
    (∀ core (i : Fin 8), s.counts core ((s.core core).pmsel[i.val]).toNat = false → exec (.pmcOverflow core i.val) s = .next s) ∧
    (∀ core (i : Fin 8), s.counts core ((s.core core).pmsel[i.val]).toNat = true → ((s.core core).pmsel[i.val]).getLsbD 19 = false →
      (s.core core).pmc[i.val] = BitVec.allOnes 48 → ∃ t,
      exec (.pmcOverflow core i.val) s = .next t ∧ (t.core core).pmc[i.val] = 0 ∧
      (t.core core).pmsel[i.val] = (s.core core).pmsel[i.val] ||| BitVec.ofNat 64 (2 ^ 63) ∧
      (∀ k : Fin 8, k ≠ i → (t.core core).pmc[k.val] = (s.core core).pmc[k.val] ∧ (t.core core).pmsel[k.val] = (s.core core).pmsel[k.val]) ∧
      t.mem = s.mem) ∧
    (s.overflowed n = true → let t := s.pages.foldl (State.drainPage n) s;
      exec (.notifyOverflowDrain n) s = .next (if t.overflowed n = true then t else t.nqPending n false)) ∧
    (w.ack = true → exec (.fabricWriteArrival w) s = .next (if w.src = s.device then s.acknowledged w else s)) ∧
    (w.ack = false → w.dst = s.device ∨ (w.dst = 0xFFFF ∧ w.src ≠ s.device) →
      let home := s.dueWrites ++ s.heldWrites.map fun x => x.write;
      ((∃ x ∈ home, x.src = w.src ∧ x.stream = w.stream ∧ x.seq = w.seq) → exec (.fabricWriteArrival w) s = .next s) ∧
      ((∀ x ∈ home, ¬(x.src = w.src ∧ x.stream = w.stream ∧ x.seq = w.seq)) →
        (∀ m, alGet s.committed (s.fabKey w) = some m → w.seq = m →
          exec (.fabricWriteArrival w) s = .next { s with acks := s.acks ++ [{ w with data := [], ack := true }] }) ∧
        (alGet s.committed (s.fabKey w) = none →
          (s.clockNs < w.due → exec (.fabricWriteArrival w) s = .next { s.usesFabric w.vf with dueWrites := s.dueWrites ++ [w] }) ∧
          (w.due ≤ s.clockNs → exec (.fabricWriteArrival w) s = .next ((s.usesFabric w.vf).commitFabric w))))) ∧
    (∀ v, v ∈ (s.usesFabric w.vf).fabUsers ↔ v = w.vf ∨ v ∈ s.fabUsers) ∧ w.vf ∈ (s.sendFabric w).fabUsers ∧
    (∀ k, alGet s.links n = some k → k.up = true → ∃ t : State, exec (.linkFailure n) s = .next t ∧ t.mem = s.mem ∧ t.sent = s.sent ∧
      (alGet t.links n).map (fun x => x.up) = some false ∧
      (∀ v ∈ t.vfs, v.1 ∈ s.fabUsers → v.2.own = true ∧ v.2.why = 1)) ∧
    (∀ port stamp, s.profile = 0 → exec (.ptpEventMessage port stamp) s = .next { s with ptp := alPut s.ptp port stamp }) ∧
    (∀ port stamp, s.profile ≠ 0 → s.clk = 1 → ∃ t : State, exec (.ptpEventMessage port stamp) s = .next t ∧ t.clk = 1 ∧ t.phc = s.phc ∧
      alGet t.ptp port = some stamp) ∧
    (∀ port stamp, s.profile ≠ 0 → ∃ t : State, exec (.ptpEventMessage port stamp) s = .next t ∧ s.phc ≤ t.phc ∧
      (s.clk ≠ 0 → t.phc = s.phc) ∧ t.clk ∈ [1, s.clk]) ∧
    (exec .holdover s = .next (if s.clk = 1 then { s with clk := 2 } else s)) ∧
    (∀ pa, s.mbrdy = true → pa + n ≤ 2 ^ 39 → exec (.hostRead pa n) s = .next { s with hostData := s.rdBytes pa n }) ∧
    (∀ pa, s.mbrdy = false → pa + n ≤ 2 ^ 39 → exec (.hostRead pa n) s = .next { s with hostData := [] }) ∧
    (∀ pa (data : List Byte), s.mbrdy = false → pa < 2 ^ 61 → exec (.hostWrite pa data) s = .next s) ∧
    (∀ pa (data : List Byte), s.mbrdy = true → pa + data.length ≤ 2 ^ 39 → Inv s → s.NoHead pa data.length → s.Quiet →
      ∃ t, exec (.hostWrite pa data) s = .next t ∧ ∀ a, t.byteAt a = if pa ≤ a then (data[a - pa]?).getD (s.byteAt a) else s.byteAt a) ∧
    (∀ (g : Machine.Group) (c : Ctx) core, s.groupOn? core = some g → g.ctx? n = some c →
      let d := s.settled g c;
      exec (.uncorrectableSoftError (.context core n)) s =
        .next ((s.settle g c).takeTrap g.id n 0x3F (s.parcelAt g c d.pcA) d.pcA d.pcE)) ∧
    (∀ e j, (s.jobs n e).head? = some j → (∀ v, j.phase ≠ .done v) →
      exec (.uncorrectableSoftError (.engine n e)) s = .next (if e = .pfe then s.pfeEnd n j 0x3F else s.endJob n e j (doneWord 0x3F 0 0))) ∧
    (s.powered = false → Config.firmwareOk s.boots = false → ∃ t : State, exec .powerGood s = .next t ∧ t.mbrdy = s.mbrdy ∧ t.powered = true) ∧
    (s.powered = false → Config.firmwareOk s.boots = true → ∃ t : State, exec .powerGood s = .next t ∧ t.powered = true ∧ t.mbrdy = true ∧ t.phc = 0 ∧ t.clk = 0 ∧ t.profile = 0 ∧
      t.mem = s.mem ∧ t.deviceKey = bytesOfNat 32 (Config.deviceKey s.boots).toNat ∧ t.deviceKey.length = 32 ∧ t.digests.length = 3 ∧ t.boots = s.boots + 1) ∧
    (s.powered = true → exec .powerGood s = .next s) ∧
    (∃ t : State, exec .thermalTrip s = .next t ∧ t.powered = false ∧ t.mbrdy = false ∧ t.groups = [] ∧ t.launches = [] ∧ t.installed = [] ∧
      t.deviceKey = [] ∧ ∀ a, t.byteAt a = if a / 2 ^ 60 = 2 then s.byteAt a else 0)

/-- R347-R356, R333: while a mailbox command runs another is ignored, and VFRESET runs until the last job of its function is done; a
mailbox command before MBRDY gives status 3; one with an argument block, a result block or a function out
of range gives 2; a command that fails changes nothing but the mailbox's registers; one that succeeds gives status 0 with the length
of its result, which stands at the result block. Status 3 before MBRDY and status 2 before anything else is looked at are the model's
choice (log 13, DESIGN CHOICE), as is what VFCFG and VFRESET leave (log 44, DEDUCED). -/
def Obligations.MailboxResult : Prop :=
  ∀ (s : State) (m : MbCmd) (x y : Nat) (p : Word) (image sig : List Byte) (cores vfs : List Nat),
    let block := fun (n : Nat) => s.rd (hostKey m.arg) n
    let regs := fun (code : Nat) (st : Word) (t : State) =>
      { t with mbctl := BitVec.ofNat 64 (code * 2 ^ 8 + m.vf % 512 * 2 ^ 16), mbarg := m.arg, mbres := m.res, mbstat := st }
    let rows : List (Nat × Instr) := [(1, .vfcfg m), (2, .vfreset m), (3, .capiss m), (4, .csload m x y image sig), (5, .attest m),
      (6, .resync m), (7, .podbar m x y p), (8, .phcsetProfile m), (8, .phcsetStep m), (8, .phcsetSlew m),
      (9, .tshare m cores vfs x), (10, .linkctl m x y), (11, .pwrlim m)]
    (s.mbBusy = true → ∀ r ∈ rows, (r.1 = 2 → s.resetting m.vf = false) → exec r.2 s = .next s) ∧
    (s.resetting m.vf = true → exec (.vfreset m) s = .next (s.vfResetEnd m.vf)) ∧
    (s.mbBusy = false → ∀ r ∈ rows, (s.mbrdy = false → exec r.2 s = .next (regs r.1 3 s)) ∧
      (s.mbrdy = true → m.arg.toNat % 4096 ≠ 0 ∨ m.res.toNat % 65536 ≠ 0 ∨ 512 ≤ m.vf → exec r.2 s = .next (regs r.1 2 s))) ∧
    (s.mbBusy = false → s.mbrdy = true → m.arg.toNat % 4096 = 0 → m.res.toNat % 65536 = 0 → m.vf < 512 →
      let fails := fun (code : Nat) (i : Instr) (st : Word) => exec i s = .next (regs code st s)
      let does := fun (code : Nat) (i : Instr) (t : State) => exec i s = .next (regs code 0 t)
      (blockOk (block 128) = false → fails 1 (.vfcfg m) 2) ∧
      (blockOk (block 128) = true → (∃ g ∈ s.groups, g.vf = m.vf) → fails 1 (.vfcfg m) 3) ∧
      (blockOk (block 128) = true → (∀ g ∈ s.groups, g.vf ≠ m.vf) → does 1 (.vfcfg m)
        (s.updVf m.vf fun v => { v with block := BitVec.ofNat 1024 (block 128) })) ∧
      (∃ t : State, exec (.vfreset m) s = .next t ∧ t.mbstat = 0 ∧ (∀ g ∈ t.groups, g.vf ≠ m.vf) ∧
        (t.mbBusy = true ↔ ∃ z ∈ t.allJobs, z.2.2.vf = m.vf)) ∧
      (∃ t : State, exec (.capiss m) s = .next t ∧ t.mbstat = BitVec.ofNat 64 (8 * 2 ^ 32) ∧ t.groups = s.groups ∧
        (Inv s → (∀ v ∈ s.vfs, v.2.fq < 2 ^ 60 ∧ v.2.nq < 2 ^ 60) → s.pending = [] → m.res.toNat < 2 ^ 56 →
          t.rd (hostKey m.res) 8 = s.capTag (block 8))) ∧
      (((x ≠ 3 ∧ x ≠ 4) ∨ y < 2 ∨ 15 < y → fails 4 (.csload m x y image sig) 2) ∧
        (x = 3 ∨ x = 4 → 2 ≤ y → y ≤ 15 → (Config.signatureOk image sig = false → fails 4 (.csload m x y image sig) 4) ∧
          (Config.signatureOk image sig = true → does 4 (.csload m x y image sig)
            { s.measure image with installed := s.installed.filter (fun z => !(z.1 == x && z.2.1 == y)) ++ [(x, y, image)] }))) ∧
      (∃ t : State, exec (.attest m) s = .next t ∧ t.groups = s.groups ∧ t.chain = s.chain ∧
        t.mbstat = BitVec.ofNat 64 ((s.attested m).length * 2 ^ 32 + 3309 * 2 ^ 32)) ∧
      (∃ t : State, exec (.resync m) s = .next t ∧ t.groups = s.groups ∧ t.mbstat = BitVec.ofNat 64 (s.summary.length * 2 ^ 32)) ∧
      (y < 2 ∨ 4096 < y → fails 7 (.podbar m x y p) 2) ∧
      (2 ≤ y → y ≤ 4096 → (∀ z ∈ s.pods, z.id ≠ x) → ∃ z : Pod, z.id = x ∧ z.count = y ∧ z.members = 1 ∧
        does 7 (.podbar m x y p) { s with pods := s.pods ++ [z] }) ∧
      (let v := block 32;
        (v / 2 ^ 16 = 0 → v % 2 ^ 8 = 0 → v / 2 ^ 8 ≤ 2 → does 8 (.phcsetProfile m)
          { s with profile := v / 2 ^ 8, clk := 0, correction := 0 }) ∧
        (v % 2 ^ 64 = 1 → v / 2 ^ 128 = 0 → (∀ r ∈ s.reservations, r.bound ≤ s.thirds) →
          does 8 (.phcsetStep m) (s.stepPhc (toI 64 (v / 2 ^ 64)))) ∧
        (v % 2 ^ 128 = 2 → v / 2 ^ 160 = 0 → -200000000 ≤ toI 32 (v / 2 ^ 128) → toI 32 (v / 2 ^ 128) ≤ 200000000 →
          does 8 (.phcsetSlew m) { s with freq := toI 32 (v / 2 ^ 128) })) ∧
      (cores ≠ [] → vfs ≠ [] → vfs.length ≤ 8 → 0 < x → (∀ k ∈ cores, k < 2048) → (∀ v ∈ vfs, v < 512) →
        (∀ k ∈ cores, k ∉ s.heldCores (dieOfCore k)) → does 9 (.tshare m cores vfs x)
        { s with timeShares := s.timeShares.filter (fun t => !t.cores.any fun k => cores.contains k) ++
          [{ cores := cores, vfs := vfs, slice := 3000 * x, start := s.cyc, turn := 0, saved := [] }] }) ∧
      (x < 0xFFFF → y < 2 ^ 18 → ∃ l, does 10 (.linkctl m x y) { s with device := x, links := l } ∧
        ∀ i, i < 18 → (alGet l i).map (fun k => k.enabled) = some (bit y i)) ∧
      (block 8 < 1200 ∨ 2400 < block 8 → fails 11 (.pwrlim m) 2) ∧
      (1200 ≤ block 8 → block 8 ≤ 2400 → does 11 (.pwrlim m) { s with powerLimit := block 8 }))

/-! ### No step stops -/

/-- Whatever the state, an event ends in a next state, and so does every instruction of a program whose context runs: no
instruction faults or is refused. Nor does a step, where no two groups have one number. -/
def Obligations.NothingStops : Prop :=
  (∀ (i : Instr) (s : State), (isEvent i = true ∨ ∃ g c, s.Acts g c) → ∃ t, exec i s = .next t) ∧
    ∀ s : State, s.Ids → SafeStep s

/-- Every step keeps the groups' numbers apart, and below the next that the machine gives (DESIGN CHOICE, log 1: the numbers are the
model's own). -/
def Obligations.StepKeepsGroupNumbers : Prop := ∀ s t : State, s.Ids → step s = .next t → t.Ids
end

