-- ==== Sys2Proof/Laws/Ends.lean ====
section
/-! SUPPORT. What the wrappers of an instruction answer once its effect is known: one lemma for each way to end, for each of
the three wrappers. -/

namespace Sys2Proof.Machine

variable {i : Instr} {s t : State} {g : Group} {c : Ctx} {f : State → Group → Ctx → Act}

/-! ### Classes A and X -/

theorem runA_done (h : s.Acts g c) (e : f s g c = .done t) : runA i s f = .next (t.endsA g c (nextPc i c)) := by
  simp only [runA, show s.here? = some (g, c) from h, e]; rfl
theorem runA_goto {d : Word} (h : s.Acts g c) (e : f s g c = .goto t d) : runA i s f = .next (t.endsA g c d) := by
  simp only [runA, show s.here? = some (g, c) from h, e]; rfl
theorem runA_wait {w : Wait} (h : s.Acts g c) (e : f s g c = .wait t w) : runA i s f = .next (t.waitsA g c w) := by
  simp only [runA, show s.here? = some (g, c) from h, e]; rfl
theorem runA_trap {cause : Nat} {tval : Option Word} (h : s.Acts g c) (hd : c.drained = true)
    (e : f s g c = .trap t cause tval false) :
    runA i s f = .next (t.trapsA g c cause (tval.getD (firstParcel i))) := by
  simp only [runA, show s.here? = some (g, c) from h, e, State.finishA, hd]; rfl
theorem runA_trap_waits {cause : Nat} {tval : Option Word} {after : Bool} (h : s.Acts g c) (hd : c.drained = false)
    (e : f s g c = .trap t cause tval after) :
    runA i s f = .next (s.drainsA g c) := by
  simp only [runA, show s.here? = some (g, c) from h, e, State.finishA, hd, Bool.false_eq_true, if_false, State.drainsA]
  exact congrArg _ (congrArg _ (funext fun x => by simp [Ctx.waitForA]))

theorem runA_raise {cause : Nat} (h : s.Acts g c) (hd : c.drained = true) (e : f s g c = .raise t cause) :
    runA i s f = .next (t.trapsA g c cause (firstParcel i)) := runA_trap (tval := none) h hd e

/-! ### Class S -/

theorem runS_done (h : s.Acts g c) (hd : c.drained = true) (e : f (s.synced g c) g c.seeBoth = .done t) :
    runS i s f = .next (t.endsA g c (nextPc i c)) := by
  simp only [State.synced] at e
  simp only [runS, show s.here? = some (g, c) from h, hd, e, if_true]; rfl
theorem runS_wait {w : Wait} (h : s.Acts g c) (hd : c.drained = true) (e : f (s.synced g c) g c.seeBoth = .wait t w) :
    runS i s f = .next (t.waitsA g c w) := by
  simp only [State.synced] at e
  simp only [runS, show s.here? = some (g, c) from h, hd, e, if_true]; rfl
theorem runS_trap {cause : Nat} {tval : Option Word} (h : s.Acts g c) (hd : c.drained = true)
    (e : f (s.synced g c) g c.seeBoth = .trap t cause tval false) :
    runS i s f = .next (t.trapsA g c cause (tval.getD (firstParcel i))) := by
  simp only [State.synced] at e
  simp only [runS, show s.here? = some (g, c) from h, hd, e, if_true, State.finishA]; rfl
theorem runS_raise {cause : Nat} (h : s.Acts g c) (hd : c.drained = true) (e : f (s.synced g c) g c.seeBoth = .raise t cause) :
    runS i s f = .next (t.trapsA g c cause (firstParcel i)) := runS_trap (tval := none) h hd e
/-- A trap whose EPC is behind the instruction (R326). -/
theorem runS_trap_after {cause : Nat} {tval : Word} (h : s.Acts g c) (hd : c.drained = true)
    (e : f (s.synced g c) g c.seeBoth = .trap t cause (some tval) true) :
    runS i s f = .next ((t.updCtx g.id c.num fun x => x.rejoin.endInstr false).takeTrap g.id c.num cause tval (nextPc i c) (nextPc i c)) := by
  simp only [State.synced] at e
  simp only [runS, show s.here? = some (g, c) from h, hd, e, if_true, State.finishA]; rfl
theorem runS_moved (h : s.Acts g c) (hd : c.drained = true) (e : f (s.synced g c) g c.seeBoth = .moved t) :
    runS i s f = .next (t.count g.core 2 1 g.vf c.csr.mode) := by
  simp only [State.synced] at e
  simp only [runS, show s.here? = some (g, c) from h, hd, e, if_true]; rfl

/-! ### Class E -/

theorem runE_done (h : s.Acts g c) (e : f s g c = .done t) : runE i s f = .next (t.endsE g c (offPtr c.pcE i.size)) := by
  simp only [runE, show s.here? = some (g, c) from h, e]; rfl
theorem runE_wait {w : Wait} (h : s.Acts g c) (e : f s g c = .wait t w) : runE i s f = .next (t.waitsE g c w) := by
  simp only [runE, show s.here? = some (g, c) from h, e]; rfl

/-! ### The release gate -/

/-- A release whose waits are over goes on (R158, R280). -/
theorem releaseGate_open (h : s.GateOpen g c) (k : State → Act) : releaseGate s g c k = k s := by
  unfold releaseGate
  rw [if_neg (by simp [h.1])]
  dsimp only
  rw [if_neg]
  rw [List.any_eq_true]
  rintro ⟨e, he, hd⟩
  exact absurd hd (by simp [h.2 e he])
/-- An instruction whose release has been made, now or before, goes on with it (R282, R295). -/
theorem released_made {tag : Nat} (h : s.Released g c t tag) (k : State → Nat → Act) : released s g c k = k t tag := by
  unfold released
  rcases h with ⟨h, rfl⟩ | ⟨h, open_, rfl, rfl⟩
  · rw [h]
  · rw [h]
    exact releaseGate_open open_ _
/-- Ordering the two streams leaves the gate open. -/
theorem gateOpen_synced (h : s.GateOpen g c) : (s.synced g c).GateOpen g c.seeBoth := h

end Sys2Proof.Machine
end

