-- ==== Sys2Proof/Laws/State.lean ====
section
/-! SUPPORT. What each update of a state leaves alone: one lemma per field per update, all by rfl. -/

namespace Sys2Proof.Machine

/-! updGroup -/

@[simp] theorem State.updGroup_mem (s : State) (gid : Nat) (f : Group → Group) : (s.updGroup gid f).mem = s.mem := rfl
@[simp] theorem State.updGroup_recs (s : State) (gid : Nat) (f : Group → Group) : (s.updGroup gid f).recs = s.recs := rfl
@[simp] theorem State.updGroup_marks (s : State) (gid : Nat) (f : Group → Group) : (s.updGroup gid f).marks = s.marks := rfl
@[simp] theorem State.updGroup_olds (s : State) (gid : Nat) (f : Group → Group) : (s.updGroup gid f).olds = s.olds := rfl
@[simp] theorem State.updGroup_code (s : State) (gid : Nat) (f : Group → Group) : (s.updGroup gid f).code = s.code := rfl
@[simp] theorem State.updGroup_fences (s : State) (gid : Nat) (f : Group → Group) : (s.updGroup gid f).fences = s.fences := rfl
@[simp] theorem State.updGroup_rels (s : State) (gid : Nat) (f : Group → Group) : (s.updGroup gid f).rels = s.rels := rfl
@[simp] theorem State.updGroup_adopted (s : State) (gid : Nat) (f : Group → Group) : (s.updGroup gid f).adopted = s.adopted := rfl
@[simp] theorem State.updGroup_gone (s : State) (gid : Nat) (f : Group → Group) : (s.updGroup gid f).gone = s.gone := rfl
@[simp] theorem State.updGroup_xlat (s : State) (gid : Nat) (f : Group → Group) : (s.updGroup gid f).xlat = s.xlat := rfl
@[simp] theorem State.updGroup_slices (s : State) (gid : Nat) (f : Group → Group) : (s.updGroup gid f).slices = s.slices := rfl
@[simp] theorem State.updGroup_owned (s : State) (gid : Nat) (f : Group → Group) : (s.updGroup gid f).owned = s.owned := rfl
@[simp] theorem State.updGroup_pages (s : State) (gid : Nat) (f : Group → Group) : (s.updGroup gid f).pages = s.pages := rfl
@[simp] theorem State.updGroup_touched (s : State) (gid : Nat) (f : Group → Group) : (s.updGroup gid f).touched = s.touched := rfl
@[simp] theorem State.updGroup_named (s : State) (gid : Nat) (f : Group → Group) : (s.updGroup gid f).named = s.named := rfl
@[simp] theorem State.updGroup_moving (s : State) (gid : Nat) (f : Group → Group) : (s.updGroup gid f).moving = s.moving := rfl
@[simp] theorem State.updGroup_cores (s : State) (gid : Nat) (f : Group → Group) : (s.updGroup gid f).cores = s.cores := rfl
@[simp] theorem State.updGroup_clusters (s : State) (gid : Nat) (f : Group → Group) : (s.updGroup gid f).clusters = s.clusters := rfl
@[simp] theorem State.updGroup_keys (s : State) (gid : Nat) (f : Group → Group) : (s.updGroup gid f).keys = s.keys := rfl
@[simp] theorem State.updGroup_barriers (s : State) (gid : Nat) (f : Group → Group) : (s.updGroup gid f).barriers = s.barriers := rfl
@[simp] theorem State.updGroup_pods (s : State) (gid : Nat) (f : Group → Group) : (s.updGroup gid f).pods = s.pods := rfl
@[simp] theorem State.updGroup_trels (s : State) (gid : Nat) (f : Group → Group) : (s.updGroup gid f).trels = s.trels := rfl
@[simp] theorem State.updGroup_launches (s : State) (gid : Nat) (f : Group → Group) : (s.updGroup gid f).launches = s.launches := rfl
@[simp] theorem State.updGroup_reservations (s : State) (gid : Nat) (f : Group → Group) : (s.updGroup gid f).reservations = s.reservations := rfl
@[simp] theorem State.updGroup_submits (s : State) (gid : Nat) (f : Group → Group) : (s.updGroup gid f).submits = s.submits := rfl
@[simp] theorem State.updGroup_published (s : State) (gid : Nat) (f : Group → Group) : (s.updGroup gid f).published = s.published := rfl
@[simp] theorem State.updGroup_shareAt (s : State) (gid : Nat) (f : Group → Group) : (s.updGroup gid f).shareAt = s.shareAt := rfl
@[simp] theorem State.updGroup_vfs (s : State) (gid : Nat) (f : Group → Group) : (s.updGroup gid f).vfs = s.vfs := rfl
@[simp] theorem State.updGroup_errors (s : State) (gid : Nat) (f : Group → Group) : (s.updGroup gid f).errors = s.errors := rfl
@[simp] theorem State.updGroup_pending (s : State) (gid : Nat) (f : Group → Group) : (s.updGroup gid f).pending = s.pending := rfl
@[simp] theorem State.updGroup_mbctl (s : State) (gid : Nat) (f : Group → Group) : (s.updGroup gid f).mbctl = s.mbctl := rfl
@[simp] theorem State.updGroup_mbarg (s : State) (gid : Nat) (f : Group → Group) : (s.updGroup gid f).mbarg = s.mbarg := rfl
@[simp] theorem State.updGroup_mbres (s : State) (gid : Nat) (f : Group → Group) : (s.updGroup gid f).mbres = s.mbres := rfl
@[simp] theorem State.updGroup_mbstat (s : State) (gid : Nat) (f : Group → Group) : (s.updGroup gid f).mbstat = s.mbstat := rfl
@[simp] theorem State.updGroup_mbrdy (s : State) (gid : Nat) (f : Group → Group) : (s.updGroup gid f).mbrdy = s.mbrdy := rfl
@[simp] theorem State.updGroup_hostData (s : State) (gid : Nat) (f : Group → Group) : (s.updGroup gid f).hostData = s.hostData := rfl
@[simp] theorem State.updGroup_powered (s : State) (gid : Nat) (f : Group → Group) : (s.updGroup gid f).powered = s.powered := rfl
@[simp] theorem State.updGroup_boots (s : State) (gid : Nat) (f : Group → Group) : (s.updGroup gid f).boots = s.boots := rfl
@[simp] theorem State.updGroup_powerLimit (s : State) (gid : Nat) (f : Group → Group) : (s.updGroup gid f).powerLimit = s.powerLimit := rfl
@[simp] theorem State.updGroup_device (s : State) (gid : Nat) (f : Group → Group) : (s.updGroup gid f).device = s.device := rfl
@[simp] theorem State.updGroup_links (s : State) (gid : Nat) (f : Group → Group) : (s.updGroup gid f).links = s.links := rfl
@[simp] theorem State.updGroup_sent (s : State) (gid : Nat) (f : Group → Group) : (s.updGroup gid f).sent = s.sent := rfl
@[simp] theorem State.updGroup_streams (s : State) (gid : Nat) (f : Group → Group) : (s.updGroup gid f).streams = s.streams := rfl
@[simp] theorem State.updGroup_committed (s : State) (gid : Nat) (f : Group → Group) : (s.updGroup gid f).committed = s.committed := rfl
@[simp] theorem State.updGroup_dueWrites (s : State) (gid : Nat) (f : Group → Group) : (s.updGroup gid f).dueWrites = s.dueWrites := rfl
@[simp] theorem State.updGroup_heldWrites (s : State) (gid : Nat) (f : Group → Group) : (s.updGroup gid f).heldWrites = s.heldWrites := rfl
@[simp] theorem State.updGroup_fabUsers (s : State) (gid : Nat) (f : Group → Group) : (s.updGroup gid f).fabUsers = s.fabUsers := rfl
@[simp] theorem State.updGroup_acks (s : State) (gid : Nat) (f : Group → Group) : (s.updGroup gid f).acks = s.acks := rfl
@[simp] theorem State.updGroup_timeShares (s : State) (gid : Nat) (f : Group → Group) : (s.updGroup gid f).timeShares = s.timeShares := rfl
@[simp] theorem State.updGroup_installed (s : State) (gid : Nat) (f : Group → Group) : (s.updGroup gid f).installed = s.installed := rfl
@[simp] theorem State.updGroup_chain (s : State) (gid : Nat) (f : Group → Group) : (s.updGroup gid f).chain = s.chain := rfl
@[simp] theorem State.updGroup_digests (s : State) (gid : Nat) (f : Group → Group) : (s.updGroup gid f).digests = s.digests := rfl
@[simp] theorem State.updGroup_deviceKey (s : State) (gid : Nat) (f : Group → Group) : (s.updGroup gid f).deviceKey = s.deviceKey := rfl
@[simp] theorem State.updGroup_cyc (s : State) (gid : Nat) (f : Group → Group) : (s.updGroup gid f).cyc = s.cyc := rfl
@[simp] theorem State.updGroup_phc (s : State) (gid : Nat) (f : Group → Group) : (s.updGroup gid f).phc = s.phc := rfl
@[simp] theorem State.updGroup_clk (s : State) (gid : Nat) (f : Group → Group) : (s.updGroup gid f).clk = s.clk := rfl
@[simp] theorem State.updGroup_profile (s : State) (gid : Nat) (f : Group → Group) : (s.updGroup gid f).profile = s.profile := rfl
@[simp] theorem State.updGroup_freq (s : State) (gid : Nat) (f : Group → Group) : (s.updGroup gid f).freq = s.freq := rfl
@[simp] theorem State.updGroup_correction (s : State) (gid : Nat) (f : Group → Group) : (s.updGroup gid f).correction = s.correction := rfl
@[simp] theorem State.updGroup_ptp (s : State) (gid : Nat) (f : Group → Group) : (s.updGroup gid f).ptp = s.ptp := rfl
@[simp] theorem State.updGroup_tick (s : State) (gid : Nat) (f : Group → Group) : (s.updGroup gid f).tick = s.tick := rfl
@[simp] theorem State.updGroup_nextAgent (s : State) (gid : Nat) (f : Group → Group) : (s.updGroup gid f).nextAgent = s.nextAgent := rfl
@[simp] theorem State.updGroup_nextId (s : State) (gid : Nat) (f : Group → Group) : (s.updGroup gid f).nextId = s.nextId := rfl
@[simp] theorem State.updGroup_free (s : State) (gid : Nat) (f : Group → Group) : (s.updGroup gid f).free = s.free := rfl
@[simp] theorem State.updGroup_script (s : State) (gid : Nat) (f : Group → Group) : (s.updGroup gid f).script = s.script := rfl
@[simp] theorem State.updGroup_rotor (s : State) (gid : Nat) (f : Group → Group) : (s.updGroup gid f).rotor = s.rotor := rfl
@[simp] theorem State.updGroup_cur (s : State) (gid : Nat) (f : Group → Group) : (s.updGroup gid f).cur = s.cur := rfl

/-! updCtx -/

@[simp] theorem State.updCtx_mem (s : State) (gid n : Nat) (f : Ctx → Ctx) : (s.updCtx gid n f).mem = s.mem := rfl
@[simp] theorem State.updCtx_recs (s : State) (gid n : Nat) (f : Ctx → Ctx) : (s.updCtx gid n f).recs = s.recs := rfl
@[simp] theorem State.updCtx_marks (s : State) (gid n : Nat) (f : Ctx → Ctx) : (s.updCtx gid n f).marks = s.marks := rfl
@[simp] theorem State.updCtx_olds (s : State) (gid n : Nat) (f : Ctx → Ctx) : (s.updCtx gid n f).olds = s.olds := rfl
@[simp] theorem State.updCtx_code (s : State) (gid n : Nat) (f : Ctx → Ctx) : (s.updCtx gid n f).code = s.code := rfl
@[simp] theorem State.updCtx_fences (s : State) (gid n : Nat) (f : Ctx → Ctx) : (s.updCtx gid n f).fences = s.fences := rfl
@[simp] theorem State.updCtx_rels (s : State) (gid n : Nat) (f : Ctx → Ctx) : (s.updCtx gid n f).rels = s.rels := rfl
@[simp] theorem State.updCtx_adopted (s : State) (gid n : Nat) (f : Ctx → Ctx) : (s.updCtx gid n f).adopted = s.adopted := rfl
@[simp] theorem State.updCtx_gone (s : State) (gid n : Nat) (f : Ctx → Ctx) : (s.updCtx gid n f).gone = s.gone := rfl
@[simp] theorem State.updCtx_xlat (s : State) (gid n : Nat) (f : Ctx → Ctx) : (s.updCtx gid n f).xlat = s.xlat := rfl
@[simp] theorem State.updCtx_slices (s : State) (gid n : Nat) (f : Ctx → Ctx) : (s.updCtx gid n f).slices = s.slices := rfl
@[simp] theorem State.updCtx_owned (s : State) (gid n : Nat) (f : Ctx → Ctx) : (s.updCtx gid n f).owned = s.owned := rfl
@[simp] theorem State.updCtx_pages (s : State) (gid n : Nat) (f : Ctx → Ctx) : (s.updCtx gid n f).pages = s.pages := rfl
@[simp] theorem State.updCtx_touched (s : State) (gid n : Nat) (f : Ctx → Ctx) : (s.updCtx gid n f).touched = s.touched := rfl
@[simp] theorem State.updCtx_named (s : State) (gid n : Nat) (f : Ctx → Ctx) : (s.updCtx gid n f).named = s.named := rfl
@[simp] theorem State.updCtx_moving (s : State) (gid n : Nat) (f : Ctx → Ctx) : (s.updCtx gid n f).moving = s.moving := rfl
@[simp] theorem State.updCtx_cores (s : State) (gid n : Nat) (f : Ctx → Ctx) : (s.updCtx gid n f).cores = s.cores := rfl
@[simp] theorem State.updCtx_clusters (s : State) (gid n : Nat) (f : Ctx → Ctx) : (s.updCtx gid n f).clusters = s.clusters := rfl
@[simp] theorem State.updCtx_keys (s : State) (gid n : Nat) (f : Ctx → Ctx) : (s.updCtx gid n f).keys = s.keys := rfl
@[simp] theorem State.updCtx_barriers (s : State) (gid n : Nat) (f : Ctx → Ctx) : (s.updCtx gid n f).barriers = s.barriers := rfl
@[simp] theorem State.updCtx_pods (s : State) (gid n : Nat) (f : Ctx → Ctx) : (s.updCtx gid n f).pods = s.pods := rfl
@[simp] theorem State.updCtx_trels (s : State) (gid n : Nat) (f : Ctx → Ctx) : (s.updCtx gid n f).trels = s.trels := rfl
@[simp] theorem State.updCtx_launches (s : State) (gid n : Nat) (f : Ctx → Ctx) : (s.updCtx gid n f).launches = s.launches := rfl
@[simp] theorem State.updCtx_reservations (s : State) (gid n : Nat) (f : Ctx → Ctx) : (s.updCtx gid n f).reservations = s.reservations := rfl
@[simp] theorem State.updCtx_submits (s : State) (gid n : Nat) (f : Ctx → Ctx) : (s.updCtx gid n f).submits = s.submits := rfl
@[simp] theorem State.updCtx_published (s : State) (gid n : Nat) (f : Ctx → Ctx) : (s.updCtx gid n f).published = s.published := rfl
@[simp] theorem State.updCtx_shareAt (s : State) (gid n : Nat) (f : Ctx → Ctx) : (s.updCtx gid n f).shareAt = s.shareAt := rfl
@[simp] theorem State.updCtx_vfs (s : State) (gid n : Nat) (f : Ctx → Ctx) : (s.updCtx gid n f).vfs = s.vfs := rfl
@[simp] theorem State.updCtx_errors (s : State) (gid n : Nat) (f : Ctx → Ctx) : (s.updCtx gid n f).errors = s.errors := rfl
@[simp] theorem State.updCtx_pending (s : State) (gid n : Nat) (f : Ctx → Ctx) : (s.updCtx gid n f).pending = s.pending := rfl
@[simp] theorem State.updCtx_mbctl (s : State) (gid n : Nat) (f : Ctx → Ctx) : (s.updCtx gid n f).mbctl = s.mbctl := rfl
@[simp] theorem State.updCtx_mbarg (s : State) (gid n : Nat) (f : Ctx → Ctx) : (s.updCtx gid n f).mbarg = s.mbarg := rfl
@[simp] theorem State.updCtx_mbres (s : State) (gid n : Nat) (f : Ctx → Ctx) : (s.updCtx gid n f).mbres = s.mbres := rfl
@[simp] theorem State.updCtx_mbstat (s : State) (gid n : Nat) (f : Ctx → Ctx) : (s.updCtx gid n f).mbstat = s.mbstat := rfl
@[simp] theorem State.updCtx_mbrdy (s : State) (gid n : Nat) (f : Ctx → Ctx) : (s.updCtx gid n f).mbrdy = s.mbrdy := rfl
@[simp] theorem State.updCtx_hostData (s : State) (gid n : Nat) (f : Ctx → Ctx) : (s.updCtx gid n f).hostData = s.hostData := rfl
@[simp] theorem State.updCtx_powered (s : State) (gid n : Nat) (f : Ctx → Ctx) : (s.updCtx gid n f).powered = s.powered := rfl
@[simp] theorem State.updCtx_boots (s : State) (gid n : Nat) (f : Ctx → Ctx) : (s.updCtx gid n f).boots = s.boots := rfl
@[simp] theorem State.updCtx_powerLimit (s : State) (gid n : Nat) (f : Ctx → Ctx) : (s.updCtx gid n f).powerLimit = s.powerLimit := rfl
@[simp] theorem State.updCtx_device (s : State) (gid n : Nat) (f : Ctx → Ctx) : (s.updCtx gid n f).device = s.device := rfl
@[simp] theorem State.updCtx_links (s : State) (gid n : Nat) (f : Ctx → Ctx) : (s.updCtx gid n f).links = s.links := rfl
@[simp] theorem State.updCtx_sent (s : State) (gid n : Nat) (f : Ctx → Ctx) : (s.updCtx gid n f).sent = s.sent := rfl
@[simp] theorem State.updCtx_streams (s : State) (gid n : Nat) (f : Ctx → Ctx) : (s.updCtx gid n f).streams = s.streams := rfl
@[simp] theorem State.updCtx_committed (s : State) (gid n : Nat) (f : Ctx → Ctx) : (s.updCtx gid n f).committed = s.committed := rfl
@[simp] theorem State.updCtx_dueWrites (s : State) (gid n : Nat) (f : Ctx → Ctx) : (s.updCtx gid n f).dueWrites = s.dueWrites := rfl
@[simp] theorem State.updCtx_heldWrites (s : State) (gid n : Nat) (f : Ctx → Ctx) : (s.updCtx gid n f).heldWrites = s.heldWrites := rfl
@[simp] theorem State.updCtx_fabUsers (s : State) (gid n : Nat) (f : Ctx → Ctx) : (s.updCtx gid n f).fabUsers = s.fabUsers := rfl
@[simp] theorem State.updCtx_acks (s : State) (gid n : Nat) (f : Ctx → Ctx) : (s.updCtx gid n f).acks = s.acks := rfl
@[simp] theorem State.updCtx_timeShares (s : State) (gid n : Nat) (f : Ctx → Ctx) : (s.updCtx gid n f).timeShares = s.timeShares := rfl
@[simp] theorem State.updCtx_installed (s : State) (gid n : Nat) (f : Ctx → Ctx) : (s.updCtx gid n f).installed = s.installed := rfl
@[simp] theorem State.updCtx_chain (s : State) (gid n : Nat) (f : Ctx → Ctx) : (s.updCtx gid n f).chain = s.chain := rfl
@[simp] theorem State.updCtx_digests (s : State) (gid n : Nat) (f : Ctx → Ctx) : (s.updCtx gid n f).digests = s.digests := rfl
@[simp] theorem State.updCtx_deviceKey (s : State) (gid n : Nat) (f : Ctx → Ctx) : (s.updCtx gid n f).deviceKey = s.deviceKey := rfl
@[simp] theorem State.updCtx_cyc (s : State) (gid n : Nat) (f : Ctx → Ctx) : (s.updCtx gid n f).cyc = s.cyc := rfl
@[simp] theorem State.updCtx_phc (s : State) (gid n : Nat) (f : Ctx → Ctx) : (s.updCtx gid n f).phc = s.phc := rfl
@[simp] theorem State.updCtx_clk (s : State) (gid n : Nat) (f : Ctx → Ctx) : (s.updCtx gid n f).clk = s.clk := rfl
@[simp] theorem State.updCtx_profile (s : State) (gid n : Nat) (f : Ctx → Ctx) : (s.updCtx gid n f).profile = s.profile := rfl
@[simp] theorem State.updCtx_freq (s : State) (gid n : Nat) (f : Ctx → Ctx) : (s.updCtx gid n f).freq = s.freq := rfl
@[simp] theorem State.updCtx_correction (s : State) (gid n : Nat) (f : Ctx → Ctx) : (s.updCtx gid n f).correction = s.correction := rfl
@[simp] theorem State.updCtx_ptp (s : State) (gid n : Nat) (f : Ctx → Ctx) : (s.updCtx gid n f).ptp = s.ptp := rfl
@[simp] theorem State.updCtx_tick (s : State) (gid n : Nat) (f : Ctx → Ctx) : (s.updCtx gid n f).tick = s.tick := rfl
@[simp] theorem State.updCtx_nextAgent (s : State) (gid n : Nat) (f : Ctx → Ctx) : (s.updCtx gid n f).nextAgent = s.nextAgent := rfl
@[simp] theorem State.updCtx_nextId (s : State) (gid n : Nat) (f : Ctx → Ctx) : (s.updCtx gid n f).nextId = s.nextId := rfl
@[simp] theorem State.updCtx_free (s : State) (gid n : Nat) (f : Ctx → Ctx) : (s.updCtx gid n f).free = s.free := rfl
@[simp] theorem State.updCtx_script (s : State) (gid n : Nat) (f : Ctx → Ctx) : (s.updCtx gid n f).script = s.script := rfl
@[simp] theorem State.updCtx_rotor (s : State) (gid n : Nat) (f : Ctx → Ctx) : (s.updCtx gid n f).rotor = s.rotor := rfl
@[simp] theorem State.updCtx_cur (s : State) (gid n : Nat) (f : Ctx → Ctx) : (s.updCtx gid n f).cur = s.cur := rfl

/-! updCore -/

@[simp] theorem State.updCore_mem (s : State) (n : Nat) (f : Core → Core) : (s.updCore n f).mem = s.mem := rfl
@[simp] theorem State.updCore_recs (s : State) (n : Nat) (f : Core → Core) : (s.updCore n f).recs = s.recs := rfl
@[simp] theorem State.updCore_marks (s : State) (n : Nat) (f : Core → Core) : (s.updCore n f).marks = s.marks := rfl
@[simp] theorem State.updCore_olds (s : State) (n : Nat) (f : Core → Core) : (s.updCore n f).olds = s.olds := rfl
@[simp] theorem State.updCore_code (s : State) (n : Nat) (f : Core → Core) : (s.updCore n f).code = s.code := rfl
@[simp] theorem State.updCore_fences (s : State) (n : Nat) (f : Core → Core) : (s.updCore n f).fences = s.fences := rfl
@[simp] theorem State.updCore_rels (s : State) (n : Nat) (f : Core → Core) : (s.updCore n f).rels = s.rels := rfl
@[simp] theorem State.updCore_adopted (s : State) (n : Nat) (f : Core → Core) : (s.updCore n f).adopted = s.adopted := rfl
@[simp] theorem State.updCore_gone (s : State) (n : Nat) (f : Core → Core) : (s.updCore n f).gone = s.gone := rfl
@[simp] theorem State.updCore_xlat (s : State) (n : Nat) (f : Core → Core) : (s.updCore n f).xlat = s.xlat := rfl
@[simp] theorem State.updCore_slices (s : State) (n : Nat) (f : Core → Core) : (s.updCore n f).slices = s.slices := rfl
@[simp] theorem State.updCore_owned (s : State) (n : Nat) (f : Core → Core) : (s.updCore n f).owned = s.owned := rfl
@[simp] theorem State.updCore_pages (s : State) (n : Nat) (f : Core → Core) : (s.updCore n f).pages = s.pages := rfl
@[simp] theorem State.updCore_touched (s : State) (n : Nat) (f : Core → Core) : (s.updCore n f).touched = s.touched := rfl
@[simp] theorem State.updCore_named (s : State) (n : Nat) (f : Core → Core) : (s.updCore n f).named = s.named := rfl
@[simp] theorem State.updCore_moving (s : State) (n : Nat) (f : Core → Core) : (s.updCore n f).moving = s.moving := rfl
@[simp] theorem State.updCore_groups (s : State) (n : Nat) (f : Core → Core) : (s.updCore n f).groups = s.groups := rfl
@[simp] theorem State.updCore_clusters (s : State) (n : Nat) (f : Core → Core) : (s.updCore n f).clusters = s.clusters := rfl
@[simp] theorem State.updCore_keys (s : State) (n : Nat) (f : Core → Core) : (s.updCore n f).keys = s.keys := rfl
@[simp] theorem State.updCore_barriers (s : State) (n : Nat) (f : Core → Core) : (s.updCore n f).barriers = s.barriers := rfl
@[simp] theorem State.updCore_pods (s : State) (n : Nat) (f : Core → Core) : (s.updCore n f).pods = s.pods := rfl
@[simp] theorem State.updCore_trels (s : State) (n : Nat) (f : Core → Core) : (s.updCore n f).trels = s.trels := rfl
@[simp] theorem State.updCore_launches (s : State) (n : Nat) (f : Core → Core) : (s.updCore n f).launches = s.launches := rfl
@[simp] theorem State.updCore_reservations (s : State) (n : Nat) (f : Core → Core) : (s.updCore n f).reservations = s.reservations := rfl
@[simp] theorem State.updCore_submits (s : State) (n : Nat) (f : Core → Core) : (s.updCore n f).submits = s.submits := rfl
@[simp] theorem State.updCore_published (s : State) (n : Nat) (f : Core → Core) : (s.updCore n f).published = s.published := rfl
@[simp] theorem State.updCore_shareAt (s : State) (n : Nat) (f : Core → Core) : (s.updCore n f).shareAt = s.shareAt := rfl
@[simp] theorem State.updCore_vfs (s : State) (n : Nat) (f : Core → Core) : (s.updCore n f).vfs = s.vfs := rfl
@[simp] theorem State.updCore_errors (s : State) (n : Nat) (f : Core → Core) : (s.updCore n f).errors = s.errors := rfl
@[simp] theorem State.updCore_pending (s : State) (n : Nat) (f : Core → Core) : (s.updCore n f).pending = s.pending := rfl
@[simp] theorem State.updCore_mbctl (s : State) (n : Nat) (f : Core → Core) : (s.updCore n f).mbctl = s.mbctl := rfl
@[simp] theorem State.updCore_mbarg (s : State) (n : Nat) (f : Core → Core) : (s.updCore n f).mbarg = s.mbarg := rfl
@[simp] theorem State.updCore_mbres (s : State) (n : Nat) (f : Core → Core) : (s.updCore n f).mbres = s.mbres := rfl
@[simp] theorem State.updCore_mbstat (s : State) (n : Nat) (f : Core → Core) : (s.updCore n f).mbstat = s.mbstat := rfl
@[simp] theorem State.updCore_mbrdy (s : State) (n : Nat) (f : Core → Core) : (s.updCore n f).mbrdy = s.mbrdy := rfl
@[simp] theorem State.updCore_hostData (s : State) (n : Nat) (f : Core → Core) : (s.updCore n f).hostData = s.hostData := rfl
@[simp] theorem State.updCore_powered (s : State) (n : Nat) (f : Core → Core) : (s.updCore n f).powered = s.powered := rfl
@[simp] theorem State.updCore_boots (s : State) (n : Nat) (f : Core → Core) : (s.updCore n f).boots = s.boots := rfl
@[simp] theorem State.updCore_powerLimit (s : State) (n : Nat) (f : Core → Core) : (s.updCore n f).powerLimit = s.powerLimit := rfl
@[simp] theorem State.updCore_device (s : State) (n : Nat) (f : Core → Core) : (s.updCore n f).device = s.device := rfl
@[simp] theorem State.updCore_links (s : State) (n : Nat) (f : Core → Core) : (s.updCore n f).links = s.links := rfl
@[simp] theorem State.updCore_sent (s : State) (n : Nat) (f : Core → Core) : (s.updCore n f).sent = s.sent := rfl
@[simp] theorem State.updCore_streams (s : State) (n : Nat) (f : Core → Core) : (s.updCore n f).streams = s.streams := rfl
@[simp] theorem State.updCore_committed (s : State) (n : Nat) (f : Core → Core) : (s.updCore n f).committed = s.committed := rfl
@[simp] theorem State.updCore_dueWrites (s : State) (n : Nat) (f : Core → Core) : (s.updCore n f).dueWrites = s.dueWrites := rfl
@[simp] theorem State.updCore_heldWrites (s : State) (n : Nat) (f : Core → Core) : (s.updCore n f).heldWrites = s.heldWrites := rfl
@[simp] theorem State.updCore_fabUsers (s : State) (n : Nat) (f : Core → Core) : (s.updCore n f).fabUsers = s.fabUsers := rfl
@[simp] theorem State.updCore_acks (s : State) (n : Nat) (f : Core → Core) : (s.updCore n f).acks = s.acks := rfl
@[simp] theorem State.updCore_timeShares (s : State) (n : Nat) (f : Core → Core) : (s.updCore n f).timeShares = s.timeShares := rfl
@[simp] theorem State.updCore_installed (s : State) (n : Nat) (f : Core → Core) : (s.updCore n f).installed = s.installed := rfl
@[simp] theorem State.updCore_chain (s : State) (n : Nat) (f : Core → Core) : (s.updCore n f).chain = s.chain := rfl
@[simp] theorem State.updCore_digests (s : State) (n : Nat) (f : Core → Core) : (s.updCore n f).digests = s.digests := rfl
@[simp] theorem State.updCore_deviceKey (s : State) (n : Nat) (f : Core → Core) : (s.updCore n f).deviceKey = s.deviceKey := rfl
@[simp] theorem State.updCore_cyc (s : State) (n : Nat) (f : Core → Core) : (s.updCore n f).cyc = s.cyc := rfl
@[simp] theorem State.updCore_phc (s : State) (n : Nat) (f : Core → Core) : (s.updCore n f).phc = s.phc := rfl
@[simp] theorem State.updCore_clk (s : State) (n : Nat) (f : Core → Core) : (s.updCore n f).clk = s.clk := rfl
@[simp] theorem State.updCore_profile (s : State) (n : Nat) (f : Core → Core) : (s.updCore n f).profile = s.profile := rfl
@[simp] theorem State.updCore_freq (s : State) (n : Nat) (f : Core → Core) : (s.updCore n f).freq = s.freq := rfl
@[simp] theorem State.updCore_correction (s : State) (n : Nat) (f : Core → Core) : (s.updCore n f).correction = s.correction := rfl
@[simp] theorem State.updCore_ptp (s : State) (n : Nat) (f : Core → Core) : (s.updCore n f).ptp = s.ptp := rfl
@[simp] theorem State.updCore_tick (s : State) (n : Nat) (f : Core → Core) : (s.updCore n f).tick = s.tick := rfl
@[simp] theorem State.updCore_nextAgent (s : State) (n : Nat) (f : Core → Core) : (s.updCore n f).nextAgent = s.nextAgent := rfl
@[simp] theorem State.updCore_nextId (s : State) (n : Nat) (f : Core → Core) : (s.updCore n f).nextId = s.nextId := rfl
@[simp] theorem State.updCore_free (s : State) (n : Nat) (f : Core → Core) : (s.updCore n f).free = s.free := rfl
@[simp] theorem State.updCore_script (s : State) (n : Nat) (f : Core → Core) : (s.updCore n f).script = s.script := rfl
@[simp] theorem State.updCore_rotor (s : State) (n : Nat) (f : Core → Core) : (s.updCore n f).rotor = s.rotor := rfl
@[simp] theorem State.updCore_cur (s : State) (n : Nat) (f : Core → Core) : (s.updCore n f).cur = s.cur := rfl

/-! updCluster -/

@[simp] theorem State.updCluster_mem (s : State) (n : Nat) (f : Cluster → Cluster) : (s.updCluster n f).mem = s.mem := rfl
@[simp] theorem State.updCluster_recs (s : State) (n : Nat) (f : Cluster → Cluster) : (s.updCluster n f).recs = s.recs := rfl
@[simp] theorem State.updCluster_marks (s : State) (n : Nat) (f : Cluster → Cluster) : (s.updCluster n f).marks = s.marks := rfl
@[simp] theorem State.updCluster_olds (s : State) (n : Nat) (f : Cluster → Cluster) : (s.updCluster n f).olds = s.olds := rfl
@[simp] theorem State.updCluster_code (s : State) (n : Nat) (f : Cluster → Cluster) : (s.updCluster n f).code = s.code := rfl
@[simp] theorem State.updCluster_fences (s : State) (n : Nat) (f : Cluster → Cluster) : (s.updCluster n f).fences = s.fences := rfl
@[simp] theorem State.updCluster_rels (s : State) (n : Nat) (f : Cluster → Cluster) : (s.updCluster n f).rels = s.rels := rfl
@[simp] theorem State.updCluster_adopted (s : State) (n : Nat) (f : Cluster → Cluster) : (s.updCluster n f).adopted = s.adopted := rfl
@[simp] theorem State.updCluster_gone (s : State) (n : Nat) (f : Cluster → Cluster) : (s.updCluster n f).gone = s.gone := rfl
@[simp] theorem State.updCluster_xlat (s : State) (n : Nat) (f : Cluster → Cluster) : (s.updCluster n f).xlat = s.xlat := rfl
@[simp] theorem State.updCluster_slices (s : State) (n : Nat) (f : Cluster → Cluster) : (s.updCluster n f).slices = s.slices := rfl
@[simp] theorem State.updCluster_owned (s : State) (n : Nat) (f : Cluster → Cluster) : (s.updCluster n f).owned = s.owned := rfl
@[simp] theorem State.updCluster_pages (s : State) (n : Nat) (f : Cluster → Cluster) : (s.updCluster n f).pages = s.pages := rfl
@[simp] theorem State.updCluster_touched (s : State) (n : Nat) (f : Cluster → Cluster) : (s.updCluster n f).touched = s.touched := rfl
@[simp] theorem State.updCluster_named (s : State) (n : Nat) (f : Cluster → Cluster) : (s.updCluster n f).named = s.named := rfl
@[simp] theorem State.updCluster_moving (s : State) (n : Nat) (f : Cluster → Cluster) : (s.updCluster n f).moving = s.moving := rfl
@[simp] theorem State.updCluster_groups (s : State) (n : Nat) (f : Cluster → Cluster) : (s.updCluster n f).groups = s.groups := rfl
@[simp] theorem State.updCluster_cores (s : State) (n : Nat) (f : Cluster → Cluster) : (s.updCluster n f).cores = s.cores := rfl
@[simp] theorem State.updCluster_keys (s : State) (n : Nat) (f : Cluster → Cluster) : (s.updCluster n f).keys = s.keys := rfl
@[simp] theorem State.updCluster_barriers (s : State) (n : Nat) (f : Cluster → Cluster) : (s.updCluster n f).barriers = s.barriers := rfl
@[simp] theorem State.updCluster_pods (s : State) (n : Nat) (f : Cluster → Cluster) : (s.updCluster n f).pods = s.pods := rfl
@[simp] theorem State.updCluster_trels (s : State) (n : Nat) (f : Cluster → Cluster) : (s.updCluster n f).trels = s.trels := rfl
@[simp] theorem State.updCluster_launches (s : State) (n : Nat) (f : Cluster → Cluster) : (s.updCluster n f).launches = s.launches := rfl
@[simp] theorem State.updCluster_reservations (s : State) (n : Nat) (f : Cluster → Cluster) : (s.updCluster n f).reservations = s.reservations := rfl
@[simp] theorem State.updCluster_submits (s : State) (n : Nat) (f : Cluster → Cluster) : (s.updCluster n f).submits = s.submits := rfl
@[simp] theorem State.updCluster_published (s : State) (n : Nat) (f : Cluster → Cluster) : (s.updCluster n f).published = s.published := rfl
@[simp] theorem State.updCluster_shareAt (s : State) (n : Nat) (f : Cluster → Cluster) : (s.updCluster n f).shareAt = s.shareAt := rfl
@[simp] theorem State.updCluster_vfs (s : State) (n : Nat) (f : Cluster → Cluster) : (s.updCluster n f).vfs = s.vfs := rfl
@[simp] theorem State.updCluster_errors (s : State) (n : Nat) (f : Cluster → Cluster) : (s.updCluster n f).errors = s.errors := rfl
@[simp] theorem State.updCluster_pending (s : State) (n : Nat) (f : Cluster → Cluster) : (s.updCluster n f).pending = s.pending := rfl
@[simp] theorem State.updCluster_mbctl (s : State) (n : Nat) (f : Cluster → Cluster) : (s.updCluster n f).mbctl = s.mbctl := rfl
@[simp] theorem State.updCluster_mbarg (s : State) (n : Nat) (f : Cluster → Cluster) : (s.updCluster n f).mbarg = s.mbarg := rfl
@[simp] theorem State.updCluster_mbres (s : State) (n : Nat) (f : Cluster → Cluster) : (s.updCluster n f).mbres = s.mbres := rfl
@[simp] theorem State.updCluster_mbstat (s : State) (n : Nat) (f : Cluster → Cluster) : (s.updCluster n f).mbstat = s.mbstat := rfl
@[simp] theorem State.updCluster_mbrdy (s : State) (n : Nat) (f : Cluster → Cluster) : (s.updCluster n f).mbrdy = s.mbrdy := rfl
@[simp] theorem State.updCluster_hostData (s : State) (n : Nat) (f : Cluster → Cluster) : (s.updCluster n f).hostData = s.hostData := rfl
@[simp] theorem State.updCluster_powered (s : State) (n : Nat) (f : Cluster → Cluster) : (s.updCluster n f).powered = s.powered := rfl
@[simp] theorem State.updCluster_boots (s : State) (n : Nat) (f : Cluster → Cluster) : (s.updCluster n f).boots = s.boots := rfl
@[simp] theorem State.updCluster_powerLimit (s : State) (n : Nat) (f : Cluster → Cluster) : (s.updCluster n f).powerLimit = s.powerLimit := rfl
@[simp] theorem State.updCluster_device (s : State) (n : Nat) (f : Cluster → Cluster) : (s.updCluster n f).device = s.device := rfl
@[simp] theorem State.updCluster_links (s : State) (n : Nat) (f : Cluster → Cluster) : (s.updCluster n f).links = s.links := rfl
@[simp] theorem State.updCluster_sent (s : State) (n : Nat) (f : Cluster → Cluster) : (s.updCluster n f).sent = s.sent := rfl
@[simp] theorem State.updCluster_streams (s : State) (n : Nat) (f : Cluster → Cluster) : (s.updCluster n f).streams = s.streams := rfl
@[simp] theorem State.updCluster_committed (s : State) (n : Nat) (f : Cluster → Cluster) : (s.updCluster n f).committed = s.committed := rfl
@[simp] theorem State.updCluster_dueWrites (s : State) (n : Nat) (f : Cluster → Cluster) : (s.updCluster n f).dueWrites = s.dueWrites := rfl
@[simp] theorem State.updCluster_heldWrites (s : State) (n : Nat) (f : Cluster → Cluster) : (s.updCluster n f).heldWrites = s.heldWrites := rfl
@[simp] theorem State.updCluster_fabUsers (s : State) (n : Nat) (f : Cluster → Cluster) : (s.updCluster n f).fabUsers = s.fabUsers := rfl
@[simp] theorem State.updCluster_acks (s : State) (n : Nat) (f : Cluster → Cluster) : (s.updCluster n f).acks = s.acks := rfl
@[simp] theorem State.updCluster_timeShares (s : State) (n : Nat) (f : Cluster → Cluster) : (s.updCluster n f).timeShares = s.timeShares := rfl
@[simp] theorem State.updCluster_installed (s : State) (n : Nat) (f : Cluster → Cluster) : (s.updCluster n f).installed = s.installed := rfl
@[simp] theorem State.updCluster_chain (s : State) (n : Nat) (f : Cluster → Cluster) : (s.updCluster n f).chain = s.chain := rfl
@[simp] theorem State.updCluster_digests (s : State) (n : Nat) (f : Cluster → Cluster) : (s.updCluster n f).digests = s.digests := rfl
@[simp] theorem State.updCluster_deviceKey (s : State) (n : Nat) (f : Cluster → Cluster) : (s.updCluster n f).deviceKey = s.deviceKey := rfl
@[simp] theorem State.updCluster_cyc (s : State) (n : Nat) (f : Cluster → Cluster) : (s.updCluster n f).cyc = s.cyc := rfl
@[simp] theorem State.updCluster_phc (s : State) (n : Nat) (f : Cluster → Cluster) : (s.updCluster n f).phc = s.phc := rfl
@[simp] theorem State.updCluster_clk (s : State) (n : Nat) (f : Cluster → Cluster) : (s.updCluster n f).clk = s.clk := rfl
@[simp] theorem State.updCluster_profile (s : State) (n : Nat) (f : Cluster → Cluster) : (s.updCluster n f).profile = s.profile := rfl
@[simp] theorem State.updCluster_freq (s : State) (n : Nat) (f : Cluster → Cluster) : (s.updCluster n f).freq = s.freq := rfl
@[simp] theorem State.updCluster_correction (s : State) (n : Nat) (f : Cluster → Cluster) : (s.updCluster n f).correction = s.correction := rfl
@[simp] theorem State.updCluster_ptp (s : State) (n : Nat) (f : Cluster → Cluster) : (s.updCluster n f).ptp = s.ptp := rfl
@[simp] theorem State.updCluster_tick (s : State) (n : Nat) (f : Cluster → Cluster) : (s.updCluster n f).tick = s.tick := rfl
@[simp] theorem State.updCluster_nextAgent (s : State) (n : Nat) (f : Cluster → Cluster) : (s.updCluster n f).nextAgent = s.nextAgent := rfl
@[simp] theorem State.updCluster_nextId (s : State) (n : Nat) (f : Cluster → Cluster) : (s.updCluster n f).nextId = s.nextId := rfl
@[simp] theorem State.updCluster_free (s : State) (n : Nat) (f : Cluster → Cluster) : (s.updCluster n f).free = s.free := rfl
@[simp] theorem State.updCluster_script (s : State) (n : Nat) (f : Cluster → Cluster) : (s.updCluster n f).script = s.script := rfl
@[simp] theorem State.updCluster_rotor (s : State) (n : Nat) (f : Cluster → Cluster) : (s.updCluster n f).rotor = s.rotor := rfl
@[simp] theorem State.updCluster_cur (s : State) (n : Nat) (f : Cluster → Cluster) : (s.updCluster n f).cur = s.cur := rfl

/-! setJobs -/

@[simp] theorem State.setJobs_mem (s : State) (cl : Nat) (e : Eng) (q : List Job) : (s.setJobs cl e q).mem = s.mem := rfl
@[simp] theorem State.setJobs_recs (s : State) (cl : Nat) (e : Eng) (q : List Job) : (s.setJobs cl e q).recs = s.recs := rfl
@[simp] theorem State.setJobs_marks (s : State) (cl : Nat) (e : Eng) (q : List Job) : (s.setJobs cl e q).marks = s.marks := rfl
@[simp] theorem State.setJobs_olds (s : State) (cl : Nat) (e : Eng) (q : List Job) : (s.setJobs cl e q).olds = s.olds := rfl
@[simp] theorem State.setJobs_code (s : State) (cl : Nat) (e : Eng) (q : List Job) : (s.setJobs cl e q).code = s.code := rfl
@[simp] theorem State.setJobs_fences (s : State) (cl : Nat) (e : Eng) (q : List Job) : (s.setJobs cl e q).fences = s.fences := rfl
@[simp] theorem State.setJobs_rels (s : State) (cl : Nat) (e : Eng) (q : List Job) : (s.setJobs cl e q).rels = s.rels := rfl
@[simp] theorem State.setJobs_adopted (s : State) (cl : Nat) (e : Eng) (q : List Job) : (s.setJobs cl e q).adopted = s.adopted := rfl
@[simp] theorem State.setJobs_gone (s : State) (cl : Nat) (e : Eng) (q : List Job) : (s.setJobs cl e q).gone = s.gone := rfl
@[simp] theorem State.setJobs_xlat (s : State) (cl : Nat) (e : Eng) (q : List Job) : (s.setJobs cl e q).xlat = s.xlat := rfl
@[simp] theorem State.setJobs_slices (s : State) (cl : Nat) (e : Eng) (q : List Job) : (s.setJobs cl e q).slices = s.slices := rfl
@[simp] theorem State.setJobs_owned (s : State) (cl : Nat) (e : Eng) (q : List Job) : (s.setJobs cl e q).owned = s.owned := rfl
@[simp] theorem State.setJobs_pages (s : State) (cl : Nat) (e : Eng) (q : List Job) : (s.setJobs cl e q).pages = s.pages := rfl
@[simp] theorem State.setJobs_touched (s : State) (cl : Nat) (e : Eng) (q : List Job) : (s.setJobs cl e q).touched = s.touched := rfl
@[simp] theorem State.setJobs_named (s : State) (cl : Nat) (e : Eng) (q : List Job) : (s.setJobs cl e q).named = s.named := rfl
@[simp] theorem State.setJobs_moving (s : State) (cl : Nat) (e : Eng) (q : List Job) : (s.setJobs cl e q).moving = s.moving := rfl
@[simp] theorem State.setJobs_groups (s : State) (cl : Nat) (e : Eng) (q : List Job) : (s.setJobs cl e q).groups = s.groups := rfl
@[simp] theorem State.setJobs_cores (s : State) (cl : Nat) (e : Eng) (q : List Job) : (s.setJobs cl e q).cores = s.cores := rfl
@[simp] theorem State.setJobs_keys (s : State) (cl : Nat) (e : Eng) (q : List Job) : (s.setJobs cl e q).keys = s.keys := rfl
@[simp] theorem State.setJobs_barriers (s : State) (cl : Nat) (e : Eng) (q : List Job) : (s.setJobs cl e q).barriers = s.barriers := rfl
@[simp] theorem State.setJobs_pods (s : State) (cl : Nat) (e : Eng) (q : List Job) : (s.setJobs cl e q).pods = s.pods := rfl
@[simp] theorem State.setJobs_trels (s : State) (cl : Nat) (e : Eng) (q : List Job) : (s.setJobs cl e q).trels = s.trels := rfl
@[simp] theorem State.setJobs_launches (s : State) (cl : Nat) (e : Eng) (q : List Job) : (s.setJobs cl e q).launches = s.launches := rfl
@[simp] theorem State.setJobs_reservations (s : State) (cl : Nat) (e : Eng) (q : List Job) : (s.setJobs cl e q).reservations = s.reservations := rfl
@[simp] theorem State.setJobs_submits (s : State) (cl : Nat) (e : Eng) (q : List Job) : (s.setJobs cl e q).submits = s.submits := rfl
@[simp] theorem State.setJobs_published (s : State) (cl : Nat) (e : Eng) (q : List Job) : (s.setJobs cl e q).published = s.published := rfl
@[simp] theorem State.setJobs_shareAt (s : State) (cl : Nat) (e : Eng) (q : List Job) : (s.setJobs cl e q).shareAt = s.shareAt := rfl
@[simp] theorem State.setJobs_vfs (s : State) (cl : Nat) (e : Eng) (q : List Job) : (s.setJobs cl e q).vfs = s.vfs := rfl
@[simp] theorem State.setJobs_errors (s : State) (cl : Nat) (e : Eng) (q : List Job) : (s.setJobs cl e q).errors = s.errors := rfl
@[simp] theorem State.setJobs_pending (s : State) (cl : Nat) (e : Eng) (q : List Job) : (s.setJobs cl e q).pending = s.pending := rfl
@[simp] theorem State.setJobs_mbctl (s : State) (cl : Nat) (e : Eng) (q : List Job) : (s.setJobs cl e q).mbctl = s.mbctl := rfl
@[simp] theorem State.setJobs_mbarg (s : State) (cl : Nat) (e : Eng) (q : List Job) : (s.setJobs cl e q).mbarg = s.mbarg := rfl
@[simp] theorem State.setJobs_mbres (s : State) (cl : Nat) (e : Eng) (q : List Job) : (s.setJobs cl e q).mbres = s.mbres := rfl
@[simp] theorem State.setJobs_mbstat (s : State) (cl : Nat) (e : Eng) (q : List Job) : (s.setJobs cl e q).mbstat = s.mbstat := rfl
@[simp] theorem State.setJobs_mbrdy (s : State) (cl : Nat) (e : Eng) (q : List Job) : (s.setJobs cl e q).mbrdy = s.mbrdy := rfl
@[simp] theorem State.setJobs_hostData (s : State) (cl : Nat) (e : Eng) (q : List Job) : (s.setJobs cl e q).hostData = s.hostData := rfl
@[simp] theorem State.setJobs_powered (s : State) (cl : Nat) (e : Eng) (q : List Job) : (s.setJobs cl e q).powered = s.powered := rfl
@[simp] theorem State.setJobs_boots (s : State) (cl : Nat) (e : Eng) (q : List Job) : (s.setJobs cl e q).boots = s.boots := rfl
@[simp] theorem State.setJobs_powerLimit (s : State) (cl : Nat) (e : Eng) (q : List Job) : (s.setJobs cl e q).powerLimit = s.powerLimit := rfl
@[simp] theorem State.setJobs_device (s : State) (cl : Nat) (e : Eng) (q : List Job) : (s.setJobs cl e q).device = s.device := rfl
@[simp] theorem State.setJobs_links (s : State) (cl : Nat) (e : Eng) (q : List Job) : (s.setJobs cl e q).links = s.links := rfl
@[simp] theorem State.setJobs_sent (s : State) (cl : Nat) (e : Eng) (q : List Job) : (s.setJobs cl e q).sent = s.sent := rfl
@[simp] theorem State.setJobs_streams (s : State) (cl : Nat) (e : Eng) (q : List Job) : (s.setJobs cl e q).streams = s.streams := rfl
@[simp] theorem State.setJobs_committed (s : State) (cl : Nat) (e : Eng) (q : List Job) : (s.setJobs cl e q).committed = s.committed := rfl
@[simp] theorem State.setJobs_dueWrites (s : State) (cl : Nat) (e : Eng) (q : List Job) : (s.setJobs cl e q).dueWrites = s.dueWrites := rfl
@[simp] theorem State.setJobs_heldWrites (s : State) (cl : Nat) (e : Eng) (q : List Job) : (s.setJobs cl e q).heldWrites = s.heldWrites := rfl
@[simp] theorem State.setJobs_fabUsers (s : State) (cl : Nat) (e : Eng) (q : List Job) : (s.setJobs cl e q).fabUsers = s.fabUsers := rfl
@[simp] theorem State.setJobs_acks (s : State) (cl : Nat) (e : Eng) (q : List Job) : (s.setJobs cl e q).acks = s.acks := rfl
@[simp] theorem State.setJobs_timeShares (s : State) (cl : Nat) (e : Eng) (q : List Job) : (s.setJobs cl e q).timeShares = s.timeShares := rfl
@[simp] theorem State.setJobs_installed (s : State) (cl : Nat) (e : Eng) (q : List Job) : (s.setJobs cl e q).installed = s.installed := rfl
@[simp] theorem State.setJobs_chain (s : State) (cl : Nat) (e : Eng) (q : List Job) : (s.setJobs cl e q).chain = s.chain := rfl
@[simp] theorem State.setJobs_digests (s : State) (cl : Nat) (e : Eng) (q : List Job) : (s.setJobs cl e q).digests = s.digests := rfl
@[simp] theorem State.setJobs_deviceKey (s : State) (cl : Nat) (e : Eng) (q : List Job) : (s.setJobs cl e q).deviceKey = s.deviceKey := rfl
@[simp] theorem State.setJobs_cyc (s : State) (cl : Nat) (e : Eng) (q : List Job) : (s.setJobs cl e q).cyc = s.cyc := rfl
@[simp] theorem State.setJobs_phc (s : State) (cl : Nat) (e : Eng) (q : List Job) : (s.setJobs cl e q).phc = s.phc := rfl
@[simp] theorem State.setJobs_clk (s : State) (cl : Nat) (e : Eng) (q : List Job) : (s.setJobs cl e q).clk = s.clk := rfl
@[simp] theorem State.setJobs_profile (s : State) (cl : Nat) (e : Eng) (q : List Job) : (s.setJobs cl e q).profile = s.profile := rfl
@[simp] theorem State.setJobs_freq (s : State) (cl : Nat) (e : Eng) (q : List Job) : (s.setJobs cl e q).freq = s.freq := rfl
@[simp] theorem State.setJobs_correction (s : State) (cl : Nat) (e : Eng) (q : List Job) : (s.setJobs cl e q).correction = s.correction := rfl
@[simp] theorem State.setJobs_ptp (s : State) (cl : Nat) (e : Eng) (q : List Job) : (s.setJobs cl e q).ptp = s.ptp := rfl
@[simp] theorem State.setJobs_tick (s : State) (cl : Nat) (e : Eng) (q : List Job) : (s.setJobs cl e q).tick = s.tick := rfl
@[simp] theorem State.setJobs_nextAgent (s : State) (cl : Nat) (e : Eng) (q : List Job) : (s.setJobs cl e q).nextAgent = s.nextAgent := rfl
@[simp] theorem State.setJobs_nextId (s : State) (cl : Nat) (e : Eng) (q : List Job) : (s.setJobs cl e q).nextId = s.nextId := rfl
@[simp] theorem State.setJobs_free (s : State) (cl : Nat) (e : Eng) (q : List Job) : (s.setJobs cl e q).free = s.free := rfl
@[simp] theorem State.setJobs_script (s : State) (cl : Nat) (e : Eng) (q : List Job) : (s.setJobs cl e q).script = s.script := rfl
@[simp] theorem State.setJobs_rotor (s : State) (cl : Nat) (e : Eng) (q : List Job) : (s.setJobs cl e q).rotor = s.rotor := rfl
@[simp] theorem State.setJobs_cur (s : State) (cl : Nat) (e : Eng) (q : List Job) : (s.setJobs cl e q).cur = s.cur := rfl

/-! updVf -/

@[simp] theorem State.updVf_mem (s : State) (n : Nat) (f : Vf → Vf) : (s.updVf n f).mem = s.mem := rfl
@[simp] theorem State.updVf_recs (s : State) (n : Nat) (f : Vf → Vf) : (s.updVf n f).recs = s.recs := rfl
@[simp] theorem State.updVf_marks (s : State) (n : Nat) (f : Vf → Vf) : (s.updVf n f).marks = s.marks := rfl
@[simp] theorem State.updVf_olds (s : State) (n : Nat) (f : Vf → Vf) : (s.updVf n f).olds = s.olds := rfl
@[simp] theorem State.updVf_code (s : State) (n : Nat) (f : Vf → Vf) : (s.updVf n f).code = s.code := rfl
@[simp] theorem State.updVf_fences (s : State) (n : Nat) (f : Vf → Vf) : (s.updVf n f).fences = s.fences := rfl
@[simp] theorem State.updVf_rels (s : State) (n : Nat) (f : Vf → Vf) : (s.updVf n f).rels = s.rels := rfl
@[simp] theorem State.updVf_adopted (s : State) (n : Nat) (f : Vf → Vf) : (s.updVf n f).adopted = s.adopted := rfl
@[simp] theorem State.updVf_gone (s : State) (n : Nat) (f : Vf → Vf) : (s.updVf n f).gone = s.gone := rfl
@[simp] theorem State.updVf_xlat (s : State) (n : Nat) (f : Vf → Vf) : (s.updVf n f).xlat = s.xlat := rfl
@[simp] theorem State.updVf_slices (s : State) (n : Nat) (f : Vf → Vf) : (s.updVf n f).slices = s.slices := rfl
@[simp] theorem State.updVf_owned (s : State) (n : Nat) (f : Vf → Vf) : (s.updVf n f).owned = s.owned := rfl
@[simp] theorem State.updVf_pages (s : State) (n : Nat) (f : Vf → Vf) : (s.updVf n f).pages = s.pages := rfl
@[simp] theorem State.updVf_touched (s : State) (n : Nat) (f : Vf → Vf) : (s.updVf n f).touched = s.touched := rfl
@[simp] theorem State.updVf_named (s : State) (n : Nat) (f : Vf → Vf) : (s.updVf n f).named = s.named := rfl
@[simp] theorem State.updVf_moving (s : State) (n : Nat) (f : Vf → Vf) : (s.updVf n f).moving = s.moving := rfl
@[simp] theorem State.updVf_groups (s : State) (n : Nat) (f : Vf → Vf) : (s.updVf n f).groups = s.groups := rfl
@[simp] theorem State.updVf_cores (s : State) (n : Nat) (f : Vf → Vf) : (s.updVf n f).cores = s.cores := rfl
@[simp] theorem State.updVf_clusters (s : State) (n : Nat) (f : Vf → Vf) : (s.updVf n f).clusters = s.clusters := rfl
@[simp] theorem State.updVf_keys (s : State) (n : Nat) (f : Vf → Vf) : (s.updVf n f).keys = s.keys := rfl
@[simp] theorem State.updVf_barriers (s : State) (n : Nat) (f : Vf → Vf) : (s.updVf n f).barriers = s.barriers := rfl
@[simp] theorem State.updVf_pods (s : State) (n : Nat) (f : Vf → Vf) : (s.updVf n f).pods = s.pods := rfl
@[simp] theorem State.updVf_trels (s : State) (n : Nat) (f : Vf → Vf) : (s.updVf n f).trels = s.trels := rfl
@[simp] theorem State.updVf_launches (s : State) (n : Nat) (f : Vf → Vf) : (s.updVf n f).launches = s.launches := rfl
@[simp] theorem State.updVf_reservations (s : State) (n : Nat) (f : Vf → Vf) : (s.updVf n f).reservations = s.reservations := rfl
@[simp] theorem State.updVf_submits (s : State) (n : Nat) (f : Vf → Vf) : (s.updVf n f).submits = s.submits := rfl
@[simp] theorem State.updVf_published (s : State) (n : Nat) (f : Vf → Vf) : (s.updVf n f).published = s.published := rfl
@[simp] theorem State.updVf_shareAt (s : State) (n : Nat) (f : Vf → Vf) : (s.updVf n f).shareAt = s.shareAt := rfl
@[simp] theorem State.updVf_errors (s : State) (n : Nat) (f : Vf → Vf) : (s.updVf n f).errors = s.errors := rfl
@[simp] theorem State.updVf_pending (s : State) (n : Nat) (f : Vf → Vf) : (s.updVf n f).pending = s.pending := rfl
@[simp] theorem State.updVf_mbctl (s : State) (n : Nat) (f : Vf → Vf) : (s.updVf n f).mbctl = s.mbctl := rfl
@[simp] theorem State.updVf_mbarg (s : State) (n : Nat) (f : Vf → Vf) : (s.updVf n f).mbarg = s.mbarg := rfl
@[simp] theorem State.updVf_mbres (s : State) (n : Nat) (f : Vf → Vf) : (s.updVf n f).mbres = s.mbres := rfl
@[simp] theorem State.updVf_mbstat (s : State) (n : Nat) (f : Vf → Vf) : (s.updVf n f).mbstat = s.mbstat := rfl
@[simp] theorem State.updVf_mbrdy (s : State) (n : Nat) (f : Vf → Vf) : (s.updVf n f).mbrdy = s.mbrdy := rfl
@[simp] theorem State.updVf_hostData (s : State) (n : Nat) (f : Vf → Vf) : (s.updVf n f).hostData = s.hostData := rfl
@[simp] theorem State.updVf_powered (s : State) (n : Nat) (f : Vf → Vf) : (s.updVf n f).powered = s.powered := rfl
@[simp] theorem State.updVf_boots (s : State) (n : Nat) (f : Vf → Vf) : (s.updVf n f).boots = s.boots := rfl
@[simp] theorem State.updVf_powerLimit (s : State) (n : Nat) (f : Vf → Vf) : (s.updVf n f).powerLimit = s.powerLimit := rfl
@[simp] theorem State.updVf_device (s : State) (n : Nat) (f : Vf → Vf) : (s.updVf n f).device = s.device := rfl
@[simp] theorem State.updVf_links (s : State) (n : Nat) (f : Vf → Vf) : (s.updVf n f).links = s.links := rfl
@[simp] theorem State.updVf_sent (s : State) (n : Nat) (f : Vf → Vf) : (s.updVf n f).sent = s.sent := rfl
@[simp] theorem State.updVf_streams (s : State) (n : Nat) (f : Vf → Vf) : (s.updVf n f).streams = s.streams := rfl
@[simp] theorem State.updVf_committed (s : State) (n : Nat) (f : Vf → Vf) : (s.updVf n f).committed = s.committed := rfl
@[simp] theorem State.updVf_dueWrites (s : State) (n : Nat) (f : Vf → Vf) : (s.updVf n f).dueWrites = s.dueWrites := rfl
@[simp] theorem State.updVf_heldWrites (s : State) (n : Nat) (f : Vf → Vf) : (s.updVf n f).heldWrites = s.heldWrites := rfl
@[simp] theorem State.updVf_fabUsers (s : State) (n : Nat) (f : Vf → Vf) : (s.updVf n f).fabUsers = s.fabUsers := rfl
@[simp] theorem State.updVf_acks (s : State) (n : Nat) (f : Vf → Vf) : (s.updVf n f).acks = s.acks := rfl
@[simp] theorem State.updVf_timeShares (s : State) (n : Nat) (f : Vf → Vf) : (s.updVf n f).timeShares = s.timeShares := rfl
@[simp] theorem State.updVf_installed (s : State) (n : Nat) (f : Vf → Vf) : (s.updVf n f).installed = s.installed := rfl
@[simp] theorem State.updVf_chain (s : State) (n : Nat) (f : Vf → Vf) : (s.updVf n f).chain = s.chain := rfl
@[simp] theorem State.updVf_digests (s : State) (n : Nat) (f : Vf → Vf) : (s.updVf n f).digests = s.digests := rfl
@[simp] theorem State.updVf_deviceKey (s : State) (n : Nat) (f : Vf → Vf) : (s.updVf n f).deviceKey = s.deviceKey := rfl
@[simp] theorem State.updVf_cyc (s : State) (n : Nat) (f : Vf → Vf) : (s.updVf n f).cyc = s.cyc := rfl
@[simp] theorem State.updVf_phc (s : State) (n : Nat) (f : Vf → Vf) : (s.updVf n f).phc = s.phc := rfl
@[simp] theorem State.updVf_clk (s : State) (n : Nat) (f : Vf → Vf) : (s.updVf n f).clk = s.clk := rfl
@[simp] theorem State.updVf_profile (s : State) (n : Nat) (f : Vf → Vf) : (s.updVf n f).profile = s.profile := rfl
@[simp] theorem State.updVf_freq (s : State) (n : Nat) (f : Vf → Vf) : (s.updVf n f).freq = s.freq := rfl
@[simp] theorem State.updVf_correction (s : State) (n : Nat) (f : Vf → Vf) : (s.updVf n f).correction = s.correction := rfl
@[simp] theorem State.updVf_ptp (s : State) (n : Nat) (f : Vf → Vf) : (s.updVf n f).ptp = s.ptp := rfl
@[simp] theorem State.updVf_tick (s : State) (n : Nat) (f : Vf → Vf) : (s.updVf n f).tick = s.tick := rfl
@[simp] theorem State.updVf_nextAgent (s : State) (n : Nat) (f : Vf → Vf) : (s.updVf n f).nextAgent = s.nextAgent := rfl
@[simp] theorem State.updVf_nextId (s : State) (n : Nat) (f : Vf → Vf) : (s.updVf n f).nextId = s.nextId := rfl
@[simp] theorem State.updVf_free (s : State) (n : Nat) (f : Vf → Vf) : (s.updVf n f).free = s.free := rfl
@[simp] theorem State.updVf_script (s : State) (n : Nat) (f : Vf → Vf) : (s.updVf n f).script = s.script := rfl
@[simp] theorem State.updVf_rotor (s : State) (n : Nat) (f : Vf → Vf) : (s.updVf n f).rotor = s.rotor := rfl
@[simp] theorem State.updVf_cur (s : State) (n : Nat) (f : Vf → Vf) : (s.updVf n f).cur = s.cur := rfl

/-! updLaunch -/

@[simp] theorem State.updLaunch_mem (s : State) (id : Nat) (f : Launch → Launch) : (s.updLaunch id f).mem = s.mem := rfl
@[simp] theorem State.updLaunch_recs (s : State) (id : Nat) (f : Launch → Launch) : (s.updLaunch id f).recs = s.recs := rfl
@[simp] theorem State.updLaunch_marks (s : State) (id : Nat) (f : Launch → Launch) : (s.updLaunch id f).marks = s.marks := rfl
@[simp] theorem State.updLaunch_olds (s : State) (id : Nat) (f : Launch → Launch) : (s.updLaunch id f).olds = s.olds := rfl
@[simp] theorem State.updLaunch_code (s : State) (id : Nat) (f : Launch → Launch) : (s.updLaunch id f).code = s.code := rfl
@[simp] theorem State.updLaunch_fences (s : State) (id : Nat) (f : Launch → Launch) : (s.updLaunch id f).fences = s.fences := rfl
@[simp] theorem State.updLaunch_rels (s : State) (id : Nat) (f : Launch → Launch) : (s.updLaunch id f).rels = s.rels := rfl
@[simp] theorem State.updLaunch_adopted (s : State) (id : Nat) (f : Launch → Launch) : (s.updLaunch id f).adopted = s.adopted := rfl
@[simp] theorem State.updLaunch_gone (s : State) (id : Nat) (f : Launch → Launch) : (s.updLaunch id f).gone = s.gone := rfl
@[simp] theorem State.updLaunch_xlat (s : State) (id : Nat) (f : Launch → Launch) : (s.updLaunch id f).xlat = s.xlat := rfl
@[simp] theorem State.updLaunch_slices (s : State) (id : Nat) (f : Launch → Launch) : (s.updLaunch id f).slices = s.slices := rfl
@[simp] theorem State.updLaunch_owned (s : State) (id : Nat) (f : Launch → Launch) : (s.updLaunch id f).owned = s.owned := rfl
@[simp] theorem State.updLaunch_pages (s : State) (id : Nat) (f : Launch → Launch) : (s.updLaunch id f).pages = s.pages := rfl
@[simp] theorem State.updLaunch_touched (s : State) (id : Nat) (f : Launch → Launch) : (s.updLaunch id f).touched = s.touched := rfl
@[simp] theorem State.updLaunch_named (s : State) (id : Nat) (f : Launch → Launch) : (s.updLaunch id f).named = s.named := rfl
@[simp] theorem State.updLaunch_moving (s : State) (id : Nat) (f : Launch → Launch) : (s.updLaunch id f).moving = s.moving := rfl
@[simp] theorem State.updLaunch_groups (s : State) (id : Nat) (f : Launch → Launch) : (s.updLaunch id f).groups = s.groups := rfl
@[simp] theorem State.updLaunch_cores (s : State) (id : Nat) (f : Launch → Launch) : (s.updLaunch id f).cores = s.cores := rfl
@[simp] theorem State.updLaunch_clusters (s : State) (id : Nat) (f : Launch → Launch) : (s.updLaunch id f).clusters = s.clusters := rfl
@[simp] theorem State.updLaunch_keys (s : State) (id : Nat) (f : Launch → Launch) : (s.updLaunch id f).keys = s.keys := rfl
@[simp] theorem State.updLaunch_barriers (s : State) (id : Nat) (f : Launch → Launch) : (s.updLaunch id f).barriers = s.barriers := rfl
@[simp] theorem State.updLaunch_pods (s : State) (id : Nat) (f : Launch → Launch) : (s.updLaunch id f).pods = s.pods := rfl
@[simp] theorem State.updLaunch_trels (s : State) (id : Nat) (f : Launch → Launch) : (s.updLaunch id f).trels = s.trels := rfl
@[simp] theorem State.updLaunch_reservations (s : State) (id : Nat) (f : Launch → Launch) : (s.updLaunch id f).reservations = s.reservations := rfl
@[simp] theorem State.updLaunch_submits (s : State) (id : Nat) (f : Launch → Launch) : (s.updLaunch id f).submits = s.submits := rfl
@[simp] theorem State.updLaunch_published (s : State) (id : Nat) (f : Launch → Launch) : (s.updLaunch id f).published = s.published := rfl
@[simp] theorem State.updLaunch_shareAt (s : State) (id : Nat) (f : Launch → Launch) : (s.updLaunch id f).shareAt = s.shareAt := rfl
@[simp] theorem State.updLaunch_vfs (s : State) (id : Nat) (f : Launch → Launch) : (s.updLaunch id f).vfs = s.vfs := rfl
@[simp] theorem State.updLaunch_errors (s : State) (id : Nat) (f : Launch → Launch) : (s.updLaunch id f).errors = s.errors := rfl
@[simp] theorem State.updLaunch_pending (s : State) (id : Nat) (f : Launch → Launch) : (s.updLaunch id f).pending = s.pending := rfl
@[simp] theorem State.updLaunch_mbctl (s : State) (id : Nat) (f : Launch → Launch) : (s.updLaunch id f).mbctl = s.mbctl := rfl
@[simp] theorem State.updLaunch_mbarg (s : State) (id : Nat) (f : Launch → Launch) : (s.updLaunch id f).mbarg = s.mbarg := rfl
@[simp] theorem State.updLaunch_mbres (s : State) (id : Nat) (f : Launch → Launch) : (s.updLaunch id f).mbres = s.mbres := rfl
@[simp] theorem State.updLaunch_mbstat (s : State) (id : Nat) (f : Launch → Launch) : (s.updLaunch id f).mbstat = s.mbstat := rfl
@[simp] theorem State.updLaunch_mbrdy (s : State) (id : Nat) (f : Launch → Launch) : (s.updLaunch id f).mbrdy = s.mbrdy := rfl
@[simp] theorem State.updLaunch_hostData (s : State) (id : Nat) (f : Launch → Launch) : (s.updLaunch id f).hostData = s.hostData := rfl
@[simp] theorem State.updLaunch_powered (s : State) (id : Nat) (f : Launch → Launch) : (s.updLaunch id f).powered = s.powered := rfl
@[simp] theorem State.updLaunch_boots (s : State) (id : Nat) (f : Launch → Launch) : (s.updLaunch id f).boots = s.boots := rfl
@[simp] theorem State.updLaunch_powerLimit (s : State) (id : Nat) (f : Launch → Launch) : (s.updLaunch id f).powerLimit = s.powerLimit := rfl
@[simp] theorem State.updLaunch_device (s : State) (id : Nat) (f : Launch → Launch) : (s.updLaunch id f).device = s.device := rfl
@[simp] theorem State.updLaunch_links (s : State) (id : Nat) (f : Launch → Launch) : (s.updLaunch id f).links = s.links := rfl
@[simp] theorem State.updLaunch_sent (s : State) (id : Nat) (f : Launch → Launch) : (s.updLaunch id f).sent = s.sent := rfl
@[simp] theorem State.updLaunch_streams (s : State) (id : Nat) (f : Launch → Launch) : (s.updLaunch id f).streams = s.streams := rfl
@[simp] theorem State.updLaunch_committed (s : State) (id : Nat) (f : Launch → Launch) : (s.updLaunch id f).committed = s.committed := rfl
@[simp] theorem State.updLaunch_dueWrites (s : State) (id : Nat) (f : Launch → Launch) : (s.updLaunch id f).dueWrites = s.dueWrites := rfl
@[simp] theorem State.updLaunch_heldWrites (s : State) (id : Nat) (f : Launch → Launch) : (s.updLaunch id f).heldWrites = s.heldWrites := rfl
@[simp] theorem State.updLaunch_fabUsers (s : State) (id : Nat) (f : Launch → Launch) : (s.updLaunch id f).fabUsers = s.fabUsers := rfl
@[simp] theorem State.updLaunch_acks (s : State) (id : Nat) (f : Launch → Launch) : (s.updLaunch id f).acks = s.acks := rfl
@[simp] theorem State.updLaunch_timeShares (s : State) (id : Nat) (f : Launch → Launch) : (s.updLaunch id f).timeShares = s.timeShares := rfl
@[simp] theorem State.updLaunch_installed (s : State) (id : Nat) (f : Launch → Launch) : (s.updLaunch id f).installed = s.installed := rfl
@[simp] theorem State.updLaunch_chain (s : State) (id : Nat) (f : Launch → Launch) : (s.updLaunch id f).chain = s.chain := rfl
@[simp] theorem State.updLaunch_digests (s : State) (id : Nat) (f : Launch → Launch) : (s.updLaunch id f).digests = s.digests := rfl
@[simp] theorem State.updLaunch_deviceKey (s : State) (id : Nat) (f : Launch → Launch) : (s.updLaunch id f).deviceKey = s.deviceKey := rfl
@[simp] theorem State.updLaunch_cyc (s : State) (id : Nat) (f : Launch → Launch) : (s.updLaunch id f).cyc = s.cyc := rfl
@[simp] theorem State.updLaunch_phc (s : State) (id : Nat) (f : Launch → Launch) : (s.updLaunch id f).phc = s.phc := rfl
@[simp] theorem State.updLaunch_clk (s : State) (id : Nat) (f : Launch → Launch) : (s.updLaunch id f).clk = s.clk := rfl
@[simp] theorem State.updLaunch_profile (s : State) (id : Nat) (f : Launch → Launch) : (s.updLaunch id f).profile = s.profile := rfl
@[simp] theorem State.updLaunch_freq (s : State) (id : Nat) (f : Launch → Launch) : (s.updLaunch id f).freq = s.freq := rfl
@[simp] theorem State.updLaunch_correction (s : State) (id : Nat) (f : Launch → Launch) : (s.updLaunch id f).correction = s.correction := rfl
@[simp] theorem State.updLaunch_ptp (s : State) (id : Nat) (f : Launch → Launch) : (s.updLaunch id f).ptp = s.ptp := rfl
@[simp] theorem State.updLaunch_tick (s : State) (id : Nat) (f : Launch → Launch) : (s.updLaunch id f).tick = s.tick := rfl
@[simp] theorem State.updLaunch_nextAgent (s : State) (id : Nat) (f : Launch → Launch) : (s.updLaunch id f).nextAgent = s.nextAgent := rfl
@[simp] theorem State.updLaunch_nextId (s : State) (id : Nat) (f : Launch → Launch) : (s.updLaunch id f).nextId = s.nextId := rfl
@[simp] theorem State.updLaunch_free (s : State) (id : Nat) (f : Launch → Launch) : (s.updLaunch id f).free = s.free := rfl
@[simp] theorem State.updLaunch_script (s : State) (id : Nat) (f : Launch → Launch) : (s.updLaunch id f).script = s.script := rfl
@[simp] theorem State.updLaunch_rotor (s : State) (id : Nat) (f : Launch → Launch) : (s.updLaunch id f).rotor = s.rotor := rfl
@[simp] theorem State.updLaunch_cur (s : State) (id : Nat) (f : Launch → Launch) : (s.updLaunch id f).cur = s.cur := rfl

/-! tock -/

@[simp] theorem State.tock_mem (s : State) : (s.tock).mem = s.mem := rfl
@[simp] theorem State.tock_recs (s : State) : (s.tock).recs = s.recs := rfl
@[simp] theorem State.tock_marks (s : State) : (s.tock).marks = s.marks := rfl
@[simp] theorem State.tock_olds (s : State) : (s.tock).olds = s.olds := rfl
@[simp] theorem State.tock_code (s : State) : (s.tock).code = s.code := rfl
@[simp] theorem State.tock_fences (s : State) : (s.tock).fences = s.fences := rfl
@[simp] theorem State.tock_rels (s : State) : (s.tock).rels = s.rels := rfl
@[simp] theorem State.tock_adopted (s : State) : (s.tock).adopted = s.adopted := rfl
@[simp] theorem State.tock_gone (s : State) : (s.tock).gone = s.gone := rfl
@[simp] theorem State.tock_xlat (s : State) : (s.tock).xlat = s.xlat := rfl
@[simp] theorem State.tock_slices (s : State) : (s.tock).slices = s.slices := rfl
@[simp] theorem State.tock_owned (s : State) : (s.tock).owned = s.owned := rfl
@[simp] theorem State.tock_pages (s : State) : (s.tock).pages = s.pages := rfl
@[simp] theorem State.tock_touched (s : State) : (s.tock).touched = s.touched := rfl
@[simp] theorem State.tock_named (s : State) : (s.tock).named = s.named := rfl
@[simp] theorem State.tock_moving (s : State) : (s.tock).moving = s.moving := rfl
@[simp] theorem State.tock_groups (s : State) : (s.tock).groups = s.groups := rfl
@[simp] theorem State.tock_cores (s : State) : (s.tock).cores = s.cores := rfl
@[simp] theorem State.tock_clusters (s : State) : (s.tock).clusters = s.clusters := rfl
@[simp] theorem State.tock_keys (s : State) : (s.tock).keys = s.keys := rfl
@[simp] theorem State.tock_barriers (s : State) : (s.tock).barriers = s.barriers := rfl
@[simp] theorem State.tock_pods (s : State) : (s.tock).pods = s.pods := rfl
@[simp] theorem State.tock_trels (s : State) : (s.tock).trels = s.trels := rfl
@[simp] theorem State.tock_launches (s : State) : (s.tock).launches = s.launches := rfl
@[simp] theorem State.tock_reservations (s : State) : (s.tock).reservations = s.reservations := rfl
@[simp] theorem State.tock_submits (s : State) : (s.tock).submits = s.submits := rfl
@[simp] theorem State.tock_published (s : State) : (s.tock).published = s.published := rfl
@[simp] theorem State.tock_shareAt (s : State) : (s.tock).shareAt = s.shareAt := rfl
@[simp] theorem State.tock_vfs (s : State) : (s.tock).vfs = s.vfs := rfl
@[simp] theorem State.tock_errors (s : State) : (s.tock).errors = s.errors := rfl
@[simp] theorem State.tock_pending (s : State) : (s.tock).pending = s.pending := rfl
@[simp] theorem State.tock_mbctl (s : State) : (s.tock).mbctl = s.mbctl := rfl
@[simp] theorem State.tock_mbarg (s : State) : (s.tock).mbarg = s.mbarg := rfl
@[simp] theorem State.tock_mbres (s : State) : (s.tock).mbres = s.mbres := rfl
@[simp] theorem State.tock_mbstat (s : State) : (s.tock).mbstat = s.mbstat := rfl
@[simp] theorem State.tock_mbrdy (s : State) : (s.tock).mbrdy = s.mbrdy := rfl
@[simp] theorem State.tock_hostData (s : State) : (s.tock).hostData = s.hostData := rfl
@[simp] theorem State.tock_powered (s : State) : (s.tock).powered = s.powered := rfl
@[simp] theorem State.tock_boots (s : State) : (s.tock).boots = s.boots := rfl
@[simp] theorem State.tock_powerLimit (s : State) : (s.tock).powerLimit = s.powerLimit := rfl
@[simp] theorem State.tock_device (s : State) : (s.tock).device = s.device := rfl
@[simp] theorem State.tock_links (s : State) : (s.tock).links = s.links := rfl
@[simp] theorem State.tock_sent (s : State) : (s.tock).sent = s.sent := rfl
@[simp] theorem State.tock_streams (s : State) : (s.tock).streams = s.streams := rfl
@[simp] theorem State.tock_committed (s : State) : (s.tock).committed = s.committed := rfl
@[simp] theorem State.tock_dueWrites (s : State) : (s.tock).dueWrites = s.dueWrites := rfl
@[simp] theorem State.tock_heldWrites (s : State) : (s.tock).heldWrites = s.heldWrites := rfl
@[simp] theorem State.tock_fabUsers (s : State) : (s.tock).fabUsers = s.fabUsers := rfl
@[simp] theorem State.tock_acks (s : State) : (s.tock).acks = s.acks := rfl
@[simp] theorem State.tock_timeShares (s : State) : (s.tock).timeShares = s.timeShares := rfl
@[simp] theorem State.tock_installed (s : State) : (s.tock).installed = s.installed := rfl
@[simp] theorem State.tock_chain (s : State) : (s.tock).chain = s.chain := rfl
@[simp] theorem State.tock_digests (s : State) : (s.tock).digests = s.digests := rfl
@[simp] theorem State.tock_deviceKey (s : State) : (s.tock).deviceKey = s.deviceKey := rfl
@[simp] theorem State.tock_cyc (s : State) : (s.tock).cyc = s.cyc := rfl
@[simp] theorem State.tock_phc (s : State) : (s.tock).phc = s.phc := rfl
@[simp] theorem State.tock_clk (s : State) : (s.tock).clk = s.clk := rfl
@[simp] theorem State.tock_profile (s : State) : (s.tock).profile = s.profile := rfl
@[simp] theorem State.tock_freq (s : State) : (s.tock).freq = s.freq := rfl
@[simp] theorem State.tock_correction (s : State) : (s.tock).correction = s.correction := rfl
@[simp] theorem State.tock_ptp (s : State) : (s.tock).ptp = s.ptp := rfl
@[simp] theorem State.tock_nextAgent (s : State) : (s.tock).nextAgent = s.nextAgent := rfl
@[simp] theorem State.tock_nextId (s : State) : (s.tock).nextId = s.nextId := rfl
@[simp] theorem State.tock_free (s : State) : (s.tock).free = s.free := rfl
@[simp] theorem State.tock_script (s : State) : (s.tock).script = s.script := rfl
@[simp] theorem State.tock_rotor (s : State) : (s.tock).rotor = s.rotor := rfl
@[simp] theorem State.tock_cur (s : State) : (s.tock).cur = s.cur := rfl

/-! addRel -/

@[simp] theorem State.addRel_mem (s : State) (r : Rel) : (s.addRel r).mem = s.mem := rfl
@[simp] theorem State.addRel_recs (s : State) (r : Rel) : (s.addRel r).recs = s.recs := rfl
@[simp] theorem State.addRel_marks (s : State) (r : Rel) : (s.addRel r).marks = s.marks := rfl
@[simp] theorem State.addRel_olds (s : State) (r : Rel) : (s.addRel r).olds = s.olds := rfl
@[simp] theorem State.addRel_code (s : State) (r : Rel) : (s.addRel r).code = s.code := rfl
@[simp] theorem State.addRel_fences (s : State) (r : Rel) : (s.addRel r).fences = s.fences := rfl
@[simp] theorem State.addRel_adopted (s : State) (r : Rel) : (s.addRel r).adopted = s.adopted := rfl
@[simp] theorem State.addRel_gone (s : State) (r : Rel) : (s.addRel r).gone = s.gone := rfl
@[simp] theorem State.addRel_xlat (s : State) (r : Rel) : (s.addRel r).xlat = s.xlat := rfl
@[simp] theorem State.addRel_slices (s : State) (r : Rel) : (s.addRel r).slices = s.slices := rfl
@[simp] theorem State.addRel_owned (s : State) (r : Rel) : (s.addRel r).owned = s.owned := rfl
@[simp] theorem State.addRel_pages (s : State) (r : Rel) : (s.addRel r).pages = s.pages := rfl
@[simp] theorem State.addRel_touched (s : State) (r : Rel) : (s.addRel r).touched = s.touched := rfl
@[simp] theorem State.addRel_named (s : State) (r : Rel) : (s.addRel r).named = s.named := rfl
@[simp] theorem State.addRel_moving (s : State) (r : Rel) : (s.addRel r).moving = s.moving := rfl
@[simp] theorem State.addRel_groups (s : State) (r : Rel) : (s.addRel r).groups = s.groups := rfl
@[simp] theorem State.addRel_cores (s : State) (r : Rel) : (s.addRel r).cores = s.cores := rfl
@[simp] theorem State.addRel_clusters (s : State) (r : Rel) : (s.addRel r).clusters = s.clusters := rfl
@[simp] theorem State.addRel_keys (s : State) (r : Rel) : (s.addRel r).keys = s.keys := rfl
@[simp] theorem State.addRel_barriers (s : State) (r : Rel) : (s.addRel r).barriers = s.barriers := rfl
@[simp] theorem State.addRel_pods (s : State) (r : Rel) : (s.addRel r).pods = s.pods := rfl
@[simp] theorem State.addRel_trels (s : State) (r : Rel) : (s.addRel r).trels = s.trels := rfl
@[simp] theorem State.addRel_launches (s : State) (r : Rel) : (s.addRel r).launches = s.launches := rfl
@[simp] theorem State.addRel_reservations (s : State) (r : Rel) : (s.addRel r).reservations = s.reservations := rfl
@[simp] theorem State.addRel_submits (s : State) (r : Rel) : (s.addRel r).submits = s.submits := rfl
@[simp] theorem State.addRel_published (s : State) (r : Rel) : (s.addRel r).published = s.published := rfl
@[simp] theorem State.addRel_shareAt (s : State) (r : Rel) : (s.addRel r).shareAt = s.shareAt := rfl
@[simp] theorem State.addRel_vfs (s : State) (r : Rel) : (s.addRel r).vfs = s.vfs := rfl
@[simp] theorem State.addRel_errors (s : State) (r : Rel) : (s.addRel r).errors = s.errors := rfl
@[simp] theorem State.addRel_pending (s : State) (r : Rel) : (s.addRel r).pending = s.pending := rfl
@[simp] theorem State.addRel_mbctl (s : State) (r : Rel) : (s.addRel r).mbctl = s.mbctl := rfl
@[simp] theorem State.addRel_mbarg (s : State) (r : Rel) : (s.addRel r).mbarg = s.mbarg := rfl
@[simp] theorem State.addRel_mbres (s : State) (r : Rel) : (s.addRel r).mbres = s.mbres := rfl
@[simp] theorem State.addRel_mbstat (s : State) (r : Rel) : (s.addRel r).mbstat = s.mbstat := rfl
@[simp] theorem State.addRel_mbrdy (s : State) (r : Rel) : (s.addRel r).mbrdy = s.mbrdy := rfl
@[simp] theorem State.addRel_hostData (s : State) (r : Rel) : (s.addRel r).hostData = s.hostData := rfl
@[simp] theorem State.addRel_powered (s : State) (r : Rel) : (s.addRel r).powered = s.powered := rfl
@[simp] theorem State.addRel_boots (s : State) (r : Rel) : (s.addRel r).boots = s.boots := rfl
@[simp] theorem State.addRel_powerLimit (s : State) (r : Rel) : (s.addRel r).powerLimit = s.powerLimit := rfl
@[simp] theorem State.addRel_device (s : State) (r : Rel) : (s.addRel r).device = s.device := rfl
@[simp] theorem State.addRel_links (s : State) (r : Rel) : (s.addRel r).links = s.links := rfl
@[simp] theorem State.addRel_sent (s : State) (r : Rel) : (s.addRel r).sent = s.sent := rfl
@[simp] theorem State.addRel_streams (s : State) (r : Rel) : (s.addRel r).streams = s.streams := rfl
@[simp] theorem State.addRel_committed (s : State) (r : Rel) : (s.addRel r).committed = s.committed := rfl
@[simp] theorem State.addRel_dueWrites (s : State) (r : Rel) : (s.addRel r).dueWrites = s.dueWrites := rfl
@[simp] theorem State.addRel_heldWrites (s : State) (r : Rel) : (s.addRel r).heldWrites = s.heldWrites := rfl
@[simp] theorem State.addRel_fabUsers (s : State) (r : Rel) : (s.addRel r).fabUsers = s.fabUsers := rfl
@[simp] theorem State.addRel_acks (s : State) (r : Rel) : (s.addRel r).acks = s.acks := rfl
@[simp] theorem State.addRel_timeShares (s : State) (r : Rel) : (s.addRel r).timeShares = s.timeShares := rfl
@[simp] theorem State.addRel_installed (s : State) (r : Rel) : (s.addRel r).installed = s.installed := rfl
@[simp] theorem State.addRel_chain (s : State) (r : Rel) : (s.addRel r).chain = s.chain := rfl
@[simp] theorem State.addRel_digests (s : State) (r : Rel) : (s.addRel r).digests = s.digests := rfl
@[simp] theorem State.addRel_deviceKey (s : State) (r : Rel) : (s.addRel r).deviceKey = s.deviceKey := rfl
@[simp] theorem State.addRel_cyc (s : State) (r : Rel) : (s.addRel r).cyc = s.cyc := rfl
@[simp] theorem State.addRel_phc (s : State) (r : Rel) : (s.addRel r).phc = s.phc := rfl
@[simp] theorem State.addRel_clk (s : State) (r : Rel) : (s.addRel r).clk = s.clk := rfl
@[simp] theorem State.addRel_profile (s : State) (r : Rel) : (s.addRel r).profile = s.profile := rfl
@[simp] theorem State.addRel_freq (s : State) (r : Rel) : (s.addRel r).freq = s.freq := rfl
@[simp] theorem State.addRel_correction (s : State) (r : Rel) : (s.addRel r).correction = s.correction := rfl
@[simp] theorem State.addRel_ptp (s : State) (r : Rel) : (s.addRel r).ptp = s.ptp := rfl
@[simp] theorem State.addRel_tick (s : State) (r : Rel) : (s.addRel r).tick = s.tick := rfl
@[simp] theorem State.addRel_nextAgent (s : State) (r : Rel) : (s.addRel r).nextAgent = s.nextAgent := rfl
@[simp] theorem State.addRel_nextId (s : State) (r : Rel) : (s.addRel r).nextId = s.nextId := rfl
@[simp] theorem State.addRel_free (s : State) (r : Rel) : (s.addRel r).free = s.free := rfl
@[simp] theorem State.addRel_script (s : State) (r : Rel) : (s.addRel r).script = s.script := rfl
@[simp] theorem State.addRel_rotor (s : State) (r : Rel) : (s.addRel r).rotor = s.rotor := rfl
@[simp] theorem State.addRel_cur (s : State) (r : Rel) : (s.addRel r).cur = s.cur := rfl

/-! wrBytes -/

@[simp] theorem State.wrBytes_recs (s : State) (k : Nat) (b : List Byte) : (s.wrBytes k b).recs = s.recs := rfl
@[simp] theorem State.wrBytes_marks (s : State) (k : Nat) (b : List Byte) : (s.wrBytes k b).marks = s.marks := rfl
@[simp] theorem State.wrBytes_olds (s : State) (k : Nat) (b : List Byte) : (s.wrBytes k b).olds = s.olds := rfl
@[simp] theorem State.wrBytes_code (s : State) (k : Nat) (b : List Byte) : (s.wrBytes k b).code = s.code := rfl
@[simp] theorem State.wrBytes_fences (s : State) (k : Nat) (b : List Byte) : (s.wrBytes k b).fences = s.fences := rfl
@[simp] theorem State.wrBytes_rels (s : State) (k : Nat) (b : List Byte) : (s.wrBytes k b).rels = s.rels := rfl
@[simp] theorem State.wrBytes_adopted (s : State) (k : Nat) (b : List Byte) : (s.wrBytes k b).adopted = s.adopted := rfl
@[simp] theorem State.wrBytes_gone (s : State) (k : Nat) (b : List Byte) : (s.wrBytes k b).gone = s.gone := rfl
@[simp] theorem State.wrBytes_xlat (s : State) (k : Nat) (b : List Byte) : (s.wrBytes k b).xlat = s.xlat := rfl
@[simp] theorem State.wrBytes_slices (s : State) (k : Nat) (b : List Byte) : (s.wrBytes k b).slices = s.slices := rfl
@[simp] theorem State.wrBytes_owned (s : State) (k : Nat) (b : List Byte) : (s.wrBytes k b).owned = s.owned := rfl
@[simp] theorem State.wrBytes_pages (s : State) (k : Nat) (b : List Byte) : (s.wrBytes k b).pages = s.pages := rfl
@[simp] theorem State.wrBytes_touched (s : State) (k : Nat) (b : List Byte) : (s.wrBytes k b).touched = s.touched := rfl
@[simp] theorem State.wrBytes_named (s : State) (k : Nat) (b : List Byte) : (s.wrBytes k b).named = s.named := rfl
@[simp] theorem State.wrBytes_moving (s : State) (k : Nat) (b : List Byte) : (s.wrBytes k b).moving = s.moving := rfl
@[simp] theorem State.wrBytes_groups (s : State) (k : Nat) (b : List Byte) : (s.wrBytes k b).groups = s.groups := rfl
@[simp] theorem State.wrBytes_cores (s : State) (k : Nat) (b : List Byte) : (s.wrBytes k b).cores = s.cores := rfl
@[simp] theorem State.wrBytes_clusters (s : State) (k : Nat) (b : List Byte) : (s.wrBytes k b).clusters = s.clusters := rfl
@[simp] theorem State.wrBytes_keys (s : State) (k : Nat) (b : List Byte) : (s.wrBytes k b).keys = s.keys := rfl
@[simp] theorem State.wrBytes_barriers (s : State) (k : Nat) (b : List Byte) : (s.wrBytes k b).barriers = s.barriers := rfl
@[simp] theorem State.wrBytes_pods (s : State) (k : Nat) (b : List Byte) : (s.wrBytes k b).pods = s.pods := rfl
@[simp] theorem State.wrBytes_trels (s : State) (k : Nat) (b : List Byte) : (s.wrBytes k b).trels = s.trels := rfl
@[simp] theorem State.wrBytes_launches (s : State) (k : Nat) (b : List Byte) : (s.wrBytes k b).launches = s.launches := rfl
@[simp] theorem State.wrBytes_reservations (s : State) (k : Nat) (b : List Byte) : (s.wrBytes k b).reservations = s.reservations := rfl
@[simp] theorem State.wrBytes_submits (s : State) (k : Nat) (b : List Byte) : (s.wrBytes k b).submits = s.submits := rfl
@[simp] theorem State.wrBytes_published (s : State) (k : Nat) (b : List Byte) : (s.wrBytes k b).published = s.published := rfl
@[simp] theorem State.wrBytes_shareAt (s : State) (k : Nat) (b : List Byte) : (s.wrBytes k b).shareAt = s.shareAt := rfl
@[simp] theorem State.wrBytes_vfs (s : State) (k : Nat) (b : List Byte) : (s.wrBytes k b).vfs = s.vfs := rfl
@[simp] theorem State.wrBytes_errors (s : State) (k : Nat) (b : List Byte) : (s.wrBytes k b).errors = s.errors := rfl
@[simp] theorem State.wrBytes_pending (s : State) (k : Nat) (b : List Byte) : (s.wrBytes k b).pending = s.pending := rfl
@[simp] theorem State.wrBytes_mbctl (s : State) (k : Nat) (b : List Byte) : (s.wrBytes k b).mbctl = s.mbctl := rfl
@[simp] theorem State.wrBytes_mbarg (s : State) (k : Nat) (b : List Byte) : (s.wrBytes k b).mbarg = s.mbarg := rfl
@[simp] theorem State.wrBytes_mbres (s : State) (k : Nat) (b : List Byte) : (s.wrBytes k b).mbres = s.mbres := rfl
@[simp] theorem State.wrBytes_mbstat (s : State) (k : Nat) (b : List Byte) : (s.wrBytes k b).mbstat = s.mbstat := rfl
@[simp] theorem State.wrBytes_mbrdy (s : State) (k : Nat) (b : List Byte) : (s.wrBytes k b).mbrdy = s.mbrdy := rfl
@[simp] theorem State.wrBytes_hostData (s : State) (k : Nat) (b : List Byte) : (s.wrBytes k b).hostData = s.hostData := rfl
@[simp] theorem State.wrBytes_powered (s : State) (k : Nat) (b : List Byte) : (s.wrBytes k b).powered = s.powered := rfl
@[simp] theorem State.wrBytes_boots (s : State) (k : Nat) (b : List Byte) : (s.wrBytes k b).boots = s.boots := rfl
@[simp] theorem State.wrBytes_powerLimit (s : State) (k : Nat) (b : List Byte) : (s.wrBytes k b).powerLimit = s.powerLimit := rfl
@[simp] theorem State.wrBytes_device (s : State) (k : Nat) (b : List Byte) : (s.wrBytes k b).device = s.device := rfl
@[simp] theorem State.wrBytes_links (s : State) (k : Nat) (b : List Byte) : (s.wrBytes k b).links = s.links := rfl
@[simp] theorem State.wrBytes_sent (s : State) (k : Nat) (b : List Byte) : (s.wrBytes k b).sent = s.sent := rfl
@[simp] theorem State.wrBytes_streams (s : State) (k : Nat) (b : List Byte) : (s.wrBytes k b).streams = s.streams := rfl
@[simp] theorem State.wrBytes_committed (s : State) (k : Nat) (b : List Byte) : (s.wrBytes k b).committed = s.committed := rfl
@[simp] theorem State.wrBytes_dueWrites (s : State) (k : Nat) (b : List Byte) : (s.wrBytes k b).dueWrites = s.dueWrites := rfl
@[simp] theorem State.wrBytes_heldWrites (s : State) (k : Nat) (b : List Byte) : (s.wrBytes k b).heldWrites = s.heldWrites := rfl
@[simp] theorem State.wrBytes_fabUsers (s : State) (k : Nat) (b : List Byte) : (s.wrBytes k b).fabUsers = s.fabUsers := rfl
@[simp] theorem State.wrBytes_acks (s : State) (k : Nat) (b : List Byte) : (s.wrBytes k b).acks = s.acks := rfl
@[simp] theorem State.wrBytes_timeShares (s : State) (k : Nat) (b : List Byte) : (s.wrBytes k b).timeShares = s.timeShares := rfl
@[simp] theorem State.wrBytes_installed (s : State) (k : Nat) (b : List Byte) : (s.wrBytes k b).installed = s.installed := rfl
@[simp] theorem State.wrBytes_chain (s : State) (k : Nat) (b : List Byte) : (s.wrBytes k b).chain = s.chain := rfl
@[simp] theorem State.wrBytes_digests (s : State) (k : Nat) (b : List Byte) : (s.wrBytes k b).digests = s.digests := rfl
@[simp] theorem State.wrBytes_deviceKey (s : State) (k : Nat) (b : List Byte) : (s.wrBytes k b).deviceKey = s.deviceKey := rfl
@[simp] theorem State.wrBytes_cyc (s : State) (k : Nat) (b : List Byte) : (s.wrBytes k b).cyc = s.cyc := rfl
@[simp] theorem State.wrBytes_phc (s : State) (k : Nat) (b : List Byte) : (s.wrBytes k b).phc = s.phc := rfl
@[simp] theorem State.wrBytes_clk (s : State) (k : Nat) (b : List Byte) : (s.wrBytes k b).clk = s.clk := rfl
@[simp] theorem State.wrBytes_profile (s : State) (k : Nat) (b : List Byte) : (s.wrBytes k b).profile = s.profile := rfl
@[simp] theorem State.wrBytes_freq (s : State) (k : Nat) (b : List Byte) : (s.wrBytes k b).freq = s.freq := rfl
@[simp] theorem State.wrBytes_correction (s : State) (k : Nat) (b : List Byte) : (s.wrBytes k b).correction = s.correction := rfl
@[simp] theorem State.wrBytes_ptp (s : State) (k : Nat) (b : List Byte) : (s.wrBytes k b).ptp = s.ptp := rfl
@[simp] theorem State.wrBytes_tick (s : State) (k : Nat) (b : List Byte) : (s.wrBytes k b).tick = s.tick := rfl
@[simp] theorem State.wrBytes_nextAgent (s : State) (k : Nat) (b : List Byte) : (s.wrBytes k b).nextAgent = s.nextAgent := rfl
@[simp] theorem State.wrBytes_nextId (s : State) (k : Nat) (b : List Byte) : (s.wrBytes k b).nextId = s.nextId := rfl
@[simp] theorem State.wrBytes_free (s : State) (k : Nat) (b : List Byte) : (s.wrBytes k b).free = s.free := rfl
@[simp] theorem State.wrBytes_script (s : State) (k : Nat) (b : List Byte) : (s.wrBytes k b).script = s.script := rfl
@[simp] theorem State.wrBytes_rotor (s : State) (k : Nat) (b : List Byte) : (s.wrBytes k b).rotor = s.rotor := rfl
@[simp] theorem State.wrBytes_cur (s : State) (k : Nat) (b : List Byte) : (s.wrBytes k b).cur = s.cur := rfl

/-! raiseLine -/

@[simp] theorem State.raiseLine_mem (s : State) (core line : Nat) : (s.raiseLine core line).mem = s.mem := rfl
@[simp] theorem State.raiseLine_recs (s : State) (core line : Nat) : (s.raiseLine core line).recs = s.recs := rfl
@[simp] theorem State.raiseLine_marks (s : State) (core line : Nat) : (s.raiseLine core line).marks = s.marks := rfl
@[simp] theorem State.raiseLine_olds (s : State) (core line : Nat) : (s.raiseLine core line).olds = s.olds := rfl
@[simp] theorem State.raiseLine_code (s : State) (core line : Nat) : (s.raiseLine core line).code = s.code := rfl
@[simp] theorem State.raiseLine_fences (s : State) (core line : Nat) : (s.raiseLine core line).fences = s.fences := rfl
@[simp] theorem State.raiseLine_rels (s : State) (core line : Nat) : (s.raiseLine core line).rels = s.rels := rfl
@[simp] theorem State.raiseLine_adopted (s : State) (core line : Nat) : (s.raiseLine core line).adopted = s.adopted := rfl
@[simp] theorem State.raiseLine_gone (s : State) (core line : Nat) : (s.raiseLine core line).gone = s.gone := rfl
@[simp] theorem State.raiseLine_xlat (s : State) (core line : Nat) : (s.raiseLine core line).xlat = s.xlat := rfl
@[simp] theorem State.raiseLine_slices (s : State) (core line : Nat) : (s.raiseLine core line).slices = s.slices := rfl
@[simp] theorem State.raiseLine_owned (s : State) (core line : Nat) : (s.raiseLine core line).owned = s.owned := rfl
@[simp] theorem State.raiseLine_pages (s : State) (core line : Nat) : (s.raiseLine core line).pages = s.pages := rfl
@[simp] theorem State.raiseLine_touched (s : State) (core line : Nat) : (s.raiseLine core line).touched = s.touched := rfl
@[simp] theorem State.raiseLine_named (s : State) (core line : Nat) : (s.raiseLine core line).named = s.named := rfl
@[simp] theorem State.raiseLine_moving (s : State) (core line : Nat) : (s.raiseLine core line).moving = s.moving := rfl
@[simp] theorem State.raiseLine_groups (s : State) (core line : Nat) : (s.raiseLine core line).groups = s.groups := rfl
@[simp] theorem State.raiseLine_clusters (s : State) (core line : Nat) : (s.raiseLine core line).clusters = s.clusters := rfl
@[simp] theorem State.raiseLine_keys (s : State) (core line : Nat) : (s.raiseLine core line).keys = s.keys := rfl
@[simp] theorem State.raiseLine_barriers (s : State) (core line : Nat) : (s.raiseLine core line).barriers = s.barriers := rfl
@[simp] theorem State.raiseLine_pods (s : State) (core line : Nat) : (s.raiseLine core line).pods = s.pods := rfl
@[simp] theorem State.raiseLine_trels (s : State) (core line : Nat) : (s.raiseLine core line).trels = s.trels := rfl
@[simp] theorem State.raiseLine_launches (s : State) (core line : Nat) : (s.raiseLine core line).launches = s.launches := rfl
@[simp] theorem State.raiseLine_reservations (s : State) (core line : Nat) : (s.raiseLine core line).reservations = s.reservations := rfl
@[simp] theorem State.raiseLine_submits (s : State) (core line : Nat) : (s.raiseLine core line).submits = s.submits := rfl
@[simp] theorem State.raiseLine_published (s : State) (core line : Nat) : (s.raiseLine core line).published = s.published := rfl
@[simp] theorem State.raiseLine_shareAt (s : State) (core line : Nat) : (s.raiseLine core line).shareAt = s.shareAt := rfl
@[simp] theorem State.raiseLine_vfs (s : State) (core line : Nat) : (s.raiseLine core line).vfs = s.vfs := rfl
@[simp] theorem State.raiseLine_errors (s : State) (core line : Nat) : (s.raiseLine core line).errors = s.errors := rfl
@[simp] theorem State.raiseLine_pending (s : State) (core line : Nat) : (s.raiseLine core line).pending = s.pending := rfl
@[simp] theorem State.raiseLine_mbctl (s : State) (core line : Nat) : (s.raiseLine core line).mbctl = s.mbctl := rfl
@[simp] theorem State.raiseLine_mbarg (s : State) (core line : Nat) : (s.raiseLine core line).mbarg = s.mbarg := rfl
@[simp] theorem State.raiseLine_mbres (s : State) (core line : Nat) : (s.raiseLine core line).mbres = s.mbres := rfl
@[simp] theorem State.raiseLine_mbstat (s : State) (core line : Nat) : (s.raiseLine core line).mbstat = s.mbstat := rfl
@[simp] theorem State.raiseLine_mbrdy (s : State) (core line : Nat) : (s.raiseLine core line).mbrdy = s.mbrdy := rfl
@[simp] theorem State.raiseLine_hostData (s : State) (core line : Nat) : (s.raiseLine core line).hostData = s.hostData := rfl
@[simp] theorem State.raiseLine_powered (s : State) (core line : Nat) : (s.raiseLine core line).powered = s.powered := rfl
@[simp] theorem State.raiseLine_boots (s : State) (core line : Nat) : (s.raiseLine core line).boots = s.boots := rfl
@[simp] theorem State.raiseLine_powerLimit (s : State) (core line : Nat) : (s.raiseLine core line).powerLimit = s.powerLimit := rfl
@[simp] theorem State.raiseLine_device (s : State) (core line : Nat) : (s.raiseLine core line).device = s.device := rfl
@[simp] theorem State.raiseLine_links (s : State) (core line : Nat) : (s.raiseLine core line).links = s.links := rfl
@[simp] theorem State.raiseLine_sent (s : State) (core line : Nat) : (s.raiseLine core line).sent = s.sent := rfl
@[simp] theorem State.raiseLine_streams (s : State) (core line : Nat) : (s.raiseLine core line).streams = s.streams := rfl
@[simp] theorem State.raiseLine_committed (s : State) (core line : Nat) : (s.raiseLine core line).committed = s.committed := rfl
@[simp] theorem State.raiseLine_dueWrites (s : State) (core line : Nat) : (s.raiseLine core line).dueWrites = s.dueWrites := rfl
@[simp] theorem State.raiseLine_heldWrites (s : State) (core line : Nat) : (s.raiseLine core line).heldWrites = s.heldWrites := rfl
@[simp] theorem State.raiseLine_fabUsers (s : State) (core line : Nat) : (s.raiseLine core line).fabUsers = s.fabUsers := rfl
@[simp] theorem State.raiseLine_acks (s : State) (core line : Nat) : (s.raiseLine core line).acks = s.acks := rfl
@[simp] theorem State.raiseLine_timeShares (s : State) (core line : Nat) : (s.raiseLine core line).timeShares = s.timeShares := rfl
@[simp] theorem State.raiseLine_installed (s : State) (core line : Nat) : (s.raiseLine core line).installed = s.installed := rfl
@[simp] theorem State.raiseLine_chain (s : State) (core line : Nat) : (s.raiseLine core line).chain = s.chain := rfl
@[simp] theorem State.raiseLine_digests (s : State) (core line : Nat) : (s.raiseLine core line).digests = s.digests := rfl
@[simp] theorem State.raiseLine_deviceKey (s : State) (core line : Nat) : (s.raiseLine core line).deviceKey = s.deviceKey := rfl
@[simp] theorem State.raiseLine_cyc (s : State) (core line : Nat) : (s.raiseLine core line).cyc = s.cyc := rfl
@[simp] theorem State.raiseLine_phc (s : State) (core line : Nat) : (s.raiseLine core line).phc = s.phc := rfl
@[simp] theorem State.raiseLine_clk (s : State) (core line : Nat) : (s.raiseLine core line).clk = s.clk := rfl
@[simp] theorem State.raiseLine_profile (s : State) (core line : Nat) : (s.raiseLine core line).profile = s.profile := rfl
@[simp] theorem State.raiseLine_freq (s : State) (core line : Nat) : (s.raiseLine core line).freq = s.freq := rfl
@[simp] theorem State.raiseLine_correction (s : State) (core line : Nat) : (s.raiseLine core line).correction = s.correction := rfl
@[simp] theorem State.raiseLine_ptp (s : State) (core line : Nat) : (s.raiseLine core line).ptp = s.ptp := rfl
@[simp] theorem State.raiseLine_tick (s : State) (core line : Nat) : (s.raiseLine core line).tick = s.tick := rfl
@[simp] theorem State.raiseLine_nextAgent (s : State) (core line : Nat) : (s.raiseLine core line).nextAgent = s.nextAgent := rfl
@[simp] theorem State.raiseLine_nextId (s : State) (core line : Nat) : (s.raiseLine core line).nextId = s.nextId := rfl
@[simp] theorem State.raiseLine_free (s : State) (core line : Nat) : (s.raiseLine core line).free = s.free := rfl
@[simp] theorem State.raiseLine_script (s : State) (core line : Nat) : (s.raiseLine core line).script = s.script := rfl
@[simp] theorem State.raiseLine_rotor (s : State) (core line : Nat) : (s.raiseLine core line).rotor = s.rotor := rfl
@[simp] theorem State.raiseLine_cur (s : State) (core line : Nat) : (s.raiseLine core line).cur = s.cur := rfl

/-! at -/

@[simp] theorem State.at_mem (s : State) (gid n : Nat) : (s.at gid n).mem = s.mem := rfl
@[simp] theorem State.at_recs (s : State) (gid n : Nat) : (s.at gid n).recs = s.recs := rfl
@[simp] theorem State.at_marks (s : State) (gid n : Nat) : (s.at gid n).marks = s.marks := rfl
@[simp] theorem State.at_olds (s : State) (gid n : Nat) : (s.at gid n).olds = s.olds := rfl
@[simp] theorem State.at_code (s : State) (gid n : Nat) : (s.at gid n).code = s.code := rfl
@[simp] theorem State.at_fences (s : State) (gid n : Nat) : (s.at gid n).fences = s.fences := rfl
@[simp] theorem State.at_rels (s : State) (gid n : Nat) : (s.at gid n).rels = s.rels := rfl
@[simp] theorem State.at_adopted (s : State) (gid n : Nat) : (s.at gid n).adopted = s.adopted := rfl
@[simp] theorem State.at_gone (s : State) (gid n : Nat) : (s.at gid n).gone = s.gone := rfl
@[simp] theorem State.at_xlat (s : State) (gid n : Nat) : (s.at gid n).xlat = s.xlat := rfl
@[simp] theorem State.at_slices (s : State) (gid n : Nat) : (s.at gid n).slices = s.slices := rfl
@[simp] theorem State.at_owned (s : State) (gid n : Nat) : (s.at gid n).owned = s.owned := rfl
@[simp] theorem State.at_pages (s : State) (gid n : Nat) : (s.at gid n).pages = s.pages := rfl
@[simp] theorem State.at_touched (s : State) (gid n : Nat) : (s.at gid n).touched = s.touched := rfl
@[simp] theorem State.at_named (s : State) (gid n : Nat) : (s.at gid n).named = s.named := rfl
@[simp] theorem State.at_moving (s : State) (gid n : Nat) : (s.at gid n).moving = s.moving := rfl
@[simp] theorem State.at_groups (s : State) (gid n : Nat) : (s.at gid n).groups = s.groups := rfl
@[simp] theorem State.at_cores (s : State) (gid n : Nat) : (s.at gid n).cores = s.cores := rfl
@[simp] theorem State.at_clusters (s : State) (gid n : Nat) : (s.at gid n).clusters = s.clusters := rfl
@[simp] theorem State.at_keys (s : State) (gid n : Nat) : (s.at gid n).keys = s.keys := rfl
@[simp] theorem State.at_barriers (s : State) (gid n : Nat) : (s.at gid n).barriers = s.barriers := rfl
@[simp] theorem State.at_pods (s : State) (gid n : Nat) : (s.at gid n).pods = s.pods := rfl
@[simp] theorem State.at_trels (s : State) (gid n : Nat) : (s.at gid n).trels = s.trels := rfl
@[simp] theorem State.at_launches (s : State) (gid n : Nat) : (s.at gid n).launches = s.launches := rfl
@[simp] theorem State.at_reservations (s : State) (gid n : Nat) : (s.at gid n).reservations = s.reservations := rfl
@[simp] theorem State.at_submits (s : State) (gid n : Nat) : (s.at gid n).submits = s.submits := rfl
@[simp] theorem State.at_published (s : State) (gid n : Nat) : (s.at gid n).published = s.published := rfl
@[simp] theorem State.at_shareAt (s : State) (gid n : Nat) : (s.at gid n).shareAt = s.shareAt := rfl
@[simp] theorem State.at_vfs (s : State) (gid n : Nat) : (s.at gid n).vfs = s.vfs := rfl
@[simp] theorem State.at_errors (s : State) (gid n : Nat) : (s.at gid n).errors = s.errors := rfl
@[simp] theorem State.at_pending (s : State) (gid n : Nat) : (s.at gid n).pending = s.pending := rfl
@[simp] theorem State.at_mbctl (s : State) (gid n : Nat) : (s.at gid n).mbctl = s.mbctl := rfl
@[simp] theorem State.at_mbarg (s : State) (gid n : Nat) : (s.at gid n).mbarg = s.mbarg := rfl
@[simp] theorem State.at_mbres (s : State) (gid n : Nat) : (s.at gid n).mbres = s.mbres := rfl
@[simp] theorem State.at_mbstat (s : State) (gid n : Nat) : (s.at gid n).mbstat = s.mbstat := rfl
@[simp] theorem State.at_mbrdy (s : State) (gid n : Nat) : (s.at gid n).mbrdy = s.mbrdy := rfl
@[simp] theorem State.at_hostData (s : State) (gid n : Nat) : (s.at gid n).hostData = s.hostData := rfl
@[simp] theorem State.at_powered (s : State) (gid n : Nat) : (s.at gid n).powered = s.powered := rfl
@[simp] theorem State.at_boots (s : State) (gid n : Nat) : (s.at gid n).boots = s.boots := rfl
@[simp] theorem State.at_powerLimit (s : State) (gid n : Nat) : (s.at gid n).powerLimit = s.powerLimit := rfl
@[simp] theorem State.at_device (s : State) (gid n : Nat) : (s.at gid n).device = s.device := rfl
@[simp] theorem State.at_links (s : State) (gid n : Nat) : (s.at gid n).links = s.links := rfl
@[simp] theorem State.at_sent (s : State) (gid n : Nat) : (s.at gid n).sent = s.sent := rfl
@[simp] theorem State.at_streams (s : State) (gid n : Nat) : (s.at gid n).streams = s.streams := rfl
@[simp] theorem State.at_committed (s : State) (gid n : Nat) : (s.at gid n).committed = s.committed := rfl
@[simp] theorem State.at_dueWrites (s : State) (gid n : Nat) : (s.at gid n).dueWrites = s.dueWrites := rfl
@[simp] theorem State.at_heldWrites (s : State) (gid n : Nat) : (s.at gid n).heldWrites = s.heldWrites := rfl
@[simp] theorem State.at_fabUsers (s : State) (gid n : Nat) : (s.at gid n).fabUsers = s.fabUsers := rfl
@[simp] theorem State.at_acks (s : State) (gid n : Nat) : (s.at gid n).acks = s.acks := rfl
@[simp] theorem State.at_timeShares (s : State) (gid n : Nat) : (s.at gid n).timeShares = s.timeShares := rfl
@[simp] theorem State.at_installed (s : State) (gid n : Nat) : (s.at gid n).installed = s.installed := rfl
@[simp] theorem State.at_chain (s : State) (gid n : Nat) : (s.at gid n).chain = s.chain := rfl
@[simp] theorem State.at_digests (s : State) (gid n : Nat) : (s.at gid n).digests = s.digests := rfl
@[simp] theorem State.at_deviceKey (s : State) (gid n : Nat) : (s.at gid n).deviceKey = s.deviceKey := rfl
@[simp] theorem State.at_cyc (s : State) (gid n : Nat) : (s.at gid n).cyc = s.cyc := rfl
@[simp] theorem State.at_phc (s : State) (gid n : Nat) : (s.at gid n).phc = s.phc := rfl
@[simp] theorem State.at_clk (s : State) (gid n : Nat) : (s.at gid n).clk = s.clk := rfl
@[simp] theorem State.at_profile (s : State) (gid n : Nat) : (s.at gid n).profile = s.profile := rfl
@[simp] theorem State.at_freq (s : State) (gid n : Nat) : (s.at gid n).freq = s.freq := rfl
@[simp] theorem State.at_correction (s : State) (gid n : Nat) : (s.at gid n).correction = s.correction := rfl
@[simp] theorem State.at_ptp (s : State) (gid n : Nat) : (s.at gid n).ptp = s.ptp := rfl
@[simp] theorem State.at_tick (s : State) (gid n : Nat) : (s.at gid n).tick = s.tick := rfl
@[simp] theorem State.at_nextAgent (s : State) (gid n : Nat) : (s.at gid n).nextAgent = s.nextAgent := rfl
@[simp] theorem State.at_nextId (s : State) (gid n : Nat) : (s.at gid n).nextId = s.nextId := rfl
@[simp] theorem State.at_free (s : State) (gid n : Nat) : (s.at gid n).free = s.free := rfl
@[simp] theorem State.at_script (s : State) (gid n : Nat) : (s.at gid n).script = s.script := rfl
@[simp] theorem State.at_rotor (s : State) (gid n : Nat) : (s.at gid n).rotor = s.rotor := rfl

end Sys2Proof.Machine
end

