-- ==== Sys2Proof/Laws/Memory.lean ====
section
/-! SUPPORT. Memory: the canonical form is kept by every operation, and what a read gives after a write. -/

namespace Sys2Proof.Machine

/-! ### The canonical form -/

theorem above_weaken {lo hi : Nat} (h : lo ≤ hi) : ∀ {m : List Host.Cell}, Memory.above hi m = true → Memory.above lo m = true
  | [], _ => rfl
  | (k, v) :: r, hm => by
    simp only [Memory.above, Bool.and_eq_true, decide_eq_true_eq] at hm ⊢
    exact ⟨⟨by omega, hm.1.2⟩, hm.2⟩

theorem writeByte_above {lo a : Nat} (b : Byte) (h : lo ≤ a) :
    ∀ {m : List Host.Cell}, Memory.above lo m = true → Memory.above lo (writeByte m a b) = true
  | [], _ => by
    unfold writeByte
    split
    · rfl
    · simp_all [Memory.above]
  | (k, v) :: r, hm => by
    have hm' := hm
    simp only [Memory.above, Bool.and_eq_true, decide_eq_true_eq] at hm
    obtain ⟨⟨hk, hv⟩, hr⟩ := hm
    unfold writeByte
    split
    · split
      · exact hm'
      · rename_i hlt hb
        simp only [Memory.above, Bool.and_eq_true, decide_eq_true_eq]
        exact ⟨⟨h, by simpa using hb⟩, ⟨by omega, hv⟩, hr⟩
    · split
      · rename_i heq
        split
        · exact above_weaken (by omega) hr
        · rename_i hb
          simp only [Memory.above, Bool.and_eq_true, decide_eq_true_eq]
          exact ⟨⟨h, by simpa using hb⟩, by rw [heq]; exact hr⟩
      · simp only [Memory.above, Bool.and_eq_true, decide_eq_true_eq]
        exact ⟨⟨hk, hv⟩, writeByte_above b (by omega) hr⟩

theorem writeByte_wf {m : List Host.Cell} (a : Nat) (b : Byte) (h : Memory.wf m = true) :
    Memory.wf (writeByte m a b) = true := writeByte_above b (Nat.zero_le a) h

theorem writeBytes_wf (l : List Byte) :
    ∀ {m : List Host.Cell} (a : Nat), Memory.wf m = true → Memory.wf (writeBytes m a l) = true := by
  induction l with
  | nil => intro m a h; exact h
  | cons b r ih => intro m a h; exact ih (a + 1) (writeByte_wf a b h)

theorem filter_above (p : Host.Cell → Bool) :
    ∀ {m : List Host.Cell} {lo : Nat}, Memory.above lo m = true → Memory.above lo (m.filter p) = true
  | [], _, _ => rfl
  | (k, v) :: r, lo, hm => by
    simp only [Memory.above, Bool.and_eq_true, decide_eq_true_eq] at hm
    have ih := filter_above p (m := r) hm.2
    rw [List.filter_cons]
    split
    · simp only [Memory.above, Bool.and_eq_true, decide_eq_true_eq]; exact ⟨hm.1, ih⟩
    · exact above_weaken (by omega) ih

theorem filter_wf (p : Host.Cell → Bool) {m : List Host.Cell} (h : Memory.wf m = true) : Memory.wf (m.filter p) = true :=
  filter_above p h

theorem foldl_writeByte_wf (l : List Host.Cell) (f : Host.Cell → Nat) :
    ∀ {m : List Host.Cell}, Memory.wf m = true → Memory.wf (l.foldl (fun m x => writeByte m (f x) x.2) m) = true := by
  induction l with
  | nil => intro m h; exact h
  | cons x r ih => intro m h; exact ih (writeByte_wf _ _ h)

theorem moveCells_wf {m : List Host.Cell} (src dst n : Nat) (h : Memory.wf m = true) :
    Memory.wf (moveCells m src dst n) = true := foldl_writeByte_wf _ _ (filter_wf _ h)

/-! ### Reads after writes -/

theorem readByte_of_above : ∀ {m : List Host.Cell} {lo a : Nat}, Memory.above lo m = true → a < lo → readByte m a = memUnlisted
  | [], _, _, _, _ => rfl
  | (k, v) :: r, lo, a, hm, ha => by
    simp only [Memory.above, Bool.and_eq_true, decide_eq_true_eq] at hm
    unfold readByte
    rw [if_neg (by omega)]
    exact readByte_of_above hm.2 (by omega)

theorem readByte_writeByte {lo : Nat} (a : Nat) (b : Byte) (x : Nat) :
    ∀ {m : List Host.Cell}, Memory.above lo m = true →
      readByte (writeByte m a b) x = if x = a then b else readByte m x
  | [], _ => by
    unfold writeByte
    by_cases hb : b = memUnlisted
    · by_cases hx : x = a <;> simp [hb, hx, readByte]
    · by_cases hx : x = a
      · simp [hb, hx, readByte]
      · simp [hb, hx, readByte, show a ≠ x by omega]
  | (k, v) :: r, hm => by
    simp only [Memory.above, Bool.and_eq_true, decide_eq_true_eq] at hm
    obtain ⟨⟨hk, hv⟩, hr⟩ := hm
    have ih := readByte_writeByte a b x hr
    have hlow : ∀ y, y ≤ k → readByte r y = memUnlisted := fun y hy => readByte_of_above hr (by omega)
    unfold writeByte
    by_cases h1 : a < k
    · by_cases hb : b = memUnlisted
      · by_cases hx : x = a
        · subst hx; simp [h1, hb, readByte, hlow x (by omega), show k ≠ x by omega]
        · simp [h1, hb, hx]
      · by_cases hx : x = a
        · subst hx; simp [h1, hb, readByte]
        · simp [h1, hb, hx, readByte, show a ≠ x by omega]
    · by_cases h2 : a = k
      · subst h2
        by_cases hb : b = memUnlisted
        · by_cases hx : x = a
          · subst hx; simp [hb, hlow x (by omega)]
          · simp [hb, hx, readByte, show a ≠ x by omega]
        · by_cases hx : x = a
          · subst hx; simp [hb, readByte]
          · simp [hb, hx, readByte, show a ≠ x by omega]
      · by_cases hx : k = x
        · subst hx; simp [h1, h2, readByte, show k ≠ a by omega]
        · simp [h1, h2, readByte, hx, ih]

theorem readByte_writeByte_wf {m : List Host.Cell} (h : Memory.wf m = true) (a : Nat) (b : Byte) (x : Nat) :
    readByte (writeByte m a b) x = if x = a then b else readByte m x := readByte_writeByte a b x h

theorem readByte_writeBytes_out (l : List Byte) :
    ∀ {m : List Host.Cell} (a x : Nat), Memory.wf m = true → (x < a ∨ a + l.length ≤ x) →
      readByte (writeBytes m a l) x = readByte m x := by
  induction l with
  | nil => intro m a x _ _; rfl
  | cons b r ih =>
    intro m a x h hx
    simp only [List.length_cons] at hx
    rw [writeBytes, ih (a + 1) x (writeByte_wf a b h) (by omega), readByte_writeByte_wf h, if_neg (by omega)]

theorem readBytes_writeBytes (l : List Byte) :
    ∀ {m : List Host.Cell} (a : Nat), Memory.wf m = true → readBytes (writeBytes m a l) a l.length = l := by
  induction l with
  | nil => intro m a _; rfl
  | cons b r ih =>
    intro m a h
    have hw := writeByte_wf a b h
    rw [writeBytes, List.length_cons, readBytes, ih (a + 1) hw, readByte_writeBytes_out r (a + 1) a hw (by omega),
      readByte_writeByte_wf h, if_pos rfl]

theorem bytesOfNat_length : ∀ n w, (bytesOfNat n w).length = n
  | 0, _ => rfl
  | n + 1, w => by rw [bytesOfNat, List.length_cons, bytesOfNat_length n]

theorem natOfBytes_bytesOfNat : ∀ n w, natOfBytes (bytesOfNat n w) = w % 256 ^ n
  | 0, w => by simp [bytesOfNat, natOfBytes, Nat.mod_one]
  | n + 1, w => by
    have hp : 256 ^ (n + 1) = 256 * 256 ^ n := by ring
    rw [bytesOfNat, natOfBytes, natOfBytes_bytesOfNat n, BitVec.toNat_ofNat, hp, Nat.mod_mul]

/-- A number read back from where it was written (R2). -/
theorem State.rd_wr (s : State) (h : Memory.wf s.mem = true) (k n v : Nat) : (s.wr k n v).rd k n = v % 256 ^ n := by
  unfold State.wr State.wrBytes State.rd
  have := readBytes_writeBytes (bytesOfNat n v) (m := s.mem) k h
  rw [bytesOfNat_length] at this
  simp only [this, natOfBytes_bytesOfNat]

theorem reset_mem_wf : Memory.wf State.reset.mem = true := rfl

end Sys2Proof.Machine
end

