-- ==== Sys2Proof/Laws/Context.lean ====
section
/-! SUPPORT. Contexts and registers: what an update of one context changes, reading a register after a write, the window
lag, and counters that report nothing. -/

namespace Sys2Proof.Machine

/-! ### Addresses -/

theorem inRegion_eq (p : Word) (off : Int) : inRegion p off = offPtr p off := by
  unfold inRegion offPtr toN
  have h : ((p.toNat % 2 ^ 56 : Nat) + off) % 2 ^ 56 = ((p.toNat : Int) + off) % ((2 ^ 56 : Nat) : Int) := by
    push_cast
    rw [Int.emod_add_emod]
  rw [h]
theorem nextPc_eq (i : Instr) (c : Ctx) : nextPc i c = inRegion c.pcA i.size := by rw [nextPc, inRegion_eq]
theorem codeTarget_eq (c : Ctx) (off : BitVec 23) : codeTarget c off = relTarget c.pcA off := by
  rw [codeTarget, relTarget, inRegion_eq]

/-! ### One context -/

@[simp] theorem updCtx_mem (s : State) (a n : Nat) (f : Ctx → Ctx) : (s.updCtx a n f).mem = s.mem := rfl
@[simp] theorem updCtx_cores (s : State) (a n : Nat) (f : Ctx → Ctx) : (s.updCtx a n f).cores = s.cores := rfl
@[simp] theorem updCtx_core (s : State) (a n : Nat) (f : Ctx → Ctx) (k : Nat) : (s.updCtx a n f).core k = s.core k := rfl
@[simp] theorem updCtx_vfs (s : State) (a n : Nat) (f : Ctx → Ctx) : (s.updCtx a n f).vfs = s.vfs := rfl
@[simp] theorem updCtx_pending (s : State) (a n : Nat) (f : Ctx → Ctx) : (s.updCtx a n f).pending = s.pending := rfl
theorem updCtx_rest (s : State) (a n : Nat) (f : Ctx → Ctx) : { s.updCtx a n f with groups := s.groups } = s := rfl

theorem acts_group {s : State} {g : Group} {c : Ctx} (h : s.Acts g c) : s.group? g.id = some g ∧ g.ctx? c.num = some c := by
  unfold State.Acts State.here? at h
  split at h
  · rename_i g' hg
    have hid : g'.id = s.cur.gid := by simpa using List.find?_some hg
    split at h
    · simp only [Option.map_eq_some_iff, Prod.mk.injEq] at h
      obtain ⟨a, ha, rfl, rfl⟩ := h
      have hn : a.num = s.cur.ctx := by simpa using List.find?_some ha
      exact ⟨by rw [hid]; exact hg, by rw [hn]; exact ha⟩
    · cases h
  · cases h
theorem acts_cx {s : State} {g : Group} {c : Ctx} (h : s.Acts g c) : s.cx g.id c.num = some c := by
  obtain ⟨h1, h2⟩ := acts_group h
  simp [State.cx, h1, h2]

/-- Finding in a list whose elements are changed without their key. -/
theorem find_map_key {α : Type} (k : α → Nat) (m : Nat) (F : α → α) (hF : ∀ x, k (F x) = k x) (l : List α) :
    (l.map F).find? (fun x => k x == m) = (l.find? fun x => k x == m).map F := by
  induction l with
  | nil => rfl
  | cons a r ih =>
    simp only [List.map_cons, List.find?_cons, hF]
    split <;> simp_all

/-- A group after an update of groups that keeps ids. -/
theorem group_updGroup (s : State) (a b : Nat) (f : Group → Group) (hf : ∀ x, (f x).id = x.id) :
    (s.updGroup a f).group? b = (s.group? b).map fun g => if b = a then f g else g := by
  unfold State.group? State.updGroup
  have := find_map_key Group.id b (fun g => if g.id == a then f g else g) (by intro x; split <;> simp_all) s.groups
  rw [this]
  cases h : s.groups.find? (fun g => g.id == b) with
  | none => rfl
  | some g =>
    have hid : g.id = b := by simpa using List.find?_some h
    simp [hid]
theorem ctx_updCtx (g : Group) (n m : Nat) (f : Ctx → Ctx) (hf : ∀ x, (f x).num = x.num) :
    (g.updCtx n f).ctx? m = (g.ctx? m).map fun c => if m = n then f c else c := by
  unfold Group.ctx? Group.updCtx
  have := find_map_key Ctx.num m (fun c => if c.num == n then f c else c) (by intro x; split <;> simp_all) g.ctxs
  rw [this]
  cases h : g.ctxs.find? (fun c => c.num == m) with
  | none => rfl
  | some c =>
    have hid : c.num = m := by simpa using List.find?_some h
    simp [hid]
/-- A context after an update of one context that keeps its number. -/
theorem cx_updCtx (s : State) (a n b m : Nat) (f : Ctx → Ctx) (hf : ∀ x, (f x).num = x.num) :
    (s.updCtx a n f).cx b m = (s.cx b m).map fun c => if b = a ∧ m = n then f c else c := by
  unfold State.cx State.updCtx
  rw [group_updGroup _ _ _ _ (by intro x; rfl)]
  cases s.group? b with
  | none => rfl
  | some g =>
    by_cases h : b = a
    · subst h
      simp [ctx_updCtx _ _ _ _ hf]
    · simp [h]

/-- Two updates of one context in a row. -/
theorem updCtx_updCtx (s : State) (a n : Nat) (f h : Ctx → Ctx) (hf : ∀ x, (f x).num = x.num) :
    (s.updCtx a n f).updCtx a n h = s.updCtx a n fun x => h (f x) := by
  simp only [State.updCtx, State.updGroup, List.map_map]
  congr 1
  apply List.map_congr_left
  intro x _
  by_cases hx : x.id = a
  · simp only [Function.comp, hx, Group.updCtx, List.map_map, beq_self_eq_true, if_true]
    congr 1
    apply List.map_congr_left
    intro y _
    by_cases hy : y.num = n <;> simp [hy, hf]
  · simp [Function.comp, hx]
@[simp] theorem updCtx_id (s : State) (a n : Nat) : (s.updCtx a n fun x => x) = s := by
  simp only [State.updCtx, State.updGroup, Group.updCtx, ite_self, List.map_id']

/-- The cursor, and what it finds. -/
theorem acts_iff {s : State} {g : Group} {c : Ctx} :
    s.Acts g c ↔ s.cur.gid = g.id ∧ s.cur.ctx = c.num ∧ s.group? g.id = some g ∧ g.runs = true ∧ g.ctx? c.num = some c := by
  constructor
  · intro h
    refine ⟨?_, ?_, (acts_group h).1, ?_, (acts_group h).2⟩ <;> unfold State.Acts State.here? at h <;> split at h <;>
      try contradiction
    all_goals
      rename_i q hq
      split at h <;> try contradiction
      have hid : q.id = s.cur.gid := by simpa using List.find?_some hq
      simp only [Option.map_eq_some_iff, Prod.mk.injEq] at h
      obtain ⟨a, ha, rfl, rfl⟩ := h
      have hn : a.num = s.cur.ctx := by simpa using List.find?_some ha
      first | exact hid.symm | exact hn.symm | assumption
  · rintro ⟨h1, h2, h3, h4, h5⟩
    unfold State.Acts State.here?
    rw [h1, h2, h3]
    simp [h4, h5]
/-- Who acts after an update of the group that keeps its number, its status and its context's number. -/
theorem acts_updGroup {s : State} {g : Group} {c c' : Ctx} (h : s.Acts g c) (f : Group → Group) (hid : ∀ x, (f x).id = x.id)
    (hr : (f g).runs = g.runs) (hn : c'.num = c.num) (hc : (f g).ctx? c.num = some c') :
    (s.updGroup g.id f).Acts (f g) c' := by
  obtain ⟨h1, h2, h3, h4, h5⟩ := acts_iff.1 h
  refine acts_iff.2 ⟨by rw [hid]; exact h1, by rw [hn]; exact h2, ?_, by rw [hr]; exact h4, by rw [hn]; exact hc⟩
  rw [hid, group_updGroup _ _ _ _ hid, h3]
  simp
theorem acts_updCtx {s : State} {g : Group} {c : Ctx} (h : s.Acts g c) (f : Ctx → Ctx) (hf : ∀ x, (f x).num = x.num) :
    (s.updCtx g.id c.num f).Acts (g.updCtx c.num f) (f c) :=
  acts_updGroup h _ (fun _ => rfl) rfl (hf c) (by rw [ctx_updCtx _ _ _ _ hf, (acts_group h).2]; simp)

/-! ### Counters that report nothing -/

theorem alGet_alPut {α : Type} (l : List (Nat × α)) (k m : Nat) (v : α) :
    alGet (alPut l k v) m = if m = k then some v else alGet l m := by
  induction l with
  | nil =>
    by_cases h : m = k
    · simp [alPut, alGet, h]
    · simp [alPut, alGet, h]; omega
  | cons x r ih =>
    obtain ⟨a, b⟩ := x
    simp only [alPut]
    split
    · by_cases h : m = k
      · simp [alGet, h]
      · simp only [alGet, h, if_false]
        rw [if_neg (by omega)]
    · split
      · by_cases h : m = k
        · simp_all [alGet]
        · simp only [alGet, h, if_false]
          rw [if_neg (by omega), if_neg (by omega)]
      · simp only [alGet, ih]
        by_cases h : m = k
        · subst h
          simp only [if_true]
          rw [if_neg (by omega)]
        · simp [h]
theorem core_updCore (s : State) (k m : Nat) (f : Core → Core) :
    (s.updCore k f).core m = if m = k then f (s.core k) else s.core m := by
  simp only [State.core, State.updCore, alGet_alPut]
  split <;> rfl

/-- Only the event counters of a core have changed. -/
structure CountersOnly (s t : State) (core : Nat) : Prop where
  rest : { t with cores := s.cores } = s
  others : ∀ k, k ≠ core → t.core k = s.core k
  lines : (t.core core).lines = (s.core core).lines
  pending : (t.core core).pending = (s.core core).pending
  jobSeq : (t.core core).jobSeq = (s.core core).jobSeq
  calm : s.Calm core → t.Calm core

theorem CountersOnly.refl (s : State) (core : Nat) : CountersOnly s s core := ⟨rfl, fun _ _ => rfl, rfl, rfl, rfl, id⟩
theorem CountersOnly.trans {s t u : State} {core : Nat} (h1 : CountersOnly s t core) (h2 : CountersOnly t u core) :
    CountersOnly s u core := by
  refine ⟨?_, fun k hk => (h2.others k hk).trans (h1.others k hk), h2.lines.trans h1.lines, h2.pending.trans h1.pending,
    h2.jobSeq.trans h1.jobSeq, fun h => h2.calm (h1.calm h)⟩
  have a := h1.rest
  have b := h2.rest
  rw [← b] at a
  exact a
theorem CountersOnly.mem {s t : State} {core : Nat} (h : CountersOnly s t core) : t.mem = s.mem := by
  rw [← h.rest]
theorem CountersOnly.groups {s t : State} {core : Nat} (h : CountersOnly s t core) : t.groups = s.groups := by
  rw [← h.rest]
theorem CountersOnly.vfs {s t : State} {core : Nat} (h : CountersOnly s t core) : t.vfs = s.vfs := by
  rw [← h.rest]
theorem CountersOnly.pendingRecords {s t : State} {core : Nat} (h : CountersOnly s t core) :
    t.pending = s.pending := by
  rw [← h.rest]
theorem CountersOnly.cx {s t : State} {core : Nat} (h : CountersOnly s t core) (a n : Nat) : t.cx a n = s.cx a n := by
  rw [← h.rest]; rfl

theorem bit_or_high (x : Word) : bit (x ||| BitVec.twoPow 64 63).toNat 19 = bit x.toNat 19 := by
  have key : ∀ y : Word, bit y.toNat 19 = y.getLsbD 19 := by
    intro y
    simp [bit, BitVec.getLsbD, Nat.testBit_eq_decide_div_mod_eq, Bool.beq_eq_decide_eq]
  rw [key, key]
  simp

theorem countOne_calm (core ev n vf : Nat) (mode : Bool) (s : State) (i : Fin 8) (h : s.Calm core) :
    CountersOnly s (State.countOne core ev n vf mode s i) core := by
  unfold State.countOne
  have hb := h i
  simp only [hb, Bool.not_false, Bool.or_true, if_true]
  generalize (_ && (if mode = true then _ else _) : Bool) = A
  cases A
  · exact CountersOnly.refl s core
  · rw [if_pos rfl]
    refine ⟨rfl, ?_, ?_, ?_, ?_, ?_⟩
    · intro k hk; rw [core_updCore, if_neg hk]
    · rw [core_updCore, if_pos rfl]
    · rw [core_updCore, if_pos rfl]
    · rw [core_updCore, if_pos rfl]
    · intro _ j
      rw [core_updCore, if_pos rfl]
      dsimp only
      split
      · exact h j
      · by_cases e : i.val = j.val
        · simp only [e, Vector.getElem_set_self]
          rw [bit_or_high]; exact h j
        · rw [Vector.getElem_set_ne _ _ e]; exact h j
/-- An event counts on a core whose counters report nothing: only its counters change. -/
theorem count_calm (s : State) (core ev n vf : Nat) (mode : Bool) (h : s.Calm core) :
    CountersOnly s (s.count core ev n vf mode) core := by
  unfold State.count
  split
  · exact CountersOnly.refl s core
  · split
    · exact CountersOnly.refl s core
    · have key : ∀ (l : List (Fin 8)) (u : State), u.Calm core →
          CountersOnly u (l.foldl (State.countOne core ev n vf mode) u) core := by
        intro l
        induction l with
        | nil => intro u _; exact CountersOnly.refl u core
        | cons a r ih =>
          intro u hu
          have h1 := countOne_calm core ev n vf mode u a hu
          exact h1.trans (ih _ (h1.calm hu))
      exact key _ s h
theorem calm_updCtx {s : State} {core a n : Nat} {f : Ctx → Ctx} (h : s.Calm core) : (s.updCtx a n f).Calm core := h

/-! ### Ends -/

theorem endsA_frame (s : State) (g : Group) (c : Ctx) (dest : Word) (h : s.Calm g.core) :
    CountersOnly (s.updCtx g.id c.num fun x => x.nextA dest) (s.endsA g c dest) g.core :=
  count_calm _ _ _ _ _ _ h
theorem waitsA_frame (s : State) (g : Group) (c : Ctx) (w : Wait) (h : s.Calm g.core) :
    CountersOnly (s.updCtx g.id c.num (Ctx.waitForA w)) (s.waitsA g c w) g.core := by
  unfold State.waitsA State.stalled
  split
  · exact count_calm _ _ _ _ _ _ h
  · exact CountersOnly.refl _ _
theorem onlyContext_of {s t : State} {g : Group} {c : Ctx} {f : Ctx → Ctx} (hf : ∀ x, (f x).num = x.num)
    (h : CountersOnly (s.updCtx g.id c.num f) t g.core) : OnlyContext s t g c := by
  refine ⟨?_, ?_, ?_, fun k hk => h.others k hk, ⟨h.lines, h.pending, h.jobSeq⟩⟩
  · have := h.rest
    have e : t = { s.updCtx g.id c.num f with cores := t.cores } := by rw [← this]
    rw [e]; rfl
  · rw [h.groups]
    simp only [State.updCtx, State.updGroup, List.map_map]
    congr 1
    funext x
    simp only [Function.comp]
    split <;> rfl
  · intro a n hn
    rw [h.cx, cx_updCtx _ _ _ _ _ _ hf]
    cases s.cx a n with
    | none => rfl
    | some y => simp [hn]

/-! ### Numbers that stay -/

theorem foldl_keep {α β γ : Type} (k : α → γ) (f : α → β → α) (hf : ∀ a b, k (f a b) = k a) (l : List β) (a : α) :
    k (l.foldl f a) = k a := by
  induction l generalizing a with
  | nil => rfl
  | cons b r ih => rw [List.foldl_cons, ih, hf]
@[simp] theorem applyLag_num (c : Ctx) (u : Lag) : (c.applyLag u).num = c.num := by unfold Ctx.applyLag; split <;> rfl
@[simp] theorem endInstr_num (c : Ctx) (b : Bool) : (c.endInstr b).num = c.num := by
  unfold Ctx.endInstr; rw [foldl_keep Ctx.num _ applyLag_num]
@[simp] theorem clearA_num (c : Ctx) : c.clearA.num = c.num := rfl
@[simp] theorem waitForA_num (c : Ctx) (w : Wait) : (c.waitForA w).num = c.num := rfl
@[simp] theorem nextA_num (c : Ctx) (d : Word) : (c.nextA d).num = c.num := by simp [Ctx.nextA]
@[simp] theorem makeLive_num (c : Ctx) (r : RegName) : (c.makeLive r).num = c.num := by cases r <;> rfl
@[simp] theorem direct_num (c : Ctx) (b : Bool) (r : RegName) (m d : Block) : (c.direct b r m d).num = c.num := by
  simp [Ctx.direct, Ctx.overtake]
@[simp] theorem writeX_num (c : Ctx) (d : BitVec 5) (v : Word) : (c.writeX d v).num = c.num := by
  unfold Ctx.writeX; split <;> simp
@[simp] theorem pushBq_num (c : Ctx) (d : Word) (m : BitVec 32) : (c.pushBq d m).num = c.num := rfl
@[simp] theorem pushQ7_num (c : Ctx) (d : Word) : (c.pushQ7 d).num = c.num := rfl
@[simp] theorem popQ6_num (c : Ctx) : (c.popQ6).num = c.num := by unfold Ctx.popQ6; split <;> rfl
@[simp] theorem markDead_num (c : Ctx) (r : RegName) : (c.markDead r).num = c.num := by
  cases r <;> simp [Ctx.markDead, Ctx.overtake]
@[simp] theorem markX_num (c : Ctx) (m : BitVec 32) : (c.markX m).num = c.num := by
  unfold Ctx.markX; exact foldl_keep Ctx.num _ (by intro a b; split <;> simp) _ _

/-- What an instruction answers that changes its own context only, and then ends or waits. -/
theorem runA_onlyContext {s t : State} {g : Group} {c : Ctx} {i : Instr} {f : State → Group → Ctx → Act} (h : s.Acts g c)
    (hc : s.Calm g.core) (he : runA i s f = .next t)
    (hf : (∃ F : Ctx → Ctx, (∀ x, (F x).num = x.num) ∧ f s g c = .done (s.updCtx g.id c.num F)) ∨
      (∃ (F : Ctx → Ctx) (d : Word), (∀ x, (F x).num = x.num) ∧ f s g c = .goto (s.updCtx g.id c.num F) d) ∨
      ∃ (F : Ctx → Ctx) (w : Wait), (∀ x, (F x).num = x.num) ∧ f s g c = .wait (s.updCtx g.id c.num F) w) :
    ∃ F : Ctx → Ctx, (∀ x, (F x).num = x.num) ∧ CountersOnly (s.updCtx g.id c.num F) t g.core := by
  have ends : ∀ (F : Ctx → Ctx) (d : Word), (∀ x, (F x).num = x.num) → t = (s.updCtx g.id c.num F).endsA g c d →
      ∃ F : Ctx → Ctx, (∀ x, (F x).num = x.num) ∧ CountersOnly (s.updCtx g.id c.num F) t g.core := by
    intro F d hF ht
    refine ⟨fun x => (F x).nextA d, fun x => by rw [nextA_num, hF], ?_⟩
    rw [← updCtx_updCtx s _ _ F (fun y => y.nextA d) hF, ht]
    exact endsA_frame _ g c d hc
  obtain ⟨F, hF, e⟩ | ⟨F, d, hF, e⟩ | ⟨F, w, hF, e⟩ := hf
  · rw [runA_done h e] at he
    cases he
    exact ends F _ hF rfl
  · rw [runA_goto h e] at he
    cases he
    exact ends F d hF rfl
  · rw [runA_wait h e] at he
    cases he
    refine ⟨fun x => (F x).waitForA w, fun x => by rw [waitForA_num, hF], ?_⟩
    rw [← updCtx_updCtx s _ _ F (Ctx.waitForA w) hF]
    exact waitsA_frame _ g c w hc


/-! ### Registers -/

theorem blend_full (n : Nat) (hn : n ≤ 4096) (old : Block) (v : BitVec n) :
    (blend old ((BitVec.allOnes n).setWidth 4096) (v.setWidth 4096)).setWidth n = v := by
  ext i hi
  simp [blend, hi, Nat.lt_of_lt_of_le hi hn]
/-- Writing a whole register of 64 bits. -/
theorem putX (f : RegFile) (d : BitVec 5) (v : Word) (h : d ≠ 0) :
    f.put (.x d) ((BitVec.allOnes 64).setWidth 4096) (v.setWidth 4096) = { f with x := f.x.set d.toNat v } := by
  simp only [RegFile.put, h, if_false]
  rw [blend_full 64 (by omega)]
/-- Reading an x register after a write of one: x0 reads 0 and its writes are discarded (R125). -/
theorem readX_writeX (c : Ctx) (d r : BitVec 5) (v : Word) :
    (c.writeX d v).readX r = if r = 0 then 0 else if r = d then v else c.readX r := by
  unfold Ctx.writeX
  split
  · rename_i h
    subst h
    simp only [Ctx.readX]
    split <;> rfl
  · rename_i h
    have e : ((c.direct false (.x d) ((BitVec.allOnes 64).setWidth 4096) (v.setWidth 4096)).r) =
        { c.r with x := c.r.x.set d.toNat v } := by
      simp only [Ctx.direct, Ctx.makeLive, Ctx.overtake]
      exact putX c.r d v h
    simp only [Ctx.readX, e]
    by_cases h0 : r = 0
    · rw [if_pos h0, if_pos h0]
    · rw [if_neg h0, if_neg h0]
      by_cases h1 : r = d
      · subst h1; simp
      · have : d.toNat ≠ r.toNat := fun e => h1 (BitVec.eq_of_toNat_eq e.symm)
        rw [if_neg h1, if_neg h0, Vector.getElem_set_ne _ _ this]
theorem writeX_others (c : Ctx) (d : BitVec 5) (v : Word) :
    (c.writeX d v).r.g = c.r.g ∧ (c.writeX d v).r.k = c.r.k ∧ (c.writeX d v).r.v = c.r.v ∧
    (c.writeX d v).queues = c.queues ∧ (c.writeX d v).csr = c.csr ∧ (c.writeX d v).pcE = c.pcE ∧
    (c.writeX d v).rep = c.rep ∧ (c.writeX d v).pcA = c.pcA := by
  unfold Ctx.writeX
  split
  · simp
  · rename_i h
    simp only [Ctx.direct, Ctx.makeLive, Ctx.overtake, putX _ _ _ h, and_self]
/-- The end of an instruction with which no queued update comes about changes the queue of updates only. -/
theorem endInstr_quiet (c : Ctx) (b : Bool) (h : ∀ u ∈ c.lag, if u.execute == b then 1 < u.left else 0 < u.left) :
    c.endInstr b = { c with lag := c.lag.map fun u => if u.execute == b then { u with left := u.left - 1 } else u } := by
  unfold Ctx.endInstr
  have hz : ∀ u ∈ c.lag.map (fun u => if u.execute == b then { u with left := u.left - 1 } else u), u.left ≠ 0 := by
    intro u hu
    simp only [List.mem_map] at hu
    obtain ⟨y, hy, rfl⟩ := hu
    have := h y hy
    split at this <;> simp_all <;> omega
  have e1 : (c.lag.map (fun u => if u.execute == b then { u with left := u.left - 1 } else u)).filter (fun u => u.left == 0)
      = [] := by
    rw [List.filter_eq_nil_iff]
    intro u hu
    simpa using hz u hu
  have e2 : (c.lag.map (fun u => if u.execute == b then { u with left := u.left - 1 } else u)).filter (fun u => u.left != 0)
      = c.lag.map (fun u => if u.execute == b then { u with left := u.left - 1 } else u) := by
    rw [List.filter_eq_self]
    intro u hu
    simpa using hz u hu
  simp only [e1, e2, List.foldl_nil]
theorem mem_overtake {b : Bool} {r : RegName} {m : Block} {l : List Lag} {u : Lag} (h : u ∈ overtake b r m l) :
    ∃ y ∈ l, y.execute = u.execute ∧ y.left = u.left := by
  unfold overtake at h
  simp only [List.mem_map] at h
  obtain ⟨y, hy, rfl⟩ := h
  exact ⟨y, hy, by split <;> rfl, by split <;> rfl⟩
/-- A write of an x register queues an update that is not due with the next instruction. -/
theorem writeX_lag (c : Ctx) (d : BitVec 5) (v : Word) (h : c.NothingDue) : (c.writeX d v).NothingDue := by
  unfold Ctx.writeX
  split
  · exact h
  · intro u hu
    simp only [Ctx.direct, Ctx.makeLive, Ctx.overtake, List.mem_append, List.mem_singleton] at hu
    rcases hu with hu | rfl
    · obtain ⟨y, hy, h1, h2⟩ := mem_overtake hu
      have := h y hy
      rwa [h1, h2] at this
    · simp [lagStart]

end Sys2Proof.Machine
end

