-- ==== Sys2Proof/Laws/Access.lean ====
section
/-! SUPPORT. What an access of the access stream leaves alone besides its records, lines and counters: memory, the functions'
configuration, waiting records. -/

namespace Sys2Proof.Machine

/-- From s to t memory, the functions' configuration and the waiting fault records are as they were, and the counters of the
core report nothing still. -/
structure Keeps (s t : State) (core : Nat) : Prop where
  mem : t.mem = s.mem
  vfs : t.vfs = s.vfs
  pending : t.pending = s.pending
  calm : s.Calm core → t.Calm core
theorem Keeps.refl (s : State) (core : Nat) : Keeps s s core := ⟨rfl, rfl, rfl, id⟩
theorem Keeps.ite {s t u : State} {core : Nat} {p : Prop} [Decidable p] (h : Keeps s t core) (k : Keeps s u core) :
    Keeps s (if p then t else u) core := by
  split
  · exact h
  · exact k
theorem Keeps.trans {s t u : State} {core : Nat} (h : Keeps s t core) (k : Keeps t u core) : Keeps s u core :=
  ⟨k.mem.trans h.mem, k.vfs.trans h.vfs, k.pending.trans h.pending, fun x => k.calm (h.calm x)⟩
theorem Keeps.quiet {s t : State} {core : Nat} (h : Keeps s t core) (q : s.Quiet) : t.Quiet := by
  unfold State.Quiet at *
  rwa [h.pending, h.vfs]
/-- A fold of steps that each keep. -/
theorem Keeps.foldl {α : Type} {core : Nat} (f : State → α → State) (hf : ∀ s a, s.Quiet → s.Calm core → Keeps s (f s a) core)
    (l : List α) (s : State) (q : s.Quiet) (c : s.Calm core) : Keeps s (l.foldl f s) core := by
  induction l generalizing s with
  | nil => exact Keeps.refl s core
  | cons a r ih =>
    have h := hf s a q c
    exact h.trans (ih _ (h.quiet q) (h.calm c))

theorem count_keeps (s : State) (core ev n vf : Nat) (mode : Bool) (h : s.Calm core) :
    Keeps s (s.count core ev n vf mode) core := by
  have k := count_calm s core ev n vf mode h
  exact ⟨k.mem, k.vfs, k.pendingRecords, k.calm⟩
theorem settledWords_keeps (s : State) (l : List Nat) (core : Nat) : Keeps s (s.settledWords l) core := by
  unfold State.settledWords
  split <;> exact ⟨rfl, rfl, rfl, id⟩
theorem noteWord_keeps (s : State) (w : Who) (k : Kind) (die : Nat → Nat) (word core : Nat) :
    Keeps s (State.noteWord w k die s word) core := by
  have put : ∀ (t : State) (r : WordRec), Keeps t { t with recs := alPut t.recs word r } core :=
    fun t r => ⟨rfl, rfl, rfl, id⟩
  have mark : ∀ (t : State) (r : WordRec) (m : Mark),
      Keeps t { t with recs := alPut t.recs word r, marks := alPut t.marks word m } core :=
    fun t r m => ⟨rfl, rfl, rfl, id⟩
  have done : Keeps s (s.replaced word s.tick) core := ⟨rfl, rfl, rfl, id⟩
  cases k
  · exact put ..
  · exact (settledWords_keeps ..).trans (mark ..)
  · exact done.trans (mark ..)
  · exact done.trans (put ..)
theorem noteWords_keeps (s : State) (w : Who) (k : Kind) (l : List Nat) (die : Nat → Nat) (core : Nat) :
    Keeps s (s.noteWords w k l die) core := by
  have step : ∀ (l : List Nat) (t : State), Keeps t (l.foldl (State.noteWord w k die) t) core := by
    intro l
    induction l with
    | nil => exact fun t => Keeps.refl t core
    | cons a r ih => exact fun t => (noteWord_keeps t w k die a core).trans (ih _)
  exact Keeps.trans (t := s.tock) ⟨rfl, rfl, rfl, id⟩ (step l s.tock)
theorem codeWrite_keeps (s : State) (key n : Nat) (leaf : Option Nat) (e : Option Entry) (core : Nat) :
    Keeps s (s.codeWrite key n leaf e) core := by
  have step : ∀ (l : List Nat) (t : State), Keeps t (l.foldl (State.codeLine key n e) t) core := by
    intro l
    induction l with
    | nil => exact fun t => Keeps.refl t core
    | cons a r ih =>
      intro t
      have h : Keeps t (State.codeLine key n e t a) core := ⟨rfl, rfl, rfl, id⟩
      exact h.trans (ih _)
  unfold State.codeWrite
  split
  · split
    · exact step _ s
    · exact Keeps.refl s core
  · exact Keeps.refl s core
theorem noteSpot_keeps (s : State) (w : Who) (k : Kind) (p : Spot) (n core : Nat) : Keeps s (s.noteSpot w k p n) core := by
  unfold State.noteSpot
  split
  · exact Keeps.refl s core
  · rename_i key home tracked leaf
    have h : Keeps s (if tracked then s.noteWords w k (wordsOf key n) (s.dieAt (.mem key home tracked leaf)) else s.tock) core := by
      split
      · exact noteWords_keeps ..
      · exact ⟨rfl, rfl, rfl, id⟩
    dsimp only
    split
    · exact h
    · exact h.trans (codeWrite_keeps ..)
theorem vf_migth {s : State} (q : s.Quiet) (n : Nat) : (s.vf n).migth = 0 := by
  unfold State.vf
  have key : ∀ (l : List (Nat × Vf)), (∀ v ∈ l, v.2.migth = 0) → ((alGet l n).getD Vf.fresh).migth = 0 := by
    intro l
    induction l with
    | nil => intro _; rfl
    | cons x r ih =>
      intro h
      obtain ⟨k, v⟩ := x
      simp only [alGet]
      split
      · exact h (k, v) (by simp)
      · exact ih fun y hy => h y (by simp [hy])
  exact key _ q.2
theorem countPage_keeps (s : State) (vf pa core : Nat) (q : s.Quiet) : Keeps s (s.countPage vf pa) core := by
  unfold State.countPage
  dsimp only
  rw [vf_migth q]
  rw [if_neg (by simp)]
  exact ⟨rfl, rfl, rfl, id⟩
theorem pageLine_keeps (s : State) (l : Line) (core : Nat) (q : s.Quiet) : Keeps s (s.pageLine l) core := by
  unfold State.pageLine
  split
  · exact countPage_keeps _ _ _ _ q
  · exact Keeps.refl ..
/-- A change of what the slices hold. -/
theorem slices_keeps (s : State) (l : List Line) (core : Nat) : Keeps s { s with slices := l } core := ⟨rfl, rfl, rfl, id⟩
theorem putSlice_keeps (s : State) (l : Line) (core : Nat) (q : s.Quiet) : Keeps s (s.putSlice l) core := by
  have h := fun ls => slices_keeps s ls core
  have k := fun ls o => (h ls).trans (pageLine_keeps _ o core ((h ls).quiet q))
  unfold State.putSlice
  dsimp only
  split
  · exact h _
  · exact .ite (h _) (k _ _)
theorem sliceRead_keeps (s : State) (l : Line) (core : Nat) (q : s.Quiet) : Keeps s (s.sliceRead l).1 core := by
  have h : ∀ x, Keeps s ((s.putSlice x).pageLine l) core := fun x =>
    (putSlice_keeps s x core q).trans (pageLine_keeps _ l core ((putSlice_keeps s x core q).quiet q))
  unfold State.sliceRead
  dsimp only
  rw [apply_ite Prod.fst]
  exact .ite (Keeps.refl ..) (h _)
theorem sliceWrite_keeps (s : State) (l : Line) (core : Nat) (q : s.Quiet) : Keeps s (s.sliceWrite l) core := by
  unfold State.sliceWrite
  split <;> exact putSlice_keeps _ _ _ q
theorem writeBack_keeps (s : State) (l : Line) (core : Nat) (q : s.Quiet) : Keeps s (s.writeBack l) core := by
  unfold State.writeBack
  split
  · exact Keeps.refl ..
  · exact sliceWrite_keeps _ _ _ q
theorem sliceStore_keeps (s : State) (l : Line) (part : BitVec 16) (core : Nat) (q : s.Quiet) : Keeps s (s.sliceStore l part) core := by
  have h : Keeps s (if part == 0 then s else (s.sliceRead { l with valid := part }).1) core :=
    .ite (Keeps.refl ..) (sliceRead_keeps _ _ _ q)
  exact h.trans (sliceWrite_keeps _ _ _ (h.quiet q))
theorem sliceUse_keeps (s : State) (u : Use) (l : Line) (core : Nat) (q : s.Quiet) : Keeps s (s.sliceUse u l).1 core := by
  cases u
  · exact sliceRead_keeps _ _ _ q
  · exact sliceStore_keeps _ _ _ _ q
  · exact (sliceRead_keeps _ _ _ q).trans (sliceWrite_keeps _ _ _ ((sliceRead_keeps _ _ core q).quiet q))
theorem sliceTurn_keeps (s : State) (g : Group) (mode : Bool) (u : Use) (l : Line) (q : s.Quiet) (c : s.Calm g.core) :
    Keeps s (s.sliceTurn g mode u l) g.core := by
  have h := sliceUse_keeps s u l g.core q
  have n : ∀ {ev : Nat}, Keeps s ((s.sliceUse u l).1.count g.core ev 1 g.vf mode) g.core :=
    h.trans (count_keeps _ _ _ _ _ _ (h.calm c))
  unfold State.sliceTurn
  exact .ite n (.ite n h)
/-- A change of the lines that a core holds. -/
theorem coreLines_keeps (s : State) (core : Nat) (l : List Line) : Keeps s (s.updCore core fun c => { c with lines := l }) core := by
  refine ⟨rfl, rfl, rfl, fun h i => ?_⟩
  rw [core_updCore, if_pos rfl]
  exact h i
theorem putLine_keeps (s : State) (core cap : Nat) (st : Bool) (l : Line) (q : s.Quiet) (c : s.Calm core) :
    Keeps s (s.putLine core cap st l) core := by
  have h := fun ls => coreLines_keeps s core ls
  exact (h _).trans (Keeps.foldl _ (fun t a qt _ => writeBack_keeps t a core qt) _ _ ((h _).quiet q) ((h _).calm c))
theorem cacheLoad_keeps (s : State) (g : Group) (mode : Bool) (leaf : Nat) (l : Line) (q : s.Quiet) (c : s.Calm g.core) :
    Keeps s (s.cacheLoad g mode leaf l) g.core := by
  have h1 := count_keeps s g.core 7 1 g.vf mode c
  have h2 : ∀ x, Keeps s ((s.count g.core 7 1 g.vf mode).sliceTurn g mode .read x) g.core :=
    fun x => h1.trans (sliceTurn_keeps _ g mode .read x (h1.quiet q) (h1.calm c))
  unfold State.cacheLoad
  exact .ite (Keeps.refl ..) (.ite (h2 _) ((h2 _).trans (putLine_keeps _ _ _ _ _ ((h2 _).quiet q) ((h2 _).calm c))))
theorem cacheStore_keeps (s : State) (g : Group) (mode : Bool) (part : BitVec 16) (leaf : Nat) (l : Line) (q : s.Quiet)
    (c : s.Calm g.core) : Keeps s (s.cacheStore g mode part leaf l) g.core := by
  have h0 : Keeps s (if part == 0 then s.storeMiss g mode leaf l else s.cacheLoad g mode leaf { l with valid := part }) g.core :=
    .ite (.ite (Keeps.refl ..) (count_keeps _ _ _ _ _ _ c)) (cacheLoad_keeps s g mode leaf _ q c)
  unfold State.cacheStore
  dsimp only
  generalize (if part == 0 then s.storeMiss g mode leaf l else s.cacheLoad g mode leaf { l with valid := part }) = t at h0 ⊢
  exact .ite (h0.trans (sliceTurn_keeps _ _ _ _ _ (h0.quiet q) (h0.calm c)))
    (h0.trans (putLine_keeps _ _ _ _ _ (h0.quiet q) (h0.calm c)))
theorem lines_keeps (s : State) (g : Group) (c : Ctx) (p : Spot) (n : Nat) (st : Bool) (q : s.Quiet) (h : s.Calm g.core) :
    Keeps s (s.lines g c p n st) g.core := by
  unfold State.lines
  split
  · refine Keeps.foldl _ ?_ _ s q h
    intro t a qt ct
    dsimp only
    split
    · exact cacheStore_keeps _ _ _ _ _ _ qt ct
    · exact cacheLoad_keeps _ _ _ _ _ qt ct
  · exact Keeps.refl ..
theorem updCtx_keeps (s : State) (a n : Nat) (f : Ctx → Ctx) (core : Nat) : Keeps s (s.updCtx a n f) core := ⟨rfl, rfl, rfl, id⟩
theorem keep_keeps (s : State) (vf a e : Nat) (b : Bool) (core : Nat) : Keeps s (s.keep vf a e b) core := by
  unfold State.keep
  dsimp only
  split
  · exact Keeps.refl ..
  · exact ⟨rfl, rfl, rfl, id⟩
theorem walked_keeps (s : State) (g : Group) (c : Ctx) (ptr : Nat) (h : s.Calm g.core) : Keeps s (s.walked g c ptr) g.core := by
  unfold State.walked
  split
  · split
    · exact Keeps.refl ..
    · exact (count_keeps _ _ _ _ _ _ h).trans (keep_keeps ..)
  · exact Keeps.refl ..
theorem keepEntry_keeps (s : State) (g : Group) (c : Ctx) (ea : Word) (core : Nat) : Keeps s (s.keepEntry g c ea) core := by
  unfold State.keepEntry
  split
  · exact Keeps.refl ..
  · exact updCtx_keeps ..
/-- What an access leaves kept touches no memory and no function's configuration (R214, R215). -/
theorem tried_keeps (s : State) (g : Group) (c : Ctx) (ea : Word) (n align : Nat) (k : Right) (h : s.Calm g.core) :
    Keeps s (s.tried g c ea n align k) g.core := by
  have h1 := keepEntry_keeps s g c ea g.core
  unfold State.tried
  split
  · exact Keeps.refl ..
  · dsimp only
    split
    · exact h1.trans (walked_keeps _ _ _ _ (h1.calm h))
    · exact h1
theorem touchEa_keeps (s : State) (g : Group) (ea : Word) (core : Nat) : Keeps s (s.touchEa g ea) core := by
  unfold State.touchEa State.touch
  split
  · exact Keeps.refl ..
  · split
    · exact Keeps.refl ..
    · exact ⟨rfl, rfl, rfl, id⟩
theorem noteEarly_keeps (s : State) (gid num var n tick core : Nat) : Keeps s (s.noteEarly gid num var n tick) core := by
  unfold State.noteEarly State.noteEarlyAt
  split
  · exact Keeps.refl ..
  · exact updCtx_keeps ..
theorem tailRead_keeps (s : State) (g : Group) (c : Ctx) (key n core : Nat) : Keeps s (s.tailRead g c key n) core := by
  unfold State.tailRead
  split
  · exact updCtx_keeps ..
  · exact Keeps.refl ..
/-- Without unordered stores of the other stream a local read reads memory. -/
theorem readLocal_ordered (s : State) (g : Group) (c : Ctx) (b : Bool) (key n : Nat) (h : c.loose = []) :
    readLocal s g c b key n = (s.rd key n, s) := by
  simp [readLocal, h]
/-- A plain load of words without earlier values (R302) gives what it finds. -/
theorem plainRead_settled (s : State) (gid num key n v : Nat) (h : ∀ w ∈ wordsOf key n, alGet s.olds w = none) :
    s.plainRead gid num key n v = (v, s.tick, s) := by
  unfold State.plainRead State.oldUnits
  split
  · rfl
  · rw [List.filter_eq_nil_iff.2 fun w hw => by simp [h w hw]]
    rfl
theorem plainUnit_keeps (gid num key n : Nat) (r : Nat × Nat × State) (words : List Nat) (core : Nat) :
    Keeps r.2.2 (State.plainUnit gid num key n r words).2.2 core := by
  have sees : ∀ (k : Nat) (l : List (Nat × Nat × BitVec 32)) (q : Nat × Nat × State), Keeps r.2.2 q.2.2 core →
      Keeps r.2.2 (l.foldl (fun (r : Nat × Nat × State) (x : Nat × Nat × BitVec 32) =>
        let s2 := r.2.2.updCtx gid num fun y => { y with saw := alPut y.saw x.1 (x.2.1 - 1) }
        if k < x.2.1 then (r.1, r.2.1, s2) else (withWord key n r.1 x.1 x.2.2, min r.2.1 (x.2.1 - 1), s2)) q).2.2 core := by
    intro k l
    induction l with
    | nil => exact fun _ h => h
    | cons x t ih =>
      intro q h
      refine ih _ ?_
      dsimp only
      split <;> exact h.trans (updCtx_keeps ..)
  unfold State.plainUnit
  dsimp only
  split
  · exact Keeps.refl ..
  · refine sees _ _ _ ?_
    split
    · exact Keeps.refl ..
    · exact ⟨rfl, rfl, rfl, id⟩
/-- A plain load leaves memory, the functions and the counters alone, whatever value it takes. -/
theorem plainRead_keeps (s : State) (gid num key n v core : Nat) : Keeps s (s.plainRead gid num key n v).2.2 core := by
  unfold State.plainRead
  split
  · exact Keeps.refl ..
  · have h : ∀ (l : List (List Nat)) (r : Nat × Nat × State), Keeps r.2.2 (l.foldl (State.plainUnit gid num key n) r).2.2 core := by
      intro l
      induction l with
      | nil => exact fun r => Keeps.refl ..
      | cons a k ih => exact fun r => (plainUnit_keeps gid num key n r a core).trans (ih _)
    exact h _ (v, s.tick, s)
/-- The bytes of a number replaced one by one. -/
theorem replace_bytes (v x : Nat) (hv : v < 4294967296) (hx : x < 4294967296) :
    let v1 := v - v % 256 + x % 256
    let v2 := v1 - v1 / 256 % 256 * 256 + x / 256 % 256 * 256
    let v3 := v2 - v2 / 65536 % 256 * 65536 + x / 65536 % 256 * 65536
    v3 - v3 / 16777216 % 256 * 16777216 + x / 16777216 % 256 * 16777216 = x := by
  intro v1 v2 v3
  omega
/-- A whole word replaced is the new word (R302). -/
theorem withWord_whole (key v : Nat) (x : BitVec 32) (hk : key % 4 = 0) (hv : v < 2 ^ 32) :
    withWord key 4 v (key / 4) x = x.toNat := by
  have hx : x.toNat < 4294967296 := x.isLt
  have hv : v < 4294967296 := hv
  obtain ⟨q, rfl⟩ : ∃ q, key = 4 * q := ⟨key / 4, by omega⟩
  have e0 : 4 * q / 4 = q := by omega
  have h : ∀ b, b < 4 → ∀ v : Nat, (if (decide (4 * q ≤ 4 * q + b) && decide (4 * q + b < 4 * q + 4)) = true then
      v - v / 2 ^ (8 * (4 * q + b - 4 * q)) % 256 * 2 ^ (8 * (4 * q + b - 4 * q)) +
        x.toNat / 2 ^ (8 * b) % 256 * 2 ^ (8 * (4 * q + b - 4 * q)) else v) =
      v - v / 2 ^ (8 * b) % 256 * 2 ^ (8 * b) + x.toNat / 2 ^ (8 * b) % 256 * 2 ^ (8 * b) := by
    intro b hb v
    rw [if_pos (by simp; omega), Nat.add_sub_cancel_left]
  unfold withWord
  rw [e0]
  simp only [show List.range 4 = [0, 1, 2, 3] from rfl, List.foldl_cons, List.foldl_nil]
  rw [h 0 (by omega), h 1 (by omega), h 2 (by omega), h 3 (by omega)]
  have := replace_bytes v x.toNat hv hx
  simpa using this
theorem rd_lt (s : State) (key n : Nat) : s.rd key n < 2 ^ (8 * n) := by
  have h : ∀ (n k : Nat), natOfBytes (readBytes s.mem k n) < 2 ^ (8 * n) := by
    intro n
    induction n with
    | zero => intro k; simp [natOfBytes, readBytes]
    | succ m ih =>
      intro k
      have h1 := (readByte s.mem k).isLt
      have h2 := ih (k + 1)
      rw [readBytes, natOfBytes, Nat.mul_add, Nat.pow_add]
      omega
  exact h n key
/-- The earlier values that loads may return (R302), and what contexts have seen of them, are as they were. -/
structure SameReads (s t : State) : Prop where
  olds : t.olds = s.olds
  seen : ∀ a n, (t.cx a n).map (fun c => (c.acqAt, c.saw)) = (s.cx a n).map fun c => (c.acqAt, c.saw)
theorem SameReads.refl (s : State) : SameReads s s := ⟨rfl, fun _ _ => rfl⟩
theorem SameReads.trans {s t u : State} (h : SameReads s t) (k : SameReads t u) : SameReads s u :=
  ⟨k.olds.trans h.olds, fun a n => (k.seen a n).trans (h.seen a n)⟩
theorem SameReads.ite {s t u : State} {p : Prop} [Decidable p] (h : SameReads s t) (k : SameReads s u) :
    SameReads s (if p then t else u) := by
  split
  · exact h
  · exact k
theorem SameReads.foldl {α : Type} {core : Nat} (f : State → α → State)
    (hf : ∀ s a, s.Quiet → s.Calm core → SameReads s (f s a) ∧ Keeps s (f s a) core) (l : List α) (s : State) (q : s.Quiet)
    (c : s.Calm core) : SameReads s (l.foldl f s) := by
  induction l generalizing s with
  | nil => exact .refl s
  | cons a r ih =>
    have h := hf s a q c
    exact h.1.trans (ih _ (h.2.quiet q) (h.2.calm c))
theorem CountersOnly.reads {s t : State} {core : Nat} (h : CountersOnly s t core) : SameReads s t :=
  ⟨by rw [← h.rest], fun a n => by rw [h.cx]⟩
theorem count_reads (s : State) (core ev n vf : Nat) (mode : Bool) (h : s.Calm core) :
    SameReads s (s.count core ev n vf mode) := (count_calm s core ev n vf mode h).reads
theorem noteSpot_reads (s : State) (w : Who) (p : Spot) (n : Nat) : SameReads s (s.noteSpot w .read p n) := by
  have step : ∀ (die : Nat → Nat) (l : List Nat) (t : State), SameReads t (l.foldl (State.noteWord w .read die) t) := by
    intro die l
    induction l with
    | nil => exact fun t => .refl t
    | cons a r ih =>
      intro t
      have h : SameReads t (State.noteWord w .read die t a) := ⟨rfl, fun _ _ => rfl⟩
      exact h.trans (ih _)
  unfold State.noteSpot
  split
  · exact .refl s
  · split
    · exact .trans (t := s.tock) ⟨rfl, fun _ _ => rfl⟩ (step _ _ _)
    · exact ⟨rfl, fun _ _ => rfl⟩
/-- What touches neither the earlier values nor any context. -/
theorem SameReads.of {s t : State} (h1 : t.olds = s.olds) (h2 : t.groups = s.groups) : SameReads s t :=
  ⟨h1, fun a n => by unfold State.cx State.group?; rw [h2]⟩
theorem pageLine_same (s : State) (l : Line) : (s.pageLine l).olds = s.olds ∧ (s.pageLine l).groups = s.groups := by
  unfold State.pageLine State.countPage
  dsimp only
  split
  · split
    · split <;> exact ⟨rfl, rfl⟩
    · exact ⟨rfl, rfl⟩
  · exact ⟨rfl, rfl⟩
theorem pageLine_reads (s : State) (l : Line) : SameReads s (s.pageLine l) := .of (pageLine_same s l).1 (pageLine_same s l).2
theorem putSlice_reads (s : State) (l : Line) : SameReads s (s.putSlice l) := by
  have h : ∀ x, SameReads s { s with slices := x } := fun _ => .of rfl rfl
  unfold State.putSlice
  dsimp only
  split
  · exact h _
  · exact .ite (h _) ((h _).trans (pageLine_reads ..))
theorem sliceRead_reads (s : State) (l : Line) : SameReads s (s.sliceRead l).1 := by
  unfold State.sliceRead
  dsimp only
  rw [apply_ite Prod.fst]
  exact .ite (.refl s) ((putSlice_reads ..).trans (pageLine_reads ..))
theorem sliceWrite_reads (s : State) (l : Line) : SameReads s (s.sliceWrite l) := by
  unfold State.sliceWrite
  split <;> exact putSlice_reads ..
theorem writeBack_reads (s : State) (l : Line) : SameReads s (s.writeBack l) := by
  unfold State.writeBack
  split
  · exact .refl s
  · exact sliceWrite_reads ..
theorem sliceTurn_reads (s : State) (g : Group) (mode : Bool) (l : Line) (q : s.Quiet) (c : s.Calm g.core) :
    SameReads s (s.sliceTurn g mode .read l) := by
  have h := sliceRead_reads s l
  have k := (sliceRead_keeps s l g.core q).calm c
  have n : ∀ ev, SameReads s ((s.sliceRead l).1.count g.core ev 1 g.vf mode) := fun ev => h.trans (count_reads _ _ _ _ _ _ k)
  unfold State.sliceTurn
  exact .ite (n _) (.ite (n _) h)
theorem putLine_reads (s : State) (core cap : Nat) (st : Bool) (l : Line) (q : s.Quiet) (c : s.Calm core) :
    SameReads s (s.putLine core cap st l) := by
  have h : ∀ ls, SameReads s (s.updCore core fun c => { c with lines := ls }) := fun _ => .of rfl rfl
  have k := fun ls => coreLines_keeps s core ls
  exact (h _).trans (SameReads.foldl _ (fun t a qt _ => ⟨writeBack_reads t a, writeBack_keeps t a core qt⟩) _ _ ((k _).quiet q)
    ((k _).calm c))
theorem cacheLoad_reads (s : State) (g : Group) (mode : Bool) (leaf : Nat) (l : Line) (q : s.Quiet) (c : s.Calm g.core) :
    SameReads s (s.cacheLoad g mode leaf l) := by
  have k1 := count_keeps s g.core 7 1 g.vf mode c
  have h2 : ∀ x, SameReads s ((s.count g.core 7 1 g.vf mode).sliceTurn g mode .read x) := fun x =>
    (count_reads s g.core 7 1 g.vf mode c).trans (sliceTurn_reads _ g mode x (k1.quiet q) (k1.calm c))
  have k2 : ∀ x, Keeps s ((s.count g.core 7 1 g.vf mode).sliceTurn g mode .read x) g.core :=
    fun x => k1.trans (sliceTurn_keeps _ g mode .read x (k1.quiet q) (k1.calm c))
  unfold State.cacheLoad
  exact .ite (.refl s) (.ite (h2 _) ((h2 _).trans (putLine_reads _ _ _ _ _ ((k2 _).quiet q) ((k2 _).calm c))))
theorem lines_reads (s : State) (g : Group) (c : Ctx) (p : Spot) (n : Nat) (q : s.Quiet) (h : s.Calm g.core) :
    SameReads s (s.lines g c p n false) := by
  unfold State.lines
  split
  · refine SameReads.foldl _ ?_ _ s q h
    intro t a qt ct
    exact ⟨cacheLoad_reads _ _ _ _ _ qt ct, cacheLoad_keeps _ _ _ _ _ qt ct⟩
  · exact .refl s
theorem keepEntry_reads (s : State) (g : Group) (c : Ctx) (ea : Word) : SameReads s (s.keepEntry g c ea) := by
  unfold State.keepEntry
  split
  · exact .refl s
  · refine ⟨rfl, fun a n => ?_⟩
    rw [cx_updCtx _ _ _ _ _ _ (by intro x; unfold Ctx.keepBounds; split <;> rfl)]
    cases s.cx a n with
    | none => rfl
    | some x =>
      simp only [Option.map_some]
      split
      · unfold Ctx.keepBounds; split <;> rfl
      · rfl
theorem keep_reads (s : State) (vf a e : Nat) (b : Bool) : SameReads s (s.keep vf a e b) := by
  unfold State.keep
  dsimp only
  split
  · exact .refl s
  · exact .of rfl rfl
theorem walked_reads (s : State) (g : Group) (c : Ctx) (ptr : Nat) (h : s.Calm g.core) : SameReads s (s.walked g c ptr) := by
  unfold State.walked
  split
  · split
    · exact .refl s
    · exact (count_reads _ _ _ _ _ _ h).trans (keep_reads ..)
  · exact .refl s
theorem tried_reads (s : State) (g : Group) (c : Ctx) (ea : Word) (n align : Nat) (k : Right) (h : s.Calm g.core) :
    SameReads s (s.tried g c ea n align k) := by
  have h1 := keepEntry_reads s g c ea
  unfold State.tried
  split
  · exact .refl s
  · dsimp only
    split
    · exact h1.trans (walked_reads _ _ _ _ ((keepEntry_keeps s g c ea g.core).calm h))
    · exact h1
theorem touchEa_reads (s : State) (g : Group) (ea : Word) : SameReads s (s.touchEa g ea) := by
  unfold State.touchEa State.touch
  split
  · exact .refl s
  · split
    · exact .refl s
    · exact .of rfl rfl
theorem rd_of_mem {s t : State} (h : t.mem = s.mem) (key n : Nat) : t.rd key n = s.rd key n := by
  simp only [State.rd, h]

/-! ### Stores -/

/-- Reading a byte after bytes have been written to memory in its canonical form. -/
theorem readByte_writeBytes (b : List Byte) (m : List Host.Cell) (k a : Nat) (h : Memory.wf m = true) :
    readByte (writeBytes m k b) a = if k ≤ a ∧ a < k + b.length then b.getD (a - k) 0 else readByte m a := by
  induction b generalizing m k with
  | nil => rw [if_neg (by simp)]; rfl
  | cons x r ih =>
    rw [writeBytes, ih _ _ (writeByte_wf k x h), readByte_writeByte_wf h]
    by_cases e : a = k
    · subst e; simp
    · rw [if_neg e]
      by_cases e1 : k + 1 ≤ a ∧ a < k + 1 + r.length
      · rw [if_pos e1, if_pos (by simp; omega)]
        obtain ⟨j, rfl⟩ : ∃ j, a = k + 1 + j := ⟨a - (k + 1), by omega⟩
        rw [show k + 1 + j - (k + 1) = j by omega, show k + 1 + j - k = j + 1 by omega, List.getD_cons_succ]
      · rw [if_neg e1, if_neg (by simp; omega)]
theorem overCode_none (s : State) (key : Nat) (b : List Byte) (h : s.code = []) : s.overCode key b = s := by
  simp [State.overCode, h]
/-- A store that meets no queue's head writes its bytes, and marks the contexts off their cores whose EPC it writes (R331); nothing else. -/
theorem store_plain (s : State) (key : Nat) (b : List Byte) (q : s.Quiet) (h : s.NoHead key b.length) :
    s.store key b =
      let t := (s.overCode key b).wrBytes key b
      if key / 2 ^ 60 = 0 then { t with groups := t.groups.map fun g => g.storedTo key b.length } else t := by
  have hv : (s.overCode key b).vfs = s.vfs ∧ (s.overCode key b).pending = s.pending := by
    unfold State.overCode
    split <;> exact ⟨rfl, rfl⟩
  unfold State.store State.hook
  have h1 : ∀ (l : List (Nat × Vf)) (t : State), (∀ v ∈ l, overlaps key b.length (hbm v.2.fq) 4 = false) →
      l.foldl (State.hookFq s key b.length) t = t := by
    intro l
    induction l with
    | nil => intro _ _; rfl
    | cons a r ih =>
      intro t hl
      rw [List.foldl_cons, State.hookFq]
      dsimp only
      rw [hl a (by simp)]
      simp only [Bool.and_false, Bool.false_and, Bool.false_eq_true, if_false]
      exact ih t fun v hv => hl v (by simp [hv])
  have h2 : ∀ (l : List (Nat × Vf)) (t : State), (∀ v ∈ l, overlaps key b.length (hbm v.2.nq) 4 = false) →
      l.foldl (State.hookNq key b.length) t = t := by
    intro l
    induction l with
    | nil => intro _ _; rfl
    | cons a r ih =>
      intro t hl
      rw [List.foldl_cons, State.hookNq]
      dsimp only
      rw [hl a (by simp)]
      simp only [Bool.and_false, Bool.false_eq_true, if_false]
      exact ih t fun v hv => hl v (by simp [hv])
  have e1 := h1 ((s.overCode key b).wrBytes key b).vfs ((s.overCode key b).wrBytes key b) fun v hm => (h v (hv.1 ▸ hm)).1
  have e2 := h2 ((s.overCode key b).wrBytes key b).vfs ((s.overCode key b).wrBytes key b) fun v hm => (h v (hv.1 ▸ hm)).2
  dsimp only
  rw [e1, e2]
  have : ((s.overCode key b).wrBytes key b).pending = [] := hv.2.trans q.1
  have e3 : ((s.overCode key b).wrBytes key b).drainPending = (s.overCode key b).wrBytes key b := by
    unfold State.drainPending
    rw [this]
  rw [e3]

end Sys2Proof.Machine
end

