-- ==== Sys2Proof/Laws/Elements.lean ====
section
/-! SUPPORT. Class E: what a form that is ready comes to, and the results of the element map as a list over positions. -/

namespace Sys2Proof.Machine

variable {i : Instr} {op : Nat} {e0 e : EArgs} {s : State} {g : Group} {c : Ctx} {sh : EShape}
  {sizes : Ctx → EArgs → Nat × Nat × Nat} {body : EShape → EArgs → State → Group → Ctx → Act}

/-- A form whose fields are legal here runs its body. -/
theorem vRun_ready (h : EReady g c op e0 sizes sh e) :
    (match eShape op with
     | none => Act.raise s 0x01
     | some sh =>
       let e := c.passArgs sh e0
       let (nd, na, nb) := sizes c e
       if c.rep.isSome && !eOk op e then .raise s 0x01
       else if !c.fmtsOk sh e then .raise s 0x01
       else if !regsOk g sh e nd na nb then .raise s 0x05
       else body sh e s g c) = body sh e s g c := by
  rw [h.shape]
  dsimp only
  rw [h.args]
  have h1 : (c.rep.isSome && !eOk op e) = false := by rcases h.pass with h | h <;> simp [h]
  rw [h1, h.fmts, h.regs]
  rfl
theorem vRun_done {t : State} (ha : s.Acts g c) (h : EReady g c op e0 sizes sh e) (hb : body sh e s g c = .done t) :
    vRun i op e0 s sizes body = .next (t.endsE g c (inRegion c.pcE i.size)) := by
  rw [vRun, inRegion_eq]
  exact runE_done ha ((vRun_ready h).trans hb)
theorem vRun_wait {t : State} {w : Wait} (ha : s.Acts g c) (h : EReady g c op e0 sizes sh e) (hb : body sh e s g c = .wait t w) :
    vRun i op e0 s sizes body = .next (t.waitsE g c w) := by
  rw [vRun]
  exact runE_wait ha ((vRun_ready h).trans hb)

theorem vRun_trap {cause : Nat} {tval : Option Word} (ha : s.Acts g c) (h : EReady g c op e0 sizes sh e)
    (hb : body sh e s g c = .trap s cause tval false) :
    vRun i op e0 s sizes body = .next (s.trapsE g c cause (tval.getD (firstParcel i))) := by
  have e := (vRun_ready (s := s) (body := body) h).trans hb
  simp only [vRun, runE, show s.here? = some (g, c) from ha]
  refine congrArg Host.Outcome.next ?_
  exact (congrArg (finishE i g c) e).trans rfl

/-- The inner map from position p on. -/
theorem mapElems_go (n wd : Nat) (gd : Guard) (f : Nat → Nat → Nat → Nat → Nat × Flags) (k p : Nat) (a b d : List Nat) :
    mapElems.go n wd gd f k p a b d =
      ((List.range k).map fun j => if gd.getLsbD ((p + j) * wd / 32) then
          some (if p + j < n then (f (p + j) (d.getD j 0) (a.getD j 0) (b.getD j 0)).1 else 0) else none,
       (List.range k).foldl (fun fl j => if gd.getLsbD ((p + j) * wd / 32) = true ∧ p + j < n then
          fl ||| (f (p + j) (d.getD j 0) (a.getD j 0) (b.getD j 0)).2 else fl) 0) := by
  induction k generalizing p a b d with
  | zero => rfl
  | succ k ih =>
    have tl : ∀ (l : List Nat) (j : Nat), l.tail.getD j 0 = l.getD (j + 1) 0 := by
      intro l j; cases l <;> rfl
    have hd : ∀ l : List Nat, l.headD 0 = l.getD 0 0 := by intro l; cases l <;> rfl
    have fold : ∀ (g : Nat → Option Flags) (l : List Nat) (x y : Flags),
        l.foldl (fun fl j => match g j with | some v => fl ||| v | none => fl) (x ||| y) =
          x ||| l.foldl (fun fl j => match g j with | some v => fl ||| v | none => fl) y := by
      intro g l
      induction l with
      | nil => intro _ _; rfl
      | cons q r ih =>
        intro x y
        simp only [List.foldl_cons]
        cases g q with
        | none => exact ih x y
        | some v => dsimp only; rw [BitVec.or_assoc, ih]
    have conv : ∀ (P : Nat → Prop) [DecidablePred P] (v : Nat → Flags) (l : List Nat) (x : Flags),
        l.foldl (fun fl j => if P j then fl ||| v j else fl) x = x ||| l.foldl (fun fl j => if P j then fl ||| v j else fl) 0 := by
      intro P _ v l x
      have e : (fun (fl : Flags) (j : Nat) => if P j then fl ||| v j else fl) =
          fun fl j => match (if P j then some (v j) else none) with | some w => fl ||| w | none => fl := by
        funext fl j; split <;> simp_all
      rw [e]
      have := fold (fun j => if P j then some (v j) else none) l x 0
      rwa [show x ||| (0 : Flags) = x from BitVec.or_zero] at this
    rw [mapElems.go, ih, List.range_succ_eq_map]
    simp only [List.map_cons, List.map_map, List.foldl_cons, List.foldl_map, Function.comp_def, Nat.add_zero, tl, hd,
      Nat.succ_eq_add_one, show ∀ j, p + 1 + j = p + (j + 1) from fun j => by omega, enabled]
    by_cases h1 : gd.getLsbD (p * wd / 32) = true
    · by_cases h2 : p < n
      · rw [if_neg (by simp [h1]), if_neg (by omega)]
        simp only [h1, h2, if_true, and_self]
        congr 1
        rw [conv _ _ _ (0 ||| _), show ∀ y : Flags, (0 : Flags) ||| y = y from fun y => BitVec.zero_or, BitVec.or_comm]
      · rw [if_neg (by simp [h1]), if_pos (by omega)]
        simp only [h1, h2, if_true, if_false, and_false]
    · simp [h1]
/-- The element map as a list over positions. -/
theorem mapElems_eq (n ws wd : Nat) (gd : Guard) (a b d : List Nat) (f : Nat → Nat → Nat → Nat → Nat × Flags) :
    mapElems n ws wd gd a b d f =
      elemResults wd n gd fun p => f p (d.getD p 0) (a.getD p 0) (b.getD p 0) := by
  unfold mapElems elemResults
  rw [mapElems_go]
  simp only [Nat.zero_add]

end Sys2Proof.Machine
end

