-- ==== Sys2Proof/Laws/PerInstr.lean ====
section
/-! SUPPORT. What holds of every instruction as syntax, one lemma for each constructor. Family Encode: an instruction encodes to
at most three parcels (R96). -/

namespace Sys2Proof.Laws.Encode

def Statement (i : Instr) : Prop := (encode i).length ≤ 3

theorem all (i : Instr) : Statement i := by
  unfold Statement encode
  split
  · simp only [Fields.parcels]
    split <;> simp
  · simp

theorem nop : ∀ x0, Statement (.nop x0) := fun _ => all _
theorem add : ∀ x0 x1 x2, Statement (.add x0 x1 x2) := fun _ _ _ => all _
theorem sub : ∀ x0 x1 x2, Statement (.sub x0 x1 x2) := fun _ _ _ => all _
theorem mul : ∀ x0 x1 x2, Statement (.mul x0 x1 x2) := fun _ _ _ => all _
theorem mulh : ∀ x0 x1 x2 x3, Statement (.mulh x0 x1 x2 x3) := fun _ _ _ _ => all _
theorem div : ∀ x0 x1 x2 x3, Statement (.div x0 x1 x2 x3) := fun _ _ _ _ => all _
theorem rem : ∀ x0 x1 x2 x3, Statement (.rem x0 x1 x2 x3) := fun _ _ _ _ => all _
theorem and : ∀ x0 x1 x2, Statement (.and x0 x1 x2) := fun _ _ _ => all _
theorem or : ∀ x0 x1 x2, Statement (.or x0 x1 x2) := fun _ _ _ => all _
theorem xor : ∀ x0 x1 x2, Statement (.xor x0 x1 x2) := fun _ _ _ => all _
theorem andn : ∀ x0 x1 x2, Statement (.andn x0 x1 x2) := fun _ _ _ => all _
theorem shl : ∀ x0 x1 x2, Statement (.shl x0 x1 x2) := fun _ _ _ => all _
theorem shr : ∀ x0 x1 x2, Statement (.shr x0 x1 x2) := fun _ _ _ => all _
theorem sra : ∀ x0 x1 x2, Statement (.sra x0 x1 x2) := fun _ _ _ => all _
theorem rot : ∀ x0 x1 x2, Statement (.rot x0 x1 x2) := fun _ _ _ => all _
theorem min : ∀ x0 x1 x2 x3, Statement (.min x0 x1 x2 x3) := fun _ _ _ _ => all _
theorem max : ∀ x0 x1 x2 x3, Statement (.max x0 x1 x2 x3) := fun _ _ _ _ => all _
theorem slt : ∀ x0 x1 x2 x3, Statement (.slt x0 x1 x2 x3) := fun _ _ _ _ => all _
theorem seq : ∀ x0 x1 x2, Statement (.seq x0 x1 x2) := fun _ _ _ => all _
theorem sel : ∀ x0 x1 x2, Statement (.sel x0 x1 x2) := fun _ _ _ => all _
theorem clz : ∀ x0 x1, Statement (.clz x0 x1) := fun _ _ => all _
theorem ctz : ∀ x0 x1, Statement (.ctz x0 x1) := fun _ _ => all _
theorem pop : ∀ x0 x1, Statement (.pop x0 x1) := fun _ _ => all _
theorem bfx : ∀ x0 x1 x2 x3, Statement (.bfx x0 x1 x2 x3) := fun _ _ _ _ => all _
theorem bfxImm : ∀ x0 x1 x2 x3 x4, Statement (.bfxImm x0 x1 x2 x3 x4) := fun _ _ _ _ _ => all _
theorem bfi : ∀ x0 x1 x2, Statement (.bfi x0 x1 x2) := fun _ _ _ => all _
theorem bfiImm : ∀ x0 x1 x2 x3, Statement (.bfiImm x0 x1 x2 x3) := fun _ _ _ _ => all _
theorem li : ∀ x0 x1 x2, Statement (.li x0 x1 x2) := fun _ _ _ => all _
theorem lia : ∀ x0 x1, Statement (.lia x0 x1) := fun _ _ => all _
theorem mac : ∀ x0 x1 x2, Statement (.mac x0 x1 x2) := fun _ _ _ => all _
theorem xmint : ∀ x0 x1 x2 x3, Statement (.xmint x0 x1 x2 x3) := fun _ _ _ _ => all _
theorem b : ∀ x0, Statement (.b x0) := fun _ => all _
theorem bc : ∀ x0 x1 x2 x3, Statement (.bc x0 x1 x2 x3) := fun _ _ _ _ => all _
theorem bz : ∀ x0 x1 x2, Statement (.bz x0 x1 x2) := fun _ _ _ => all _
theorem j : ∀ x0, Statement (.j x0) := fun _ => all _
theorem call : ∀ x0 x1, Statement (.call x0 x1) := fun _ _ => all _
theorem callLabel : ∀ x0 x1, Statement (.callLabel x0 x1) := fun _ _ => all _
theorem ret : ∀ x0, Statement (.ret x0) := fun _ => all _
theorem loop : ∀ x0 x1, Statement (.loop x0 x1) := fun _ _ => all _
theorem bqe : ∀ x0 x1 x2, Statement (.bqe x0 x1 x2) := fun _ _ _ => all _
theorem ld : ∀ x0 x1 x2 x3, Statement (.ld x0 x1 x2 x3) := fun _ _ _ _ => all _
theorem st : ∀ x0 x1 x2 x3, Statement (.st x0 x1 x2 x3) := fun _ _ _ _ => all _
theorem lds : ∀ x0 x1 x2 x3, Statement (.lds x0 x1 x2 x3) := fun _ _ _ _ => all _
theorem sts : ∀ x0 x1 x2 x3, Statement (.sts x0 x1 x2 x3) := fun _ _ _ _ => all _
theorem ldq : ∀ x0 x1 x2, Statement (.ldq x0 x1 x2) := fun _ _ _ => all _
theorem stq : ∀ x0 x1 x2, Statement (.stq x0 x1 x2) := fun _ _ _ => all _
theorem ldsq : ∀ x0 x1 x2, Statement (.ldsq x0 x1 x2) := fun _ _ _ => all _
theorem stsq : ∀ x0 x1 x2, Statement (.stsq x0 x1 x2) := fun _ _ _ => all _
theorem pfx : ∀ x0 x1 x2, Statement (.pfx x0 x1 x2) := fun _ _ _ => all _
theorem pushq : ∀ x0, Statement (.pushq x0) := fun _ => all _
theorem popq : ∀ x0, Statement (.popq x0) := fun _ => all _
theorem qstat : ∀ x0 x1, Statement (.qstat x0 x1) := fun _ _ => all _
theorem cln : ∀ x0 x1, Statement (.cln x0 x1) := fun _ _ => all _
theorem inv : ∀ x0 x1, Statement (.inv x0 x1) := fun _ _ => all _
theorem vadd : ∀ x0, Statement (.vadd x0) := fun _ => all _
theorem vsub : ∀ x0, Statement (.vsub x0) := fun _ => all _
theorem vmul : ∀ x0, Statement (.vmul x0) := fun _ => all _
theorem vfma : ∀ x0, Statement (.vfma x0) := fun _ => all _
theorem vfms : ∀ x0, Statement (.vfms x0) := fun _ => all _
theorem vfnma : ∀ x0, Statement (.vfnma x0) := fun _ => all _
theorem vmin : ∀ x0, Statement (.vmin x0) := fun _ => all _
theorem vmax : ∀ x0, Statement (.vmax x0) := fun _ => all _
theorem vabs : ∀ x0, Statement (.vabs x0) := fun _ => all _
theorem vneg : ∀ x0, Statement (.vneg x0) := fun _ => all _
theorem vabd : ∀ x0, Statement (.vabd x0) := fun _ => all _
theorem vavg : ∀ x0, Statement (.vavg x0) := fun _ => all _
theorem vclamp : ∀ x0, Statement (.vclamp x0) := fun _ => all _
theorem vaddw : ∀ x0, Statement (.vaddw x0) := fun _ => all _
theorem vmulw : ∀ x0, Statement (.vmulw x0) := fun _ => all _
theorem vdot : ∀ x0, Statement (.vdot x0) := fun _ => all _
theorem vmulh : ∀ x0, Statement (.vmulh x0) := fun _ => all _
theorem vadds : ∀ x0, Statement (.vadds x0) := fun _ => all _
theorem vsubs : ∀ x0, Statement (.vsubs x0) := fun _ => all _
theorem vmac : ∀ x0, Statement (.vmac x0) := fun _ => all _
theorem vcopysign : ∀ x0, Statement (.vcopysign x0) := fun _ => all _
theorem vdiv : ∀ x0, Statement (.vdiv x0) := fun _ => all _
theorem vsqrt : ∀ x0, Statement (.vsqrt x0) := fun _ => all _
theorem vrcp : ∀ x0, Statement (.vrcp x0) := fun _ => all _
theorem vrsqrt : ∀ x0, Statement (.vrsqrt x0) := fun _ => all _
theorem vexp2 : ∀ x0, Statement (.vexp2 x0) := fun _ => all _
theorem vlog2 : ∀ x0, Statement (.vlog2 x0) := fun _ => all _
theorem vsinp : ∀ x0, Statement (.vsinp x0) := fun _ => all _
theorem vcosp : ∀ x0, Statement (.vcosp x0) := fun _ => all _
theorem vtanh : ∀ x0, Statement (.vtanh x0) := fun _ => all _
theorem vsigm : ∀ x0, Statement (.vsigm x0) := fun _ => all _
theorem vfloor : ∀ x0, Statement (.vfloor x0) := fun _ => all _
theorem vand : ∀ x0, Statement (.vand x0) := fun _ => all _
theorem vor : ∀ x0, Statement (.vor x0) := fun _ => all _
theorem vxor : ∀ x0, Statement (.vxor x0) := fun _ => all _
theorem vandn : ∀ x0, Statement (.vandn x0) := fun _ => all _
theorem vnot : ∀ x0, Statement (.vnot x0) := fun _ => all _
theorem vshl : ∀ x0, Statement (.vshl x0) := fun _ => all _
theorem vshr : ∀ x0, Statement (.vshr x0) := fun _ => all _
theorem vsra : ∀ x0, Statement (.vsra x0) := fun _ => all _
theorem vrot : ∀ x0, Statement (.vrot x0) := fun _ => all _
theorem vpop : ∀ x0, Statement (.vpop x0) := fun _ => all _
theorem vclz : ∀ x0, Statement (.vclz x0) := fun _ => all _
theorem vbsel : ∀ x0, Statement (.vbsel x0) := fun _ => all _
theorem vbfx : ∀ x0, Statement (.vbfx x0) := fun _ => all _
theorem vcmp : ∀ x0, Statement (.vcmp x0) := fun _ => all _
theorem vclass : ∀ x0, Statement (.vclass x0) := fun _ => all _
theorem gand : ∀ x0, Statement (.gand x0) := fun _ => all _
theorem gor : ∀ x0, Statement (.gor x0) := fun _ => all _
theorem gxor : ∀ x0, Statement (.gxor x0) := fun _ => all _
theorem gnot : ∀ x0, Statement (.gnot x0) := fun _ => all _
theorem gmov : ∀ x0, Statement (.gmov x0) := fun _ => all _
theorem gcnt : ∀ x0, Statement (.gcnt x0) := fun _ => all _
theorem gfirst : ∀ x0, Statement (.gfirst x0) := fun _ => all _
theorem gset : ∀ x0, Statement (.gset x0) := fun _ => all _
theorem vcvt : ∀ x0, Statement (.vcvt x0) := fun _ => all _
theorem vwiden : ∀ x0, Statement (.vwiden x0) := fun _ => all _
theorem vnarrow : ∀ x0, Statement (.vnarrow x0) := fun _ => all _
theorem vpack : ∀ x0, Statement (.vpack x0) := fun _ => all _
theorem vunpack : ∀ x0, Statement (.vunpack x0) := fun _ => all _
theorem vscale : ∀ x0, Statement (.vscale x0) := fun _ => all _
theorem vqnt : ∀ x0, Statement (.vqnt x0) := fun _ => all _
theorem fmtld : ∀ x0, Statement (.fmtld x0) := fun _ => all _
theorem vmov : ∀ x0, Statement (.vmov x0) := fun _ => all _
theorem vsplat : ∀ x0, Statement (.vsplat x0) := fun _ => all _
theorem vperm : ∀ x0, Statement (.vperm x0) := fun _ => all _
theorem vext : ∀ x0, Statement (.vext x0) := fun _ => all _
theorem vins : ∀ x0, Statement (.vins x0) := fun _ => all _
theorem vsel : ∀ x0, Statement (.vsel x0) := fun _ => all _
theorem vcompress : ∀ x0, Statement (.vcompress x0) := fun _ => all _
theorem vexpand : ∀ x0, Statement (.vexpand x0) := fun _ => all _
theorem vscan : ∀ x0, Statement (.vscan x0) := fun _ => all _
theorem vred : ∀ x0, Statement (.vred x0) := fun _ => all _
theorem vtopk : ∀ x0, Statement (.vtopk x0) := fun _ => all _
theorem vmint : ∀ x0, Statement (.vmint x0) := fun _ => all _
theorem vidx : ∀ x0, Statement (.vidx x0) := fun _ => all _
theorem vpush : ∀ x0, Statement (.vpush x0) := fun _ => all _
theorem vpull : ∀ x0, Statement (.vpull x0) := fun _ => all _
theorem kset : ∀ x0 x1 x2 x3, Statement (.kset x0 x1 x2 x3) := fun _ _ _ _ => all _
theorem kget : ∀ x0, Statement (.kget x0) := fun _ => all _
theorem vlds : ∀ x0, Statement (.vlds x0) := fun _ => all _
theorem vsts : ∀ x0, Statement (.vsts x0) := fun _ => all _
theorem vldsx : ∀ x0, Statement (.vldsx x0) := fun _ => all _
theorem vstsx : ∀ x0, Statement (.vstsx x0) := fun _ => all _
theorem rep : ∀ x0 x1 x2, Statement (.rep x0 x1 x2) := fun _ _ _ => all _
theorem zmov : ∀ x0, Statement (.zmov x0) := fun _ => all _
theorem zset : ∀ x0, Statement (.zset x0) := fun _ => all _
theorem vtex : ∀ x0, Statement (.vtex x0) := fun _ => all _
theorem vwind : ∀ x0, Statement (.vwind x0) := fun _ => all _
theorem emsg : ∀ x0 x1 x2, Statement (.emsg x0 x1 x2) := fun _ _ _ => all _
theorem jtest : ∀ x0 x1, Statement (.jtest x0 x1) := fun _ _ => all _
theorem jwait : ∀ x0 x1, Statement (.jwait x0 x1) := fun _ _ => all _
theorem amo : ∀ x0 x1 x2 x3 x4, Statement (.amo x0 x1 x2 x3 x4) := fun _ _ _ _ _ => all _
theorem amoOrdered : ∀ x0 x1 x2 x3 x4 x5 x6, Statement (.amoOrdered x0 x1 x2 x3 x4 x5 x6) := fun _ _ _ _ _ _ _ => all _
theorem cas : ∀ x0 x1 x2 x3, Statement (.cas x0 x1 x2 x3) := fun _ _ _ _ => all _
theorem casOrdered : ∀ x0 x1 x2 x3 x4 x5, Statement (.casOrdered x0 x1 x2 x3 x4 x5) := fun _ _ _ _ _ _ => all _
theorem wacc : ∀ x0 x1 x2, Statement (.wacc x0 x1 x2) := fun _ _ _ => all _
theorem waccImm : ∀ x0 x1 x2, Statement (.waccImm x0 x1 x2) := fun _ _ _ => all _
theorem ldacq : ∀ x0 x1 x2 x3 x4, Statement (.ldacq x0 x1 x2 x3 x4) := fun _ _ _ _ _ => all _
theorem strel : ∀ x0 x1 x2 x3 x4, Statement (.strel x0 x1 x2 x3 x4) := fun _ _ _ _ _ => all _
theorem fence : ∀ x0, Statement (.fence x0) := fun _ => all _
theorem xfence : ∀ x0 x1, Statement (.xfence x0 x1) := fun _ _ => all _
theorem bar : ∀ x0, Statement (.bar x0) := fun _ => all _
theorem barv : ∀ x0 x1 x2 x3, Statement (.barv x0 x1 x2 x3) := fun _ _ _ _ => all _
theorem barwArr : ∀ x0 x1, Statement (.barwArr x0 x1) := fun _ _ => all _
theorem barwWt : ∀ x0 x1, Statement (.barwWt x0 x1) := fun _ _ => all _
theorem wfe : ∀ x0 x1, Statement (.wfe x0 x1) := fun _ _ => all _
theorem sev : ∀ x0 x1, Statement (.sev x0 x1) := fun _ _ => all _
theorem deccnt : ∀ x0 x1, Statement (.deccnt x0 x1) := fun _ _ => all _
theorem setcnt : ∀ x0 x1, Statement (.setcnt x0 x1) := fun _ _ => all _
theorem slotadv : ∀ x0 x1 x2, Statement (.slotadv x0 x1 x2) := fun _ _ _ => all _
theorem ordent : ∀ x0 x1, Statement (.ordent x0 x1) := fun _ _ => all _
theorem ordentRsv : ∀ x0, Statement (.ordentRsv x0) := fun _ => all _
theorem ordlv : ∀ x0, Statement (.ordlv x0) := fun _ => all _
theorem trel : ∀ x0 x1 x2 x3, Statement (.trel x0 x1 x2 x3) := fun _ _ _ _ => all _
theorem phcrd : ∀ x0 x1, Statement (.phcrd x0 x1) := fun _ _ => all _
theorem launch : ∀ x0 x1 x2 x3, Statement (.launch x0 x1 x2 x3) := fun _ _ _ _ => all _
theorem csrr : ∀ x0 x1, Statement (.csrr x0 x1) := fun _ _ => all _
theorem csrw : ∀ x0 x1, Statement (.csrw x0 x1) := fun _ _ => all _
theorem csrx : ∀ x0 x1 x2 x3, Statement (.csrx x0 x1 x2 x3) := fun _ _ _ _ => all _
theorem cohmodeWrite : ∀ x0 x1, Statement (.cohmodeWrite x0 x1) := fun _ _ => all _
theorem bndtWrite : ∀ x0 x1, Statement (.bndtWrite x0 x1) := fun _ _ => all _
theorem trapN : ∀ x0, Statement (.trapN x0) := fun _ => all _
theorem start : ∀ x0 x1 x2, Statement (.start x0 x1 x2) := fun _ _ _ => all _
theorem hwait : ∀ x0, Statement (.hwait x0) := fun _ => all _
theorem carve : ∀ x0 x1, Statement (.carve x0 x1) := fun _ _ => all _
theorem rets : ∀ x0 x1, Statement (.rets x0 x1) := fun _ _ => all _
theorem xlinvPg : ∀ x0, Statement (.xlinvPg x0) := fun _ => all _
theorem ctxsv : ∀ x0 x1, Statement (.ctxsv x0 x1) := fun _ _ => all _
theorem ctxld : ∀ x0 x1 x2 x3, Statement (.ctxld x0 x1 x2 x3) := fun _ _ _ _ => all _
theorem logrp : ∀ x0 x1, Statement (.logrp x0 x1) := fun _ _ => all _
theorem idle : ∀ x0, Statement (.idle x0) := fun _ => all _
theorem cload : ∀ x0 x1 x2, Statement (.cload x0 x1 x2) := fun _ _ _ => all _
theorem residPin : ∀ x0 x1, Statement (.residPin x0 x1) := fun _ _ => all _
theorem residUnpin : ∀ x0 x1, Statement (.residUnpin x0 x1) := fun _ _ => all _
theorem residDemote : ∀ x0 x1, Statement (.residDemote x0 x1) := fun _ _ => all _
theorem residEvict : ∀ x0 x1, Statement (.residEvict x0 x1) := fun _ _ => all _
theorem wdead : ∀ x0, Statement (.wdead x0) := fun _ => all _
theorem streamDeadlock : ∀ x0 x1, Statement (.streamDeadlock x0 x1) := fun _ _ => all _
theorem budgetOverrun : ∀ x0, Statement (.budgetOverrun x0) := fun _ => all _
theorem doorbell : ∀ x0 x1 x2, Statement (.doorbell x0 x1 x2) := fun _ _ _ => all _
theorem launchQueueTake : ∀ x0, Statement (.launchQueueTake x0) := fun _ => all _
theorem groupStart : ∀ x0, Statement (.groupStart x0) := fun _ => all _
theorem shareRecompute : ∀ x0, Statement (.shareRecompute x0) := fun _ => all _
theorem counterSubmit : ∀ x0, Statement (.counterSubmit x0) := fun _ => all _
theorem launchCompletion : ∀ x0, Statement (.launchCompletion x0) := fun _ => all _
theorem reservationRelease : ∀ x0, Statement (.reservationRelease x0) := fun _ => all _
theorem preemption : ∀ x0, Statement (.preemption x0) := fun _ => all _
theorem resumption : ∀ x0, Statement (.resumption x0) := fun _ => all _
theorem worldSwitchSliceEnd : ∀ x0, Statement (.worldSwitchSliceEnd x0) := fun _ => all _
theorem barrierPhaseComplete : ∀ x0, Statement (.barrierPhaseComplete x0) := fun _ => all _
theorem orderedSectionGrant : ∀ x0, Statement (.orderedSectionGrant x0) := fun _ => all _
theorem jobCompletion : ∀ x0 x1, Statement (.jobCompletion x0 x1) := fun _ _ => all _
theorem copy : ∀ x0, Statement (.copy x0) := fun _ => all _
theorem gather : ∀ x0, Statement (.gather x0) := fun _ => all _
theorem mloadw : ∀ x0, Statement (.mloadw x0) := fun _ => all _
theorem mloadb : ∀ x0, Statement (.mloadb x0) := fun _ => all _
theorem mma : ∀ x0, Statement (.mma x0) := fun _ => all _
theorem mmab : ∀ x0, Statement (.mmab x0) := fun _ => all _
theorem mepi : ∀ x0, Statement (.mepi x0) := fun _ => all _
theorem traverse : ∀ x0, Statement (.traverse x0) := fun _ => all _
theorem sweepup : ∀ x0, Statement (.sweepup x0) := fun _ => all _
theorem sweepdn : ∀ x0, Statement (.sweepdn x0) := fun _ => all _
theorem pfeEmitEntry : ∀ x0 x1, Statement (.pfeEmitEntry x0 x1) := fun _ _ => all _
theorem sweepCounterDecrement : ∀ x0, Statement (.sweepCounterDecrement x0) := fun _ => all _
theorem raster : ∀ x0, Statement (.raster x0) := fun _ => all _
theorem refreshWindowEnd : ∀ x0 x1, Statement (.refreshWindowEnd x0 x1) := fun _ _ => all _
theorem trelFire : ∀ x0, Statement (.trelFire x0) := fun _ => all _
theorem pmcOverflow : ∀ x0 x1, Statement (.pmcOverflow x0 x1) := fun _ _ => all _
theorem notifyOverflowDrain : ∀ x0, Statement (.notifyOverflowDrain x0) := fun _ => all _
theorem fabricWriteArrival : ∀ x0, Statement (.fabricWriteArrival x0) := fun _ => all _
theorem linkFailure : ∀ x0, Statement (.linkFailure x0) := fun _ => all _
theorem ptpEventMessage : ∀ x0 x1, Statement (.ptpEventMessage x0 x1) := fun _ _ => all _
theorem hostRead : ∀ x0 x1, Statement (.hostRead x0 x1) := fun _ _ => all _
theorem hostWrite : ∀ x0 x1, Statement (.hostWrite x0 x1) := fun _ _ => all _
theorem vfcfg : ∀ x0, Statement (.vfcfg x0) := fun _ => all _
theorem vfreset : ∀ x0, Statement (.vfreset x0) := fun _ => all _
theorem capiss : ∀ x0, Statement (.capiss x0) := fun _ => all _
theorem csload : ∀ x0 x1 x2 x3 x4, Statement (.csload x0 x1 x2 x3 x4) := fun _ _ _ _ _ => all _
theorem attest : ∀ x0, Statement (.attest x0) := fun _ => all _
theorem resync : ∀ x0, Statement (.resync x0) := fun _ => all _
theorem podbar : ∀ x0 x1 x2 x3, Statement (.podbar x0 x1 x2 x3) := fun _ _ _ _ => all _
theorem phcsetProfile : ∀ x0, Statement (.phcsetProfile x0) := fun _ => all _
theorem phcsetStep : ∀ x0, Statement (.phcsetStep x0) := fun _ => all _
theorem phcsetSlew : ∀ x0, Statement (.phcsetSlew x0) := fun _ => all _
theorem tshare : ∀ x0 x1 x2 x3, Statement (.tshare x0 x1 x2 x3) := fun _ _ _ _ => all _
theorem linkctl : ∀ x0 x1 x2, Statement (.linkctl x0 x1 x2) := fun _ _ _ => all _
theorem pwrlim : ∀ x0, Statement (.pwrlim x0) := fun _ => all _
theorem decodeTrap : ∀ x0, Statement (.decodeTrap x0) := fun _ => all _
theorem uncorrectableSoftError : ∀ x0, Statement (.uncorrectableSoftError x0) := fun _ => all _
theorem yield : Statement .yield := all _
theorem tsbret : Statement .tsbret := all _
theorem trap : Statement .trap := all _
theorem eret : Statement .eret := all _
theorem hend : Statement .hend := all _
theorem retire : Statement .retire := all _
theorem xlinvAll : Statement .xlinvAll := all _
theorem xlinvBnd : Statement .xlinvBnd := all _
theorem brk : Statement .brk := all _
theorem powerGood : Statement .powerGood := all _
theorem thermalTrip : Statement .thermalTrip := all _
theorem holdover : Statement .holdover := all _

end Sys2Proof.Laws.Encode
end

