-- ==== Sys2Proof/Tests/Slice0.lean ====
section
/-! SUPPORT. Tests: words of the spec's encodings, ill-formed terms that the checks refuse, one-step results, and for each
statement with hypotheses a state and operands that meet them. Expected results are worked by hand from the rules named. -/

namespace Sys2Proof.Tests

set_option Elab.async false

open Sys2Proof Sys2Proof.Machine

/-! ### Words, from the tables of worked encodings and from R96-R115 -/

/-- An instruction of up to three parcels decodes to i. -/
def reads (p0 p1 p2 : Parcel) (i : Instr) : Bool :=
  match decodeParcels p0 p1 p2 with | .ok j => j == i | .error _ => false
/-- The parcels are refused with this cause. -/
def refuses (p0 p1 p2 : Parcel) (cause : Nat) : Bool :=
  match decodeParcels p0 p1 p2 with | .ok _ => false | .error k => k == cause
/-- The fields of a short class-E form without a guard. -/
def short (fn : BitVec 4) (d a b : BitVec 5) : EArgs := { g := 0, fn := fn, b := b, a := a, d := d, form := .short }
/-- The fields of a medium class-E form without a guard or a pattern. -/
def medium (fn : BitVec 4) (d a b : BitVec 5) (imm : BitVec 23) : EArgs :=
  { g := 0, fn := fn, b := b, a := a, d := d, form := .medium false 0 0 imm }
/-- The fields of a long class-E form without a guard or a pattern. -/
def long (fn : BitVec 4) (d a b : BitVec 5) (asrc bsrc sfmt dfmt : BitVec 4) (lit : BitVec 32) : EArgs :=
  { g := 0, fn := fn, b := b, a := a, d := d, form := .long false 0 0 0 asrc bsrc sfmt dfmt lit }

theorem test_words_arithmetic :
    reads 0x00629404 0 0 (.add 5 5 (.reg 6)) = true ∧ reads 0x00019070 0 0 (.xmint false 4 3 (.reg 0)) = true ∧
    reads 0x00033419 0xFFFFFA00 0 (.rem false 13 6 (.imm (BitVec.ofInt 23 (-3)))) = true ∧
    reads 0x0004385D 0x00027800 0 (.bfxImm false 14 8 60 4) = true ∧
    reads 0x00002066 0 0x01000000 (.li false 8 (.lit 0 0x01000000)) = true ∧
    reads 0x00001469 0x0FFF0000 0 (.lia 5 (.imm 0x7FF80)) = true := by decide +kernel
theorem test_words_flow :
    reads 0x02030085 0xFFFFFA00 0 (.bc .ne 6 0 (BitVec.ofInt 23 (-3))) = true := by decide +kernel
theorem test_words_memory :
    reads 0x0602A0C0 0 0 (.ld .i64 8 5 (.reg 0)) = true ∧ reads 0x000000D8 0 0 (.ldsq 0 0 (.reg 0)) = true := by decide +kernel
theorem test_words_vector :
    reads 0x40029A41 0x33 0 (.vmov { g := 2, fn := 0, b := 0, a := 5, d := 6, form := .medium true 1 3 0 }) = true ∧
    reads 0x40310501 0x53 0 (.vadd { g := 2, fn := 0, b := 3, a := 2, d := 1, form := .medium true 1 5 0 }) = true ∧
    reads 0x0001110E 0x00908400 0
      (.vfma { g := 0, fn := 0, b := 0, a := 2, d := 4, form := .long false 0 0 0x42 0 9 0 0 0 }) = true ∧
    reads 0x06000246 0 0 (.vsplat (long 3 0 0 0 0 0 0 0 0)) = true := by decide +kernel
theorem test_words_compare_convert :
    reads 0x045209C0 0 0 (.vcmp (short 2 2 4 5)) = true ∧
    reads 0x0AC32A01 0x2000 0 (.vcvt (medium 5 10 6 12 0x10)) = true ∧
    reads 0x00049274 0 0 (.vpush (short 0 4 9 0)) = true := by decide +kernel
theorem test_words_scratch :
    reads 0x00000682 0x02000000 0 (.kset 1 0 512 0) = true ∧ reads 0x0000068C 0 0 (.vsts (short 0 1 0 0)) = true ∧
    reads 0x00012288 0 0 (.vlds (short 0 8 2 0)) = true ∧ reads 0x00000299 0x08010200 0 (.rep 1 4 1) = true ∧
    reads 0x00008EA8 0 0 (.vwind (short 0 3 1 0)) = true := by decide +kernel
theorem test_words_jobs_atomics :
    reads 0x0005AB00 0 0 (.emsg 10 11 0) = true ∧ reads 0x00C5AB00 0 0 (.emsg 10 11 12) = true ∧
    reads 0x00050F04 0 0 (.jtest 3 10) = true ∧ reads 0x00050308 0 0 (.jwait 0 10) = true ∧
    reads 0x10628F0C 0 0 (.amo true .add 3 5 6) = true ∧
    reads 0x10628F0D 0x2800 0 (.amoOrdered true .add .rel .pk 3 5 6) = true ∧
    reads 0x02629311 0x3800 0 (.casOrdered true .acqrel .pk 4 5 6) = true ∧
    reads 0x00628315 0x01FFF000 0 (.waccImm (BitVec.ofInt 16 (-8)) 5 6) = true ∧
    reads 0x18028B18 0 0 (.ldacq true .pk 2 5 (.reg 0)) = true ∧
    reads 0x1802A71C 0 0 (.strel true .pk 9 5 (.reg 0)) = true := by decide +kernel
theorem test_words_ordering :
    reads 0x06000320 0 0 (.fence .di) = true ∧ reads 0x00000325 0x00020400 0 (.xfence 2 1) = true ∧
    reads 0x04000328 0 0 (.bar .cl) = true ∧ reads 0x1603932C 0 0 (.barv true .di 4 7) = true ∧
    reads 0x14030330 0 0 (.barwWt .cl 6) = true ∧ reads 0x00020F34 0 0 (.wfe 3 4) = true ∧
    reads 0x00520338 0 0 (.sev 4 5) = true ∧ reads 0x00000F58 0 0 (.phcrd false 3) = true ∧
    reads 0x00520F55 0x400 0 (.trel 2 3 4 5) = true := by decide +kernel
theorem test_words_launch_sections :
    reads 0x00629F5C 0 0 (.launch false 7 5 6) = true ∧ reads 0x0004274C 0 0 (.ordent 9 8) = true ∧
    reads 0x0204034C 0 0 (.ordentRsv 8) = true ∧ reads 0x00040350 0 0 (.ordlv 8) = true := by decide +kernel
theorem test_words_system :
    reads 0x0000038C 0 0 .trap = true ∧ reads 0x0000038D 0x0E00 0 (.trapN 7) = true ∧ reads 0x00000390 0 0 .eret = true ∧
    reads 0x000003C8 0 0 .brk = true ∧ reads 0x00000FBC 0 0 (.idle 3) = true ∧ reads 0x0006039C 0 0 (.hwait 12) = true ∧
    reads 0x00000398 0 0 .hend = true ∧ reads 0x000003A8 0 0 .retire = true ∧ reads 0x080003A4 0 0 (.rets .pk 0) = true ∧
    reads 0x040483A4 0 0 (.rets .cl 9) = true ∧ reads 0x000383CC 0 0 (.wdead 7) = true := by decide +kernel
theorem test_words_supervisor :
    reads 0x000383AC 0 0 (.xlinvPg 7) = true ∧ reads 0x020003AC 0 0 .xlinvAll = true ∧ reads 0x040003AC 0 0 .xlinvBnd = true ∧
    reads 0x000493B8 0 0 (.logrp 4 9) = true ∧ reads 0x04028FC4 0 0 (.residDemote 3 5) = true ∧
    reads 0x00628FC0 0 0 (.cload 3 5 6) = true := by decide +kernel
/-- The words that the spec refuses: a length of 0b11, a reserved opcode, a length that the opcode lacks, a guard on class A, a queue
against its direction; with R116, a reserved FN, and R279's scope .ln in a fence. -/
theorem test_words_refused :
    refuses 0x00000007 0 0 2 = true ∧ refuses 0x00000074 0 0 1 = true ∧ refuses 0x00000245 0 0 1 = true ∧
    refuses 0x20629404 0 0 1 = true ∧ refuses 0x000010D8 0 0 3 = true ∧ refuses 0x1E000100 0 0 1 = true ∧
    refuses 0x00000320 0 0 1 = true := by decide +kernel
/-- A word as the operation table numbers it, and an encoding written back (R96-R102). -/
theorem test_words_table :
    decodeTableWord 32 0x00629404 = some (.add 5 5 (.reg 6)) ∧ encode (.rep 1 4 1) = [0x00000299, 0x08010200] ∧
    encode (.waccImm (BitVec.ofInt 16 (-8)) 5 6) = [0x00628315, 0x01FFF000] := by decide +kernel

/-! ### Ill-formed terms -/

theorem test_illformed_vector :
    -- FN that is no listed type, a pair at an odd register, a guard number of 8, a k pointer of 8, a tile of 4, FMT16
    (Instr.vadd (short 12 0 0 0)).wf = false ∧ (Instr.vaddw (short 4 1 0 0)).wf = false ∧ (Instr.gand (short 0 8 0 0)).wf = false ∧
    (Instr.kget (short 0 0 8 0)).wf = false ∧ (Instr.zmov (short 0 0 4 0)).wf = false ∧ (Instr.fmtld (short 0 16 0 0)).wf = false ∧
    -- a length that the opcode lacks, fm outside the long form, a format index outside fm, unequal indexes where R168 asks for one
    (Instr.vpack (short 11 0 0 0)).wf = false ∧ (Instr.vadd (short 11 0 0 0)).wf = false ∧
    (Instr.vadd (long 0 0 0 0 0 0 1 0 0)).wf = false ∧ (Instr.vmov (long 11 0 0 0 0 0 1 2 0)).wf = false ∧
    -- a register field beside a source code, a source code of 13, a register where there is no operand
    (Instr.vadd (long 0 0 1 0 9 0 0 0 0)).wf = false ∧ (Instr.vadd (long 0 0 0 0 13 0 0 0 0)).wf = false ∧
    (Instr.vabs (short 0 0 0 1)).wf = false ∧ (Instr.vpush (short 0 3 0 0)).wf = false := by decide +kernel
theorem test_illformed_immediates :
    -- an immediate where there is none, a reserved type word, a literal above its width, bfx past the width, an index past the end
    (Instr.vadd (medium 0 0 0 0 1)).wf = false ∧ (Instr.vcvt (medium 0 0 0 0 0x0C)).wf = false ∧
    (Instr.vsplat (long 5 0 0 0 0 0 0 0 256)).wf = false ∧ (Instr.vbfx (medium 5 0 0 0 8)).wf = false ∧
    (Instr.vext (medium 0 0 0 0 128)).wf = false ∧ (Instr.vtopk (medium 0 0 0 0 0)).wf = false ∧
    (Instr.gset (medium 0 1 0 0 129)).wf = false ∧ (Instr.zmov (medium 0 0 0 0 128)).wf = false ∧
    (Instr.zset (medium 0 0 0 0 1)).wf = false ∧ (Instr.vtex (medium 0 0 0 0 256)).wf = false ∧
    -- a lane pattern of 5, rev with an argument, a pattern with no source, a guard on vpush
    (Instr.vadd { g := 0, fn := 0, b := 0, a := 0, d := 0, form := .medium false 5 0 0 }).wf = false ∧
    (Instr.vadd { g := 0, fn := 0, b := 0, a := 0, d := 0, form := .medium false 2 1 0 }).wf = false ∧
    (Instr.vidx { g := 0, fn := 3, b := 0, a := 0, d := 0, form := .medium false 1 0 0 }).wf = false ∧
    (Instr.vpush { g := 1, fn := 0, b := 0, a := 0, d := 4, form := .short }).wf = false ∧
    -- vwiden from signed to unsigned, vnarrow to a wider type, stochastic words at a register that is no multiple
    (Instr.vwiden (medium 0 0 0 0 0x75)).wf = false ∧ (Instr.vnarrow (medium 0 0 0 0 0x01)).wf = false ∧
    (Instr.vcvt (medium 5 0 0 1 0x44)).wf = false := by decide +kernel
theorem test_illformed_scalar :
    (Instr.bfxImm true 1 1 0 65).wf = false ∧ (Instr.bfiImm 1 1 0 65).wf = false ∧ (Instr.loop 0 0).wf = false ∧
    (Instr.amoOrdered true .add .acq .ln 1 2 3).wf = false ∧ (Instr.amoOrdered true .add .relaxed .pk 1 2 3).wf = false ∧
    (Instr.casOrdered true .acq .ln 1 2 3).wf = false ∧ (Instr.casOrdered true .relaxed .pk 1 2 3).wf = false ∧
    (Instr.ldacq true .ln 1 2 (.reg 3)).wf = false ∧
    (Instr.strel true .ln 1 2 (.reg 3)).wf = false ∧ (Instr.fence .ln).wf = false ∧ (Instr.rets .ln 0).wf = false ∧
    (Instr.xfence 0 1).wf = false ∧ (Instr.xfence 1 0).wf = false ∧ (Instr.trel 0 1 2 3).wf = false ∧
    (Instr.trel 17 1 2 3).wf = false ∧ (Instr.csrw 0x105 1).wf = false ∧ (Instr.csrw 0x106 1).wf = false ∧
    (Instr.csrx .set 1 0x105 1).wf = false ∧ (Instr.csrx .set 1 0x106 1).wf = false := by decide
theorem test_illformed_events :
    (Instr.streamDeadlock 2048 0).wf = false ∧ (Instr.streamDeadlock 0 11).wf = false ∧ (Instr.budgetOverrun 2048).wf = false ∧
    (Instr.doorbell 512 0 0).wf = false ∧ (Instr.doorbell 0 8 0).wf = false ∧ (Instr.launchQueueTake 4).wf = false ∧
    (Instr.groupStart 4).wf = false ∧ (Instr.shareRecompute 4).wf = false ∧ (Instr.reservationRelease 4).wf = false ∧
    (Instr.preemption 2048).wf = false ∧ (Instr.worldSwitchSliceEnd 2048).wf = false ∧ (Instr.jobCompletion 256 .cpy).wf = false ∧
    (Instr.copy 256).wf = false ∧ (Instr.gather 256).wf = false ∧ (Instr.mloadw 256).wf = false ∧ (Instr.mloadb 256).wf = false ∧
    (Instr.mma 256).wf = false ∧ (Instr.mmab 256).wf = false ∧ (Instr.mepi 256).wf = false ∧ (Instr.traverse 256).wf = false ∧
    (Instr.sweepup 256).wf = false ∧ (Instr.sweepdn 256).wf = false ∧ (Instr.sweepCounterDecrement 256).wf = false ∧
    (Instr.raster 256).wf = false ∧ (Instr.pfeEmitEntry 256 0).wf = false := by decide
theorem test_illformed_outside :
    (Instr.refreshWindowEnd 4 0).wf = false ∧ (Instr.refreshWindowEnd 0 16).wf = false ∧ (Instr.pmcOverflow 2048 0).wf = false ∧
    (Instr.pmcOverflow 0 8).wf = false ∧ (Instr.notifyOverflowDrain 512).wf = false ∧ (Instr.linkFailure 18).wf = false ∧
    (Instr.ptpEventMessage 19 0).wf = false ∧ (Instr.decodeTrap 0).wf = false ∧ (Instr.decodeTrap 4).wf = false ∧
    (let m : MbCmd := { vf := 512, arg := 0, res := 0 }
     [Instr.vfcfg m, .vfreset m, .capiss m, .csload m 3 2 [] [], .attest m, .resync m, .podbar m 0 2 0, .phcsetProfile m,
      .phcsetStep m, .phcsetSlew m, .tshare m [0] [0] 1, .linkctl m 0 0, .pwrlim m].all fun i => !i.wf) = true := by decide

/-! ### States for the tests -/

/-- A context of user mode with TVEC at 0x100, supervisor mode where sup holds. -/
def base (sup : Bool) : Ctx := Ctx.fresh 0 1 codeBase 0 0x100 0 sup
def user : Ctx := base false
def boss : Ctx := base true
/-- With these x registers, v registers, or k registers. -/
def xs (c : Ctx) (l : List (Nat × Nat)) : Ctx :=
  { c with r := { c.r with x := Vector.ofFn fun i : Fin 32 => BitVec.ofNat 64 ((l.lookup i.val).getD 0) } }
def vs (c : Ctx) (l : List (Nat × List Nat)) : Ctx :=
  { c with r := { c.r with v := Vector.ofFn fun i : Fin 32 => blockOf 32 ((l.lookup i.val).getD []) } }
def ks (c : Ctx) (l : List (Nat × Nat)) : Ctx :=
  { c with r := { c.r with k := Vector.ofFn fun i : Fin 8 => BitVec.ofNat 64 ((l.lookup i.val).getD 0) } }
/-- A group of function 0 on core 0 whose one context is c: 8 v registers, 4 helpers, 4 tiles, 8 scratch units. -/
def grp (c : Ctx) : Machine.Group :=
  { id := 1, launch := 1, index := 0, entryNo := 0, stage := none, slot := none, vf := 0, cls := 2, die := 0, core := 0,
    status := .running, stopping := none, kobj := BitVec.ofNat 1024 (codeBase.toNat + 4 * 2 ^ 66 + 4 * 2 ^ 70 + 8 * 2 ^ 80), kptr := 0, rung := 0,
    depth := 1, scratch := 8, inhm := 0, smask := 0, ctxa := 0x10000, ctxs := [c], log := [],
    jobs := Vector.replicate 64 JobRec.empty, tiles := [0, 1, 2, 3], keys := [], closed := false, arrivals := [], budget := 0,
    used := 0, overran := false, overAny := false, tileRetired := false, incremental := false, pfeTask := none, handed := [], startAt := 0, unseen := [],
    ended := [], saved := [], savedScratch := [] }
/-- The package with that group alone, its context at the cursor; pages 0x01...1000 mapped and readable, writable, executable. -/
def st (c : Ctx) : State :=
  { State.reset with groups := [grp c], cur := { gid := 1, ctx := c.num }, nextId := 2, nextAgent := 2,
                     xlat := (List.range 256).map fun k => (k, keptName codeBase.toNat true, codeLeaf) }
/-- A context that may use region 1. -/
def mapped (c : Ctx) : Ctx := { c with bounds := [(1, codeEntry)] }

theorem acts (c : Ctx) : (st c).Acts (grp c) c :=
  acts_iff.2 ⟨rfl, rfl, rfl, rfl, by simp [grp, Group.ctx?]⟩
/-- A release that is to be made, and one that has been made. -/
def relNow (s : State) (g : Machine.Group) (c : Ctx) : State :=
  s.updCtx g.id c.num fun x => { x.release with tagged := some (c.relTag + 1) }
theorem released (s : State) (g : Machine.Group) (c : Ctx) (h : s.GateOpen g c) (ht : c.tagged = none) :
    s.Released g c (relNow s g c) (c.relTag + 1) := .inr ⟨ht, h, rfl, rfl⟩
theorem gate (c : Ctx) (h : c.drained = true) : (st c).GateOpen (grp c) c := ⟨h, by simp [grp]⟩
theorem quiet (c : Ctx) : (st c).Quiet := ⟨rfl, by simp [st, State.reset]⟩
theorem calm (c : Ctx) (k : Nat) : (st c).Calm k := by
  have : (st c).core k = Core.fresh := rfl
  intro i; rw [this]; revert i; decide

/-! ### What meets the hypotheses of the statements: results of functions -/

def okM {α : Type} : MRes α → Bool | .ok .. => true | _ => false
def okS {α : Type} : SRes α → Bool | .ok .. => true | _ => false
def okE {ε α : Type} : Except ε α → Bool | .ok _ => true | _ => false
theorem of_okM {α : Type} {r : MRes α} (h : okM r = true) : ∃ s v, r = .ok s v := by cases r <;> first | exact ⟨_, _, rfl⟩ | cases h
theorem of_okS {α : Type} {r : SRes α} (h : okS r = true) : ∃ s v, r = .ok s v := by cases r <;> first | exact ⟨_, _, rfl⟩ | cases h
theorem of_okE {ε α : Type} {r : Except ε α} (h : okE r = true) : ∃ v, r = .ok v := by cases r <;> first | exact ⟨_, rfl⟩ | cases h
/-- The probe finds memory at a spot that satisfies f. -/
def isMem (p : Probe) (f : Spot → Bool) : Bool := match p with | .at (.mem k d t e) => f (.mem k d t e) | _ => false
theorem of_mem {p : Probe} {f : Spot → Bool} {P : Spot → Prop} (h : isMem p f = true) (hf : ∀ q, f q = true → P q) :
    ∃ k d t e, p = .at (.mem k d t e) ∧ P (.mem k d t e) := by
  unfold isMem at h
  split at h
  · exact ⟨_, _, _, _, rfl, hf _ h⟩
  · cases h
/-- The state that an outcome goes on with. -/
def nextOf (o : Host.Outcome State Fault Refusal) : Option State := match o with | .next t => some t | _ => none
theorem of_next {o : Host.Outcome State Fault Refusal} (h : (nextOf o).isSome = true) : ∃ t, o = .next t := by
  cases o <;> first | exact ⟨_, rfl⟩ | cases h

/-- EReady, computed. -/
def ready (g : Machine.Group) (c : Ctx) (op : Nat) (e0 : EArgs) (sizes : Ctx → EArgs → Nat × Nat × Nat) : Bool :=
  match eShape op with
  | none => false
  | some sh =>
    let e := c.passArgs sh e0
    (c.rep.isNone || eOk op e) && c.fmtsOk sh e && regsOk g sh e (sizes c e).1 (sizes c e).2.1 (sizes c e).2.2
theorem of_ready {g : Machine.Group} {c : Ctx} {op : Nat} {e0 : EArgs} {sizes : Ctx → EArgs → Nat × Nat × Nat}
    (h : ready g c op e0 sizes = true) : ∃ sh, EReady g c op e0 sizes sh (c.passArgs sh e0) := by
  unfold ready at h
  split at h
  · cases h
  · rename_i sh hs
    simp only [Bool.and_eq_true, Bool.or_eq_true, Option.isNone_iff_eq_none] at h
    exact ⟨sh, hs, rfl, h.1.1, h.1.2, h.2⟩
/-- EReady with A and B read. -/
def readyAB (s : State) (g : Machine.Group) (c : Ctx) (op : Nat) (e0 : EArgs) (sizes : Ctx → EArgs → Nat × Nat × Nat)
    (p : EShape → EArgs → List Nat → List Nat → Bool) : Bool :=
  ready g c op e0 sizes &&
    match eShape op with
    | none => false
    | some sh =>
      let e := c.passArgs sh e0
      match readAB s g c sh e (c.srcTy sh e) with
      | .ok _ (a, b) => p sh e a b
      | _ => false
theorem of_readyAB {s : State} {g : Machine.Group} {c : Ctx} {op : Nat} {e0 : EArgs} {sizes : Ctx → EArgs → Nat × Nat × Nat}
    {p : EShape → EArgs → List Nat → List Nat → Bool} (h : readyAB s g c op e0 sizes p = true) :
    ∃ sh e s1 a b, EReady g c op e0 sizes sh e ∧ readAB s g c sh e (c.srcTy sh e) = .ok s1 (a, b) ∧ p sh e a b = true := by
  unfold readyAB at h
  rw [Bool.and_eq_true] at h
  obtain ⟨sh, hr⟩ := of_ready h.1
  rw [hr.shape] at h
  obtain ⟨-, h⟩ := h
  dsimp only at h
  split at h
  · rename_i s1 a b hab
    exact ⟨sh, _, s1, a, b, hr, hab, h⟩
  · cases h
def anyAB : EShape → EArgs → List Nat → List Nat → Bool := fun _ _ _ _ => true

/-! ### Witnesses: reset, decode, turns -/

theorem witness_stepKeepsMemoryForm : ∃ s t, Inv s ∧ step s = .next t :=
  have ⟨t, h⟩ := of_next (o := step (State.reset.withFetchWord 32 0x00629404)) (by decide +kernel)
  ⟨_, t, show Memory.wf _ = true by decide +kernel, h⟩
theorem witness_resetState : State.reset.mbrdy = false := rfl
theorem witness_decodeOfEncode : (Instr.add 5 5 (.reg 6)).wf = true ∧ encode (.add 5 5 (.reg 6)) ≠ [] := by decide
theorem witness_decodedIsWellFormed : decodeParcels 0x00629404 0 0 = .ok (.add 5 5 (.reg 6)) := by rfl
theorem witness_reservedEncodings : (3 : Parcel).extractLsb' 0 2 = 3 ∧ (0x74 : Parcel).extractLsb' 0 2 ≠ 3 ∧
    ((0x74 : Parcel).extractLsb' 2 8).toNat = 0x1D ∧ ((0x3FC : Parcel).extractLsb' 2 8).toNat = 0xFF := by decide
theorem witness_fetchReadsTheParcel : ∃ key die t e, (st (mapped user)).fetchProbe (grp (mapped user)) (mapped user) codeBase =
    .at (.mem key die t e) ∧ (st (mapped user)).bankBusy (.mem key die t e) = false ∧ (st (mapped user)).moves (.mem key die t e) = false ∧
    (st (mapped user)).versionsOf (grp (mapped user)) (key / 64) = [] := by
  obtain ⟨key, die, t, e, h, k⟩ := of_mem (p := (st (mapped user)).fetchProbe (grp (mapped user)) (mapped user) codeBase)
    (f := fun p => !(st (mapped user)).bankBusy p && !(st (mapped user)).moves p)
    (P := fun p => (st (mapped user)).bankBusy p = false ∧ (st (mapped user)).moves p = false) (by decide +kernel) (by simp)
  exact ⟨key, die, t, e, h, k.1, k.2, rfl⟩
/-- R99: a store to code made after the group's start leaves its line's former bytes for fetches to see; one before it does not. -/
theorem test_codeVersions : let s := State.codeLine 448 4 none (st user) 7
    (s.versionsOf { grp user with startAt := s.tick } 7).length = 0 ∧
    (s.versionsOf { grp user with startAt := s.tick, unseen := [s.tick] } 7).length = 1 := by decide +kernel
/-- R99: of three stores of one byte, the values before them 1, 2, 3, each is seen or missed by itself; the later one seen wins. -/
theorem test_storesMissed : let v := fun (n : Nat) => ({ tick := n, key := 0, len := 1, entry := none, bytes := [BitVec.ofNat 8 n] } : CodeVersion)
    let l := [v 3, v 2, v 1]
    seenByte 0 (fun _ => false) 4 l = 4 ∧ seenByte 0 (fun x => x.tick == 3) 4 l = 3 ∧ seenByte 0 (fun x => x.tick == 1) 4 l = 4 ∧
    seenByte 0 (fun x => x.tick != 2) 4 l = 3 ∧ seenByte 0 (fun _ => true) 4 l = 1 := by decide
/-- The parts of a turn's hypotheses, computed for the state that withFetchWord gives. -/
def turnOk (s : State) (t : Turn) (pick : Ctx → Nat × Word) : Bool :=
  s.drainPending.script.head? == some (t, 0) &&
    match (State.advance { s.drainPending with script := [] } 0).groupOn? 0 with
    | none => false
    | some g =>
      !g.unbound && g.stopping.isNone && !g.overBudget && match g.ctx? 0 with
        | none => false
        | some c => c.heldA.isNone && c.heldE.isNone && c.seqP ≤ c.seqA && (alGet c.code (pick c).1).isNone &&
          match ((State.advance { s.drainPending with script := [] } 0).at g.id 0).fetchParcels g c (pick c).2 1 with
          | .ok ([p0], _) => parcelCount p0 == some 1 && okE (decodeParcels p0 0 0)
          | _ => false
/-- R119: a stream finds what the other has fetched for its place. -/
theorem witness_reads : (st { user with code := [(0, .yield)] }).Reads (grp user) { user with code := [(0, .yield)] } 0 codeBase
    (st { user with code := [(0, .yield)] }) .yield := .inl ⟨rfl, rfl⟩
theorem witness_accessTurn : turnOk (State.reset.withFetchWord 32 0x00629404) (.access 0 0) (fun c => (c.seqA, c.pcA)) = true ∧
    (State.reset.withFetchWord 32 0x00629404).script = [(.access 0 0, 0)] := by decide +kernel
theorem witness_executeTurn : turnOk (State.reset.withFetchWord 32 0x0000068C) (.execute 0 0) (fun c => (c.seqE, c.pcE)) = true ∧
    (State.reset.withFetchWord 32 0x0000068C).script = [(.execute 0 0, 0)] := by decide +kernel

/-! ### Witnesses: class A -/

/-- Instructions on any context: a witness names the context, its group and its state. -/
theorem witness_arithmeticResult : (st user).Acts (grp user) user ∧ (aluRule user (.add 0 1 (.reg 2))).isSome = true ∧
    (aluRule user (.div false 31 1 (.imm 0))).isSome = true := ⟨acts user, rfl, rfl⟩
/-- With a queued update one short of coming due. -/
def waiting : Ctx := { user with lag := [{ execute := false, toWindow := true, reg := .x 3, left := 2, mask := 0, data := 0 }] }
theorem witness_arithmeticFrame : (st waiting).Acts (grp waiting) waiting ∧ (aluRule waiting (.add 5 1 (.reg 2))).isSome = true ∧
    waiting.NothingDue ∧ (st waiting).Calm (grp waiting).core :=
  ⟨acts _, rfl, by intro u hu; simp [waiting] at hu; subst hu; decide, calm _ _⟩
theorem witness_contextOnlyFrame : (st user).Acts (grp user) user ∧ (st user).Calm (grp user).core ∧
    contextOnly (.pushq 3) = true ∧ ∃ t, exec (.pushq 3) (st user) = .next t :=
  ⟨acts _, calm _ _, rfl, of_next (by decide +kernel)⟩
theorem witness_windowLag : user.lag = [] ∧ (31 : BitVec 5) ≠ 0 := by decide
/-- A full branch queue, and a value in q6. -/
def branching : Ctx :=
  let q : Queues := { Queues.empty with q6 := [{ data := 0, stamp := 0 }] }
  { xs user [(5, 4)] with queues := { q with bq := List.replicate 16 { dest := 0, vmask := 0, stamp := 0 } } }
theorem witness_controlFlowResult : (st branching).Acts (grp branching) branching ∧
    (flowRule branching (.j 5)).map (fun x => x.1.toNat % 4) = some 0 ∧ (flowRule branching (.bqe true 1 0)).isSome = true ∧
    branching.queues.bq.length = 16 ∧ (flowRule user (.b 0)).isSome = true ∧ user.queues.bq.length < 16 :=
  ⟨acts _, by decide +kernel, by decide +kernel, rfl, rfl, by decide⟩
/-- The last eight bytes of scratch, and the slot of x31 in the window. -/
def atEnd : Ctx := xs user [(5, 8 * 16384 - 8), (6, 0x002000F8)]
theorem admits_scratch (right : Right) : (st atEnd).Admits (grp atEnd) atEnd (BitVec.ofNat 64 (8 * 16384 - 8)) 8 right
    (.mem (scrKey 0 (8 * 16384 - 8)) 256 true none) := by
  cases right <;> exact ⟨by decide +kernel, by decide +kernel, by decide +kernel, by decide +kernel, by decide +kernel⟩
theorem witness_loadResult : (st atEnd).Acts (grp atEnd) atEnd ∧
    (loadRule atEnd (.ld .i64 3 5 (.reg 0))).isSome = true ∧ (loadRule atEnd (.lds .i64 3 5 (.reg 0))).isSome = true ∧
    inRegion (atEnd.readX 5) 0 = BitVec.ofNat 64 (8 * 16384 - 8) ∧
    (st atEnd).Admits (grp atEnd) atEnd (BitVec.ofNat 64 (8 * 16384 - 8)) 8 .r (.mem (scrKey 0 (8 * 16384 - 8)) 256 true none) ∧
    (st atEnd).Admits (grp atEnd) atEnd 0x002000F8 8 .r (.win 0 0xF8) ∧ (st atEnd).Calm (grp atEnd).core ∧ (st atEnd).Quiet ∧
    atEnd.loose = [] ∧ (st atEnd).olds = [] ∧
    ({ st atEnd with olds := [(5, [(9, 7), (0, 6)])] }).staleOf atEnd 5 = [(9, 7)] :=
  ⟨acts _, rfl, rfl, by decide +kernel, admits_scratch .r, ⟨by decide +kernel, by decide +kernel, by decide +kernel, by decide +kernel, by decide +kernel⟩,
    calm _ _, quiet _, rfl, rfl, by decide⟩
/-- R302: a word that an atomic writes keeps its value of before; a plain store leaves none. -/
theorem test_replaced : (((st atEnd).replaced 5 3).replaced 5 8).olds = [(5, [(8, 0)])] ∧
    (((st atEnd).replaced 5 3).settledWords [5]).olds = [] ∧ withWord 20 4 0 5 0xA0B0C0D = 0xA0B0C0D ∧
    withWord 22 2 0 5 0xA0B0C0D = 0xA0B := by decide
theorem witness_storeResult : (st atEnd).Acts (grp atEnd) atEnd ∧
    (storeRule atEnd (.st .i64 3 5 (.reg 0))).map (fun x => x.2.length) = some 8 ∧
    (storeRule atEnd (.sts .i64 3 5 (.reg 0))).map (fun x => x.1) = some (BitVec.ofNat 64 (8 * 16384 - 8)) ∧
    (st atEnd).Admits (grp atEnd) atEnd (BitVec.ofNat 64 (8 * 16384 - 8)) 8 .w (.mem (scrKey 0 (8 * 16384 - 8)) 256 true none) ∧
    Inv (st atEnd) ∧ (st atEnd).Calm (grp atEnd).core ∧ (st atEnd).Quiet ∧ (st atEnd).NoHead (scrKey 0 (8 * 16384 - 8)) 8 :=
  ⟨acts _, by decide +kernel, by decide +kernel, admits_scratch .w, by unfold Machine.Inv; decide +kernel, calm _ _, quiet _,
    by simp [State.NoHead, st, State.reset]⟩
/-- Three blocks in q0, one in q4 and one in q5. -/
def blocks : Ctx :=
  let b : QBlock := { data := 7, stamp := 0 }
  { xs user [(5, 8 * 16384 - 512)] with queues := { Queues.empty with blocks := #v[[b, b, b], [], [], [], [b], [b]] } }
theorem admits_block (right : Right) (h : right ≠ .x) :
    (st blocks).AdmitsBlock (grp blocks) blocks (BitVec.ofNat 64 (8 * 16384 - 512)) right
    [(.mem (scrKey 0 (8 * 16384 - 512)) 256 true none, 0, 512)] := by
  cases right
  · exact ⟨by decide +kernel, by decide +kernel, .inr (by decide +kernel), by decide +kernel, by decide +kernel⟩
  · exact ⟨by decide +kernel, by decide +kernel, .inl rfl, by decide +kernel, by decide +kernel⟩
  · exact ⟨by decide +kernel, by decide +kernel, .inl rfl, by decide +kernel, by decide +kernel⟩
  · exact absurd rfl h
/-- Two pages of 512 KiB, one behind the other, and the address of a block that lies across both (R157). -/
def crossing : State :=
  let kept := fun n l => (List.range 256).map fun k => (k, keptName (codeBase.toNat + n) false, codeLeaf + l)
  { st (mapped user) with xlat := kept 0 0 ++ kept (2 ^ 19) (2 ^ 19) }
def crossAt : Word := BitVec.ofNat 64 (codeBase.toNat / 2 ^ 19 * 2 ^ 19 + 2 ^ 19 - 128)
/-- A block may be loaded or stored there, in two parts of memory, computed. -/
def crosses (right : Right) : Bool :=
  match blockProbe (crossing.partProbe (grp (mapped user)) (mapped user) crossAt 64 right) (crossing.partsOf 0 crossAt 512) with
  | .ok l => l.length == 2 && !(grp (mapped user)).logged crossAt.toNat 512 && (l.all fun x => !crossing.bankBusy x.1) &&
      (l.all fun x => !crossing.moves x.1) &&
      (crossing.blockCheck ((mapped user).who false pathCore) (if right.writes then .write else .read) l).isNone
  | .error _ => false
theorem of_crosses {right : Right} (h : crosses right = true) :
    ∃ l, l.length = 2 ∧ crossing.AdmitsBlock (grp (mapped user)) (mapped user) crossAt right l := by
  unfold crosses at h
  split at h
  · rename_i l hl
    simp only [Bool.and_eq_true, Bool.not_eq_true', List.all_eq_true, Option.isNone_iff_eq_none, beq_iff_eq] at h
    exact ⟨l, h.1.1.1.1, hl, .inr h.1.1.1.2, .inr h.1.1.2, h.1.2, h.2⟩
  · cases h
theorem witness_blockParts : crossing.partsOf 0 crossAt 512 = [(0, 128), (128, 384)] ∧
    (∃ l, l.length = 2 ∧ crossing.AdmitsBlock (grp (mapped user)) (mapped user) crossAt .r l) ∧
    (∃ l, l.length = 2 ∧ crossing.AdmitsBlock (grp (mapped user)) (mapped user) crossAt .w l) ∧ crossing.olds = [] :=
  ⟨by decide +kernel, of_crosses (by decide +kernel), of_crosses (by decide +kernel), rfl⟩
theorem witness_blockBytes : (∀ right : Right, right ≠ .x → (st blocks).AdmitsBlock (grp blocks) blocks
      (inRegion (blocks.readX 5) 0) right [(.mem (scrKey 0 (8 * 16384 - 512)) 256 true none, 0, 512)]) ∧
    inRegion (blocks.readX 5) 0 = BitVec.ofNat 64 (((blocks.readX 5).toNat + 0) % 2 ^ 32) ∧
    Inv (st blocks) ∧ (st blocks).Calm (grp blocks).core ∧ (st blocks).Quiet ∧ blocks.loose = [] ∧ (st blocks).olds = [] ∧
    (st blocks).NoHead (scrKey 0 (8 * 16384 - 512)) 512 :=
  ⟨fun k h => by rw [show inRegion (blocks.readX 5) 0 = BitVec.ofNat 64 (8 * 16384 - 512) by decide +kernel]; exact admits_block k h,
    by decide +kernel, by unfold Machine.Inv; decide +kernel, calm _ _, quiet _, rfl, rfl, by simp [State.NoHead, st, State.reset]⟩
theorem witness_blockAccess : (st blocks).Acts (grp blocks) blocks ∧ blocks.loaded = none ∧ (blocks.queues.blocks[0]).length < 4 ∧
    okM ((st blocks).loadBlock (grp blocks) blocks (inRegion (blocks.readX 5) 0)) = true ∧
    okM ((st blocks).loadBlock (grp blocks) blocks (BitVec.ofNat 64 (((blocks.readX 5).toNat + 0) % 2 ^ 32))) = true ∧
    (blocks.headBlock 4).isSome = true ∧ (blocks.headBlock 5).isSome = true ∧
    okM ((st blocks).storeBlock (grp blocks) blocks (inRegion (blocks.readX 5) 0) 7) = true ∧
    okM ((st blocks).storeBlock (grp blocks) blocks (BitVec.ofNat 64 (((blocks.readX 5).toNat + 0) % 2 ^ 32)) 7) = true :=
  ⟨acts _, rfl, by decide, by decide +kernel, by decide +kernel, by decide, by decide, by decide +kernel, by decide +kernel⟩
theorem witness_queueAndHint : (st (mapped (xs user [(5, codeBase.toNat)]))).Acts (grp (mapped (xs user [(5, codeBase.toNat)])))
      (mapped (xs user [(5, codeBase.toNat)])) ∧
    isLocal (inRegion codeBase 0) = false ∧ bits (inRegion codeBase 0).toNat 63 56 ≠ 0xFE ∧
    boundsOk ((st user).boundsOf (mapped user) (bits (inRegion codeBase 0).toNat 63 56)) (inRegion codeBase 0).toNat 1 = true ∧
    (st user).translate 0 (inRegion codeBase 0).toNat = .leaf 0x1F true :=
  ⟨acts _, by decide +kernel, by decide +kernel, by decide +kernel, by decide +kernel⟩

/-! ### Witnesses: class E -/

/-- Every elementwise instruction, on v registers 7 and below of a group that declares 8, each in a legal form. -/
def elementwise : List Instr :=
  let f := short 0 7 6 5
  let f1 := short 0 7 6 0
  let i := short 3 7 6 5
  [.vadd i, .vsub (short 10 7 6 5), .vmul f, .vfma f, .vfms f, .vfnma f, .vmin f, .vmax i, .vabs f1, .vneg f1, .vabd f, .vavg f,
   .vclamp f, .vmulh i, .vadds i, .vsubs (short 9 7 6 5), .vmac i, .vcopysign f, .vdiv f, .vsqrt f1, .vrcp f1, .vrsqrt f1,
   .vexp2 f1, .vlog2 f1, .vsinp f1, .vcosp f1, .vtanh f1, .vsigm f1, .vfloor f1, .vand f, .vor f, .vxor f, .vandn f, .vnot f1,
   .vshl i, .vshr i, .vsra i, .vrot i, .vpop (short 3 7 6 0), .vclz (short 3 7 6 0), .vbsel f, .vbfx (medium 3 7 6 0 0x3FF),
   .vclass f1, .vscale f, .vmov f1]
def mapReady (c : Ctx) (i : Instr) : Bool :=
  match mapRule i with
  | some (op, e0, _) => eOk op e0 && readyAB (st c) (grp c) c op e0 one3 anyAB
  | none => false
theorem of_mapReady {c : Ctx} {i : Instr} (h : mapReady c i = true) : ∃ op e0 e sh f s1 a b, (st c).Acts (grp c) c ∧
    mapRule i = some (op, e0, f) ∧ EReady (grp c) c op e0 one3 sh e ∧
    readAB (st c) (grp c) c sh e (c.srcTy sh e) = .ok s1 (a, b) := by
  unfold mapReady at h
  split at h
  · rename_i op e0 f hm
    rw [Bool.and_eq_true] at h
    obtain ⟨sh, e, s1, a, b, hr, hab, -⟩ := of_readyAB h.2
    exact ⟨op, e0, e, sh, f, s1, a, b, acts c, hm, hr, hab⟩
  · cases h
theorem elementwise_ready : elementwise.all (mapReady user) = true ∧ elementwise.length = 45 := by decide +kernel
theorem witness_elementwiseResult : ∀ i ∈ elementwise, ∃ op e0 e sh f s1 a b, (st user).Acts (grp user) user ∧
    mapRule i = some (op, e0, f) ∧ EReady (grp user) user op e0 one3 sh e ∧
    readAB (st user) (grp user) user sh e (user.srcTy sh e) = .ok s1 (a, b) :=
  fun i hi => of_mapReady (List.all_eq_true.1 elementwise_ready.1 i hi)
theorem witness_integerElements : (mapRule (.vadds (short 6 7 6 5))).isSome = true ∧ 4 ∈ [4, 8, 16, 32] ∧ 15 < 2 ^ 4 ∧
    (intRule 0x51 0 true 4 0 7 7).isSome = true ∧ (intRule 0x55 0 true 32 0 (2 ^ 31) (2 ^ 32 - 1)).isSome = true ∧
    (intRule 0x6C (28 + 32 * 8) true 32 0 (2 ^ 31) 0).isSome = true ∧ (intRule 0x6A 0 false 4 0 0 0).isSome = true := by decide
theorem witness_elementWritten : (4 : Nat) ∈ [4, 8, 16, 32] ∧
    ((List.range 1024).map fun p => if p < 1023 then none else some 15).length = 4096 / 4 ∧
    ∀ v, some v ∈ ((List.range 1024).map fun p => if p < 1023 then none else some 15) → v < 2 ^ 4 := by
  refine ⟨by decide, by simp, ?_⟩
  intro v hv
  simp only [List.mem_map] at hv
  obtain ⟨p, -, hp⟩ := hv
  split at hp <;> cases hp
  decide
/-- k7 at the last block of scratch. -/
def pointing : Ctx := ks { user with queues := { Queues.empty with blocks := Vector.replicate 6 [{ data := 7, stamp := 0 }] } }
  [(7, 8 * 16384 - 512 + 0xFE00 * 2 ^ 32)]
theorem witness_vectorSources : (st pointing).Acts (grp pointing) pointing ∧ (12 : BitVec 4).toNat = 9 + (3 : Fin 6).val ∧
    (8 : BitVec 4).toNat = 1 + (7 : BitVec 3).toNat ∧ pointing.loose = [] ∧
    okE ((st pointing).spotE (grp pointing) pointing (pointing.kAddr 7) 512 64 .read) = true ∧
    placeLocal (grp pointing) (pointing.kAddr 7) 512 = some (.mem (scrKey 0 (8 * 16384 - 512)) 256 true none) ∧
    (st pointing).SrcReady (grp pointing) pointing 0 0 ∧ (st pointing).SrcReady (grp pointing) pointing 8 0 ∧
    (st pointing).SrcReady (grp pointing) pointing 12 0 := by
  refine ⟨acts _, rfl, rfl, rfl, by decide +kernel, by decide +kernel, .inl rfl, .inr (.inl ?_), .inr (.inr ⟨3, rfl, by decide +kernel⟩)⟩
  have ⟨p, h⟩ := of_okE (r := (st pointing).spotE (grp pointing) pointing (pointing.kAddr 7) 512 64 .read) (by decide +kernel)
  exact ⟨7, p, rfl, h⟩
/-- A register past the count, an FMT register that is not valid, a queue that is empty, a pointer that is no multiple of 64. -/
def looping : Ctx := { user with rep := some { body := 0, seq := 0, n := 1, count := 2, stride := 1, pass := 1, idx := 0 } }
def sourceOf (c : Ctx) (e0 : EArgs) : Option Nat :=
  match eShape 0x40 with
  | none => none
  | some sh =>
    match readAB (st c) (grp c) c sh (c.passArgs sh e0) (c.srcTy sh e0) with
    | .ok .. => some 0 | .wait .. => some 1 | .trap cause _ => some (2 + cause)
theorem witness_elementwiseTraps :
    user.fmtsOk (arith2 tyAll) (long 11 0 0 0 0 0 15 15 0) = false ∧
    (looping.rep.isSome = true ∧ eOk 0x40 (looping.passArgs (arith2 tyAll) (short 12 0 0 0)) = false) ∧
    (user.fmtsOk (arith2 tyAll) (short 0 8 0 0) = true ∧ regsOk (grp user) (arith2 tyAll) (short 0 8 0 0) 1 1 1 = false) ∧
    (ready (grp user) user 0x40 (long 0 7 0 0 0 9 0 0 0) one3 = true ∧ sourceOf user (long 0 7 0 0 0 9 0 0 0) = some 1) ∧
    (ready (grp (ks user [(7, 32)])) (ks user [(7, 32)]) 0x40 (long 0 7 0 0 8 0 0 0 0) one3 = true ∧
      sourceOf (ks user [(7, 32)]) (long 0 7 0 0 8 0 0 0 0) = some (2 + 0x15)) := by decide +kernel
theorem witness_wideResult : readyAB (st user) (grp user) user 0x4D (short 4 6 5 4) (fun _ _ => (2, 1, 1)) anyAB = true ∧
    readyAB (st user) (grp user) user 0x4E (short 6 6 5 4) (fun _ _ => (2, 1, 1)) anyAB = true ∧
    readyAB (st user) (grp user) user 0x4F (short 5 7 6 5) one3 anyAB = true := by decide +kernel
theorem witness_compareResult : readyAB (st user) (grp user) user 0x70 (short 2 7 6 5) one3 (fun sh e a b =>
    a.length == 4096 / (user.srcTy sh e).w && b.length == a.length && 4 ≤ (user.srcTy sh e).w && (user.srcTy sh e).w ≤ 32) = true ∧
    readyAB (st user) (grp user) user 0x70 (medium 7 7 6 5 10) one3 (fun sh e a b =>
    a.length == 4096 / (user.srcTy sh e).w && b.length == a.length && (user.srcTy sh e).w == 4) = true := by decide +kernel
theorem witness_guardResult : ([0x72, 0x73, 0x74].all fun op => ready (grp user) user op (short 0 7 6 5) one3) = true ∧
    ([0x75, 0x76, 0x78].all fun op => ready (grp user) user op (short 0 7 6 0) one3) = true ∧
    ready (grp user) user 0x79 (medium 0 7 0 0 128) one3 = true ∧ ready (grp user) user 0x77 (short 0 0 7 0) one3 = true := by
  decide +kernel
/-- Descriptors by R31: a sign bit, three exponent and two mantissa bits, bias 3, subnormals, with block scales as given. -/
def fmtWord (bscale : Nat) : Word := BitVec.ofNat 64 (1 + 3 * 2 + 2 * 2 ^ 4 + 3 * 2 ^ 8 + 2 ^ 18 + bscale * 2 ^ 20)
/-- FMT1 without block scales, FMT2 with one for each 16 elements; a word in q7. -/
def formats : Ctx :=
  let c : Csrs := { user.csr with fmt := (user.csr.fmt.set 1 (fmtWord 0)).set 2 (fmtWord 2) }
  { user with csr := c, queues := { Queues.empty with q7 := [{ data := 7, stamp := 0 }] } }
def readyWith (op : Nat) (e0 : EArgs) (sizes : Ctx → EArgs → Nat × Nat × Nat) (p : EShape → EArgs → Bool) : Bool :=
  ready (grp formats) formats op e0 sizes && match eShape op with | some sh => p sh (formats.passArgs sh e0) | none => false
theorem witness_convertResult : (st formats).Acts (grp formats) formats ∧
    -- f32 to bf16 with stochastic words
    readyWith 0x80 (medium 5 7 6 5 0x10) (fun c e => match eShape 0x80 with
      | some sh => (1, 1, uRegs (4096 / max (c.srcTy sh e).w (c.dstTy sh e).w)) | none => (0, 0, 0)) (fun sh e =>
      uOk e (min (4096 / (formats.srcTy sh e).w) (4096 / (formats.dstTy sh e).w)) && okS ((st formats).vSrc (grp formats) formats e.asrc e.a) &&
        okS (readU (st formats) (grp formats) formats e 128 (formats.srcTy sh e).w)) = true ∧
    -- i8 to i32, into four registers
    readyWith 0x81 (medium 0 4 7 0 0x35) (fun c e => match eShape 0x81 with
      | some sh => (max 1 (widthRatio (c.dstTy sh e).w (c.srcTy sh e).w), 1, 1) | none => (0, 0, 0)) (fun sh e =>
      widthRatio (formats.dstTy sh e).w (formats.srcTy sh e).w == 4 && e.d.toNat % 4 == 0) = true ∧
    -- i32 to i16 from a pair
    readyWith 0x82 (medium 0 7 6 0 0x43) (fun c e => match eShape 0x82 with
      | some sh => (1, max 1 (widthRatio (c.srcTy sh e).w (c.dstTy sh e).w), uRegs (4096 / (c.dstTy sh e).w)) | none => (0, 0, 0))
      (fun sh e => widthRatio (formats.srcTy sh e).w (formats.dstTy sh e).w == 2 && e.a.toNat % 2 == 0 && uOk e 256 &&
        okS (readU (st formats) (grp formats) formats e 256 32)) = true := by
  refine ⟨acts _, ?_, ?_, ?_⟩ <;> decide +kernel
theorem witness_packResult :
    (match formats.ty 11 1 with | .f x => x.width == 6 | _ => false) = true ∧
    ready (grp formats) formats 0x83 (long 11 7 6 0 0 0 1 1 0) one3 = true ∧
    ready (grp formats) formats 0x84 (long 11 7 6 0 0 0 1 1 0) one3 = true ∧
    ready (grp formats) formats 0x86 (long 0 7 6 0 0 0 0 2 0) one3 = true ∧ bscaleOf (fmtWord 2).toNat = 2 ∧
    formats.queues.full 6 = false ∧ ready (grp formats) formats 0x87 (short 0 15 7 0) one3 = true ∧
    okS ((st formats).vSrc (grp formats) formats 0 6) = true := by decide +kernel
theorem witness_moveResult : (st formats).Acts (grp formats) formats ∧
    ready (grp formats) formats 0x91 (long 5 7 0 0 0 0 0 0 255) one3 = true ∧
    ready (grp formats) formats 0x9C (medium 3 7 0 0 (BitVec.ofInt 23 (-1))) one3 = true ∧
    readyAB (st formats) (grp formats) formats 0x92 (short 7 7 6 5) one3 anyAB = true ∧
    readyAB (st formats) (grp formats) formats 0x95 (short 0 7 6 5) one3 anyAB = true ∧
    ready (grp formats) formats 0x9E (short 0 7 0 0) one3 = true ∧ ready (grp formats) formats 0x9B (short 7 7 0 0) one3 = true ∧
    ready (grp formats) formats 0x94 (medium 0 7 0 0 127) one3 = true ∧ ready (grp formats) formats 0x93 (medium 0 0 7 0 127) one3 = true ∧
    okS ((st formats).q7Src (grp formats) formats) = true ∧ ((st formats).ctxOf (grp formats) formats).queues.full 6 = false := by
  refine ⟨acts _, ?_⟩; decide +kernel
theorem witness_rearrangeResult : (st user).Acts (grp user) user ∧ (st user).SrcReady (grp user) user 0 6 ∧
    ([0x96, 0x97].all fun op => ready (grp user) user op (short 0 7 6 0) one3) = true ∧
    ([0x98, 0x99].all fun op => ready (grp user) user op (short 0 7 6 2) one3) = true ∧
    ready (grp user) user 0x9A (medium 0 6 5 0 128) (fun _ _ => (2, 1, 1)) = true ∧
    ready (grp user) user 0x9D (short 0 4 7 0) one3 = true ∧ user.queues.full 4 = false := by
  refine ⟨acts _, .inl rfl, ?_⟩; decide +kernel
theorem witness_elementwiseFrame : mapReady user (.vadd (short 0 7 6 5)) = true ∧ (short 0 7 6 5).asrc = 0 ∧
    (short 0 7 6 5).bsrc = 0 ∧ (st user).Calm 0 ∧ user.lag = [] := ⟨by decide +kernel, rfl, rfl, calm _ _, rfl⟩
/-- Lanes 0, 1, ... of v5 hold 4 times their number; lane 1 of v4 holds 2, and of v3 and v2 an address in the window and one past
scratch. -/
def lanes : Ctx :=
  vs user [(5, (List.range 128).map fun i => 4 * i), (4, [0, 2]), (3, [0, 0x00200000]), (2, [0, 8 * 16384])]
/-- What the lane addresses of a form come to: 0 good, else 1 plus the cause. -/
def laneCause (c : Ctx) (reg : BitVec 5) : Nat :=
  match (st c).vSrc (grp c) c 0 reg with
  | .ok s1 bv =>
    (match lanesOf (grp c) (c.guard (short 0 0 0 0)) 0 (blockElems 32 bv).zipIdx with
     | .ok l => (match s1.lanesCheck c .read 0 (blockElems 32 bv) l, s1.lanesCheck c .write 0 (blockElems 32 bv) l with
       | none, none => 0 | _, _ => 99)
     | .error (cause, _) => 1 + cause)
  | _ => 99
theorem witness_scratchResult : (st lanes).Acts (grp lanes) lanes ∧ ready (grp lanes) lanes 0xA1 (short 0 0 7 0) one3 = true ∧
    lanes.queues.q6.length < 16 ∧
    (ready (grp lanes) lanes 0xA2 (short 0 7 7 0) one3 = true ∧ okS ((st lanes).kRead (grp lanes) lanes 7) = true) ∧
    (ready (grp lanes) lanes 0xA3 (short 0 7 6 0) one3 = true ∧
      okS ((st lanes).kWrite (grp lanes) lanes 7 (lanes.guard (short 0 7 6 0)) 5) = true) ∧
    (ready (grp lanes) lanes 0xA4 (short 0 7 1 5) one3 = true ∧ lanes.loose = [] ∧ (st lanes).olds = [] ∧ laneCause lanes 5 = 0) ∧
    readyAB (st lanes) (grp lanes) lanes 0xA5 (short 0 1 6 5) one3 anyAB = true := by
  refine ⟨acts _, ?_⟩; decide +kernel
/-- LaneTrap, computed, with the lane whose address it names. -/
def trapsAt (g : Machine.Group) (gd : Guard) (b : List Nat) (cause la i : Nat) : Bool :=
  let adr := fun (k : Nat) => (0 + b.getD k 0) % 2 ^ 32
  let scratch := fun (x : Nat) => decide (x + 4 ≤ 16384 * g.scratch)
  let window := fun (x : Nat) => decide (0x00200000 ≤ x) && decide (x < 0x00258000)
  let odd := fun (x : Nat) => decide (x % 4 ≠ 0)
  let win := fun (x : Nat) => !scratch x && window x
  let out := fun (x : Nat) => !scratch x && !window x && !(decide (0x01000000 ≤ x) && decide (x < 0x01400000))
  let on := fun (k : Nat) => decide (k < b.length) && gd.getLsbD k
  let low := fun (f : Nat → Bool) => on i && f (adr i) && decide (la = adr i) && (List.range i).all fun j => !on j || !f (adr j)
  let free := fun (f : Nat → Bool) => (List.range b.length).all fun j => !on j || !f (adr j)
  (decide (cause = 0x15) && low odd) || (decide (cause = 0x05) && (free odd && low win)) ||
    (decide (cause = 0x12) && (free (fun x => odd x || win x) && low out))
theorem of_trapsAt {g : Machine.Group} {gd : Guard} {b : List Nat} {cause la i : Nat} (h : trapsAt g gd b cause la i = true) :
    LaneTrap g gd 0 b cause la := by
  simp only [trapsAt, Bool.or_eq_true, Bool.and_eq_true, Bool.not_eq_true', Bool.or_eq_false_iff, Bool.and_eq_false_iff,
    decide_eq_true_eq, decide_eq_false_iff_not, List.all_eq_true, List.mem_range] at h
  rcases h with (⟨h1, h2⟩ | ⟨h1, h3, h2⟩) | ⟨h1, h3, h2⟩
  · refine .inl ⟨h1, i, h2.1.1.1, h2.1.1.2, h2.1.2, fun j hj hn => ?_⟩
    have := h2.2 j hj
    rcases this with h | h
    · exact absurd h (by simp [hn])
    · exact h
  · refine .inr (.inl ⟨h1, fun j hn => ?_, i, h2.1.1.1, ⟨h2.1.1.2.1, h2.1.1.2.2⟩, h2.1.2, fun j hj hn hw => ?_⟩)
    · rcases h3 j hn.1 with h | h
      · exact absurd h (by simp [hn])
      · exact h
    · rcases h2.2 j hj with h | h
      · exact absurd h (by simp [hn])
      · obtain ⟨a1, a2, a3⟩ := hw
        rcases h with h | h | h
        · exact a1 (of_decide_eq_true (by simpa using h))
        · exact h a2
        · exact h a3
  · refine .inr (.inr ⟨h1, fun j hn => ?_, i, h2.1.1.1, ?_, h2.1.2, fun j hj hn hw => ?_⟩)
    · rcases h3 j hn.1 with h | h
      · exact absurd h (by simp [hn])
      · refine ⟨h.1, fun ⟨a1, a2, a3⟩ => ?_⟩
        rcases h.2 with h | h | h
        · exact a1 (of_decide_eq_true (by simpa using h))
        · exact h a2
        · exact h a3
    · obtain ⟨⟨a1, a2⟩, a3⟩ := h2.1.1.2
      refine ⟨a1, fun ⟨x, y⟩ => ?_, fun ⟨x, y⟩ => ?_⟩
      · rcases a2 with h | h
        · exact h x
        · exact h y
      · rcases a3 with h | h
        · exact h x
        · exact h y
    · rcases h2.2 j hj with h | h
      · exact absurd h (by simp [hn])
      · obtain ⟨a1, a2, a3⟩ := hw
        rcases h with (h | h) | h
        · exact a1 (of_decide_eq_true (by simpa using h))
        · exact a2 (by simpa using h)
        · exact a3 (by simpa using h)
theorem witness_laneTraps :
    LaneTrap (grp lanes) (BitVec.allOnes 128) 0 (blockElems 32 (lanes.readV 4)) 0x15 2 ∧
    LaneTrap (grp lanes) (BitVec.allOnes 128) 0 (blockElems 32 (lanes.readV 3)) 0x05 0x00200000 ∧
    LaneTrap (grp lanes) (BitVec.allOnes 128) 0 (blockElems 32 (lanes.readV 2)) 0x12 (8 * 16384) ∧
    okS ((st lanes).vSrc (grp lanes) lanes 0 4) = true ∧
    ready (grp lanes) lanes 0xA4 (short 0 7 1 4) one3 = true ∧
    readyAB (st lanes) (grp lanes) lanes 0xA5 (short 0 1 6 3) one3 anyAB = true := by
  refine ⟨of_trapsAt (i := 1) ?_, of_trapsAt (i := 1) ?_, of_trapsAt (i := 1) ?_, ?_, ?_, ?_⟩ <;> decide +kernel
/-- A body at 8 past the rep: memory of zeros decodes to `nop`, and a vadd follows. -/
def body (w : Nat) : State :=
  let s := st (mapped user)
  s.wrBytes (hbm (physOf codeLeaf.toNat codeBase.toNat true + 8)) (bytesOfNat 4 w)
/-- What the look at a rep's body comes to: 0 clear, 1 an instruction that may not stand there and where, 2 a page, 3 a wait. -/
def scans (s : State) : Nat × Word :=
  match s.repScan (grp (mapped user)) (mapped user) repFuel 1 2 (inRegion codeBase 8) with
  | .clear => (0, 0) | .bad pc => (1, pc) | .page _ va _ => (2, BitVec.ofNat 64 va) | .busy .. => (3, 0)
/-- The same with no page mapped, and with the page in a bank of the weight store that refreshes. -/
def bodyUnmapped : State := { body 0x100 with xlat := [], vfs := [(0, { Vf.fresh with block := BitVec.ofNat 1024 0x8000 })] }
def bodyWeight : State := { body 0x100 with xlat := (List.range 256).map fun k => (k, keptName codeBase.toNat true, codeLeaf + 2 ^ 16) }
theorem witness_repResult : (body 0x100).Acts (grp (mapped user)) (mapped user) ∧
    (1 ≤ (16 : BitVec 5).toNat ∧ (16 : BitVec 5).toNat ≤ 16 ∧ 1 ≤ (4096 : BitVec 13).toNat ∧ (4096 : BitVec 13).toNat ≤ 4096) ∧
    ¬ (1 ≤ (17 : BitVec 5).toNat ∧ (17 : BitVec 5).toNat ≤ 16) ∧ scans (body 0x100) = (0, 0) ∧
    scans (body 0x081) = (1, inRegion codeBase 8) ∧ scans bodyUnmapped = (2, inRegion codeBase 8) ∧ scans bodyWeight = (3, 0) := by
  refine ⟨acts_iff.2 ⟨rfl, rfl, rfl, rfl, rfl⟩, by decide, by decide, ?_, ?_, ?_, ?_⟩ <;> decide +kernel
theorem witness_repCounts : looping.rep.isSome = true ∧
    ∃ r : Rep, ({ looping with rep := some r } : Ctx).rep = some r ∧ r.pass = 0 ∧ r.idx = 0 ∧ 0 < r.n ∧ 0 < r.count ∧ 8 ≤ r.n * r.count :=
  ⟨rfl, { body := 0, seq := 0, n := 2, count := 4, stride := 0, pass := 0, idx := 0 }, rfl, rfl, rfl, by decide, by decide, by decide⟩
/-- A context has made an xfence from path CORE to every path (R289), so that engines and TEX may read what no agent has written. -/
def fenced (c : Ctx) : State := { st c with fences := [{ src := 1, dst := 0xFF, sync := c.sync, rel := 0, tick := 0, stamp := 0 }] }
/-- Its execute stream is ordered after that. -/
def seeing : Ctx := { user with accA := 1, seenA := 1 }
/-- A command that waits in an engine's queue. -/
def waitingJob : Job := { Job.new 9 (.zclr 3) 0 0 (some 1) 0 0 with id := 65 }
theorem witness_tileTextureCoverage : (st user).Acts (grp user) user ∧
    (ready (grp user) user 0xA7 (short 0 7 3 0) one3 = true ∧ (grp user).tiles[(3 : BitVec 5).toNat]? = some 3 ∧
      (3 : BitVec 5).toNat < kAcc (grp user).kobj ∧ (st user).tilePending (grp user) 3 = false ∧ user.queues.q6.length < 16) ∧
    (ready (grp user) user 0xA8 (short 0 3 0 0) one3 = true ∧ ready (grp user) user 0xA8 (medium 1 3 7 0 127) one3 = true ∧
      (st user).mayEnter 0 .mxe (grp user) (askedAt user.askE 0 .mxe) = true ∧
      ((st user).setJobs 0 .mxe (List.replicate 32 waitingJob)).mayEnter 0 .mxe (grp user) (askedAt user.askE 0 .mxe) = false) ∧
    ((fenced seeing).Acts (grp seeing) seeing ∧ readyAB (fenced seeing) (grp seeing) seeing 0xA9 (medium 0 6 5 4 0) (fun _ _ => (2, 1, 1)) (fun _ e a b =>
      match (fenced seeing).texRead (grp seeing) seeing 0 with
      | .ok (s2, desc) => okE (s2.texLanes (grp seeing) seeing (seeing.guard e) (texDesc desc) 0 ((a.zip b).zipIdx.map fun y => (y.1.1, y.1.2, y.2)))
      | .error _ => false) = true) ∧
    readyAB (st user) (grp user) user 0xAA (short 1 7 6 0) one3 anyAB = true := by
  refine ⟨acts _, ?_, ?_, ⟨acts_iff.2 ⟨rfl, rfl, rfl, rfl, rfl⟩, ?_⟩, ?_⟩ <;> decide +kernel

/-! ### Witnesses: class X -/

theorem witness_atomicMemory : Inv (st atEnd) ∧ (st atEnd).Calm 0 ∧ (st atEnd).Quiet ∧ (st atEnd).NoHead (scrKey 0 (8 * 16384 - 8)) 8 ∧
    atEnd.loose = [] ∧ (atomRule (.amo .add true) 1 0).isSome = true ∧ (atomRule (.cas false 1) 1 0).isNone = true ∧
    (atomRule (.wacc 0) 1 0).isSome = true :=
  ⟨by unfold Machine.Inv; decide +kernel, calm _ _, quiet _, by simp [State.NoHead, st, State.reset], rfl, by decide, by decide, by decide⟩
theorem witness_atomicResult : (st atEnd).Acts (grp atEnd) atEnd ∧ (st atEnd).GateOpen (grp atEnd) atEnd ∧
    okM ((st atEnd).atomicA (grp atEnd) atEnd (atEnd.readX 5) 8 .rw (.amo .add true) 1 true true none) = true ∧
    okM ((st atEnd).atomicA (grp atEnd) atEnd (atEnd.readX 5) 8 .rw (.cas true 7) 1 false true none) = true ∧
    okM ((st atEnd).atomicA (grp atEnd) atEnd (atEnd.readX 5) 4 .rw (.amo .max false) 1 true false (some .pk)) = true ∧
    okM ((st atEnd).atomicA (grp atEnd) atEnd (atEnd.readX 5) 4 .rw (.cas false 0) 1 true false (some .co)) = true ∧
    okM ((st atEnd).atomicA (grp atEnd) atEnd (atEnd.readX 5 - 8) 16 .rw (.wacc (-8)) 1 true true none) = true ∧
    okM ((st atEnd).atomicA (grp atEnd) atEnd (inRegion (atEnd.readX 5) 0) 8 .w (.release .pk 1) 1 true false (some .pk)) = true ∧
    okM ((st atEnd).loadA (grp atEnd) atEnd (inRegion (atEnd.readX 5) 0) 8 8 .atomic) = true ∧
    ((st atEnd).varAt (grp atEnd) atEnd (inRegion (atEnd.readX 5) 0) 8).isSome = true := by
  refine ⟨acts _, gate _ rfl, ?_⟩; decide +kernel
theorem witness_fenceResult : (st user).Acts (grp user) user ∧ (st user).GateOpen (grp user) user := ⟨acts _, gate _ rfl⟩
/-- A context that has arrived once at .co and at .ln, and waits for phase 0, which is complete. -/
def arrived (w : Option (Scope × Nat)) : Ctx := { user with arrCo := 1, arrLn := 1, barWait := w }
def phased (w : Option (Scope × Nat)) (complete : Nat) : State :=
  { st (arrived w) with barriers := [{ id := .co 1, complete := complete, arrivals := [] }] }
theorem witness_barrierResult :
    (phased (some (.co, 0)) 1).Acts (grp (arrived (some (.co, 0)))) (arrived (some (.co, 0))) ∧
    (phased none 1).Acts (grp (arrived none)) (arrived none) ∧
    ((arrived none).readX 2).toNat < (arrived none).arrLn ∧ (phased none 1).barIdOf (grp (arrived none)) .co = some (.co 1) ∧
    (phased none 1).barIdOf (grp (arrived none)) .cl = some (.cl 1 0) ∧ (arrived none).num = 0 ∧
    (arrived (some (.co, 0))).barWait = some (.co, 0) ∧ 0 < ((phased (some (.co, 0)) 1).barrier (.co 1)).complete ∧
    (arrived none).barWait = none ∧ (phased none 1).GateOpen (grp (arrived none)) (arrived none) ∧
    ¬ arrivals (grp (arrived none)) (arrived none) .co < ((phased none 1).barrier (.co 1)).complete ∧
    ((arrived none).readX 2).toNat < arrivals (grp (arrived none)) (arrived none) .co ∧
    ((arrived none).readX 2).toNat < ((phased none 1).barrier (.co 1)).complete :=
  ⟨acts_iff.2 ⟨rfl, rfl, rfl, rfl, rfl⟩, acts_iff.2 ⟨rfl, rfl, rfl, rfl, rfl⟩, by decide, rfl, rfl, rfl, rfl, by decide, rfl,
    ⟨rfl, by simp [grp]⟩, by decide, by decide, by decide⟩
/-- Line 63 in x5, core 0 or one past the last in x6, a line number of 63 or 64 in x7 and x8. -/
def lines : Ctx := xs user [(5, 2 ^ 63), (6, 2048), (7, 63), (8, 64)]
theorem witness_eventLineResult : (st lines).Acts (grp lines) lines ∧ lines.readX 0 = 0 ∧ lines.readX 5 ≠ 0 ∧
    (((st lines).core (grp lines).core).pending ||| lines.evGot) &&& lines.readX 5 = 0 ∧
    (({ st lines with cores := [(0, { Core.fresh with pending := BitVec.ofNat 64 (2 ^ 63) })] }.core (grp lines).core).pending |||
      lines.evGot) &&& lines.readX 5 ≠ 0 ∧
    (lines.readX 7).toNat < 64 ∧ (lines.readX 0).toNat ≤ 2047 ∧ (st lines).groupOn? (lines.readX 0).toNat = some (grp lines) ∧
    (grp lines).vf = 0 ∧ lines.drained = true ∧ 2047 < (lines.readX 6).toNat ∧ (st lines).groupOn? 1 = none :=
  ⟨acts _, by decide, by decide, by decide, by decide, by decide, by decide, rfl, rfl, rfl, by decide, rfl⟩
/-- A launch of function 0 of some kind, number 1. -/
def job (kind : Nat) : Launch :=
  { id := 1, vf := 0, record := 0, queueDie := 0, cls := 2, kind := kind, ladder := [(grp user).kobj], kptrs := [0], stages := [], ranges := [],
    rung := 0, lowest := 0, overrunDue := false, overruns := 0, next := 1, started := [], retired := [], alive := 1, taken := 0,
    treeStatus := none, treeRunning := false, delayed := false, acq := [], agents := [1], placed := 0, beyond := false,
    deadline := 0, src := 0 }
/-- A counter of one at the start of scratch, whose address is 0 in x2; a launch of a kind. -/
def counting (kind : Nat) : State := { (st user).wr (scrKey 0 0) 4 1 with launches := [job kind] }
theorem admitsX_of {s : State} {g : Machine.Group} {c : Ctx} {ea : Word} {n : Nat} {right : Right} {kind : Kind} {w : Who} {key : Nat}
    (h1 : s.probeX g c ea n right = .at (.mem key 256 true none)) (h2 : isLocal ea = true)
    (h3 : s.checkSpot w kind (.mem key 256 true none) n = none) :
    s.AdmitsX g c ea n right kind w (.mem key 256 true none) key :=
  ⟨h1, ⟨_, _, _, rfl⟩, .inl h2, rfl, h3⟩
theorem witness_counterResult : (counting 0).Acts (grp user) user ∧ (counting 0).GateOpen (grp user) user ∧
    (∀ right ∈ [Right.rw, .w], (counting 0).AdmitsX (grp user) user (user.readX 2) 16 right .atomic (user.release.who false pathCore)
      (.mem (scrKey 0 0) 256 true none) (scrKey 0 0)) ∧
    ((counting 0).tried (grp user) user (user.readX 2) 16 16 .rw).rd (scrKey 0 0) 4 ≠ 0 ∧
    ((st user).tried (grp user) user (user.readX 2) 16 16 .rw).rd (scrKey 0 0) 4 = 0 ∧
    (counting 0).launch? (grp user).launch = some (job 0) ∧ (counting 2).launch? (grp user).launch = some (job 2) ∧
    (grp user).tileRetired = false := by
  refine ⟨acts_iff.2 ⟨rfl, rfl, rfl, rfl, rfl⟩, ⟨rfl, by simp [grp]⟩, fun right hr => ?_, ?_, ?_, rfl, rfl, rfl⟩
  · rcases List.mem_cons.1 hr with rfl | hr
    · refine admitsX_of ?_ rfl ?_ <;> decide +kernel
    · rcases List.mem_cons.1 hr with rfl | hr
      · refine admitsX_of ?_ rfl ?_ <;> decide +kernel
      · cases hr
  all_goals decide +kernel
/-- The tag at the start of scratch in a state of R68. -/
def slotAt (n : Nat) : State := (st user).wr (scrKey 0 0) 1 n
theorem witness_slotResult : (slotAt 3).Acts (grp user) user ∧ (slotAt 3).GateOpen (grp user) user ∧
    (∀ w ∈ [user, user.release], (slotAt 3).AdmitsX (grp user) user (user.readX 2) 1 .rw .tag (w.who false pathCore)
      (.mem (scrKey 0 0) 256 true none) (scrKey 0 0)) ∧
    ([0, 1, 2, 3].all fun n => ((slotAt n).tried (grp user) user (user.readX 2) 1 1 .rw).rd (scrKey 0 0) 1 % 4 == n) = true ∧
    user.drained = true := by
  refine ⟨acts_iff.2 ⟨rfl, rfl, rfl, rfl, rfl⟩, ⟨rfl, by simp [grp]⟩, fun w hw => ?_, ?_, rfl⟩
  · rcases List.mem_cons.1 hw with rfl | hw
    · refine admitsX_of ?_ rfl ?_ <;> decide +kernel
    · rcases List.mem_cons.1 hw with rfl | hw
      · refine admitsX_of ?_ rfl ?_ <;> decide +kernel
      · cases hw
  decide +kernel

/-- A context with a key's pointer in x5, in a group that holds or reserves these keys. -/
def keyed : Ctx := mapped (xs user [(5, codeBase.toNat)])
def keyAt : Nat := hbm (physOf codeLeaf.toNat codeBase.toNat true)
def keyGroup (l : List Key) (closed : Bool) : Machine.Group := { grp keyed with keys := l, closed := closed }
def keyState (l : List Key) (closed : Bool) (holder : Option Nat) : State :=
  { st keyed with groups := [keyGroup l closed], keys := [(keyAt, { holder := holder, abandoned := true, waiting := [] })] }
def aKey : Key := { key := keyAt, ptr := codeBase, held := false }
/-- What an ordent comes to: whether its group is the key's holder then. -/
def grants (l : List Key) (closed : Bool) (holder : Option Nat) : Bool :=
  let g := keyGroup l closed
  let s0 := (keyState l closed holder).tried g keyed (keyed.readX 5) 4 4 .w
  let s2 := (if g.reserves keyAt then s0 else s0.reserve g.id keyAt (keyed.readX 5)).updGroup g.id fun x => { x with closed := true }
  let s3 := (if (s2.keySt keyAt).holder = some g.id ∨ g.id ∈ (s2.keySt keyAt).waiting then s2
    else s2.updKey keyAt fun x => { x with waiting := x.waiting ++ [g.id] }).grantKey keyAt
  (s3.keySt keyAt).holder == some g.id
theorem key_translate (l : List Key) (closed : Bool) (holder : Option Nat) (v a : Nat) :
    (keyState l closed holder).translate v a = (st keyed).translate v a := rfl
theorem key_found (l : List Key) (closed : Bool) (holder : Option Nat) (r : State → Nat → Act) :
    withKey (keyState l closed holder) (keyGroup l closed) keyed (keyed.readX 5) r =
      r ((keyState l closed holder).tried (keyGroup l closed) keyed (keyed.readX 5) 4 4 .w) keyAt := by
  have h1 : (keyed.readX 5).toNat % 4 = 0 := by decide +kernel
  have h2 : bits (keyed.readX 5).toNat 63 56 = 1 := by decide +kernel
  have h3 : (keyState l closed holder).boundsOf keyed 1 = codeEntry := rfl
  have h4 : boundsOk codeEntry (keyed.readX 5).toNat 4 = true := by decide +kernel
  have h5 : Right.bound codeEntry .w = true := by decide +kernel
  have h6 : (keyState l closed holder).translate (keyGroup l closed).vf (keyed.readX 5).toNat = .leaf 0x1F true := by
    rw [key_translate]
    exact (by decide +kernel : (st keyed).translate 0 (keyed.readX 5).toNat = .leaf 0x1F true)
  unfold withKey
  simp only [h1, h2, h3, h4, h5, h6]
  rfl
theorem witness_sectionResult : (keyState [] false none).Acts (keyGroup [] false) keyed ∧
    (keyState [aKey] true none).Acts (keyGroup [aKey] true) keyed ∧
    (keyGroup [] false).noKey = false ∧ (keyGroup [] true).noKey = true ∧ keyed.drained = true ∧
    grants [aKey] true none = true ∧ grants [] false none = true ∧ grants [aKey] true (some 9) = false ∧
    (keyGroup [aKey] true).holds keyAt = false ∧ (keyGroup [] false).reserves keyAt = false ∧
    (keyGroup [aKey] true).reserves keyAt = true ∧
    ((keyState [aKey] true none).tried (keyGroup [aKey] true) keyed (keyed.readX 5) 4 4 .w).GateOpen (keyGroup [aKey] true) keyed := by
  refine ⟨acts_iff.2 ⟨rfl, rfl, rfl, rfl, rfl⟩, acts_iff.2 ⟨rfl, rfl, rfl, rfl, rfl⟩, rfl, rfl, rfl, ?_, ?_, ?_, ?_, ?_, ?_,
    ⟨rfl, by simp [keyGroup, grp]⟩⟩ <;> decide +kernel
/-- What an ordent that waits for its grant comes to: its check of the reservation is not made again (R273). -/
def enteringCtx : Ctx := { keyed with entering := some keyAt }
def entered (holder : Option Nat) : Bool :=
  let s2 := (keyState [] false holder).updGroup 1 fun x => { x with closed := true }
  let s3 := (if (s2.keySt keyAt).holder = some 1 ∨ 1 ∈ (s2.keySt keyAt).waiting then s2
    else s2.updKey keyAt fun x => { x with waiting := x.waiting ++ [1] }).grantKey keyAt
  (s3.keySt keyAt).holder == some 1
theorem witness_sectionWaits : keyed.entering = none ∧ enteringCtx.entering = some keyAt ∧
    (let g := { keyGroup [] true with ctxs := [enteringCtx] }
     ({ keyState [] true none with groups := [g] }).Acts g enteringCtx ∧ g.reserves keyAt = false ∧ g.noKey = true) ∧
    entered none = true ∧ entered (some 9) = false := by
  refine ⟨rfl, rfl, ⟨acts_iff.2 ⟨rfl, rfl, rfl, rfl, rfl⟩, ?_, ?_⟩, ?_, ?_⟩ <;> decide +kernel
/-- A list of sixteen entries at the start of scratch; a time of one second, one less than a second's end, and no time. -/
def timing : Ctx := xs user [(5, 2 ^ 32), (6, 999999999), (7, 1000000000)]
/-- An armed store of time 0, on core 0. -/
def armed : Trel := { core := 0, vf := 0, time := 0, entries := [], bndt := 0, sync := user.sync, tag := 1, loc := (grp user).loc }
/-- The first entry's device in or out of range; four stores armed, or none. -/
def clocked (far full : Bool) : State :=
  let s := if far then (st timing).wr (scrKey 0 0) 32 (2 ^ 144) else st timing
  if full then { s with trels := List.replicate 4 armed } else s
/-- The number of the entries that trel reads, whether every device is in range, whether fewer than four are armed, and whether a
time of one second, and one of 0, are 5 us ahead. -/
def lists (far full : Bool) : Option (Nat × Bool × Bool × Bool × Bool) :=
  let s0 := relNow (clocked far full) (grp timing) timing
  match s0.trelList (grp timing) (s0.ctxOf (grp timing) timing) (timing.readX 2) (16 - ((s0.ctxOf (grp timing) timing).listed.getD []).length) with
  | .ok s1 () =>
    let l := (s1.ctxOf (grp timing) timing).listed.getD []
    some (l.length, l.all fun e => decide (e.1 < 2 ^ 16), decide (s1.armed 0 < 4), decide (s1.clockNs + 5000 ≤ timeNs (timing.readX 5)),
      decide (s1.clockNs + 5000 ≤ timeNs (timing.readX 0)))
  | _ => none
theorem witness_clockResult : (st timing).Acts (grp timing) timing ∧ (timing.readX 5).toNat % 2 ^ 32 < 1000000000 ∧
    (timing.readX 6).toNat % 2 ^ 32 < 1000000000 ∧ 1000000000 ≤ (timing.readX 7).toNat % 2 ^ 32 ∧ timing.drained = true ∧
    (st timing).Released (grp timing) timing (relNow (st timing) (grp timing) timing) 1 ∧
    lists false false = some (16, true, true, true, false) ∧ lists true false = some (16, false, true, true, false) ∧
    lists false true = some (16, true, false, true, false) := by
  refine ⟨acts _, ?_, ?_, ?_, rfl, released _ _ _ (gate _ rfl) rfl, ?_, ?_, ?_⟩ <;> decide +kernel
/-- A release that has been made is not made again. -/
theorem witness_released : (st { timing with tagged := some 5 }).Released (grp { timing with tagged := some 5 }) { timing with tagged := some 5 }
    (st { timing with tagged := some 5 }) 5 := .inl ⟨rfl, rfl⟩
/-- A message in q4, to merge or not; cluster 255's CVR in x5, an engine that is none in x6, cluster 0's CVR in x7. -/
def sending (m : Nat) : Ctx :=
  { xs user [(5, 0xFF04), (6, 5), (7, 4)] with
    queues := { Queues.empty with blocks := #v[[], [], [], [], [{ data := BitVec.ofNat 4096 m, stamp := 0 }], []] } }
/-- Another context's equal message at cluster 0's CVR, and thirty-two of them at cluster 255's. -/
def sentBefore : Job :=
  { Job.new 9 (cmdOf .cvr 0) 0 user.csr.bndt (some 1) 0 0 with
    id := 65, msg := BitVec.ofNat 512 (2 ^ 14),
    senders := [{ gid := 9, core := 1, ctx := 0, agent := 8, record := 0, ev := 0, sync := user.sync, rel := 0, tick := 0, live := true }] }
def meeting (m : Nat) : State := ((st (sending m)).setJobs 0 .cvr [sentBefore]).setJobs 255 .cvr (List.replicate 32 sentBefore)
/-- A group whose job records are all in use. -/
def busyGroup : Machine.Group :=
  { grp (sending 0) with jobs := Vector.replicate 64 { busy := true, seq := 0, done := none, agent := 1, tile := none } }
theorem witness_messageResult : (st (sending 0)).Acts (grp (sending 0)) (sending 0) ∧
    (st (sending 0)).Released (grp (sending 0)) (sending 0) (relNow (st (sending 0)) (grp (sending 0)) (sending 0)) 1 ∧
    (sending 0).headBlock 4 = some { data := 0, stamp := 0 } ∧ user.headBlock 4 = none ∧ (grp (sending 0)).freeRecord = some 0 ∧
    busyGroup.freeRecord = none ∧ meshOk ((sending 0).readX 5) = true ∧ bits ((sending 0).readX 5).toNat 15 8 = 255 ∧
    (let s0 := relNow (st (sending 0)) (grp (sending 0)) (sending 0)
     s0.mergeWith (grp (sending 0)) (sending 0) 255 .cvr (messageOf 0 none) = none ∧
      s0.mayEnter 255 .cvr (grp (sending 0)) (askedAt (sending 0).askA 255 .cvr) = true) ∧
    (let c := sending (2 ^ 14)
     (relNow (meeting (2 ^ 14)) (grp c) c).mergeWith (grp c) c 0 .cvr (messageOf (BitVec.ofNat 4096 (2 ^ 14)) none) = some sentBefore ∧
     meshOk (c.readX 7) = true) ∧
    (relNow (meeting 0) (grp (sending 0)) (sending 0)).mayEnter 255 .cvr (grp (sending 0)) (askedAt (sending 0).askA 255 .cvr) = false ∧ meshOk ((sending 0).readX 6) = false := by
  refine ⟨acts _, released _ _ _ (gate _ rfl) rfl, rfl, rfl, ?_, ?_, ?_, ?_, ⟨?_, ?_⟩, ⟨?_, ?_⟩, ?_, ?_⟩ <;> decide +kernel
/-- Job record 0 done, record 1 open, of sequence 1; the ids 64 and 65 in x5 and x6, 2^16 in x7. -/
def asking : Ctx := xs user [(5, 64), (6, 65), (7, 65536)]
def record (w : Option Word) : JobRec := { busy := true, seq := 1, done := w, agent := 9, tile := none }
def askers : Machine.Group := { grp asking with jobs := ((grp asking).jobs.set 0 (record (some 7))).set 1 (record none) }
theorem witness_jobResult : ({ st asking with groups := [askers] }).Acts askers asking ∧
    (askers.jobs[0]).busy = true ∧ (askers.jobs[0]).seq = (asking.readX 5).toNat / 64 % 1024 ∧ (askers.jobs[0]).done = some 7 ∧
    (askers.jobs[1]).busy = true ∧ (askers.jobs[1]).seq = (asking.readX 6).toNat / 64 % 1024 ∧ (askers.jobs[1]).done = none ∧
    2 ^ 16 ≤ (asking.readX 7).toNat :=
  ⟨acts_iff.2 ⟨rfl, rfl, rfl, rfl, rfl⟩, by decide +kernel, by decide +kernel, by decide +kernel, by decide +kernel,
    by decide +kernel, by decide +kernel, by decide⟩
/-- A launch queue of function 0: header at 0x4000, one tag and one slot in region 1's pages, of a mode, its tag in a state. -/
def queueBlock : BitVec 1024 := BitVec.ofNat 1024 (0x4000 * 2 ^ 320 + 2 ^ 524)
def queued (s : State) (mode tag : Nat) : State :=
  (({ s with vfs := [(0, { Vf.fresh with block := queueBlock })] }).wr (hbm 0x4000) 32
    (0x0100000000003000 + 0x0100000000002000 * 2 ^ 64 + 2 ^ 128 + mode * 2 ^ 224)).wr (hbm 0x2000) 1 tag
def launching (c : Ctx) (mode tag : Nat) : Option (QHead × Nat) :=
  let s := queued (st c) mode tag
  match s.qHead 0 ((c.readX 6).toNat % 2 ^ 32) with
  | none => none
  | some h =>
    let s0 := relNow s (grp c) c
    let n := h.widx % h.cap
    if (s0.unmappedAt 0 (h.tags + n)).isSome || (s0.unmappedAt 0 (h.slots + 128 * n)).isSome || s0.vWaits (h.nextSlot 0) then none
    else if s0.tagAt 0 (h.tags + n) % 4 != 0 then some (h, 0)
    else
      match s0.load128 (grp c) (s0.ctxOf (grp c) c) (c.readX 5) 64 with
      | .ok s1 v => (s1.qPublish 0 h (bytesOfNat 128 v) (c.sync.acq ++ c.sync.bars)).map fun x => (h, x.1 + 1)
      | _ => none
def launcher : Ctx := mapped (xs user [(5, 0), (6, 0), (7, 8)])
theorem witness_launchResult : (st launcher).Acts (grp launcher) launcher ∧ launcher.drained = true ∧
    ((queued (st launcher) 2 0).qHead 0 ((launcher.readX 7).toNat % 2 ^ 32)).isNone = true ∧
    ((queued (st launcher) 1 0).qHead 0 0).map (fun h => h.mode) = some 1 ∧
    (queued (st launcher) 2 0).Released (grp launcher) launcher (relNow (queued (st launcher) 2 0) (grp launcher) launcher) 1 ∧
    (launching launcher 2 0).map (fun x => (x.1.mode, x.2)) = some (2, 1) ∧
    (launching launcher 2 2).map (fun x => (x.1.mode, x.2)) = some (2, 0) := by
  refine ⟨acts _, rfl, ?_, ?_, released _ _ _ ⟨rfl, by simp [grp]⟩ rfl, ?_, ?_⟩ <;> decide +kernel

/-! ### Witnesses: class S -/

/-- TVEC's value and a mode's bits in x5 and x6. -/
def writing : Ctx := xs boss [(5, 0x104), (6, 1)]
theorem witness_csrResult : (st writing).Acts (grp writing) writing ∧ writing.csr.mode = true ∧ writing.drained = true ∧
    (writing.readX 5).toNat % 4 = 0 ∧ ((st writing).csrValue (grp writing) writing 0x100 ||| writing.readX 5).toNat % 4 = 0 ∧
    (st writing).GateOpen (grp writing) writing ∧ (0x109 : BitVec 12).toNat = 0x109 ∧ (0x20F : BitVec 12).toNat = 0x20F := by
  refine ⟨acts _, rfl, rfl, ?_, ?_, gate _ rfl, rfl, rfl⟩ <;> decide +kernel
/-- Helper 10, and a jump to an address of 2. -/
def helper : Ctx := { xs user [(5, 2)] with num := 10 }
theorem witness_preciseTraps : (st helper).Acts (grp helper) helper ∧ helper.drained = true ∧ helper.num ≠ 0 ∧
    helper.csr.mode = false ∧ (flowRule helper (.j 5)).map (fun x => x.1.toNat % 4) = some 2 ∧ isJump (.j 5) = true ∧
    (st user).Acts (grp user) user ∧ (st user).barIdOf (grp user) .pd = none ∧ user.num = 0 ∧
    (st writing).Acts (grp writing) writing ∧ writing.csr.intrap = false ∧
    ¬ ((0x00B : BitVec 12).toNat ≤ 0x00A ∨ (0x010 ≤ (0x00B : BitVec 12).toNat ∧ (0x00B : BitVec 12).toNat ≤ 0x01F)) ∧
    (writing.readX 6).toNat % 4 ≠ 0 :=
  ⟨acts _, rfl, by decide, rfl, by decide +kernel, rfl, acts _, rfl, rfl, acts _, rfl, by decide, by decide⟩
/-- A context in its handler, and one whose handler has written EPC. -/
def handling (redir : Bool) : Ctx :=
  let c := user.inHandler 0x30 0 codeBase codeBase
  { c with csr := { c.csr with redir := redir } }
/-- The CVR of cluster 0 has a job into the group's scratch. -/
def covering (s : State) (gid : Nat) : State :=
  s.setJobs 0 .cvr [{ Job.new 9 .raster 0 0 (some 1) 0 0 with
    id := 65, senders := [{ gid := gid, core := 0, ctx := 0, agent := 1, record := 1, ev := 5, sync := user.sync, rel := 0, tick := 0, live := true }] }]
theorem witness_trapHalt : (st user).scratchBusy (grp user) = false ∧ (covering (st user) 1).scratchBusy (grp user) = true ∧
    (covering (st (handling false)) 1).Acts (grp (handling false)) (handling false) := by
  refine ⟨?_, ?_, acts_iff.2 ⟨rfl, rfl, rfl, rfl, rfl⟩⟩ <;> decide +kernel
theorem witness_trapResult : (st (mapped user)).Acts (grp (mapped user)) (mapped user) ∧ user.drained = true ∧
    user.csr.intrap = false ∧ user.csr.tvec ≠ 0 ∧ (handling true).csr.intrap = true ∧ (handling true).csr.mode = true ∧
    (handling true).drained = true ∧ (st (handling true)).scratchBusy (grp (handling true)) = false ∧
    (handling true).frame.isSome = true ∧ (handling true).lag = [] ∧ (handling true).csr.redir = true ∧
    (handling false).csr.redir = false ∧
    isMem ((st (mapped user)).fetchProbe (grp (mapped user)) (mapped user) (mapped user).pcA) (fun _ => true) = true := by
  refine ⟨acts _, rfl, rfl, by decide, rfl, rfl, rfl, rfl, rfl, rfl, rfl, rfl, ?_⟩; decide +kernel
/-- A successor at 64 in scratch, of the group's class, shape and mode; its address in x5. -/
def leaving : Ctx := xs user [(5, 64), (6, 8), (7, 7), (8, 63), (9, 10)]
def succObject : Nat := codeBase.toNat + 2 * 2 ^ 96
def leavingGroup (depth : Nat) : Machine.Group :=
  { grp leaving with depth := depth, kobj := BitVec.ofNat 1024 (codeBase.toNat + 4 * 2 ^ 66 + 4 * 2 ^ 70 + 8 * 2 ^ 80 + 2 * 2 ^ 96) }
def leavingState (depth : Nat) : State :=
  ({ st leaving with groups := [leavingGroup depth], launches := [job 0] }).wr (scrKey 0 64) 128 succObject
/-- The rungs that rets finds: whether the ladder is in order, and whether the rung taken has the group's shape. -/
def succeeds (s : State) (g : Machine.Group) : Option (Bool × Bool) :=
  match (s.synced g leaving).loadLadder g leaving.seeBoth 4 (leaving.readX 5) with
  | .ok s1 (l, more) =>
    (match s1.launch? g.launch with
     | some la => (l[min la.boundary.rung (l.length - 1)]?).map fun x => (ladderOk l more, shapeOk g x.2)
     | none => none)
  | _ => none
/-- A kernel that a rets has read, and goes on to once no job is awaited. -/
def handing : Ctx := { leaving with nextKernel := some (0, 64, BitVec.ofNat 1024 succObject) }
theorem witness_groupResult : (st leaving).Acts (grp leaving) leaving ∧ leaving.drained = true ∧ leaving.num = 0 ∧
    (grp leaving).helpers < kHelpers (grp leaving).kobj ∧ (st leaving).GateOpen (grp leaving) leaving ∧
    (grp leaving).ctx? 1 = none ∧ (leaving.readX 9).toNat = 10 ∧ (grp leaving).ctx? 10 = none ∧ (grp leaving).helpers = 0 ∧
    (∀ x ∈ (st helper).allJobs, ∀ y ∈ x.2.2.senders, y.agent = helper.sync.agent → y.live = false) ∧
    (st helper).GateOpen (grp helper) helper ∧ (st leaving).scratchBusy (grp leaving) = false ∧
    -- carve to 7, 63 and 8 units of scratch, and under a pointer
    (leaving.readX 7).toNat < kScratch (grp leaving).kobj ∧ 64 < kRu (grp leaving).kobj + (leaving.readX 8).toNat + kCache (grp leaving).kobj ∧
    kScratch (grp leaving).kobj ≤ (leaving.readX 6).toNat ∧
    kRu (grp leaving).kobj + (leaving.readX 6).toNat + kCache (grp leaving).kobj ≤ 64 ∧
    (leaving.r.k.toList.any fun k => decide (16384 * 8 ≤ k.toNat % 2 ^ 32 ∧ k.toNat % 2 ^ 32 < winBase)) = false ∧
    ((ks leaving [(0, 16384 * 8)]).r.k.toList.any fun k => decide (16384 * 8 ≤ k.toNat % 2 ^ 32 ∧ k.toNat % 2 ^ 32 < winBase)) = true ∧
    (st leaving).jobsAwaited (grp leaving) 0 = false ∧ leaving.readX 0 = 0 ∧ kSucc (grp leaving).kobj = 0 ∧
    leaving.readX 5 ≠ 0 ∧ (leavingState 254).Acts (leavingGroup 254) leaving ∧
    succeeds (leavingState 254) (leavingGroup 254) = some (true, true) ∧
    succeeds (leavingState 254) { leavingGroup 254 with cls := 1 } = some (true, false) ∧ leaving.nextKernel = none ∧
    handing.nextKernel.isSome = true ∧ (leavingState 254).jobsAwaited (leavingGroup 254) 0 = false ∧
    (covering (leavingState 254) 1).jobsAwaited (leavingGroup 254) 0 = true ∧ (leavingState 254).GateOpen (leavingGroup 254) leaving ∧
    (leavingState 255).Acts (leavingGroup 255) leaving := by
  refine ⟨acts _, rfl, rfl, ?_, gate _ rfl, rfl, ?_, rfl, rfl, ?_, gate _ rfl, rfl, ?_, ?_, ?_, ?_, ?_, ?_, ?_, rfl, ?_, ?_,
    acts_iff.2 ⟨rfl, rfl, rfl, rfl, rfl⟩, ?_, ?_, rfl, rfl, ?_, ?_, ⟨rfl, by simp [leavingGroup, grp]⟩,
    acts_iff.2 ⟨rfl, rfl, rfl, rfl, rfl⟩⟩ <;> decide +kernel
/-- The supervisor on core 0 beside a user group of function 0 on core 1, number 2; images 2 of the PFE and 3 of the CVR installed. -/
def ruling : Ctx := xs boss [(5, 1), (6, 0x203), (7, 0x303), (8, 0x1203), (9, 2048), (10, 0x20000), (11, 4096), (12, 0xF03)]
def other (status : GStatus) : Machine.Group :=
  { grp user with id := 2, core := 1, status := status, ctxa := 0x20000, kobj := BitVec.ofNat 1024 (codeBase.toNat + 8 * 2 ^ 80 + 2 * 2 ^ 96) }
def ruled (status : GStatus) : State :=
  { st ruling with groups := [grp ruling, other status], nextId := 3, installed := [(3, 2, []), (4, 3, [])], launches := [job 0] }
/-- Handle 0 of function 0: one page at 0, its tables in memory, pinned or not, in a transfer or not. -/
def handled (pin busy : Bool) : State :=
  let s0 := ({ ruled .running with vfs := [(0, { Vf.fresh with block := BitVec.ofNat 1024 (0x8000 + 0x40000 * 2 ^ 64) })] }).wr (hbm 0x8000) 8 0x10001
  let s1 := ((s0.wr (hbm 0x10000) 8 0x20001).wr (hbm 0x20000) 8 0x7FF8000F).wr (hbm 0x40000) 32
    (2 ^ 83 + (if pin then 2 ^ 133 else 0))
  let j : Job := { Job.new 9 .copy 0 0 none 0 0 with id := 1, msg := BitVec.ofNat 512 (4 * 2 ^ 192 + 2 ^ 224) }
  if busy then s1.setJobs 3 .cpy [j] else s1
def handleEntry (pin busy : Bool) : Nat := (handled pin busy).rd ((handled pin busy).handleAt 0 0) 32
theorem witness_systemResult : (ruled .running).Acts (grp ruling) ruling ∧ ruling.drained = true ∧ ruling.csr.mode = true ∧
    (ruled .running).GateOpen (grp ruling) ruling ∧ (ruled .running).fqCount 0 = 0 ∧
    (ruled .running).groupOn? 1 = some (other .running) ∧ (ruling.readX 5).toNat = 1 ∧ 2047 < (ruling.readX 9).toNat ∧
    (other .running).log = [] ∧ ({ ruling with saving := some 2 } : Ctx).saving.bind (ruled .parked).group? = some (other .parked) ∧
    (other .parked).core = 1 ∧ ruling.saving = none ∧ (((ruled .running).preempt 2 .parked).group? 2).map (fun z => z.status) = some .parked ∧
    (((covering (ruled .running) 2).preempt 2 .parked).group? 2).map (fun z => z.status) = some .running ∧
    (other .running).runs = true ∧ (other .running).stopping = none ∧ (other .running).unbound = false ∧ (other .running).overBudget = false ∧
    (ruled .running).scratchBusy (other .running) = false := by
  refine ⟨acts_iff.2 ⟨rfl, rfl, rfl, rfl, rfl⟩, rfl, rfl, ⟨rfl, by simp [grp]⟩, ?_, rfl, ?_, ?_, rfl, ?_, rfl, rfl, ?_, ?_, ?_, ?_, ?_, ?_, ?_⟩ <;> decide +kernel
/-- An xlinv that lets a held access of the group beside it perform afresh, and one with none to wait for; one that has begun. -/
def holding : State :=
  { ruled .running with groups := [grp ruling, { other .running with ctxs := [{ user with heldA := some codeBase }] }] }
theorem witness_systemXlinv : ruling.xlinvOn = false ∧ ({ ruling with xlinvOn := true } : Ctx).xlinvOn = true ∧
    (holding.xlinvEvery 0).retrying 0 = true ∧ ((ruled .running).xlinvEvery 0).retrying 0 = false ∧
    (holding.xlinvPage 0 (codeBase.toNat % 2 ^ 56)).retrying 0 = true := by
  refine ⟨rfl, rfl, ?_, ?_, ?_⟩ <;> decide +kernel
/-- A side log that is empty, or whose first entry has failed, replays nothing (R222). -/
def failed : LogEntry :=
  { va := codeBase, len := 1, data := [0], ctx := 0, op := .store, rel := none, own := 1, sync := user.sync, seen := 0, region := 0, failed := some 0x12, tick := 0 }
theorem witness_systemReplay : (st user).group? (grp user).id = some (grp user) ∧ (grp user).log = [] ∧
    ∃ e r, ({ grp user with log := [failed] } : Machine.Group).log = e :: r ∧ e.failed.isSome = true := ⟨rfl, rfl, failed, [], rfl, rfl⟩
/-- The fault queue of a function that holds two records. -/
theorem witness_systemIdle : (({ ruled .running with vfs := [(0, { Vf.fresh with block := BitVec.ofNat 1024 (0x50000 * 2 ^ 128) })] }).wr
    (hbm 0x50000) 4 2).fqCount 0 ≠ 0 := by decide +kernel
/-- cload's operands: a cluster too high, an image that is not installed, one of the other engine, one installed. -/
theorem witness_systemCload : 256 ≤ (ruling.readX 9).toNat ∧ (ruling.readX 6).toNat = 3 + 256 * 2 ∧ (ruling.readX 7).toNat = 3 + 256 * 3 ∧
    (ruling.readX 8).toNat ≠ 3 + 256 * ((ruling.readX 8).toNat / 2 ^ 8 % 16) ∧ (ruling.readX 12).toNat = 3 + 256 * 15 ∧
    (∀ z ∈ (ruled .running).installed, z.2.1 ≠ 15) ∧ (∀ z ∈ (ruled .running).installed, z.1 = 3 → z.2.1 ≠ 3) ∧
    (∃ z ∈ (ruled .running).installed, z.1 = 7 - 3 ∧ z.2.1 = 3) ∧
    (ruled .running).installed.find? (fun z => z.1 == 3 && z.2.1 == 2) = some (3, 2, []) ∧ (ruled .running).jobs 1 .pfe = [] ∧
    (handled false true).jobs 3 .cpy ≠ [] := by
  refine ⟨?_, ?_, ?_, ?_, ?_, ?_, ?_, ?_, ?_, ?_, ?_⟩ <;> decide +kernel
/-- ctxld's operands: the area of the parked group, one with none, and cores it may and may not resume on. -/
theorem witness_systemCtxld : (ruled .parked).savedAt 0 (ruling.readX 10) = some (other .parked) ∧
    (ruled .parked).savedAt 0 (ruling.readX 5) = none ∧ (ruled .parked).mayResume (other .parked) 1 = true ∧
    (ruled .parked).mayResume (other .parked) 0 = false ∧ (ruled .parked).mayResume (other .parked) 2048 = false := by
  refine ⟨?_, ?_, ?_, ?_, ?_⟩ <;> decide +kernel
/-- resid's operands: a handle past the table, and handle 0, pinned, in a transfer, moving, or none of these: 0 where it ends, 1 where
it begins a move. -/
def residKind (r : ResidAct) : Nat × Nat := match r with | .ends _ v => (0, v) | .begins _ => (1, 0)
def moved (who : Nat × Nat × Nat) : State := { handled false false with moving := [toHost 0 0 who] }
def mover : Nat × Nat × Nat := ((grp ruling).id, ruling.num, 0)
theorem witness_systemResid : 4095 < (ruling.readX 11).toNat ∧ handleOk (handleEntry false false) = true ∧
    hPin (handleEntry true false) = true ∧ hPin (handleEntry false false) = false ∧
    ((handled false true).name 0 0 (handleEntry false true)).inTransfer 0 (handleEntry false true) = true ∧
    ((handled false false).name 0 0 (handleEntry false false)).inTransfer 0 (handleEntry false false) = false ∧
    (handled false false).moving = [] ∧ ((moved mover).moving.any fun m => m.owner == mover) = true ∧
    ((moved (9, 0, 0)).moving.any fun m => m.owner == mover) = false ∧ ((moved (9, 0, 0)).moving.any fun m => m.vf == 0 && m.handle == 0) = true ∧
    residKind ((handled false false).demoteTensor mover 0 0 (handleEntry false false)) = (1, 0) ∧
    residKind ((handled false false).pinTensor mover 0 0 (handleEntry false false)) = (0, 0) ∧
    hState (handleEntry false false + 2 ^ 135) = 2 ∧ hState (handleEntry false false) ≠ 2 ∧
    ((handled false false).mappings 0 (handleEntry false false)).all (fun y => y.2.inSpace 0) = true ∧ Inv (handled false false) := by
  refine ⟨?_, ?_, ?_, ?_, ?_, ?_, rfl, ?_, ?_, ?_, ?_, ?_, ?_, ?_, ?_, show Memory.wf _ = true from ?_⟩ <;> decide +kernel

/-! ### Witnesses: queue managers and contexts' events -/

/-- An access stream that waits for q6 and an execute stream that waits for q0, or bq and a full q6. -/
def stuckEmpty : Ctx := { user with waitA := some (.queue 6 true), waitE := some (.queue 0 false) }
def stuckFull : Ctx :=
  let q : Queues := { Queues.empty with q6 := List.replicate 16 { data := 0, stamp := 0 } }
  { user with waitA := some (.queue 8 false), waitE := some (.queue 6 false),
              queues := { q with bq := List.replicate 16 { dest := 0, vmask := 0, stamp := 0 } } }
theorem witness_queueDeadlock : (st stuckEmpty).groupOn? 0 = some (grp stuckEmpty) ∧ (grp stuckEmpty).ctx? 0 = some stuckEmpty ∧
    stuckEmpty.queues.count 6 = 0 ∧ stuckEmpty.queues.count 0 = 0 ∧ (grp stuckFull).ctx? 0 = some stuckFull ∧
    queueDepth 8 ≤ stuckFull.queues.count 8 ∧ queueDepth 6 ≤ stuckFull.queues.count 6 :=
  ⟨rfl, rfl, rfl, rfl, rfl, by decide, by decide⟩
/-- A group one cycle past its budget. -/
def late : Machine.Group := { grp user with budget := 1, used := 2 }
theorem witness_queueBudget : ({ st user with groups := [late] }).groupOn? 0 = some late ∧
    ({ st user with groups := [late] }).group? late.id = some late ∧ late.unbound = false ∧ 0 < late.budget ∧ late.budget < late.used ∧
    late.overran = false ∧ late.stopping = none ∧ late.ctx? 0 = some user ∧ user.csr.intrap = false :=
  ⟨rfl, rfl, by decide, by decide, by decide, rfl, rfl, rfl, rfl⟩
theorem witness_queueDoorbell : ({ st user with mbrdy := true }).mbrdy = true ∧ (st user).mbrdy = false ∧
    ((queued { st user with mbrdy := true } 1 0).qHead 0 0).map (fun h => (h.mode, h.cap)) = some (1, 1) ∧
    (queued { st user with mbrdy := true } 1 1).tagAt 0 0x0100000000002000 % 4 < 2 ∧
    (queued { st user with mbrdy := true } 1 1).vWaits [(0, 0x0100000000002000, 1)] = false ∧
    2 ≤ (queued { st user with mbrdy := true } 1 2).tagAt 0 0x0100000000002000 % 4 := by
  refine ⟨rfl, rfl, ?_, ?_, ?_, ?_⟩ <;> decide +kernel
/-- A full slot with a record of one group of the class-B object at 0x5000, or with a record of zeros. -/
def taking (good : Bool) : State :=
  let s := ({ queued (st user) 2 2 with mbrdy := true, groups := [] }).wr (hbm 0x5000) 128 (codeBase.toNat + 2 * 2 ^ 96)
  if good then s.wr (hbm 0x3000) 128 (0x0100000000005000 + 2 ^ 128) else s
/-- The check of the record that is taken next: its status, or 0 where it is admitted. -/
def takes (s : State) : Option Nat :=
  match s.nextTake 0 with
  | none => none
  | some (_, vf, _, h) =>
    let k := h.ridx % h.cap
    let r := BitVec.ofNat 1024 (s.vRd vf (h.slots + 128 * k) 128)
    let reads := s.takeReads 0 vf r
    if s.vWaits (reads ++ endPlaces vf r) then some 99
    else
      match (((s.vUses reads).setTag vf (h.tags + k) 0).wr (hbm (h.pa + 24)) 4 ((h.ridx + 1) % 2 ^ 32)).checkLaunch vf 0 r with
      | .error e => some e
      | .ok _ => if lTree r = 0 then some 0 else none
/-- A tensor that holds every page of region 1 moves. -/
def shifting (s : State) : State :=
  { s with moving := [{ owner := (9, 0, 0), vf := 0, handle := 0, base := 0, len := 2 ^ 32, space := 0, final := 0,
                        pin := none, fresh := false, leaves := [] }] }
theorem witness_queueTake : (taking true).mbrdy = true ∧ takes (taking true) = some 0 ∧ takes (taking false) = some 1 ∧
    takes (shifting (taking true)) = some 99 ∧ (taking true).roomBehind 0 .pfe (fun _ => true) = true := by
  refine ⟨rfl, ?_, ?_, ?_, ?_⟩ <;> decide +kernel
/-- The stage of a record, its one kernel at 0x5000. -/
def stageOf (r : BitVec 256) : Stage :=
  { record := r, ladder := [BitVec.ofNat 1024 (codeBase.toNat + 2 * 2 ^ 96)], kptrs := [0x0100000000005000], taken := 0, share := 1 }
/-- A launch with one group to start, and a pipeline whose one stage has a full entry at 0x6000. -/
def starting (kind : Nat) : Launch :=
  let r : BitVec 256 := BitVec.ofNat 256 (0x0100000000005000 + 0x0100000000006000 * 2 ^ 64 + 2 ^ 128 + 64 * 2 ^ 160 + 0xFF * 2 ^ 176 +
    2 ^ 192 + 2 ^ 208)
  { job kind with next := 0, alive := 0, record := BitVec.ofNat 1024 (0x0100000000005000 + 2 ^ 128),
                  ladder := [BitVec.ofNat 1024 (codeBase.toNat + 2 * 2 ^ 96)],
                  stages := if kind == 1 then [stageOf r] else [] }
def starts (kind : Nat) : Nat :=
  let s := ({ taking true with launches := [starting kind] }).wr (hbm 0x6040) 1 2
  match [0, 1, 2].findSome? (s.pickStart 0) with
  | some (.plain _ _) => 1
  | some (.stage _ _) => 2
  | none => 0
theorem witness_queueStart : starts 0 = 1 ∧ starts 1 = 2 ∧ (∀ x ∈ (st user).groups, x.id ≠ (st user).nextId) := by
  refine ⟨?_, ?_, ?_⟩ <;> decide +kernel
/-- A group of that pipeline's stage, whose entry's slot lies in region 1; a launch with a counter there; a full queue there: each
waits while the region's tensor moves (R226), and not else. -/
def staged : Machine.Group := { grp user with stage := some 0, slot := some 0 }
def stagedIn (s : State) : State := { s with launches := [{ starting 1 with id := 1 }] }
theorem witness_moves : (shifting (stagedIn (st user))).entryMoves staged = true ∧ (stagedIn (st user)).entryMoves staged = false ∧
    (st user).entryMoves (grp user) = false ∧ (shifting (st user)).vWaits (endPlaces 0 (BitVec.ofNat 1024 (0x0100000000005000 * 2 ^ 320))) = true ∧
    (shifting (queued (st user) 2 0)).vWaits [(0, 0x0100000000002000, 1)] = true ∧
    ((queued (shifting (st user)) 2 0).qHead 0 0).map (fun h => (queued (shifting (st user)) 2 0).vWaits (h.nextSlot 0)) = some true := by
  refine ⟨?_, ?_, rfl, ?_, ?_, ?_⟩ <;> decide +kernel
/-- A submission to a queue of mode 2 whose slot is empty. -/
def submitting : State :=
  { queued (st user) 2 0 with submits := [{ vf := 0, lq := 0, lrec := 0x0100000000005000, counter := 0, acq := [], covers := [] }] }
theorem witness_queueSubmit : submitting.submits.length = 1 ∧ (submitting.qHead 0 0).map (fun h => h.mode) = some 2 ∧
    ((submitting.qHead 0 0).map fun h => submitting.vWaits ((0, 0x0100000000005000, 128) :: h.nextSlot 0)) = some false ∧
    ((submitting.qHead 0 0).bind fun h => (State.vUse { submitting with submits := [] } 0 0x0100000000005000 128 false).qPublish 0 h
      (bytesOfNat 128 (submitting.vRd 0 0x0100000000005000 128)) []).isSome = true ∧
    ((shifting submitting).qHead 0 0).map (fun h => (shifting submitting).vWaits ((0, 0x0100000000005000, 128) :: h.nextSlot 0)) =
      some true := by
  refine ⟨rfl, ?_, ?_, ?_, ?_⟩ <;> decide +kernel
/-- A launch that has ended; one of class T past its deadline. -/
def finished : Launch := { job 0 with alive := 0 }
theorem witness_queueCompletion : ({ st user with launches := [finished] }).launch? 1 = some finished ∧
    ({ st user with launches := [finished] }).launchDone finished = true ∧ ({ finished with cls := 0 } : Launch).overruns = 0 ∧
    finished.beyond = false ∧ finished.treeStatus = none ∧ ({ st user with launches := [finished] }).vWaits (endPlaces 0 finished.record) = false ∧
    (alGet (st user).shareAt 3).getD 0 ≤ (st user).cyc := by
  refine ⟨rfl, ?_, rfl, rfl, rfl, rfl, ?_⟩ <;> decide +kernel
/-- A class-B group on a core that a reservation holds; pre-empted on core 0, with core 0 free. -/
def yielding : Machine.Group := { grp user with cls := 2 }
def reserved : State :=
  { st user with groups := [yielding], reservations := [{ launch := 9, die := 0, cores := [0], mxe := [], wsp := 0, fbw := 0, start := 0, bound := 1 }] }
def paused : Machine.Group := { grp user with status := .preempted }
theorem witness_queuePreemption : reserved.groupOn? 0 = some yielding ∧ reserved.mustYield yielding = true ∧
    ({ st user with groups := [paused] }).group? 1 = some paused ∧ ({ st user with groups := [paused] }).resumeCore paused = some 0 := by
  refine ⟨rfl, ?_, rfl, ?_⟩ <;> decide +kernel
def slice : TimeShare := { cores := [0], vfs := [0, 1], slice := 3000, start := 0, turn := 0, saved := [] }
def met : Barrier :=
  { id := .co 1, complete := 0, arrivals := [{ member := 1, phase := 0, value := none, last := false, agent := 1, tag := 0, ended := [] }] }
theorem witness_queueSliceBarrierKey :
    ({ st user with timeShares := [slice], cyc := 3000 }).timeShared 0 = some slice ∧ slice.due 3000 = true ∧
    ({ st user with barriers := [met] }).barriers[0]? = some met ∧ met.started = true ∧
    ({ st user with barriers := [met] }).toAnnounce met = none ∧ ({ st user with barriers := [met] }).allIn met = true ∧
    ({ keyState [aKey] true none with keys := [(keyAt, { holder := none, abandoned := false, waiting := [1] })] }).nextHolder keyAt = some 1 := by
  refine ⟨rfl, ?_, rfl, ?_, rfl, ?_, ?_⟩ <;> decide +kernel

/-! ### Witnesses: engines -/

/-- A pointer into the memory of cluster 0. -/
def inCluster (off : Nat) : Nat := 0xFE * 2 ^ 56 + off
/-- A job of function 0 with this command and message, at the head of its engine's queue on cluster 0; its sender is the user's context. -/
def work (cmd : Cmd) (msg : Nat) : Job :=
  { Job.new 9 cmd 0 0 (some 1) 0 0 with
    id := 65, msg := BitVec.ofNat 512 msg,
    senders := [{ gid := 1, core := 0, ctx := 0, agent := 1, record := 1, ev := 5, sync := user.sync, rel := 0, tick := 0, live := true }] }
def engine (e : Eng) (j : Job) : State := { (fenced user).setJobs 0 e [j] with cyc := 1 }
def okJ {α : Type} : JRes α → Bool | .ok .. => true | _ => false
/-- The head of its queue, arrived, and no message is to be merged with it. -/
def heads (s : State) (e : Eng) (j : Job) : Bool := (s.jobs 0 e).head? == some j && j.ready && j.settledAt 0 s.cyc
theorem witness_engineCompletion :
    ((engine .cpy { work .copy 0 with phase := .done 7 }).jobs 0 .cpy).head? = some { work .copy 0 with phase := .done 7 } ∧
    (∀ t, (work .copy 0).cmd ≠ .zclr t) ∧ (∀ t r d, (work .copy 0).cmd ≠ .zrow t r d) ∧
    (work .copy 0).slotEnd ≤ (engine .cpy (work .copy 0)).cyc ∧
    ((engine .mxe { work .mma 0 with slotEnd := 2 }).jobs 0 .mxe).head? = some { work .mma 0 with slotEnd := 2 } ∧
    (engine .mxe { work .mma 0 with slotEnd := 2 }).cyc < 2 ∧
    ([Cmd.mma, .mmab, .mepi].all fun k =>
      ((engine .mxe { work k 0 with phase := .done (doneWord 0 0 0) }).jobs 0 .mxe).head? ==
        some { work k 0 with phase := .done (doneWord 0 0 0) }) = true ∧
    ((engine .mxe { work (.zclr 23) 0 with phase := .running }).jobs 0 .mxe).head? = some { work (.zclr 23) 0 with phase := .running } ∧
    ((engine .mxe { work (.zrow 23 127 0) 0 with phase := .running }).jobs 0 .mxe).head? =
      some { work (.zrow 23 127 0) 0 with phase := .running } := by
  refine ⟨?_, (by intro t h; cases h), (by intro t r d h; cases h), ?_, ?_, ?_, ?_, ?_, ?_⟩ <;> decide +kernel
/-- One row of four bytes from the start of the cluster's memory to byte 4, on this device, or on device 5. -/
def copyMsg : Nat := inCluster 0 * 2 ^ 64 + inCluster 4 * 2 ^ 128 + 4 * 2 ^ 192 + 2 ^ 224 + 0xFFFF * 2 ^ 384
def awayMsg : Nat := inCluster 0 * 2 ^ 64 + inCluster 4 * 2 ^ 128 + 4 * 2 ^ 192 + 2 ^ 224 + 5 * 2 ^ 384
/-- One whose source lies in no region, and one that would write the weight store of the die that its function runs on. -/
def strayMsg : Nat := inCluster 4 * 2 ^ 128 + 4 * 2 ^ 192 + 2 ^ 224 + 0xFFFF * 2 ^ 384
def weightMsg : Nat := inCluster 0 * 2 ^ 64 + codeBase.toNat * 2 ^ 128 + 4 * 2 ^ 192 + 2 ^ 224 + 0xFFFF * 2 ^ 384
def weightState : State :=
  { (engine .cpy (work .copy weightMsg)).wr (hbm 16) 16 codeEntry.toNat with
    xlat := (List.range 256).map fun k => (k, keptName codeBase.toNat true, codeLeaf + 2 ^ 16) }
def copies (s : State) (j : Job) : Nat × Nat :=
  match s.copyRows j (j.f 255 224 - j.pos) j.pos with
  | .done _ => (0, 0) | .fail _ r k => (r + 1, k) | _ => (9, 9)
theorem witness_engineCopy : heads (engine .cpy (work .copy copyMsg)) .cpy (work .copy copyMsg) = true ∧
    copyBad (work .copy 0) = true ∧ copyBad (work .copy copyMsg) = false ∧
    copyOverlap (work .copy copyMsg) true = false ∧ (work .copy copyMsg).f 399 384 = 0xFFFF ∧ bit (work .copy copyMsg).p 0 = false ∧
    ((engine .cpy (work .copy copyMsg)).barredRow (work .copy copyMsg) 1 0).2 = none ∧
    copies ((engine .cpy (work .copy copyMsg)).barredRow (work .copy copyMsg) 1 0).1 (work .copy copyMsg) = (0, 0) ∧
    ((engine .cpy (work .copy strayMsg)).barredRow (work .copy strayMsg) 1 0).2 = none ∧
    copies ((engine .cpy (work .copy strayMsg)).barredRow (work .copy strayMsg) 1 0).1 (work .copy strayMsg) = (1, 0x12) ∧ copyBad (work .copy strayMsg) = false ∧
    (weightState.barredRow (work .copy weightMsg) 1 0).2 = some 0 ∧ copyBad (work .copy weightMsg) = false ∧
    copyOverlap (work .copy weightMsg) true = false := by
  refine ⟨?_, ?_, ?_, ?_, ?_, ?_, ?_, ?_, ?_, ?_, ?_, ?_, ?_, ?_⟩ <;> decide +kernel
/-- A row of a copy, its spots read and written, in a state whose memory is in form, computed. -/
def rowMoves (s : State) (j : Job) (r : Nat) : Bool :=
  let n := j.f 223 192
  match s.jobSpots j (s.jobWho j pathCpy) .read .r true (piecesOf (j.rowSrc r) n), s.jobRead j pathCpy (j.rowSrc r) n, s.copyRow j r with
  | .ok _ ls, .ok s1 b, .ok _ () =>
    b.length == n && ls.length == 1 && (match s1.jobSpots j (s1.jobWho j pathCpy) .write .w false (piecesOf (j.rowDst r) n) with
      | .ok _ ld => ld.length == 1
      | _ => false)
  | _, _, _ => false
theorem witness_engineCopyRow : rowMoves (engine .cpy (work .copy copyMsg)) (work .copy copyMsg) 0 = true ∧
    Inv (engine .cpy (work .copy copyMsg)) ∧ (engine .cpy (work .copy copyMsg)).Quiet ∧
    ∀ a, (engine .cpy (work .copy copyMsg)).NoHead a 1 := by
  refine ⟨by decide +kernel, by unfold Machine.Inv; decide +kernel, ⟨rfl, ?_⟩, ?_⟩
  · intro v hv; cases hv
  · intro a v hv; cases hv
/-- The bounds of a copy to another device (R237): the destination lies in no region. -/
def outMsg : Nat := inCluster 0 * 2 ^ 64 + 4 * 2 ^ 192 + 2 ^ 224 + 5 * 2 ^ 384
/-- The slot of a copy with flag bit 0, published once its rows are away. -/
def slotMsg : Nat := 2 ^ 16 + awayMsg + inCluster 8 * 2 ^ 320
theorem witness_engineCopyAwayBounds :
    (engine .cpy (work .copy awayMsg)).boundJob (work .copy awayMsg) ((work .copy awayMsg).rowDst 0) 4 .w = none ∧
    (engine .cpy (work .copy outMsg)).boundJob (work .copy outMsg) ((work .copy outMsg).rowDst 0) 4 .w = some 0x12 ∧
    copyBad (work .copy slotMsg) = false ∧ bit (work .copy slotMsg).p 0 = true ∧
    (engine .cpy (work .copy slotMsg)).boundJob (work .copy slotMsg) ((work .copy slotMsg).f 383 320) 1 .rw = none := by
  refine ⟨?_, ?_, ?_, ?_, ?_⟩ <;> decide +kernel
theorem witness_engineCopyAway : copyBad (work .copy awayMsg) = false ∧ copyOverlap (work .copy awayMsg) false = false ∧
    (work .copy awayMsg).f 399 384 = 5 ∧ (engine .cpy (work .copy awayMsg)).device ≠ 5 ∧ (work .copy awayMsg).nack = none ∧
    (work .copy awayMsg).rowSent = none ∧ (work .copy awayMsg).pos < (work .copy awayMsg).f 255 224 ∧
    (match (engine .cpy (work .copy awayMsg)).jobRead (work .copy awayMsg) pathCpy ((work .copy awayMsg).rowSrc 0) 4 with
      | .ok .. => true | _ => false) = true ∧
    ({ work .copy awayMsg with nack := some 0x12 } : Job).nack = some 0x12 ∧ (work .copy awayMsg).f 255 224 = 1 ∧
    ({ work .copy awayMsg with pos := 1 } : Job).pos = 1 ∧ bit (work .copy awayMsg).p 0 = false := by
  refine ⟨?_, ?_, ?_, ?_, rfl, rfl, ?_, ?_, rfl, ?_, rfl, ?_⟩ <;> decide +kernel
/-- One element of four bytes through one level whose table has `n` elements. -/
def gatherMsg (n : Nat) : Nat :=
  (1 + 4 * 2) * 2 ^ 16 + 2 ^ 32 + inCluster 64 * 2 ^ 64 + inCluster 0 * 2 ^ 192 + n * 2 ^ 384
def gathers (n : Nat) : Nat :=
  match (engine .ixe (work .gather (gatherMsg n))).gatherRun (work .gather (gatherMsg n)) 1 0 none with
  | (.done _, none) => 1
  | (.done _, some _) => 2
  | _ => 0
theorem witness_engineGather : gatherBad (work .gather 0) = true ∧ gatherBad (work .gather (gatherMsg 1)) = false ∧
    (work .gather (gatherMsg 1)).arg = 1 ∧ gathers 1 = 1 ∧ gatherBad (work .gather (gatherMsg 0)) = false ∧ gathers 0 = 2 := by
  refine ⟨?_, ?_, ?_, ?_, ?_, ?_⟩ <;> decide +kernel
/-- The bytes that element 0 of such a job gathers, the level that is out of range, and whether they are written. -/
def gathered (n : Nat) : Option (List Byte × Option Nat × Bool) :=
  let j := work .gather (gatherMsg n)
  match (engine .ixe j).gatherAt j 3 1 0 with
  | .ok s1 (b, lv) =>
    match s1.jobSpots j (s1.jobWho j pathIxe) .write .w false (piecesOf (ptrAdd (j.f 127 64) 0) b.length),
      s1.jobWrite j pathIxe (ptrAdd (j.f 127 64) 0) b with
    | .ok _ l, .ok _ () => some (b, lv, l.length == 1)
    | _, _ => none
  | _ => none
/-- Two levels: element 0 of the first is the index of the second. -/
def gatherDeep : Job := work .gather (gatherMsg 1 + 2 ^ 16 + inCluster 32 * 2 ^ 256 + 2 ^ 416)
theorem witness_engineGatherElement : gathered 1 = some ([0, 0, 0, 0], none, true) ∧ gathered 0 = some ([0, 0, 0, 0], some 1, true) ∧
    (work .gather (gatherMsg 1)).f 127 64 % (work .gather (gatherMsg 1)).elemSize = 0 ∧ 0 < (work .gather (gatherMsg 1)).gCount 1 ∧
    (work .gather (gatherMsg 1)).levels ≤ 1 ∧ 0 < gatherDeep.gCount 1 ∧ 1 < gatherDeep.levels ∧ gatherDeep.gBase 1 % 4 = 0 ∧
    (match (engine .ixe gatherDeep).jobReadN gatherDeep pathIxe (ptrAdd (gatherDeep.gBase 1) 0) 4 with | .ok _ v => v == 0 | _ => false) = true ∧
    Inv (engine .ixe (work .gather (gatherMsg 1))) ∧ (engine .ixe (work .gather (gatherMsg 1))).Quiet := by
  refine ⟨?_, ?_, ?_, ?_, ?_, ?_, ?_, ?_, ?_, by unfold Machine.Inv; decide +kernel, ⟨rfl, by intro v hv; cases hv⟩⟩ <;> decide +kernel
/-- One segment of zeros at the start of the cluster's memory, into a target of one pixel at the start of scratch. -/
def rasterMsg : Nat := 2 ^ 32 + inCluster 0 * 2 ^ 64 + 2 ^ 224 + 2 ^ 232 + 4 * 2 ^ 240
/-- What a RASTER comes to: 1 a check, 2 its pointers, 3 a segment, each with the status; 0 where it ends. -/
def rasters (s : State) (j : Job) : Nat × Nat :=
  match (if j.pos = 0 then s.rasterCheck 0 j else none) with
  | some k => (1, k)
  | none =>
    match (if j.pos = 0 then s.rasterPtrs j else .ok s ()) with
    | .fail _ k => (2, k)
    | .ok s1 () =>
      (match s1.readSegs j (j.arg - j.pos) j.pos j.read with
       | (.fail _ _ k, _) => (3, k)
       | (.done s2, l) => (match s2.rasterAdd 0 j l with | .ok _ () => (0, 0) | _ => (9, 9))
       | _ => (9, 9))
    | _ => (9, 9)
theorem witness_engineRaster : heads (engine .cvr (work .raster rasterMsg)) .cvr (work .raster rasterMsg) = true ∧
    rasters (engine .cvr (work .raster rasterMsg)) (work .raster rasterMsg) = (0, 0) ∧
    rasters (engine .cvr (work .raster 0)) (work .raster 0) = (1, 1) ∧
    (let j := work .raster (rasterMsg - inCluster 0 * 2 ^ 64)
     rasters (engine .cvr j) j = (2, 0x12)) ∧
    rasters ((engine .cvr (work .raster rasterMsg)).wr (cmKey 0 0) 32 (2 ^ 256 - 1)) (work .raster rasterMsg) = (3, 1) ∧
    (let j := { work .raster rasterMsg with pos := 1, read := [0] }
     rasters (engine .cvr j) j = (0, 0)) := by
  refine ⟨?_, ?_, ?_, ?_, ?_, ?_⟩ <;> decide +kernel
/-- A line from (0, 0) to (0, 1), which covers the target's one pixel: it adds 256 x 512 (R269). -/
def lineSeg : Nat := 256 * 2 ^ 96
theorem test_lineAdds : segAdds (work .raster rasterMsg).target lineSeg = [(0, 131072)] := by decide +kernel
theorem witness_engineRasterWords : (engine .cvr (work .raster rasterMsg)).rasterCore (work .raster rasterMsg) = some 0 ∧
    (engine .cvr (work .raster rasterMsg)).rasterCore { work .raster rasterMsg with senders := [] } = none ∧
    okJ ((engine .cvr (work .raster rasterMsg)).rasterAdd 0 (work .raster rasterMsg) [lineSeg]) = true ∧
    (work .raster rasterMsg).f 319 256 = 0 ∧ Inv (engine .cvr (work .raster rasterMsg)) ∧
    (((engine .cvr (work .raster rasterMsg)).rasterAdds 0 (work .raster rasterMsg) [lineSeg]).all fun x =>
      scrKey 0 ((work .raster rasterMsg).target.acc + x.1) % 4 == 0) = true := by
  refine ⟨?_, ?_, ?_, ?_, by unfold Machine.Inv; decide +kernel, ?_⟩ <;> decide +kernel
/-- A capability of function 0 for every command on cluster 0's 24 tiles, until second 1 (R243), its tag under the key that
reset leaves, and a message that holds both. -/
def rights : Nat := 24 * 2 ^ 34 + 7 * 2 ^ 44 + 1
def rightsTag : Nat := 16042894898232300479
theorem test_capTag : State.reset.capTag rights = rightsTag := by decide +kernel
def mxeMsg (m : Nat) : Nat := m + rights * 2 ^ 384 + rightsTag * 2 ^ 448
def mxeJob (cmd : Cmd) (m : Nat) : Job := work cmd (mxeMsg m)
/-- capOk but for the tag. -/
def capRest (s : State) (j : Job) : Bool :=
  let r := j.f 447 384
  bits r 63 55 == j.vf && bits r 54 47 == 0 && bit r (rightBit j.cmd) && bits r 33 32 == 0 && bits r 43 39 + bits r 38 34 ≤ 24 &&
    (match j.tile? with | some t => bits r 43 39 ≤ t && t < bits r 43 39 + bits r 38 34 | none => true) && j.arrivedSec % 2 ^ 32 < bits r 31 0 &&
    (match j.tile? with
     | some t => s.groups.all fun g => !(g.tiles.contains t && clusterOf g.core == 0) || g.vf == j.vf
     | none => true)
theorem capOk_of {s : State} {j : Job} (hk : s.deviceKey = State.reset.deviceKey)
    (h : (j.f 447 384 == rights && j.f 511 448 == rightsTag && capRest s j) = true) : s.capOk 0 j = true := by
  simp only [Bool.and_eq_true, beq_iff_eq] at h
  obtain ⟨⟨h1, h2⟩, h3⟩ := h
  have : s.capTag (j.f 447 384) = rightsTag := by rw [h1, ← test_capTag]; simp only [State.capTag, hk]
  unfold capRest at h3
  simp only [Bool.and_eq_true] at h3
  unfold State.capOk
  simp only [this, h2, beq_self_eq_true, Bool.true_and, Bool.and_eq_true]
  exact h3
theorem witness_engineHeads : (mxeJob .mma 0).begun = none ∧ heads (engine .mxe (mxeJob .mma 0)) .mxe (mxeJob .mma 0) = true ∧
    mxeHeadOk (mxeJob .mepi (5 * 2 ^ 16)) = false ∧ mxeHeadOk (mxeJob .mma 0) = true ∧
    (engine .mxe (mxeJob .mma 0)).capOk 0 (mxeJob .mma 0) = true ∧ (engine .mxe (work .mma 0)).capOk 0 (work .mma 0) = false := by
  refine ⟨rfl, ?_, ?_, ?_, capOk_of rfl ?_, ?_⟩ <;> decide +kernel
/-- The engine's state with a parameter record of fmtWord 0 at byte 0x8000 of the cluster's memory. -/
def engineR (j : Job) : State :=
  (engine .mxe j).wr (cmKey 0 0x8000) 32 ((fmtWord 0).toNat + 128 * 2 ^ 160)
/-- The head of the queue, its header and its capability are in order. -/
def mxeHead (j : Job) : Bool := heads (engineR j) .mxe j && mxeHeadOk j &&
  (j.f 447 384 == rights && j.f 511 448 == rightsTag && capRest (engineR j) j)
theorem of_mxeHead {j : Job} (h : mxeHead j = true) : heads (engineR j) .mxe j = true ∧ mxeHeadOk j = true ∧
    (engineR j).capOk 0 j = true := by
  unfold mxeHead at h
  rw [Bool.and_eq_true, Bool.and_eq_true] at h
  exact ⟨h.1.1, h.1.2, capOk_of rfl h.2⟩
/-- A command as it is once its slot has begun. -/
def started (j : Job) : Job := { j with begun := some 1, slotEnd := 1 }
def loadJob (cmd : Cmd) (r : Nat) : Job := mxeJob cmd (inCluster 0x10000 * 2 ^ 64 + r * 2 ^ 128 + 2 ^ 192 + 16384 * 2 ^ 224)
def wJob : Job := loadJob .mloadw (inCluster 0x8000)
def bJob : Job := loadJob .mloadb 0
/-- t is s after reads: more records of readers, and a later tick. -/
def Like (s t : State) : Prop := t = { s with recs := t.recs, tick := t.tick } ∧ ∀ r ∈ t.recs, r.2.writer = none
theorem alPut_writer (l : List (Nat × WordRec)) (k : Nat) (r : WordRec) (hr : r.writer = none) (h : ∀ x ∈ l, x.2.writer = none) :
    ∀ x ∈ alPut l k r, x.2.writer = none := by
  induction l with
  | nil => intro x hx; simp only [alPut, List.mem_singleton] at hx; subst hx; exact hr
  | cons y l ih =>
    intro x hx
    obtain ⟨ky, vy⟩ := y
    unfold alPut at hx
    by_cases h1 : k < ky
    · rw [if_pos h1] at hx
      rcases List.mem_cons.1 hx with rfl | hx
      · exact hr
      · exact h x hx
    · rw [if_neg h1] at hx
      by_cases h2 : k = ky
      · rw [if_pos h2] at hx
        rcases List.mem_cons.1 hx with rfl | hx
        · exact hr
        · exact h x (List.mem_cons_of_mem _ hx)
      · rw [if_neg h2] at hx
        rcases List.mem_cons.1 hx with rfl | hx
        · exact h _ (List.mem_cons_self ..)
        · exact ih (fun z hz => h z (List.mem_cons_of_mem _ hz)) x hx
theorem Like.refl {s : State} (h : ∀ r ∈ s.recs, r.2.writer = none) : Like s s := ⟨rfl, h⟩
theorem noteWord_like {s t : State} {w : Who} {die : Nat → Nat} {x : Nat} (h : Like s t) : Like s (State.noteWord w .read die t x) := by
  obtain ⟨h1, h2⟩ := h
  refine ⟨?_, alPut_writer _ _ _ ?_ h2⟩
  · generalize h3 : (State.noteWord w .read die t x) = u
    have : u = { t with recs := u.recs } := by subst h3; rfl
    rw [this, h1]
  · cases hg : alGet t.recs x with
    | none => rfl
    | some r =>
      have : ∀ l : List (Nat × WordRec), alGet l x = some r → (∀ y ∈ l, y.2.writer = none) → r.writer = none := by
        intro l
        induction l with
        | nil => intro h; cases h
        | cons y l ih =>
          intro h h4
          unfold alGet at h
          split at h
          · cases h; exact h4 _ (by simp)
          · exact ih h fun z hz => h4 z (by simp [hz])
      exact this _ hg h2
theorem noteWords_like {s t : State} {w : Who} {die : Nat → Nat} (l : List Nat) (h : Like s t) : Like s (t.noteWords w .read l die) := by
  unfold State.noteWords
  have h0 : Like s t.tock := ⟨by have := h.1; generalize h3 : t.tock = u; have h4 : u = { t with tick := u.tick } := by subst h3; rfl
                                 rw [h4, this], h.2⟩
  generalize t.tock = u at h0
  induction l generalizing u with
  | nil => exact h0
  | cons x l ih => exact ih _ (noteWord_like h0)
/-- Every piece of a read lies in a cluster's memory. -/
def inCm (s : State) (j : Job) (l : List (Nat × Nat)) : Bool :=
  l.all fun x => bits x.1 63 56 == 0xFE && match s.probeJob j x.1 x.2 .r with | .at (.mem _ 256 true none) => true | _ => false
/-- A read of one piece there. -/
def inMem (s : State) (j : Job) (l : List (Nat × Nat)) : Bool := inCm s j l && l.length ≤ 1
/-- Where no word has a mark or an owner, and readers alone have records, engines may read what an xfence lets them read. -/
def clean (s : State) (w : Who) : Bool := s.owned.isEmpty && s.marks.isEmpty && s.pathOk none w
theorem checkWords_like {s t : State} {w : Who} {die : Nat → Nat} (l : List Nat) (h : Like s t) (hc : clean s w = true)
    (hd : ∀ x, die x = 4) : t.checkWords w .read l die false = none := by
  unfold clean at hc
  simp only [Bool.and_eq_true, List.isEmpty_iff] at hc
  have hp : t.pathOk none w = true := by rw [h.1]; exact hc.2
  have ho : t.owned = [] := by rw [h.1]; exact hc.1.1
  have hm : t.marks = [] := by rw [h.1]; exact hc.1.2
  have h1 : ∀ x, t.raceWord w .read x = none := by
    intro x
    have hb : t.ownedBlocks w x = false := by simp [State.ownedBlocks, ho]
    have hw : ∀ r, alGet t.recs x = some r → r.writer = none := by
      have : ∀ l : List (Nat × WordRec), (∀ y ∈ l, y.2.writer = none) → ∀ r, alGet l x = some r → r.writer = none := by
        intro l
        induction l with
        | nil => intro _ r h; cases h
        | cons y l ih =>
          intro h4 r h
          unfold alGet at h
          split at h
          · cases h; exact h4 _ (by simp)
          · exact ih (fun z hz => h4 z (by simp [hz])) r h
      exact this _ h.2
    simp only [State.raceWord, hb]
    split
    · contradiction
    · split
      · rfl
      · rename_i r hr
        simp [hw r hr]
  have h2 : ∀ x, t.pathWord w .read x false = none := by
    intro x
    simp [State.pathWord, hm, alGet, hp]
  have h3 : ∀ (f : Nat → Option Nat), (∀ x, f x = none) → l.findSome? f = none := fun f hf => by
    rw [List.findSome?_eq_none_iff]; intro x _; exact hf x
  have h4 : t.footprintFull die l = false := by
    simp [State.footprintFull, State.dieFull, hd, show List.range 4 = [0, 1, 2, 3] from rfl]
  simp [State.checkWords, h3 _ h1, h3 _ h2, h4]
theorem jobPieces_like {s t : State} {j : Job} {w : Who} {waits : Bool} (h : Like s t) (hc : clean s w = true) (l : List (Nat × Nat))
    (hl : inCm s j l = true) :
    ∃ sp, t.jobPieces j w .read .r waits l = .ok t sp ∧ sp.length = l.length ∧ ∀ x ∈ sp, ∃ k, x.1 = .mem k 256 true none := by
  induction l with
  | nil => exact ⟨[], rfl, rfl, by simp⟩
  | cons x l ih =>
    obtain ⟨p, n⟩ := x
    unfold inCm at hl
    simp only [List.all_cons, Bool.and_eq_true] at hl
    obtain ⟨⟨hr, hx⟩, hl⟩ := hl
    have hp : t.probeJob j p n .r = s.probeJob j p n .r := by rw [h.1]; rfl
    have hw : t.engWalked j p n .r = t := by simp only [State.engWalked, hr, Bool.true_or, if_true]
    obtain ⟨sp, hs, hn, hk⟩ := ih hl
    split at hx
    · rename_i _ k hq
      have hcw := checkWords_like (die := t.dieAt (.mem k 256 true none)) (wordsOf k n) h hc (fun _ => rfl)
      unfold State.jobPieces
      simp only [hw, hp, hq, State.bankBusy, State.moves, Bool.and_false, Bool.or_false, Bool.false_eq_true, if_false, State.checkSpot,
        if_true, hs, JRes.bind]
      rw [hcw]
      refine ⟨_, rfl, by simp [hn], ?_⟩
      intro y hy
      rcases List.mem_cons.1 hy with rfl | hy
      · exact ⟨k, rfl⟩
      · exact hk y hy
    · cases hx
theorem jobSpots_like {s t : State} {j : Job} {w : Who} {waits : Bool} (h : Like s t) (hc : clean s w = true) (l : List (Nat × Nat))
    (hl : inMem s j l = true) : ∃ sp, t.jobSpots j w .read .r waits l = .ok t sp ∧ ∀ x ∈ sp, ∃ k, x.1 = .mem k 256 true none := by
  simp only [inMem, Bool.and_eq_true, decide_eq_true_eq] at hl
  obtain ⟨sp, hs, hn, hk⟩ := jobPieces_like (waits := waits) h hc l hl.1
  refine ⟨sp, ?_, hk⟩
  unfold State.jobSpots
  rw [hs]
  simp only [JRes.bind]
  rw [if_neg]
  simp only [Bool.and_eq_true, decide_eq_true_eq]
  omega
theorem jobWho_like {s t : State} (h : Like s t) (j : Job) (path : Nat) : t.jobWho j path = s.jobWho j path := by
  rw [h.1]; rfl
theorem jobRead_like {s t : State} {j : Job} {path p n : Nat} {waits : Bool} (h : Like s t) (hc : clean s (s.jobWho j path) = true)
    (hr : (bits p 63 56 == 0xFE) = true) (hl : inMem s j (piecesOf p n) = true) :
    ∃ u b, t.jobReadW j path p n waits = .ok u b ∧ Like s u := by
  obtain ⟨sp, hs, hk⟩ := jobSpots_like (waits := waits) h hc _ hl
  unfold State.jobReadW
  simp only [jobWho_like h, hs, JRes.bind, State.engTouched, hr, if_true]
  refine ⟨_, _, rfl, ?_⟩
  clear hs hl
  generalize hz : (([] : List Byte), t) = z
  have hz2 : Like s z.2 := by subst hz; exact h
  clear hz h
  induction sp generalizing z with
  | nil => exact hz2
  | cons x sp ih =>
    refine ih (fun y hy => hk y (by simp [hy])) _ ?_
    obtain ⟨k, hx⟩ := hk x (by simp)
    obtain ⟨x1, x2⟩ := x
    cases hx
    exact noteWords_like _ hz2
theorem jobRows_like {s t : State} {j : Job} {p n : Nat} (h : Like s t) (hc : clean s (s.jobWho j pathMxe) = true)
    (hr : (bits p 63 56 == 0xFE) = true) (hl : inMem s j (piecesOf p n) = true) (hp : ptrAdd p 0 = p) (k : Nat) :
    ∃ u l, t.jobRows j n 0 k p = .ok u l ∧ Like s u := by
  induction k generalizing t with
  | zero => exact ⟨t, [], rfl, h⟩
  | succ k ih =>
    obtain ⟨u, b, hu, h1⟩ := jobRead_like (waits := false) h hc hr hl
    obtain ⟨v, l, hv, h2⟩ := ih h1
    refine ⟨v, b :: l, ?_, h2⟩
    unfold State.jobRows
    rw [hu]
    show (State.jobRows u j n 0 k (ptrAdd p 0)).bind _ = _
    rw [hp, hv]
    rfl
/-- A load of one macro that can be read ends. -/
theorem loadMacros_one {s u : State} {f : State → Nat → JRes Macro} {j : Job} {i k rows n stride : Nat} {m : Macro}
    (h : f s (ptrAdd (j.f 127 64) ((i * j.f 255 224 : Nat) : Int)) = .ok u m) :
    ∃ s2 k2, s.loadMacros 0 f rows n stride j [i] k = (.done s2, k2) := by
  unfold State.loadMacros
  simp only [h]
  exact ⟨_, _, rfl⟩
def recW : Nat := (fmtWord 0).toNat + 128 * 2 ^ 160
theorem witness_engineLoads : mxeHead wJob = true ∧ mxeHead bJob = true ∧ loadBad wJob = false ∧ loadBad bJob = false ∧
    bJob.f 191 128 = 0 ∧ wJob.maskList = [0] ∧ bJob.maskList = [0] ∧ fmtValid (recDesc recW) = true ∧ bscaleOf (recDesc recW) = 0 ∧
    recStride recW = 0 ∧ containerOf (fmtOf (recDesc recW)).width = 6 := by
  refine ⟨?_, ?_, ?_, ?_, ?_, ?_, ?_, ?_, ?_, ?_, ?_⟩ <;> decide +kernel
/-- Both loads read their macros, from the state that the record's read leaves or from their own. -/
theorem witness_engineLoadRows :
    (∃ s1 s2 k2, (engineR wJob).keptRecord (started wJob).loadBegin (wJob.f 191 128) = .ok s1 recW ∧
      s1.loadMacros 0 (fun u base => (u.jobRows (started wJob).loadBegin 96 0 128 base).bind fun v rows =>
        .ok v { fmt := some (BitVec.ofNat 64 (recDesc recW)), binary := false,
                bits := joinElems 1024 (rows.map fun b => joinElems 8 (unpackCodes 6 128 b)) }) 128 96 0
        { (started wJob).loadBegin with read := [recW] } [0] 0 = (.done s2, k2)) ∧
    ∃ s2 k2, (engineR bJob).loadMacros 0 (fun u base => (u.jobReadW (started bJob) pathMxe base 16384 false).bind fun v b =>
        .ok v { fmt := none, binary := true, bits := natOfBytes b }) 1024 16 16 (started bJob).loadBegin [0] 0 = (.done s2, k2) := by
  refine ⟨?_, ?_⟩
  · obtain ⟨u, b, h, hu⟩ := jobRead_like (s := engineR wJob) (t := engineR wJob) (p := wJob.f 191 128) (n := 32) (waits := true)
      (j := (started wJob).loadBegin) (path := pathMxe) (Like.refl (by decide +kernel)) (by decide +kernel) (by decide +kernel) (by decide +kernel)
    have hk : (engineR wJob).keptRecord (started wJob).loadBegin (wJob.f 191 128) = .ok u (natOfBytes b) := by
      have h0 : (started wJob).loadBegin.read = [] := rfl
      have h1 : (wJob.f 191 128 % 32 != 0) = false := by decide +kernel
      unfold State.keptRecord State.jobRecord State.jobReadN State.jobRead
      simp only [h0, h1, h, JRes.bind, Bool.false_eq_true, if_false]
    have hv : (match (engineR wJob).keptRecord (started wJob).loadBegin (wJob.f 191 128) with | .ok _ r => r == recW | _ => false) = true := by
      decide +kernel
    rw [hk] at hv
    have hb : natOfBytes b = recW := eq_of_beq hv
    obtain ⟨v, l, hr, -⟩ := jobRows_like (s := engineR wJob) (t := u) (j := (started wJob).loadBegin)
      (p := ptrAdd ((started wJob).loadBegin.f 127 64) ((0 * (started wJob).loadBegin.f 255 224 : Nat) : Int)) (n := 96)
      hu (by decide +kernel) (by decide +kernel) (by decide +kernel) (by decide +kernel) 128
    obtain ⟨s2, k2, h2⟩ := loadMacros_one (s := u) (rows := 128) (n := 96) (stride := 0) (k := 0) (i := 0)
      (j := { (started wJob).loadBegin with read := [recW] })
      (f := fun u base => (u.jobRows (started wJob).loadBegin 96 0 128 base).bind fun v rows =>
        .ok v { fmt := some (BitVec.ofNat 64 (recDesc recW)), binary := false,
                bits := joinElems 1024 (rows.map fun b => joinElems 8 (unpackCodes 6 128 b)) }) (by
      show (State.jobRows u (started wJob).loadBegin 96 0 128
        (ptrAdd ((started wJob).loadBegin.f 127 64) ((0 * (started wJob).loadBegin.f 255 224 : Nat) : Int))).bind _ = _
      rw [hr]; rfl)
    exact ⟨u, s2, k2, hb ▸ hk, h2⟩
  · obtain ⟨u, b, h, -⟩ := jobRead_like (s := engineR bJob) (t := engineR bJob)
      (p := ptrAdd ((started bJob).loadBegin.f 127 64) ((0 * (started bJob).loadBegin.f 255 224 : Nat) : Int)) (n := 16384) (waits := false)
      (j := started bJob) (path := pathMxe) (Like.refl (by decide +kernel)) (by decide +kernel) (by decide +kernel) (by decide +kernel)
    exact loadMacros_one (by
      show (State.jobReadW _ _ _ _ _ _).bind _ = _
      rw [h]; rfl)
/-- One row against one macro. -/
def rowJob (cmd : Cmd) (r : Nat) : Job := mxeJob cmd (2 ^ 32 + inCluster 0x10000 * 2 ^ 64 + r * 2 ^ 128 + 2 ^ 216 + 2 ^ 224)
def aJob : Job := rowJob .mma (inCluster 0x8000)
def oJob : Job := rowJob .mmab 0
/-- A tile at the limit of R45. -/
def fullTile : Tile := { Tile.clear with ktotal := 2 ^ 20 }
def rowsDone (r : RunEnd × List Nat) : Bool := match r with | (.done _, _) => true | _ => false
def products (j0 : Job) : Bool :=
  match (engineR aJob).keptRecord j0 (j0.f 191 128) with
  | .ok s1 r =>
    fmtValid (recDesc r) && rowsDone (s1.rowsRead (fun u i => (u.mmaRead j0 r (recDesc r) (128 * j0.f 223 216) i).bind fun u x =>
      .ok u [x.1, x.2]) (j0.arg - j0.pos) j0.pos [r])
  | _ => false
theorem witness_engineProducts : mxeHead aJob = true ∧ mxeHead oJob = true ∧ mmaBad aJob = false ∧ mmaBad oJob = false ∧
    aJob.arg = 1 ∧ ((engineR aJob).used16 0 (aJob.f 223 216)).all (fun x => x.binary == false && x.fmt.isNone) = true ∧
    products { aJob with begun := some 1, slotEnd := 65 } = true ∧ oJob.f 191 128 = 0 ∧
    rowsDone ((engineR oJob).rowsRead (fun u i => (u.jobReadN (started oJob) pathMxe (ptrAdd (oJob.f 127 64) ((128 * oJob.f 223 216 * i : Nat) : Int))
      (128 * oJob.f 223 216)).bind fun u b => .ok u [b]) (oJob.arg - oJob.pos) oJob.pos oJob.read) = true ∧
    ((engineR oJob).tile 0 (oJob.f 215 208)).ktotal + 1024 * oJob.f 223 216 ≤ 2 ^ 20 ∧
    2 ^ 20 < (((engineR oJob).setTile 0 0 fullTile).tile 0 (oJob.f 215 208)).ktotal + 1024 * oJob.f 223 216 := by
  refine ⟨?_, ?_, ?_, ?_, ?_, ?_, ?_, ?_, ?_, ?_, ?_⟩ <;> decide +kernel
/-- One row of FP32, its counter word at byte 0x9000. -/
def eJob : Job := mxeJob .mepi (inCluster 0x10000 * 2 ^ 64 + inCluster 0x8000 * 2 ^ 128 + inCluster 0x9000 * 2 ^ 192 + 2 ^ 264)
def epilogue (k1 : Job) : Bool :=
  match (engineR eJob).keptRecord k1 (k1.f 191 128) with
  | .ok s1 r =>
    let k2 := { k1 with read := [r] }
    (match s1.epiRows k2 (epiFmt (k1.p % 8) r) (s1.tile 0 (k1.f 263 256)) 0 (recStride r) (k1.f 271 264 - k1.pos) k1.pos with
     | .done s2 => okJ (s2.jobWrite k2 pathMxe (k1.f 255 192) (bytesOfNat 8 (s1.tile 0 (k1.f 263 256)).counter))
     | _ => false)
  | _ => false
theorem witness_engineEpilogue : mxeHead eJob = true ∧ eJob.f 383 272 = 0 ∧ eJob.f 271 264 = 1 ∧ eJob.f 255 192 % 8 = 0 ∧
    eJob.p % 8 = 0 ∧ ((engineR eJob).tile 0 (eJob.f 263 256)).count = 0 ∧
    epilogue { eJob with begun := some 1, slotEnd := 67 } = true := by
  refine ⟨?_, ?_, ?_, ?_, ?_, ?_, ?_⟩ <;> decide +kernel
/-- A job of the pair frontier engine as it stands in the middle, its records two of one stage, and its engine's state. -/
def stageRec : BitVec 256 := BitVec.ofNat 256 (0xFE * 2 ^ 120 + 0xA000 * 2 ^ 64 + 16 * 2 ^ 128 + 16 * 2 ^ 160 + 2 ^ 208)
def frontier (cmd : Cmd) (p : Pfe) : Job :=
  { work cmd (inCluster 0x6000 * 2 ^ 64 + inCluster 0x7000 * 2 ^ 128 + inCluster 0x7000 * 2 ^ 192) with pos := 3, phase := .running, pfe := p }
def tree : BitVec 512 := BitVec.ofNat 512 (inCluster 0x5000 + 2 ^ 192 + 2 ^ 224 + 4 * 2 ^ 288 + 2 ^ 352)
def half : Pfe := { Pfe.empty with desc := tree, near := stageRec, far := stageRec }
def task (kind : Nat) (slot : Option Nat) : Emit := { a := 0, b := 0, kind := kind, slot := slot, filling := false }
theorem witness_enginePairs : heads (engine .pfe (frontier .traverse half)) .pfe (frontier .traverse half) = true ∧ (work .traverse 0).pos = 0 ∧ half.mayDecide = true ∧
    ({ half with bag := [(0, 0)] }).pop.isSome = true ∧ half.pop = none ∧ half.pending = [] ∧
    okJ ((engine .pfe (frontier .traverse half)).jobWrite (frontier .traverse half) pathPfe (travBag (frontier .traverse half))
      (List.replicate (16 * dCap tree) 0)) = true := by
  refine ⟨?_, ?_, ?_, ?_, ?_, ?_, ?_⟩ <;> decide +kernel
theorem witness_engineSweeps : (work .sweepup 0).pos = 0 ∧ dCountA tree = 1 ∧ ({ work .sweepdn 0 with pos := 1, pfe := half } : Job).pos = 1 ∧
    1 < (frontier .sweepup half).pos ∧ half.mayVisit = true ∧ ({ half with walk := [(0, 0)] }).walk = [(0, 0)] ∧ half.walk = [] ∧
    half.tasks = [] ∧ half.retired = [] := by
  refine ⟨?_, ?_, ?_, ?_, ?_, ?_, ?_, ?_, ?_⟩ <;> decide +kernel
def claiming : Job := frontier .traverse { half with pending := [task 1 none] }
def filling : Job := frontier .sweepup { half with pending := [task 2 (some 0)] }
def fills : Bool :=
  match (engine .pfe filling).claimSlot filling (filling.pfe.record (task 2 (some 0))) 0 with
  | .ok s1 (some j) => okJ (s1.fillSlot j (filling.pfe.record (task 2 (some 0))) (task 2 (some 0)) 0)
  | _ => false
/-- The same where the slot is not empty: its tag reads 2. -/
def fillsNot : Bool :=
  match ((engine .pfe filling).wr (cmKey 0 0xA100) 1 2).claimSlot filling (filling.pfe.record (task 2 (some 0))) 0 with
  | .ok _ none => true
  | _ => false
def retiring : Job := frontier .sweepup { half with retired := [(0, none)] }
theorem witness_engineEmits : claiming.pfe.pending[0]? = some (task 1 none) ∧
    okJ ((engine .pfe claiming).claimIndex claiming (claiming.pfe.record (task 1 none))) = true ∧
    filling.pfe.pending[0]? = some (task 2 (some 0)) ∧ fills = true ∧ fillsNot = true ∧
    okJ (((engine .pfe filling).wr (cmKey 0 0xA100) 1 1).fillSlot filling (filling.pfe.record (task 2 (some 0))) (task 2 (some 0)) 0) = true ∧
    retiring.pfe.retired = [(0, none)] ∧ retiring.pfe.left = none ∧ okJ ((engine .pfe retiring).dependents retiring 0) = true ∧
    okJ ((engine .pfe retiring).decOne retiring none 0) = true := by
  refine ⟨?_, ?_, ?_, ?_, ?_, ?_, ?_, ?_, ?_, ?_⟩ <;> decide +kernel

/-! ### Witnesses: the world outside, the mailbox, every step -/

/-- The user's package with a store armed for time 0, a counter at its top, an overflowed page, and a link that is up. -/
def full : State := { (State.reset.updCore 0 fun k => { k with pmc := Vector.replicate 8 (BitVec.allOnes 48) }) with
  trels := [armed], pages := [(0, { count := 1, vf := 0, queued := none, overflow := true })], links := [(0, Link.trained)] }
/-- A write of device 7, which its home is to commit at time `due`. -/
def written (src due : Nat) : FabWrite :=
  { FabWrite.new 5 0xFFFF 0 0 [] with src := src, seq := 1, tag := 1, due := due }
/-- It waits at its home; or there for an xlinv. -/
def awaiting (due : Nat) : State := { State.reset with dueWrites := [written 7 due] }
def heldHome (retry : Bool) : State := { State.reset with heldWrites := [{ write := written 7 0, va := 0, retry := retry }] }
/-- Core 0's first counter counts cycles in user mode, its group's mode. -/
def countingCore : State :=
  { st user with cores := [(0, { Core.fresh with pmsel := Vector.replicate 8 (BitVec.ofNat 64 (1 + 2 ^ 17)), pmc := Vector.replicate 8 (BitVec.allOnes 48) })] }
theorem witness_environmentTime : full.refreshing 1 = false ∧ full.refreshing 0 = true ∧ full.trels[0]? = some armed ∧
    armed.time ≤ full.clockNs ∧ full.trelMoves armed = false ∧ (awaiting 0).dueWrites[0]? = some (written 7 0) ∧ (awaiting 0).fabDue (written 7 0) = true ∧
    (heldHome true).heldWrites[0]? = some { write := written 7 0, va := 0, retry := true } ∧
    full.counts 0 0 = false ∧ countingCore.counts 0 ((countingCore.core 0).pmsel[0]).toNat = true ∧
    ((countingCore.core 0).pmsel[0]).getLsbD 19 = false ∧ (countingCore.core 0).pmc[0] = BitVec.allOnes 48 ∧ full.overflowed 0 = true := by
  refine ⟨?_, ?_, rfl, ?_, ?_, rfl, ?_, rfl, ?_, ?_, ?_, ?_, ?_⟩ <;> decide +kernel
theorem witness_environmentFabric : ({ written State.reset.device 0 with ack := true } : FabWrite).src = State.reset.device ∧
    (written 7 0).ack = false ∧ (written 7 0).src ≠ State.reset.device ∧ ({ written 0 0 with dst := State.reset.device } : FabWrite).dst = State.reset.device ∧
    (written 7 0).dst = 0xFFFF ∧
    alGet ({ State.reset with committed := [(State.reset.fabKey (written 7 0), 1)] } : State).committed (State.reset.fabKey (written 7 0)) = some 1 ∧
    alGet State.reset.committed (State.reset.fabKey (written 7 0)) = none ∧ State.reset.dueWrites = [] ∧
    State.reset.heldWrites = [] ∧ (∃ x ∈ (awaiting 9).dueWrites, x.src = 7 ∧ x.stream = 5 ∧ x.seq = 1) ∧ State.reset.clockNs < (written 7 9).due ∧
    (written 7 0).due ≤ State.reset.clockNs ∧ alGet full.links 0 = some Link.trained ∧ Link.trained.up = true ∧
    0 ∈ (State.reset.sendFabric (written 7 0)).fabUsers := by
  refine ⟨rfl, rfl, ?_, rfl, rfl, ?_, ?_, rfl, rfl, ⟨_, List.mem_singleton.2 rfl, rfl, rfl, rfl⟩, ?_, ?_, ?_, rfl, ?_⟩ <;> decide +kernel
theorem witness_environmentClockAndHost : State.reset.profile = 0 ∧ ({ State.reset with profile := 1, clk := 1 } : State).profile ≠ 0 ∧
    ({ State.reset with profile := 1, clk := 1 } : State).clk = 1 ∧ Inv State.reset ∧ State.reset.NoHead 64 4 ∧ State.reset.Quiet ∧
    State.reset.mbrdy = false ∧ ({ State.reset with mbrdy := true } : State).mbrdy = true ∧
    (st user).groupOn? 0 = some (grp user) ∧ (grp user).ctx? 0 = some user ∧ State.reset.powered = false ∧
    (Config.firmwareOk State.reset.boots = true ∨ Config.firmwareOk State.reset.boots = false) ∧
    ({ State.reset with powered := true } : State).powered = true ∧
    ((engine .cpy (work .copy 0)).jobs 0 .cpy).head? = some (work .copy 0) ∧ ∀ v, (work .copy 0).phase ≠ .done v := by
  refine ⟨rfl, ?_, rfl, ?_, ?_, ⟨rfl, by simp [State.reset]⟩, rfl, rfl, ?_, ?_, rfl, ?_, rfl, ?_, ?_⟩
  · decide
  · show Memory.wf _ = true; rfl
  · intro v hv; cases hv
  · decide +kernel
  · decide +kernel
  · cases Config.firmwareOk State.reset.boots <;> simp
  · decide +kernel
  · intro v hv; cases hv
/-- The package with its mailbox open, a command with this argument block, and the state whose block holds v. -/
def mb : MbCmd := { vf := 1, arg := 0x10000, res := 0x20000 }
def host (v : Nat) : State := ({ st user with mbrdy := true }).wr (hostKey mb.arg) 32 v
/-- A VFRESET of the command's function runs until its function's last job is done. -/
def resetRuns : State := { host 0 with mbctl := BitVec.ofNat 64 (1 + 2 * 2 ^ 8 + mb.vf * 2 ^ 16) }
theorem witness_mailboxGate : State.reset.mbrdy = false ∧ (host 0).mbrdy = true ∧ (host 0).mbBusy = false ∧ State.reset.mbBusy = false ∧
    resetRuns.mbBusy = true ∧ resetRuns.resetting mb.vf = true ∧ resetRuns.resetting 0 = false ∧ ({ mb with arg := 1 } : MbCmd).arg.toNat % 4096 ≠ 0 ∧
    mb.arg.toNat % 4096 = 0 ∧ mb.res.toNat % 65536 = 0 ∧ mb.vf < 512 ∧ mb.res.toNat < 2 ^ 56 := by
  refine ⟨rfl, ?_, ?_, ?_, ?_, ?_, ?_, ?_, ?_, ?_, ?_, ?_⟩ <;> decide +kernel
theorem witness_mailboxFunctions : blockOk ((host 1).rd (hostKey mb.arg) 128) = false ∧ blockOk ((host 0).rd (hostKey mb.arg) 128) = true ∧
    ((host 0).groups.any fun g => g.vf == 0) = true ∧ ((host 0).groups.all fun g => g.vf != mb.vf) = true ∧ Inv (host 0) ∧
    (host 0).vfs = [] ∧ (host 0).pending = [] := by
  refine ⟨?_, ?_, ?_, ?_, ?_, ?_, ?_⟩ <;> first | decide +kernel | (show Memory.wf _ = true; decide +kernel)
theorem witness_mailboxClock :
    (let v := (host (2 ^ 8)).rd (hostKey mb.arg) 32; v / 2 ^ 16 = 0 ∧ v % 2 ^ 8 = 0 ∧ v / 2 ^ 8 ≤ 2) ∧
    (let v := (host (1 + 5 * 2 ^ 64)).rd (hostKey mb.arg) 32; v % 2 ^ 64 = 1 ∧ v / 2 ^ 128 = 0) ∧ (host 0).reservations = [] ∧
    (let v := (host (2 + 7 * 2 ^ 128)).rd (hostKey mb.arg) 32; v % 2 ^ 128 = 2 ∧ v / 2 ^ 160 = 0 ∧ toI 32 (v / 2 ^ 128) = 7) := by
  refine ⟨?_, ?_, ?_, ?_⟩ <;> decide +kernel
theorem witness_mailboxOthers : (host 0).pods = [] ∧ ([0].all fun k => !((host 0).heldCores (dieOfCore k)).contains k) = true ∧
    (host 0).rd (hostKey mb.arg) 8 < 1200 ∧ (host 1500).rd (hostKey mb.arg) 8 = 1500 ∧
    (Config.signatureOk [] [] = true ∨ Config.signatureOk [] [] = false) := by
  refine ⟨?_, ?_, ?_, ?_, ?_⟩
  · decide +kernel
  · decide +kernel
  · decide +kernel
  · decide +kernel
  · cases Config.signatureOk [] [] <;> simp
theorem witness_nothingStops : isEvent .holdover = true ∧ (∃ g c, (st user).Acts g c) ∧ (st user).Ids :=
  ⟨rfl, ⟨_, _, acts user⟩, by decide +kernel, by decide +kernel⟩
theorem witness_stepKeepsGroupNumbers : ∃ s t : State, s.Ids ∧ step s = .next t :=
  have ⟨t, h⟩ := of_next (o := step (State.reset.withFetchWord 32 0x00629404)) (by decide +kernel)
  ⟨_, t, ⟨by decide +kernel, by decide +kernel⟩, h⟩

/-! ### One-step results, worked by hand from the rules or taken from the spec's own examples -/

/-- The context after one instruction of the group's context. -/
def after (i : Instr) (c : Ctx) : Option Ctx := (nextOf (exec i (st c))).bind fun t => (t.group? 1).bind fun g => g.ctx? 0
def xAfter (i : Instr) (c : Ctx) (d : Fin 32) : Option Nat := (after i c).map fun c => (c.r.x[d]).toNat
/-- The first n elements of width w of a v register. -/
def vAfter (i : Instr) (c : Ctx) (d : Fin 32) (w n : Nat) : Option (List Nat) :=
  (after i c).map fun c => elems w n (c.r.v[d]).toNat
/-- What class A's arithmetic computes at its corners (R139-R142): division by zero, the signed division that overflows, a
remainder's sign, rot, clz of 0, and a sum that wraps. -/
theorem test_results_arithmetic :
    let c := xs user [(5, 2 ^ 63), (6, 2 ^ 64 - 1), (7, 2 ^ 64 - 7)]
    xAfter (.div false 1 7 (.reg 0)) c 1 = some (2 ^ 64 - 1) ∧ xAfter (.rem false 1 7 (.reg 0)) c 1 = some (2 ^ 64 - 7) ∧
    xAfter (.div false 1 5 (.reg 6)) c 1 = some (2 ^ 63) ∧ xAfter (.rem false 1 7 (.imm 2)) c 1 = some (2 ^ 64 - 1) ∧
    xAfter (.rot 1 5 (.imm 1)) c 1 = some 1 ∧ xAfter (.clz 1 0) c 1 = some 64 ∧ xAfter (.add 1 6 (.reg 6)) c 1 = some (2 ^ 64 - 2) ∧
    xAfter (.mulh true 1 6 (.reg 6)) c 1 = some (2 ^ 64 - 2) ∧ xAfter (.mulh false 1 6 (.reg 6)) c 1 = some 0 := by decide +kernel
/-- R50, R140: the mint's reference table. -/
theorem test_results_mint :
    let c := xs user [(3, 1)]
    xAfter (.xmint false 4 3 (.reg 0)) c 4 = some 0xED345605 ∧ xAfter (.xmint true 4 3 (.imm 0)) c 4 = some 0xFD13 ∧
    xAfter (.xmint true 4 3 (.imm 1)) c 4 = some 0xF827 ∧ xAfter (.xmint false 4 0 (.reg 0)) c 4 = some 0 := by decide +kernel
/-- A taken branch moves three words back; one that is not taken goes on past its own two words (R143). -/
theorem test_results_flow :
    (after (.bc .ne 6 0 (BitVec.ofInt 23 (-3))) (xs user [(6, 1)])).map (·.pcA) = some (codeBase - 12) ∧
    (after (.bc .ne 6 0 (BitVec.ofInt 23 (-3))) user).map (·.pcA) = some (codeBase + 8) ∧
    (after (.call 1 5) (xs user [(5, codeBase.toNat + 64)])).map (fun c => (c.r.x[1], c.pcA)) =
      some (codeBase + 4, codeBase + 64) := by decide +kernel
/-- A store to scratch and a load of what it stored, sign-extended (R150, R154). -/
theorem test_results_memory :
    let c := xs user [(5, 0x80), (6, 0x1F0)]
    (nextOf (exec (.sts .i8 6 5 (.reg 0)) (st c))).map (fun t => (t.byteAt (scrKey 0 0x80), t.byteAt (scrKey 0 0x81))) =
      some (0xF0, 0) ∧
    ((nextOf (exec (.sts .i8 6 5 (.reg 0)) (st c))).bind fun t => (nextOf (exec (.lds .i8 7 5 (.reg 0)) t))).bind
      (fun t => (t.group? 1).bind fun g => (g.ctx? 0).map fun c => c.r.x[7]) = some (BitVec.ofInt 64 (-16)) := by decide +kernel
/-- R191's example: under g1 with lanes 0-5, here to v6 and v7. -/
theorem test_results_topk :
    let c := vs { user with r := { user.r with g := user.r.g.set 1 0x3F } }
      [(4, [0x40400000, 0xC0E00000, 0x7FC00000, 0x40E00000, 0x80000000, 0x40000000, 0x7F800000])]
    let i := Instr.vtopk { g := 1, fn := 0, b := 0, a := 4, d := 6, form := .medium false 0 0 4 }
    vAfter i c 6 32 5 = some [0x7FC00000, 0xC0E00000, 0x40E00000, 0x40400000, 0] ∧ vAfter i c 7 32 5 = some [2, 1, 3, 0, 0xFFFFFFFF] := by
  refine ⟨?_, ?_⟩ <;> decide +kernel
/-- R203's table, under both rules. -/
theorem test_results_wind :
    let c := vs user [(1, [131072, 65536, 2 ^ 32 - 98304, 196608])]
    vAfter (.vwind (short 0 3 1 0)) c 3 8 5 = some [255, 128, 191, 255, 0] ∧
    vAfter (.vwind (short 1 3 1 0)) c 3 8 5 = some [255, 128, 191, 128, 0] := by refine ⟨?_, ?_⟩ <;> decide +kernel
/-- R40's example: 1.0 + 2^-9 to BF16 rounds up below 0x40000000 and down from there, NX raised. -/
theorem test_results_stochastic :
    let c := vs user [(6, [0x3F804000, 0x3F804000]), (7, [0x3FFFFFFF, 0x40000000])]
    let i := Instr.vcvt (medium 5 5 6 7 0x10)
    vAfter i c 5 16 2 = some [0x3F81, 0x3F80] ∧ (after i c).map (fun c => c.csr.fflags) = some fNX := by
  refine ⟨?_, ?_⟩ <;> decide +kernel
/-- R48: vred add of N elements leaves the sum at position 0 and zeros; R49: vscan add of ones counts up. -/
theorem test_results_reduce :
    let c := vs user [(4, List.replicate 128 1)]
    vAfter (.vred (short 3 5 4 0)) c 5 32 2 = some [128, 0] ∧ vAfter (.vscan (short 3 5 4 0)) c 5 32 3 = some [1, 2, 3] := by
  refine ⟨?_, ?_⟩ <;> decide +kernel
/-- R25, R28, R29: infinity minus infinity is the generated NaN with NV; the lower of the two zeros is -0. -/
theorem test_results_float :
    let c := vs user [(1, [0x7F800000, 0]), (2, [0x7F800000, 0x80000000])]
    vAfter (.vsub (short 0 3 1 2)) c 3 32 2 = some [0x7FC00000, 0] ∧ vAfter (.vmin (short 0 3 1 2)) c 3 32 2 = some [0x7F800000, 0x80000000] ∧
    (after (.vsub (short 0 3 1 2)) c).map (fun c => c.csr.fflags) = some fNV := by refine ⟨?_, ?_, ?_⟩ <;> decide +kernel
/-- A bare trap is cause 0x30 and enters the handler in supervisor mode with the next address saved (R320, R326); one in a handler halts
the group, once the CVR has done with its scratch (R266, R322). -/
theorem test_results_trap :
    (after .trap user).map (fun c => (c.pcA, c.csr.tcause, c.csr.mode, c.csr.intrap)) = some (0x100, 0x30, true, true) ∧
    (after .trap user).map (fun c => (c.csr.epc, c.csr.pmode)) = some (codeBase + 4, false) ∧
    ((nextOf (exec .trap (covering (st { user with csr := { user.csr with intrap := true } }) 1))).bind fun t => t.group? 1).map
      (fun g => (g.status, g.stopping.map (·.status))) = some (.running, some (.halted 0x30)) := by refine ⟨?_, ?_, ?_⟩ <;> decide +kernel
/-- amo add returns the old word and stores the sum (R284). -/
theorem test_results_atomic :
    let c := xs user [(5, 0x80), (6, 3)]
    ((nextOf (exec (.sts .i32 6 5 (.reg 0)) (st c))).bind fun t => nextOf (exec (.amo false .add 7 5 6) t)).map
      (fun t => (t.rd (scrKey 0 0x80) 4, (t.group? 1).bind fun g => (g.ctx? 0).map fun c => c.r.x[7])) = some (6, some 3) := by
  decide +kernel
/-- HBM4 has 512 GiB and the weight stores 2 GiB: the bits above those name nothing (R12; logs 55, 80). -/
theorem test_keys_wrap : keyOf 0 (2 ^ 39 + 5) = 5 ∧ keyOf 1 (2 ^ 31 + 5) = 2 ^ 60 + 5 ∧ keyOf 0 (2 ^ 39 - 1) = 2 ^ 39 - 1 := by decide
/-- Two stages that are equally overdue are taken in the order of their queues; occ counts where none is overdue (R80). -/
theorem test_ripe_ties :
    let r := fun (late full : Nat) => ({ lid := 0, stage := 0, slot := 0, overdue := late, full := full, cap := 4 } : Ripe)
    (r 7 2).better (r 7 1) = false ∧ (r 0 2).better (r 0 1) = true ∧ (r 1 0).better (r 0 4) = true := by decide
/-- A bank's window is 320 ns, 960 cycles at the nominal rate, from 1,000 ns times its number on (R211). -/
theorem test_window_waits :
    windowWait 0 0 1000000000000 = 960 ∧ windowWait 2 (2319 * phcUnit) 1000000000000 = 3 ∧ windowWait 2 (2320 * phcUnit) 1000000000000 = 0 ∧
    windowWait 2 (1999 * phcUnit) 1000000000000 = 0 := by decide
/-- What a stream has seen of the other's stores it sees from then on, and all that was stored before (R197, R302). -/
theorem test_seen_stores :
    let l := fun (w n : Nat) => ({ execute := false, word := w, old := 0, stamp := n, atomic := false, mask := 15 } : Loose)
    seenLoose true [(5, 1)] [l 4 1, l 5 2, l 5 3] = [l 5 3] ∧ seenLoose true [(4, 0)] [l 4 1, l 5 2] = [l 4 1, l 5 2] := by decide
/-- A wacc, made as a whole, is seen in both words of its 8 bytes or in none (R287). -/
theorem test_whole_units :
    let l := fun (w : Nat) (whole : Bool) => ({ execute := false, word := w, old := 0, stamp := 1, atomic := whole, mask := 15 } : Loose)
    looseWays [l 4 true, l 5 true] true [4, 5] = [[(4, 0), (5, 0)], [(4, 1), (5, 1)]] ∧
    (looseWays [l 4 false, l 5 false] true [4, 5]).length = 4 := by decide
/-- An agent of device 3 has one name on every device, and on device 3 its own number (log 13). -/
theorem test_agent_names :
    let s := { State.reset with device := 3 }
    s.nameAt 7 5 = 2 ^ 40 * 8 + 5 ∧ s.nameAt 7 (2 ^ 40 * 4 + 5) = 5 ∧ s.nameAt 7 (2 ^ 40 * 10 + 5) = 2 ^ 40 * 10 + 5 := by decide
/-- The pin bit of a handle changes where resid sets or clears it, else it stays (R224). -/
theorem test_handle_byte : hByte 0x7F 3 none = 0xFF ∧ hByte 0x7F 0 (some false) = 0x1F ∧ hByte 0x1F 0 (some true) = 0x3F := by decide
end Sys2Proof.Tests
end

section
/-! PROOF. The fetch of a parcel (O7). -/

namespace Sys2Proof.Machine

/-! ### Fetching a parcel (R96-R99) -/

/-- Four little-endian bytes of memory as one number (R2). -/
theorem State.rd_four (s : State) (key : Nat) :
    s.rd key 4 = (s.byteAt key).toNat + 256 * (s.byteAt (key + 1)).toNat + 65536 * (s.byteAt (key + 2)).toNat +
      16777216 * (s.byteAt (key + 3)).toNat := by
  simp only [State.rd, State.byteAt, readBytes, natOfBytes, Nat.add_assoc, Nat.reduceAdd]
  omega

/-- A parcel whose line has no store that the group need not see is the bytes that stand there (R99). -/
theorem State.codeAt_settled {s : State} {g : Group} {key : Nat} (c : Ctx) (h : s.versionsOf g (key / 64) = []) :
    s.codeAt g c key = s.rd key 4 := by
  simp only [State.codeAt, h]

/-- Fetching one parcel from a place where no access waits (R211, R226). -/
theorem State.fetchParcels_one {s : State} {g : Group} {c : Ctx} {pc : Word} {key home : Nat} {t : Bool}
    {leaf : Option (Nat × Nat × Nat)} (hp : s.fetchProbe g c pc = .at (.mem key home t leaf))
    (hb : s.bankBusy (.mem key home t leaf) = false) (hm : s.moves (.mem key home t leaf) = false) :
    s.fetchParcels g c pc 1 =
      .ok ([BitVec.ofNat 32 (s.codeAt g c key)],
        ((s.tried g c pc 4 4 .x).fetchLine g (.mem key home t leaf)).touchEa g pc) := by
  simp only [State.fetchParcels, hp, hb, hm, Bool.or_self, Bool.false_eq_true, if_false]

/-- Settles O7: the fetch of one parcel, and the four bytes that it reads where every store to the line is seen. -/
theorem fetchReadsTheParcel : Obligations.FetchReadsTheParcel := by
  unfold Obligations.FetchReadsTheParcel
  intro s g c pc key die t e hp hb hm hv
  rw [State.fetchParcels_one hp hb hm, State.codeAt_settled c hv, State.rd_four]

end Sys2Proof.Machine
end

section
/-! PROOF. The frame of a scalar store (O17). -/

namespace Sys2Proof.Machine

/-! ### What an access leaves kept decides none of its checks (R214, R215, R332) -/

/-- From s to t nothing has changed that the checks of an access read: at most memory with the earlier values of its words, the cores,
the contexts, and the translations that slices keep. -/
def State.ChecksAs (t s : State) : Prop :=
  { t with mem := s.mem, olds := s.olds, cores := s.cores, groups := s.groups, xlat := s.xlat } = s

theorem State.ChecksAs.refl (s : State) : s.ChecksAs s := rfl
theorem State.ChecksAs.trans {s t u : State} (h : t.ChecksAs s) (k : u.ChecksAs t) : u.ChecksAs s := by
  unfold State.ChecksAs at *
  rw [← k] at h
  exact h
theorem State.ChecksAs.foldl {α : Type} {f : State → α → State} (hf : ∀ s a, (f s a).ChecksAs s) (l : List α) (s : State) :
    (l.foldl f s).ChecksAs s := by
  induction l generalizing s with
  | nil => exact .refl s
  | cons a r ih => exact (hf s a).trans (ih _)
theorem State.ChecksAs.ite {s t u : State} {p : Prop} [Decidable p] (h : t.ChecksAs s) (k : u.ChecksAs s) :
    (if p then t else u).ChecksAs s := by
  split
  · exact h
  · exact k

theorem fqPut_checksAs (s : State) (vf : Nat) (data : List Byte) : (s.fqPut vf data).ChecksAs s := by
  unfold State.fqPut State.settledWords
  dsimp only
  split <;> exact rfl
theorem inform_checksAs (s : State) (vf : Nat) (data : List Byte) : (s.inform vf data).ChecksAs s := by
  unfold State.inform
  split
  · exact rfl
  · exact fqPut_checksAs s vf data
theorem countOne_checksAs (core ev n vf : Nat) (mode : Bool) (s : State) (i : Fin 8) :
    (State.countOne core ev n vf mode s i).ChecksAs s := by
  have upd : ∀ f : Core → Core, (s.updCore core f).ChecksAs s := fun _ => rfl
  exact .ite (.ite (upd _) ((upd _).trans (inform_checksAs _ _ _))) (.refl s)
theorem count_checksAs (s : State) (core ev n vf : Nat) (mode : Bool) : (s.count core ev n vf mode).ChecksAs s := by
  unfold State.count
  split
  · exact .refl s
  · exact .ite (.refl s) (.foldl (countOne_checksAs core ev n vf mode) _ s)
theorem walked_checksAs (s : State) (g : Group) (c : Ctx) (ptr : Nat) : (s.walked g c ptr).ChecksAs s := by
  unfold State.walked
  split
  · exact .ite (.refl s) ((count_checksAs ..).trans (.ite (.refl _) rfl))
  · exact .refl s
theorem keepEntry_checksAs (s : State) (g : Group) (c : Ctx) (ea : Word) : (s.keepEntry g c ea).ChecksAs s :=
  .ite (.refl s) rfl
theorem tried_checksAs (s : State) (g : Group) (c : Ctx) (ea : Word) (n align : Nat) (right : Right) :
    (s.tried g c ea n align right).ChecksAs s :=
  .ite (.refl s) (.ite ((keepEntry_checksAs s g c ea).trans (walked_checksAs _ g c _)) (keepEntry_checksAs s g c ea))

theorem State.ChecksAs.moves {s t : State} (h : t.ChecksAs s) (p : Spot) : t.moves p = s.moves p := by
  rw [← h]; rfl
theorem State.ChecksAs.checkSpot {s t : State} (h : t.ChecksAs s) (w : Who) (k : Kind) (p : Spot) (n : Nat) :
    t.checkSpot w k p n = s.checkSpot w k p n := by
  rw [← h]; rfl
theorem State.ChecksAs.vfs {s t : State} (h : t.ChecksAs s) : t.vfs = s.vfs := by rw [← h]

/-! ### A scalar store that may be made (R148-R152) -/

/-- A store whose access may be made puts its bytes at its spot. -/
theorem storeA_admitted {s : State} {g : Group} {c : Ctx} {ea : Word} {b : List Byte} {p : Spot}
    (h : s.Admits g c ea b.length .w p) :
    s.storeA g c ea b =
      .ok (((s.tried g c ea b.length b.length .w).putSpot g c false p b (BitVec.allOnes 4096)).touchEa g ea) () := by
  have kept := tried_checksAs s g c ea b.length b.length .w
  have logged : (!isLocal ea && g.logged ea.toNat b.length) = false := by
    rcases h.log with e | e <;> simp [e]
  have order : s.checkSpot (c.who false pathCore) .write p b.length = none := h.order
  simp only [State.storeA, h.probe, logged, kept.moves, h.moves, kept.checkSpot, order, Bool.false_eq_true, if_false]

theorem bytesOfNat_eq_map (n v : Nat) : bytesOfNat n v = (List.range n).map fun k => BitVec.ofNat 8 (v / 256 ^ k) := by
  induction n generalizing v with
  | zero => rfl
  | succ n ih =>
    rw [bytesOfNat, ih, List.range_succ_eq_map]
    simp only [List.map_cons, List.map_map, Function.comp_def, Nat.pow_zero, Nat.div_one, Nat.succ_eq_add_one, Nat.pow_succ',
      Nat.div_div_eq_div_mul]

/-- The bytes that a scalar store of a width takes from its register. -/
theorem storeBytes_eq (w : StW) (v : Word) :
    bytesOfNat (StW.bytes w) v.toNat =
      (List.range (match w with | .i8 => 1 | .i16 => 2 | .i32 => 4 | .i64 => 8)).map fun k => BitVec.ofNat 8 (v.toNat / 256 ^ k) := by
  rw [bytesOfNat_eq_map]
  cases w <;> rfl
theorem localAddr_eq (base off : Word) : localAddr base off = BitVec.ofNat 64 ((base.toNat + off.toNat) % 2 ^ 32) := by
  rw [localAddr, BitVec.toNat_add, Nat.mod_mod_of_dvd _ (by decide)]
/-- What a scalar store comes to, by what its access comes to. -/
theorem exec_store {c : Ctx} {i : Instr} {ea : Word} {b : List Byte} (h : storeRule c i = some (ea, b)) {s t : State} {g : Group}
    (ha : s.Acts g c) (ht : s.storeA g c ea b = .ok t ()) : exec i s = .next (t.endsA g c (inRegion c.pcA i.size)) := by
  have run : ∀ (w : StW) (d : BitVec 5) (f : Ctx → Word), f c = ea → bytesOfNat (StW.bytes w) (c.readX d).toNat = b →
      scalarStore i w d s f = .next (t.endsA g c (inRegion c.pcA i.size)) := by
    rintro w d f rfl rfl
    rw [← nextPc_eq]
    exact runA_done ha (by rw [ht]; rfl)
  cases i <;> simp only [storeRule, Option.some.injEq, Prod.mk.injEq, reduceCtorEq] at h
  case st w d x y =>
    exact run w d _ ((inRegion_eq _ _).symm.trans h.1) ((storeBytes_eq w _).trans h.2)
  case sts w d x y =>
    exact run w d _ ((localAddr_eq _ _).trans h.1) ((storeBytes_eq w _).trans h.2)

/-! ### What a scalar store leaves alone -/

theorem cleanSlices_keeps (s : State) (p : Line → Bool) (core : Nat) (q : s.Quiet) (h : s.Calm core) :
    Keeps s (s.cleanSlices p) core := by
  have k := Keeps.foldl State.pageLine (fun t a qt _ => pageLine_keeps t a core qt)
    (s.slices.filter fun x => p x && x.dirty != 0) s q h
  exact k.trans (slices_keeps _ _ _)
theorem discard_keeps (s : State) (p : Line → Bool) (core : Nat) : Keeps s (s.discard p) core := by
  refine ⟨rfl, rfl, rfl, fun h i => ?_⟩
  have key : ∀ l : List (Nat × Core),
      alGet (l.map fun x => (x.1, { x.2 with lines := x.2.lines.filter fun y => !p y })) core =
        (alGet l core).map fun c => { c with lines := c.lines.filter fun y => !p y } := by
    intro l
    induction l with
    | nil => rfl
    | cons x r ih =>
      simp only [List.map_cons, alGet, ih]
      split <;> rfl
  have hi := h i
  unfold State.core State.discard at *
  dsimp only
  rw [key]
  cases e : alGet s.cores core with
  | none => rwa [e] at hi
  | some k => rwa [e] at hi
theorem flushLines_keeps (s : State) (p : Line → Bool) (core : Nat) (q : s.Quiet) (h : s.Calm core) :
    Keeps s (s.flushLines p) core := by
  have k := Keeps.foldl State.writeBack (fun t a qt _ => writeBack_keeps t a core qt)
    ((s.cores.flatMap fun x => x.2.lines).filter p) s q h
  exact (k.trans (cleanSlices_keeps _ p core (k.quiet q) (k.calm h))).trans (discard_keeps _ p core)
theorem wsWritten_keeps (s : State) (key n core : Nat) (q : s.Quiet) (h : s.Calm core) : Keeps s (s.wsWritten key n) core :=
  .ite (flushLines_keeps s _ core q h) (.refl s core)

/-- A store that meets no queue's head writes its bytes into memory and nothing else of it; functions, waiting records and counters
stay. -/
theorem store_quiet {s : State} {key : Nat} {b : List Byte} (q : s.Quiet) (h : s.NoHead key b.length) :
    (s.store key b).mem = writeBytes s.mem key b ∧ (s.store key b).vfs = s.vfs ∧ (s.store key b).pending = s.pending ∧
      (s.store key b).cores = s.cores := by
  have covered : (s.overCode key b).mem = s.mem ∧ (s.overCode key b).vfs = s.vfs ∧ (s.overCode key b).pending = s.pending ∧
      (s.overCode key b).cores = s.cores := by
    unfold State.overCode
    split <;> exact ⟨rfl, rfl, rfl, rfl⟩
  obtain ⟨mem, rest⟩ := covered
  have wr : ((s.overCode key b).wrBytes key b).mem = writeBytes s.mem key b := congrArg (writeBytes · key b) mem
  rw [store_plain s key b q h]
  dsimp only
  split
  · exact ⟨wr, rest⟩
  · exact ⟨wr, rest⟩

/-- Memory after a plain store of the access stream (R151) holds its bytes, where no word is a queue's head and nothing reports; the
counters report nothing still. -/
theorem putSpot_quiet {s : State} {g : Group} {c : Ctx} {key home : Nat} {tr : Bool} {leaf : Option (Nat × Nat × Nat)}
    {b : List Byte} {mask : Block} (q : s.Quiet) (k : s.Calm g.core) (h : s.NoHead key b.length) :
    (s.putSpot g c false (.mem key home tr leaf) b mask).mem = writeBytes s.mem key b ∧
      (s.putSpot g c false (.mem key home tr leaf) b mask).Calm g.core := by
  have k1 := noteSpot_keeps s (c.who false pathCore) .write (.mem key home tr leaf) b.length g.core
  have k2 := k1.trans (lines_keeps _ g c (.mem key home tr leaf) b.length true (k1.quiet q) (k1.calm k))
  have before := k2.trans (.ite (p := (home == localHome) = true)
    (updCtx_keeps _ g.id c.num (fun x => x.looseStore s false false [(key, b)]) g.core) (.refl _ g.core))
  have noHead : State.NoHead _ key b.length := fun v hv => h v (before.vfs ▸ hv)
  obtain ⟨mem, vfs, pending, cores⟩ := store_quiet (before.quiet q) noHead
  have quiet := before.quiet q
  rw [State.Quiet, ← vfs, ← pending] at quiet
  have calm := before.calm k
  simp only [State.Calm, State.core, ← cores] at calm
  have after := wsWritten_keeps _ key b.length g.core quiet calm
  exact ⟨after.mem.trans (mem.trans (congrArg (writeBytes · key b) before.mem)), after.calm calm⟩

/-- Settles O17: the store comes to its bytes at its spot, and everything else on its way keeps memory. -/
theorem storeFrame : Obligations.StoreFrame := by
  unfold Obligations.StoreFrame
  intro s g c i ea b key die tr e ha hr hadm inv calm quiet noHead
  refine ⟨_, exec_store hr ha (storeA_admitted hadm), fun a => ?_⟩
  have kept := tried_keeps s g c ea b.length b.length .w calm
  obtain ⟨mem, calm1⟩ := putSpot_quiet (c := c) (home := die) (tr := tr) (leaf := do let a ← e; pure ↑a)
    (mask := BitVec.allOnes 4096) (kept.quiet quiet) (kept.calm calm) fun v hv => noHead v (kept.vfs ▸ hv)
  have touched := touchEa_keeps ((s.tried g c ea b.length b.length .w).putSpot g c false (.mem key die tr (do let a ← e; pure ↑a)) b
    (BitVec.allOnes 4096)) g ea g.core
  have ended := endsA_frame _ g c (inRegion c.pcA i.size) (touched.calm calm1)
  rw [State.byteAt, ended.mem, updCtx_mem, touched.mem, mem, kept.mem, readByte_writeBytes _ _ _ _ inv]
  rfl

end Sys2Proof.Machine
end

section
/-! PROOF. What the proof of O1 is made of: the canonical form of memory, said of every kind of answer. -/

namespace Sys2Proof.Machine

/-! ### The canonical form, carried by what a function of the state answers -/

/-- Every state that the answer of an access carries is in canonical form. The predicates below say it of the other answers. -/
def MRes.Formed {α : Type} : MRes α → Prop
  | .ok s _ | .wait s _ | .trap s _ _ => Inv s
def JRes.Formed {α : Type} : JRes α → Prop
  | .ok s _ | .busy s _ | .hold s _ _ | .fail s _ => Inv s
def RunEnd.Formed : RunEnd → Prop
  | .done s | .busy s _ _ | .hold s _ _ _ | .fail s _ _ => Inv s
def SRes.Formed {α : Type} : SRes α → Prop
  | .ok s _ => Inv s
  | .wait _ | .trap _ _ => True
def Act.Formed : Act → Prop
  | .done s | .goto s _ | .wait s _ | .trap s _ _ _ | .moved s => Inv s
def Fetched.Formed : Fetched → Prop
  | .instr s _ | .bad s _ | .trap s _ _ | .page s _ _ | .busy s _ => Inv s
def Replay.Formed : Replay → Prop
  | .gone s | .failed s _ => Inv s
  | .unmapped | .moves => True
def RepScan.Formed : RepScan → Prop
  | .page s _ _ | .busy s _ => Inv s
  | .clear | .bad _ => True
def TexRes.Formed : TexRes → Prop
  | .ok s _ _ _ | .wait s _ | .trap s _ => Inv s
def ResidAct.Formed : ResidAct → Prop
  | .ends s _ | .begins s => Inv s
/-- What a step answers: its next state, if it has one, is in canonical form. -/
def NextFormed : Host.Outcome State Fault Refusal → Prop
  | .next s => Inv s
  | .fault _ | .refused _ => True

section
variable {s : State} {α β : Type} {p : Prop} [Decidable p]

/-- The form is of the memory alone. -/
theorem Inv.of_mem {t : State} (h : Inv s) (e : t.mem = s.mem) : Inv t := by
  unfold Inv
  rw [e]
  exact h
theorem Inv.ite {t : State} (h : Inv s) (k : Inv t) : Inv (if p then s else t) := by
  split
  · exact h
  · exact k
theorem Inv.foldl {f : State → α → State} {l : List α} (h : Inv s) (hf : ∀ t a, Inv t → Inv (f t a)) :
    Inv (l.foldl f s) := by
  induction l generalizing s with
  | nil => exact h
  | cons a r ih => exact ih (hf s a h)
theorem Inv.foldlFst {f : State × β → α → State × β} {l : List α} {q : State × β} (h : Inv q.1)
    (hf : ∀ t a, Inv t.1 → Inv (f t a).1) : Inv (l.foldl f q).1 := by
  induction l generalizing q with
  | nil => exact h
  | cons a r ih => exact ih (hf q a h)
theorem Inv.foldlSnd {f : β × State → α → β × State} {l : List α} {q : β × State} (h : Inv q.2)
    (hf : ∀ t a, Inv t.2 → Inv (f t a).2) : Inv (l.foldl f q).2 := by
  induction l generalizing q with
  | nil => exact h
  | cons a r ih => exact ih (hf q a h)
theorem Inv.foldlSndSnd {γ : Type} {f : β × γ × State → α → β × γ × State} {l : List α} {q : β × γ × State}
    (h : Inv q.2.2) (hf : ∀ t a, Inv t.2.2 → Inv (f t a).2.2) : Inv (l.foldl f q).2.2 := by
  induction l generalizing q with
  | nil => exact h
  | cons a r ih => exact ih (hf q a h)
/-- The state of a pair that an equation gives. -/
theorem Inv.of_fst {q : State × β} {b : β} (h : Inv q.1) (e : q = (s, b)) : Inv s := by subst e; exact h
theorem Inv.of_sndSnd {γ : Type} {q : β × γ × State} {b : β} {c : γ} (h : Inv q.2.2) (e : q = (b, c, s)) : Inv s := by subst e; exact h

theorem Inv.iteFst {a b : State × β} (h : Inv a.1) (k : Inv b.1) : Inv (if p then a else b).1 := by
  split
  · exact h
  · exact k
theorem Inv.iteSnd {a b : β × State} (h : Inv a.2) (k : Inv b.2) : Inv (if p then a else b).2 := by
  split
  · exact h
  · exact k
theorem Inv.iteSndSnd {γ : Type} {a b : β × γ × State} (h : Inv a.2.2) (k : Inv b.2.2) : Inv (if p then a else b).2.2 := by
  split
  · exact h
  · exact k
theorem MRes.Formed.ite {a b : MRes α} (h : a.Formed) (k : b.Formed) : (if p then a else b).Formed := by
  split
  · exact h
  · exact k
theorem JRes.Formed.ite {a b : JRes α} (h : a.Formed) (k : b.Formed) : (if p then a else b).Formed := by
  split
  · exact h
  · exact k
theorem Act.Formed.ite {a b : Act} (h : a.Formed) (k : b.Formed) : (if p then a else b).Formed := by
  split
  · exact h
  · exact k
theorem NextFormed.ite {a b : Host.Outcome State Fault Refusal} (h : NextFormed a) (k : NextFormed b) :
    NextFormed (if p then a else b) := by
  split
  · exact h
  · exact k

/-! ### The state of an answer that an equation gives -/

theorem MRes.Formed.ok {r : MRes α} {v : α} (h : r.Formed) (e : r = .ok s v) : Inv s := by subst e; exact h
theorem MRes.Formed.wait {r : MRes α} {w : Wait} (h : r.Formed) (e : r = .wait s w) : Inv s := by subst e; exact h
theorem MRes.Formed.trap {r : MRes α} {n : Nat} {a : Word} (h : r.Formed) (e : r = .trap s n a) : Inv s := by subst e; exact h
theorem JRes.Formed.ok {r : JRes α} {v : α} (h : r.Formed) (e : r = .ok s v) : Inv s := by subst e; exact h
theorem JRes.Formed.busy {r : JRes α} {b : Bool} (h : r.Formed) (e : r = .busy s b) : Inv s := by subst e; exact h
theorem JRes.Formed.hold {r : JRes α} {a : Nat} {b : Bool} (h : r.Formed) (e : r = .hold s a b) : Inv s := by subst e; exact h
theorem JRes.Formed.fail {r : JRes α} {n : Nat} (h : r.Formed) (e : r = .fail s n) : Inv s := by subst e; exact h
theorem RunEnd.Formed.done {r : RunEnd} (h : r.Formed) (e : r = .done s) : Inv s := by subst e; exact h
theorem RunEnd.Formed.busy {r : RunEnd} {n : Nat} {b : Bool} (h : r.Formed) (e : r = .busy s n b) : Inv s := by subst e; exact h
theorem RunEnd.Formed.hold {r : RunEnd} {n a : Nat} {b : Bool} (h : r.Formed) (e : r = .hold s n a b) : Inv s := by subst e; exact h
theorem RunEnd.Formed.fail {r : RunEnd} {n k : Nat} (h : r.Formed) (e : r = .fail s n k) : Inv s := by subst e; exact h
theorem Fetched.Formed.instr {r : Fetched} {i : Instr} (h : r.Formed) (e : r = .instr s i) : Inv s := by subst e; exact h
theorem Fetched.Formed.bad {r : Fetched} {n : Nat} (h : r.Formed) (e : r = .bad s n) : Inv s := by subst e; exact h
theorem Fetched.Formed.trap {r : Fetched} {n : Nat} {a : Word} (h : r.Formed) (e : r = .trap s n a) : Inv s := by subst e; exact h
theorem Fetched.Formed.page {r : Fetched} {a : Nat} {b : Bool} (h : r.Formed) (e : r = .page s a b) : Inv s := by subst e; exact h
theorem Fetched.Formed.busy {r : Fetched} {b : Bool} (h : r.Formed) (e : r = .busy s b) : Inv s := by subst e; exact h
theorem Replay.Formed.gone {r : Replay} (h : r.Formed) (e : r = .gone s) : Inv s := by subst e; exact h
theorem Replay.Formed.failed {r : Replay} {n : Nat} (h : r.Formed) (e : r = .failed s n) : Inv s := by subst e; exact h
theorem RepScan.Formed.page {r : RepScan} {a : Nat} {b : Bool} (h : r.Formed) (e : r = .page s a b) : Inv s := by subst e; exact h
theorem RepScan.Formed.busy {r : RepScan} {b : Bool} (h : r.Formed) (e : r = .busy s b) : Inv s := by subst e; exact h
theorem TexRes.Formed.ok {r : TexRes} {x n l : Nat} (h : r.Formed) (e : r = .ok s x n l) : Inv s := by subst e; exact h
theorem TexRes.Formed.wait {r : TexRes} {w : Wait} (h : r.Formed) (e : r = .wait s w) : Inv s := by subst e; exact h
theorem TexRes.Formed.trap {r : TexRes} {n : Nat} (h : r.Formed) (e : r = .trap s n) : Inv s := by subst e; exact h
theorem ResidAct.Formed.ends {r : ResidAct} {n : Nat} (h : r.Formed) (e : r = .ends s n) : Inv s := by subst e; exact h
theorem ResidAct.Formed.begins {r : ResidAct} (h : r.Formed) (e : r = .begins s) : Inv s := by subst e; exact h

end

/-! ### Writes of memory -/

theorem Inv.wrBytes {s : State} {key : Nat} {b : List Byte} (h : Inv s) : Inv (s.wrBytes key b) := writeBytes_wf b key h
theorem Inv.wr {s : State} {key n v : Nat} (h : Inv s) : Inv (s.wr key n v) := h.wrBytes

/-! ### Recursion whose equations the kernel cannot check

The equation of a recursion over a number that matches what an access answers makes the kernel evaluate that access. These lemmas
reach the branches of the recursion with nothing evaluated. -/

section
variable {motive : Nat → Type} {β : Type}
/-- What a recursion over a number has at hand below n has the property P. -/
def BelowHolds (P : ∀ n, motive n → Prop) : (n : Nat) → Nat.below (motive := motive) n → Prop
  | 0, _ => True
  | n + 1, b => P n b.1

theorem brecOn_holds {P : ∀ n, motive n → Prop} {F : ∀ n, Nat.below (motive := motive) n → motive n}
    (hF : ∀ n b, BelowHolds P n b → P n (F n b)) (n : Nat) : P n (Nat.brecOn n F) := by
  rw [Nat.brecOn.eq]
  refine hF n _ ?_
  induction n with
  | zero => trivial
  | succ n ih =>
    show P n (Nat.brecOn n F)
    rw [Nat.brecOn.eq]
    exact hF n _ ih

theorem matchNat_holds {Q : β → Prop} {P : ∀ n, motive n → Prop} {A : Nat.below (motive := motive) 0 → β}
    {B : ∀ n, Nat.below (motive := motive) (n + 1) → β} {n : Nat} {b : Nat.below (motive := motive) n}
    (hb : BelowHolds P n b) (hA : ∀ b, Q (A b)) (hB : ∀ n b, BelowHolds P (n + 1) b → Q (B n b)) :
    Q ((match (motive := ∀ n, Nat.below (motive := motive) n → β) n with
        | 0 => A
        | n + 1 => B n) b) := by
  cases n with
  | zero => exact hA b
  | succ n => exact hB n b hb
theorem matchNatNat_holds {Q : β → Prop} {P : ∀ n, motive n → Prop} {A : Nat → Nat.below (motive := motive) 0 → β}
    {B : ∀ n, Nat → Nat.below (motive := motive) (n + 1) → β} {n i : Nat} {b : Nat.below (motive := motive) n}
    (hb : BelowHolds P n b) (hA : ∀ b, Q (A i b)) (hB : ∀ n b, BelowHolds P (n + 1) b → Q (B n i b)) :
    Q ((match (motive := ∀ n, Nat → Nat.below (motive := motive) n → β) n, i with
        | 0, i => A i
        | n + 1, i => B n i) b) := by
  cases n with
  | zero => exact hA b
  | succ n => exact hB n b hb
theorem matchNatNatList_holds {Q : β → Prop} {P : ∀ n, motive n → Prop} {A : Nat → List Nat → Nat.below (motive := motive) 0 → β}
    {B : ∀ n, Nat → List Nat → Nat.below (motive := motive) (n + 1) → β} {n i : Nat} {l : List Nat}
    {b : Nat.below (motive := motive) n} (hb : BelowHolds P n b) (hA : ∀ b, Q (A i l b))
    (hB : ∀ n b, BelowHolds P (n + 1) b → Q (B n i l b)) :
    Q ((match (motive := ∀ n, Nat → List Nat → Nat.below (motive := motive) n → β) n, i, l with
        | 0, i, l => A i l
        | n + 1, i, l => B n i l) b) := by
  cases n with
  | zero => exact hA b
  | succ n => exact hB n b hb
end
/-- The end of a run of reads, beside the list that it read. -/
def SegsFormed (r : RunEnd × List Nat) : Prop := r.1.Formed

end Sys2Proof.Machine
end

section
/-! PROOF. The canonical form of memory is kept (O1): the state, and the memory model's records. -/

namespace Sys2Proof.Machine

variable {s t : State} {g : Group} {c : Ctx} {j : Job} {i : Instr}

/-! ### Changing a part of the state -/

theorem Inv.updGroup {gid : Nat} {f : Group → Group} (h : Inv s) : Inv (s.updGroup gid f) := h
theorem Inv.updCtx {gid n : Nat} {f : Ctx → Ctx} (h : Inv s) : Inv (s.updCtx gid n f) := h.updGroup
theorem Inv.updCore {n : Nat} {f : Core → Core} (h : Inv s) : Inv (s.updCore n f) := h
theorem Inv.updCluster {n : Nat} {f : Cluster → Cluster} (h : Inv s) : Inv (s.updCluster n f) := h
theorem Inv.setJobs {cl : Nat} {e : Eng} {q : List Job} (h : Inv s) : Inv (s.setJobs cl e q) := h.updCluster
theorem Inv.updVf {n : Nat} {f : Vf → Vf} (h : Inv s) : Inv (s.updVf n f) := h
theorem Inv.updLaunch {id : Nat} {f : Launch → Launch} (h : Inv s) : Inv (s.updLaunch id f) := h

/-! ### A new context -/

theorem Inv.raiseLine {core line : Nat} (h : Inv s) : Inv (s.raiseLine core line) := h.updCore
theorem Inv.tock (h : Inv s) : Inv s.tock := h

/-! ### The memory model's records (R296-R316) -/

theorem Inv.replaced {word tick : Nat} (h : Inv s) : Inv (s.replaced word tick) := h
theorem Inv.settledWords {words : List Nat} (h : Inv s) : Inv (s.settledWords words) := .ite h h
theorem Inv.noteWord {w : Who} {k : Kind} {die : Nat → Nat} {word : Nat} (h : Inv s) : Inv (State.noteWord w k die s word) := by
  unfold State.noteWord
  extract_lets s1
  have h1 : Inv s1 := by
    cases k with
    | read => exact h
    | write => exact h.settledWords
    | atomic => exact h.replaced
    | tag => exact h.replaced
  exact .ite h1 h1
theorem Inv.noteWords {w : Who} {k : Kind} {words : List Nat} {die : Nat → Nat} (h : Inv s) : Inv (s.noteWords w k words die) :=
  h.tock.foldl fun _ _ h1 => h1.noteWord

/-! ### Releases and acquires -/

theorem Inv.addRel {r : Rel} (h : Inv s) : Inv (s.addRel r) := h
theorem Inv.acquireVar {gid num var n tick : Nat} {sc : Scope} (h : Inv s) : Inv (s.acquireVar gid num var n tick sc) := by
  unfold State.acquireVar
  split
  · exact h
  · split
    · exact h.updCtx
    · exact h.updCtx
theorem Inv.noteEarlyAt {gid num var n tick : Nat} {place : Ctx → Nat} (h : Inv s) :
    Inv (s.noteEarlyAt gid num var n tick place) := by
  unfold State.noteEarlyAt
  split
  · exact h
  · exact h.updCtx
theorem Inv.noteEarly {gid num var n tick : Nat} (h : Inv s) : Inv (s.noteEarly gid num var n tick) := h.noteEarlyAt
theorem Inv.noteEarlyE {var n tick : Nat} (h : Inv s) : Inv (s.noteEarlyE g c var n tick) := .ite h.noteEarlyAt h

/-! ### Writes over the fabric -/

theorem Inv.usesFabric {vf : Nat} (h : Inv s) : Inv (s.usesFabric vf) := h
theorem Inv.sendFabric {w : FabWrite} (h : Inv s) : Inv (s.sendFabric w) := h
theorem Inv.tellEnds {vf : Nat} {all : Bool} {l : List (Nat × Option Nat)} (h : Inv s) : Inv (s.tellEnds vf all l) :=
  .ite h.sendFabric h

/-! ### The drop rule (R303) -/

theorem Inv.dropEntries {global : Bool} {p : Entry → Bool} (h : Inv s) : Inv (s.dropEntries global p) := h

end Sys2Proof.Machine
end

section
/-! PROOF. The canonical form of memory is kept (O1): time, records, addresses, and the accesses of a stream. -/

namespace Sys2Proof.Machine

variable {s t : State} {g : Group} {c : Ctx} {j : Job} {i : Instr}

/-! ### The fault queue -/

theorem Inv.fqPut {vf : Nat} {data : List Byte} (h : Inv s) : Inv (s.fqPut vf data) := h.settledWords.wrBytes.wr
theorem Inv.report {vf : Nat} {data : List Byte} (h : Inv s) : Inv (s.report vf data) := .ite h (.ite h h.fqPut)
theorem Inv.inform {vf : Nat} {data : List Byte} (h : Inv s) : Inv (s.inform vf data) := .ite h.wr h.fqPut
theorem drainList_formed {l : List Pending} (h : Inv s) : Inv (drainList s l) := by
  induction l generalizing s with
  | nil => exact h
  | cons x r ih => exact .ite (ih h) (ih h.fqPut)
theorem Inv.drainPending (h : Inv s) : Inv s.drainPending := by
  unfold State.drainPending
  split
  · exact h
  · exact drainList_formed h

/-! ### Performance counters -/

theorem Inv.countOne {core ev n vf : Nat} {mode : Bool} {i : Fin 8} (h : Inv s) : Inv (State.countOne core ev n vf mode s i) :=
  .ite (.ite h.updCore h.updCore.inform) h
theorem Inv.count {core ev n vf : Nat} {mode : Bool} (h : Inv s) : Inv (s.count core ev n vf mode) := by
  unfold State.count
  split
  · exact h
  · exact .ite h (h.foldl fun _ _ h1 => h1.countOne)
theorem Inv.advance {n : Nat} (h : Inv s) : Inv (s.advance n) := .foldl h fun _ _ h1 => .ite h1.count h1

/-! ### Migration counters -/

theorem Inv.nqPut {vf page count : Nat} {ovf : Bool} (h : Inv s) : Inv (s.nqPut vf page count ovf) := h.wr.wr
theorem Inv.nqPending {vf : Nat} {b : Bool} (h : Inv s) : Inv (s.nqPending vf b) := h.wr
theorem Inv.countPage {vf pa : Nat} (h : Inv s) : Inv (s.countPage vf pa) := .ite (.ite (.nqPending h) (.nqPut h)) h

/-! ### Stores that the machine watches -/

theorem Inv.hookFq {old : State} {key n : Nat} {v : Nat × Vf} (h : Inv s) : Inv (old.hookFq key n s v) := .ite h.wr h
theorem Inv.hookNq {key n : Nat} {v : Nat × Vf} (h : Inv s) : Inv (State.hookNq key n s v) := .ite h h
theorem Inv.hook {old : State} {key n : Nat} (h : Inv s) : Inv (s.hook old key n) :=
  .drainPending (.foldl (h.foldl fun _ _ h1 => h1.hookFq) fun _ _ h2 => h2.hookNq)
theorem Inv.overCode {key : Nat} {b : List Byte} (h : Inv s) : Inv (s.overCode key b) := .ite h h
theorem Inv.store {key : Nat} {b : List Byte} (h : Inv s) : Inv (s.store key b) :=
  .ite h.overCode.wrBytes.hook h.overCode.wrBytes.hook

/-! ### Translation -/

theorem Inv.keep {vf va e : Nat} {big : Bool} (h : Inv s) : Inv (s.keep vf va e big) := .ite h h
theorem Inv.keepWalk {vf va : Nat} (h : Inv s) : Inv (s.keepWalk vf va) := by
  unfold State.keepWalk
  split
  · exact h.keep
  · exact h

/-! ### Probes -/

theorem Inv.codeLine {key n : Nat} {e : Option Entry} {line : Nat} (h : Inv s) : Inv (State.codeLine key n e s line) := h
theorem Inv.codeWrite {key n : Nat} {leaf : Option Nat} {e : Option Entry} (h : Inv s) : Inv (s.codeWrite key n leaf e) :=
  .ite (h.foldl fun _ _ h1 => h1.codeLine) h
theorem Inv.noteSpot {w : Who} {k : Kind} {p : Spot} {n : Nat} (h : Inv s) : Inv (s.noteSpot w k p n) := by
  unfold State.noteSpot
  split
  · exact h
  · exact .ite (.ite h.noteWords h.tock) (.codeWrite (.ite h.noteWords h.tock))

/-! ### Line metadata (R206, R207) -/

theorem Inv.pageLine {l : Line} (h : Inv s) : Inv (s.pageLine l) := .ite h.countPage h
theorem Inv.putSlice {l : Line} (h : Inv s) : Inv (s.putSlice l) := by
  unfold State.putSlice
  dsimp only
  split
  · exact h
  · exact .ite h (.pageLine h)
theorem Inv.sliceRead {l : Line} (h : Inv s) : Inv (s.sliceRead l).1 := .iteFst h h.putSlice.pageLine
theorem Inv.sliceWrite {l : Line} (h : Inv s) : Inv (s.sliceWrite l) := by
  unfold State.sliceWrite
  split
  · exact h.putSlice
  · exact h.putSlice
theorem Inv.sliceStore {l : Line} {part : BitVec 16} (h : Inv s) : Inv (s.sliceStore l part) := .sliceWrite (.ite h h.sliceRead)
theorem Inv.writeBack {l : Line} (h : Inv s) : Inv (s.writeBack l) := .ite h h.sliceWrite
theorem Inv.sliceUse {u : Use} {l : Line} (h : Inv s) : Inv (s.sliceUse u l).1 := by
  unfold State.sliceUse
  split
  · exact h.sliceRead
  · exact h.sliceStore
  · exact h.sliceRead.sliceWrite
theorem Inv.sliceTurn {mode : Bool} {u : Use} {l : Line} (h : Inv s) : Inv (s.sliceTurn g mode u l) :=
  .ite h.sliceUse.count (.ite h.sliceUse.count h.sliceUse)
theorem Inv.putLine {core cap : Nat} {streaming : Bool} {l : Line} (h : Inv s) : Inv (s.putLine core cap streaming l) :=
  h.updCore.foldl fun _ _ h1 => h1.writeBack
theorem Inv.cacheLoad {mode : Bool} {leaf : Nat} {l : Line} (h : Inv s) : Inv (s.cacheLoad g mode leaf l) :=
  .ite h (.ite h.count.sliceTurn h.count.sliceTurn.putLine)
theorem Inv.storeMiss {mode : Bool} {leaf : Nat} {l : Line} (h : Inv s) : Inv (s.storeMiss g mode leaf l) := .ite h h.count
theorem Inv.cacheStore {mode : Bool} {part : BitVec 16} {leaf : Nat} {l : Line} (h : Inv s) :
    Inv (s.cacheStore g mode part leaf l) :=
  .ite (.sliceTurn (.ite h.storeMiss h.cacheLoad)) (.putLine (.ite h.storeMiss h.cacheLoad))
theorem Inv.cleanLine {core vf va : Nat} {drop : Bool} (h : Inv s) : Inv (s.cleanLine core vf va drop) :=
  .updCore (h.foldl fun _ _ h1 => h1.writeBack)
theorem Inv.keepLines {core cap : Nat} (h : Inv s) : Inv (s.keepLines core cap) := h.updCore.foldl fun _ _ h1 => h1.writeBack
theorem Inv.discard {p : Line → Bool} (h : Inv s) : Inv (s.discard p) := h
theorem Inv.cleanSlices {p : Line → Bool} (h : Inv s) : Inv (s.cleanSlices p) := h.foldl fun _ _ h1 => h1.pageLine
theorem Inv.flushLines {p : Line → Bool} (h : Inv s) : Inv (s.flushLines p) :=
  .discard (.cleanSlices (h.foldl fun _ _ h1 => h1.writeBack))
theorem Inv.dropLines {key n : Nat} (h : Inv s) : Inv (s.dropLines key n) := h.flushLines
theorem Inv.wsWritten {key n : Nat} (h : Inv s) : Inv (s.wsWritten key n) := .ite h.dropLines h
theorem Inv.lines {p : Spot} {n : Nat} {isStore : Bool} (h : Inv s) : Inv (s.lines g c p n isStore) := by
  unfold State.lines
  split
  · exact h.foldl fun _ _ h1 => .ite h1.cacheStore h1.cacheLoad
  · exact h
theorem Inv.touch {vf ptr : Nat} (h : Inv s) : Inv (s.touch vf ptr) := .ite h h
theorem Inv.walked {ptr : Nat} (h : Inv s) : Inv (s.walked g c ptr) := by
  unfold State.walked
  split
  · exact .ite h h.count.keep
  · exact h
theorem Inv.keepEntry {ea : Word} (h : Inv s) : Inv (s.keepEntry g c ea) := .ite h h.updCtx
theorem Inv.tried {ea : Word} {n align : Nat} {right : Right} (h : Inv s) : Inv (s.tried g c ea n align right) :=
  .ite h (.ite h.keepEntry.walked h.keepEntry)
theorem Inv.touchEa {ea : Word} (h : Inv s) : Inv (s.touchEa g ea) := .ite h h.touch

/-! ### Loads and stores between the two streams (R197) -/

theorem readLocal_formed {execute : Bool} {key n : Nat} (h : Inv s) : Inv (readLocal s g c execute key n).2 := .iteSnd h h
theorem Inv.plainUnit {gid num key n : Nat} {r : Nat × Nat × State} {words : List Nat} (h : Inv r.2.2) :
    Inv (State.plainUnit gid num key n r words).2.2 := by
  unfold State.plainUnit
  dsimp only
  split
  · exact h
  · exact .foldlSndSnd (.iteSnd h h) fun _ _ h1 => .iteSndSnd (.updCtx h1) (.updCtx h1)
theorem Inv.plainRead {gid num key n v : Nat} (h : Inv s) : Inv (s.plainRead gid num key n v).2.2 :=
  .iteSndSnd h (.foldlSndSnd h fun _ _ h1 => .plainUnit h1)
theorem Inv.sawWords {gid num : Nat} {words : List Nat} (h : Inv s) : Inv (s.sawWords gid num words) := h.updCtx

/-! ### Results of an access -/

theorem Inv.hold {execute : Bool} {va : Word} {malf : Bool} (h : Inv s) : Inv (s.hold g c execute va malf) := .ite h h.report.updCtx
theorem Inv.bankWaitA {bank : Bool} (h : Inv s) : Inv (s.bankWaitA g c bank) := .ite h h.count
theorem Inv.bankWaitE {bank : Bool} (h : Inv s) : Inv (s.bankWaitE g c bank) := .ite h h.count
theorem Inv.tailRead {key n : Nat} (h : Inv s) : Inv (s.tailRead g c key n) := .ite h.updCtx h
theorem Inv.loadA {s0 : State} {ea : Word} {n align : Nat} {k : Kind} (h : Inv s0) : (s0.loadA g c ea n align k).Formed := by
  unfold State.loadA
  dsimp only
  split
  · exact h.tried
  · exact .ite h.tried h.tried.hold
  · split
    · exact h.tried
    · split
      · exact h.tried.bankWaitA
      · split
        · exact h.tried
        · split
          · exact h.tried
          · refine Inv.tailRead (.noteEarly (.iteSndSnd (.plainRead ?_) ?_))
            · exact .iteSnd (readLocal_formed h.tried.noteSpot.lines.touchEa) h.tried.noteSpot.lines.touchEa
            · exact .iteSnd (readLocal_formed h.tried.noteSpot.lines.touchEa) h.tried.noteSpot.lines.touchEa
theorem Inv.logStore {es : List LogEntry} {malf : Bool} (h : Inv s) : (s.logStore g c es malf).Formed :=
  .ite h (.ite h.updGroup.count.tock (.ite h h.report.updCtx))
theorem Inv.putSpot {execute : Bool} {p : Spot} {b : List Byte} {mask : Block} (h : Inv s) :
    Inv (s.putSpot g c execute p b mask) := by
  unfold State.putSpot
  split
  · exact h.updCtx
  · exact .wsWritten (.store (.ite h.noteSpot.lines.updCtx h.noteSpot.lines))
theorem Inv.storeA {s0 : State} {ea : Word} {b : List Byte} (h : Inv s0) : (s0.storeA g c ea b).Formed := by
  unfold State.storeA
  dsimp only
  split
  · exact h.tried
  · exact h.tried.logStore
  · split
    · exact h.tried.logStore
    · split
      · exact h.tried
      · split
        · exact h.tried
        · exact h.tried.putSpot.touchEa

/-! ### Blocks of 512 bytes (R153, R157) -/

theorem Inv.triedParts {ea : Word} {n align : Nat} {right : Right} (h : Inv s) : Inv (s.triedParts g c ea n align right) :=
  .ite h (h.foldl fun _ _ h1 => h1.tried)
theorem Inv.readPart {ea : Word} {acc : Nat × State} {x : Spot × Nat × Nat} (h : Inv acc.2) :
    Inv (State.readPart g c ea acc x).2 := by
  unfold State.readPart
  dsimp only
  split
  · exact h
  · refine .tailRead (.noteEarly (.plainRead (.iteSnd (readLocal_formed ?_) ?_)))
    · exact .touchEa (.lines (.noteSpot h))
    · exact .touchEa (.lines (.noteSpot h))
theorem Inv.loadParts {s0 : State} {ea : Word} {n align : Nat} (h : Inv s0) : (s0.loadParts g c ea n align).Formed := by
  unfold State.loadParts
  dsimp only
  split
  · exact h.triedParts
  · exact .ite h.triedParts h.triedParts.hold
  · exact h.triedParts
  · split
    · exact h.triedParts
    · split
      · exact h.triedParts.bankWaitA
      · split
        · exact h.triedParts
        · exact h.triedParts.foldlSnd fun _ _ h1 => .readPart h1
theorem Inv.loadBlock {ea : Word} (h : Inv s) : (s.loadBlock g c ea).Formed := by
  unfold State.loadBlock
  split
  · next e => exact h.loadParts.ok e
  · next e => exact h.loadParts.wait e
  · next e => exact h.loadParts.trap e
theorem Inv.load128 {p : Word} {align : Nat} (h : Inv s) : (s.load128 g c p align).Formed := by
  unfold State.load128
  split
  · next e => exact h.loadParts.ok e
  · next e => exact h.loadParts.wait e
  · next e => exact h.loadParts.trap e
theorem Inv.storeBlock {s0 : State} {ea : Word} {d : Block} (h : Inv s0) : (s0.storeBlock g c ea d).Formed := by
  unfold State.storeBlock
  dsimp only
  split
  · exact h.triedParts
  · exact h.triedParts.logStore
  · exact h.triedParts.logStore
  · split
    · exact h.triedParts.logStore
    · split
      · exact h.triedParts
      · split
        · exact h.triedParts
        · exact h.triedParts.foldl fun _ _ h1 => h1.putSpot.touchEa

end Sys2Proof.Machine
end

section
/-! PROOF. The canonical form of memory is kept (O1): CSRs, images, and engine jobs. -/

namespace Sys2Proof.Machine

variable {s t : State} {g : Group} {c : Ctx} {j : Job} {i : Instr}

/-! ### The CSRs (R324, R325) -/

theorem Inv.csrPut {n : Nat} {v : Word} (h : Inv s) : Inv (s.csrPut g c n v) := by
  unfold State.csrPut
  split
  · exact h.updGroup
  · exact h.updGroup
  · exact h.updVf
  · exact h.updGroup
  · exact h.updVf
  · split
    · exact h.updCore
    · split
      · exact h.updCore
      · exact h.updCtx

/-! ### The context area (R330) -/

theorem Inv.moveRecords {gid src dst : Nat} (h : Inv s) : Inv (s.moveRecords gid src dst) := .updGroup h
theorem Inv.saveScratch {area : Nat} {part : Bool} (h : Inv s) : Inv (s.saveScratch g area part) := by
  unfold State.saveScratch
  dsimp only
  split
  · exact moveCells_wf _ _ _ h
  · exact filter_wf _ (h.foldl fun _ _ h1 => h1.wrBytes)
theorem Inv.saveImage {cause : Nat} {parked halted : Bool} (h : Inv s) : Inv (s.saveImage g cause parked halted) :=
  .moveRecords (.updGroup (.saveScratch (h.foldl fun _ _ h1 => h1.wr)))
theorem Inv.saveRecord {gid i : Nat} (h : Inv s) : Inv (s.saveRecord gid i) := by
  unfold State.saveRecord
  split
  · exact h
  · exact .ite h h.wr

/-! ### Restoring -/

theorem Inv.restoreShared {base n : Nat} (h : Inv s) : Inv (State.restoreShared base g s n) := by
  unfold State.restoreShared
  dsimp only
  split
  · exact .ite h h.csrPut
  · exact h
theorem Inv.loadImage (h : Inv s) : Inv (s.loadImage g) := by
  unfold State.loadImage
  refine .updGroup (.foldl (.moveRecords ?_) fun _ _ h1 => h1.restoreShared)
  exact foldl_writeByte_wf _ _ (filter_wf _ h)

/-! ### Engine jobs (R235-R237, R313) -/

theorem JRes.state_formed {α : Type} {r : JRes α} (h : r.Formed) : Inv r.state := by
  unfold JRes.state
  split
  · exact h
  · exact h
  · exact h
  · exact h
theorem JRes.bind_formed {α β : Type} {r : JRes α} {k : State → α → JRes β} (h : r.Formed) (k1 : ∀ t a, Inv t → (k t a).Formed) :
    (r.bind k).Formed := by
  unfold JRes.bind
  split
  · exact k1 _ _ h
  · exact h
  · exact h
  · exact h
theorem Inv.engWalked {ptr n : Nat} {right : Right} (h : Inv s) : Inv (s.engWalked j ptr n right) := .ite h h.keepWalk
theorem Inv.jobPieces {w : Who} {k : Kind} {right : Right} {waits : Bool} {l : List (Nat × Nat)} (h : Inv s) :
    (s.jobPieces j w k right waits l).Formed := by
  induction l generalizing s with
  | nil => exact h
  | cons x r ih =>
    unfold State.jobPieces
    dsimp only
    split
    · exact h.engWalked
    · exact h.engWalked
    · split
      · exact h.engWalked
      · split
        · exact h.engWalked
        · exact JRes.bind_formed (ih h.engWalked) fun _ _ h1 => h1
theorem Inv.jobSpots {w : Who} {k : Kind} {right : Right} {waits : Bool} {ps : List (Nat × Nat)} (h : Inv s) :
    (s.jobSpots j w k right waits ps).Formed :=
  JRes.bind_formed h.jobPieces fun _ _ h1 => .ite h1 h1
theorem Inv.engLines {vf : Nat} {p : Spot} {n : Nat} {isStore : Bool} (h : Inv s) : Inv (s.engLines vf p n isStore) := by
  unfold State.engLines
  split
  · exact h.foldl fun _ _ h1 => .ite h1.sliceStore h1.sliceRead
  · exact h
theorem Inv.engTouched {vf ptr n : Nat} (h : Inv s) : Inv (s.engTouched vf ptr n) := .ite h (h.foldl fun _ _ h1 => h1.touch)
theorem Inv.engChanged {vf ptr : Nat} {p : Spot} {n : Nat} (h : Inv s) : Inv (s.engChanged vf ptr p n) :=
  h.engLines.engLines.engTouched
theorem Inv.jobReadW {path ptr n : Nat} {waits : Bool} (h : Inv s) : (s.jobReadW j path ptr n waits).Formed := by
  unfold State.jobReadW
  refine JRes.bind_formed h.jobSpots (fun _ _ h1 => ?_)
  show Inv _
  refine .engTouched ?_
  refine .foldlSnd h1 (fun _ _ h2 => ?_)
  split
  · exact h2
  · exact .engLines (.noteSpot h2)
theorem Inv.jobRead {path ptr n : Nat} (h : Inv s) : (s.jobRead j path ptr n).Formed := h.jobReadW
theorem Inv.jobReadN {path ptr n : Nat} (h : Inv s) : (s.jobReadN j path ptr n).Formed :=
  JRes.bind_formed h.jobRead fun _ _ h1 => h1
theorem Inv.jobWrite {path ptr : Nat} {b : List Byte} (h : Inv s) : (s.jobWrite j path ptr b).Formed := by
  unfold State.jobWrite
  refine JRes.bind_formed h.jobSpots (fun _ _ h1 => ?_)
  show Inv _
  refine .engTouched ?_
  refine .foldlSnd h1 (fun _ _ h2 => ?_)
  split
  · exact h2
  · exact .wsWritten (.store (.engLines (.noteSpot h2)))

/-! ### Completion of jobs -/

theorem Inv.completeJob {word : Word} (h : Inv s) : Inv (s.completeJob j word) := by
  unfold State.completeJob
  dsimp only
  split
  · exact .updLaunch (h.foldl fun _ _ h1 => .ite h1 h1.updGroup.saveRecord.raiseLine)
  · exact h.foldl fun _ _ h2 => .ite h2 h2.updGroup.saveRecord.raiseLine
theorem Inv.setHead {cl : Nat} {e : Eng} (h : Inv s) : Inv (s.setHead cl e j) := h.setJobs
theorem Inv.endJob {cl : Nat} {e : Eng} {word : Word} (h : Inv s) : Inv (s.endJob cl e j word) := h.setHead
theorem Inv.holdJob {cl : Nat} {e : Eng} {path va : Nat} {malf : Bool} (h : Inv s) : Inv (s.holdJob cl e j path va malf) :=
  .ite h.setHead h.report.setHead
theorem Inv.onHead {cl : Nat} {e : Eng} {cmd : Cmd} {f : State → Job → State} (h : Inv s) (k1 : ∀ t j, Inv t → Inv (f t j)) :
    Inv (s.onHead cl e cmd f) := by
  unfold State.onHead
  split
  · exact .ite (k1 _ _ h) h
  · exact h
theorem Inv.countJob {ev n : Nat} (h : Inv s) : Inv (s.countJob j ev n) := by
  unfold State.countJob
  refine .foldl h (fun _ _ h1 => ?_)
  split
  · exact h1
  · exact .ite h1.count h1
theorem Inv.bankJob {cl : Nat} {e : Eng} {bank : Bool} (h : Inv s) : Inv (s.bankJob cl e j bank) := .setHead (.ite h h.countJob)
theorem Inv.headStep {α : Type} {cl : Nat} {e : Eng} {path : Nat} {r : JRes α} {k : State → α → State} (h : r.Formed)
    (k1 : ∀ t a, Inv t → Inv (k t a)) : Inv (State.headStep cl e j path r k) := by
  unfold State.headStep
  split
  · exact k1 _ _ h
  · exact .bankJob h
  · exact .holdJob h
  · exact .endJob h

/-! ### RASTER -/

theorem Inv.ptrCheck {ptr n : Nat} {right : Right} (h : Inv s) : (s.ptrCheck j ptr n right).Formed := by
  unfold State.ptrCheck
  dsimp only
  split
  · exact h.engWalked
  · exact h.engWalked
  · exact .ite h.engWalked h.engWalked
theorem Inv.rasterPtrs (h : Inv s) : (s.rasterPtrs j).Formed := JRes.bind_formed h.ptrCheck fun _ _ h1 => .ite h1 h1.ptrCheck
theorem Inv.readSegs {n i : Nat} {l : List Nat} (h : Inv s) : (s.readSegs j n i l).1.Formed := by
  show SegsFormed (s.readSegs j n i l)
  delta State.readSegs
  refine brecOn_holds (motive := fun _ => State → Nat → List Nat → RunEnd × List Nat)
    (P := fun _ f => ∀ {s : State} {i : Nat} {l : List Nat}, Inv s → SegsFormed (f s i l)) (fun n b ih s i l h => ?_) n h
  refine matchNatNatList_holds (Q := SegsFormed) ih (fun _ => h) ?_
  intro n b ih
  split
  · next e =>
    split
    · exact ih (h.jobReadN.ok e)
    · exact h.jobReadN.ok e
  · next e => exact h.jobReadN.busy e
  · next e => exact h.jobReadN.hold e
  · next e => exact h.jobReadN.fail e
theorem Inv.add32 {key : Nat} {v : ℤ} (h : Inv s) : Inv (s.add32 key v) := h.wr
theorem Inv.countCapped {n : Nat} (h : Inv s) : (s.countCapped j n).Formed := by
  unfold State.countCapped
  dsimp only
  split
  · exact h
  · refine JRes.bind_formed h.jobSpots (fun _ _ h1 => ?_)
    split
    · exact h1.noteSpot.engChanged.store
    · exact h1
theorem Inv.rasterAdd {cl : Nat} {segs : List Nat} (h : Inv s) : (s.rasterAdd cl j segs).Formed := by
  unfold State.rasterAdd
  dsimp only
  split
  · exact h.countCapped
  · split
    · exact h
    · exact JRes.bind_formed h.countCapped fun _ _ h1 => Inv.noteWords (h1.foldl fun _ _ h2 => h2.add32)
theorem Inv.raster {cl : Nat} (h : Inv s) : Inv (s.raster cl) := by
  unfold State.raster
  refine .onHead h (fun _ _ h1 => ?_)
  split
  · exact h1.endJob
  · refine .headStep (.ite h1.rasterPtrs h1) (fun _ _ h2 => ?_)
    split
    · next e => exact (h2.readSegs.busy (congrArg Prod.fst e)).bankJob
    · next e => exact (h2.readSegs.hold (congrArg Prod.fst e)).holdJob
    · next e => exact (h2.readSegs.fail (congrArg Prod.fst e)).endJob
    · next e => exact .headStep (h2.readSegs.done (congrArg Prod.fst e)).rasterAdd fun _ _ h3 => h3.endJob

end Sys2Proof.Machine
end

section
/-! PROOF. The canonical form of memory is kept (O1): fetching, and what every instruction shares. -/

namespace Sys2Proof.Machine

variable {s t : State} {g : Group} {c : Ctx} {j : Job} {i : Instr}

/-! ### Fetching (R96-R99) -/

theorem Inv.popHead {cl : Nat} {e : Eng} (h : Inv s) : Inv (s.popHead cl e) := by
  unfold State.popHead
  split
  · exact h
  · next jb _ _ =>
    cases jb.phase with
    | done => exact h.setJobs.completeJob
    | queued =>
      cases jb.cmd
      case bad => exact .ite h h.setJobs.completeJob
      all_goals exact h
    | running => exact h
    | held => exact h
theorem Inv.fetchLine {p : Spot} (h : Inv s) : Inv (s.fetchLine g p) := by
  unfold State.fetchLine
  split
  · exact h.sliceRead
  · exact h
/-- The state after parcels have been fetched, or the state with what stopped it. -/
def ParcelsFormed : Except Fetched (List Parcel × State) → Prop
  | .ok r => Inv r.2
  | .error x => x.Formed
theorem ParcelsFormed.ok {r : Except Fetched (List Parcel × State)} {l : List Parcel} (h : ParcelsFormed r) (e : r = .ok (l, s)) :
    Inv s := by subst e; exact h
theorem ParcelsFormed.error {r : Except Fetched (List Parcel × State)} {x : Fetched} (h : ParcelsFormed r) (e : r = .error x) :
    x.Formed := by subst e; exact h
theorem Inv.fetchParcels {pc : Word} {n : Nat} (h : Inv s) : ParcelsFormed (s.fetchParcels g c pc n) := by
  induction n generalizing s pc with
  | zero => exact h
  | succ n ih =>
    unfold State.fetchParcels
    dsimp only
    split
    · exact h.tried
    · exact h.tried
    · exact h.tried
    · split
      · exact h.tried
      · split
        · next e => exact (ih h.tried.fetchLine.touchEa).ok e
        · next e => exact (ih h.tried.fetchLine.touchEa).error e
theorem Inv.fetch {pc : Word} (h : Inv s) : (s.fetch g c pc).Formed := by
  unfold State.fetch
  split
  · next e => exact h.fetchParcels.error e
  · next e =>
    have h1 := h.fetchParcels.ok e
    split
    · exact h1
    · split
      · next e => exact h1.fetchParcels.error e
      · next e =>
        split
        · exact h1.fetchParcels.ok e
        · exact h1.fetchParcels.ok e
theorem Inv.fetchSeq {n : Nat} {pc : Word} (h : Inv s) : (s.fetchSeq g c n pc).Formed := by
  unfold State.fetchSeq
  split
  · exact h
  · exact h.fetch
theorem Inv.noteCode {n : Nat} (h : Inv s) : Inv (s.noteCode g c n i) := h.updCtx

/-! ### Where the streams stand (R119, R124, R167, R328) -/

theorem Inv.settle (h : Inv s) : Inv (s.settle g c) := h.updCtx

/-! ### How an instruction ends (R118, R119, R136, R167) -/

theorem Act.raise_formed {cause : Nat} (h : Inv s) : (Act.raise s cause).Formed := h
theorem Act.fail_formed {cause : Nat} {ea : Word} (h : Inv s) : (Act.fail s cause ea).Formed := h
theorem Act.ofRes_formed {α : Type} {r : MRes α} {k : State → α → Act} (h : r.Formed) (k1 : ∀ t a, Inv t → (k t a).Formed) :
    (Act.ofRes r k).Formed := by
  unfold Act.ofRes
  split
  · exact k1 _ _ h
  · exact h
  · exact Act.fail_formed h
theorem Act.ofBlock_formed {α : Type} {split : Bool} {r : MRes α} {k : State → α → Act} (h : r.Formed)
    (k1 : ∀ t a, Inv t → (k t a).Formed) : (Act.ofBlock split r k).Formed := by
  unfold Act.ofBlock
  split
  · exact .ite h (Act.fail_formed h)
  · exact Act.ofRes_formed h fun _ _ h1 => k1 _ _ h1

/-! ### Stopping a context and a group -/

theorem Inv.stopStreams {gid : Nat} {st : Stopping} (h : Inv s) : Inv (s.stopStreams gid st) := by
  unfold State.stopStreams
  split
  · exact h
  · exact h
theorem Inv.markDelayed {lid : Nat} (h : Inv s) : Inv (s.markDelayed lid) := h.updLaunch
theorem Inv.finishStop {gid : Nat} (h : Inv s) : Inv (s.finishStop gid) := by
  unfold State.finishStop
  split
  · exact h
  · split
    · exact h
    · split
      · exact h
      · dsimp only
        split
        · exact h.saveImage.updGroup.markDelayed.report
        · exact h.saveImage.updGroup
theorem Inv.stopGroup {gid : Nat} {st : Stopping} (h : Inv s) : Inv (s.stopGroup gid st) := h.stopStreams.finishStop
theorem Inv.haltGroup {gid n cause : Nat} {addr pc : Word} (h : Inv s) : Inv (s.haltGroup gid n cause addr pc) := by
  unfold State.haltGroup
  split
  · exact h
  · exact h.stopGroup

/-! ### Taking an exception -/

theorem Inv.takeTrap {gid n cause : Nat} {tval epc epce : Word} (h : Inv s) : Inv (s.takeTrap gid n cause tval epc epce) := by
  unfold State.takeTrap
  dsimp only
  split
  · exact h.updCtx
  · exact .ite h.updCtx.updCtx.haltGroup h.updCtx.updCtx

/-! ### The two streams -/

theorem Inv.stalled {ev : Nat} {w : Wait} (h : Inv s) : Inv (s.stalled g c ev w) := by
  unfold State.stalled
  split
  · exact h.count
  · exact h
theorem Inv.finishA {s0 : State} {a : Act} (h : Inv s0) (h1 : a.Formed) : Inv (s0.finishA i g c a) := by
  unfold State.finishA
  split
  · exact .count (.updCtx h1)
  · exact .count (.updCtx h1)
  · exact .count h1
  · exact .stalled (.updCtx h1)
  · exact .ite (.takeTrap (.updCtx h1)) h.updCtx
theorem finishE_formed {a : Act} (h : a.Formed) : Inv (finishE i g c a) := by
  unfold finishE
  split
  · exact .count (.updCtx h)
  · exact .count (.updCtx h)
  · exact .count h
  · exact .stalled (.updCtx h)
  · exact .ite (.takeTrap (.updCtx h)) (.takeTrap (.updCtx h))
theorem runA_formed {f : State → Group → Ctx → Act} (h : Inv s) (k1 : ∀ t g c, Inv t → (f t g c).Formed) :
    NextFormed (runA i s f) := by
  unfold runA
  split
  · exact trivial
  · exact h.finishA (k1 _ _ _ h)
theorem runS_formed {f : State → Group → Ctx → Act} (h : Inv s) (k1 : ∀ t g c, Inv t → (f t g c).Formed) :
    NextFormed (runS i s f) := by
  unfold runS
  split
  · exact trivial
  · exact .ite (h.finishA (k1 _ _ _ h.updCtx)) h.updCtx
theorem runE_formed {f : State → Group → Ctx → Act} (h : Inv s) (k1 : ∀ t g c, Inv t → (f t g c).Formed) :
    NextFormed (runE i s f) := by
  unfold runE
  split
  · exact trivial
  · exact finishE_formed (k1 _ _ _ h)
theorem supervisor_formed {k : Act} (h : Inv s) (h1 : k.Formed) : (supervisor s c k).Formed := .ite h1 (Act.raise_formed h)
theorem controlOnly_formed {k : Act} (h : Inv s) (h1 : k.Formed) : (controlOnly s c k).Formed := .ite h1 (Act.raise_formed h)
theorem releaseGate_formed {k : State → Act} (h : Inv s) (k1 : ∀ t, Inv t → (k t).Formed) : (releaseGate s g c k).Formed :=
  .ite h (.ite h.updCtx (k1 _ h))
theorem released_formed {k : State → Nat → Act} (h : Inv s) (k1 : ∀ t n, Inv t → (k t n).Formed) : (released s g c k).Formed := by
  unfold released
  split
  · exact k1 _ _ h
  · exact releaseGate_formed h fun _ h1 => k1 _ _ h1.updCtx

/-! ### Pre-emption and resumption -/

theorem Inv.resumeGroup {gid core : Nat} (h : Inv s) : Inv (s.resumeGroup gid core) := by
  unfold State.resumeGroup
  dsimp only
  split
  · exact h.updGroup
  · split
    · exact h.updGroup.loadImage.keepLines
    · exact h.updGroup.loadImage

/-! ### Sources -/

theorem Act.failE_formed {cause : Nat} {la : Word} (h : Inv s) : (Act.failE s cause la).Formed := h
theorem Act.ofS_formed {α : Type} {r : SRes α} {k : State → α → Act} (h : Inv s) (h1 : r.Formed)
    (k2 : ∀ t a, Inv t → (k t a).Formed) : (Act.ofS s r k).Formed := by
  unfold Act.ofS
  split
  · exact k2 _ _ h1
  · exact h
  · exact Act.failE_formed h
theorem SRes.bind_formed {α β : Type} {r : SRes α} {k : State → α → SRes β} (h : r.Formed) (k1 : ∀ t a, Inv t → (k t a).Formed) :
    (r.bind k).Formed := by
  unfold SRes.bind
  split
  · exact k1 _ _ h
  · exact trivial
  · exact trivial
theorem Inv.readE {p : Spot} {n : Nat} (h : Inv s) : Inv (s.readE g c p n).2 := by
  unfold State.readE
  dsimp only
  split
  · exact h
  · exact .noteEarlyE (.plainRead (readLocal_formed h.noteSpot))
theorem Inv.kRead {c0 : Ctx} {k : BitVec 3} (h : Inv s) : (s.kRead g c0 k).Formed := by
  unfold State.kRead
  dsimp only
  split
  · exact trivial
  · exact h.readE.updCtx
theorem Inv.vSrc {c0 : Ctx} {src : BitVec 4} {reg : BitVec 5} (h : Inv s) : (s.vSrc g c0 src reg).Formed := by
  unfold State.vSrc
  dsimp only
  split
  · exact h
  · split
    · exact h.kRead
    · split
      · exact trivial
      · exact h.updCtx
theorem Inv.q7Src {c0 : Ctx} (h : Inv s) : (s.q7Src g c0).Formed := by
  unfold State.q7Src
  dsimp only
  split
  · exact trivial
  · exact h.updCtx
theorem Inv.q6Room {c0 : Ctx} {k : Act} (h : Inv s) (h1 : k.Formed) : (s.q6Room g c0 k).Formed := .ite h h1

/-! ### Guards and maps -/

theorem vRun_formed {op : Nat} {e0 : EArgs} {sizes : Ctx → EArgs → Nat × Nat × Nat}
    {body : EShape → EArgs → State → Group → Ctx → Act} (h : Inv s) (k1 : ∀ sh e t g c, Inv t → (body sh e t g c).Formed) :
    NextFormed (vRun i op e0 s sizes body) := by
  unfold vRun
  refine runE_formed h (fun _ _ _ h1 => ?_)
  split
  · exact Act.raise_formed h1
  · exact .ite (Act.raise_formed h1) (.ite (Act.raise_formed h1) (.ite (Act.raise_formed h1) (k1 _ _ _ _ _ h1)))
theorem readAB_formed {sh : EShape} {e : EArgs} {t : ETy} (h : Inv s) : (readAB s g c sh e t).Formed := by
  unfold readAB
  refine SRes.bind_formed h.vSrc (fun _ _ h1 => ?_)
  split
  · exact SRes.bind_formed h1.vSrc fun _ _ h2 => h2
  · exact h1
theorem vMap_formed {op : Nat} {e0 : EArgs} {f : ETy → ETy → Nat → Nat → Nat → Nat → Nat × Flags} (h : Inv s) :
    NextFormed (vMap i op e0 s f) :=
  vRun_formed h fun _ _ _ _ _ h1 => Act.ofS_formed h1 (readAB_formed h1) fun _ _ h2 => h2.updCtx

end Sys2Proof.Machine
end

section
/-! PROOF. The canonical form of memory is kept (O1): classes A and X. -/

namespace Sys2Proof.Machine

variable {s t : State} {g : Group} {c : Ctx} {j : Job} {i : Instr}

/-! ### Class A: arithmetic (R138-R142) -/

theorem alu_formed {d a : BitVec 5} {b : OpB} {f : Word → Word → Word} (h : Inv s) : NextFormed (alu i d a b s f) :=
  runA_formed h fun _ _ _ h1 => h1.updCtx
theorem alu3_formed {d a b : BitVec 5} {f : Word → Word → Word → Word} (h : Inv s) : NextFormed (alu3 i d a b s f) :=
  runA_formed h fun _ _ _ h1 => h1.updCtx
theorem execNop_formed {f : NopForm} (h : Inv s) : NextFormed (execNop f s) := runA_formed h fun _ _ _ h1 => h1
theorem execLi_formed {hi : Bool} {d : BitVec 5} {v : Imm} (h : Inv s) : NextFormed (execLi hi d v s) :=
  runA_formed h fun _ _ _ h1 => h1.updCtx
theorem execLia_formed {d : BitVec 5} {v : Imm} (h : Inv s) : NextFormed (execLia d v s) := runA_formed h fun _ _ _ h1 => h1.updCtx
theorem execMac_formed {d a : BitVec 5} {b : OpB} (h : Inv s) : NextFormed (execMac d a b s) :=
  runA_formed h fun _ _ _ h1 => h1.updCtx

/-! ### Class A: control flow (R143-R147) -/

theorem flowTo_formed {cont : Word} {vmask : BitVec 32} {f : Ctx → Ctx} (h : Inv s) : (flowTo s g c cont vmask f).Formed :=
  .ite h h.updCtx
theorem branch_formed {off : BitVec 23} {taken : Ctx → Bool} (h : Inv s) : NextFormed (branch i off s taken) :=
  runA_formed h fun _ _ _ h1 => flowTo_formed h1
theorem jumpTo_formed {t : Word} {vmask : BitVec 32} {f : Ctx → Ctx} (h : Inv s) : (jumpTo s g c t vmask f).Formed :=
  .ite (Act.raise_formed h) (flowTo_formed h)
theorem execJ_formed {a : BitVec 5} (h : Inv s) : NextFormed (execJ a s) := runA_formed h fun _ _ _ h1 => jumpTo_formed h1
theorem execCall_formed {d a : BitVec 5} (h : Inv s) : NextFormed (execCall d a s) := runA_formed h fun _ _ _ h1 => jumpTo_formed h1
theorem execCallLabel_formed {d : BitVec 5} {off : BitVec 23} (h : Inv s) : NextFormed (execCallLabel d off s) :=
  runA_formed h fun _ _ _ h1 => jumpTo_formed h1
theorem execRet_formed {a : BitVec 5} (h : Inv s) : NextFormed (execRet a s) := runA_formed h fun _ _ _ h1 => jumpTo_formed h1
theorem execLoop_formed {d : BitVec 5} {off : BitVec 23} (h : Inv s) : NextFormed (execLoop d off s) :=
  runA_formed h fun _ _ _ h1 => flowTo_formed h1
theorem execBqe_formed {z : Bool} {d : BitVec 5} {off : BitVec 23} (h : Inv s) : NextFormed (execBqe z d off s) := by
  unfold execBqe
  refine runA_formed h (fun _ _ _ h1 => ?_)
  split
  · exact h1
  · exact flowTo_formed (.ite h1 h1.updCtx)
theorem execYield_formed (h : Inv s) : NextFormed (execYield s) := runA_formed h fun _ _ _ h1 => h1

/-! ### Class A: loads, stores, queues and caches (R148-R162) -/

theorem scalarLoad_formed {w : LdW} {d : BitVec 5} {ea : Ctx → Word} (h : Inv s) : NextFormed (scalarLoad i w d s ea) :=
  runA_formed h fun _ _ _ h1 => Act.ofRes_formed h1.loadA fun _ _ h2 => h2.updCtx
theorem scalarStore_formed {w : StW} {d : BitVec 5} {ea : Ctx → Word} (h : Inv s) : NextFormed (scalarStore i w d s ea) :=
  runA_formed h fun _ _ _ h1 => Act.ofRes_formed h1.storeA fun _ _ h2 => h2
theorem blockLoad_formed {q : BitVec 2} {ea : Ctx → Word} (h : Inv s) : NextFormed (blockLoad i q s ea) := by
  unfold blockLoad
  refine runA_formed h (fun _ _ _ h1 => ?_)
  dsimp only
  split
  · exact .ite h1.updCtx h1.updCtx
  · exact Act.ofBlock_formed h1.loadBlock fun _ _ h2 => .ite h2.updCtx h2.updCtx
theorem blockStore_formed {q5 : Bool} {ea : Ctx → Word} (h : Inv s) : NextFormed (blockStore i q5 s ea) := by
  unfold blockStore
  refine runA_formed h (fun _ _ _ h1 => ?_)
  dsimp only
  split
  · exact h1
  · exact Act.ofBlock_formed h1.storeBlock fun _ _ h2 => h2.updCtx
theorem execPfx_formed {cl : Bool} {a : BitVec 5} {b : OpBSM} (h : Inv s) : NextFormed (execPfx cl a b s) :=
  runA_formed h fun _ _ _ h1 => h1
theorem execPushq_formed {a : BitVec 5} (h : Inv s) : NextFormed (execPushq a s) := runA_formed h fun _ _ _ h1 => .ite h1 h1.updCtx
theorem execPopq_formed {d : BitVec 5} (h : Inv s) : NextFormed (execPopq d s) := by
  unfold execPopq
  refine runA_formed h (fun _ _ _ h1 => ?_)
  split
  · exact h1
  · exact h1.updCtx
theorem execQstat_formed {d : BitVec 5} {q : Option (BitVec 3)} (h : Inv s) : NextFormed (execQstat d q s) :=
  runA_formed h fun _ _ _ h1 => h1.updCtx
theorem cacheLine_formed {a : BitVec 5} {b : OpBSM} {drop : Bool} (h : Inv s) : NextFormed (cacheLine i a b drop s) :=
  runA_formed h fun _ _ _ h1 => .ite h1 (.ite (.ite (Act.fail_formed h1) h1)
    (.ite (Act.fail_formed h1.keepEntry) h1.keepEntry.cleanLine))

/-! ### Read-modify-writes -/

theorem Inv.homeTurn {p : Spot} {n : Nat} {use : Use} (h : Inv s) : Inv (s.homeTurn g c p n use) := by
  unfold State.homeTurn
  split
  · exact h.foldl fun _ _ h1 => h1.sliceTurn
  · exact h
theorem Inv.passedLocal {key n : Nat} (h : Inv s) : Inv (s.passedLocal g c key n) := .ite h h.updCtx
theorem Inv.actAt {w : Who} {p : Spot} {n : Nat} {op : LogOp} {operand : Nat} (h : Inv s) :
    Inv (s.actAt g c w p n op operand).1 := by
  unfold State.actAt
  dsimp only
  split
  · exact h
  · split
    · exact h.noteSpot.sawWords.passedLocal.homeTurn
    · exact .wsWritten (.store (.homeTurn (.ite h.noteSpot.sawWords.updCtx h.noteSpot.sawWords)))
theorem Inv.relAt {agent tag : Nat} {sc : Scope} {var : Nat} (h : Inv s) : Inv (s.relAt g agent tag sc var) := h.addRel
theorem Inv.relOp {agent : Nat} {rel : Option (Scope × Nat)} {key : Nat} (h : Inv s) : Inv (s.relOp g agent rel key) := by
  unfold State.relOp
  split
  · exact h.relAt
  · exact h
theorem Inv.atomicA {s0 : State} {ea : Word} {n : Nat} {right : Right} {op : LogOp} {operand : Nat} {logs relaxed : Bool}
    {rel : Option Scope} (h : Inv s0) : (s0.atomicA g c ea n right op operand logs relaxed rel).Formed := by
  unfold State.atomicA
  dsimp only
  split
  · exact h.tried
  · split
    · split
      · next e => exact Inv.ite (h.tried.logStore.ok e).updCtx (h.tried.logStore.ok e)
      · next e => exact h.tried.logStore.wait e
      · next e => exact h.tried.logStore.trap e
    · exact .ite h.tried h.tried.hold
  · split
    · split
      · split
        · next e => exact Inv.ite (h.tried.logStore.ok e).updCtx (h.tried.logStore.ok e)
        · next e => exact h.tried.logStore.wait e
        · next e => exact h.tried.logStore.trap e
      · exact h.tried
    · split
      · exact h.tried
      · split
        · exact h.tried
        · split
          · exact h.tried
          · refine Inv.ite (.relOp (.touchEa ?_)) (.touchEa ?_)
            · exact .ite (.updCtx (.actAt (.ite h.tried.noteEarly h.tried))) (.actAt (.ite h.tried.noteEarly h.tried))
            · exact .ite (.updCtx (.actAt (.ite h.tried.noteEarly h.tried))) (.actAt (.ite h.tried.noteEarly h.tried))
theorem atomicX_formed {ea : Ctx → Word} {n : Nat} {right : Right} {op : Ctx → LogOp} {operand : Ctx → Nat} {logs : Bool}
    {rel acq : Option Scope} {fin : Nat → Ctx → Ctx} (h : Inv s) :
    NextFormed (atomicX i s ea n right op operand logs rel acq fin) := by
  unfold atomicX
  refine runA_formed h (fun _ _ _ h1 => ?_)
  dsimp only
  split
  · refine Act.ofRes_formed h1.atomicA (fun _ _ h2 => ?_)
    split
    · exact h2
    · split
      · exact h2.updCtx.acquireVar
      · exact h2.updCtx
  · refine releaseGate_formed h1 (fun _ h3 => ?_)
    refine Act.ofRes_formed h3.atomicA (fun _ _ h4 => ?_)
    split
    · exact h4
    · split
      · exact h4.updCtx.acquireVar
      · exact h4.updCtx
theorem amoX_formed {w64 : Bool} {op : AmoOp} {o : MemOrd} {sc : Scope} {d a b : BitVec 5} (h : Inv s) :
    NextFormed (amoX i w64 op o sc d a b s) :=
  atomicX_formed h
theorem casX_formed {w64 : Bool} {o : MemOrd} {sc : Scope} {d a b : BitVec 5} (h : Inv s) : NextFormed (casX i w64 o sc d a b s) :=
  atomicX_formed h
theorem waccX_formed {a b : BitVec 5} {w : Ctx → ℤ} (h : Inv s) : NextFormed (waccX i a b w s) := atomicX_formed h
theorem execLdacq_formed {w64 : Bool} {sc : Scope} {d a : BitVec 5} {b : OpBSM} (h : Inv s) :
    NextFormed (execLdacq w64 sc d a b s) := by
  unfold execLdacq
  refine runA_formed h (fun _ _ _ h1 => ?_)
  refine Act.ofRes_formed h1.loadA (fun _ _ h2 => ?_)
  dsimp only
  split
  · exact h2.updCtx.acquireVar
  · exact h2.updCtx.updCtx

/-! ### Replay of the side log (R221, R222, R304) -/

theorem Inv.replayEntry {s0 : State} {e : LogEntry} (h : Inv s0) : (s0.replayEntry g e).Formed := by
  unfold State.replayEntry
  split
  · exact h
  · dsimp only
    split
    · split
      · exact trivial
      · exact trivial
    · exact h.walked
    · split
      · exact trivial
      · split
        · exact h.walked
        · split
          · exact Inv.ite (.relOp (.ite h.walked.actAt.touchEa.noteEarly h.walked.actAt.touchEa))
              (.ite h.walked.actAt.touchEa.noteEarly h.walked.actAt.touchEa)
          · exact h.walked.actAt.touchEa

/-! ### Fences -/

theorem Inv.acquireEarly {sc : Scope} {l : List EarlyRead} (h : Inv s) : Inv (s.acquireEarly g c sc l) := by
  unfold State.acquireEarly
  refine .foldl h (fun _ _ h1 => ?_)
  split
  · exact h1.updCtx
  · exact h1
theorem execFence_formed {sc : Scope} (h : Inv s) : NextFormed (execFence sc s) :=
  runA_formed h fun _ _ _ h1 => releaseGate_formed h1 fun _ h2 => h2.updCtx.acquireEarly.updCtx
theorem execXfence_formed {src dst : BitVec 8} (h : Inv s) : NextFormed (execXfence src dst s) :=
  runA_formed h fun _ _ _ h1 => Inv.updCtx h1

/-! ### Barriers -/

theorem Inv.updBarrier {id : BarId} {f : Barrier → Barrier} (h : Inv s) : Inv (s.updBarrier id f) := .ite h h
theorem Inv.countArrival {sc : Scope} (h : Inv s) : Inv (s.countArrival g c sc) := by
  unfold State.countArrival
  split
  · exact h.updCtx
  · exact h.updCtx
  · exact h.updGroup
theorem Inv.arrive {sc : Scope} {id : BarId} {value : Option Word} (h : Inv s) : Inv (s.arrive g c sc id value) :=
  h.updCtx.updBarrier.countArrival
theorem Inv.endWait {id : BarId} {p : Nat} (h : Inv s) : Inv (s.endWait g c id p) := h.updCtx
theorem waitPhase_formed {id : BarId} {p : Nat} {fin : List Arrival → Ctx → Ctx} (h : Inv s) : (waitPhase s g c id p fin).Formed :=
  .ite h.endWait.updCtx h
theorem withBarrier_formed {sc : Scope} {k : BarId → Act} (h : Inv s) (k1 : ∀ id, (k id).Formed) :
    (withBarrier s g c sc k).Formed := by
  unfold withBarrier
  split
  · exact Act.raise_formed h
  · split
    · exact Act.raise_formed h
    · exact k1 _
theorem barX_formed {sc : Scope} {value : Ctx → Option Word} {ln : Ctx → Ctx} {fin : List Arrival → Ctx → Ctx} (h : Inv s) :
    NextFormed (barX i sc value ln fin s) := by
  unfold barX
  refine runA_formed h (fun _ _ _ h1 => ?_)
  split
  · exact h1.countArrival.updCtx
  · refine withBarrier_formed h1 (fun _ => ?_)
    split
    · exact waitPhase_formed h1
    · exact releaseGate_formed h1 fun _ h2 => waitPhase_formed h2.arrive.updCtx
theorem execBarwArr_formed {sc : Scope} {d : BitVec 5} (h : Inv s) : NextFormed (execBarwArr sc d s) :=
  runA_formed h fun _ _ _ h1 => .ite h1.countArrival.updCtx (withBarrier_formed h1 fun _ => releaseGate_formed h1 fun _ h2 =>
    h2.arrive.updCtx)
theorem execBarwWt_formed {sc : Scope} {a : BitVec 5} (h : Inv s) : NextFormed (execBarwWt sc a s) :=
  runA_formed h fun _ _ _ h1 => .ite (.ite (Act.raise_formed h1) h1.updCtx)
    (withBarrier_formed h1 fun _ => .ite (Act.raise_formed h1) (waitPhase_formed h1))

/-! ### Event lines -/

theorem execWfe_formed {d a : BitVec 5} (h : Inv s) : NextFormed (execWfe d a s) :=
  runA_formed h fun _ _ _ h1 => .ite h1.updCtx (.ite h1.updCtx h1.updCore.updGroup.updCtx)
theorem execSev_formed {a b : BitVec 5} (h : Inv s) : NextFormed (execSev a b s) :=
  runA_formed h fun _ _ _ h1 => .ite (Act.raise_formed h1) (.ite h1.raiseLine (Act.raise_formed h1))

/-! ### The device clock -/

theorem execPhcrd_formed {sec : Bool} {d : BitVec 5} (h : Inv s) : NextFormed (execPhcrd sec d s) :=
  runA_formed h fun _ _ _ h1 => h1.updCtx
theorem Inv.flagStore {w : Who} {vf : Nat} {bndt : Word} {loc : Loc} {tag : Nat} {ptr : Word} {b : List Byte} (h : Inv s) :
    Inv (s.flagStore w vf bndt loc tag ptr b) := by
  unfold State.flagStore
  dsimp only
  split
  · exact h
  · split
    · split
      · exact h.keepWalk
      · exact h.keepWalk.noteSpot.engLines.store.engTouched.addRel
    · exact h
theorem Inv.trelStore {t : Trel} {due : Nat} {e : Nat × Word × Word} (h : Inv s) : Inv (State.trelStore t due s e) :=
  .ite h.flagStore h.sendFabric
theorem Inv.trelAll {t : Trel} {due : Nat} (h : Inv s) : Inv (s.trelAll t due) := h.foldl fun _ _ h1 => h1.trelStore
theorem Inv.arm {t : Trel} (h : Inv s) : Inv (s.arm t) := h.trelAll
theorem Inv.trelNow {t : Trel} (h : Inv s) : Inv (s.trelNow t) := .ite h.arm h.trelAll
theorem Inv.trelList {ea : Word} {n : Nat} (h : Inv s) : (s.trelList g c ea n).Formed := by
  delta State.trelList
  refine brecOn_holds (motive := fun _ => State → Ctx → MRes Unit)
    (P := fun _ f => ∀ {s : State} {c : Ctx}, Inv s → (f s c).Formed) (fun n b ih s c h => ?_) n h
  refine matchNat_holds (Q := MRes.Formed (α := Unit)) ih ?_ ?_
  · exact fun _ => h
  intro n b ih
  split
  · next e => exact h.loadA.wait e
  · next e => exact h.loadA.trap e
  · next e => exact ih (h.loadA.ok e).updCtx
theorem execTrel_formed {n d a b : BitVec 5} (h : Inv s) : NextFormed (execTrel n d a b s) :=
  runA_formed h fun _ _ _ h1 => .ite (Act.raise_formed h1) (released_formed h1 fun _ _ h2 =>
    Act.ofRes_formed h2.trelList fun _ _ h3 => .ite (Act.raise_formed h3) (.ite h3 (.ite h3.trelNow.updCtx h3.arm.updCtx)))

end Sys2Proof.Machine
end

section
/-! PROOF. The canonical form of memory is kept (O1): queues, counters, keys, and the copy units. -/

namespace Sys2Proof.Machine

variable {s t : State} {g : Group} {c : Ctx} {j : Job} {i : Instr}

/-! ### Virtual memory as queue managers and engines reach it -/

theorem Inv.vUsePage {vf : Nat} {store : Bool} {x : Nat × Nat} (h : Inv s) : Inv (State.vUsePage vf store s x) := by
  unfold State.vUsePage
  split
  · exact h.keepWalk.engLines.engTouched
  · exact h
theorem Inv.vUse {vf ptr n : Nat} {store : Bool} (h : Inv s) : Inv (s.vUse vf ptr n store) := h.foldl fun _ _ h1 => h1.vUsePage
theorem Inv.vUses {l : VReads} (h : Inv s) : Inv (s.vUses l) := h.foldl fun _ _ h1 => h1.vUse
theorem Inv.vPut {vf ptr : Nat} {b : List Byte} (h : Inv s) : Inv (s.vPut vf ptr b) := by
  unfold State.vPut
  split
  · exact h.vUse.settledWords.store
  · exact h
theorem Inv.vWr {vf ptr : Nat} {b : List Byte} (h : Inv s) : Inv (s.vWr vf ptr b) := .ite h.vPut h.vPut.vPut

/-! ### Launch queues -/

theorem Inv.setTag {vf ptr st : Nat} (h : Inv s) : Inv (s.setTag vf ptr st) := by
  unfold State.setTag
  split
  · exact h.vUse.replaced.store
  · exact h
theorem Inv.notePublish {key : Nat} {covers : List Acq} (h : Inv s) : Inv (s.notePublish key covers) := h

/-! ### Dependence counters -/

theorem Inv.submitCounter {vf key addr : Nat} {covers : List Acq} (h : Inv s) : Inv (s.submitCounter vf key addr covers) := h
theorem Inv.putCount {vf key addr n : Nat} {covers : List Acq} (h : Inv s) : Inv (s.putCount vf key addr n covers) :=
  .ite h.store.submitCounter h.store
theorem Inv.qPublish {vf n : Nat} {q : QHead} {data : List Byte} {covers : List Acq} (h : Inv s)
    (e : s.qPublish vf q data covers = some (n, t)) : Inv t := by
  unfold State.qPublish at e
  dsimp only at e
  split at e
  · cases e
  · cases e
    exact h.wr.vWr.setTag.tock.notePublish
theorem Inv.counterSubmit {i : Nat} (h : Inv s) : Inv (s.counterSubmit i) := by
  unfold State.counterSubmit
  split
  · exact h
  · dsimp only
    split
    · exact h
    · refine .ite h (.ite h ?_)
      split
      · exact h
      · next e =>
        refine .foldl (Inv.qPublish (.vUse ?_) e) fun _ _ h1 => h1.addRel
        exact h

/-! ### Section keys -/

theorem Inv.updKey {k : Nat} {f : KeySt → KeySt} (h : Inv s) : Inv (s.updKey k f) := h
theorem Inv.grantKey {k : Nat} (h : Inv s) : Inv (s.grantKey k) := by
  unfold State.grantKey
  split
  · exact h
  · exact h.updKey
theorem execOrderedSectionGrant_formed {i : Nat} (h : Inv s) : NextFormed (execOrderedSectionGrant i s) := by
  unfold execOrderedSectionGrant
  show Inv _
  split
  · exact h.grantKey
  · exact h
theorem Inv.freeKey {gid k : Nat} {abandon : Bool} (h : Inv s) : Inv (s.freeKey gid k abandon) := h.updGroup.updKey
theorem Inv.abandonKeys {rel : Option (Nat × Nat)} {sc : Scope} (h : Inv s) : Inv (s.abandonKeys g rel sc) := by
  unfold State.abandonKeys
  refine .updGroup ?_
  refine .foldl h (fun _ _ h1 => ?_)
  dsimp only
  split
  · exact h1.freeKey.inform.relAt
  · exact h1.freeKey.inform

/-! ### COPY -/

theorem Inv.sendRow {cl dst : Nat} {b : List Byte} (h : Inv s) : Inv (s.sendRow cl j dst b) := h.sendFabric.setHead
theorem Inv.copyRow {r : Nat} (h : Inv s) : (s.copyRow j r).Formed := JRes.bind_formed h.jobRead fun _ _ h1 => h1.jobWrite
theorem Inv.copyRows {n r : Nat} (h : Inv s) : (s.copyRows j n r).Formed := by
  induction n generalizing s r with
  | zero => exact h
  | succ n ih =>
    unfold State.copyRows
    split
    · next e => exact ih (h.copyRow.ok e)
    · next e => exact h.copyRow.busy e
    · next e => exact h.copyRow.hold e
    · next e => exact h.copyRow.fail e
theorem Inv.barredRow {n r : Nat} (h : Inv s) : Inv (s.barredRow j n r).1 := by
  induction n generalizing s r with
  | zero => exact h
  | succ n ih =>
    unfold State.barredRow
    dsimp only
    split
    · exact JRes.state_formed h.jobSpots
    · exact JRes.state_formed (Inv.jobSpots (JRes.state_formed h.jobSpots))
    · exact JRes.state_formed (Inv.jobSpots (JRes.state_formed h.jobSpots))
    · exact ih (JRes.state_formed (Inv.jobSpots (JRes.state_formed h.jobSpots)))
theorem Inv.publishSlot {path ptr : Nat} (h : Inv s) : (s.publishSlot j path ptr).Formed := by
  unfold State.publishSlot
  refine JRes.bind_formed h.jobSpots (fun _ _ h1 => ?_)
  split
  · exact .ite h1.engLines.engTouched h1.noteSpot.engChanged.store.addRel.notePublish
  · exact h1
theorem Inv.copyHere {cl : Nat} (h : Inv s) : Inv (s.copyHere cl j) := by
  unfold State.copyHere
  dsimp only
  split
  · next e => exact (h.barredRow.of_fst e).endJob
  · next e =>
      split
      · next e' => exact ((h.barredRow.of_fst e).copyRows.busy e').bankJob
      · next e' => exact ((h.barredRow.of_fst e).copyRows.hold e').holdJob
      · next e' => exact ((h.barredRow.of_fst e).copyRows.fail e').endJob
      · next e' =>
          exact .ite ((h.barredRow.of_fst e).copyRows.done e').endJob (.headStep
            ((h.barredRow.of_fst e).copyRows.done e').publishSlot fun _ _ h1 => h1.endJob)
theorem Inv.sendChecked {cl ptr n : Nat} {right : Right} {index : Nat} {k : State → State} (h : Inv s)
    (k1 : ∀ t, Inv t → Inv (k t)) : Inv (s.sendChecked cl j ptr n right index k) := by
  unfold State.sendChecked
  split
  · exact h.endJob
  · exact k1 _ h
theorem Inv.copyAway {cl : Nat} (h : Inv s) : Inv (s.copyAway cl j) := by
  unfold State.copyAway
  dsimp only
  split
  · exact h.endJob
  · split
    · exact h
    · split
      · split
        · next e => exact (h.jobRead.busy e).bankJob
        · next e => exact (h.jobRead.hold e).holdJob
        · next e => exact (h.jobRead.fail e).endJob
        · next e => exact (h.jobRead.ok e).sendChecked fun _ h1 => h1.sendRow
      · exact .ite (h.sendChecked fun _ h2 => h2.sendRow) h.endJob
theorem Inv.copy {cl : Nat} (h : Inv s) : Inv (s.copy cl) := h.onHead fun _ _ h1 => .ite h1.endJob (.ite h1.copyHere h1.copyAway)

/-! ### GATHER -/

theorem Inv.gatherAt {n lv x : Nat} (h : Inv s) : (s.gatherAt j n lv x).Formed := by
  induction n generalizing s lv x with
  | zero => exact h
  | succ n ih => exact .ite h (.ite (JRes.bind_formed (.ite h h.jobReadN) fun _ _ h1 => ih h1)
    (JRes.bind_formed (.ite h h.jobRead) fun _ _ h2 => h2))
theorem Inv.gatherRun {n i : Nat} {oob : Option (Nat × Nat)} (h : Inv s) : (s.gatherRun j n i oob).1.Formed := by
  induction n generalizing s i oob with
  | zero => exact h
  | succ n ih =>
    unfold State.gatherRun
    extract_lets r
    have hr : r.Formed := JRes.bind_formed h.gatherAt fun _ _ h1 => JRes.bind_formed (.ite h1 h1.jobWrite) fun _ _ h2 => h2
    clear_value r
    cases r with
    | ok => exact ih hr
    | busy => exact hr
    | hold => exact hr
    | fail => exact hr
theorem Inv.gather {cl : Nat} (h : Inv s) : Inv (s.gather cl) := by
  unfold State.gather
  refine .onHead h (fun _ _ h1 => ?_)
  split
  · exact h1.endJob
  · split
    · next e => exact (h1.gatherRun.busy (congrArg Prod.fst e)).bankJob
    · next e => exact (h1.gatherRun.hold (congrArg Prod.fst e)).holdJob
    · next e => exact (h1.gatherRun.fail (congrArg Prod.fst e)).endJob
    · next e => exact (h1.gatherRun.done (congrArg Prod.fst e)).endJob
    · next e => exact (h1.gatherRun.done (congrArg Prod.fst e)).endJob

end Sys2Proof.Machine
end

section
/-! PROOF. The canonical form of memory is kept (O1): class E. -/

namespace Sys2Proof.Machine

variable {s t : State} {g : Group} {c : Ctx} {j : Job} {i : Instr}

/-! ### Failed fetches and decodes (R117, R118) -/

theorem Inv.fetchTrap {cause : Nat} {tval : Word} (h : Inv s) : Inv (s.fetchTrap g c cause tval) := .ite h.updCtx.takeTrap h.updCtx
theorem Inv.fetchTrapE {cause : Nat} {tval : Word} (h : Inv s) : Inv (s.fetchTrapE g c cause tval) := h.updCtx.takeTrap
theorem execDecodeTrap_formed {cause : Nat} (h : Inv s) : NextFormed (execDecodeTrap cause s) := by
  unfold execDecodeTrap
  split
  · exact trivial
  · exact h.fetchTrap

/-! ### Double-width and dot products (R171, R172) -/

theorem vWide_formed {op : Nat} {e0 : EArgs} {f : ETy → Nat → Nat → Nat × Flags} (h : Inv s) : NextFormed (vWide i op e0 s f) :=
  vRun_formed h fun _ _ _ _ _ h1 => Act.ofS_formed h1 (readAB_formed h1) fun _ _ h2 => h2.updCtx
theorem execVdot_formed {e : EArgs} (h : Inv s) : NextFormed (execVdot e s) :=
  vRun_formed h fun _ _ _ _ _ h1 => Act.ofS_formed h1 (readAB_formed h1) fun _ _ h2 => h2.updCtx

/-! ### Class E: compares and guards (R177-R179) -/

theorem execVcmp_formed {e : EArgs} (h : Inv s) : NextFormed (execVcmp e s) :=
  vRun_formed h fun _ _ _ _ _ h1 => Act.ofS_formed h1 (readAB_formed h1) fun _ _ h2 => h2.updCtx
theorem vGuard_formed {op : Nat} {e0 : EArgs} {f : Guard → Guard → Guard → Nat → Guard} (h : Inv s) :
    NextFormed (vGuard i op e0 s f) :=
  vRun_formed h fun _ _ _ _ _ h1 => h1.updCtx
theorem Inv.pushQ6 {d : Word} (h : Inv s) : Inv (s.pushQ6 g c d) := h.updCtx
theorem execGcnt_formed {e : EArgs} (h : Inv s) : NextFormed (execGcnt e s) := vRun_formed h fun _ _ _ _ _ h1 => h1.q6Room h1.pushQ6

/-! ### Class E: conversions (R180-R186) -/

theorem readU_formed {e : EArgs} {n ws : Nat} (h : Inv s) : (readU s g c e n ws).Formed := by
  unfold readU
  split
  · exact h
  · split
    · exact SRes.bind_formed h.vSrc fun _ _ h1 => h1
    · exact h
theorem execVcvt_formed {e : EArgs} (h : Inv s) : NextFormed (execVcvt e s) :=
  vRun_formed h fun _ _ _ _ _ h1 => .ite (Act.raise_formed h1) (Act.ofS_formed h1 h1.vSrc fun _ _ h2 =>
    Act.ofS_formed h1 (readU_formed h2) fun _ _ h3 => h3.updCtx)
theorem execVwiden_formed {e : EArgs} (h : Inv s) : NextFormed (execVwiden e s) :=
  vRun_formed h fun _ _ _ _ _ h1 => .ite (Act.raise_formed h1) (Act.ofS_formed h1 h1.vSrc fun _ _ h2 => h2.updCtx)
theorem execVnarrow_formed {e : EArgs} (h : Inv s) : NextFormed (execVnarrow e s) :=
  vRun_formed h fun _ _ _ _ _ h1 => .ite (Act.raise_formed h1) (Act.ofS_formed h1 (readU_formed h1) fun _ _ h2 => h2.updCtx)

/-! ### Packing (R183) -/

theorem vPack_formed {op : Nat} {e0 : EArgs} {f : Nat → List Nat → Block} (h : Inv s) : NextFormed (vPack i op e0 s f) :=
  vRun_formed h fun _ _ _ _ _ h1 => Act.ofS_formed h1 h1.vSrc fun _ _ h2 => h2.updCtx

/-! ### Scaling and quantisation (R184, R185) -/

theorem execVqnt_formed {e : EArgs} (h : Inv s) : NextFormed (execVqnt e s) :=
  vRun_formed h fun _ _ _ _ _ h1 => .ite (Act.raise_formed h1) (Act.ofS_formed h1 h1.vSrc fun _ _ h2 =>
    Act.ofS_formed h1 (readU_formed h2) fun _ _ h3 => h1.q6Room h3.updCtx.pushQ6)
theorem execFmtld_formed {e : EArgs} (h : Inv s) : NextFormed (execFmtld e s) :=
  vRun_formed h fun _ _ _ _ _ h1 => Act.ofS_formed h1 h1.vSrc fun _ _ h2 => h2.updCtx

/-! ### Class E: data movement (R187-R192) -/

theorem vFill_formed {op : Nat} {e0 : EArgs} {ok : ETy → Bool} {f : ETy → Nat → Nat} (h : Inv s) :
    NextFormed (vFill i op e0 s ok f) :=
  vRun_formed h fun _ _ _ _ _ h1 => .ite (Act.raise_formed h1) h1.updCtx
theorem execVperm_formed {e : EArgs} (h : Inv s) : NextFormed (execVperm e s) :=
  vRun_formed h fun _ _ _ _ _ h1 => Act.ofS_formed h1 (readAB_formed h1) fun _ _ h2 => h2.updCtx
theorem execVext_formed {e : EArgs} (h : Inv s) : NextFormed (execVext e s) :=
  vRun_formed h fun _ _ _ _ _ h1 => .ite (Act.raise_formed h1) (Act.ofS_formed h1 h1.vSrc fun _ _ h2 => h1.q6Room h2.pushQ6)
theorem execVins_formed {e : EArgs} (h : Inv s) : NextFormed (execVins e s) :=
  vRun_formed h fun _ _ _ _ _ h1 => .ite (Act.raise_formed h1) (Act.ofS_formed h1 h1.q7Src fun _ _ h2 => h2.updCtx)
theorem execVpull_formed {e : EArgs} (h : Inv s) : NextFormed (execVpull e s) :=
  vRun_formed h fun _ _ _ _ _ h1 => Act.ofS_formed h1 h1.q7Src fun _ _ h2 => h2.updCtx
theorem execVmint_formed {e : EArgs} (h : Inv s) : NextFormed (execVmint e s) :=
  vRun_formed h fun _ _ _ _ _ h1 => Act.ofS_formed h1 h1.q7Src fun _ _ h2 => h2.updCtx
theorem execVsel_formed {e : EArgs} (h : Inv s) : NextFormed (execVsel e s) :=
  vRun_formed h fun _ _ _ _ _ h1 => Act.ofS_formed h1 (readAB_formed h1) fun _ _ h2 => h2.updCtx
theorem execVcompress_formed {e : EArgs} (h : Inv s) : NextFormed (execVcompress e s) :=
  vRun_formed h fun _ _ _ _ _ h1 => Act.ofS_formed h1 (readAB_formed h1) fun _ _ h2 => h2.updCtx
theorem execVexpand_formed {e : EArgs} (h : Inv s) : NextFormed (execVexpand e s) :=
  vRun_formed h fun _ _ _ _ _ h1 => Act.ofS_formed h1 (readAB_formed h1) fun _ _ h2 => h2.updCtx

/-! ### Scans and reductions (R48, R49, R190) -/

theorem vReduce_formed {opc : Nat} {e0 : EArgs} {f : Nat → ETy → List Nat → List Nat × Flags} (h : Inv s) :
    NextFormed (vReduce i opc e0 s f) :=
  vRun_formed h fun _ _ _ _ _ h1 => Act.ofS_formed h1 (readAB_formed h1) fun _ _ h2 => h2.updCtx

/-! ### vtopk (R191) -/

theorem execVtopk_formed {e : EArgs} (h : Inv s) : NextFormed (execVtopk e s) :=
  vRun_formed h fun _ _ _ _ _ h1 => Act.ofS_formed h1 (readAB_formed h1) fun _ _ h2 => h2.updCtx
theorem execVpush_formed {e : EArgs} (h : Inv s) : NextFormed (execVpush e s) :=
  vRun_formed h fun _ _ _ _ _ h1 => .ite h1 (Act.ofS_formed h1 h1.vSrc fun _ _ h2 => h2.updCtx)

/-! ### Class E: k pointers (R193-R195) -/

theorem execKset_formed {k : BitVec 3} {addr : BitVec 32} {stride : BitVec 16} {hint : BitVec 7} (h : Inv s) :
    NextFormed (execKset k addr stride hint s) :=
  runE_formed h fun _ _ _ h1 => h1.updCtx
theorem execKget_formed {e : EArgs} (h : Inv s) : NextFormed (execKget e s) := vRun_formed h fun _ _ _ _ _ h1 => h1.q6Room h1.pushQ6

/-! ### Blocks -/

theorem execVlds_formed {e : EArgs} (h : Inv s) : NextFormed (execVlds e s) :=
  vRun_formed h fun _ _ _ _ _ h1 => Act.ofS_formed h1 h1.kRead fun _ _ h2 => h2.updCtx
theorem Inv.storeWords {l : List (Nat × Nat)} (h : Inv s) : Inv (s.storeWords g c l) := h.noteWords.updCtx.foldl fun _ _ h1 => h1.wr
theorem Inv.kWrite {c0 : Ctx} {k : BitVec 3} {gd : Guard} {d : Block} (h : Inv s) : (s.kWrite g c0 k gd d).Formed := by
  unfold State.kWrite
  dsimp only
  split
  · exact trivial
  · exact trivial
  · exact h.updCtx.updCtx
  · split
    · exact trivial
    · exact h.storeWords.updCtx
theorem execVsts_formed {e : EArgs} (h : Inv s) : NextFormed (execVsts e s) :=
  vRun_formed h fun _ _ _ _ _ h1 => Act.ofS_formed h1 (SRes.bind_formed h1.vSrc fun _ _ h2 => h2.kWrite) fun _ _ h3 => h3

/-! ### Single lanes (R196) -/

theorem Inv.foundLoose {l : List (Nat × Nat)} {saw : List (Nat × Nat) × Nat} (h : Inv s) : Inv (s.foundLoose g c l saw) := .ite h h
theorem execVldsx_formed {e : EArgs} (h : Inv s) : NextFormed (execVldsx e s) := by
  unfold execVldsx
  refine vRun_formed h (fun _ _ _ _ _ h1 => ?_)
  refine Act.ofS_formed h1 h1.vSrc (fun _ _ h2 => ?_)
  dsimp only
  split
  · exact Act.failE_formed h1
  · split
    · exact Act.failE_formed h1
    · exact Inv.updCtx (h2.foundLoose.foldlSnd fun _ _ h3 => .noteEarlyE (.plainRead (.noteWords h3)))
theorem execVstsx_formed {e : EArgs} (h : Inv s) : NextFormed (execVstsx e s) := by
  unfold execVstsx
  refine vRun_formed h (fun _ _ _ _ _ h1 => ?_)
  refine Act.ofS_formed h1 (readAB_formed h1) (fun _ _ h2 => ?_)
  dsimp only
  split
  · exact Act.failE_formed h1
  · split
    · exact Act.failE_formed h1
    · exact h2.storeWords

/-! ### The repetition buffer -/

theorem Inv.repScan {fuel n q : Nat} {pc : Word} (h : Inv s) : (s.repScan g c fuel n q pc).Formed := by
  induction fuel generalizing n q pc with
  | zero => exact trivial
  | succ fuel ih =>
    cases n with
    | zero => exact trivial
    | succ n =>
      unfold State.repScan
      split
      · split
        · exact trivial
        · split
          · exact trivial
          · exact ih
      · next e => exact h.fetchSeq.page e
      · next e => exact h.fetchSeq.busy e
      · split
        · exact trivial
        · split
          · exact trivial
          · exact ih
theorem execRep_formed {n : BitVec 5} {count : BitVec 13} {stride : BitVec 5} (h : Inv s) :
    NextFormed (execRep n count stride s) := by
  unfold execRep
  refine runE_formed h (fun _ _ _ h1 => ?_)
  dsimp only
  split
  · exact h1
  · split
    · exact h1
    · next e => exact (h1.repScan.page e).hold
    · next e => exact (h1.repScan.busy e).bankWaitE
    · exact h1.updCtx

/-! ### Accumulators -/

theorem tileOf_formed {z : Nat} {k : Nat → Act} (h : Inv s) (k1 : ∀ n, (k n).Formed) : (tileOf s g z k).Formed := by
  unfold tileOf
  split
  · exact .ite (k1 _) (Act.raise_formed h)
  · exact Act.raise_formed h
theorem execZmov_formed {e : EArgs} (h : Inv s) : NextFormed (execZmov e s) :=
  vRun_formed h fun _ _ _ _ _ h1 => tileOf_formed h1 fun _ => .ite h1 (h1.q6Room h1.updGroup.updCtx.pushQ6)
theorem Inv.enter {cl : Nat} {e : Eng} {mesh : Bool} (h : Inv s) : Inv (s.enter cl e mesh j) := h.setJobs.updCluster
theorem execZset_formed {e : EArgs} (h : Inv s) : NextFormed (execZset e s) :=
  vRun_formed h fun _ _ _ _ _ h1 => tileOf_formed h1 fun _ => .ite h1.updCtx
    (.ite h1.enter (Act.ofS_formed h1 h1.vSrc fun _ _ h2 => h2.enter))

/-! ### Textures -/

theorem matchSpot_holds {p : Spot} {A : Nat → Nat → Bool → Option (Nat × Nat × Nat) → TexRes} {B : Nat → Nat → TexRes}
    (hA : ∀ key home t leaf, (A key home t leaf).Formed) (hB : ∀ a o, (B a o).Formed) :
    TexRes.Formed (match p with | .mem key home t leaf => A key home t leaf | .win a o => B a o) := by
  cases p with
  | mem key home t leaf => exact hA key home t leaf
  | win a o => exact hB a o
theorem Inv.texFetch {t : TexDesc} {want : Nat} {u v : FVal} {n l : Nat} (h : Inv s) : (s.texFetch g c t want u v n l).Formed := by
  delta State.texFetch
  refine brecOn_holds (motive := fun _ => State → Nat → TexRes)
    (P := fun _ f => ∀ {s : State} {l : Nat}, Inv s → (f s l).Formed) (fun n b ih s l h => ?_) n h
  refine matchNatNat_holds (Q := TexRes.Formed) ih (fun _ => h) ?_
  intro n b ih
  extract_lets p s0
  have h0 : Inv s0 := h.tried
  split
  · exact h0
  · split
    · exact h0
    · exact ih h0
  · split
    · exact h0
    · split
      · exact h0.bankWaitE
      · split
        · exact h0
        · refine matchSpot_holds ?_ ?_
          · intro _ _ _ _
            extract_lets s1
            have h1 : Inv s1 := h0.noteSpot.engLines.touchEa
            split
            next e => exact (h1.plainRead.of_sndSnd e).noteEarlyE
          · intro _ _
            exact h0
theorem Inv.unread {old : State} (h : Inv s) : Inv (s.unread old g c) := h
/-- The state after texels have been fetched for the lanes, or the state with what stopped it. -/
def LanesFormed : Except TexRes (State × List (Option (Nat × Nat))) → Prop
  | .ok r => Inv r.1
  | .error x => x.Formed
theorem LanesFormed.ok {r : Except TexRes (State × List (Option (Nat × Nat)))} {l : List (Option (Nat × Nat))} (h : LanesFormed r)
    (e : r = .ok (s, l)) : Inv s := by subst e; exact h
theorem LanesFormed.error {r : Except TexRes (State × List (Option (Nat × Nat)))} {x : TexRes} (h : LanesFormed r)
    (e : r = .error x) : x.Formed := by subst e; exact h
theorem LanesFormed.cons {r : Except TexRes (State × List (Option (Nat × Nat)))} {x : Option (Nat × Nat)} (h : LanesFormed r) :
    LanesFormed (r.map fun y => (y.1, x :: y.2)) := by
  cases r with
  | ok r => exact h
  | error x => exact h
theorem Inv.texLanes {gd : Guard} {t : TexDesc} {want : Nat} {l : List (Nat × Nat × Nat)} (h : Inv s) :
    LanesFormed (s.texLanes g c gd t want l) := by
  induction l generalizing s with
  | nil => exact h
  | cons x r ih =>
    unfold State.texLanes
    split
    · exact (ih h).cons
    · split
      · exact (ih h).cons
      · split
        · next e => exact (ih (h.texFetch.ok e)).cons
        · exact h.texFetch
theorem Inv.texRead {slot v : Nat} (h : Inv s) (e : s.texRead g c slot = .ok (t, v)) : Inv t := by
  unfold State.texRead at e
  extract_lets key words w die s1 at e
  split at e
  · cases e
  · cases e
    exact h.noteWords.plainRead
theorem execVtex_formed {e : EArgs} (h : Inv s) : NextFormed (execVtex e s) := by
  unfold execVtex
  refine vRun_formed h fun _ _ _ _ _ h1 => Act.ofS_formed h1 (readAB_formed h1) fun _ _ h2 => ?_
  dsimp only
  split
  · exact Act.raise_formed h1
  · next e =>
    have h3 := h2.texRead e
    split
    · next e => exact ((h3.texLanes.error e).trap rfl).unread
    · next e => exact ((h3.texLanes.error e).wait rfl).unread
    · next e => exact ((h3.texLanes.error e).ok rfl).unread
    · next e => exact (h3.texLanes.ok e).updCtx

/-! ### Coverage -/

theorem execVwind_formed {e : EArgs} (h : Inv s) : NextFormed (execVwind e s) :=
  vRun_formed h fun _ _ _ _ _ h1 => Act.ofS_formed h1 (readAB_formed h1) fun _ _ h2 => h2.updCtx

end Sys2Proof.Machine
end

section
/-! PROOF. The canonical form of memory is kept (O1): messages and engines. -/

namespace Sys2Proof.Machine

variable {s t : State} {g : Group} {c : Ctx} {j : Job} {i : Instr}

/-! ### Class X: messages and completions (R230-R236, R282, R283) -/

theorem Inv.ownTarget {cl : Nat} (h : Inv s) : Inv (s.ownTarget g cl j) := .ite h h
theorem Inv.deliver {cl : Nat} {e : Eng} {m : BitVec 512} {jid : Nat} {x : Sender} {merge : Option Job} (h : Inv s) :
    Inv (s.deliver g c cl e m jid x merge) := by
  unfold State.deliver
  split
  · exact h.setJobs
  · exact h.enter.ownTarget
theorem sendMessage_formed {d a b : BitVec 5} {q : QBlock} {tag r : Nat} (h : Inv s) : (sendMessage s g c d a b q tag r).Formed :=
  .ite h.updCtx (.ite (Inv.deliver h) (Inv.raiseLine h))
theorem execEmsg_formed {d a b : BitVec 5} (h : Inv s) : NextFormed (execEmsg d a b s) := by
  unfold execEmsg
  refine runA_formed h (fun _ _ _ h1 => ?_)
  split
  · exact h1
  · refine released_formed h1 (fun _ _ h2 => ?_)
    split
    · exact h2
    · exact sendMessage_formed h2
theorem Inv.observe {r : Nat} {x : JobRec} {d : BitVec 5} {w : Word} (h : Inv s) : Inv (s.observe g c r x d w) := h
theorem jobX_formed {d a : BitVec 5} {waits : Bool} (h : Inv s) : NextFormed (jobX i d a waits s) := by
  unfold jobX
  refine runA_formed h (fun _ _ _ h1 => ?_)
  dsimp only
  split
  · exact h1.updCtx
  · split
    · exact h1.observe
    · exact .ite h1 h1.updCtx

/-! ### Records and packing -/

theorem Inv.jobRecord {ptr : Nat} (h : Inv s) : (s.jobRecord j ptr).Formed := .ite h h.jobReadN
theorem Inv.jobRows {n stride k ptr : Nat} (h : Inv s) : (s.jobRows j n stride k ptr).Formed := by
  induction k generalizing s ptr with
  | zero => exact h
  | succ k ih => exact JRes.bind_formed h.jobReadW fun _ _ h1 => JRes.bind_formed (ih h1) fun _ _ h2 => h2

/-! ### Slots and ends -/

theorem Inv.mxeEnd {cl st : Nat} (h : Inv s) : Inv (s.mxeEnd cl j st) := h.endJob
theorem Inv.mxeRun {cl : Nat} {cmd : Cmd} {f : State → Job → State} (h : Inv s) (k1 : ∀ t j, Inv t → Inv (f t j)) :
    Inv (s.mxeRun cl cmd f) :=
  h.onHead fun _ _ h1 => .ite (k1 _ _ h1) (.ite h1.mxeEnd (.ite h1.mxeEnd (k1 _ _ h1)))

/-! ### Loads of the matrix engine -/

theorem Inv.loadMacros {cl : Nat} {f : State → Nat → JRes Macro} {rows n stride : Nat} {l : List Nat} {k : Nat} (h : Inv s)
    (k1 : ∀ t n, Inv t → (f t n).Formed) : (s.loadMacros cl f rows n stride j l k).1.Formed := by
  induction l generalizing s j k with
  | nil => exact h
  | cons x r ih =>
    unfold State.loadMacros
    dsimp only
    split
    · next e => exact ih ((k1 _ _ h).ok e).updCluster.countJob
    · next e => exact (k1 _ _ h).busy e
    · next e => exact (k1 _ _ h).hold e
    · next e => exact (k1 _ _ h).fail e
theorem Inv.doLoad {cl rows n stride : Nat} {f : State → Nat → JRes Macro} (h : Inv s) (k1 : ∀ t n, Inv t → (f t n).Formed) :
    Inv (s.doLoad cl j rows n stride f) := by
  unfold State.doLoad
  split
  · next e => exact ((h.loadMacros fun _ _ h1 => k1 _ _ h1).done (congrArg Prod.fst e)).mxeEnd
  · next e => exact ((h.loadMacros fun _ _ h2 => k1 _ _ h2).busy (congrArg Prod.fst e)).bankJob
  · next e => exact ((h.loadMacros fun _ _ h3 => k1 _ _ h3).hold (congrArg Prod.fst e)).holdJob
  · next e => exact ((h.loadMacros fun _ _ h4 => k1 _ _ h4).fail (congrArg Prod.fst e)).mxeEnd
theorem Inv.keptRecord {ptr : Nat} (h : Inv s) : (s.keptRecord j ptr).Formed := by
  unfold State.keptRecord
  split
  · exact h
  · exact h.jobRecord
theorem execMloadw_formed {cl : Nat} (h : Inv s) : NextFormed (execMloadw cl s) :=
  h.mxeRun fun _ _ h1 => .ite h1.mxeEnd (.headStep h1.keptRecord fun _ _ h2 =>
    .ite h2.mxeEnd (h2.doLoad fun _ _ h3 => JRes.bind_formed h3.jobRows fun _ _ h4 => h4))
theorem execMloadb_formed {cl : Nat} (h : Inv s) : NextFormed (execMloadb cl s) :=
  h.mxeRun fun _ _ h1 => .ite h1.mxeEnd (h1.doLoad fun _ _ h2 => JRes.bind_formed h2.jobReadW fun _ _ h3 => h3)

/-! ### Products -/

theorem Inv.setTile {cl t : Nat} {x : Tile} (h : Inv s) : Inv (s.setTile cl t x) := h.updCluster
theorem Inv.mmaRead {rec0 d K r : Nat} (h : Inv s) : (s.mmaRead j rec0 d K r).Formed :=
  JRes.bind_formed h.jobReadN fun _ _ h1 => .ite h1 (JRes.bind_formed h1.jobReadN fun _ _ h2 => h2)
theorem Inv.rowsRead {f : State → Nat → JRes (List Nat)} {n r : Nat} {l : List Nat} (h : Inv s)
    (k1 : ∀ t n, Inv t → (f t n).Formed) : (s.rowsRead f n r l).1.Formed := by
  induction n generalizing s r l with
  | zero => exact h
  | succ n ih =>
    unfold State.rowsRead
    split
    · next e => exact ih ((k1 _ _ h).ok e)
    · next e => exact (k1 _ _ h).busy e
    · next e => exact (k1 _ _ h).hold e
    · next e => exact (k1 _ _ h).fail e
theorem Inv.productRun {cl : Nat} {f : State → Nat → JRes (List Nat)} (h : Inv s) (k1 : ∀ t n, Inv t → (f t n).Formed) :
    Inv (s.productRun cl j f) := by
  unfold State.productRun
  split
  · next e => exact ((h.rowsRead fun _ _ h1 => k1 _ _ h1).done (congrArg Prod.fst e)).mxeEnd
  · next e => exact ((h.rowsRead fun _ _ h2 => k1 _ _ h2).busy (congrArg Prod.fst e)).bankJob
  · next e => exact ((h.rowsRead fun _ _ h3 => k1 _ _ h3).hold (congrArg Prod.fst e)).holdJob
  · next e => exact ((h.rowsRead fun _ _ h4 => k1 _ _ h4).fail (congrArg Prod.fst e)).mxeEnd
theorem execMma_formed {cl : Nat} (h : Inv s) : NextFormed (execMma cl s) :=
  h.mxeRun fun _ _ h1 => .ite h1.mxeEnd (.headStep h1.keptRecord fun _ _ h2 =>
    .ite h2.mxeEnd (h2.productRun fun _ _ h3 => JRes.bind_formed h3.mmaRead fun _ _ h4 => h4))
theorem execMmab_formed {cl : Nat} (h : Inv s) : NextFormed (execMmab cl s) :=
  h.mxeRun fun _ _ h1 => .ite h1.mxeEnd (.ite h1.mxeEnd (h1.productRun fun _ _ h2 => JRes.bind_formed h2.jobReadN fun _ _ h3 => h3))

/-! ### The epilogue -/

theorem Inv.epiRows {f : Fmt} {t : Tile} {w : ℤ} {stride n r : Nat} (h : Inv s) : (s.epiRows j f t w stride n r).Formed := by
  induction n generalizing s r with
  | zero => exact h
  | succ n ih =>
    unfold State.epiRows
    dsimp only
    split
    · next e => exact ih (h.jobWrite.ok e)
    · next e => exact h.jobWrite.busy e
    · next e => exact h.jobWrite.hold e
    · next e => exact h.jobWrite.fail e
theorem Inv.epiRun {cl r : Nat} (h : Inv s) : Inv (s.epiRun cl j r) := by
  unfold State.epiRun
  dsimp only
  split
  · next e => exact (h.epiRows.busy e).bankJob
  · next e => exact (h.epiRows.hold e).holdJob
  · next e => exact (h.epiRows.fail e).mxeEnd
  · next e => exact .ite (h.epiRows.done e).mxeEnd (.headStep (h.epiRows.done e).jobWrite fun _ _ h1 => h1.mxeEnd)
theorem execMepi_formed {cl : Nat} (h : Inv s) : NextFormed (execMepi cl s) :=
  h.mxeRun fun _ _ h1 => .ite h1.mxeEnd (.headStep h1.keptRecord fun _ _ h2 => .ite h2.mxeEnd h2.epiRun)

/-! ### zset and completions -/

theorem Inv.zsetHead {cl : Nat} (h : Inv s) : Inv (s.zsetHead cl j) := by
  unfold State.zsetHead
  dsimp only
  split
  · exact h
  · split
    · exact h.setHead
    · split
      · exact h
      · split
        · exact h.setJobs.setTile
        · exact h.setJobs.setTile
        · exact h
theorem Inv.putProduct {cl : Nat} {x : Tile × Nat × Nat} (h : Inv s) : Inv (s.putProduct cl j x) :=
  h.setTile.countJob.countJob.countJob
theorem Inv.mxeApply {cl : Nat} (h : Inv s) : Inv (s.mxeApply cl j) := by
  unfold State.mxeApply
  split
  · exact h
  · split
    · exact h.putProduct
    · exact h.putProduct
    · exact .ite h.setTile h
    · exact h
theorem Inv.jobCompletion {cl : Nat} {e : Eng} (h : Inv s) : Inv (s.jobCompletion cl e) := by
  unfold State.jobCompletion
  split
  · exact h
  · split
    · exact h.zsetHead
    · exact h.zsetHead
    · exact .ite h h.mxeApply.popHead

/-! ### A job of the PFE -/

theorem Inv.pfeEnd {cl st : Nat} (h : Inv s) : Inv (s.pfeEnd cl j st) := .endJob h
theorem pfeRes_formed {α : Type} {cl : Nat} {r : JRes α} {k : State → α → State} (h : r.Formed) (k1 : ∀ t a, Inv t → Inv (k t a)) :
    Inv (pfeRes cl j r k) := by
  unfold pfeRes
  split
  · exact k1 _ _ h
  · exact .bankJob h
  · exact .holdJob h
  · exact .pfeEnd h
theorem Inv.readNode {base i : Nat} (h : Inv s) : (s.readNode j base i).Formed := h.jobReadN
theorem Inv.malformed {cl dst i : Nat} (h : Inv s) : Inv (s.malformed cl j dst i) := by
  unfold State.malformed
  exact pfeRes_formed h.jobWrite fun _ _ h1 => h1.pfeEnd

/-! ### TRAVERSE -/

theorem Inv.pushBag {l bag : List (Nat × Nat)} (h : Inv s) : (s.pushBag j l bag).Formed := by
  induction l generalizing s bag with
  | nil => exact h
  | cons x r ih => exact JRes.bind_formed h.jobWrite fun _ _ h1 => ih h1
theorem Inv.lookNode {base count i : Nat} (h : Inv s) : (s.lookNode j base count i).Formed := by
  -- Unfolded while it is not applied: at its arguments the kernel would evaluate the probe that it matches.
  obtain ⟨f, e⟩ : ∃ f, f = @State.lookNode := ⟨_, rfl⟩
  rw [← e]
  delta State.lookNode at e
  subst e
  beta_reduce
  extract_lets ptr s1
  have h1 : Inv s1 := h.engWalked
  split
  · exact h1
  · exact h1
  · refine .ite h1 ?_
    split
    · exact h1
    · exact h1
    · exact h1
theorem Inv.travUnfenced {cl fuel : Nat} {l : List (Nat × Nat)} (h : Inv s) : (s.travUnfenced cl j fuel l).Formed := by
  induction fuel generalizing s l with
  | zero => exact h
  | succ fuel ih =>
    cases l with
    | nil => exact h
    | cons x r =>
      unfold State.travUnfenced
      refine JRes.bind_formed h.lookNode fun _ _ h1 => JRes.bind_formed h1.lookNode fun _ _ h2 => ?_
      split
      · exact h2
      · exact h2
      · dsimp only
        split
        · exact ih h2
        · exact ih h2
      · exact h2
theorem Inv.ownBag (h : Inv s) : Inv (s.ownBag j) := .ite h h
theorem Inv.travStart {s0 : State} {cl : Nat} (h : Inv s0) : Inv (s0.travStart cl j) :=
  .ite h.ownBag.pfeEnd (.ite h.ownBag.pfeEnd (pfeRes_formed (JRes.bind_formed h.ownBag.jobReadN fun _ _ h1 =>
    JRes.bind_formed h1.jobReadN fun _ _ h2 => JRes.bind_formed h2.jobReadN fun _ _ h3 => h3) fun _ _ h4 =>
      .ite h4.pfeEnd (pfeRes_formed h4.travUnfenced fun _ _ h5 => .ite h5.pfeEnd
        (pfeRes_formed h5.pushBag fun _ _ h6 => h6.setHead))))
theorem Inv.travDecide {cl : Nat} {x : Nat × Nat} {descent : Bool} {p : Pfe} (h : Inv s) : Inv (s.travDecide cl j x descent p) := by
  unfold State.travDecide
  refine pfeRes_formed (JRes.bind_formed h.readNode fun _ _ h1 => JRes.bind_formed h1.readNode fun _ _ h2 => h2) (fun _ _ h3 => ?_)
  dsimp only
  split
  · exact h3.malformed
  · split
    · exact h3.malformed
    · split
      · exact h3.countJob.setHead
      · exact .ite (pfeRes_formed h3.countJob.pushBag fun _ _ h4 => h4.setHead) (.setHead (.ite h3.countJob h3.countJob.countJob))
theorem Inv.traverse {cl : Nat} (h : Inv s) : Inv (s.traverse cl) := by
  unfold State.traverse
  refine .onHead h (fun _ _ h1 => ?_)
  split
  · exact h1.travStart
  · split
    · exact h1
    · split
      · exact h1.travDecide
      · exact .ite h1 (pfeRes_formed h1.jobWrite fun _ _ h2 => h2.pfeEnd)

/-! ### Sweeps -/

theorem Inv.ownCounters {n : Nat} (h : Inv s) : Inv (s.ownCounters j n) := h
theorem Inv.firstCount {up : Bool} {d : Desc} {x : Nat} (h : Inv s) : (s.firstCount j up d x).Formed :=
  .ite (JRes.bind_formed h.readNode fun _ _ h1 => h1) h
theorem Inv.initCounts {up : Bool} {d : Desc} {n x : Nat} (h : Inv s) : (s.initCounts j up d n x).Formed := by
  induction n generalizing s x with
  | zero => exact h
  | succ n ih =>
    unfold State.initCounts
    split
    · next e => exact ih ((JRes.bind_formed h.firstCount fun _ _ h1 => h1.jobWrite).ok e)
    · next e => exact (JRes.bind_formed h.firstCount fun _ _ h2 => h2.jobWrite).busy e
    · next e => exact (JRes.bind_formed h.firstCount fun _ _ h3 => h3.jobWrite).hold e
    · next e => exact (JRes.bind_formed h.firstCount fun _ _ h4 => h4.jobWrite).fail e
theorem Inv.sweepInit {cl : Nat} {up : Bool} {done : Nat} (h : Inv s) : Inv (s.sweepInit cl j up done) := by
  unfold State.sweepInit
  dsimp only
  split
  · next e => exact (h.ownCounters.initCounts.busy e).bankJob
  · next e => exact (h.ownCounters.initCounts.hold e).holdJob
  · next e => exact (h.ownCounters.initCounts.fail e).pfeEnd
  · next e => exact (h.ownCounters.initCounts.done e).setHead
theorem Inv.sweepStart {cl : Nat} {up : Bool} (h : Inv s) : Inv (s.sweepStart cl j up) :=
  .ite h.pfeEnd (.ite h.pfeEnd (pfeRes_formed (JRes.bind_formed h.jobReadN fun _ _ h1 => JRes.bind_formed h1.jobReadN fun _ _ h2 =>
    h2) fun _ _ h3 => .ite h3.pfeEnd h3.sweepInit))
theorem Inv.visit {cl : Nat} {up : Bool} {x : Nat} {p : Pfe} (h : Inv s) : Inv (s.visit cl j up x p) :=
  pfeRes_formed h.jobReadN fun _ _ h1 => .ite h1.setHead h1.setHead
theorem Inv.sweepWalk {cl : Nat} {up : Bool} {x k : Nat} {t : List (Nat × Nat)} (h : Inv s) : Inv (s.sweepWalk cl j up x k t) :=
  pfeRes_formed h.readNode fun _ _ h1 => .ite h1.malformed (.ite h1.visit (.ite h1.setHead (.ite h1.visit h1.setHead)))
theorem Inv.sweep {cl : Nat} {up : Bool} (h : Inv s) : Inv (s.sweep cl up) := by
  unfold State.sweep
  refine .onHead h (fun _ _ h1 => ?_)
  split
  · exact h1.sweepStart
  · split
    · exact h1.sweepInit
    · split
      · exact h1
      · split
        · exact h1.sweepWalk
        · exact .ite h1.pfeEnd h1
theorem Inv.dependents {x : Nat} (h : Inv s) : (s.dependents j x).Formed := JRes.bind_formed h.readNode fun _ _ h1 => h1
theorem Inv.decOne {acq : Option Acq} {y : Nat} (h : Inv s) : (s.decOne j acq y).Formed :=
  JRes.bind_formed h.jobReadN fun _ _ h1 => JRes.bind_formed h1.jobWrite fun _ _ h2 => h2
theorem Inv.decAll {cl : Nat} {acq : Option Acq} {jb : Job} {l : List Nat} (h : Inv s) : Inv (s.decAll cl acq jb l) := by
  induction l generalizing s jb with
  | nil => exact h.setHead
  | cons x r ih => exact pfeRes_formed h.decOne fun _ _ h1 => ih h1
theorem Inv.sweepDecrement {cl : Nat} (h : Inv s) : Inv (s.sweepDecrement cl) := by
  unfold State.sweepDecrement
  split
  · exact h
  · split
    · refine pfeRes_formed ?_ (fun _ _ h1 => h1.decAll)
      split
      · exact h
      · exact h.dependents
    · exact h

/-! ### Emission (R259) -/

theorem Inv.claimIndex {r : BitVec 256} (h : Inv s) : (s.claimIndex j r).Formed := by
  unfold State.claimIndex
  refine JRes.bind_formed h.jobSpots (fun _ _ h1 => ?_)
  split
  · exact h1.noteSpot.engChanged.store
  · exact h1
theorem Inv.claimSlot {r : BitVec 256} {n : Nat} (h : Inv s) : (s.claimSlot j r n).Formed := by
  unfold State.claimSlot
  refine JRes.bind_formed h.jobSpots (fun _ _ h1 => ?_)
  split
  · exact .ite h1.engLines.engTouched h1.noteSpot.engChanged.store
  · exact h1
theorem Inv.fillSlot {r : BitVec 256} {e : Emit} {n : Nat} (h : Inv s) : (s.fillSlot j r e n).Formed :=
  JRes.bind_formed h.jobWrite fun _ _ h1 => h1.publishSlot
theorem Inv.emitEntry {cl i : Nat} {e : Emit} {n : Nat} (h : Inv s) : Inv (s.emitEntry cl i j e n) :=
  pfeRes_formed h.fillSlot fun _ _ h1 => h1.setHead
theorem Inv.pfeEmit {cl i0 : Nat} (h : Inv s) : Inv (s.pfeEmit cl i0) := by
  unfold State.pfeEmit
  split
  · exact h
  · dsimp only
    split
    · split
      · exact pfeRes_formed h.claimIndex fun _ _ h1 => h1.setHead
      · split
        · exact h.emitEntry
        · refine pfeRes_formed h.claimSlot (fun _ _ h2 => ?_)
          split
          · exact h2.setHead
          · exact h2.emitEntry
    · exact h

end Sys2Proof.Machine
end

section
/-! PROOF. The canonical form of memory is kept (O1): class S, ends and hand-off. -/

namespace Sys2Proof.Machine

variable {s t : State} {g : Group} {c : Ctx} {j : Job} {i : Instr}

/-! ### CSRs -/

theorem csrGate_formed {n : Nat} {w : Bool} {k : Act} (h : Inv s) (h1 : k.Formed) : (csrGate s c n w k).Formed :=
  .ite (Act.raise_formed h) (.ite (Act.raise_formed h) (.ite (Act.raise_formed h) h1))
theorem csrWrite_formed {n : Nat} {v : Word} {d : Option (BitVec 5)} {old : Word} (h : Inv s) :
    (csrWrite s g c n v d old).Formed := by
  unfold csrWrite
  split
  · exact Act.raise_formed h
  · dsimp only
    split
    · refine releaseGate_formed h (fun _ h1 => ?_)
      split
      · exact h1.updCtx.cleanSlices.csrPut.updCtx
      · exact h1.updCtx.cleanSlices.csrPut
    · split
      · exact h.csrPut.updCtx
      · exact h.csrPut
theorem csrwX_formed {n : Nat} {a : BitVec 5} (h : Inv s) : NextFormed (csrwX i n a s) :=
  runS_formed h fun _ _ _ h1 => csrGate_formed h1 (csrWrite_formed h1)
theorem csrxX_formed {op : CsrxOp} {d : BitVec 5} {n : Nat} {a : BitVec 5} (h : Inv s) : NextFormed (csrxX i op d n a s) :=
  runS_formed h fun _ _ _ h1 => csrGate_formed h1 (csrWrite_formed h1)
theorem execCsrr_formed {d : BitVec 5} {csr : BitVec 12} (h : Inv s) : NextFormed (execCsrr d csr s) :=
  runS_formed h fun _ _ _ h1 => csrGate_formed h1 h1.updCtx
theorem csrRow_formed {n : Nat} {w : CsrWr} {a : BitVec 5} (h : Inv s) : NextFormed (csrRow i n w a s) := by
  unfold csrRow
  split
  · exact csrwX_formed h
  · exact csrxX_formed h

/-! ### Traps, returns, idle -/

theorem execTrap_formed (h : Inv s) : NextFormed (execTrap s) := runS_formed h fun _ _ _ h1 => h1
theorem execTrapN_formed {n : BitVec 23} (h : Inv s) : NextFormed (execTrapN n s) := runS_formed h fun _ _ _ h1 => h1
theorem execBrk_formed (h : Inv s) : NextFormed (execBrk s) := runS_formed h fun _ _ _ h1 => Act.raise_formed h1
theorem execEret_formed (h : Inv s) : NextFormed (execEret s) :=
  runS_formed h fun _ _ _ h1 => .ite (Act.raise_formed h1) (.ite (Act.raise_formed h1) h1.updCtx.updGroup)
theorem execIdle_formed {d : BitVec 5} (h : Inv s) : NextFormed (execIdle d s) :=
  runS_formed h fun _ _ _ h1 => supervisor_formed h1 (.ite h1 h1.updCtx)
theorem execWdead_formed {a : BitVec 5} (h : Inv s) : NextFormed (execWdead a s) := runS_formed h fun _ _ _ h1 => h1.updCtx

/-! ### xlinv -/

theorem Inv.retryHeld {vf : Nat} {p : Nat → Bool} (h : Inv s) : Inv (s.retryHeld vf p) := h
theorem Inv.dropXlat {vf : Nat} {p : Nat → Bool} (h : Inv s) : Inv (s.dropXlat vf p) := h
theorem Inv.xlinvPage {vf va : Nat} (h : Inv s) : Inv (s.xlinvPage vf va) := h.dropXlat.retryHeld
theorem Inv.xlinvEvery {vf : Nat} (h : Inv s) : Inv (s.xlinvEvery vf) := h.dropXlat.retryHeld
theorem xlinvX_formed {sup : Bool} {f : State → Group → Ctx → State} (k : ∀ t g c, Inv t → Inv (f t g c)) (h : Inv s) :
    NextFormed (xlinvX i sup f s) :=
  runS_formed h fun _ _ _ h1 => .ite (Act.raise_formed h1) (.ite (.ite h1 h1)
    (releaseGate_formed h1 fun _ h2 => .ite (Inv.updCtx (k _ _ _ h2.updCtx)) (Inv.updCtx (k _ _ _ h2.updCtx))))
theorem execXlinvPg_formed {a : BitVec 5} (h : Inv s) : NextFormed (execXlinvPg a s) :=
  xlinvX_formed (fun _ _ _ h1 => h1.xlinvPage) h
theorem execXlinvAll_formed (h : Inv s) : NextFormed (execXlinvAll s) := xlinvX_formed (fun _ _ _ h1 => h1.xlinvEvery) h
theorem execXlinvBnd_formed (h : Inv s) : NextFormed (execXlinvBnd s) := xlinvX_formed (fun _ _ _ h1 => h1.updCtx) h

/-! ### logrp -/

theorem Inv.replay {gid n : Nat} (h : Inv s) : Inv (s.replay gid n).1 := by
  induction n generalizing s with
  | zero => exact h
  | succ n ih =>
    unfold State.replay
    dsimp only
    split
    · exact h
    · split
      · exact h
      · split
        · exact h
        · split
          · exact h
          · exact h
          · next e => exact (h.replayEntry.failed e).updGroup
          · next e => exact ih (h.replayEntry.gone e).updGroup
theorem Inv.failEntry {gid : Nat} {f : ReplayEnd} (h : Inv s) : Inv (s.failEntry gid f) := by
  unfold State.failEntry
  split
  · exact h
  · exact h
  · split
    · exact h
    · split
      · exact h
      · exact .ite h.updCtx.takeTrap h.settle.takeTrap
theorem execLogrp_formed {d a : BitVec 5} (h : Inv s) : NextFormed (execLogrp d a s) := by
  unfold execLogrp
  refine runS_formed h (fun _ _ _ h1 => ?_)
  refine supervisor_formed h1 ?_
  dsimp only
  split
  · exact Act.raise_formed h1
  · split
    · exact Act.raise_formed h1
    · split
      · exact h1.replay.updCtx
      · exact h1.replay.updCtx.failEntry

/-! ### Jobs of a group -/

theorem Inv.dropJobs {inhm : Guard} (h : Inv s) : Inv (s.dropJobs g inhm) := h

/-! ### Tiles -/

theorem Inv.bindTiles {gid : Nat} (h : Inv s) : Inv (s.bindTiles gid) := by
  unfold State.bindTiles
  split
  · exact h
  · exact .ite h (h.updGroup.foldl fun _ _ h1 => h1.setTile)

/-! ### Ends -/

theorem Inv.lastArrival {id : BarId} {member phase agent tag : Nat} {ended : List Nat} (h : Inv s) :
    Inv (s.lastArrival id member phase agent tag ended) :=
  h.updBarrier
theorem execHend_formed (h : Inv s) : NextFormed (execHend s) :=
  runS_formed h fun _ _ _ h1 => .ite (Act.raise_formed h1) (.ite h1 (releaseGate_formed h1 fun _ h2 =>
    h2.tock.relAt.lastArrival.updGroup))
theorem Inv.clearKeys {a b : Nat} (h : Inv s) : Inv (s.clearKeys a b) := filter_wf _ h
theorem Inv.clearScratch {core lo hi : Nat} (h : Inv s) : Inv (s.clearScratch core lo hi) := h.clearKeys
theorem Inv.freeEntry {rel : Option (Nat × Nat)} (h : Inv s) : Inv (s.freeEntry g rel) := by
  unfold State.freeEntry
  split
  · split
    · exact h
    · dsimp only
      split
      · exact h.setTag.tock.relAt
      · exact h.setTag.tock
  · exact h
theorem Inv.taskRetired {rel : Option (Nat × Nat)} (h : Inv s) : Inv (s.taskRetired g rel) := by
  unfold State.taskRetired
  split
  · exact h
  · exact h
theorem Inv.lastArrivals {agent tag : Nat} (h : Inv s) : Inv (s.lastArrivals g agent tag) := by
  unfold State.lastArrivals
  refine .foldl h (fun _ _ h1 => ?_)
  split
  · exact h1.lastArrival
  · exact h1
theorem Inv.endGroup {gid : Nat} {rel : Option (Nat × Nat)} (h : Inv s) : Inv (s.endGroup gid rel) := by
  unfold State.endGroup
  split
  · exact h
  · exact .ite h.abandonKeys.lastArrivals.freeEntry.taskRetired.dropJobs.updLaunch.clearScratch
      h.abandonKeys.lastArrivals.freeEntry.taskRetired.dropJobs.updLaunch.clearKeys
theorem retireX_formed (h : Inv s) : (retireX s g c).Formed := .ite h (releaseGate_formed h fun _ h1 => h1.endGroup)
theorem execRetire_formed (h : Inv s) : NextFormed (execRetire s) :=
  runS_formed h fun _ _ _ h1 => controlOnly_formed h1 (.ite h1 (retireX_formed h1))

/-! ### Class S: helpers and the carve-out (R94, R95) -/

theorem execStart_formed {d b : BitVec 5} {off : BitVec 23} (h : Inv s) : NextFormed (execStart d b off s) := by
  unfold execStart
  refine runS_formed h fun _ _ _ h1 => controlOnly_formed h1 (.ite (Act.raise_formed h1)
    (.ite h1 (releaseGate_formed h1 fun _ h2 => ?_)))
  extract_lets n num tag v x a x1 s1 s2
  have hs : Inv s2 := Inv.updLaunch (Inv.updGroup h2.tock.updCtx)
  exact hs
theorem execHwait_formed {a : BitVec 5} (h : Inv s) : NextFormed (execHwait a s) :=
  runS_formed h fun _ _ _ h1 => controlOnly_formed h1 (.ite (Act.raise_formed h1) (.ite h1 h1.acquireVar.updCtx))
theorem execCarve_formed {d a : BitVec 5} (h : Inv s) : NextFormed (execCarve d a s) :=
  runS_formed h fun _ _ _ h1 => controlOnly_formed h1 (.ite h1 (.ite h1.updCtx
    (.ite h1.updCtx (.ite h1.updCtx h1.clearScratch.keepLines.updGroup.updCtx))))

/-! ### rets -/

theorem Inv.loadObject {p : Word} (h : Inv s) : (s.loadObject g c p).Formed := by
  unfold State.loadObject
  split
  · next e => exact h.load128.wait e
  · next e => exact h.load128.trap e
  · next e => exact h.load128.ok e
theorem Inv.loadLadder {n : Nat} {p : Word} (h : Inv s) : (s.loadLadder g c n p).Formed := by
  induction n generalizing s c p with
  | zero => exact h
  | succ n ih =>
    unfold State.loadLadder
    split
    · next e => exact h.loadObject.wait e
    · next e => exact h.loadObject.trap e
    · next e =>
        split
        · exact h.loadObject.ok e
        · split
          · next e' => exact (ih (h.loadObject.ok e)).wait e'
          · next e' => exact (ih (h.loadObject.ok e)).trap e'
          · next e' => exact (ih (h.loadObject.ok e)).ok e'
theorem Inv.scrubScratch (h : Inv s) : Inv (s.scrubScratch g) := h.foldl fun _ _ h1 => .ite h1 h1.clearScratch
theorem Inv.escrow {sc : Scope} {ptr : Nat} {k : BitVec 1024} {rung : Nat} (h : Inv s) : Inv (s.escrow g c sc ptr k rung) :=
  .bindTiles h.abandonKeys.dropJobs.scrubScratch.tock.updCore.keepLines
theorem handOver_formed {sc : Scope} {x : Nat × Nat × BitVec 1024} (h : Inv s) : (handOver s g c sc x).Formed :=
  .ite h (releaseGate_formed h fun _ h1 => h1.updLaunch.escrow)
theorem execRets_formed {sc : Scope} {a : BitVec 5} (h : Inv s) : NextFormed (execRets sc a s) := by
  unfold execRets
  refine runS_formed h (fun _ _ _ h1 => ?_)
  refine controlOnly_formed h1 ?_
  split
  · exact handOver_formed h1
  · split
    · exact h1
    · dsimp only
      split
      · split
        · exact retireX_formed h1
        · split
          · exact Act.raise_formed h1
          · refine Act.ofRes_formed h1.loadLadder (fun _ _ h2 => ?_)
            split
            · exact Act.raise_formed h2
            · exact handOver_formed h2.updCtx
      · split
        · exact Act.raise_formed h1
        · refine Act.ofRes_formed h1.loadLadder (fun _ _ h3 => ?_)
          split
          · exact Act.raise_formed h3
          · exact handOver_formed h3.updCtx

end Sys2Proof.Machine
end

section
/-! PROOF. The canonical form of memory is kept (O1): queue managers, residency, and group images. -/

namespace Sys2Proof.Machine

variable {s t : State} {g : Group} {c : Ctx} {j : Job} {i : Instr}

/-! ### Completion (R72) -/

theorem Inv.complete {vf : Nat} {r : LRec} {overs rung status agent : Nat} {agents : List Nat} (h : Inv s) :
    Inv (s.complete vf r overs rung status agent agents) := by
  unfold State.complete
  dsimp only
  split
  · exact .ite h h.vWr
  · split
    · exact .ite h h.vWr
    · exact .ite (.vUse (.ite h h.vWr)) (.putCount (.addRel (.replaced (.tock (.vUse (.vUse (.ite h h.vWr)))))))
theorem Inv.refuse {vf : Nat} {r : LRec} {status : Nat} (h : Inv s) : Inv (s.refuse vf r status) := h.complete
theorem Inv.dropRange {vf : Nat} {x : Nat × Nat × Nat} (h : Inv s) : Inv (s.dropRange vf x) := h.flushLines

/-! ### Admission -/

theorem Inv.startTree {vf die lid : Nat} {r : LRec} {acq covers : List Acq} (h : Inv s) :
    Inv (s.startTree vf die lid r acq covers) :=
  .updLaunch (.setJobs h)
theorem Inv.admitLaunch {vf home : Nat} {r : LRec} {src : Nat} {acq covers : List Acq} {a : Admission} (h : Inv s) :
    Inv (s.admitLaunch vf home r src acq covers a) :=
  .ite (.foldl h fun _ _ h1 => h1.dropRange) (.startTree (.foldl h fun _ _ h2 => h2.dropRange))

/-! ### Taking a slot (R70) -/

theorem Inv.launchQueueTake {die : Nat} (h : Inv s) : Inv (s.launchQueueTake die) := by
  unfold State.launchQueueTake
  split
  · exact h
  · split
    · exact h
    · dsimp only
      split
      · exact h
      · split
        · exact h.vUses.setTag.wr.refuse
        · exact .ite h h.vUses.setTag.wr.admitLaunch

/-! ### Starting a group -/

theorem Inv.startGroup {l : Launch} {n : NewGroup} (h : Inv s) : Inv (s.startGroup l n) :=
  .updLaunch (.bindTiles (.keepLines (.updCore (.clearScratch h))))

/-! ### Stages (R80) -/

theorem Inv.startStage {die : Nat} {l0 : Launch} {x : Ripe} (h : Inv s) : Inv (s.startStage die l0 x) := by
  unfold State.startStage
  dsimp only
  split
  · exact h
  · split
    · exact h
    · exact .ite h h.vUses.setTag.vWr.startGroup.updLaunch
theorem Inv.groupStart {die : Nat} (h : Inv s) : Inv (s.groupStart die) := by
  unfold State.groupStart
  split
  · exact h
  · exact h.startGroup.updLaunch
  · exact h.startStage

/-! ### Shares (R80) -/

theorem Inv.shareRecompute {die : Nat} (h : Inv s) : Inv (s.shareRecompute die) := h.foldl fun _ _ h1 => .ite h1.vUses.updLaunch h1
theorem execShareRecompute_formed {die : Nat} (h : Inv s) : NextFormed (execShareRecompute die s) := Inv.ite h.shareRecompute h

/-! ### Budgets (R78) -/

theorem Inv.budgetTrap {gid : Nat} (h : Inv s) : Inv (s.budgetTrap gid) := by
  unfold State.budgetTrap
  split
  · exact h
  · split
    · exact h
    · exact h.settle.updGroup.updLaunch.takeTrap
theorem Inv.budgetOverrun {core : Nat} (h : Inv s) : Inv (s.budgetOverrun core) := by
  unfold State.budgetOverrun
  split
  · exact .ite h.budgetTrap h
  · exact h

/-! ### Pre-emption and resumption -/

theorem Inv.preempt {gid : Nat} {st : GStatus} (h : Inv s) : Inv (s.preempt gid st) := by
  unfold State.preempt
  split
  · exact h
  · dsimp only
    split
    · exact .ite h.budgetTrap h
    · exact .ite (.stopGroup (.ite h.budgetTrap h)) (.finishStop (.ite h.budgetTrap h))
theorem Inv.preemption {core : Nat} (h : Inv s) : Inv (s.preemption core) := by
  unfold State.preemption
  split
  · exact .ite h.preempt h
  · exact h
theorem Inv.resumption {gid : Nat} (h : Inv s) : Inv (s.resumption gid) := by
  unfold State.resumption
  split
  · exact h
  · split
    · exact h.resumeGroup
    · exact h

/-! ### Reservations and completion -/

theorem Inv.reservationRelease {die : Nat} (h : Inv s) : Inv (s.reservationRelease die) := h
theorem Inv.launchCompletion {lid : Nat} (h : Inv s) : Inv (s.launchCompletion lid) := by
  unfold State.launchCompletion
  split
  · exact h
  · exact .ite h (.complete (.tellEnds (.dropEntries (h.vUses.foldl fun _ _ h1 => h1.dropRange))))

/-! ### cload -/

theorem execCload_formed {d a b : BitVec 5} (h : Inv s) : NextFormed (execCload d a b s) := by
  unfold execCload
  refine runS_formed h (fun _ _ _ h1 => ?_)
  refine supervisor_formed h1 ?_
  dsimp only
  split
  · exact Act.raise_formed h1
  · split
    · exact .ite h1.updCtx h1.updCtx
    · exact .ite h1.updCtx h1.updCluster.updCtx

/-! ### resid -/

theorem Inv.setLeaf {vf va : Nat} {m : Mapping} {e : Nat} (h : Inv s) : Inv (s.setLeaf vf va m e) := h.wr.xlinvPage
theorem Inv.dropTensor {vf e : Nat} (h : Inv s) : Inv (s.dropTensor vf e) := h.flushLines
theorem Inv.relocate {src dst n : Nat} (h : Inv s) : Inv (s.relocate src dst n) := moveCells_wf src dst n h
theorem Inv.movePage {vf space die : Nat} {fresh : Bool} {x : Nat × Mapping} (h : Inv s) :
    Inv (State.movePage vf space die fresh s x) :=
  .ite h (.setLeaf (.ite h.flushLines.relocate h.clearKeys))
theorem Inv.evictPage {vf e : Nat} {x : Nat × Mapping} (h : Inv s) : Inv (State.evictPage vf e s x) :=
  .ite h (.ite h.clearKeys h.clearKeys.setLeaf)
theorem Inv.name {vf handle e : Nat} (h : Inv s) : Inv (s.name vf handle e) := h
theorem Inv.setHandle {vf handle st : Nat} {pin : Option Bool} (h : Inv s) : Inv (s.setHandle vf handle st pin) := h.wr
theorem Inv.beginMove {m : Move} {e : Nat} (h : Inv s) : Inv (s.beginMove m e) := h.dropTensor.setHandle
theorem Inv.endMove {m : Move} (h : Inv s) : Inv (s.endMove m) := by
  unfold State.endMove
  split
  · exact h
  · exact .setHandle (h.foldl fun _ _ h1 => h1.movePage)
theorem Inv.endMoves {p : Move → Bool} (h : Inv s) : Inv (s.endMoves p) := h.foldl fun _ _ h1 => h1.endMove
theorem Inv.pinTensor {who : Nat × Nat × Nat} {vf handle e : Nat} (h : Inv s) : (s.pinTensor who vf handle e).Formed := by
  unfold State.pinTensor
  dsimp only
  split
  · exact h.dropTensor.setHandle
  · split
    · exact h
    · exact Inv.beginMove (.foldl h fun _ _ h1 => h1.beginMove)
theorem Inv.demoteTensor {who : Nat × Nat × Nat} {vf handle e : Nat} (h : Inv s) : (s.demoteTensor who vf handle e).Formed := by
  unfold State.demoteTensor
  split
  · exact h.dropTensor.setHandle
  · exact h.beginMove
theorem Inv.evictTensor {who : Nat × Nat × Nat} {vf handle e : Nat} (h : Inv s) : (s.evictTensor who vf handle e).Formed :=
  Inv.setHandle (h.dropTensor.foldl fun _ _ h1 => h1.evictPage)
theorem Inv.unpinTensor {who : Nat × Nat × Nat} {vf handle e : Nat} (h : Inv s) : (s.unpinTensor who vf handle e).Formed :=
  h.dropTensor.setHandle
theorem residX_formed {d a : BitVec 5} {waits : Bool} {f : State → Nat × Nat × Nat → Nat → Nat → Nat → ResidAct}
    (k : ∀ t x n n1 n2, Inv t → (f t x n n1 n2).Formed) (h : Inv s) : NextFormed (residX i d a waits f s) := by
  unfold residX
  refine runS_formed h (fun _ _ _ h1 => ?_)
  dsimp only
  split
  · exact h1.endMoves.updCtx
  · split
    · exact h1
    · split
      · exact h1.updCtx
      · split
        · exact h1.name.updCtx
        · split
          · exact h1.name
          · split
            · next e => exact ((k _ _ _ _ _ h1.name).ends e).updCtx
            · next e => exact (k _ _ _ _ _ h1.name).begins e
theorem execResidPin_formed {d a : BitVec 5} (h : Inv s) : NextFormed (execResidPin d a s) :=
  residX_formed (fun _ _ _ _ _ h1 => h1.pinTensor) h
theorem execResidUnpin_formed {d a : BitVec 5} (h : Inv s) : NextFormed (execResidUnpin d a s) :=
  residX_formed (fun _ _ _ _ _ h1 => h1.unpinTensor) h
theorem execResidDemote_formed {d a : BitVec 5} (h : Inv s) : NextFormed (execResidDemote d a s) :=
  residX_formed (fun _ _ _ _ _ h1 => h1.demoteTensor) h
theorem execResidEvict_formed {d a : BitVec 5} (h : Inv s) : NextFormed (execResidEvict d a s) :=
  residX_formed (fun _ _ _ _ _ h1 => h1.evictTensor) h

/-! ### Group images -/

theorem Inv.parkedBy {d : BitVec 5} {other : Group} (h : Inv s) : (s.parkedBy g c d other).Formed := h.markDelayed.updCtx
theorem execCtxsv_formed {d a : BitVec 5} (h : Inv s) : NextFormed (execCtxsv d a s) := by
  unfold execCtxsv
  refine runS_formed h (fun _ _ _ h1 => ?_)
  refine supervisor_formed h1 ?_
  dsimp only
  split
  · exact h1.parkedBy
  · exact h1.updCtx
  · split
    · exact h1.updCtx
    · split
      · exact h1.preempt.updCtx
      · split
        · exact h1.preempt.parkedBy
        · exact h1.preempt.updCtx
        · exact h1.preempt.updCtx
theorem Inv.clearFlags {area : Word} (h : Inv s) : Inv (s.clearFlags area) := h.wr
theorem execCtxld_formed {kill : Bool} {d a b : BitVec 5} (h : Inv s) : NextFormed (execCtxld kill d a b s) := by
  unfold execCtxld
  refine runS_formed h (fun _ _ _ h1 => ?_)
  refine supervisor_formed h1 ?_
  dsimp only
  split
  · exact h1.updCtx
  · exact .ite h1 (.ite h1.endMoves.endGroup.updCtx (.ite h1.updCtx h1.resumeGroup.clearFlags.updCtx))

end Sys2Proof.Machine
end

section
/-! PROOF. The canonical form of memory is kept (O1): events. -/

namespace Sys2Proof.Machine

variable {s t : State} {g : Group} {c : Ctx} {j : Job} {i : Instr}

/-! ### Stream deadlock (R124) -/

theorem execStreamDeadlock_formed {core n : Nat} (h : Inv s) : NextFormed (execStreamDeadlock core n s) := by
  unfold execStreamDeadlock
  split
  · exact h.settle.takeTrap
  · exact h

/-! ### Doorbells (R69) -/

theorem execDoorbell_formed {vf q slot : Nat} (h : Inv s) : NextFormed (execDoorbell vf q slot s) := by
  unfold execDoorbell
  show Inv _
  split
  · exact h
  · split
    · exact h
    · exact .ite h (.ite h h.setTag.tock.notePublish)

/-! ### World switch (R333) -/

theorem Inv.swapCore {out inn : Nat} {x : State × List (Nat × Nat × Core)} {core : Nat} (h : Inv x.1) :
    Inv (State.swapCore out inn x core).1 :=
  .updCore h
theorem Inv.worldSwitch {t : TimeShare} (h : Inv s) : Inv (s.worldSwitch t) := by
  unfold State.worldSwitch
  dsimp only
  split
  · exact h.foldl fun _ _ h1 => h1.preempt
  · refine .foldl (.foldlFst (h.foldl fun _ _ h2 => h2.preempt) fun _ _ h3 => .swapCore h3) (fun _ _ h4 => ?_)
    split
    · exact .ite h4.resumeGroup h4
    · exact h4
theorem execWorldSwitchSliceEnd_formed {core : Nat} (h : Inv s) : NextFormed (execWorldSwitchSliceEnd core s) := by
  unfold execWorldSwitchSliceEnd
  split
  · exact Inv.ite h.worldSwitch h
  · exact h

/-! ### Barrier phases (R290, R291, R303) -/

theorem Inv.dropPhase {b : Barrier} (h : Inv s) : Inv (s.dropPhase b) := by
  unfold State.dropPhase
  split
  · exact h.dropEntries.tellEnds
  · exact h.dropEntries.tellEnds
  · exact h.dropEntries
  · exact h.dropEntries
  · exact h
theorem Inv.announce {p : Pod} {b : Barrier} (h : Inv s) : Inv (s.announce p b) := h.foldl fun _ _ h1 => h1.sendFabric
theorem Inv.phaseComplete {b : Barrier} (h : Inv s) : Inv (s.phaseComplete b) := by
  unfold State.phaseComplete
  split
  · exact h
  · split
    · exact h.announce
    · exact .ite h h.dropPhase.updBarrier
theorem execBarrierPhaseComplete_formed {i : Nat} (h : Inv s) : NextFormed (execBarrierPhaseComplete i s) := by
  unfold execBarrierPhaseComplete
  show Inv _
  split
  · exact h.phaseComplete
  · exact h

/-! ### Time, counters, notifications -/

theorem execRefreshWindowEnd_formed {_die bank : Nat} (h : Inv s) : NextFormed (execRefreshWindowEnd _die bank s) :=
  .ite h.advance h
theorem execPmcOverflow_formed {core n : Nat} (h : Inv s) : NextFormed (execPmcOverflow core n s) := by
  unfold execPmcOverflow
  dsimp only
  split
  · split
    · exact Inv.ite h.updCore.inform h.updCore
    · exact h.updCore
  · exact h
theorem Inv.drainPage {vf : Nat} {x : Nat × Page} (h : Inv s) : Inv (State.drainPage vf s x) := .ite (.nqPut h) h
theorem execNotifyOverflowDrain_formed {vf : Nat} (h : Inv s) : NextFormed (execNotifyOverflowDrain vf s) :=
  .ite (Inv.ite (h.foldl fun _ _ h1 => h1.drainPage) (.nqPending (h.foldl fun _ _ h2 => h2.drainPage))) h

/-! ### The fabric (R310, R311) -/

theorem Inv.fabAdopts {w : FabWrite} (h : Inv s) : Inv (s.fabAdopts w) := h
theorem Inv.acknowledged {w : FabWrite} (h : Inv s) : Inv (s.acknowledged w) := h
theorem Inv.fabDone {w : FabWrite} {status : List Byte} (h : Inv s) : Inv (s.fabDone w status) := h
theorem Inv.fabWaits {w : FabWrite} (h : Inv s) : Inv (s.fabWaits w) := h
theorem Inv.fabHeld {w : FabWrite} {va : Nat} {malf : Bool} (h : Inv s) : Inv (s.fabHeld w va malf) := .ite h.fabWaits h.report
theorem Inv.barredAhead {w : FabWrite} {n r : Nat} (h : Inv s) : Inv (s.barredAhead j w n r).1 := by
  induction n generalizing s r with
  | zero => exact h
  | succ n ih =>
    unfold State.barredAhead
    dsimp only
    split
    · exact JRes.state_formed h.jobSpots
    · exact JRes.state_formed h.jobSpots
    · exact ih (JRes.state_formed h.jobSpots)
theorem Inv.commitRow {w : FabWrite} (h : Inv s) : Inv (s.commitRow w) := by
  unfold State.commitRow
  extract_lets j
  have hb : Inv (if w.data.isEmpty then (s, none) else s.barredAhead j w (w.more.1 + 1) 0).1 := .iteFst h h.barredAhead
  split
  · next e => exact (hb.of_fst e).fabDone
  · next s1 e =>
    have h1 := hb.of_fst e
    have hw : (if w.data.isEmpty then s1.publishSlot j pathFab w.ptr.toNat
        else s1.jobWrite j pathFab w.ptr.toNat w.data).Formed := .ite h1.publishSlot h1.jobWrite
    split
    · next e => exact (hw.ok e).fabDone
    · next e => exact (hw.busy e).fabWaits
    · next e => exact (hw.hold e).fabHeld
    · next e => exact (hw.fail e).fabDone
theorem Inv.fabEnds {w : FabWrite} (h : Inv s) : Inv (s.fabEnds w) := .ite h h
theorem Inv.commitFabric {s0 : State} {w : FabWrite} (h : Inv s0) : Inv (s0.commitFabric w) := by
  unfold State.commitFabric
  dsimp only
  split
  · exact .ite h.fabAdopts.fabWaits h.fabAdopts.flagStore.fabDone
  · exact h.fabAdopts.commitRow
  · exact h.fabAdopts.fabEnds.fabDone
  · exact .fabDone h.fabAdopts.updBarrier
theorem execFabricWriteArrival_formed {w : FabWrite} (h : Inv s) : NextFormed (execFabricWriteArrival w s) :=
  Inv.ite (.ite h.acknowledged h) (.ite h (.ite h (.ite h.usesFabric.fabWaits h.usesFabric.commitFabric)))
theorem execTrelFire_formed {i : Nat} (h : Inv s) : NextFormed (execTrelFire i s) := by
  unfold execTrelFire
  show Inv _
  split
  · exact .ite (.trelAll h) h
  · split
    · exact .ite (.commitFabric h) h
    · split
      · exact .ite (.commitFabric h) h
      · exact h
theorem execLinkFailure_formed {link : Nat} (h : Inv s) : NextFormed (execLinkFailure link s) := by
  unfold execLinkFailure
  split
  · exact .ite h h
  · exact h

/-! ### The clock's reference (R352) -/

theorem Inv.stepPhc {ns : ℤ} (h : Inv s) : Inv (s.stepPhc ns) := h
theorem execPtpEventMessage_formed {port stamp : Nat} (h : Inv s) : NextFormed (execPtpEventMessage port stamp s) :=
  .ite h (Inv.ite (.stepPhc h) h)
theorem execHoldover_formed (h : Inv s) : NextFormed (execHoldover s) := Inv.ite h h

/-! ### The host (R210, R346) -/

theorem execHostRead_formed {pa n : Nat} (h : Inv s) : NextFormed (execHostRead pa n s) := Inv.ite h (.ite h h)
theorem Inv.hostPut {key : Nat} {data : List Byte} (h : Inv s) : Inv (s.hostPut key data) :=
  h.tock.codeWrite.store.dropLines.settledWords
theorem Inv.barWrite {off v : Nat} (h : Inv s) : Inv (s.barWrite off v) := by
  unfold State.barWrite
  split
  · exact .ite h h
  · exact h
  · exact h
  · exact h
theorem execHostWrite_formed {pa : Nat} {data : List Byte} (h : Inv s) : NextFormed (execHostWrite pa data s) := by
  unfold execHostWrite
  show Inv _
  split
  · exact h.barWrite
  · split
    · exact .ite h.hostPut h
    · split
      · exact h
      · split
        · exact h.hostPut
        · split
          · split
            · exact h
            · exact h.hostPut
          · exact h

/-! ### Uncorrectable soft errors (R318, R343) -/

theorem execUncorrectableSoftError_formed {w : SoftErr} (h : Inv s) : NextFormed (execUncorrectableSoftError w s) := by
  unfold execUncorrectableSoftError
  show Inv _
  split
  · split
    · split
      · exact h.settle.takeTrap
      · exact h
    · exact h
  · split
    · exact h.report
    · exact h
  · split
    · split
      · exact h
      · exact h.pfeEnd
      · exact h.endJob
    · exact h
  · split
    · exact .ite h.haltGroup h
    · exact h

end Sys2Proof.Machine
end

section
/-! PROOF. The canonical form of memory is kept (O1): the mailbox, power, and ordered sections. -/

namespace Sys2Proof.Machine

variable {s t : State} {g : Group} {c : Ctx} {j : Job} {i : Instr}

/-! ### A command (R347) -/

/-- What a mailbox command answers: its state, if it has one, is in canonical form. -/
def MboxFormed : Except Nat (State × List Byte) → Prop
  | .ok r => Inv r.1
  | .error _ => True
theorem MboxFormed.ok {r : Except Nat (State × List Byte)} {b : List Byte} (h : MboxFormed r) (e : r = .ok (s, b)) :
    Inv s := by subst e; exact h
theorem MboxFormed.ite {p : Prop} [Decidable p] {a b : Except Nat (State × List Byte)} (h : MboxFormed a) (k : MboxFormed b) :
    MboxFormed (if p then a else b) := by
  split
  · exact h
  · exact k
theorem Inv.mbox {code : Nat} {m : MbCmd} {f : State → Except Nat (State × List Byte)} (h : Inv s)
    (hf : ∀ t, Inv t → MboxFormed (f t)) : Inv (s.mbox code m f) := by
  unfold State.mbox
  extract_lets s1 fail
  have h1 : Inv s1 := h
  have hfail : ∀ st, Inv (fail st) := fun _ => h1
  refine .ite h (.ite (hfail 3) (.ite (hfail 2) ?_))
  split
  · exact hfail _
  · next e =>
    extract_lets s3
    have h3 : Inv s3 := .ite ((hf s1 h1).ok e) ((hf s1 h1).ok e).hostPut
    exact h3.of_mem rfl

/-! ### Virtual functions -/

theorem execVfcfg_formed {m : MbCmd} (h : Inv s) : NextFormed (execVfcfg m s) :=
  h.mbox fun _ h1 => .ite trivial (.ite trivial h1.updVf)
theorem Inv.emptyQueue {vf q : Nat} (h : Inv s) : Inv (State.emptyQueue vf s q) := by
  unfold State.emptyQueue
  split
  · exact h
  · exact .wr (h.foldl fun _ _ h1 => h1.setTag)
theorem Inv.emptyStages {l : Launch} (h : Inv s) : Inv (s.emptyStages l) :=
  h.foldl fun _ _ h1 => .vWr (h1.foldl fun _ _ h2 => h2.setTag)
theorem Inv.endStuck {vf : Nat} (h : Inv s) : Inv (s.endStuck vf) := h
theorem Inv.vfReset {vf : Nat} (h : Inv s) : Inv (s.vfReset vf) :=
  .foldl (.foldl (Inv.endStuck (vf := vf) (h.endMoves.foldl fun _ _ h1 => h1.endGroup)) fun _ _ h2 => h2.emptyQueue)
    fun _ _ h3 => h3.emptyStages
theorem Inv.vfResetEnd {vf : Nat} (h : Inv s) : Inv (s.vfResetEnd vf) := .ite h h
theorem execVfreset_formed {m : MbCmd} (h : Inv s) : NextFormed (execVfreset m s) := by
  have hm : Inv (s.mbox 2 m fun s => .ok (s.vfReset m.vf, [])) := h.mbox fun _ h1 => h1.vfReset
  exact Inv.ite h.vfResetEnd (.ite hm hm.vfResetEnd)
theorem execCapiss_formed {m : MbCmd} (h : Inv s) : NextFormed (execCapiss m s) := h.mbox fun _ h1 => h1

/-! ### Trust (R355, R356) -/

theorem Inv.measure {image : List Byte} (h : Inv s) : Inv (s.measure image) := h
theorem execCsload_formed {m : MbCmd} {etype num : Nat} {image sig : List Byte} (h : Inv s) :
    NextFormed (execCsload m etype num image sig s) :=
  h.mbox fun _ h1 => .ite trivial (.ite trivial h1)
theorem execAttest_formed {m : MbCmd} (h : Inv s) : NextFormed (execAttest m s) := h.mbox fun _ h1 => h1

/-! ### RESYNC (R349) -/

theorem execResync_formed {m : MbCmd} (h : Inv s) : NextFormed (execResync m s) := h.mbox fun _ h1 => h1

/-! ### Pods, the clock, time shares -/

theorem execPodbar_formed {m : MbCmd} {pod count : Nat} {ptr : Word} (h : Inv s) : NextFormed (execPodbar m pod count ptr s) := by
  refine h.mbox fun _ h1 => .ite trivial ?_
  split
  · exact h1
  · exact .ite trivial (.ite trivial h1)
theorem phcset_formed {m : MbCmd} {op : Nat} {used : Nat → Bool} {f : Nat → State → Except Nat State} (h : Inv s)
    (hf : ∀ v t u, Inv t → f v t = .ok u → Inv u) : Inv (phcset m op used f s) := by
  refine h.mbox fun t h1 => .ite trivial ?_
  cases e : f (t.mbArg m 32) t with
  | ok u => exact hf _ _ _ h1 e
  | error _ => exact trivial
theorem execPhcsetProfile_formed {m : MbCmd} (h : Inv s) : NextFormed (execPhcsetProfile m s) := by
  refine phcset_formed h fun _ _ _ h1 e => ?_
  cases e
  exact h1
theorem execPhcsetStep_formed {m : MbCmd} (h : Inv s) : NextFormed (execPhcsetStep m s) := by
  refine phcset_formed h fun _ _ _ h1 e => ?_
  split at e
  · cases e
  · cases e
    exact h1.stepPhc
theorem execPhcsetSlew_formed {m : MbCmd} (h : Inv s) : NextFormed (execPhcsetSlew m s) := by
  refine phcset_formed h fun _ _ _ h1 e => ?_
  cases e
  exact h1
theorem execTshare_formed {m : MbCmd} {cores vfs : List Nat} {slice : Nat} (h : Inv s) :
    NextFormed (execTshare m cores vfs slice s) :=
  h.mbox fun _ h1 => .ite trivial (.ite trivial h1)

/-! ### Links and power -/

theorem execLinkctl_formed {m : MbCmd} {dev links : Nat} (h : Inv s) : NextFormed (execLinkctl m dev links s) := by
  unfold execLinkctl
  exact h.mbox fun _ h1 => .ite trivial h1
theorem execPwrlim_formed {m : MbCmd} (h : Inv s) : NextFormed (execPwrlim m s) := by
  unfold execPwrlim
  refine h.mbox fun _ h1 => ?_
  extract_lets v
  clear_value v
  exact .ite trivial h1
theorem execPowerGood_formed (h : Inv s) : NextFormed (execPowerGood s) := .ite h (.ite h (Inv.foldl h fun _ _ h1 => h1.measure))
theorem execThermalTrip_formed (h : Inv s) : NextFormed (execThermalTrip s) := filter_wf _ h

/-! ### Class X: counters, slots, launch (R82, R83) -/

theorem spotX_formed {s0 : State} {ea : Word} {n : Nat} {right : Right} {kind : Kind} {w : Who} {k : State → Spot → Nat → Act}
    (h : Inv s0) (k1 : ∀ t p n, Inv t → (k t p n).Formed) : (spotX s0 g c ea n right kind w k).Formed := by
  unfold spotX
  dsimp only
  split
  · exact Act.fail_formed h.tried
  · exact h.tried.hold
  · split
    · exact h.tried
    · split
      · exact h.tried
      · split
        · exact Act.fail_formed h.tried
        · split
          · exact k1 _ _ _ h.tried
          · exact Act.fail_formed h.tried
theorem Inv.noteX {ea : Word} {w : Who} {kind : Kind} {p : Spot} {n : Nat} {b : List Byte} {use : Use} (h : Inv s) :
    Inv (s.noteX g c ea w kind p n b use) := by
  unfold State.noteX
  refine .touchEa ?_
  refine .homeTurn ?_
  split
  · exact .ite h.noteSpot.updCtx h.noteSpot
  · exact h.noteSpot
theorem countX_formed {a : BitVec 5} {right : Right} {new : Ctx → Nat → Option Nat} {fin : Nat → Ctx → Ctx} (h : Inv s) :
    NextFormed (countX i s a right new fin) := by
  unfold countX
  refine runA_formed h (fun _ _ _ h1 => ?_)
  refine releaseGate_formed h1 (fun _ h2 => ?_)
  refine spotX_formed h2 (fun _ _ _ h3 => ?_)
  dsimp only
  split
  · exact Act.raise_formed h3
  · exact h3.updCtx.noteX.relAt.putCount.updCtx
theorem execTsbret_formed (h : Inv s) : NextFormed (execTsbret s) := by
  unfold execTsbret
  refine runA_formed h (fun _ _ _ h1 => ?_)
  split
  · exact h1
  · exact .ite h1 (releaseGate_formed h1 fun _ h2 => h2.updCtx.updGroup.updLaunch)
theorem execSlotadv_formed {t : SlotOp} {d a : BitVec 5} (h : Inv s) : NextFormed (execSlotadv t d a s) :=
  runA_formed h fun _ _ _ h1 => .ite (releaseGate_formed h1 fun _ h2 => spotX_formed h2 fun _ _ _ h3 =>
    .ite (Act.raise_formed h3) (.ite (Inv.ite h3.noteX.store.updCtx.updCtx.relAt.notePublish h3.noteX.store.updCtx.updCtx.relAt)
      h3.noteX.store.updCtx.acquireVar)) (spotX_formed h1 fun _ _ _ h4 =>
        .ite (Act.raise_formed h4) (.ite (Inv.ite h4.noteX.store.updCtx.updCtx.relAt.notePublish h4.noteX.store.updCtx.updCtx.relAt)
          h4.noteX.store.updCtx.acquireVar))
theorem publishRecord_formed {q : QHead} {nw : Bool} {d a : BitVec 5} {tag : Nat} (h : Inv s) :
    (publishRecord s g c q nw d a tag).Formed := by
  unfold publishRecord
  extract_lets ea n
  split
  · exact h.hold
  · refine .ite h (.ite (.ite h.updCtx h) (Act.ofRes_formed h.load128 fun _ _ h1 => ?_))
    dsimp only
    split
    · exact h1
    · next e => exact (h1.qPublish e).updCtx.relAt
theorem execLaunch_formed {nw : Bool} {d a b : BitVec 5} (h : Inv s) : NextFormed (execLaunch nw d a b s) := by
  unfold execLaunch
  refine runA_formed h (fun _ _ _ h1 => ?_)
  split
  · exact Act.raise_formed h1
  · exact .ite (Act.raise_formed h1) (released_formed h1 fun _ _ h2 => publishRecord_formed h2)

/-! ### Ordered sections -/

theorem withKey_formed {s0 : State} {ptr : Word} {k : State → Nat → Act} (h : Inv s0) (k1 : ∀ t n, Inv t → (k t n).Formed) :
    (withKey s0 g c ptr k).Formed := by
  unfold withKey
  dsimp only
  split
  · exact Act.fail_formed h.tried
  · split
    · split
      · exact k1 _ _ h.tried
      · exact Act.fail_formed h.tried
      · exact Act.fail_formed h.tried
    · split
      · exact Act.fail_formed h.tried
      · split
        · exact Act.fail_formed h.tried
        · split
          · exact h.tried.hold
          · exact .ite (Act.fail_formed h.tried) (.ite (Act.fail_formed h.tried) (k1 _ _ h.tried))
theorem Inv.reserve {gid k : Nat} {ptr : Word} (h : Inv s) : Inv (s.reserve gid k ptr) := h.updGroup
theorem execOrdentRsv_formed {a : BitVec 5} (h : Inv s) : NextFormed (execOrdentRsv a s) :=
  runA_formed h fun _ _ _ h1 => withKey_formed h1 fun _ _ h2 => .ite (Act.raise_formed h2) (Inv.ite h2 h2.reserve)
theorem Inv.takeKey {d : BitVec 5} {k : Nat} {ptr : Word} (h : Inv s) : Inv (s.takeKey g c d k ptr) :=
  h.updKey.updGroup.acquireVar.updCtx
theorem Inv.enterKey {d : BitVec 5} {k : Nat} {ptr : Word} (h : Inv s) : (s.enterKey g c d k ptr).Formed :=
  .ite (Inv.takeKey (.grantKey (.ite h.updGroup h.updGroup.updKey))) (Inv.updCtx (.grantKey (.ite h.updGroup h.updGroup.updKey)))
theorem execOrdent_formed {d a : BitVec 5} (h : Inv s) : NextFormed (execOrdent d a s) := by
  unfold execOrdent
  refine runA_formed h (fun _ _ _ h1 => ?_)
  split
  · exact h1.enterKey
  · exact withKey_formed h1 fun _ _ h2 => .ite (Act.raise_formed h2) (Inv.enterKey (.ite h2 h2.reserve))
theorem execOrdlv_formed {a : BitVec 5} (h : Inv s) : NextFormed (execOrdlv a s) :=
  runA_formed h fun _ _ _ h1 => withKey_formed h1 fun _ _ h2 => .ite h2 (releaseGate_formed h2 fun _ h3 => h3.updCtx.freeKey.relAt)

end Sys2Proof.Machine
end

section
/-! PROOF. The canonical form of memory is kept (O1): every instruction and event, and the step. -/

namespace Sys2Proof.Machine

variable {s t : State} {g : Group} {c : Ctx} {j : Job} {i : Instr}

/-! ### Every instruction and event -/

theorem exec_formed (h : Inv s) : NextFormed (exec i s) := by
  unfold exec
  cases i with
  | nop => exact execNop_formed h
  | add | sub | mul | mulh | div | rem | and | or | xor | andn | shl | shr | sra | rot | min | max | slt | seq | clz | ctz | pop
  | bfx | bfxImm | xmint => exact alu_formed h
  | sel | bfi | bfiImm => exact alu3_formed h
  | li => exact execLi_formed h
  | lia => exact execLia_formed h
  | mac => exact execMac_formed h
  | b | bc | bz => exact branch_formed h
  | j => exact execJ_formed h
  | call => exact execCall_formed h
  | callLabel => exact execCallLabel_formed h
  | ret => exact execRet_formed h
  | loop => exact execLoop_formed h
  | bqe => exact execBqe_formed h
  | yield => exact execYield_formed h
  | ld | lds => exact scalarLoad_formed h
  | st | sts => exact scalarStore_formed h
  | ldq | ldsq => exact blockLoad_formed h
  | stq | stsq => exact blockStore_formed h
  | pfx => exact execPfx_formed h
  | pushq => exact execPushq_formed h
  | popq => exact execPopq_formed h
  | qstat => exact execQstat_formed h
  | cln | inv => exact cacheLine_formed h
  | vadd | vsub | vmul | vfma | vfms | vfnma | vmin | vmax | vabs | vneg | vabd | vavg | vclamp | vmulh | vadds | vsubs | vmac
  | vcopysign | vdiv | vsqrt | vrcp | vrsqrt | vexp2 | vlog2 | vsinp | vcosp | vtanh | vsigm | vfloor | vand | vor | vxor | vandn
  | vnot | vshl | vshr | vsra | vrot | vpop | vclz | vbsel | vbfx | vclass | vscale | vmov => exact vMap_formed h
  | vaddw | vmulw => exact vWide_formed h
  | vdot => exact execVdot_formed h
  | vcmp => exact execVcmp_formed h
  | gand | gor | gxor | gnot | gmov | gfirst | gset => exact vGuard_formed h
  | gcnt => exact execGcnt_formed h
  | vcvt => exact execVcvt_formed h
  | vwiden => exact execVwiden_formed h
  | vnarrow => exact execVnarrow_formed h
  | vpack | vunpack => exact vPack_formed h
  | vqnt => exact execVqnt_formed h
  | fmtld => exact execFmtld_formed h
  | vsplat | vidx => exact vFill_formed h
  | vperm => exact execVperm_formed h
  | vext => exact execVext_formed h
  | vins => exact execVins_formed h
  | vsel => exact execVsel_formed h
  | vcompress => exact execVcompress_formed h
  | vexpand => exact execVexpand_formed h
  | vscan | vred => exact vReduce_formed h
  | vtopk => exact execVtopk_formed h
  | vmint => exact execVmint_formed h
  | vpush => exact execVpush_formed h
  | vpull => exact execVpull_formed h
  | kset => exact execKset_formed h
  | kget => exact execKget_formed h
  | vlds => exact execVlds_formed h
  | vsts => exact execVsts_formed h
  | vldsx => exact execVldsx_formed h
  | vstsx => exact execVstsx_formed h
  | rep => exact execRep_formed h
  | zmov => exact execZmov_formed h
  | zset => exact execZset_formed h
  | vtex => exact execVtex_formed h
  | vwind => exact execVwind_formed h
  | emsg => exact execEmsg_formed h
  | jtest | jwait => exact jobX_formed h
  | amo | amoOrdered => exact amoX_formed h
  | cas | casOrdered => exact casX_formed h
  | wacc | waccImm => exact waccX_formed h
  | ldacq => exact execLdacq_formed h
  | strel => exact atomicX_formed h
  | fence => exact execFence_formed h
  | xfence => exact execXfence_formed h
  | bar | barv => exact barX_formed h
  | barwArr => exact execBarwArr_formed h
  | barwWt => exact execBarwWt_formed h
  | wfe => exact execWfe_formed h
  | sev => exact execSev_formed h
  | deccnt | setcnt => exact countX_formed h
  | tsbret => exact execTsbret_formed h
  | slotadv => exact execSlotadv_formed h
  | ordent => exact execOrdent_formed h
  | ordentRsv => exact execOrdentRsv_formed h
  | ordlv => exact execOrdlv_formed h
  | trel => exact execTrel_formed h
  | phcrd => exact execPhcrd_formed h
  | launch => exact execLaunch_formed h
  | csrr => exact execCsrr_formed h
  | csrw => exact csrwX_formed h
  | csrx => exact csrxX_formed h
  | cohmodeWrite | bndtWrite => exact csrRow_formed h
  | trap => exact execTrap_formed h
  | trapN => exact execTrapN_formed h
  | eret => exact execEret_formed h
  | start => exact execStart_formed h
  | hend => exact execHend_formed h
  | hwait => exact execHwait_formed h
  | carve => exact execCarve_formed h
  | rets => exact execRets_formed h
  | retire => exact execRetire_formed h
  | xlinvPg => exact execXlinvPg_formed h
  | xlinvAll => exact execXlinvAll_formed h
  | xlinvBnd => exact execXlinvBnd_formed h
  | ctxsv => exact execCtxsv_formed h
  | ctxld => exact execCtxld_formed h
  | logrp => exact execLogrp_formed h
  | idle => exact execIdle_formed h
  | cload => exact execCload_formed h
  | residPin => exact execResidPin_formed h
  | residUnpin => exact execResidUnpin_formed h
  | residDemote => exact execResidDemote_formed h
  | residEvict => exact execResidEvict_formed h
  | brk => exact execBrk_formed h
  | wdead => exact execWdead_formed h
  | streamDeadlock => exact execStreamDeadlock_formed h
  | budgetOverrun => exact h.budgetOverrun
  | doorbell => exact execDoorbell_formed h
  | launchQueueTake => exact h.launchQueueTake
  | groupStart => exact h.groupStart
  | shareRecompute => exact execShareRecompute_formed h
  | counterSubmit => exact h.counterSubmit
  | launchCompletion => exact h.launchCompletion
  | reservationRelease => exact h.reservationRelease
  | preemption => exact h.preemption
  | resumption => exact h.resumption
  | worldSwitchSliceEnd => exact execWorldSwitchSliceEnd_formed h
  | barrierPhaseComplete => exact execBarrierPhaseComplete_formed h
  | orderedSectionGrant => exact execOrderedSectionGrant_formed h
  | jobCompletion => exact h.jobCompletion
  | copy => exact h.copy
  | gather => exact h.gather
  | mloadw => exact execMloadw_formed h
  | mloadb => exact execMloadb_formed h
  | mma => exact execMma_formed h
  | mmab => exact execMmab_formed h
  | mepi => exact execMepi_formed h
  | traverse => exact h.traverse
  | sweepup | sweepdn => exact h.sweep
  | pfeEmitEntry => exact h.pfeEmit
  | sweepCounterDecrement => exact h.sweepDecrement
  | raster => exact h.raster
  | refreshWindowEnd => exact execRefreshWindowEnd_formed h
  | trelFire => exact execTrelFire_formed h
  | pmcOverflow => exact execPmcOverflow_formed h
  | notifyOverflowDrain => exact execNotifyOverflowDrain_formed h
  | fabricWriteArrival => exact execFabricWriteArrival_formed h
  | linkFailure => exact execLinkFailure_formed h
  | ptpEventMessage => exact execPtpEventMessage_formed h
  | hostRead => exact execHostRead_formed h
  | hostWrite => exact execHostWrite_formed h
  | vfcfg => exact execVfcfg_formed h
  | vfreset => exact execVfreset_formed h
  | capiss => exact execCapiss_formed h
  | csload => exact execCsload_formed h
  | attest => exact execAttest_formed h
  | resync => exact execResync_formed h
  | podbar => exact execPodbar_formed h
  | phcsetProfile => exact execPhcsetProfile_formed h
  | phcsetStep => exact execPhcsetStep_formed h
  | phcsetSlew => exact execPhcsetSlew_formed h
  | tshare => exact execTshare_formed h
  | linkctl => exact execLinkctl_formed h
  | pwrlim => exact execPwrlim_formed h
  | powerGood => exact execPowerGood_formed h
  | thermalTrip => exact execThermalTrip_formed h
  | decodeTrap => exact execDecodeTrap_formed h
  | uncorrectableSoftError => exact execUncorrectableSoftError_formed h
  | holdover => exact execHoldover_formed h

/-! ### Contexts -/

theorem Inv.at {gid n : Nat} (h : Inv s) : Inv (s.at gid n) := h
theorem accessTurn_formed (h : Inv s) : NextFormed (accessTurn s g c) := by
  unfold accessTurn
  split
  · exact h
  · split
    · next e => exact .ite (h.fetchSeq.instr e).noteCode.updCtx (exec_formed (h.fetchSeq.instr e).noteCode)
    · next e => exact exec_formed (h.fetchSeq.bad e)
    · next e => exact (h.fetchSeq.trap e).fetchTrap
    · next e => exact (h.fetchSeq.page e).hold.updCtx
    · next e => exact (h.fetchSeq.busy e).bankWaitA.updCtx
theorem executeTurn_formed (h : Inv s) : NextFormed (executeTurn s g c) := by
  unfold executeTurn
  dsimp only
  split
  · exact h
  · split
    · exact h.updCtx
    · split
      · next e =>
          exact .ite (h.fetchSeq.instr e).noteCode.updCtx (.ite (exec_formed (h.fetchSeq.instr e).noteCode)
            (h.fetchSeq.instr e).noteCode.updCtx)
      · next e => exact .ite (h.fetchSeq.page e).hold.updCtx (h.fetchSeq.page e).updCtx
      · next e => exact .ite (h.fetchSeq.trap e).fetchTrapE (h.fetchSeq.trap e).updCtx
      · next e => exact .ite (h.fetchSeq.bad e).fetchTrapE (h.fetchSeq.bad e).updCtx
      · next e => exact (h.fetchSeq.busy e).bankWaitE.updCtx
theorem contextTurn_formed {core n : Nat} {f : State → Group → Ctx → Host.Outcome State Fault Refusal} (h : Inv s)
    (k1 : ∀ t g c, Inv t → NextFormed (f t g c)) : NextFormed (contextTurn s core n f) := by
  unfold contextTurn
  split
  · exact h
  · split
    · exact h.bindTiles
    · split
      · exact h.finishStop
      · split
        · exact h.budgetTrap
        · split
          · exact h
          · exact k1 _ _ _ h.at

/-! ### Engines and events -/

theorem turn_formed {t : Turn} (h : Inv s) : NextFormed (turn t s) := by
  unfold turn
  split
  · exact contextTurn_formed h fun _ _ _ h1 => accessTurn_formed h1
  · exact contextTurn_formed h fun _ _ _ h2 => executeTurn_formed h2
  · split
    · exact exec_formed h
    · exact h
  · exact .ite (exec_formed h) h

/-! ### What can happen next -/

theorem Inv.ownTurn (h : Inv s) : NextFormed s.ownTurn := by
  unfold State.ownTurn
  split
  · exact h
  · exact turn_formed h

/-! ### One step -/

theorem Inv.withScript {l : List (Turn × Nat)} (h : Inv s) : Inv { s with script := l } := h
theorem step_formed (h : Inv s) : NextFormed (step s) := by
  unfold step
  have h1 := h.drainPending
  generalize s.drainPending = u at h1 ⊢
  split
  · exact h1.advance.ownTurn
  · exact turn_formed h1.withScript.advance

/-- Settles O1: a step is a turn of a state in canonical form, and no turn loses the form. -/
theorem stepKeepsMemoryForm : Obligations.StepKeepsMemoryForm := by
  unfold Obligations.StepKeepsMemoryForm
  intro s t h e
  have hs := step_formed h
  rw [e] at hs
  exact hs

end Sys2Proof.Machine
end

section
/-! PROOF. The turns of the two streams of a context (O8, O9). -/

namespace Sys2Proof.Machine

/-! ### What a stream finds at its address (R119) -/

/-- The instruction that a stream finds is what its fetch answers. -/
theorem State.Reads.fetchSeq {s t : State} {g : Group} {c : Ctx} {n : Nat} {pc : Word} {i : Instr}
    (h : s.Reads g c n pc t i) : s.fetchSeq g c n pc = .instr t i := by
  obtain ⟨hcode, rfl⟩ | ⟨hcode, p0, ps, k, s1, hfirst, hk, hrest, hdecode⟩ := h
  · simp only [State.fetchSeq, hcode]
  · simp only [State.fetchSeq, hcode, State.fetch, hfirst, List.headD_cons, hk, hrest, hdecode]

/-- The execute stream's order with the access stream, as a proposition (R119). -/
theorem Ctx.committedTo_iff {c : Ctx} {n : Nat} :
    c.committedTo n = true ↔ n ≤ c.seqA ∨ (n = c.seqA + 1 ∧ c.waitsCommitted = true) := by
  simp [Ctx.committedTo]

/-! ### Turns -/

/-- A step with a turn in the script takes that turn, after waiting records have entered their queues and the time has passed. -/
theorem step_scripted {s : State} {t : Turn} {k : Nat} {r : List (Turn × Nat)} (h : s.drainPending.script = (t, k) :: r) :
    step s = turn t (State.advance { s.drainPending with script := r } k) := by
  simp only [step, h]

/-- The turn of a context that nothing keeps from its core runs its stream (R78, R328, R343). -/
theorem contextTurn_runs {s : State} {core n : Nat} {g : Group} {c : Ctx}
    {f : State → Group → Ctx → Host.Outcome State Fault Refusal} (hg : s.groupOn? core = some g) (hu : g.unbound = false)
    (hs : g.stopping = none) (hb : n = 0 → g.overBudget = false) (hc : g.ctx? n = some c) :
    contextTurn s core n f = f (s.at g.id n) g c := by
  have hbudget : (n == 0 && g.overBudget) = false := by
    by_cases h0 : n = 0
    · simp [hb h0]
    · simp [h0]
  simp only [contextTurn, hg, hu, hs, hbudget, hc, Option.isSome_none, Bool.false_eq_true, if_false]

theorem accessTurn_reads {s t : State} {g : Group} {c : Ctx} {i : Instr} (hheld : c.heldA = none)
    (hr : s.Reads g c c.seqA c.pcA t i) :
    accessTurn s g c = if i.isExec then .next ((t.noteCode g c c.seqA i).updCtx g.id c.num fun x => x.passA i)
      else exec i (t.noteCode g c c.seqA i) := by
  simp only [accessTurn, hheld, hr.fetchSeq, Option.isSome_none, Bool.false_eq_true, if_false]

/-- Where the access stream is held at the place of the execute stream, the latter waits unless the place has been fetched (R372). -/
theorem executeTurn_reads {s t : State} {g : Group} {c : Ctx} {i : Instr} (hheld : c.heldE = none)
    (hplace : c.heldA = none ∨ c.seqE < c.seqA ∨ alGet c.code c.seqE ≠ none) (hr : s.Reads g c c.seqE c.pcE t i) :
    executeTurn s g c =
      if i.isExec = false then .next ((t.noteCode g c c.seqE i).updCtx g.id c.num fun x => x.passE i)
      else if c.committedTo c.seqP then exec i (t.noteCode g c c.seqE i)
      else .next ((t.noteCode g c c.seqE i).updCtx g.id c.num (Ctx.waitForE .commit)) := by
  have hfree : (c.heldA.isSome && decide (c.seqA ≤ c.seqE) && (alGet c.code c.seqE).isNone) = false := by
    obtain h | h | h := hplace
    · simp [h]
    · simp [Nat.not_le.2 h]
    · simp [Option.isNone_eq_false_iff, Option.isSome_iff_ne_none, h]
  simp only [executeTurn, hheld, hfree, hr.fetchSeq, Option.isSome_none, Bool.false_eq_true, if_false, Bool.not_eq_true']

/-- Settles O8: the script's turn is the context's, and its access stream runs what it reads. -/
theorem accessTurnRunsDecoded : Obligations.AccessTurnRunsDecoded := by
  unfold Obligations.AccessTurnRunsDecoded
  intro s s1 s2 r core num k g c i hscript hs1 hg hu hstop hbudget hc hheld hr
  subst hs1
  rw [step_scripted hscript]
  exact (contextTurn_runs hg hu hstop hbudget hc).trans (accessTurn_reads hheld hr)

/-- Settles O9: the script's turn is the context's, and its execute stream runs what it reads, passes it by, or waits. -/
theorem executeTurnRunsDecoded : Obligations.ExecuteTurnRunsDecoded := by
  unfold Obligations.ExecuteTurnRunsDecoded
  intro s s1 s2 r core num k g c i hscript hs1 hg hu hstop hbudget hc hheld hplace hr
  subst hs1
  have hwait : Ctx.waitForE .commit = fun x => { x with waitE := some .commit, retryE := false } :=
    funext fun x => by simp [Ctx.waitForE]
  simp only [← Ctx.committedTo_iff, ← hwait]
  rw [step_scripted hscript]
  exact (contextTurn_runs hg hu hstop hbudget hc).trans (executeTurn_reads hheld hplace hr)

end Sys2Proof.Machine
end

section
/-! PROOF. Who acts (O59): what the passing of time, records and fetches leave of the groups and of the cursor. -/

namespace Sys2Proof.Machine

/-! ### The groups and the cursor -/

/-- What decides who acts. -/
def State.who (s : State) : List Group × Cursor := (s.groups, s.cur)

@[simp] theorem wrBytes_who (s : State) (key : Nat) (b : List Byte) : (s.wrBytes key b).who = s.who := rfl
@[simp] theorem wr_who (s : State) (key n v : Nat) : (s.wr key n v).who = s.who := rfl
@[simp] theorem updCore_who (s : State) (n : Nat) (f : Core → Core) : (s.updCore n f).who = s.who := rfl
@[simp] theorem settledWords_who (s : State) (l : List Nat) : (s.settledWords l).who = s.who := by
  unfold State.settledWords
  split <;> rfl

/-! ### The fault queue (R323) -/

@[simp] theorem fqPut_who (s : State) (vf : Nat) (data : List Byte) : (s.fqPut vf data).who = s.who := by
  simp [State.fqPut]
@[simp] theorem inform_who (s : State) (vf : Nat) (data : List Byte) : (s.inform vf data).who = s.who := by
  unfold State.inform
  split <;> simp
theorem drainList_who (l : List Pending) (s : State) : (drainList s l).who = s.who := by
  induction l generalizing s with
  | nil => rfl
  | cons p r ih =>
    unfold drainList
    split
    · exact ih s
    · rw [ih, fqPut_who]
@[simp] theorem drainPending_who (s : State) : s.drainPending.who = s.who := by
  unfold State.drainPending
  split
  · rfl
  · exact drainList_who _ _

/-! ### Counters and time (R78, R332) -/

@[simp] theorem countOne_who (core ev n vf : Nat) (mode : Bool) (s : State) (i : Fin 8) :
    (State.countOne core ev n vf mode s i).who = s.who := by
  simp only [State.countOne, apply_ite State.who, inform_who, updCore_who, ite_self]
@[simp] theorem count_who (s : State) (core ev n vf : Nat) (mode : Bool) : (s.count core ev n vf mode).who = s.who := by
  unfold State.count
  split
  · rfl
  · split
    · rfl
    · exact foldl_keep State.who _ (countOne_who core ev n vf mode) _ _
/-- Time changes of the groups what they have used of their budgets. -/
theorem advance_groups (s : State) (n : Nat) :
    (s.advance n).groups = s.groups.map fun g => if g.runs then { g with used := g.used + n } else g := by
  refine congrArg Prod.fst (foldl_keep State.who _ (fun t g => ?_) _ _)
  split
  · exact count_who ..
  · rfl

/-! ### Lines and translations (R206, R214, R215, R228) -/

@[simp] theorem countPage_who (s : State) (vf pa : Nat) : (s.countPage vf pa).who = s.who := by
  unfold State.countPage
  dsimp only
  split
  · split <;> rfl
  · rfl
@[simp] theorem pageLine_who (s : State) (l : Line) : (s.pageLine l).who = s.who := by
  unfold State.pageLine
  split <;> simp
@[simp] theorem putSlice_who (s : State) (l : Line) : (s.putSlice l).who = s.who := by
  unfold State.putSlice
  dsimp only
  split
  · rfl
  · split
    · rfl
    · exact pageLine_who _ _
@[simp] theorem sliceRead_who (s : State) (l : Line) : (s.sliceRead l).1.who = s.who := by
  simp only [State.sliceRead, apply_ite Prod.fst, apply_ite State.who, pageLine_who, putSlice_who, ite_self]
@[simp] theorem keep_who (s : State) (vf va e : Nat) (big : Bool) : (s.keep vf va e big).who = s.who := by
  unfold State.keep
  dsimp only
  split <;> rfl
@[simp] theorem walked_who (s : State) (g : Group) (c : Ctx) (ptr : Nat) : (s.walked g c ptr).who = s.who := by
  unfold State.walked
  split
  · split <;> simp
  · rfl
@[simp] theorem touchEa_who (s : State) (g : Group) (ea : Word) : (s.touchEa g ea).who = s.who := by
  unfold State.touchEa State.touch
  split
  · rfl
  · split <;> rfl
@[simp] theorem fetchLine_who (s : State) (g : Group) (p : Spot) : (s.fetchLine g p).who = s.who := by
  unfold State.fetchLine
  split <;> simp

/-! ### A context acts -/

/-- The cursor names a context of a group that runs. -/
def State.Acting (s : State) : Prop := ∃ g c, s.Acts g c

theorem State.Acting.of_who {s t : State} (h : s.Acting) (e : t.who = s.who) : t.Acting := by
  obtain ⟨hgroups, hcur⟩ := Prod.mk.inj e
  unfold State.Acting State.Acts State.here? State.group? at *
  rwa [hgroups, hcur]
theorem State.Acting.updCtx {s : State} {a n : Nat} {f : Ctx → Ctx} (h : s.Acting) (hf : ∀ x, (f x).num = x.num) :
    (s.updCtx a n f).Acting := by
  obtain ⟨g, c, h⟩ := h
  obtain ⟨hgid, hctx, hgroup, hruns, hc⟩ := acts_iff.1 h
  have hgroup' : (s.updCtx a n f).group? g.id = some (if g.id = a then g.updCtx n f else g) := by
    rw [State.updCtx, group_updGroup s a g.id (fun x => x.updCtx n f) fun _ => rfl, hgroup, Option.map_some]
  by_cases ha : g.id = a
  · have hnum : (if c.num = n then f c else c).num = c.num := by split <;> simp [hf]
    rw [if_pos ha] at hgroup'
    refine ⟨g.updCtx n f, if c.num = n then f c else c, acts_iff.2 ⟨hgid, hctx.trans hnum.symm, hgroup', hruns, ?_⟩⟩
    rw [hnum, ctx_updCtx g n _ f hf, hc, Option.map_some]
  · rw [if_neg ha] at hgroup'
    exact ⟨g, c, acts_iff.2 ⟨hgid, hctx, hgroup', hruns, hc⟩⟩
/-- The context that a turn points the cursor at acts, where no other group has the number of its group. -/
theorem acting_at {s : State} {core n : Nat} {g : Group} {c : Ctx} (hids : (s.groups.map fun g => g.id).Nodup)
    (hg : s.groupOn? core = some g) (hc : g.ctx? n = some c) : (s.at g.id n).Acting := by
  have hn : c.num = n := by simpa using List.find?_some hc
  have hruns : g.runs = true := by
    have := List.find?_some hg
    simp only [Bool.and_eq_true] at this
    exact this.2
  have hgroup : s.group? g.id = some g := by
    have hmem := List.mem_of_find?_eq_some hg
    have hfound : (s.groups.find? fun x => x.id == g.id).isSome := List.find?_isSome.2 ⟨g, hmem, beq_self_eq_true g.id⟩
    obtain ⟨x, hx⟩ := Option.isSome_iff_exists.1 hfound
    have hid : x.id = g.id := by simpa using List.find?_some hx
    rw [State.group?, hx, List.inj_on_of_nodup_map hids (List.mem_of_find?_eq_some hx) hmem hid]
  subst hn
  exact ⟨g, c, acts_iff.2 ⟨rfl, rfl, hgroup, hruns, hc⟩⟩

/-! ### A fetch leaves the context that acts (R96-R99) -/

theorem State.Acting.keepEntry {s : State} {g : Group} {c : Ctx} {ea : Word} (h : s.Acting) : (s.keepEntry g c ea).Acting := by
  unfold State.keepEntry
  split
  · exact h
  · exact h.updCtx fun x => by unfold Ctx.keepBounds; split <;> rfl
theorem State.Acting.tried {s : State} {g : Group} {c : Ctx} {ea : Word} {n align : Nat} {right : Right} (h : s.Acting) :
    (s.tried g c ea n align right).Acting := by
  unfold State.tried
  dsimp only
  split
  · exact h
  · split
    · exact h.keepEntry.of_who (walked_who ..)
    · exact h.keepEntry
theorem State.Acting.noteCode {s : State} {g : Group} {c : Ctx} {n : Nat} {i : Instr} (h : s.Acting) :
    (s.noteCode g c n i).Acting := h.updCtx fun x => by unfold Ctx.noteCode; split <;> rfl

/-- The state with which a fetch ends has a context that acts. -/
def Fetched.Acting : Fetched → Prop
  | .instr s _ | .bad s _ | .trap s _ _ | .page s _ _ | .busy s _ => s.Acting
/-- The same of the state after parcels have been fetched. -/
def ParcelsActing : Except Fetched (List Parcel × State) → Prop
  | .ok r => r.2.Acting
  | .error x => x.Acting
theorem ParcelsActing.ok {r : Except Fetched (List Parcel × State)} {l : List Parcel} {s : State} (h : ParcelsActing r)
    (e : r = .ok (l, s)) : s.Acting := by subst e; exact h
theorem ParcelsActing.error {r : Except Fetched (List Parcel × State)} {x : Fetched} (h : ParcelsActing r) (e : r = .error x) :
    x.Acting := by subst e; exact h
theorem State.Acting.fetchParcels {s : State} {g : Group} {c : Ctx} {pc : Word} {n : Nat} (h : s.Acting) :
    ParcelsActing (s.fetchParcels g c pc n) := by
  induction n generalizing s pc with
  | zero => exact h
  | succ n ih =>
    have next : ∀ p, (((s.tried g c pc 4 4 .x).fetchLine g p).touchEa g pc).Acting := fun p =>
      h.tried.of_who ((touchEa_who ..).trans (fetchLine_who ..))
    unfold State.fetchParcels
    dsimp only
    split
    · exact h.tried
    · exact h.tried
    · exact h.tried
    · split
      · exact h.tried
      · split
        · next e => exact (ih (next _)).ok e
        · next e => exact (ih (next _)).error e
theorem State.Acting.fetch {s : State} {g : Group} {c : Ctx} {pc : Word} (h : s.Acting) : (s.fetch g c pc).Acting := by
  unfold State.fetch
  split
  · next e => exact h.fetchParcels.error e
  · next e =>
    have hfirst := h.fetchParcels.ok e
    split
    · exact hfirst
    · split
      · next e => exact hfirst.fetchParcels.error e
      · next e =>
        have hrest := hfirst.fetchParcels.ok e
        split
        · exact hrest
        · exact hrest
theorem State.Acting.fetchSeq {s : State} {g : Group} {c : Ctx} {n : Nat} {pc : Word} (h : s.Acting) :
    (s.fetchSeq g c n pc).Acting := by
  unfold State.fetchSeq
  split
  · exact h
  · exact h.fetch
theorem Fetched.Acting.instr {r : Fetched} {s : State} {i : Instr} (h : r.Acting) (e : r = .instr s i) : s.Acting := by
  subst e; exact h
theorem Fetched.Acting.bad {r : Fetched} {s : State} {cause : Nat} (h : r.Acting) (e : r = .bad s cause) : s.Acting := by
  subst e; exact h

end Sys2Proof.Machine
end

section
/-! PROOF. No instruction, event or step faults or is refused (O59). -/

namespace Sys2Proof.Machine

variable {s : State} {i : Instr}

/-! ### Outcomes that are a next state -/

/-- An outcome is a next state: no fault and no refusal. -/
def Continues (o : Host.Outcome State Fault Refusal) : Prop := ∃ t, o = .next t

theorem Continues.next {t : State} : Continues (.next t) := ⟨t, rfl⟩
theorem Continues.ite {p : Prop} [Decidable p] {a b : Host.Outcome State Fault Refusal} (ha : Continues a) (hb : Continues b) :
    Continues (if p then a else b) := by
  split
  · exact ha
  · exact hb

/-! ### Instructions of a program -/

/-- The parcels of an instruction are none only where it has no fields. -/
theorem isEvent_false_of_fields {f : Fields} (h : instrFields i = some f) : isEvent i = false := by
  have hparcels : f.parcels.isEmpty = false := by
    unfold Fields.parcels
    split <;> rfl
  unfold isEvent
  split
  · rfl
  · simp only [encode, h, hparcels]
theorem isEvent_nop (f : NopForm) : isEvent (.nop f) = false := by
  cases f with
  | short => rfl
  | medium => rfl
  | long => rfl
theorem isEvent_qstat (d : BitVec 5) (q : Option (BitVec 3)) : isEvent (.qstat d q) = false := by
  cases q with
  | none => rfl
  | some => rfl

section
variable {f : State → Group → Ctx → Act}

/-- The three wrappers fault only where no context acts. -/
theorem runA_continues (h : s.Acting) : Continues (runA i s f) := by
  obtain ⟨g, c, h⟩ := h
  rw [runA, show s.here? = some (g, c) from h]
  exact .next
theorem runS_continues (h : s.Acting) : Continues (runS i s f) := by
  obtain ⟨g, c, h⟩ := h
  rw [runS, show s.here? = some (g, c) from h]
  exact .ite .next .next
theorem runE_continues (h : s.Acting) : Continues (runE i s f) := by
  obtain ⟨g, c, h⟩ := h
  rw [runE, show s.here? = some (g, c) from h]
  exact .next
end
/-! ### Operations that instructions of class S share -/

theorem csrwX_continues {n : Nat} {a : BitVec 5} (h : s.Acting) : Continues (csrwX i n a s) := runS_continues h
theorem csrxX_continues {op : CsrxOp} {d a : BitVec 5} {n : Nat} (h : s.Acting) : Continues (csrxX i op d n a s) :=
  runS_continues h
theorem csrRow_continues {n : Nat} {w : CsrWr} {a : BitVec 5} (h : s.Acting) : Continues (csrRow i n w a s) := by
  cases w with
  | csrw => exact csrwX_continues h
  | csrx => exact csrxX_continues h
theorem xlinvX_continues {sup : Bool} {f : State → Group → Ctx → State} (h : s.Acting) : Continues (xlinvX i sup f s) :=
  runS_continues h
theorem residX_continues {d a : BitVec 5} {waits : Bool} {f : State → Nat × Nat × Nat → Nat → Nat → Nat → ResidAct}
    (h : s.Acting) : Continues (residX i d a waits f s) := runS_continues h

/-- A decode trap faults only where no context acts. -/
theorem execDecodeTrap_continues {cause : Nat} (h : s.Acting) : Continues (execDecodeTrap cause s) := by
  obtain ⟨g, c, h⟩ := h
  rw [execDecodeTrap, show s.here? = some (g, c) from h]
  exact .next

/-! ### Events that look at the state first -/

theorem execStreamDeadlock_continues {core n : Nat} : Continues (execStreamDeadlock core n s) := by
  unfold execStreamDeadlock
  split
  · exact .next
  · exact .next
theorem execWorldSwitchSliceEnd_continues {core : Nat} : Continues (execWorldSwitchSliceEnd core s) := by
  unfold execWorldSwitchSliceEnd
  split
  · exact .next
  · exact .next
theorem execPmcOverflow_continues {core n : Nat} : Continues (execPmcOverflow core n s) := by
  unfold execPmcOverflow
  dsimp only
  split
  · split
    · exact .next
    · exact .next
  · exact .next
theorem execLinkFailure_continues {link : Nat} : Continues (execLinkFailure link s) := by
  unfold execLinkFailure
  split
  · exact .ite .next .next
  · exact .next

/-! ### Every instruction and event -/

/-- An instruction of a program goes through the wrapper of its class, an event answers a next state whatever the state is. -/
theorem exec_continues (h : isEvent i = false → s.Acting) : Continues (exec i s) := by
  unfold exec
  cases i with
  | nop => apply runA_continues (h (isEvent_nop _))
  | qstat => apply runA_continues (h (isEvent_qstat _ _))
  | add | sub | mul | mulh | div | rem | and | or | xor | andn | shl | shr | sra | rot | min | max | slt | seq | sel | clz | ctz
  | pop | bfx | bfxImm | bfi | bfiImm | li | lia | mac | xmint | b | bc | bz | j | call | callLabel | ret | loop | bqe | yield
  | ld | st | lds | sts | ldq | stq | ldsq | stsq | pfx | pushq | popq | cln | inv =>
    apply runA_continues (h (isEvent_false_of_fields rfl))
  | emsg | jtest | jwait | amo | amoOrdered | cas | casOrdered | wacc | waccImm | ldacq | strel | fence | xfence | bar | barv
  | barwArr | barwWt | wfe | sev | deccnt | setcnt | tsbret | slotadv | ordent | ordentRsv | ordlv | trel | phcrd | launch =>
    apply runA_continues (h (isEvent_false_of_fields rfl))
  | csrw => exact csrwX_continues (h (isEvent_false_of_fields rfl))
  | csrx => exact csrxX_continues (h (isEvent_false_of_fields rfl))
  | cohmodeWrite | bndtWrite => exact csrRow_continues (h (isEvent_false_of_fields rfl))
  | xlinvPg | xlinvAll | xlinvBnd => exact xlinvX_continues (h (isEvent_false_of_fields rfl))
  | residPin | residUnpin | residDemote | residEvict => exact residX_continues (h (isEvent_false_of_fields rfl))
  | csrr | trap | trapN | eret | start | hend | hwait | carve | rets | retire | ctxsv | ctxld | logrp | idle | cload | brk | wdead =>
    apply runS_continues (h (isEvent_false_of_fields rfl))
  | vadd | vsub | vmul | vfma | vfms | vfnma | vmin | vmax | vabs | vneg | vabd | vavg | vclamp | vaddw | vmulw | vdot | vmulh
  | vadds | vsubs | vmac | vcopysign | vdiv | vsqrt | vrcp | vrsqrt | vexp2 | vlog2 | vsinp | vcosp | vtanh | vsigm | vfloor
  | vand | vor | vxor | vandn | vnot | vshl | vshr | vsra | vrot | vpop | vclz | vbsel | vbfx | vcmp | vclass | gand | gor | gxor
  | gnot | gmov | gcnt | gfirst | gset | vcvt | vwiden | vnarrow | vpack | vunpack | vscale | vqnt | fmtld | vmov | vsplat | vperm
  | vext | vins | vsel | vcompress | vexpand | vscan | vred | vtopk | vmint | vidx | vpush | vpull | kset | kget | vlds | vsts
  | vldsx | vstsx | rep | zmov | zset | vtex | vwind =>
    apply runE_continues (h (isEvent_false_of_fields rfl))
  | decodeTrap => exact execDecodeTrap_continues (h rfl)
  | streamDeadlock => exact execStreamDeadlock_continues
  | worldSwitchSliceEnd => exact execWorldSwitchSliceEnd_continues
  | pmcOverflow => exact execPmcOverflow_continues
  | linkFailure => exact execLinkFailure_continues
  | refreshWindowEnd | notifyOverflowDrain | ptpEventMessage => exact .ite .next .next
  | powerGood => exact .ite .next (.ite .next .next)
  | budgetOverrun | doorbell | launchQueueTake | groupStart | shareRecompute | counterSubmit | launchCompletion
  | reservationRelease | preemption | resumption | barrierPhaseComplete | orderedSectionGrant | jobCompletion | copy | gather
  | mloadw | mloadb | mma | mmab | mepi | traverse | sweepup | sweepdn | pfeEmitEntry | sweepCounterDecrement | raster | trelFire
  | fabricWriteArrival | hostRead | hostWrite | vfcfg | vfreset | capiss | csload | attest | resync | podbar | phcsetProfile
  | phcsetStep | phcsetSlew | tshare | linkctl | pwrlim | thermalTrip | uncorrectableSoftError | holdover => exact .next

/-! ### Turns -/

theorem accessTurn_continues {g : Group} {c : Ctx} (h : s.Acting) : Continues (accessTurn s g c) := by
  unfold accessTurn
  split
  · exact .next
  · split
    · next e => exact .ite .next (exec_continues fun _ => (h.fetchSeq.instr e).noteCode)
    · next e => exact exec_continues fun _ => h.fetchSeq.bad e
    · exact .next
    · exact .next
    · exact .next
theorem executeTurn_continues {g : Group} {c : Ctx} (h : s.Acting) : Continues (executeTurn s g c) := by
  unfold executeTurn
  dsimp only
  split
  · exact .next
  · split
    · exact .next
    · split
      · next e => exact .ite .next (.ite (exec_continues fun _ => (h.fetchSeq.instr e).noteCode) .next)
      · exact .ite .next .next
      · exact .ite .next .next
      · exact .ite .next .next
      · exact .next
/-- The turn of a context runs its stream only where the cursor, put on it, finds it. -/
theorem contextTurn_continues {core n : Nat} {f : State → Group → Ctx → Host.Outcome State Fault Refusal}
    (hids : (s.groups.map fun g => g.id).Nodup) (hf : ∀ t g c, t.Acting → Continues (f t g c)) :
    Continues (contextTurn s core n f) := by
  unfold contextTurn
  split
  · exact .next
  · next hg =>
    split
    · exact .next
    · split
      · exact .next
      · split
        · exact .next
        · split
          · exact .next
          · next hc => exact hf _ _ _ (acting_at hids hg hc)
theorem isEvent_headRow (cl : Nat) (e : Eng) (j : Job) : isEvent (headRow cl e j) = true := by
  unfold headRow
  split
  · rfl
  · split <;> rfl
theorem turn_continues {t : Turn} (hids : (s.groups.map fun g => g.id).Nodup) : Continues (turn t s) := by
  cases t with
  | access core n => exact contextTurn_continues hids fun _ _ _ h => accessTurn_continues h
  | execute core n => exact contextTurn_continues hids fun _ _ _ h => executeTurn_continues h
  | engine cl e =>
    unfold turn
    dsimp only
    split
    · exact exec_continues fun h => absurd h (by simp [isEvent_headRow])
    · exact .next
  | event i =>
    unfold turn
    dsimp only
    split
    · next hi => exact exec_continues fun h => absurd h (by simp [hi])
    · exact .next
theorem ownTurn_continues (hids : (s.groups.map fun g => g.id).Nodup) : Continues s.ownTurn := by
  unfold State.ownTurn
  split
  · exact .next
  · exact turn_continues hids

/-! ### One step -/

/-- The groups keep their numbers while time passes. -/
theorem advance_ids (s : State) (n : Nat) : ((s.advance n).groups.map fun g => g.id) = s.groups.map fun g => g.id := by
  rw [advance_groups, List.map_map]
  refine List.map_congr_left fun g _ => ?_
  dsimp only [Function.comp]
  split <;> rfl
theorem step_continues (hids : (s.groups.map fun g => g.id).Nodup) : Continues (step s) := by
  have hdrained : s.drainPending.groups = s.groups := congrArg Prod.fst (drainPending_who s)
  unfold step
  split
  · refine ownTurn_continues ?_
    rwa [advance_ids, hdrained]
  · refine turn_continues ?_
    rw [advance_ids]
    show (s.drainPending.groups.map fun g => g.id).Nodup
    rwa [hdrained]

/-- Settles O59: the one fault needs a cursor that names no running context, and no turn leaves it so; nothing refuses. -/
theorem nothingStops : Obligations.NothingStops := by
  unfold Obligations.NothingStops
  refine ⟨fun i s h => exec_continues fun hi => ?_, fun s h => step_continues h.1⟩
  exact h.resolve_left (by simp [hi])

end Sys2Proof.Machine
end

section
/-! PROOF. Where an elementwise instruction traps or waits (O24), and what class E shares for O21, O29 and O31. -/

namespace Sys2Proof.Machine

variable {i : Instr} {op : Nat} {e0 e : EArgs} {s t : State} {g : Group} {c : Ctx} {sh : EShape} {f : ElemFn}
  {sizes : Ctx → EArgs → Nat × Nat × Nat} {body : EShape → EArgs → State → Group → Ctx → Act}

/-! ### How an instruction of class E traps -/

/-- A trap of class E before any effect (R167). -/
theorem runE_trap {k : State → Group → Ctx → Act} {cause : Nat} {tval : Option Word} (h : s.Acts g c)
    (e : k s g c = .trap t cause tval false) :
    runE i s k = .next (t.trapsE g c cause (tval.getD (firstParcel i))) := by
  simp only [runE, show s.here? = some (g, c) from h, e, finishE, Bool.false_eq_true, if_false, State.trapsE]
theorem runE_raise {k : State → Group → Ctx → Act} {cause : Nat} (h : s.Acts g c) (e : k s g c = .raise t cause) :
    runE i s k = .next (t.trapsE g c cause (firstParcel i)) := runE_trap (tval := none) h e

/-! ### The checks before the body (R32, R126, R132) -/

/-- A pass of rep with illegal fields, or an FMT register that is not valid, takes cause 0x01. -/
theorem vRun_illegal (ha : s.Acts g c) (hsh : eShape op = some sh)
    (h : (c.rep.isSome = true ∧ eOk op (c.passArgs sh e0) = false) ∨ c.fmtsOk sh (c.passArgs sh e0) = false) :
    vRun i op e0 s sizes body = .next (s.trapsE g c 0x01 (firstParcel i)) := by
  refine runE_raise ha ?_
  simp only [hsh]
  split
  · rfl
  next hpass =>
    obtain ⟨hrep, hok⟩ | hfmt := h
    · simp [hrep, hok] at hpass
    · rw [if_pos (by simp [hfmt])]
/-- Behind those checks, a register past the declared count takes cause 0x05. -/
theorem vRun_undeclared (ha : s.Acts g c) (hsh : eShape op = some sh) (hpass : c.rep = none ∨ eOk op (c.passArgs sh e0) = true)
    (hfmt : c.fmtsOk sh (c.passArgs sh e0) = true)
    (hregs : regsOk g sh (c.passArgs sh e0) (sizes c (c.passArgs sh e0)).1 (sizes c (c.passArgs sh e0)).2.1
      (sizes c (c.passArgs sh e0)).2.2 = false) :
    vRun i op e0 s sizes body = .next (s.trapsE g c 0x05 (firstParcel i)) := by
  have pass : (c.rep.isSome && !eOk op (c.passArgs sh e0)) = false := by
    obtain hrep | hok := hpass
    · simp [hrep]
    · simp [hok]
  refine runE_raise ha ?_
  simp only [hsh, pass, hfmt, hregs, Bool.not_true, Bool.not_false, Bool.false_eq_true, if_false, if_true]
/-- A source that fails: its local address is TVAL for the causes of an access (R167). -/
theorem vRun_fails {cause : Nat} {la : Word} (ha : s.Acts g c) (h : EReady g c op e0 sizes sh e)
    (hb : body sh e s g c = .failE s cause la) :
    vRun i op e0 s sizes body =
      .next (s.trapsE g c cause (if [0x05, 0x08, 0x12, 0x15].contains cause then la else firstParcel i)) := by
  refine (vRun_trap ha h hb).trans ?_
  split <;> rfl

/-! ### What an elementwise instruction runs -/

/-- Every elementwise instruction is the element map of its function (R164). -/
theorem exec_elementwise (h : mapRule i = some (op, e0, f)) : exec i s = vMap i op e0 s f := by
  unfold mapRule at h
  split at h <;> cases h <;> rfl
theorem vMap_wait {w : Wait} (ha : s.Acts g c) (h : EReady g c op e0 one3 sh e)
    (hr : readAB s g c sh e (c.srcTy sh e) = .wait w) : vMap i op e0 s f = .next (s.waitsE g c w) :=
  vRun_wait ha h (by simp only [hr, Act.ofS])
theorem vMap_trap {cause : Nat} {la : Word} (ha : s.Acts g c) (h : EReady g c op e0 one3 sh e)
    (hr : readAB s g c sh e (c.srcTy sh e) = .trap cause la) :
    vMap i op e0 s f =
      .next (s.trapsE g c cause (if [0x05, 0x08, 0x12, 0x15].contains cause then la else firstParcel i)) :=
  vRun_fails ha h (by simp only [hr, Act.ofS])

/-- Settles O24: the checks before the body in their order, then what the sources come to. -/
theorem elementwiseTraps : Obligations.ElementwiseTraps := by
  unfold Obligations.ElementwiseTraps
  rintro s g c i op e0 e sh f ha hm hsh rfl
  rw [exec_elementwise hm]
  exact ⟨fun h => vRun_illegal ha hsh h, fun hpass hfmt hregs => vRun_undeclared ha hsh hpass hfmt hregs,
    fun h w hr => vMap_wait ha h hr, fun h cause la hr => vMap_trap ha h hr⟩

end Sys2Proof.Machine
end

section
/-! PROOF. The integer element rules (O21). -/

namespace Sys2Proof.Machine

variable {sg : Bool} {w d a b : Nat}

/-! ### Patterns, and the integers and bit vectors that they stand for (R4, R22) -/

/-- Congruent integers have one pattern. -/
theorem wrapped_congr {x y : ℤ} (h : x ≡ y [ZMOD (2 ^ w : ℕ)]) : wrapped w x = wrapped w y := congrArg Int.toNat h
theorem wrapped_natCast (x : ℕ) : wrapped w x = x % 2 ^ w := by
  rw [wrapped, ← Int.natCast_emod, Int.toNat_natCast]
/-- A pattern and the integer that it stands for are congruent, signed or not. -/
theorem intVal_modEq (sg : Bool) (w c : Nat) : intVal sg w c ≡ c [ZMOD (2 ^ w : ℕ)] := by
  have low : ((c % 2 ^ w : ℕ) : ℤ) ≡ c [ZMOD (2 ^ w : ℕ)] := by
    rw [Int.natCast_emod]
    exact Int.mod_modEq _ _
  have high : ((c % 2 ^ w : ℕ) : ℤ) - (2 ^ w : ℕ) ≡ c [ZMOD (2 ^ w : ℕ)] := by
    simpa using low.sub (Int.modEq_zero_iff_dvd.2 (dvd_refl ((2 ^ w : ℕ) : ℤ)))
  cases sg with
  | false => exact low
  | true =>
    simp only [intVal, toI, if_true]
    split
    · exact low
    · exact high
/-- The signed integer of a pattern is that of the bit vector. -/
theorem toInt_ofNat_eq_toI (hw : 0 < w) : (BitVec.ofNat w a).toInt = toI w a := by
  have half : 2 ^ w = 2 * 2 ^ (w - 1) := by rw [← Nat.pow_succ', Nat.succ_eq_add_one, Nat.sub_add_cancel hw]
  rw [BitVec.toInt_eq_toNat_cond, BitVec.toNat_ofNat, toI]
  congr 1
  rw [half]
  exact propext (by omega)
theorem wrapped_toInt (x : BitVec w) : wrapped w x.toInt = x.toNat := by
  rw [wrapped, ← BitVec.toNat_ofInt, BitVec.ofInt_toInt]
theorem toNat_ofNat_of_lt (h : a < 2 ^ w) : (BitVec.ofNat w a).toNat = a := by
  rw [BitVec.toNat_ofNat, Nat.mod_eq_of_lt h]

/-! ### Arithmetic: exact results reduced to the width (R22, R170) -/

theorem iAdd_exact : iAdd sg w d a b = (wrapped w (intVal sg w a + intVal sg w b), 0) := by
  rw [wrapped_congr ((intVal_modEq sg w a).add (intVal_modEq sg w b)), ← Nat.cast_add, wrapped_natCast]
  rfl
theorem iSub_exact : iSub sg w d a b = (wrapped w (intVal sg w a - intVal sg w b), 0) := by
  rw [wrapped_congr ((intVal_modEq sg w a).sub (intVal_modEq sg w b))]
  rfl
theorem iMul_exact : iMul sg w d a b = (wrapped w (intVal sg w a * intVal sg w b), 0) := by
  rw [wrapped_congr ((intVal_modEq sg w a).mul (intVal_modEq sg w b)), ← Nat.cast_mul, wrapped_natCast]
  rfl
theorem iMac_exact : iMac sg w d a b = (wrapped w (intVal sg w d + intVal sg w a * intVal sg w b), 0) := by
  rw [wrapped_congr ((intVal_modEq sg w d).add ((intVal_modEq sg w a).mul (intVal_modEq sg w b))), ← Nat.cast_mul,
    ← Nat.cast_add, wrapped_natCast]
  rfl
theorem iNeg_exact : iNeg sg w d a b = (wrapped w (-intVal sg w a), 0) := by
  rw [wrapped_congr (intVal_modEq sg w a).neg]
  rfl
theorem iAbs_exact : iAbs sg w d a b = (wrapped w |intVal sg w a|, 0) := by
  rw [← Int.natCast_natAbs]
  rfl
theorem iAbd_exact : iAbd sg w d a b = (wrapped w |intVal sg w a - intVal sg w b|, 0) := by
  rw [← Int.natCast_natAbs]
  rfl
/-- Saturation is one clamp, flagged where it changes the value (R22). -/
theorem saturate_eq_clamped (x : ℤ) : saturate sg w fSA x = clamped sg w x := by
  have range : intMin sg w ≤ intMax sg w := by
    have := Nat.two_pow_pos w
    have := Nat.two_pow_pos (w - 1)
    cases sg <;> simp only [intMin, intMax, Bool.false_eq_true, if_false, if_true] <;> omega
  show saturate sg w fSA x = if x < intMin sg w then (wrapped w (intMin sg w), fSA)
      else if intMax sg w < x then (wrapped w (intMax sg w), fSA) else (wrapped w x, 0)
  simp only [saturate, beq_iff_eq, toN, wrapped]
  by_cases low : x < intMin sg w
  · rw [min_eq_right (by omega), max_eq_left low.le, if_neg (by omega), if_pos low]
  by_cases high : intMax sg w < x
  · rw [min_eq_left high.le, max_eq_right range, if_neg (by omega), if_neg low, if_pos high]
  · rw [min_eq_right (by omega), max_eq_right (by omega), if_pos rfl, if_neg low, if_neg high]
/-- Division truncates, and by zero gives all ones (R170). -/
theorem iDiv_exact (hb : b < 2 ^ w) :
    iDiv sg w d a b = if b = 0 then (2 ^ w - 1, 0) else (wrapped w ((intVal sg w a).tdiv (intVal sg w b)), 0) := by
  simp only [iDiv, Nat.mod_eq_of_lt hb, beq_iff_eq]
  rfl

/-! ### Logic, shifts and counts: elements as bit vectors (R175) -/

theorem bAnd_bits (ha : a < 2 ^ w) (hb : b < 2 ^ w) : bAnd sg w d a b = ((BitVec.ofNat w a &&& BitVec.ofNat w b).toNat, 0) := by
  rw [BitVec.toNat_and, toNat_ofNat_of_lt ha, toNat_ofNat_of_lt hb, bAnd]
theorem bOr_bits (ha : a < 2 ^ w) (hb : b < 2 ^ w) : bOr sg w d a b = ((BitVec.ofNat w a ||| BitVec.ofNat w b).toNat, 0) := by
  rw [BitVec.toNat_or, toNat_ofNat_of_lt ha, toNat_ofNat_of_lt hb, bOr]
theorem bXor_bits (ha : a < 2 ^ w) (hb : b < 2 ^ w) : bXor sg w d a b = ((BitVec.ofNat w a ^^^ BitVec.ofNat w b).toNat, 0) := by
  rw [BitVec.toNat_xor, toNat_ofNat_of_lt ha, toNat_ofNat_of_lt hb, bXor]
theorem bNot_bits : bNot sg w d a b = ((~~~BitVec.ofNat w a).toNat, 0) := by
  rw [BitVec.toNat_not, BitVec.toNat_ofNat, bNot]
theorem bAndn_bits (ha : a < 2 ^ w) : bAndn sg w d a b = ((BitVec.ofNat w a &&& ~~~BitVec.ofNat w b).toNat, 0) := by
  rw [BitVec.toNat_and, BitVec.toNat_not, toNat_ofNat_of_lt ha, BitVec.toNat_ofNat, bAndn]
theorem bSel_bits (hd : d < 2 ^ w) (ha : a < 2 ^ w) (hb : b < 2 ^ w) :
    bSel sg w d a b =
      (((BitVec.ofNat w d &&& BitVec.ofNat w a) ||| (~~~BitVec.ofNat w d &&& BitVec.ofNat w b)).toNat, 0) := by
  rw [BitVec.toNat_or, BitVec.toNat_and, BitVec.toNat_and, BitVec.toNat_not, toNat_ofNat_of_lt ha, toNat_ofNat_of_lt hb,
    toNat_ofNat_of_lt hd, bSel, Nat.mod_eq_of_lt hd]
theorem bShl_bits (ha : a < 2 ^ w) : bShl sg w d a b = ((BitVec.ofNat w a <<< (b % w)).toNat, 0) := by
  rw [BitVec.toNat_shiftLeft, toNat_ofNat_of_lt ha, Nat.shiftLeft_eq, bShl]
theorem bShr_bits (ha : a < 2 ^ w) : bShr sg w d a b = ((BitVec.ofNat w a >>> (b % w)).toNat, 0) := by
  rw [BitVec.toNat_ushiftRight, toNat_ofNat_of_lt ha, Nat.shiftRight_eq_div_pow, bShr]
theorem bSra_bits (hw : 0 < w) : bSra sg w d a b = (((BitVec.ofNat w a).sshiftRight (b % w)).toNat, 0) := by
  rw [← wrapped_toInt, BitVec.toInt_sshiftRight, toInt_ofNat_eq_toI hw, Int.shiftRight_eq_div_pow]
  rfl
/-- The bits shifted out on the left come in on the right, where the shift has left zeros. -/
theorem bRot_bits (hw : 0 < w) (ha : a < 2 ^ w) : bRot sg w d a b = (((BitVec.ofNat w a).rotateLeft (b % w)).toNat, 0) := by
  have hs : b % w < w := Nat.mod_lt _ hw
  rw [BitVec.toNat_rotateLeft, toNat_ofNat_of_lt ha, Nat.mod_mod]
  simp only [bRot]
  generalize b % w = s at hs
  have whole : 2 ^ w = 2 ^ (w - s) * 2 ^ s := by rw [← Nat.pow_add, Nat.sub_add_cancel hs.le]
  have out : a / 2 ^ (w - s) < 2 ^ s := Nat.div_lt_of_lt_mul (by rwa [← whole])
  have kept : a * 2 ^ s % 2 ^ w = a % 2 ^ (w - s) * 2 ^ s := by rw [whole, Nat.mul_mod_mul_right]
  have fits : a % 2 ^ (w - s) * 2 ^ s + a / 2 ^ (w - s) < 2 ^ w := by
    have := Nat.mul_le_mul_right (2 ^ s) (Nat.mod_lt a (Nat.two_pow_pos (w - s)))
    rw [Nat.succ_mul, ← whole] at this
    omega
  have sum : (a * 2 ^ s + a / 2 ^ (w - s)) % 2 ^ w = a % 2 ^ (w - s) * 2 ^ s + a / 2 ^ (w - s) := by
    rw [Nat.add_mod, kept, Nat.mod_eq_of_lt (Nat.lt_of_le_of_lt (Nat.le_add_left _ _) fits), Nat.mod_eq_of_lt fits]
  rw [Nat.shiftLeft_eq, Nat.shiftRight_eq_div_pow, kept, sum, ← Nat.shiftLeft_eq, Nat.shiftLeft_add_eq_or_of_lt out]
/-- The count of the set bits, the lowest first. -/
theorem popCount_eq_countP (n x : Nat) : popCount n x = (List.range n).countP fun i => x.testBit i := by
  induction n generalizing x with
  | zero => rfl
  | succ n ih =>
    rw [popCount, ih, List.range_succ_eq_map, List.countP_cons, List.countP_map, Nat.add_comm]
    congr 1
    · refine List.countP_congr fun i _ => ?_
      simp [Nat.testBit_succ]
    · rw [Nat.testBit_zero]
      rcases Nat.mod_two_eq_zero_or_one x with h | h <;> simp [h]
theorem bPop_bits : bPop sg w d a b = ((List.range w).countP fun i => (BitVec.ofNat w a).getLsbD i, 0) := by
  rw [bPop, popCount_eq_countP]
  congr 1
  refine List.countP_congr fun i hi => ?_
  rw [BitVec.getLsbD_ofNat, decide_eq_true (List.mem_range.1 hi), Bool.true_and]
/-- Bit i from the top of a pattern. -/
theorem getMsbD_ofNat_of_lt {i : Nat} (hi : i < w) : (BitVec.ofNat w a).getMsbD i = a.testBit (w - 1 - i) := by
  rw [BitVec.getMsbD_eq_getLsbD, BitVec.getLsbD_ofNat, decide_eq_true hi, decide_eq_true (by omega : w - 1 - i < w),
    Bool.true_and, Bool.true_and]
/-- The first set bit from the top is that of the logarithm. -/
theorem bClz_bits (ha : a < 2 ^ w) :
    bClz sg w d a b = (((List.range w).find? fun i => (BitVec.ofNat w a).getMsbD i).getD w, 0) := by
  by_cases zero : a = 0
  · have never : (List.range w).find? (fun i => (BitVec.ofNat w a).getMsbD i) = none :=
      List.find?_range_eq_none.2 fun i hi => by rw [getMsbD_ofNat_of_lt hi, zero, Nat.zero_testBit, Bool.not_false]
    rw [never, bClz, leadZeros, zero]
    rfl
  · have top : a.log2 < w := (Nat.log2_lt zero).2 ha
    have first : (List.range w).find? (fun i => (BitVec.ofNat w a).getMsbD i) = some (w - 1 - a.log2) := by
      refine List.find?_range_eq_some.2 ⟨?_, List.mem_range.2 (by omega), fun j hj => ?_⟩
      · rw [getMsbD_ofNat_of_lt (by omega), show w - 1 - (w - 1 - a.log2) = a.log2 by omega]
        exact Nat.testBit_log2 zero
      · have above : a < 2 ^ (w - 1 - j) :=
          Nat.lt_of_lt_of_le Nat.lt_log2_self (Nat.pow_le_pow_right Nat.two_pos (by omega))
        rw [getMsbD_ofNat_of_lt (by omega), Nat.testBit_lt_two_pow above, Bool.not_false]
    rw [first, bClz, leadZeros, if_neg (by simpa using zero)]
    rfl

/-! ### The bit field (R141, R176) -/

theorem bit_eq_testBit (x i : Nat) : bit x i = x.testBit i := by
  rw [bit, Nat.testBit_eq_decide_div_mod_eq, beq_eq_decide]

/-! ### Element functions on an integer type -/

theorem intTy_w : (intTy sg w).w = w := by cases sg <;> rfl
theorem elem_int (iop : IFun) (fop : FFun) (dt : ETy) (p : Nat) : elem iop fop (intTy sg w) dt p d a b = iop sg w d a b := by
  cases sg <;> rfl
theorem signElem_int (iop : IFun) (fop : Fmt → Nat → Nat → Nat) (dt : ETy) (p : Nat) :
    signElem iop fop (intTy sg w) dt p d a b = iop sg w d a b := by
  cases sg <;> rfl
theorem divElem_int (dt : ETy) (p : Nat) : divElem (intTy sg w) dt p d a b = iDiv sg w d a b := by
  cases sg <;> rfl
theorem bitElem_int (iop : IFun) (dt : ETy) (p : Nat) : bitElem iop (intTy sg w) dt p d a b = iop false w d a b := by
  rw [bitElem, intTy_w]
theorem bfxElem_int (ctl : Nat) (dt : ETy) (p : Nat) :
    bfxElem ctl (intTy sg w) dt p d a b = (fieldOf sg w (ctl % 32) (ctl / 32 % 64) a, 0) := by
  cases sg <;> rfl
/-- The bit field of an element, as its rule has it. -/
theorem bfxElem_rule (imm : Nat) (dt : ETy) (p : Nat) :
    intRule 0x6C imm sg w d a b = some (bfxElem imm (intTy sg w) dt p d a b) := by
  rw [bfxElem_int]
  simp only [intRule, fieldOf, bit_eq_testBit, beq_iff_eq, Bool.and_eq_true]
  generalize (if imm / 32 % 64 = 0 then w else imm / 32 % 64) = len
  split
  · rfl
  · rfl

/-- Settles O21: one rule for each instruction with an integer meaning; for the others the rule names no result. -/
theorem integerElements : Obligations.IntegerElements := by
  unfold Obligations.IntegerElements
  intro i op e0 f sg w p d a b r hm hw ha hb hd hr
  have pos : 0 < w := by
    simp only [List.mem_cons, List.not_mem_nil, or_false] at hw
    omega
  cases i with
  | vadd e => cases hm; cases hr; exact (elem_int ..).trans iAdd_exact
  | vsub e => cases hm; cases hr; exact (elem_int ..).trans iSub_exact
  | vmul e => cases hm; cases hr; exact (elem_int ..).trans iMul_exact
  | vmin e | vmax e | vavg e | vclamp e | vmulh e => cases hm; cases hr; exact elem_int ..
  | vabs e => cases hm; cases hr; exact (signElem_int ..).trans iAbs_exact
  | vneg e => cases hm; cases hr; exact (signElem_int ..).trans iNeg_exact
  | vabd e => cases hm; cases hr; exact (elem_int ..).trans iAbd_exact
  | vadds e | vsubs e => cases hm; cases hr; exact (elem_int ..).trans (saturate_eq_clamped _)
  | vmac e => cases hm; cases hr; exact (elem_int ..).trans iMac_exact
  | vdiv e => cases hm; cases hr; exact (divElem_int ..).trans (iDiv_exact hb)
  | vand e => cases hm; cases hr; exact (bitElem_int ..).trans (bAnd_bits ha hb)
  | vor e => cases hm; cases hr; exact (bitElem_int ..).trans (bOr_bits ha hb)
  | vxor e => cases hm; cases hr; exact (bitElem_int ..).trans (bXor_bits ha hb)
  | vandn e => cases hm; cases hr; exact (bitElem_int ..).trans (bAndn_bits ha)
  | vnot e => cases hm; cases hr; exact (bitElem_int ..).trans bNot_bits
  | vshl e => cases hm; cases hr; exact (bitElem_int ..).trans (bShl_bits ha)
  | vshr e => cases hm; cases hr; exact (bitElem_int ..).trans (bShr_bits ha)
  | vsra e => cases hm; cases hr; exact (bitElem_int ..).trans (bSra_bits pos)
  | vrot e => cases hm; cases hr; exact (bitElem_int ..).trans (bRot_bits pos ha)
  | vpop e => cases hm; cases hr; exact (bitElem_int ..).trans bPop_bits
  | vclz e => cases hm; cases hr; exact (bitElem_int ..).trans (bClz_bits ha)
  | vbsel e => cases hm; cases hr; exact (bitElem_int ..).trans (bSel_bits hd ha hb)
  | vbfx e => cases hm; exact Option.some.inj ((bfxElem_rule ..).symm.trans hr)
  | vfma e | vfms e | vfnma e | vcopysign e | vsqrt e | vrcp e | vrsqrt e | vexp2 e | vlog2 e | vsinp e | vcosp e | vtanh e | vsigm e
  | vfloor e | vclass e | vscale e | vmov e => cases hm; cases hr
  | _ => cases hm

end Sys2Proof.Machine
end

section
/-! PROOF. Compress, expand, scan, reduce, the k greatest, and the push of a block (O31). -/

namespace Sys2Proof.Machine

variable {i : Instr} {op : Nat} {e0 e : EArgs} {s s1 : State} {g : Group} {c : Ctx} {sh : EShape} {t : ETy} {av : Block}
  {sizes : Ctx → EArgs → Nat × Nat × Nat} {body : EShape → EArgs → State → Group → Ctx → Act}

/-! ### Vector sources (R113, R194) -/

theorem ctxOf_acting (ha : s.Acts g c) : s.ctxOf g c = c := by
  obtain ⟨hg, hc⟩ := acts_group ha
  rw [State.ctxOf, hg, Option.bind_some, hc, Option.getD_some]
/-- A block at a k pointer whose access may be made is read. -/
theorem kRead_ready {k : BitVec 3} {p : Spot} (ha : s.Acts g c) (hp : s.spotE g c (c.kAddr k) 512 64 .read = .ok p) :
    ∃ s1 v, s.kRead g c k = .ok s1 v := by
  simp only [State.kRead, ctxOf_acting ha, hp]
  exact ⟨_, _, rfl⟩
/-- A source that is there is read. -/
theorem vSrc_ready {src : BitVec 4} {reg : BitVec 5} (ha : s.Acts g c) (h : s.SrcReady g c src reg) :
    ∃ s1 v, s.vSrc g c src reg = .ok s1 v := by
  obtain rfl | ⟨k, p, hk, hp⟩ | ⟨q, hq, hhead⟩ := h
  · exact ⟨s, _, rfl⟩
  · have nonzero : (src == 0) = false := beq_eq_false_iff_ne.2 fun zero => by
      have : (0 : BitVec 4).toNat = 0 := rfl
      rw [zero] at hk
      omega
    have pointer : BitVec.ofNat 3 (src.toNat - 1) = k := by
      rw [hk, Nat.add_sub_cancel_left, BitVec.ofNat_toNat, BitVec.setWidth_eq]
    have := k.isLt
    obtain ⟨s1, v, hread⟩ := kRead_ready ha hp
    refine ⟨s1, v, ?_⟩
    rw [State.vSrc, ctxOf_acting ha, nonzero, pointer, if_neg Bool.false_ne_true, if_pos (by omega), hread]
  · have nonzero : (src == 0) = false := beq_eq_false_iff_ne.2 fun zero => by
      have : (0 : BitVec 4).toNat = 0 := rfl
      rw [zero] at hq
      omega
    have queue : Fin.ofNat 6 (src.toNat - 9) = q := by
      rw [hq, Nat.add_sub_cancel_left]
      exact Fin.ofNat_val_eq_self q
    obtain ⟨b, hb⟩ := Option.ne_none_iff_exists'.1 hhead
    refine ⟨s.updCtx g.id c.num fun x => x.popBlock q, b.data, ?_⟩
    simp only [State.vSrc, ctxOf_acting ha, nonzero, queue, hb, Bool.false_eq_true, if_false]
    rw [if_neg (by omega)]

/-! ### What a form that is ready comes to -/

/-- A form without a vector B reads A with its lane pattern (R111). -/
theorem readAB_onlyA (h : EReady g c op e0 sizes sh e) (hop : ((eShape op).all fun x => x.b != .v) = true)
    (hv : s.vSrc g c e.asrc e.a = .ok s1 av) : readAB s g c sh e t = .ok s1 (pattern e (t.elems av), []) := by
  have hb : sh.b ≠ .v := by simpa [h.shape] using hop
  simp only [readAB, hv, SRes.bind, beq_iff_eq, hb, if_false]
/-- vscan and vred end with the results of their operation on A, identities in place (R190). -/
theorem vReduce_done {f : Nat → ETy → List Nat → List Nat × Flags} {a b : List Nat} (ha : s.Acts g c)
    (h : EReady g c op e0 one3 sh e) (hr : readAB s g c sh e (c.srcTy sh e) = .ok s1 (a, b)) :
    vReduce i op e0 s f = .next ((s1.updCtx g.id c.num fun x =>
      (x.writeElems e.d (c.srcTy sh e).w
        ((f e.b.toNat (c.srcTy sh e) (redInput (c.guard e) e.b.toNat (c.srcTy sh e) a)).1.map some)).flags
        (f e.b.toNat (c.srcTy sh e) (redInput (c.guard e) e.b.toNat (c.srcTy sh e) a)).2).endsE g c (inRegion c.pcE i.size)) := by
  rw [vReduce]
  refine vRun_done ha h ?_
  simp only [hr, Act.ofS]

/-! ### Expansion (R189) -/

theorem getD_tail (l : List Nat) (j : Nat) : l.tail.getD j 0 = l.getD (j + 1) 0 := by cases l <;> rfl
/-- An enabled position takes the element whose number is that of the enabled positions below it. -/
theorem expandTo_eq (gd : Guard) (w n p : Nat) (l : List Nat) :
    expandTo gd w n p l = (List.range n).map fun j =>
      if enabled gd w (p + j) then some (l.getD ((List.range j).countP fun i => enabled gd w (p + i)) 0) else none := by
  induction n generalizing p l with
  | zero => rfl
  | succ n ih =>
    have next : ∀ j, p + 1 + j = p + (j + 1) := fun j => by omega
    have count : ∀ j, ((List.range (j + 1)).countP fun i => enabled gd w (p + i)) =
        ((List.range j).countP fun i => enabled gd w (p + (i + 1))) + if enabled gd w p then 1 else 0 := fun j => by
      rw [List.range_succ_eq_map, List.countP_cons, List.countP_map]
      rfl
    rw [expandTo, List.range_succ_eq_map, List.map_cons, List.map_map]
    split
    next on =>
      simp only [ih, on, next, count, getD_tail, Function.comp_def, Nat.succ_eq_add_one, Nat.add_zero, if_true]
      cases l <;> rfl
    next off => simp [ih, off, next, count, Function.comp_def]

/-! ### The k greatest (R191) -/

/-- The order of vtopk's entries (rank, position, pattern): the higher rank first, of equal ranks the lower position. -/
def topBefore (x y : Nat × Nat × Nat) : Prop := y.1 < x.1 ∨ (y.1 = x.1 ∧ x.2.1 < y.2.1)
/-- The enabled elements of a source as such entries, in the order of their positions. -/
def topEntries (t : ETy) (gd : Guard) (a : List Nat) : List (Nat × Nat × Nat) :=
  (a.zipIdx.filter fun x => enabled gd t.w x.2).map fun x => (topRank t x.1, x.2, x.1)
/-- The first k of them, sorted. -/
def topKept (k : Nat) (t : ETy) (gd : Guard) (a : List Nat) : List (Nat × Nat × Nat) :=
  ((topEntries t gd a).foldl (fun acc x => topInsert x acc) []).take k

theorem topInsert_perm (a : Nat × Nat × Nat) (l : List (Nat × Nat × Nat)) : (topInsert a l).Perm (a :: l) := by
  induction l with
  | nil => exact .refl _
  | cons b r ih =>
    rw [topInsert]
    split
    · exact (ih.cons b).trans (.swap a b r)
    · exact .refl _
theorem foldl_topInsert_perm (l acc : List (Nat × Nat × Nat)) :
    (l.foldl (fun acc x => topInsert x acc) acc).Perm (l ++ acc) := by
  induction l generalizing acc with
  | nil => exact .refl _
  | cons a r ih => exact ((ih _).trans ((topInsert_perm a acc).append_left r)).trans List.perm_middle
/-- An entry that stands behind all others in position is put in its place in the order. -/
theorem topInsert_sorted {a : Nat × Nat × Nat} {l : List (Nat × Nat × Nat)} (h : l.Pairwise topBefore)
    (behind : ∀ x ∈ l, x.2.1 < a.2.1) : (topInsert a l).Pairwise topBefore := by
  induction l with
  | nil => exact List.pairwise_singleton ..
  | cons b r ih =>
    obtain ⟨hb, hr⟩ := List.pairwise_cons.1 h
    have := behind b List.mem_cons_self
    rw [topInsert]
    split
    next hle =>
      refine List.pairwise_cons.2 ⟨fun x hx => ?_, ih hr fun x hx => behind x (List.mem_cons_of_mem b hx)⟩
      obtain rfl | hx := List.mem_cons.1 ((topInsert_perm a r).mem_iff.1 hx)
      · unfold topBefore
        omega
      · exact hb x hx
    next hlt =>
      refine List.pairwise_cons.2 ⟨fun x hx => ?_, h⟩
      obtain rfl | hx := List.mem_cons.1 hx
      · exact .inl (by omega)
      · have := hb x hx
        unfold topBefore at this
        exact .inl (by omega)
theorem foldl_topInsert_sorted {l acc : List (Nat × Nat × Nat)} (hl : l.Pairwise fun x y => x.2.1 < y.2.1)
    (hacc : acc.Pairwise topBefore) (behind : ∀ x ∈ acc, ∀ y ∈ l, x.2.1 < y.2.1) :
    (l.foldl (fun acc x => topInsert x acc) acc).Pairwise topBefore := by
  induction l generalizing acc with
  | nil => exact hacc
  | cons a r ih =>
    obtain ⟨ha, hr⟩ := List.pairwise_cons.1 hl
    refine ih hr (topInsert_sorted hacc fun x hx => behind x hx a List.mem_cons_self) fun x hx y hy => ?_
    obtain rfl | hx := List.mem_cons.1 ((topInsert_perm a acc).mem_iff.1 hx)
    · exact ha y hy
    · exact behind x hx y (List.mem_cons_of_mem a hy)

section
variable {gd : Guard} {a : List Nat} {k : Nat}

theorem mem_topEntries {x : Nat × Nat × Nat} :
    x ∈ topEntries t gd a ↔ a[x.2.1]? = some x.2.2 ∧ enabled gd t.w x.2.1 = true ∧ x.1 = topRank t x.2.2 := by
  obtain ⟨rank, p, v⟩ := x
  simp only [topEntries, List.mem_map, List.mem_filter, List.mem_zipIdx_iff_getElem?, Prod.mk.injEq, Prod.exists]
  constructor
  · rintro ⟨v, p, ⟨hv, hon⟩, rfl, rfl, rfl⟩
    exact ⟨hv, hon, rfl⟩
  · rintro ⟨hv, hon, rfl⟩
    exact ⟨v, p, ⟨hv, hon⟩, rfl, rfl, rfl⟩
theorem topEntries_positions : (topEntries t gd a).Pairwise fun x y => x.2.1 < y.2.1 := by
  have rising : a.zipIdx.Pairwise fun x y => x.2 < y.2 :=
    List.pairwise_map.1 (by rw [List.zipIdx_map_snd]; exact List.pairwise_lt_range')
  exact List.pairwise_map.2 (rising.filter _)
theorem topSorted_perm : ((topEntries t gd a).foldl (fun acc x => topInsert x acc) []).Perm (topEntries t gd a) := by
  simpa using foldl_topInsert_perm (topEntries t gd a) []
theorem topSorted_sorted : ((topEntries t gd a).foldl (fun acc x => topInsert x acc) []).Pairwise topBefore :=
  foldl_topInsert_sorted topEntries_positions .nil fun _ hx => absurd hx List.not_mem_nil

theorem topKept_length : (topKept k t gd a).length = min k (a.zipIdx.filter fun x => enabled gd t.w x.2).length := by
  rw [topKept, List.length_take, topSorted_perm.length_eq, topEntries, List.length_map]
theorem topKept_nodup : ((topKept k t gd a).map fun x => x.2.1).Nodup := by
  have all : ((topEntries t gd a).map fun x => x.2.1).Nodup := List.pairwise_map.2 (topEntries_positions.imp Nat.ne_of_lt)
  exact ((topSorted_perm.map _).nodup_iff.2 all).sublist ((List.take_sublist ..).map _)
theorem mem_of_mem_topKept {x : Nat × Nat × Nat} (h : x ∈ topKept k t gd a) : x ∈ topEntries t gd a :=
  topSorted_perm.mem_iff.1 (List.mem_of_mem_take h)
theorem topKept_sorted : (topKept k t gd a).Pairwise topBefore := topSorted_sorted.sublist (List.take_sublist ..)
/-- What is not kept comes behind everything that is. -/
theorem topKept_before {x y : Nat × Nat × Nat} (hx : x ∈ topKept k t gd a) (hy : y ∈ topEntries t gd a)
    (hout : y ∉ topKept k t gd a) : topBefore x y := by
  have sorted := topSorted_sorted (t := t) (gd := gd) (a := a)
  have member := topSorted_perm.mem_iff.2 hy
  rw [← List.take_append_drop k (List.foldl ..)] at sorted member
  exact (List.pairwise_append.1 sorted).2.2 x hx y ((List.mem_append.1 member).resolve_left hout)
end

/-! ### The instructions -/

/-- Settles O31: each form reads its source and ends; vtopk's entries are its enabled elements in their order. -/
theorem rearrangeResult : Obligations.RearrangeResult := by
  unfold Obligations.RearrangeResult
  intro s g c e0 e sh ha hsrc
  obtain ⟨s1, av, hv⟩ := vSrc_ready ha hsrc
  refine ⟨s1, av, hv, fun h => ?compress, fun h => ?expand, ⟨fun h => ?scan, fun h => ?red⟩, fun h => ?topk,
    fun h hroom => ?push⟩
  case compress =>
    show execVcompress e0 s = _
    refine vRun_done ha h ?_
    simp only [readAB_onlyA h rfl hv, Act.ofS]
  case expand =>
    show execVexpand e0 s = _
    refine vRun_done ha h ?_
    simp only [readAB_onlyA h rfl hv, Act.ofS, expandTo_eq, Nat.zero_add]
  case scan =>
    show execVscan e0 s = _
    exact vReduce_done ha h (readAB_onlyA h rfl hv)
  case red =>
    show execVred e0 s = _
    exact vReduce_done ha h (readAB_onlyA h rfl hv)
  case topk =>
    refine ⟨topKept e.immU (c.srcTy sh e) (c.guard e) (pattern e ((c.srcTy sh e).elems av)), topKept_length, topKept_nodup,
      fun x hx => mem_topEntries.1 (mem_of_mem_topKept hx), topKept_sorted, fun p v hp hon hout x hx => ?_, ?_⟩
    · exact topKept_before hx (mem_topEntries.2 ⟨hp, hon, rfl⟩) fun hin => hout (topRank (c.srcTy sh e) v, p, v) hin rfl
    · show execVtopk e0 s = _
      refine vRun_done ha h ?_
      simp only [readAB_onlyA h rfl hv, Act.ofS]
      rfl
  case push =>
    show execVpush e0 s = _
    refine vRun_done ha h ((if_neg (ne_true_of_eq_false hroom)).trans ?_)
    simp only [hv, Act.ofS]

end Sys2Proof.Machine
end

section
/-! PROOF. Packing, block quantisation and format loads (O29). -/

namespace Sys2Proof.Machine

variable {i : Instr} {op : Nat} {e0 e : EArgs} {s s1 : State} {g : Group} {c : Ctx} {sh : EShape} {av : Block}

/-! ### Packing (R183) -/

/-- A form of vpack or vunpack repacks the elements of a format of 5 or 6 bits. -/
theorem vPack_narrow {f : Nat → List Nat → Block} {x : Fmt} (ha : s.Acts g c) (h : EReady g c op e0 one3 sh e)
    (hv : s.vSrc g c e.asrc e.a = .ok s1 av) (hx : c.srcTy sh e = .f x) (hw : x.width = 5 ∨ x.width = 6) :
    vPack i op e0 s f = .next ((s1.updCtx g.id c.num fun y =>
      y.writeV e.d (BitVec.allOnes 4096) (f x.width (pattern e (blockElems x.lane av)))).endsE g c (inRegion c.pcE i.size)) := by
  have narrow : (x.width == 5 || x.width == 6) = true := by simpa using hw
  rw [vPack]
  refine vRun_done ha h ?_
  simp only [hv, Act.ofS, hx, narrow, if_true]

/-! ### Block quantisation (R37, R185) -/

theorem runsOf_eq_map (k n : Nat) (l : List Nat) :
    runsOf k n l = (List.range n).map fun j => (l.drop (k * j)).take k := by
  induction n generalizing l with
  | zero => rfl
  | succ n ih =>
    rw [runsOf, ih, List.range_succ_eq_map, List.map_cons, List.map_map]
    refine congrArg₂ _ rfl (List.map_congr_left fun j _ => ?_)
    rw [List.drop_drop, Function.comp, Nat.succ_eq_add_one, Nat.mul_succ, Nat.add_comm]
/-- Position i stands in the run of number i / k. -/
theorem run_range_eq_filter {k n j : Nat} (hk : 0 < k) (hj : j < n) :
    ((List.range (k * n)).drop (k * j)).take k = (List.range (k * n)).filter fun i => i / k = j := by
  have rising : (List.range (k * n)).Pairwise (· < ·) := List.pairwise_lt_range
  have last : k * j + k ≤ k * n := by
    rw [← Nat.mul_succ]
    exact Nat.mul_le_mul_left k hj
  refine List.Pairwise.eq_of_mem_iff (rising.sublist ((List.take_sublist ..).trans (List.drop_sublist ..)))
    (rising.filter _) fun i => ?_
  rw [List.mem_filter, List.mem_range, decide_eq_true_iff, Nat.div_eq_iff hk, List.range_eq_range', List.drop_range',
    List.take_range'_of_length_ge (by omega), List.mem_range'_1, Nat.mul_comm j k]
  omega
theorem runsOf_range {k : Nat} (n : Nat) (hk : 0 < k) :
    runsOf k n (List.range (k * n)) = (List.range n).map fun j => (List.range (k * n)).filter fun i => i / k = j := by
  rw [runsOf_eq_map]
  exact List.map_congr_left fun j hj => run_range_eq_filter hk (List.mem_range.1 hj)
/-- Only what the function gives at the positions of the destination counts. -/
theorem elemResults_congr {w n : Nat} {gd : Guard} {f f' : Nat → Nat × Flags}
    (h : ∀ p, p < 4096 / w → p < n → f p = f' p) : elemResults w n gd f = elemResults w n gd f' := by
  refine Prod.ext (List.map_congr_left fun p hp => ?_) (List.foldl_ext _ _ _ fun fl p hp => ?_)
  · have := h p (List.mem_range.1 hp)
    split
    · split
      · rw [this ‹_›]
      · rfl
    · rfl
  · have := h p (List.mem_range.1 hp)
    split
    next on => rw [this on.2]
    next => rfl

theorem scaleBlock_eq (b : Nat) : scaleBlock b = if b = 2 then 16 else 32 := by
  simp only [scaleBlock, beq_iff_eq]

/-- The number of elements of a block and of the blocks of a register. -/
theorem scaleBlock_blocks (b : Nat) : 0 < scaleBlock b ∧ scaleBlock b * (128 / scaleBlock b) = 128 := by
  rw [scaleBlock_eq]
  split <;> decide

/-- The scale of block j: that of its enabled elements (R37). -/
def quantScale (d k : Nat) (gd : Guard) (w : Nat) (vals : List FVal) (j : Nat) : Nat :=
  blockScale d (((List.range 128).filter fun i => i / k = j).filterMap fun i => if enabled gd w i then vals[i]? else none)
/-- A value divided by the power of two that a scale code stands for. -/
def scaledBy (scale : Nat) : FVal → FVal
  | .fin s m x => .fin s m (x - (scale : Int) + 127)
  | v => v
/-- What is converted at position p. -/
def quantValue (k : Nat) (scale : Nat → Nat) (vals : List FVal) (p : Nat) : FVal :=
  match vals[p]? with
  | some (.fin s m x) => .fin s m (x - (scale (p / k) : Int) + 127)
  | some v => v
  | none => .gen
/-- The results of vqnt. -/
def quantResults (fd : Fmt) (mode : Rm) (gd : Guard) (k : Nat) (scale : Nat → Nat) (vals : List FVal) : List (Option Nat) × Flags :=
  elemResults fd.lane 128 gd fun p => fd.convert mode 0 (quantValue k scale vals p)

section
variable {d k w : Nat} {gd : Guard} {vals : List FVal} {scale : Nat → Nat}

/-- The model's scales, block by block. -/
theorem scales_eq (hk : 0 < k ∧ k * (128 / k) = 128) :
    (runsOf k (128 / k) (List.range 128)).map (fun is =>
      blockScale d (is.filterMap fun i => if enabled gd w i then vals[i]? else none)) =
      (List.range (128 / k)).map (quantScale d k gd w vals) := by
  have runs := runsOf_range (128 / k) hk.1
  rw [hk.2] at runs
  rw [runs, List.map_map]
  rfl
theorem quantValue_eq (p : Nat) : quantValue k scale vals p = (vals[p]?.map (scaledBy (scale (p / k)))).getD .gen := by
  unfold quantValue
  cases vals[p]? with
  | none => rfl
  | some v => cases v <;> rfl
theorem getD_map_zipIdx (f : FVal × Nat → FVal) (p : Nat) :
    (vals.zipIdx.map f).toArray.getD p .gen = (vals[p]?.map fun v => f (v, p)).getD .gen := by
  simp [Array.getD_eq_getD_getElem?, Function.comp_def]
/-- The model's results, position by position: a position of the register lies in one of its blocks. -/
theorem quant_map {fd : Fmt} {mode : Rm} (hk : 0 < k ∧ k * (128 / k) = 128) :
    mapElems 128 32 fd.lane gd (List.range (4096 / fd.lane)) [] [] (fun _ _ i x => fd.convert mode x
      ((vals.zipIdx.map fun y => scaledBy (((List.range (128 / k)).map scale).getD (y.2 / k) 127) y.1).toArray.getD i .gen)) =
      quantResults fd mode gd k scale vals := by
  rw [mapElems_eq]
  refine elemResults_congr fun p hw hn => ?_
  have block : p / k < 128 / k := Nat.div_lt_of_lt_mul (by rwa [hk.2])
  have position : (List.range (4096 / fd.lane)).getD p 0 = p := by simp [hw]
  have own : ((List.range (128 / k)).map scale).getD (p / k) 127 = scale (p / k) := by simp [block]
  rw [position, quantValue_eq, getD_map_zipIdx]
  simp only [own]
  rfl
end

theorem writeElems_flags_num (x : Ctx) (d : BitVec 5) (w : Nat) (l : List (Option Nat)) (f : Flags) :
    ((x.writeElems d w l).flags f).num = x.num := direct_num ..
/-- vqnt without stochastic rounding writes its results and pushes the scales. -/
theorem vqnt_ends {fd : Fmt} {d k : Nat} {vals : List FVal} {scale : Nat → Nat} (ha : s.Acts g c)
    (h : EReady g c 0x86 e0 one3 sh e) (hv : s.vSrc g c e.asrc e.a = .ok s1 av) (hfd : c.dstTy sh e = .f fd) (hfn : e.fn ≠ 5)
    (hroom : (s.ctxOf g c).queues.full 6 = false) (hd : d = (c.csr.fmt[e.dfmt.toNat]).toNat) (hb : bscaleOf d ≠ 0)
    (hk : k = scaleBlock (bscaleOf d)) (hvals : vals = (pattern e (blockElems 32 av)).map f32.value)
    (hscale : scale = quantScale d k (c.guard e) fd.lane vals) :
    s.EndsE (.vqnt e0) g c s1 fun x =>
      ((x.writeElems e.d fd.lane (quantResults fd (Rm.ofCode e.fn.toNat) (c.guard e) k scale vals).1).flags
        (quantResults fd (Rm.ofCode e.fn.toNat) (c.guard e) k scale vals).2).pushQ6
        (BitVec.ofNat 64 (joinElems 8 ((List.range (128 / k)).map scale))) := by
  have plain : (e.fn == 5) = false := by simpa using hfn
  have blocks : 0 < k ∧ k * (128 / k) = 128 := hk ▸ scaleBlock_blocks _
  show execVqnt e0 s = _
  refine vRun_done ha h ?_
  simp only [hv, Act.ofS, beq_iff_eq, ← hd, hb, readU, aElems, plain, bne, Bool.not_false, if_true, State.q6Room, hroom, hfd,
    Bool.false_eq_true, if_false, ← hk, ← hvals, scales_eq blocks, State.pushQ6, ETy.w, ← hscale]
  rw [← quant_map blocks]
  rw [updCtx_updCtx _ _ _ _ _ fun x => writeElems_flags_num ..]
  rfl

/-- Settles O29: the repacking of narrow formats, vqnt's blocks, and the record's fields. -/
theorem packResult : Obligations.PackResult := by
  unfold Obligations.PackResult
  intro s s1 g c e0 e sh av ha hv
  refine ⟨fun x hx hw => ⟨fun h => ?pack, fun h => ?unpack⟩, fun fd hfd h hfn hroom => ?qnt, fun h => ?ld⟩
  case pack =>
    show execVpack e0 s = _
    exact vPack_narrow ha h hv hx hw
  case unpack =>
    show execVunpack e0 s = _
    exact vPack_narrow ha h hv hx hw
  case qnt =>
    intro d k vals scale r hb
    exact vqnt_ends ha h hv hfd hfn hroom rfl hb (scaleBlock_eq _).symm rfl rfl
  case ld =>
    show execFmtld e0 s = _
    refine vRun_done ha h ?_
    simp only [hv, Act.ofS]
    rfl

end Sys2Proof.Machine
end

section
/-! PROOF. What the proof of O60 is made of: that the groups' numbers are apart (State.Ids), said of every kind of answer. The walk
follows the model's definitions, as the one of O1 does. Its content lies where groups change: a new group takes the next number,
a launch passes a number over, a group ends, and every other change of a group keeps its number. -/

namespace Sys2Proof.Machine

/-! ### The groups' numbers, carried by what a function of the state answers -/

/-- Every state that the answer of an access carries has its groups' numbers apart. The predicates below say it of the other answers. -/
def MRes.Numbered {α : Type} : MRes α → Prop
  | .ok s _ | .wait s _ | .trap s _ _ => s.Ids
def JRes.Numbered {α : Type} : JRes α → Prop
  | .ok s _ | .busy s _ | .hold s _ _ | .fail s _ => s.Ids
def RunEnd.Numbered : RunEnd → Prop
  | .done s | .busy s _ _ | .hold s _ _ _ | .fail s _ _ => s.Ids
def SRes.Numbered {α : Type} : SRes α → Prop
  | .ok s _ => s.Ids
  | .wait _ | .trap _ _ => True
def Act.Numbered : Act → Prop
  | .done s | .goto s _ | .wait s _ | .trap s _ _ _ | .moved s => s.Ids
def Fetched.Numbered : Fetched → Prop
  | .instr s _ | .bad s _ | .trap s _ _ | .page s _ _ | .busy s _ => s.Ids
def Replay.Numbered : Replay → Prop
  | .gone s | .failed s _ => s.Ids
  | .unmapped | .moves => True
def RepScan.Numbered : RepScan → Prop
  | .page s _ _ | .busy s _ => s.Ids
  | .clear | .bad _ => True
def TexRes.Numbered : TexRes → Prop
  | .ok s _ _ _ | .wait s _ | .trap s _ => s.Ids
def ResidAct.Numbered : ResidAct → Prop
  | .ends s _ | .begins s => s.Ids
/-- What a step answers: its next state, if it has one, has its groups' numbers apart. -/
def NextNumbered : Host.Outcome State Fault Refusal → Prop
  | .next s => s.Ids
  | .fault _ | .refused _ => True

section
variable {s : State} {α β : Type} {p : Prop} [Decidable p]

/-- The numbers are said of the groups' ids and the next number alone. -/
theorem State.Ids.of_ids {t : State} (h : s.Ids) (e : t.groups.map Group.id = s.groups.map Group.id) (n : t.nextId = s.nextId) :
    t.Ids := by
  obtain ⟨hnodup, hbelow⟩ := h
  refine ⟨e ▸ hnodup, fun g hg => ?_⟩
  obtain ⟨x, hx, hid⟩ := List.mem_map.1 (e ▸ List.mem_map_of_mem (f := Group.id) hg)
  rw [n, ← hid]
  exact hbelow x hx
theorem State.Ids.ite {t : State} (h : s.Ids) (k : t.Ids) : (if p then s else t).Ids := by
  split
  · exact h
  · exact k
theorem State.Ids.foldl {f : State → α → State} {l : List α} (h : s.Ids) (hf : ∀ t a, t.Ids → (f t a).Ids) :
    (l.foldl f s).Ids := by
  induction l generalizing s with
  | nil => exact h
  | cons a r ih => exact ih (hf s a h)
theorem State.Ids.foldlFst {f : State × β → α → State × β} {l : List α} {q : State × β} (h : q.1.Ids)
    (hf : ∀ t a, t.1.Ids → (f t a).1.Ids) : (l.foldl f q).1.Ids := by
  induction l generalizing q with
  | nil => exact h
  | cons a r ih => exact ih (hf q a h)
theorem State.Ids.foldlSnd {f : β × State → α → β × State} {l : List α} {q : β × State} (h : q.2.Ids)
    (hf : ∀ t a, t.2.Ids → (f t a).2.Ids) : (l.foldl f q).2.Ids := by
  induction l generalizing q with
  | nil => exact h
  | cons a r ih => exact ih (hf q a h)
theorem State.Ids.foldlSndSnd {γ : Type} {f : β × γ × State → α → β × γ × State} {l : List α} {q : β × γ × State}
    (h : q.2.2.Ids) (hf : ∀ t a, t.2.2.Ids → (f t a).2.2.Ids) : (l.foldl f q).2.2.Ids := by
  induction l generalizing q with
  | nil => exact h
  | cons a r ih => exact ih (hf q a h)
/-- The state of a pair that an equation gives. -/
theorem State.Ids.of_fst {q : State × β} {b : β} (h : q.1.Ids) (e : q = (s, b)) : s.Ids := by subst e; exact h
theorem State.Ids.of_sndSnd {γ : Type} {q : β × γ × State} {b : β} {c : γ} (h : q.2.2.Ids) (e : q = (b, c, s)) : s.Ids := by
  subst e
  exact h

theorem State.Ids.iteFst {a b : State × β} (h : a.1.Ids) (k : b.1.Ids) : (if p then a else b).1.Ids := by
  split
  · exact h
  · exact k
theorem State.Ids.iteSnd {a b : β × State} (h : a.2.Ids) (k : b.2.Ids) : (if p then a else b).2.Ids := by
  split
  · exact h
  · exact k
theorem State.Ids.iteSndSnd {γ : Type} {a b : β × γ × State} (h : a.2.2.Ids) (k : b.2.2.Ids) : (if p then a else b).2.2.Ids := by
  split
  · exact h
  · exact k
theorem MRes.Numbered.ite {a b : MRes α} (h : a.Numbered) (k : b.Numbered) : (if p then a else b).Numbered := by
  split
  · exact h
  · exact k
theorem JRes.Numbered.ite {a b : JRes α} (h : a.Numbered) (k : b.Numbered) : (if p then a else b).Numbered := by
  split
  · exact h
  · exact k
theorem Act.Numbered.ite {a b : Act} (h : a.Numbered) (k : b.Numbered) : (if p then a else b).Numbered := by
  split
  · exact h
  · exact k
theorem NextNumbered.ite {a b : Host.Outcome State Fault Refusal} (h : NextNumbered a) (k : NextNumbered b) :
    NextNumbered (if p then a else b) := by
  split
  · exact h
  · exact k

/-! ### The state of an answer that an equation gives -/

theorem MRes.Numbered.ok {r : MRes α} {v : α} (h : r.Numbered) (e : r = .ok s v) : s.Ids := by subst e; exact h
theorem MRes.Numbered.wait {r : MRes α} {w : Wait} (h : r.Numbered) (e : r = .wait s w) : s.Ids := by subst e; exact h
theorem MRes.Numbered.trap {r : MRes α} {n : Nat} {a : Word} (h : r.Numbered) (e : r = .trap s n a) : s.Ids := by subst e; exact h
theorem JRes.Numbered.ok {r : JRes α} {v : α} (h : r.Numbered) (e : r = .ok s v) : s.Ids := by subst e; exact h
theorem JRes.Numbered.busy {r : JRes α} {b : Bool} (h : r.Numbered) (e : r = .busy s b) : s.Ids := by subst e; exact h
theorem JRes.Numbered.hold {r : JRes α} {a : Nat} {b : Bool} (h : r.Numbered) (e : r = .hold s a b) : s.Ids := by subst e; exact h
theorem JRes.Numbered.fail {r : JRes α} {n : Nat} (h : r.Numbered) (e : r = .fail s n) : s.Ids := by subst e; exact h
theorem RunEnd.Numbered.done {r : RunEnd} (h : r.Numbered) (e : r = .done s) : s.Ids := by subst e; exact h
theorem RunEnd.Numbered.busy {r : RunEnd} {n : Nat} {b : Bool} (h : r.Numbered) (e : r = .busy s n b) : s.Ids := by subst e; exact h
theorem RunEnd.Numbered.hold {r : RunEnd} {n a : Nat} {b : Bool} (h : r.Numbered) (e : r = .hold s n a b) : s.Ids := by
  subst e
  exact h
theorem RunEnd.Numbered.fail {r : RunEnd} {n k : Nat} (h : r.Numbered) (e : r = .fail s n k) : s.Ids := by subst e; exact h
theorem Fetched.Numbered.instr {r : Fetched} {i : Instr} (h : r.Numbered) (e : r = .instr s i) : s.Ids := by subst e; exact h
theorem Fetched.Numbered.bad {r : Fetched} {n : Nat} (h : r.Numbered) (e : r = .bad s n) : s.Ids := by subst e; exact h
theorem Fetched.Numbered.trap {r : Fetched} {n : Nat} {a : Word} (h : r.Numbered) (e : r = .trap s n a) : s.Ids := by
  subst e
  exact h
theorem Fetched.Numbered.page {r : Fetched} {a : Nat} {b : Bool} (h : r.Numbered) (e : r = .page s a b) : s.Ids := by
  subst e
  exact h
theorem Fetched.Numbered.busy {r : Fetched} {b : Bool} (h : r.Numbered) (e : r = .busy s b) : s.Ids := by subst e; exact h
theorem Replay.Numbered.gone {r : Replay} (h : r.Numbered) (e : r = .gone s) : s.Ids := by subst e; exact h
theorem Replay.Numbered.failed {r : Replay} {n : Nat} (h : r.Numbered) (e : r = .failed s n) : s.Ids := by subst e; exact h
theorem RepScan.Numbered.page {r : RepScan} {a : Nat} {b : Bool} (h : r.Numbered) (e : r = .page s a b) : s.Ids := by
  subst e
  exact h
theorem RepScan.Numbered.busy {r : RepScan} {b : Bool} (h : r.Numbered) (e : r = .busy s b) : s.Ids := by subst e; exact h
theorem TexRes.Numbered.ok {r : TexRes} {x n l : Nat} (h : r.Numbered) (e : r = .ok s x n l) : s.Ids := by subst e; exact h
theorem TexRes.Numbered.wait {r : TexRes} {w : Wait} (h : r.Numbered) (e : r = .wait s w) : s.Ids := by subst e; exact h
theorem TexRes.Numbered.trap {r : TexRes} {n : Nat} (h : r.Numbered) (e : r = .trap s n) : s.Ids := by subst e; exact h
theorem ResidAct.Numbered.ends {r : ResidAct} {n : Nat} (h : r.Numbered) (e : r = .ends s n) : s.Ids := by subst e; exact h
theorem ResidAct.Numbered.begins {r : ResidAct} (h : r.Numbered) (e : r = .begins s) : s.Ids := by subst e; exact h

end

/-- The end of a run of reads, beside the list that it read. -/
def SegsNumbered (r : RunEnd × List Nat) : Prop := r.1.Numbered

end Sys2Proof.Machine
end

section
/-! PROOF. The groups' numbers stay apart (O60): the state, and the memory model's records. -/

namespace Sys2Proof.Machine

variable {s t : State} {g : Group} {c : Ctx} {j : Job} {i : Instr}

/-! ### Changing a part of the state -/

theorem State.Ids.wrBytes {key : Nat} {b : List Byte} (h : s.Ids) : (s.wrBytes key b).Ids := h
theorem State.Ids.wr {key n v : Nat} (h : s.Ids) : (s.wr key n v).Ids := h
/-- A group is new with the next number. -/
theorem State.Ids.newGroup (h : s.Ids) (e : t.groups = s.groups ++ [g]) (k : g.id = s.nextId) (n : t.nextId = s.nextId + 1) :
    t.Ids := by
  obtain ⟨hnodup, hbelow⟩ := h
  unfold State.Ids
  rw [e, n, List.map_append]
  refine ⟨List.nodup_append.2 ⟨hnodup, List.nodup_singleton _, ?_⟩, fun x hx => ?_⟩
  · intro a ha b hb
    obtain ⟨x, hx, rfl⟩ := List.mem_map.1 ha
    rw [List.mem_singleton.1 hb]
    exact ((hbelow x hx).trans_eq k.symm).ne
  · rcases List.mem_append.1 hx with hx | hx
    · exact (hbelow x hx).trans (Nat.lt_succ_self _)
    · rw [List.mem_singleton.1 hx, k]
      exact Nat.lt_succ_self _
/-- Groups end, and the next number may be passed over. -/
theorem State.Ids.fewer (h : s.Ids) (e : t.groups.Sublist s.groups) (n : s.nextId ≤ t.nextId) : t.Ids :=
  ⟨h.1.sublist (e.map _), fun g hg => (h.2 g (e.subset hg)).trans_le n⟩
/-- A change of every group that keeps its number keeps the list of the numbers. -/
theorem map_group_ids {l : List Group} {f : Group → Group} (hf : ∀ x, (f x).id = x.id) : (l.map f).map Group.id = l.map Group.id := by
  rw [List.map_map]
  exact List.map_congr_left fun x _ => hf x
theorem State.Ids.updGroup {gid : Nat} {f : Group → Group} (h : s.Ids) (hf : ∀ x, (f x).id = x.id := by exact fun _ => rfl) :
    (s.updGroup gid f).Ids :=
  h.of_ids (map_group_ids fun x => by split; exacts [hf x, rfl]) rfl
theorem State.Ids.updCtx {gid n : Nat} {f : Ctx → Ctx} (h : s.Ids) : (s.updCtx gid n f).Ids := h.updGroup
theorem State.Ids.updCore {n : Nat} {f : Core → Core} (h : s.Ids) : (s.updCore n f).Ids := h
theorem State.Ids.updCluster {n : Nat} {f : Cluster → Cluster} (h : s.Ids) : (s.updCluster n f).Ids := h
theorem State.Ids.setJobs {cl : Nat} {e : Eng} {q : List Job} (h : s.Ids) : (s.setJobs cl e q).Ids := h.updCluster
theorem State.Ids.updVf {n : Nat} {f : Vf → Vf} (h : s.Ids) : (s.updVf n f).Ids := h
theorem State.Ids.updLaunch {id : Nat} {f : Launch → Launch} (h : s.Ids) : (s.updLaunch id f).Ids := h

/-! ### A new context -/

theorem State.Ids.raiseLine {core line : Nat} (h : s.Ids) : (s.raiseLine core line).Ids := h.updCore
theorem State.Ids.tock (h : s.Ids) : s.tock.Ids := h

/-! ### The memory model's records (R296-R316) -/

theorem State.Ids.replaced {word tick : Nat} (h : s.Ids) : (s.replaced word tick).Ids := h
theorem State.Ids.settledWords {words : List Nat} (h : s.Ids) : (s.settledWords words).Ids := .ite h h
theorem State.Ids.noteWord {w : Who} {k : Kind} {die : Nat → Nat} {word : Nat} (h : s.Ids) : (State.noteWord w k die s word).Ids := by
  unfold State.noteWord
  extract_lets s1
  have h1 : s1.Ids := by
    cases k with
    | read => exact h
    | write => exact h.settledWords
    | atomic => exact h.replaced
    | tag => exact h.replaced
  exact .ite h1 h1
theorem State.Ids.noteWords {w : Who} {k : Kind} {words : List Nat} {die : Nat → Nat} (h : s.Ids) : (s.noteWords w k words die).Ids :=
  h.tock.foldl fun _ _ h1 => h1.noteWord

/-! ### Releases and acquires -/

theorem State.Ids.addRel {r : Rel} (h : s.Ids) : (s.addRel r).Ids := h
theorem State.Ids.acquireVar {gid num var n tick : Nat} {sc : Scope} (h : s.Ids) : (s.acquireVar gid num var n tick sc).Ids := by
  unfold State.acquireVar
  split
  · exact h
  · split
    · exact h.updCtx
    · exact h.updCtx
theorem State.Ids.noteEarlyAt {gid num var n tick : Nat} {place : Ctx → Nat} (h : s.Ids) :
    (s.noteEarlyAt gid num var n tick place).Ids := by
  unfold State.noteEarlyAt
  split
  · exact h
  · exact h.updCtx
theorem State.Ids.noteEarly {gid num var n tick : Nat} (h : s.Ids) : (s.noteEarly gid num var n tick).Ids := h.noteEarlyAt
theorem State.Ids.noteEarlyE {var n tick : Nat} (h : s.Ids) : (s.noteEarlyE g c var n tick).Ids := .ite h.noteEarlyAt h

/-! ### Writes over the fabric -/

theorem State.Ids.usesFabric {vf : Nat} (h : s.Ids) : (s.usesFabric vf).Ids := h
theorem State.Ids.sendFabric {w : FabWrite} (h : s.Ids) : (s.sendFabric w).Ids := h
theorem State.Ids.tellEnds {vf : Nat} {all : Bool} {l : List (Nat × Option Nat)} (h : s.Ids) : (s.tellEnds vf all l).Ids :=
  .ite h.sendFabric h

/-! ### The drop rule (R303) -/

theorem State.Ids.dropEntries {global : Bool} {p : Entry → Bool} (h : s.Ids) : (s.dropEntries global p).Ids := h

end Sys2Proof.Machine
end

section
/-! PROOF. The groups' numbers stay apart (O60): time, records, addresses, and the accesses of a stream. -/

namespace Sys2Proof.Machine

variable {s t : State} {g : Group} {c : Ctx} {j : Job} {i : Instr}

/-! ### The fault queue -/

theorem State.Ids.fqPut {vf : Nat} {data : List Byte} (h : s.Ids) : (s.fqPut vf data).Ids := h.settledWords.wrBytes.wr
theorem State.Ids.report {vf : Nat} {data : List Byte} (h : s.Ids) : (s.report vf data).Ids := .ite h (.ite h h.fqPut)
theorem State.Ids.inform {vf : Nat} {data : List Byte} (h : s.Ids) : (s.inform vf data).Ids := .ite h.wr h.fqPut
theorem drainList_numbered {l : List Pending} (h : s.Ids) : (drainList s l).Ids := by
  induction l generalizing s with
  | nil => exact h
  | cons x r ih => exact .ite (ih h) (ih h.fqPut)
theorem State.Ids.drainPending (h : s.Ids) : s.drainPending.Ids := by
  unfold State.drainPending
  split
  · exact h
  · exact drainList_numbered h

/-! ### Performance counters -/

theorem State.Ids.countOne {core ev n vf : Nat} {mode : Bool} {i : Fin 8} (h : s.Ids) : (State.countOne core ev n vf mode s i).Ids :=
  .ite (.ite h.updCore h.updCore.inform) h
theorem State.Ids.count {core ev n vf : Nat} {mode : Bool} (h : s.Ids) : (s.count core ev n vf mode).Ids := by
  unfold State.count
  split
  · exact h
  · exact .ite h (h.foldl fun _ _ h1 => h1.countOne)
theorem State.Ids.advance {n : Nat} (h : s.Ids) : (s.advance n).Ids :=
  .foldl (h.of_ids (map_group_ids fun _ => by split <;> rfl) rfl)
    fun _ _ h1 => .ite h1.count h1

/-! ### Migration counters -/

theorem State.Ids.nqPut {vf page count : Nat} {ovf : Bool} (h : s.Ids) : (s.nqPut vf page count ovf).Ids := h.wr.wr
theorem State.Ids.nqPending {vf : Nat} {b : Bool} (h : s.Ids) : (s.nqPending vf b).Ids := h.wr
theorem State.Ids.countPage {vf pa : Nat} (h : s.Ids) : (s.countPage vf pa).Ids := .ite (.ite (.nqPending h) (.nqPut h)) h

/-! ### Stores that the machine watches -/

theorem State.Ids.hookFq {old : State} {key n : Nat} {v : Nat × Vf} (h : s.Ids) : (old.hookFq key n s v).Ids := .ite h h
theorem State.Ids.hookNq {key n : Nat} {v : Nat × Vf} (h : s.Ids) : (State.hookNq key n s v).Ids := .ite h h
theorem State.Ids.hook {old : State} {key n : Nat} (h : s.Ids) : (s.hook old key n).Ids :=
  .drainPending (.foldl (h.foldl fun _ _ h1 => h1.hookFq) fun _ _ h2 => h2.hookNq)
theorem State.Ids.overCode {key : Nat} {b : List Byte} (h : s.Ids) : (s.overCode key b).Ids := .ite h h
theorem State.Ids.store {key : Nat} {b : List Byte} (h : s.Ids) : (s.store key b).Ids :=
  have h1 : (((s.overCode key b).wrBytes key b).hook s key b.length).Ids := h.overCode.wrBytes.hook
  .ite (h1.of_ids (map_group_ids fun _ => by unfold Group.storedTo; split <;> rfl) rfl) h1

/-! ### Translation -/

theorem State.Ids.keep {vf va e : Nat} {big : Bool} (h : s.Ids) : (s.keep vf va e big).Ids := .ite h h
theorem State.Ids.keepWalk {vf va : Nat} (h : s.Ids) : (s.keepWalk vf va).Ids := by
  unfold State.keepWalk
  split
  · exact h.keep
  · exact h

/-! ### Probes -/

theorem State.Ids.codeLine {key n : Nat} {e : Option Entry} {line : Nat} (h : s.Ids) : (State.codeLine key n e s line).Ids := h
theorem State.Ids.codeWrite {key n : Nat} {leaf : Option Nat} {e : Option Entry} (h : s.Ids) : (s.codeWrite key n leaf e).Ids :=
  .ite (h.foldl fun _ _ h1 => h1.codeLine) h
theorem State.Ids.noteSpot {w : Who} {k : Kind} {p : Spot} {n : Nat} (h : s.Ids) : (s.noteSpot w k p n).Ids := by
  unfold State.noteSpot
  split
  · exact h
  · exact .ite (.ite h.noteWords h.tock) (.codeWrite (.ite h.noteWords h.tock))

/-! ### Line metadata (R206, R207) -/

theorem State.Ids.pageLine {l : Line} (h : s.Ids) : (s.pageLine l).Ids := .ite h.countPage h
theorem State.Ids.putSlice {l : Line} (h : s.Ids) : (s.putSlice l).Ids := by
  unfold State.putSlice
  dsimp only
  split
  · exact h
  · exact .ite h (.pageLine h)
theorem State.Ids.sliceRead {l : Line} (h : s.Ids) : (s.sliceRead l).1.Ids := .iteFst h h.putSlice.pageLine
theorem State.Ids.sliceWrite {l : Line} (h : s.Ids) : (s.sliceWrite l).Ids := by
  unfold State.sliceWrite
  split
  · exact h.putSlice
  · exact h.putSlice
theorem State.Ids.sliceStore {l : Line} {part : BitVec 16} (h : s.Ids) : (s.sliceStore l part).Ids :=
  .sliceWrite (.ite h h.sliceRead)
theorem State.Ids.writeBack {l : Line} (h : s.Ids) : (s.writeBack l).Ids := .ite h h.sliceWrite
theorem State.Ids.sliceUse {u : Use} {l : Line} (h : s.Ids) : (s.sliceUse u l).1.Ids := by
  unfold State.sliceUse
  split
  · exact h.sliceRead
  · exact h.sliceStore
  · exact h.sliceRead.sliceWrite
theorem State.Ids.sliceTurn {mode : Bool} {u : Use} {l : Line} (h : s.Ids) : (s.sliceTurn g mode u l).Ids :=
  .ite h.sliceUse.count (.ite h.sliceUse.count h.sliceUse)
theorem State.Ids.putLine {core cap : Nat} {streaming : Bool} {l : Line} (h : s.Ids) : (s.putLine core cap streaming l).Ids :=
  h.updCore.foldl fun _ _ h1 => h1.writeBack
theorem State.Ids.cacheLoad {mode : Bool} {leaf : Nat} {l : Line} (h : s.Ids) : (s.cacheLoad g mode leaf l).Ids :=
  .ite h (.ite h.count.sliceTurn h.count.sliceTurn.putLine)
theorem State.Ids.storeMiss {mode : Bool} {leaf : Nat} {l : Line} (h : s.Ids) : (s.storeMiss g mode leaf l).Ids := .ite h h.count
theorem State.Ids.cacheStore {mode : Bool} {part : BitVec 16} {leaf : Nat} {l : Line} (h : s.Ids) :
    (s.cacheStore g mode part leaf l).Ids :=
  .ite (.sliceTurn (.ite h.storeMiss h.cacheLoad)) (.putLine (.ite h.storeMiss h.cacheLoad))
theorem State.Ids.cleanLine {core vf va : Nat} {drop : Bool} (h : s.Ids) : (s.cleanLine core vf va drop).Ids :=
  .updCore (h.foldl fun _ _ h1 => h1.writeBack)
theorem State.Ids.keepLines {core cap : Nat} (h : s.Ids) : (s.keepLines core cap).Ids := h.updCore.foldl fun _ _ h1 => h1.writeBack
theorem State.Ids.discard {p : Line → Bool} (h : s.Ids) : (s.discard p).Ids := h
theorem State.Ids.cleanSlices {p : Line → Bool} (h : s.Ids) : (s.cleanSlices p).Ids := h.foldl fun _ _ h1 => h1.pageLine
theorem State.Ids.flushLines {p : Line → Bool} (h : s.Ids) : (s.flushLines p).Ids :=
  .discard (.cleanSlices (h.foldl fun _ _ h1 => h1.writeBack))
theorem State.Ids.dropLines {key n : Nat} (h : s.Ids) : (s.dropLines key n).Ids := h.flushLines
theorem State.Ids.wsWritten {key n : Nat} (h : s.Ids) : (s.wsWritten key n).Ids := .ite h.dropLines h
theorem State.Ids.lines {p : Spot} {n : Nat} {isStore : Bool} (h : s.Ids) : (s.lines g c p n isStore).Ids := by
  unfold State.lines
  split
  · exact h.foldl fun _ _ h1 => .ite h1.cacheStore h1.cacheLoad
  · exact h
theorem State.Ids.touch {vf ptr : Nat} (h : s.Ids) : (s.touch vf ptr).Ids := .ite h h
theorem State.Ids.walked {ptr : Nat} (h : s.Ids) : (s.walked g c ptr).Ids := by
  unfold State.walked
  split
  · exact .ite h h.count.keep
  · exact h
theorem State.Ids.keepEntry {ea : Word} (h : s.Ids) : (s.keepEntry g c ea).Ids := .ite h h.updCtx
theorem State.Ids.tried {ea : Word} {n align : Nat} {right : Right} (h : s.Ids) : (s.tried g c ea n align right).Ids :=
  .ite h (.ite h.keepEntry.walked h.keepEntry)
theorem State.Ids.touchEa {ea : Word} (h : s.Ids) : (s.touchEa g ea).Ids := .ite h h.touch

/-! ### Loads and stores between the two streams (R197) -/

theorem readLocal_numbered {execute : Bool} {key n : Nat} (h : s.Ids) : (readLocal s g c execute key n).2.Ids :=
  .iteSnd h (.updCtx h)
theorem State.Ids.plainUnit {gid num key n : Nat} {r : Nat × Nat × State} {words : List Nat} (h : r.2.2.Ids) :
    (State.plainUnit gid num key n r words).2.2.Ids := by
  unfold State.plainUnit
  dsimp only
  split
  · exact h
  · exact .foldlSndSnd (.iteSnd h h) fun _ _ h1 => .iteSndSnd (.updCtx h1) (.updCtx h1)
theorem State.Ids.plainRead {gid num key n v : Nat} (h : s.Ids) : (s.plainRead gid num key n v).2.2.Ids :=
  .iteSndSnd h (.foldlSndSnd h fun _ _ h1 => .plainUnit h1)
theorem State.Ids.sawWords {gid num : Nat} {words : List Nat} (h : s.Ids) : (s.sawWords gid num words).Ids := h.updCtx

/-! ### Results of an access -/

theorem State.Ids.hold {execute : Bool} {va : Word} {malf : Bool} (h : s.Ids) : (s.hold g c execute va malf).Ids :=
  .ite h h.report.updCtx
theorem State.Ids.bankWaitA {bank : Bool} (h : s.Ids) : (s.bankWaitA g c bank).Ids := .ite h h.count
theorem State.Ids.bankWaitE {bank : Bool} (h : s.Ids) : (s.bankWaitE g c bank).Ids := .ite h h.count
theorem State.Ids.tailRead {key n : Nat} (h : s.Ids) : (s.tailRead g c key n).Ids := .ite h.updCtx h
theorem State.Ids.loadA {s0 : State} {ea : Word} {n align : Nat} {k : Kind} (h : s0.Ids) : (s0.loadA g c ea n align k).Numbered := by
  unfold State.loadA
  dsimp only
  split
  · exact h.tried
  · exact .ite h.tried h.tried.hold
  · split
    · exact h.tried
    · split
      · exact h.tried.bankWaitA
      · split
        · exact h.tried
        · split
          · exact h.tried
          · refine State.Ids.tailRead (.noteEarly (.iteSndSnd (.plainRead ?_) ?_))
            · exact .iteSnd (readLocal_numbered h.tried.noteSpot.lines.touchEa) h.tried.noteSpot.lines.touchEa
            · exact .iteSnd (readLocal_numbered h.tried.noteSpot.lines.touchEa) h.tried.noteSpot.lines.touchEa
theorem State.Ids.logStore {es : List LogEntry} {malf : Bool} (h : s.Ids) : (s.logStore g c es malf).Numbered :=
  .ite h (.ite h.updGroup.count.tock (.ite h h.report.updCtx))
theorem State.Ids.putSpot {execute : Bool} {p : Spot} {b : List Byte} {mask : Block} (h : s.Ids) :
    (s.putSpot g c execute p b mask).Ids := by
  unfold State.putSpot
  split
  · exact h.updCtx
  · exact .wsWritten (.store (.ite h.noteSpot.lines.updCtx h.noteSpot.lines))
theorem State.Ids.storeA {s0 : State} {ea : Word} {b : List Byte} (h : s0.Ids) : (s0.storeA g c ea b).Numbered := by
  unfold State.storeA
  dsimp only
  split
  · exact h.tried
  · exact h.tried.logStore
  · split
    · exact h.tried.logStore
    · split
      · exact h.tried
      · split
        · exact h.tried
        · exact h.tried.putSpot.touchEa

/-! ### Blocks of 512 bytes (R153, R157) -/

theorem State.Ids.triedParts {ea : Word} {n align : Nat} {right : Right} (h : s.Ids) : (s.triedParts g c ea n align right).Ids :=
  .ite h (h.foldl fun _ _ h1 => h1.tried)
theorem State.Ids.readPart {ea : Word} {acc : Nat × State} {x : Spot × Nat × Nat} (h : acc.2.Ids) :
    (State.readPart g c ea acc x).2.Ids := by
  unfold State.readPart
  dsimp only
  split
  · exact h
  · refine .tailRead (.noteEarly (.plainRead (.iteSnd (readLocal_numbered ?_) ?_)))
    · exact .touchEa (.lines (.noteSpot h))
    · exact .touchEa (.lines (.noteSpot h))
theorem State.Ids.loadParts {s0 : State} {ea : Word} {n align : Nat} (h : s0.Ids) : (s0.loadParts g c ea n align).Numbered := by
  unfold State.loadParts
  dsimp only
  split
  · exact h.triedParts
  · exact .ite h.triedParts h.triedParts.hold
  · exact h.triedParts
  · split
    · exact h.triedParts
    · split
      · exact h.triedParts.bankWaitA
      · split
        · exact h.triedParts
        · exact h.triedParts.foldlSnd fun _ _ h1 => .readPart h1
theorem State.Ids.loadBlock {ea : Word} (h : s.Ids) : (s.loadBlock g c ea).Numbered := by
  unfold State.loadBlock
  split
  · next e => exact h.loadParts.ok e
  · next e => exact h.loadParts.wait e
  · next e => exact h.loadParts.trap e
theorem State.Ids.load128 {p : Word} {align : Nat} (h : s.Ids) : (s.load128 g c p align).Numbered := by
  unfold State.load128
  split
  · next e => exact h.loadParts.ok e
  · next e => exact h.loadParts.wait e
  · next e => exact h.loadParts.trap e
theorem State.Ids.storeBlock {s0 : State} {ea : Word} {d : Block} (h : s0.Ids) : (s0.storeBlock g c ea d).Numbered := by
  unfold State.storeBlock
  dsimp only
  split
  · exact h.triedParts
  · exact h.triedParts.logStore
  · exact h.triedParts.logStore
  · split
    · exact h.triedParts.logStore
    · split
      · exact h.triedParts
      · split
        · exact h.triedParts
        · exact h.triedParts.foldl fun _ _ h1 => h1.putSpot.touchEa

end Sys2Proof.Machine
end

section
/-! PROOF. The groups' numbers stay apart (O60): CSRs, images, and engine jobs. -/

namespace Sys2Proof.Machine

variable {s t : State} {g : Group} {c : Ctx} {j : Job} {i : Instr}

/-! ### The CSRs (R324, R325) -/

theorem State.Ids.csrPut {n : Nat} {v : Word} (h : s.Ids) : (s.csrPut g c n v).Ids := by
  unfold State.csrPut
  split
  · exact h.updGroup
  · exact h.updGroup
  · exact h.updVf
  · exact h.updGroup
  · exact h.updVf
  · split
    · exact h.updCore
    · split
      · exact h.updCore
      · exact h.updCtx

/-! ### The context area (R330) -/

theorem State.Ids.moveRecords {gid src dst : Nat} (h : s.Ids) : (s.moveRecords gid src dst).Ids := .updGroup h
theorem State.Ids.saveScratch {area : Nat} {part : Bool} (h : s.Ids) : (s.saveScratch g area part).Ids := by
  unfold State.saveScratch
  dsimp only
  split
  · exact h
  · exact h.foldl fun _ _ h1 => h1.wrBytes
theorem State.Ids.saveImage {cause : Nat} {parked halted : Bool} (h : s.Ids) : (s.saveImage g cause parked halted).Ids :=
  .moveRecords (.updGroup (.saveScratch (h.foldl fun _ _ h1 => h1.wr)))
theorem State.Ids.saveRecord {gid i : Nat} (h : s.Ids) : (s.saveRecord gid i).Ids := by
  unfold State.saveRecord
  split
  · exact h
  · exact .ite h h.wr

/-! ### Restoring -/

theorem State.Ids.restoreShared {base n : Nat} (h : s.Ids) : (State.restoreShared base g s n).Ids := by
  unfold State.restoreShared
  dsimp only
  split
  · exact .ite h h.csrPut
  · exact h
theorem restoreBars_id (base : Nat) (x : Group) : (s.restoreBars base x).id = x.id := by simp only [State.restoreBars]
theorem restoreKeys_id (base : Nat) (x : Group) : (s.restoreKeys base x).id = x.id := by simp only [State.restoreKeys]
theorem restoreJobs_id (base : Nat) (x : Group) : (s.restoreJobs base x).id = x.id := by simp only [State.restoreJobs]
theorem restoreLog_id (base : Nat) (x : Group) : (s.restoreLog base x).id = x.id := by simp only [State.restoreLog]
theorem State.Ids.loadImage (h : s.Ids) : (s.loadImage g).Ids := by
  unfold State.loadImage
  extract_lets base scratch s1 core pm s2 area rest m s3 s4
  have h1 : s1.Ids := State.Ids.updGroup (s := { s with nextAgent := s.nextAgent + 11 }) h fun x => by
    rw [restoreLog_id, restoreJobs_id, restoreKeys_id, restoreBars_id]
  have h3 : s3.Ids := State.Ids.moveRecords (s := { s2 with mem := m }) h1
  exact .updGroup (h3.foldl fun _ _ h4 => h4.restoreShared)

/-! ### Engine jobs (R235-R237, R313) -/

theorem JRes.state_numbered {α : Type} {r : JRes α} (h : r.Numbered) : r.state.Ids := by
  unfold JRes.state
  split
  · exact h
  · exact h
  · exact h
  · exact h
theorem JRes.bind_numbered {α β : Type} {r : JRes α} {k : State → α → JRes β} (h : r.Numbered)
    (k1 : ∀ t a, t.Ids → (k t a).Numbered) :
    (r.bind k).Numbered := by
  unfold JRes.bind
  split
  · exact k1 _ _ h
  · exact h
  · exact h
  · exact h
theorem State.Ids.engWalked {ptr n : Nat} {right : Right} (h : s.Ids) : (s.engWalked j ptr n right).Ids := .ite h h.keepWalk
theorem State.Ids.jobPieces {w : Who} {k : Kind} {right : Right} {waits : Bool} {l : List (Nat × Nat)} (h : s.Ids) :
    (s.jobPieces j w k right waits l).Numbered := by
  induction l generalizing s with
  | nil => exact h
  | cons x r ih =>
    unfold State.jobPieces
    dsimp only
    split
    · exact h.engWalked
    · exact h.engWalked
    · split
      · exact h.engWalked
      · split
        · exact h.engWalked
        · exact JRes.bind_numbered (ih h.engWalked) fun _ _ h1 => h1
theorem State.Ids.jobSpots {w : Who} {k : Kind} {right : Right} {waits : Bool} {ps : List (Nat × Nat)} (h : s.Ids) :
    (s.jobSpots j w k right waits ps).Numbered :=
  JRes.bind_numbered h.jobPieces fun _ _ h1 => .ite h1 h1
theorem State.Ids.engLines {vf : Nat} {p : Spot} {n : Nat} {isStore : Bool} (h : s.Ids) : (s.engLines vf p n isStore).Ids := by
  unfold State.engLines
  split
  · exact h.foldl fun _ _ h1 => .ite h1.sliceStore h1.sliceRead
  · exact h
theorem State.Ids.engTouched {vf ptr n : Nat} (h : s.Ids) : (s.engTouched vf ptr n).Ids := .ite h (h.foldl fun _ _ h1 => h1.touch)
theorem State.Ids.engChanged {vf ptr : Nat} {p : Spot} {n : Nat} (h : s.Ids) : (s.engChanged vf ptr p n).Ids :=
  h.engLines.engLines.engTouched
theorem State.Ids.jobReadW {path ptr n : Nat} {waits : Bool} (h : s.Ids) : (s.jobReadW j path ptr n waits).Numbered := by
  unfold State.jobReadW
  refine JRes.bind_numbered h.jobSpots (fun _ _ h1 => ?_)
  show State.Ids _
  refine .engTouched ?_
  refine .foldlSnd h1 (fun _ _ h2 => ?_)
  split
  · exact h2
  · exact .engLines (.noteSpot h2)
theorem State.Ids.jobRead {path ptr n : Nat} (h : s.Ids) : (s.jobRead j path ptr n).Numbered := h.jobReadW
theorem State.Ids.jobReadN {path ptr n : Nat} (h : s.Ids) : (s.jobReadN j path ptr n).Numbered :=
  JRes.bind_numbered h.jobRead fun _ _ h1 => h1
theorem State.Ids.jobWrite {path ptr : Nat} {b : List Byte} (h : s.Ids) : (s.jobWrite j path ptr b).Numbered := by
  unfold State.jobWrite
  refine JRes.bind_numbered h.jobSpots (fun _ _ h1 => ?_)
  show State.Ids _
  refine .engTouched ?_
  refine .foldlSnd h1 (fun _ _ h2 => ?_)
  split
  · exact h2
  · exact .wsWritten (.store (.engLines (.noteSpot h2)))

/-! ### Completion of jobs -/

theorem State.Ids.completeJob {word : Word} (h : s.Ids) : (s.completeJob j word).Ids := by
  unfold State.completeJob
  dsimp only
  split
  · exact .updLaunch (h.foldl fun _ _ h1 => .ite h1 h1.updGroup.saveRecord.raiseLine)
  · exact h.foldl fun _ _ h2 => .ite h2 h2.updGroup.saveRecord.raiseLine
theorem State.Ids.setHead {cl : Nat} {e : Eng} (h : s.Ids) : (s.setHead cl e j).Ids := h.setJobs
theorem State.Ids.endJob {cl : Nat} {e : Eng} {word : Word} (h : s.Ids) : (s.endJob cl e j word).Ids := h.setHead
theorem State.Ids.holdJob {cl : Nat} {e : Eng} {path va : Nat} {malf : Bool} (h : s.Ids) : (s.holdJob cl e j path va malf).Ids :=
  .ite h.setHead h.report.setHead
theorem State.Ids.onHead {cl : Nat} {e : Eng} {cmd : Cmd} {f : State → Job → State} (h : s.Ids) (k1 : ∀ t j, t.Ids → (f t j).Ids) :
    (s.onHead cl e cmd f).Ids := by
  unfold State.onHead
  split
  · exact .ite (k1 _ _ h) h
  · exact h
theorem State.Ids.countJob {ev n : Nat} (h : s.Ids) : (s.countJob j ev n).Ids := by
  unfold State.countJob
  refine .foldl h (fun _ _ h1 => ?_)
  split
  · exact h1
  · exact .ite h1.count h1
theorem State.Ids.bankJob {cl : Nat} {e : Eng} {bank : Bool} (h : s.Ids) : (s.bankJob cl e j bank).Ids :=
  .setHead (.ite h h.countJob)
theorem State.Ids.headStep {α : Type} {cl : Nat} {e : Eng} {path : Nat} {r : JRes α} {k : State → α → State} (h : r.Numbered)
    (k1 : ∀ t a, t.Ids → (k t a).Ids) : (State.headStep cl e j path r k).Ids := by
  unfold State.headStep
  split
  · exact k1 _ _ h
  · exact .bankJob h
  · exact .holdJob h
  · exact .endJob h

/-! ### RASTER -/

theorem State.Ids.ptrCheck {ptr n : Nat} {right : Right} (h : s.Ids) : (s.ptrCheck j ptr n right).Numbered := by
  unfold State.ptrCheck
  dsimp only
  split
  · exact h.engWalked
  · exact h.engWalked
  · exact .ite h.engWalked h.engWalked
theorem State.Ids.rasterPtrs (h : s.Ids) : (s.rasterPtrs j).Numbered :=
  JRes.bind_numbered h.ptrCheck fun _ _ h1 => .ite h1 h1.ptrCheck
theorem State.Ids.readSegs {n i : Nat} {l : List Nat} (h : s.Ids) : (s.readSegs j n i l).1.Numbered := by
  show SegsNumbered (s.readSegs j n i l)
  delta State.readSegs
  refine brecOn_holds (motive := fun _ => State → Nat → List Nat → RunEnd × List Nat)
    (P := fun _ f => ∀ {s : State} {i : Nat} {l : List Nat}, s.Ids → SegsNumbered (f s i l)) (fun n b ih s i l h => ?_) n h
  refine matchNatNatList_holds (Q := SegsNumbered) ih (fun _ => h) ?_
  intro n b ih
  split
  · next e =>
    split
    · exact ih (h.jobReadN.ok e)
    · exact h.jobReadN.ok e
  · next e => exact h.jobReadN.busy e
  · next e => exact h.jobReadN.hold e
  · next e => exact h.jobReadN.fail e
theorem State.Ids.add32 {key : Nat} {v : ℤ} (h : s.Ids) : (s.add32 key v).Ids := h.wr
theorem State.Ids.countCapped {n : Nat} (h : s.Ids) : (s.countCapped j n).Numbered := by
  unfold State.countCapped
  dsimp only
  split
  · exact h
  · refine JRes.bind_numbered h.jobSpots (fun _ _ h1 => ?_)
    split
    · exact h1.noteSpot.engChanged.store
    · exact h1
theorem State.Ids.rasterAdd {cl : Nat} {segs : List Nat} (h : s.Ids) : (s.rasterAdd cl j segs).Numbered := by
  unfold State.rasterAdd
  dsimp only
  split
  · exact h.countCapped
  · split
    · exact h
    · exact JRes.bind_numbered h.countCapped fun _ _ h1 => State.Ids.noteWords (h1.foldl fun _ _ h2 => h2.add32)
theorem State.Ids.raster {cl : Nat} (h : s.Ids) : (s.raster cl).Ids := by
  unfold State.raster
  refine .onHead h (fun _ _ h1 => ?_)
  split
  · exact h1.endJob
  · refine .headStep (.ite h1.rasterPtrs h1) (fun _ _ h2 => ?_)
    split
    · next e => exact (h2.readSegs.busy (congrArg Prod.fst e)).bankJob
    · next e => exact (h2.readSegs.hold (congrArg Prod.fst e)).holdJob
    · next e => exact (h2.readSegs.fail (congrArg Prod.fst e)).endJob
    · next e => exact .headStep (h2.readSegs.done (congrArg Prod.fst e)).rasterAdd fun _ _ h3 => h3.endJob

end Sys2Proof.Machine
end

section
/-! PROOF. The groups' numbers stay apart (O60): fetching, and what every instruction shares. -/

namespace Sys2Proof.Machine

variable {s t : State} {g : Group} {c : Ctx} {j : Job} {i : Instr}

/-! ### Fetching (R96-R99) -/

theorem State.Ids.popHead {cl : Nat} {e : Eng} (h : s.Ids) : (s.popHead cl e).Ids := by
  unfold State.popHead
  split
  · exact h
  · next jb _ _ =>
    cases jb.phase with
    | done => exact h.setJobs.completeJob
    | queued =>
      cases jb.cmd
      case bad => exact .ite h h.setJobs.completeJob
      all_goals exact h
    | running => exact h
    | held => exact h
theorem State.Ids.fetchLine {p : Spot} (h : s.Ids) : (s.fetchLine g p).Ids := by
  unfold State.fetchLine
  split
  · exact h.sliceRead
  · exact h
/-- The state after parcels have been fetched, or the state with what stopped it. -/
def ParcelsNumbered : Except Fetched (List Parcel × State) → Prop
  | .ok r => r.2.Ids
  | .error x => x.Numbered
theorem ParcelsNumbered.ok {r : Except Fetched (List Parcel × State)} {l : List Parcel} (h : ParcelsNumbered r) (e : r = .ok (l, s)) :
    s.Ids := by subst e; exact h
theorem ParcelsNumbered.error {r : Except Fetched (List Parcel × State)} {x : Fetched} (h : ParcelsNumbered r) (e : r = .error x) :
    x.Numbered := by subst e; exact h
theorem State.Ids.fetchParcels {pc : Word} {n : Nat} (h : s.Ids) : ParcelsNumbered (s.fetchParcels g c pc n) := by
  induction n generalizing s pc with
  | zero => exact h
  | succ n ih =>
    unfold State.fetchParcels
    dsimp only
    split
    · exact h.tried
    · exact h.tried
    · exact h.tried
    · split
      · exact h.tried
      · split
        · next e => exact (ih h.tried.fetchLine.touchEa).ok e
        · next e => exact (ih h.tried.fetchLine.touchEa).error e
theorem State.Ids.fetch {pc : Word} (h : s.Ids) : (s.fetch g c pc).Numbered := by
  unfold State.fetch
  split
  · next e => exact h.fetchParcels.error e
  · next e =>
    have h1 := h.fetchParcels.ok e
    split
    · exact h1
    · split
      · next e => exact h1.fetchParcels.error e
      · next e =>
        split
        · exact h1.fetchParcels.ok e
        · exact h1.fetchParcels.ok e
theorem State.Ids.fetchSeq {n : Nat} {pc : Word} (h : s.Ids) : (s.fetchSeq g c n pc).Numbered := by
  unfold State.fetchSeq
  split
  · exact h
  · exact h.fetch
theorem State.Ids.noteCode {n : Nat} (h : s.Ids) : (s.noteCode g c n i).Ids := h.updCtx

/-! ### Where the streams stand (R119, R124, R167, R328) -/

theorem State.Ids.settle (h : s.Ids) : (s.settle g c).Ids := h.updCtx

/-! ### How an instruction ends (R118, R119, R136, R167) -/

theorem Act.raise_numbered {cause : Nat} (h : s.Ids) : (Act.raise s cause).Numbered := h
theorem Act.fail_numbered {cause : Nat} {ea : Word} (h : s.Ids) : (Act.fail s cause ea).Numbered := h
theorem Act.ofRes_numbered {α : Type} {r : MRes α} {k : State → α → Act} (h : r.Numbered)
    (k1 : ∀ t a, t.Ids → (k t a).Numbered) :
    (Act.ofRes r k).Numbered := by
  unfold Act.ofRes
  split
  · exact k1 _ _ h
  · exact h
  · exact Act.fail_numbered h
theorem Act.ofBlock_numbered {α : Type} {split : Bool} {r : MRes α} {k : State → α → Act} (h : r.Numbered)
    (k1 : ∀ t a, t.Ids → (k t a).Numbered) : (Act.ofBlock split r k).Numbered := by
  unfold Act.ofBlock
  split
  · exact .ite h (Act.fail_numbered h)
  · exact Act.ofRes_numbered h fun _ _ h1 => k1 _ _ h1

/-! ### Stopping a context and a group -/

theorem State.Ids.stopStreams {gid : Nat} {st : Stopping} (h : s.Ids) : (s.stopStreams gid st).Ids := by
  unfold State.stopStreams
  split
  · exact h
  · exact h.updGroup
theorem State.Ids.markDelayed {lid : Nat} (h : s.Ids) : (s.markDelayed lid).Ids := h.updLaunch
theorem State.Ids.finishStop {gid : Nat} (h : s.Ids) : (s.finishStop gid).Ids := by
  unfold State.finishStop
  split
  · exact h
  · split
    · exact h
    · split
      · exact h
      · dsimp only
        split
        · exact h.saveImage.updGroup.markDelayed.report
        · exact h.saveImage.updGroup
theorem State.Ids.stopGroup {gid : Nat} {st : Stopping} (h : s.Ids) : (s.stopGroup gid st).Ids := h.stopStreams.finishStop
theorem State.Ids.haltGroup {gid n cause : Nat} {addr pc : Word} (h : s.Ids) : (s.haltGroup gid n cause addr pc).Ids := by
  unfold State.haltGroup
  split
  · exact h
  · exact h.stopGroup

/-! ### Taking an exception -/

theorem State.Ids.takeTrap {gid n cause : Nat} {tval epc epce : Word} (h : s.Ids) : (s.takeTrap gid n cause tval epc epce).Ids := by
  unfold State.takeTrap
  dsimp only
  split
  · exact h.updCtx
  · exact .ite h.updCtx.updCtx.haltGroup h.updCtx.updCtx

/-! ### The two streams -/

theorem State.Ids.stalled {ev : Nat} {w : Wait} (h : s.Ids) : (s.stalled g c ev w).Ids := by
  unfold State.stalled
  split
  · exact h.count
  · exact h
theorem State.Ids.finishA {s0 : State} {a : Act} (h : s0.Ids) (h1 : a.Numbered) : (s0.finishA i g c a).Ids := by
  unfold State.finishA
  split
  · exact .count (.updCtx h1)
  · exact .count (.updCtx h1)
  · exact .count h1
  · exact .stalled (.updCtx h1)
  · exact .ite (.takeTrap (.updCtx h1)) h.updCtx
theorem finishE_numbered {a : Act} (h : a.Numbered) : (finishE i g c a).Ids := by
  unfold finishE
  split
  · exact .count (.updCtx h)
  · exact .count (.updCtx h)
  · exact .count h
  · exact .stalled (.updCtx h)
  · exact .ite (.takeTrap (.updCtx h)) (.takeTrap (.updCtx h))
theorem runA_numbered {f : State → Group → Ctx → Act} (h : s.Ids) (k1 : ∀ t g c, t.Ids → (f t g c).Numbered) :
    NextNumbered (runA i s f) := by
  unfold runA
  split
  · exact trivial
  · exact h.finishA (k1 _ _ _ h)
theorem runS_numbered {f : State → Group → Ctx → Act} (h : s.Ids) (k1 : ∀ t g c, t.Ids → (f t g c).Numbered) :
    NextNumbered (runS i s f) := by
  unfold runS
  split
  · exact trivial
  · exact .ite (h.finishA (k1 _ _ _ h.updCtx)) h.updCtx
theorem runE_numbered {f : State → Group → Ctx → Act} (h : s.Ids) (k1 : ∀ t g c, t.Ids → (f t g c).Numbered) :
    NextNumbered (runE i s f) := by
  unfold runE
  split
  · exact trivial
  · exact finishE_numbered (k1 _ _ _ h)
theorem supervisor_numbered {k : Act} (h : s.Ids) (h1 : k.Numbered) : (supervisor s c k).Numbered := .ite h1 (Act.raise_numbered h)
theorem controlOnly_numbered {k : Act} (h : s.Ids) (h1 : k.Numbered) : (controlOnly s c k).Numbered :=
  .ite h1 (Act.raise_numbered h)
theorem releaseGate_numbered {k : State → Act} (h : s.Ids) (k1 : ∀ t, t.Ids → (k t).Numbered) : (releaseGate s g c k).Numbered :=
  .ite h (.ite h.updCtx (k1 _ h))
theorem released_numbered {k : State → Nat → Act} (h : s.Ids) (k1 : ∀ t n, t.Ids → (k t n).Numbered) :
    (released s g c k).Numbered := by
  unfold released
  split
  · exact k1 _ _ h
  · exact releaseGate_numbered h fun _ h1 => k1 _ _ h1.updCtx

/-! ### Pre-emption and resumption -/

theorem State.Ids.resumeGroup {gid core : Nat} (h : s.Ids) : (s.resumeGroup gid core).Ids := by
  unfold State.resumeGroup
  dsimp only
  split
  · exact h.updGroup
  · split
    · exact h.updGroup.loadImage.keepLines
    · exact h.updGroup.loadImage

/-! ### Sources -/

theorem Act.failE_numbered {cause : Nat} {la : Word} (h : s.Ids) : (Act.failE s cause la).Numbered := h
theorem Act.ofS_numbered {α : Type} {r : SRes α} {k : State → α → Act} (h : s.Ids) (h1 : r.Numbered)
    (k2 : ∀ t a, t.Ids → (k t a).Numbered) : (Act.ofS s r k).Numbered := by
  unfold Act.ofS
  split
  · exact k2 _ _ h1
  · exact h
  · exact Act.failE_numbered h
theorem SRes.bind_numbered {α β : Type} {r : SRes α} {k : State → α → SRes β} (h : r.Numbered)
    (k1 : ∀ t a, t.Ids → (k t a).Numbered) :
    (r.bind k).Numbered := by
  unfold SRes.bind
  split
  · exact k1 _ _ h
  · exact trivial
  · exact trivial
theorem State.Ids.readE {p : Spot} {n : Nat} (h : s.Ids) : (s.readE g c p n).2.Ids := by
  unfold State.readE
  dsimp only
  split
  · exact h
  · exact .noteEarlyE (.plainRead (readLocal_numbered h.noteSpot))
theorem State.Ids.kRead {c0 : Ctx} {k : BitVec 3} (h : s.Ids) : (s.kRead g c0 k).Numbered := by
  unfold State.kRead
  dsimp only
  split
  · exact trivial
  · exact h.readE.updCtx
theorem State.Ids.vSrc {c0 : Ctx} {src : BitVec 4} {reg : BitVec 5} (h : s.Ids) : (s.vSrc g c0 src reg).Numbered := by
  unfold State.vSrc
  dsimp only
  split
  · exact h
  · split
    · exact h.kRead
    · split
      · exact trivial
      · exact h.updCtx
theorem State.Ids.q7Src {c0 : Ctx} (h : s.Ids) : (s.q7Src g c0).Numbered := by
  unfold State.q7Src
  dsimp only
  split
  · exact trivial
  · exact h.updCtx
theorem State.Ids.q6Room {c0 : Ctx} {k : Act} (h : s.Ids) (h1 : k.Numbered) : (s.q6Room g c0 k).Numbered := .ite h h1

/-! ### Guards and maps -/

theorem vRun_numbered {op : Nat} {e0 : EArgs} {sizes : Ctx → EArgs → Nat × Nat × Nat}
    {body : EShape → EArgs → State → Group → Ctx → Act} (h : s.Ids) (k1 : ∀ sh e t g c, t.Ids → (body sh e t g c).Numbered) :
    NextNumbered (vRun i op e0 s sizes body) := by
  unfold vRun
  refine runE_numbered h (fun _ _ _ h1 => ?_)
  split
  · exact Act.raise_numbered h1
  · exact .ite (Act.raise_numbered h1) (.ite (Act.raise_numbered h1) (.ite (Act.raise_numbered h1) (k1 _ _ _ _ _ h1)))
theorem readAB_numbered {sh : EShape} {e : EArgs} {t : ETy} (h : s.Ids) : (readAB s g c sh e t).Numbered := by
  unfold readAB
  refine SRes.bind_numbered h.vSrc (fun _ _ h1 => ?_)
  split
  · exact SRes.bind_numbered h1.vSrc fun _ _ h2 => h2
  · exact h1
theorem vMap_numbered {op : Nat} {e0 : EArgs} {f : ETy → ETy → Nat → Nat → Nat → Nat → Nat × Flags} (h : s.Ids) :
    NextNumbered (vMap i op e0 s f) :=
  vRun_numbered h fun _ _ _ _ _ h1 => Act.ofS_numbered h1 (readAB_numbered h1) fun _ _ h2 => h2.updCtx

end Sys2Proof.Machine
end

section
/-! PROOF. The groups' numbers stay apart (O60): classes A and X. -/

namespace Sys2Proof.Machine

variable {s t : State} {g : Group} {c : Ctx} {j : Job} {i : Instr}

/-! ### Class A: arithmetic (R138-R142) -/

theorem alu_numbered {d a : BitVec 5} {b : OpB} {f : Word → Word → Word} (h : s.Ids) : NextNumbered (alu i d a b s f) :=
  runA_numbered h fun _ _ _ h1 => h1.updCtx
theorem alu3_numbered {d a b : BitVec 5} {f : Word → Word → Word → Word} (h : s.Ids) : NextNumbered (alu3 i d a b s f) :=
  runA_numbered h fun _ _ _ h1 => h1.updCtx
theorem execNop_numbered {f : NopForm} (h : s.Ids) : NextNumbered (execNop f s) := runA_numbered h fun _ _ _ h1 => h1
theorem execLi_numbered {hi : Bool} {d : BitVec 5} {v : Imm} (h : s.Ids) : NextNumbered (execLi hi d v s) :=
  runA_numbered h fun _ _ _ h1 => h1.updCtx
theorem execLia_numbered {d : BitVec 5} {v : Imm} (h : s.Ids) : NextNumbered (execLia d v s) :=
  runA_numbered h fun _ _ _ h1 => h1.updCtx
theorem execMac_numbered {d a : BitVec 5} {b : OpB} (h : s.Ids) : NextNumbered (execMac d a b s) :=
  runA_numbered h fun _ _ _ h1 => h1.updCtx

/-! ### Class A: control flow (R143-R147) -/

theorem flowTo_numbered {cont : Word} {vmask : BitVec 32} {f : Ctx → Ctx} (h : s.Ids) : (flowTo s g c cont vmask f).Numbered :=
  .ite h h.updCtx
theorem branch_numbered {off : BitVec 23} {taken : Ctx → Bool} (h : s.Ids) : NextNumbered (branch i off s taken) :=
  runA_numbered h fun _ _ _ h1 => flowTo_numbered h1
theorem jumpTo_numbered {t : Word} {vmask : BitVec 32} {f : Ctx → Ctx} (h : s.Ids) : (jumpTo s g c t vmask f).Numbered :=
  .ite (Act.raise_numbered h) (flowTo_numbered h)
theorem execJ_numbered {a : BitVec 5} (h : s.Ids) : NextNumbered (execJ a s) := runA_numbered h fun _ _ _ h1 => jumpTo_numbered h1
theorem execCall_numbered {d a : BitVec 5} (h : s.Ids) : NextNumbered (execCall d a s) :=
  runA_numbered h fun _ _ _ h1 => jumpTo_numbered h1
theorem execCallLabel_numbered {d : BitVec 5} {off : BitVec 23} (h : s.Ids) : NextNumbered (execCallLabel d off s) :=
  runA_numbered h fun _ _ _ h1 => jumpTo_numbered h1
theorem execRet_numbered {a : BitVec 5} (h : s.Ids) : NextNumbered (execRet a s) :=
  runA_numbered h fun _ _ _ h1 => jumpTo_numbered h1
theorem execLoop_numbered {d : BitVec 5} {off : BitVec 23} (h : s.Ids) : NextNumbered (execLoop d off s) :=
  runA_numbered h fun _ _ _ h1 => flowTo_numbered h1
theorem execBqe_numbered {z : Bool} {d : BitVec 5} {off : BitVec 23} (h : s.Ids) : NextNumbered (execBqe z d off s) := by
  unfold execBqe
  refine runA_numbered h (fun _ _ _ h1 => ?_)
  split
  · exact h1
  · exact flowTo_numbered (.ite h1 h1.updCtx)
theorem execYield_numbered (h : s.Ids) : NextNumbered (execYield s) := runA_numbered h fun _ _ _ h1 => h1

/-! ### Class A: loads, stores, queues and caches (R148-R162) -/

theorem scalarLoad_numbered {w : LdW} {d : BitVec 5} {ea : Ctx → Word} (h : s.Ids) : NextNumbered (scalarLoad i w d s ea) :=
  runA_numbered h fun _ _ _ h1 => Act.ofRes_numbered h1.loadA fun _ _ h2 => h2.updCtx
theorem scalarStore_numbered {w : StW} {d : BitVec 5} {ea : Ctx → Word} (h : s.Ids) : NextNumbered (scalarStore i w d s ea) :=
  runA_numbered h fun _ _ _ h1 => Act.ofRes_numbered h1.storeA fun _ _ h2 => h2
theorem blockLoad_numbered {q : BitVec 2} {ea : Ctx → Word} (h : s.Ids) : NextNumbered (blockLoad i q s ea) := by
  unfold blockLoad
  refine runA_numbered h (fun _ _ _ h1 => ?_)
  dsimp only
  split
  · exact .ite h1.updCtx h1.updCtx
  · exact Act.ofBlock_numbered h1.loadBlock fun _ _ h2 => .ite h2.updCtx h2.updCtx
theorem blockStore_numbered {q5 : Bool} {ea : Ctx → Word} (h : s.Ids) : NextNumbered (blockStore i q5 s ea) := by
  unfold blockStore
  refine runA_numbered h (fun _ _ _ h1 => ?_)
  dsimp only
  split
  · exact h1
  · exact Act.ofBlock_numbered h1.storeBlock fun _ _ h2 => h2.updCtx
theorem execPfx_numbered {cl : Bool} {a : BitVec 5} {b : OpBSM} (h : s.Ids) : NextNumbered (execPfx cl a b s) :=
  runA_numbered h fun _ _ _ h1 => h1
theorem execPushq_numbered {a : BitVec 5} (h : s.Ids) : NextNumbered (execPushq a s) :=
  runA_numbered h fun _ _ _ h1 => .ite h1 h1.updCtx
theorem execPopq_numbered {d : BitVec 5} (h : s.Ids) : NextNumbered (execPopq d s) := by
  unfold execPopq
  refine runA_numbered h (fun _ _ _ h1 => ?_)
  split
  · exact h1
  · exact h1.updCtx
theorem execQstat_numbered {d : BitVec 5} {q : Option (BitVec 3)} (h : s.Ids) : NextNumbered (execQstat d q s) :=
  runA_numbered h fun _ _ _ h1 => h1.updCtx
theorem cacheLine_numbered {a : BitVec 5} {b : OpBSM} {drop : Bool} (h : s.Ids) : NextNumbered (cacheLine i a b drop s) :=
  runA_numbered h fun _ _ _ h1 => .ite h1 (.ite (.ite (Act.fail_numbered h1) h1)
    (.ite (Act.fail_numbered h1.keepEntry) h1.keepEntry.cleanLine))

/-! ### Read-modify-writes -/

theorem State.Ids.homeTurn {p : Spot} {n : Nat} {use : Use} (h : s.Ids) : (s.homeTurn g c p n use).Ids := by
  unfold State.homeTurn
  split
  · exact h.foldl fun _ _ h1 => h1.sliceTurn
  · exact h
theorem State.Ids.passedLocal {key n : Nat} (h : s.Ids) : (s.passedLocal g c key n).Ids := .ite h h.updCtx
theorem State.Ids.actAt {w : Who} {p : Spot} {n : Nat} {op : LogOp} {operand : Nat} (h : s.Ids) :
    (s.actAt g c w p n op operand).1.Ids := by
  unfold State.actAt
  dsimp only
  split
  · exact h
  · split
    · exact h.noteSpot.sawWords.passedLocal.homeTurn
    · exact .wsWritten (.store (.homeTurn (.ite h.noteSpot.sawWords.updCtx h.noteSpot.sawWords)))
theorem State.Ids.relAt {agent tag : Nat} {sc : Scope} {var : Nat} (h : s.Ids) : (s.relAt g agent tag sc var).Ids := h.addRel
theorem State.Ids.relOp {agent : Nat} {rel : Option (Scope × Nat)} {key : Nat} (h : s.Ids) : (s.relOp g agent rel key).Ids := by
  unfold State.relOp
  split
  · exact h.relAt
  · exact h
theorem State.Ids.atomicA {s0 : State} {ea : Word} {n : Nat} {right : Right} {op : LogOp} {operand : Nat} {logs relaxed : Bool}
    {rel : Option Scope} (h : s0.Ids) : (s0.atomicA g c ea n right op operand logs relaxed rel).Numbered := by
  unfold State.atomicA
  dsimp only
  split
  · exact h.tried
  · split
    · split
      · next e => exact State.Ids.ite (h.tried.logStore.ok e).updCtx (h.tried.logStore.ok e)
      · next e => exact h.tried.logStore.wait e
      · next e => exact h.tried.logStore.trap e
    · exact .ite h.tried h.tried.hold
  · split
    · split
      · split
        · next e => exact State.Ids.ite (h.tried.logStore.ok e).updCtx (h.tried.logStore.ok e)
        · next e => exact h.tried.logStore.wait e
        · next e => exact h.tried.logStore.trap e
      · exact h.tried
    · split
      · exact h.tried
      · split
        · exact h.tried
        · split
          · exact h.tried
          · refine State.Ids.ite (.relOp (.touchEa ?_)) (.touchEa ?_)
            · exact .ite (.updCtx (.actAt (.ite h.tried.noteEarly h.tried))) (.actAt (.ite h.tried.noteEarly h.tried))
            · exact .ite (.updCtx (.actAt (.ite h.tried.noteEarly h.tried))) (.actAt (.ite h.tried.noteEarly h.tried))
theorem atomicX_numbered {ea : Ctx → Word} {n : Nat} {right : Right} {op : Ctx → LogOp} {operand : Ctx → Nat} {logs : Bool}
    {rel acq : Option Scope} {fin : Nat → Ctx → Ctx} (h : s.Ids) :
    NextNumbered (atomicX i s ea n right op operand logs rel acq fin) := by
  unfold atomicX
  refine runA_numbered h (fun _ _ _ h1 => ?_)
  dsimp only
  split
  · refine Act.ofRes_numbered h1.atomicA (fun _ _ h2 => ?_)
    split
    · exact h2
    · split
      · exact h2.updCtx.acquireVar
      · exact h2.updCtx
  · refine releaseGate_numbered h1 (fun _ h3 => ?_)
    refine Act.ofRes_numbered h3.atomicA (fun _ _ h4 => ?_)
    split
    · exact h4
    · split
      · exact h4.updCtx.acquireVar
      · exact h4.updCtx
theorem amoX_numbered {w64 : Bool} {op : AmoOp} {o : MemOrd} {sc : Scope} {d a b : BitVec 5} (h : s.Ids) :
    NextNumbered (amoX i w64 op o sc d a b s) :=
  atomicX_numbered h
theorem casX_numbered {w64 : Bool} {o : MemOrd} {sc : Scope} {d a b : BitVec 5} (h : s.Ids) : NextNumbered (casX i w64 o sc d a b s) :=
  atomicX_numbered h
theorem waccX_numbered {a b : BitVec 5} {w : Ctx → ℤ} (h : s.Ids) : NextNumbered (waccX i a b w s) := atomicX_numbered h
theorem execLdacq_numbered {w64 : Bool} {sc : Scope} {d a : BitVec 5} {b : OpBSM} (h : s.Ids) :
    NextNumbered (execLdacq w64 sc d a b s) := by
  unfold execLdacq
  refine runA_numbered h (fun _ _ _ h1 => ?_)
  refine Act.ofRes_numbered h1.loadA (fun _ _ h2 => ?_)
  dsimp only
  split
  · exact h2.updCtx.acquireVar
  · exact h2.updCtx.updCtx

/-! ### Replay of the side log (R221, R222, R304) -/

theorem State.Ids.replayEntry {s0 : State} {e : LogEntry} (h : s0.Ids) : (s0.replayEntry g e).Numbered := by
  unfold State.replayEntry
  split
  · exact h
  · dsimp only
    split
    · split
      · exact trivial
      · exact trivial
    · exact h.walked
    · split
      · exact trivial
      · split
        · exact h.walked
        · split
          · exact State.Ids.ite (.relOp (.ite h.walked.actAt.touchEa.noteEarly h.walked.actAt.touchEa))
              (.ite h.walked.actAt.touchEa.noteEarly h.walked.actAt.touchEa)
          · exact h.walked.actAt.touchEa

/-! ### Fences -/

theorem State.Ids.acquireEarly {sc : Scope} {l : List EarlyRead} (h : s.Ids) : (s.acquireEarly g c sc l).Ids := by
  unfold State.acquireEarly
  refine .foldl h (fun _ _ h1 => ?_)
  split
  · exact h1.updCtx
  · exact h1
theorem execFence_numbered {sc : Scope} (h : s.Ids) : NextNumbered (execFence sc s) :=
  runA_numbered h fun _ _ _ h1 => releaseGate_numbered h1 fun _ h2 => h2.updCtx.acquireEarly.updCtx
theorem execXfence_numbered {src dst : BitVec 8} (h : s.Ids) : NextNumbered (execXfence src dst s) :=
  runA_numbered h fun _ _ _ h1 => State.Ids.updCtx h1

/-! ### Barriers -/

theorem State.Ids.updBarrier {id : BarId} {f : Barrier → Barrier} (h : s.Ids) : (s.updBarrier id f).Ids := .ite h h
theorem State.Ids.countArrival {sc : Scope} (h : s.Ids) : (s.countArrival g c sc).Ids := by
  unfold State.countArrival
  split
  · exact h.updCtx
  · exact h.updCtx
  · exact h.updGroup
theorem State.Ids.arrive {sc : Scope} {id : BarId} {value : Option Word} (h : s.Ids) : (s.arrive g c sc id value).Ids :=
  h.updCtx.updBarrier.countArrival
theorem State.Ids.endWait {id : BarId} {p : Nat} (h : s.Ids) : (s.endWait g c id p).Ids := h.updCtx
theorem waitPhase_numbered {id : BarId} {p : Nat} {fin : List Arrival → Ctx → Ctx} (h : s.Ids) : (waitPhase s g c id p fin).Numbered :=
  .ite h.endWait.updCtx h
theorem withBarrier_numbered {sc : Scope} {k : BarId → Act} (h : s.Ids) (k1 : ∀ id, (k id).Numbered) :
    (withBarrier s g c sc k).Numbered := by
  unfold withBarrier
  split
  · exact Act.raise_numbered h
  · split
    · exact Act.raise_numbered h
    · exact k1 _
theorem barX_numbered {sc : Scope} {value : Ctx → Option Word} {ln : Ctx → Ctx} {fin : List Arrival → Ctx → Ctx} (h : s.Ids) :
    NextNumbered (barX i sc value ln fin s) := by
  unfold barX
  refine runA_numbered h (fun _ _ _ h1 => ?_)
  split
  · exact h1.countArrival.updCtx
  · refine withBarrier_numbered h1 (fun _ => ?_)
    split
    · exact waitPhase_numbered h1
    · exact releaseGate_numbered h1 fun _ h2 => waitPhase_numbered h2.arrive.updCtx
theorem execBarwArr_numbered {sc : Scope} {d : BitVec 5} (h : s.Ids) : NextNumbered (execBarwArr sc d s) :=
  runA_numbered h fun _ _ _ h1 => .ite h1.countArrival.updCtx (withBarrier_numbered h1 fun _ => releaseGate_numbered h1 fun _ h2 =>
    h2.arrive.updCtx)
theorem execBarwWt_numbered {sc : Scope} {a : BitVec 5} (h : s.Ids) : NextNumbered (execBarwWt sc a s) :=
  runA_numbered h fun _ _ _ h1 => .ite (.ite (Act.raise_numbered h1) h1.updCtx)
    (withBarrier_numbered h1 fun _ => .ite (Act.raise_numbered h1) (waitPhase_numbered h1))

/-! ### Event lines -/

theorem execWfe_numbered {d a : BitVec 5} (h : s.Ids) : NextNumbered (execWfe d a s) :=
  runA_numbered h fun _ _ _ h1 => .ite h1.updCtx (.ite h1.updCtx h1.updCore.updGroup.updCtx)
theorem execSev_numbered {a b : BitVec 5} (h : s.Ids) : NextNumbered (execSev a b s) :=
  runA_numbered h fun _ _ _ h1 => .ite (Act.raise_numbered h1) (.ite h1.raiseLine (Act.raise_numbered h1))

/-! ### The device clock -/

theorem execPhcrd_numbered {sec : Bool} {d : BitVec 5} (h : s.Ids) : NextNumbered (execPhcrd sec d s) :=
  runA_numbered h fun _ _ _ h1 => h1.updCtx
theorem State.Ids.flagStore {w : Who} {vf : Nat} {bndt : Word} {loc : Loc} {tag : Nat} {ptr : Word} {b : List Byte} (h : s.Ids) :
    (s.flagStore w vf bndt loc tag ptr b).Ids := by
  unfold State.flagStore
  dsimp only
  split
  · exact h
  · split
    · split
      · exact h.keepWalk
      · exact h.keepWalk.noteSpot.engLines.store.engTouched.addRel
    · exact h
theorem State.Ids.trelStore {t : Trel} {due : Nat} {e : Nat × Word × Word} (h : s.Ids) : (State.trelStore t due s e).Ids :=
  .ite h.flagStore h.sendFabric
theorem State.Ids.trelAll {t : Trel} {due : Nat} (h : s.Ids) : (s.trelAll t due).Ids := h.foldl fun _ _ h1 => h1.trelStore
theorem State.Ids.arm {t : Trel} (h : s.Ids) : (s.arm t).Ids := h.trelAll
theorem State.Ids.trelNow {t : Trel} (h : s.Ids) : (s.trelNow t).Ids := .ite h.arm h.trelAll
theorem State.Ids.trelList {ea : Word} {n : Nat} (h : s.Ids) : (s.trelList g c ea n).Numbered := by
  delta State.trelList
  refine brecOn_holds (motive := fun _ => State → Ctx → MRes Unit)
    (P := fun _ f => ∀ {s : State} {c : Ctx}, s.Ids → (f s c).Numbered) (fun n b ih s c h => ?_) n h
  refine matchNat_holds (Q := MRes.Numbered (α := Unit)) ih ?_ ?_
  · exact fun _ => h
  intro n b ih
  split
  · next e => exact h.loadA.wait e
  · next e => exact h.loadA.trap e
  · next e => exact ih (h.loadA.ok e).updCtx
theorem execTrel_numbered {n d a b : BitVec 5} (h : s.Ids) : NextNumbered (execTrel n d a b s) :=
  runA_numbered h fun _ _ _ h1 => .ite (Act.raise_numbered h1) (released_numbered h1 fun _ _ h2 =>
    Act.ofRes_numbered h2.trelList fun _ _ h3 => .ite (Act.raise_numbered h3) (.ite h3 (.ite h3.trelNow.updCtx h3.arm.updCtx)))

end Sys2Proof.Machine
end

section
/-! PROOF. The groups' numbers stay apart (O60): queues, counters, keys, and the copy units. -/

namespace Sys2Proof.Machine

variable {s t : State} {g : Group} {c : Ctx} {j : Job} {i : Instr}

/-! ### Virtual memory as queue managers and engines reach it -/

theorem State.Ids.vUsePage {vf : Nat} {store : Bool} {x : Nat × Nat} (h : s.Ids) : (State.vUsePage vf store s x).Ids := by
  unfold State.vUsePage
  split
  · exact h.keepWalk.engLines.engTouched
  · exact h
theorem State.Ids.vUse {vf ptr n : Nat} {store : Bool} (h : s.Ids) : (s.vUse vf ptr n store).Ids :=
  h.foldl fun _ _ h1 => h1.vUsePage
theorem State.Ids.vUses {l : VReads} (h : s.Ids) : (s.vUses l).Ids := h.foldl fun _ _ h1 => h1.vUse
theorem State.Ids.vPut {vf ptr : Nat} {b : List Byte} (h : s.Ids) : (s.vPut vf ptr b).Ids := by
  unfold State.vPut
  split
  · exact h.vUse.settledWords.store
  · exact h
theorem State.Ids.vWr {vf ptr : Nat} {b : List Byte} (h : s.Ids) : (s.vWr vf ptr b).Ids := .ite h.vPut h.vPut.vPut

/-! ### Launch queues -/

theorem State.Ids.setTag {vf ptr st : Nat} (h : s.Ids) : (s.setTag vf ptr st).Ids := by
  unfold State.setTag
  split
  · exact h.vUse.replaced.store
  · exact h
theorem State.Ids.notePublish {key : Nat} {covers : List Acq} (h : s.Ids) : (s.notePublish key covers).Ids := h

/-! ### Dependence counters -/

theorem State.Ids.submitCounter {vf key addr : Nat} {covers : List Acq} (h : s.Ids) : (s.submitCounter vf key addr covers).Ids := h
theorem State.Ids.putCount {vf key addr n : Nat} {covers : List Acq} (h : s.Ids) : (s.putCount vf key addr n covers).Ids :=
  .ite h.store.submitCounter h.store
theorem State.Ids.qPublish {vf n : Nat} {q : QHead} {data : List Byte} {covers : List Acq} (h : s.Ids)
    (e : s.qPublish vf q data covers = some (n, t)) : t.Ids := by
  unfold State.qPublish at e
  dsimp only at e
  split at e
  · cases e
  · cases e
    exact h.wr.vWr.setTag.tock.notePublish
theorem State.Ids.counterSubmit {i : Nat} (h : s.Ids) : (s.counterSubmit i).Ids := by
  unfold State.counterSubmit
  split
  · exact h
  · dsimp only
    split
    · exact h
    · refine .ite h (.ite h ?_)
      split
      · exact h
      · next e =>
        refine .foldl (State.Ids.qPublish (.vUse ?_) e) fun _ _ h1 => h1.addRel
        exact h

/-! ### Section keys -/

theorem State.Ids.updKey {k : Nat} {f : KeySt → KeySt} (h : s.Ids) : (s.updKey k f).Ids := h
theorem State.Ids.grantKey {k : Nat} (h : s.Ids) : (s.grantKey k).Ids := by
  unfold State.grantKey
  split
  · exact h
  · exact h.updKey
theorem execOrderedSectionGrant_numbered {i : Nat} (h : s.Ids) : NextNumbered (execOrderedSectionGrant i s) := by
  unfold execOrderedSectionGrant
  show State.Ids _
  split
  · exact h.grantKey
  · exact h
theorem State.Ids.freeKey {gid k : Nat} {abandon : Bool} (h : s.Ids) : (s.freeKey gid k abandon).Ids := h.updGroup.updKey
theorem State.Ids.abandonKeys {rel : Option (Nat × Nat)} {sc : Scope} (h : s.Ids) : (s.abandonKeys g rel sc).Ids := by
  unfold State.abandonKeys
  refine .updGroup ?_
  refine .foldl h (fun _ _ h1 => ?_)
  dsimp only
  split
  · exact h1.freeKey.inform.relAt
  · exact h1.freeKey.inform

/-! ### COPY -/

theorem State.Ids.sendRow {cl dst : Nat} {b : List Byte} (h : s.Ids) : (s.sendRow cl j dst b).Ids := h.sendFabric.setHead
theorem State.Ids.copyRow {r : Nat} (h : s.Ids) : (s.copyRow j r).Numbered := JRes.bind_numbered h.jobRead fun _ _ h1 => h1.jobWrite
theorem State.Ids.copyRows {n r : Nat} (h : s.Ids) : (s.copyRows j n r).Numbered := by
  induction n generalizing s r with
  | zero => exact h
  | succ n ih =>
    unfold State.copyRows
    split
    · next e => exact ih (h.copyRow.ok e)
    · next e => exact h.copyRow.busy e
    · next e => exact h.copyRow.hold e
    · next e => exact h.copyRow.fail e
theorem State.Ids.barredRow {n r : Nat} (h : s.Ids) : (s.barredRow j n r).1.Ids := by
  induction n generalizing s r with
  | zero => exact h
  | succ n ih =>
    unfold State.barredRow
    dsimp only
    split
    · exact JRes.state_numbered h.jobSpots
    · exact JRes.state_numbered (State.Ids.jobSpots (JRes.state_numbered h.jobSpots))
    · exact JRes.state_numbered (State.Ids.jobSpots (JRes.state_numbered h.jobSpots))
    · exact ih (JRes.state_numbered (State.Ids.jobSpots (JRes.state_numbered h.jobSpots)))
theorem State.Ids.publishSlot {path ptr : Nat} (h : s.Ids) : (s.publishSlot j path ptr).Numbered := by
  unfold State.publishSlot
  refine JRes.bind_numbered h.jobSpots (fun _ _ h1 => ?_)
  split
  · exact .ite h1.engLines.engTouched h1.noteSpot.engChanged.store.addRel.notePublish
  · exact h1
theorem State.Ids.copyHere {cl : Nat} (h : s.Ids) : (s.copyHere cl j).Ids := by
  unfold State.copyHere
  dsimp only
  split
  · next e => exact (h.barredRow.of_fst e).endJob
  · next e =>
      split
      · next e' => exact ((h.barredRow.of_fst e).copyRows.busy e').bankJob
      · next e' => exact ((h.barredRow.of_fst e).copyRows.hold e').holdJob
      · next e' => exact ((h.barredRow.of_fst e).copyRows.fail e').endJob
      · next e' =>
          exact .ite ((h.barredRow.of_fst e).copyRows.done e').endJob (.headStep
            ((h.barredRow.of_fst e).copyRows.done e').publishSlot fun _ _ h1 => h1.endJob)
theorem State.Ids.sendChecked {cl ptr n : Nat} {right : Right} {index : Nat} {k : State → State} (h : s.Ids)
    (k1 : ∀ t, t.Ids → (k t).Ids) : (s.sendChecked cl j ptr n right index k).Ids := by
  unfold State.sendChecked
  split
  · exact h.endJob
  · exact k1 _ h
theorem State.Ids.copyAway {cl : Nat} (h : s.Ids) : (s.copyAway cl j).Ids := by
  unfold State.copyAway
  dsimp only
  split
  · exact h.endJob
  · split
    · exact h
    · split
      · split
        · next e => exact (h.jobRead.busy e).bankJob
        · next e => exact (h.jobRead.hold e).holdJob
        · next e => exact (h.jobRead.fail e).endJob
        · next e => exact (h.jobRead.ok e).sendChecked fun _ h1 => h1.sendRow
      · exact .ite (h.sendChecked fun _ h2 => h2.sendRow) h.endJob
theorem State.Ids.copy {cl : Nat} (h : s.Ids) : (s.copy cl).Ids :=
  h.onHead fun _ _ h1 => .ite h1.endJob (.ite h1.copyHere h1.copyAway)

/-! ### GATHER -/

theorem State.Ids.gatherAt {n lv x : Nat} (h : s.Ids) : (s.gatherAt j n lv x).Numbered := by
  induction n generalizing s lv x with
  | zero => exact h
  | succ n ih => exact .ite h (.ite (JRes.bind_numbered (.ite h h.jobReadN) fun _ _ h1 => ih h1)
    (JRes.bind_numbered (.ite h h.jobRead) fun _ _ h2 => h2))
theorem State.Ids.gatherRun {n i : Nat} {oob : Option (Nat × Nat)} (h : s.Ids) : (s.gatherRun j n i oob).1.Numbered := by
  induction n generalizing s i oob with
  | zero => exact h
  | succ n ih =>
    unfold State.gatherRun
    extract_lets r
    have hr : r.Numbered := JRes.bind_numbered h.gatherAt fun _ _ h1 => JRes.bind_numbered (.ite h1 h1.jobWrite) fun _ _ h2 => h2
    clear_value r
    cases r with
    | ok => exact ih hr
    | busy => exact hr
    | hold => exact hr
    | fail => exact hr
theorem State.Ids.gather {cl : Nat} (h : s.Ids) : (s.gather cl).Ids := by
  unfold State.gather
  refine .onHead h (fun _ _ h1 => ?_)
  split
  · exact h1.endJob
  · split
    · next e => exact (h1.gatherRun.busy (congrArg Prod.fst e)).bankJob
    · next e => exact (h1.gatherRun.hold (congrArg Prod.fst e)).holdJob
    · next e => exact (h1.gatherRun.fail (congrArg Prod.fst e)).endJob
    · next e => exact (h1.gatherRun.done (congrArg Prod.fst e)).endJob
    · next e => exact (h1.gatherRun.done (congrArg Prod.fst e)).endJob

end Sys2Proof.Machine
end

section
/-! PROOF. The groups' numbers stay apart (O60): class E. -/

namespace Sys2Proof.Machine

variable {s t : State} {g : Group} {c : Ctx} {j : Job} {i : Instr}

/-! ### Failed fetches and decodes (R117, R118) -/

theorem State.Ids.fetchTrap {cause : Nat} {tval : Word} (h : s.Ids) : (s.fetchTrap g c cause tval).Ids :=
  .ite h.updCtx.takeTrap h.updCtx
theorem State.Ids.fetchTrapE {cause : Nat} {tval : Word} (h : s.Ids) : (s.fetchTrapE g c cause tval).Ids := h.updCtx.takeTrap
theorem execDecodeTrap_numbered {cause : Nat} (h : s.Ids) : NextNumbered (execDecodeTrap cause s) := by
  unfold execDecodeTrap
  split
  · exact trivial
  · exact h.fetchTrap

/-! ### Double-width and dot products (R171, R172) -/

theorem vWide_numbered {op : Nat} {e0 : EArgs} {f : ETy → Nat → Nat → Nat × Flags} (h : s.Ids) : NextNumbered (vWide i op e0 s f) :=
  vRun_numbered h fun _ _ _ _ _ h1 => Act.ofS_numbered h1 (readAB_numbered h1) fun _ _ h2 => h2.updCtx
theorem execVdot_numbered {e : EArgs} (h : s.Ids) : NextNumbered (execVdot e s) :=
  vRun_numbered h fun _ _ _ _ _ h1 => Act.ofS_numbered h1 (readAB_numbered h1) fun _ _ h2 => h2.updCtx

/-! ### Class E: compares and guards (R177-R179) -/

theorem execVcmp_numbered {e : EArgs} (h : s.Ids) : NextNumbered (execVcmp e s) :=
  vRun_numbered h fun _ _ _ _ _ h1 => Act.ofS_numbered h1 (readAB_numbered h1) fun _ _ h2 => h2.updCtx
theorem vGuard_numbered {op : Nat} {e0 : EArgs} {f : Guard → Guard → Guard → Nat → Guard} (h : s.Ids) :
    NextNumbered (vGuard i op e0 s f) :=
  vRun_numbered h fun _ _ _ _ _ h1 => h1.updCtx
theorem State.Ids.pushQ6 {d : Word} (h : s.Ids) : (s.pushQ6 g c d).Ids := h.updCtx
theorem execGcnt_numbered {e : EArgs} (h : s.Ids) : NextNumbered (execGcnt e s) :=
  vRun_numbered h fun _ _ _ _ _ h1 => h1.q6Room h1.pushQ6

/-! ### Class E: conversions (R180-R186) -/

theorem readU_numbered {e : EArgs} {n ws : Nat} (h : s.Ids) : (readU s g c e n ws).Numbered := by
  unfold readU
  split
  · exact h
  · split
    · exact SRes.bind_numbered h.vSrc fun _ _ h1 => h1
    · exact h
theorem execVcvt_numbered {e : EArgs} (h : s.Ids) : NextNumbered (execVcvt e s) :=
  vRun_numbered h fun _ _ _ _ _ h1 => .ite (Act.raise_numbered h1) (Act.ofS_numbered h1 h1.vSrc fun _ _ h2 =>
    Act.ofS_numbered h1 (readU_numbered h2) fun _ _ h3 => h3.updCtx)
theorem execVwiden_numbered {e : EArgs} (h : s.Ids) : NextNumbered (execVwiden e s) :=
  vRun_numbered h fun _ _ _ _ _ h1 => .ite (Act.raise_numbered h1) (Act.ofS_numbered h1 h1.vSrc fun _ _ h2 => h2.updCtx)
theorem execVnarrow_numbered {e : EArgs} (h : s.Ids) : NextNumbered (execVnarrow e s) :=
  vRun_numbered h fun _ _ _ _ _ h1 => .ite (Act.raise_numbered h1) (Act.ofS_numbered h1 (readU_numbered h1) fun _ _ h2 => h2.updCtx)

/-! ### Packing (R183) -/

theorem vPack_numbered {op : Nat} {e0 : EArgs} {f : Nat → List Nat → Block} (h : s.Ids) : NextNumbered (vPack i op e0 s f) :=
  vRun_numbered h fun _ _ _ _ _ h1 => Act.ofS_numbered h1 h1.vSrc fun _ _ h2 => h2.updCtx

/-! ### Scaling and quantisation (R184, R185) -/

theorem execVqnt_numbered {e : EArgs} (h : s.Ids) : NextNumbered (execVqnt e s) :=
  vRun_numbered h fun _ _ _ _ _ h1 => .ite (Act.raise_numbered h1) (Act.ofS_numbered h1 h1.vSrc fun _ _ h2 =>
    Act.ofS_numbered h1 (readU_numbered h2) fun _ _ h3 => h1.q6Room h3.updCtx.pushQ6)
theorem execFmtld_numbered {e : EArgs} (h : s.Ids) : NextNumbered (execFmtld e s) :=
  vRun_numbered h fun _ _ _ _ _ h1 => Act.ofS_numbered h1 h1.vSrc fun _ _ h2 => h2.updCtx

/-! ### Class E: data movement (R187-R192) -/

theorem vFill_numbered {op : Nat} {e0 : EArgs} {ok : ETy → Bool} {f : ETy → Nat → Nat} (h : s.Ids) :
    NextNumbered (vFill i op e0 s ok f) :=
  vRun_numbered h fun _ _ _ _ _ h1 => .ite (Act.raise_numbered h1) h1.updCtx
theorem execVperm_numbered {e : EArgs} (h : s.Ids) : NextNumbered (execVperm e s) :=
  vRun_numbered h fun _ _ _ _ _ h1 => Act.ofS_numbered h1 (readAB_numbered h1) fun _ _ h2 => h2.updCtx
theorem execVext_numbered {e : EArgs} (h : s.Ids) : NextNumbered (execVext e s) :=
  vRun_numbered h fun _ _ _ _ _ h1 => .ite (Act.raise_numbered h1) (Act.ofS_numbered h1 h1.vSrc fun _ _ h2 => h1.q6Room h2.pushQ6)
theorem execVins_numbered {e : EArgs} (h : s.Ids) : NextNumbered (execVins e s) :=
  vRun_numbered h fun _ _ _ _ _ h1 => .ite (Act.raise_numbered h1) (Act.ofS_numbered h1 h1.q7Src fun _ _ h2 => h2.updCtx)
theorem execVpull_numbered {e : EArgs} (h : s.Ids) : NextNumbered (execVpull e s) :=
  vRun_numbered h fun _ _ _ _ _ h1 => Act.ofS_numbered h1 h1.q7Src fun _ _ h2 => h2.updCtx
theorem execVmint_numbered {e : EArgs} (h : s.Ids) : NextNumbered (execVmint e s) :=
  vRun_numbered h fun _ _ _ _ _ h1 => Act.ofS_numbered h1 h1.q7Src fun _ _ h2 => h2.updCtx
theorem execVsel_numbered {e : EArgs} (h : s.Ids) : NextNumbered (execVsel e s) :=
  vRun_numbered h fun _ _ _ _ _ h1 => Act.ofS_numbered h1 (readAB_numbered h1) fun _ _ h2 => h2.updCtx
theorem execVcompress_numbered {e : EArgs} (h : s.Ids) : NextNumbered (execVcompress e s) :=
  vRun_numbered h fun _ _ _ _ _ h1 => Act.ofS_numbered h1 (readAB_numbered h1) fun _ _ h2 => h2.updCtx
theorem execVexpand_numbered {e : EArgs} (h : s.Ids) : NextNumbered (execVexpand e s) :=
  vRun_numbered h fun _ _ _ _ _ h1 => Act.ofS_numbered h1 (readAB_numbered h1) fun _ _ h2 => h2.updCtx

/-! ### Scans and reductions (R48, R49, R190) -/

theorem vReduce_numbered {opc : Nat} {e0 : EArgs} {f : Nat → ETy → List Nat → List Nat × Flags} (h : s.Ids) :
    NextNumbered (vReduce i opc e0 s f) :=
  vRun_numbered h fun _ _ _ _ _ h1 => Act.ofS_numbered h1 (readAB_numbered h1) fun _ _ h2 => h2.updCtx

/-! ### vtopk (R191) -/

theorem execVtopk_numbered {e : EArgs} (h : s.Ids) : NextNumbered (execVtopk e s) :=
  vRun_numbered h fun _ _ _ _ _ h1 => Act.ofS_numbered h1 (readAB_numbered h1) fun _ _ h2 => h2.updCtx
theorem execVpush_numbered {e : EArgs} (h : s.Ids) : NextNumbered (execVpush e s) :=
  vRun_numbered h fun _ _ _ _ _ h1 => .ite h1 (Act.ofS_numbered h1 h1.vSrc fun _ _ h2 => h2.updCtx)

/-! ### Class E: k pointers (R193-R195) -/

theorem execKset_numbered {k : BitVec 3} {addr : BitVec 32} {stride : BitVec 16} {hint : BitVec 7} (h : s.Ids) :
    NextNumbered (execKset k addr stride hint s) :=
  runE_numbered h fun _ _ _ h1 => h1.updCtx
theorem execKget_numbered {e : EArgs} (h : s.Ids) : NextNumbered (execKget e s) :=
  vRun_numbered h fun _ _ _ _ _ h1 => h1.q6Room h1.pushQ6

/-! ### Blocks -/

theorem execVlds_numbered {e : EArgs} (h : s.Ids) : NextNumbered (execVlds e s) :=
  vRun_numbered h fun _ _ _ _ _ h1 => Act.ofS_numbered h1 h1.kRead fun _ _ h2 => h2.updCtx
theorem State.Ids.storeWords {l : List (Nat × Nat)} (h : s.Ids) : (s.storeWords g c l).Ids :=
  h.noteWords.updCtx.foldl fun _ _ h1 => h1.wr
theorem State.Ids.kWrite {c0 : Ctx} {k : BitVec 3} {gd : Guard} {d : Block} (h : s.Ids) : (s.kWrite g c0 k gd d).Numbered := by
  unfold State.kWrite
  dsimp only
  split
  · exact trivial
  · exact trivial
  · exact h.updCtx.updCtx
  · split
    · exact trivial
    · exact h.storeWords.updCtx
theorem execVsts_numbered {e : EArgs} (h : s.Ids) : NextNumbered (execVsts e s) :=
  vRun_numbered h fun _ _ _ _ _ h1 => Act.ofS_numbered h1 (SRes.bind_numbered h1.vSrc fun _ _ h2 => h2.kWrite) fun _ _ h3 => h3

/-! ### Single lanes (R196) -/

theorem State.Ids.foundLoose {l : List (Nat × Nat)} {saw : List (Nat × Nat) × Nat} (h : s.Ids) : (s.foundLoose g c l saw).Ids :=
  .ite h h.updCtx
theorem execVldsx_numbered {e : EArgs} (h : s.Ids) : NextNumbered (execVldsx e s) := by
  unfold execVldsx
  refine vRun_numbered h (fun _ _ _ _ _ h1 => ?_)
  refine Act.ofS_numbered h1 h1.vSrc (fun _ _ h2 => ?_)
  dsimp only
  split
  · exact Act.failE_numbered h1
  · split
    · exact Act.failE_numbered h1
    · exact State.Ids.updCtx (h2.foundLoose.foldlSnd fun _ _ h3 => .noteEarlyE (.plainRead (.noteWords h3)))
theorem execVstsx_numbered {e : EArgs} (h : s.Ids) : NextNumbered (execVstsx e s) := by
  unfold execVstsx
  refine vRun_numbered h (fun _ _ _ _ _ h1 => ?_)
  refine Act.ofS_numbered h1 (readAB_numbered h1) (fun _ _ h2 => ?_)
  dsimp only
  split
  · exact Act.failE_numbered h1
  · split
    · exact Act.failE_numbered h1
    · exact h2.storeWords

/-! ### The repetition buffer -/

theorem State.Ids.repScan {fuel n q : Nat} {pc : Word} (h : s.Ids) : (s.repScan g c fuel n q pc).Numbered := by
  induction fuel generalizing n q pc with
  | zero => exact trivial
  | succ fuel ih =>
    cases n with
    | zero => exact trivial
    | succ n =>
      unfold State.repScan
      split
      · split
        · exact trivial
        · split
          · exact trivial
          · exact ih
      · next e => exact h.fetchSeq.page e
      · next e => exact h.fetchSeq.busy e
      · split
        · exact trivial
        · split
          · exact trivial
          · exact ih
theorem execRep_numbered {n : BitVec 5} {count : BitVec 13} {stride : BitVec 5} (h : s.Ids) :
    NextNumbered (execRep n count stride s) := by
  unfold execRep
  refine runE_numbered h (fun _ _ _ h1 => ?_)
  dsimp only
  split
  · exact h1
  · split
    · exact h1
    · next e => exact (h1.repScan.page e).hold
    · next e => exact (h1.repScan.busy e).bankWaitE
    · exact h1.updCtx

/-! ### Accumulators -/

theorem tileOf_numbered {z : Nat} {k : Nat → Act} (h : s.Ids) (k1 : ∀ n, (k n).Numbered) : (tileOf s g z k).Numbered := by
  unfold tileOf
  split
  · exact .ite (k1 _) (Act.raise_numbered h)
  · exact Act.raise_numbered h
theorem execZmov_numbered {e : EArgs} (h : s.Ids) : NextNumbered (execZmov e s) :=
  vRun_numbered h fun _ _ _ _ _ h1 => tileOf_numbered h1 fun _ => .ite h1 (h1.q6Room h1.updGroup.updCtx.pushQ6)
theorem State.Ids.enter {cl : Nat} {e : Eng} {mesh : Bool} (h : s.Ids) : (s.enter cl e mesh j).Ids := h.setJobs.updCluster
theorem execZset_numbered {e : EArgs} (h : s.Ids) : NextNumbered (execZset e s) :=
  vRun_numbered h fun _ _ _ _ _ h1 => tileOf_numbered h1 fun _ => .ite h1.updCtx
    (.ite h1.enter (Act.ofS_numbered h1 h1.vSrc fun _ _ h2 => h2.enter))

/-! ### Textures -/

theorem matchSpot_numbered {p : Spot} {A : Nat → Nat → Bool → Option (Nat × Nat × Nat) → TexRes} {B : Nat → Nat → TexRes}
    (hA : ∀ key home t leaf, (A key home t leaf).Numbered) (hB : ∀ a o, (B a o).Numbered) :
    TexRes.Numbered (match p with | .mem key home t leaf => A key home t leaf | .win a o => B a o) := by
  cases p with
  | mem key home t leaf => exact hA key home t leaf
  | win a o => exact hB a o
theorem State.Ids.texFetch {t : TexDesc} {want : Nat} {u v : FVal} {n l : Nat} (h : s.Ids) :
    (s.texFetch g c t want u v n l).Numbered := by
  delta State.texFetch
  refine brecOn_holds (motive := fun _ => State → Nat → TexRes)
    (P := fun _ f => ∀ {s : State} {l : Nat}, s.Ids → (f s l).Numbered) (fun n b ih s l h => ?_) n h
  refine matchNatNat_holds (Q := TexRes.Numbered) ih (fun _ => h) ?_
  intro n b ih
  extract_lets p s0
  have h0 : s0.Ids := h.tried
  split
  · exact h0
  · split
    · exact h0
    · exact ih h0
  · split
    · exact h0
    · split
      · exact h0.bankWaitE
      · split
        · exact h0
        · refine matchSpot_numbered ?_ ?_
          · intro _ _ _ _
            extract_lets s1
            have h1 : s1.Ids := h0.noteSpot.engLines.touchEa
            split
            next e => exact (h1.plainRead.of_sndSnd e).noteEarlyE
          · intro _ _
            exact h0
theorem State.Ids.unread {old : State} (h : s.Ids) : (s.unread old g c).Ids := h.updCtx
/-- The state after texels have been fetched for the lanes, or the state with what stopped it. -/
def LanesNumbered : Except TexRes (State × List (Option (Nat × Nat))) → Prop
  | .ok r => r.1.Ids
  | .error x => x.Numbered
theorem LanesNumbered.ok {r : Except TexRes (State × List (Option (Nat × Nat)))} {l : List (Option (Nat × Nat))} (h : LanesNumbered r)
    (e : r = .ok (s, l)) : s.Ids := by subst e; exact h
theorem LanesNumbered.error {r : Except TexRes (State × List (Option (Nat × Nat)))} {x : TexRes} (h : LanesNumbered r)
    (e : r = .error x) : x.Numbered := by subst e; exact h
theorem LanesNumbered.cons {r : Except TexRes (State × List (Option (Nat × Nat)))} {x : Option (Nat × Nat)} (h : LanesNumbered r) :
    LanesNumbered (r.map fun y => (y.1, x :: y.2)) := by
  cases r with
  | ok r => exact h
  | error x => exact h
theorem State.Ids.texLanes {gd : Guard} {t : TexDesc} {want : Nat} {l : List (Nat × Nat × Nat)} (h : s.Ids) :
    LanesNumbered (s.texLanes g c gd t want l) := by
  induction l generalizing s with
  | nil => exact h
  | cons x r ih =>
    unfold State.texLanes
    split
    · exact (ih h).cons
    · split
      · exact (ih h).cons
      · split
        · next e => exact (ih (h.texFetch.ok e)).cons
        · exact h.texFetch
theorem State.Ids.texRead {slot v : Nat} (h : s.Ids) (e : s.texRead g c slot = .ok (t, v)) : t.Ids := by
  unfold State.texRead at e
  extract_lets key words w die s1 at e
  split at e
  · cases e
  · cases e
    exact h.noteWords.plainRead
theorem execVtex_numbered {e : EArgs} (h : s.Ids) : NextNumbered (execVtex e s) := by
  unfold execVtex
  refine vRun_numbered h fun _ _ _ _ _ h1 => Act.ofS_numbered h1 (readAB_numbered h1) fun _ _ h2 => ?_
  dsimp only
  split
  · exact Act.raise_numbered h1
  · next e =>
    have h3 := h2.texRead e
    split
    · next e => exact ((h3.texLanes.error e).trap rfl).unread
    · next e => exact ((h3.texLanes.error e).wait rfl).unread
    · next e => exact ((h3.texLanes.error e).ok rfl).unread
    · next e => exact (h3.texLanes.ok e).updCtx

/-! ### Coverage -/

theorem execVwind_numbered {e : EArgs} (h : s.Ids) : NextNumbered (execVwind e s) :=
  vRun_numbered h fun _ _ _ _ _ h1 => Act.ofS_numbered h1 (readAB_numbered h1) fun _ _ h2 => h2.updCtx

end Sys2Proof.Machine
end

section
/-! PROOF. The groups' numbers stay apart (O60): messages and engines. -/

namespace Sys2Proof.Machine

variable {s t : State} {g : Group} {c : Ctx} {j : Job} {i : Instr}

/-! ### Class X: messages and completions (R230-R236, R282, R283) -/

theorem State.Ids.ownTarget {cl : Nat} (h : s.Ids) : (s.ownTarget g cl j).Ids := .ite h h
theorem State.Ids.deliver {cl : Nat} {e : Eng} {m : BitVec 512} {jid : Nat} {x : Sender} {merge : Option Job} (h : s.Ids) :
    (s.deliver g c cl e m jid x merge).Ids := by
  unfold State.deliver
  split
  · exact h.setJobs
  · exact h.enter.ownTarget
theorem setJob_id (x : Group) (r : Nat) (y : JobRec) : (x.setJob r y).id = x.id := by
  simp only [Group.setJob]
theorem sendMessage_numbered {d a b : BitVec 5} {q : QBlock} {tag r : Nat} (h : s.Ids) :
    (sendMessage s g c d a b q tag r).Numbered := by
  unfold sendMessage
  extract_lets x cl e m merge asked agent sq jid rec0 s1 s2
  clear_value rec0
  have h2 : s2.Ids := State.Ids.updCore (s := s1) (h.updCtx.updGroup fun _ => setJob_id ..)
  exact .ite h.updCtx (.ite (State.Ids.deliver h2) (State.Ids.raiseLine h2))
theorem execEmsg_numbered {d a b : BitVec 5} (h : s.Ids) : NextNumbered (execEmsg d a b s) := by
  unfold execEmsg
  refine runA_numbered h (fun _ _ _ h1 => ?_)
  split
  · exact h1
  · refine released_numbered h1 (fun _ _ h2 => ?_)
    split
    · exact h2
    · exact sendMessage_numbered h2
theorem State.Ids.observe {r : Nat} {x : JobRec} {d : BitVec 5} {w : Word} (h : s.Ids) : (s.observe g c r x d w).Ids :=
  h.updCtx.updGroup fun _ => setJob_id ..
theorem jobX_numbered {d a : BitVec 5} {waits : Bool} (h : s.Ids) : NextNumbered (jobX i d a waits s) := by
  unfold jobX
  refine runA_numbered h (fun _ _ _ h1 => ?_)
  dsimp only
  split
  · exact h1.updCtx
  · split
    · exact h1.observe
    · exact .ite h1 h1.updCtx

/-! ### Records and packing -/

theorem State.Ids.jobRecord {ptr : Nat} (h : s.Ids) : (s.jobRecord j ptr).Numbered := .ite h h.jobReadN
theorem State.Ids.jobRows {n stride k ptr : Nat} (h : s.Ids) : (s.jobRows j n stride k ptr).Numbered := by
  induction k generalizing s ptr with
  | zero => exact h
  | succ k ih => exact JRes.bind_numbered h.jobReadW fun _ _ h1 => JRes.bind_numbered (ih h1) fun _ _ h2 => h2

/-! ### Slots and ends -/

theorem State.Ids.mxeEnd {cl st : Nat} (h : s.Ids) : (s.mxeEnd cl j st).Ids := h.endJob
theorem State.Ids.mxeRun {cl : Nat} {cmd : Cmd} {f : State → Job → State} (h : s.Ids) (k1 : ∀ t j, t.Ids → (f t j).Ids) :
    (s.mxeRun cl cmd f).Ids :=
  h.onHead fun _ _ h1 => .ite (k1 _ _ h1) (.ite h1.mxeEnd (.ite h1.mxeEnd (k1 _ _ h1)))

/-! ### Loads of the matrix engine -/

theorem State.Ids.loadMacros {cl : Nat} {f : State → Nat → JRes Macro} {rows n stride : Nat} {l : List Nat} {k : Nat} (h : s.Ids)
    (k1 : ∀ t n, t.Ids → (f t n).Numbered) : (s.loadMacros cl f rows n stride j l k).1.Numbered := by
  induction l generalizing s j k with
  | nil => exact h
  | cons x r ih =>
    unfold State.loadMacros
    dsimp only
    split
    · next e => exact ih ((k1 _ _ h).ok e).updCluster.countJob
    · next e => exact (k1 _ _ h).busy e
    · next e => exact (k1 _ _ h).hold e
    · next e => exact (k1 _ _ h).fail e
theorem State.Ids.doLoad {cl rows n stride : Nat} {f : State → Nat → JRes Macro} (h : s.Ids)
    (k1 : ∀ t n, t.Ids → (f t n).Numbered) :
    (s.doLoad cl j rows n stride f).Ids := by
  unfold State.doLoad
  split
  · next e => exact ((h.loadMacros fun _ _ h1 => k1 _ _ h1).done (congrArg Prod.fst e)).mxeEnd
  · next e => exact ((h.loadMacros fun _ _ h2 => k1 _ _ h2).busy (congrArg Prod.fst e)).bankJob
  · next e => exact ((h.loadMacros fun _ _ h3 => k1 _ _ h3).hold (congrArg Prod.fst e)).holdJob
  · next e => exact ((h.loadMacros fun _ _ h4 => k1 _ _ h4).fail (congrArg Prod.fst e)).mxeEnd
theorem State.Ids.keptRecord {ptr : Nat} (h : s.Ids) : (s.keptRecord j ptr).Numbered := by
  unfold State.keptRecord
  split
  · exact h
  · exact h.jobRecord
theorem execMloadw_numbered {cl : Nat} (h : s.Ids) : NextNumbered (execMloadw cl s) :=
  h.mxeRun fun _ _ h1 => .ite h1.mxeEnd (.headStep h1.keptRecord fun _ _ h2 =>
    .ite h2.mxeEnd (h2.doLoad fun _ _ h3 => JRes.bind_numbered h3.jobRows fun _ _ h4 => h4))
theorem execMloadb_numbered {cl : Nat} (h : s.Ids) : NextNumbered (execMloadb cl s) :=
  h.mxeRun fun _ _ h1 => .ite h1.mxeEnd (h1.doLoad fun _ _ h2 => JRes.bind_numbered h2.jobReadW fun _ _ h3 => h3)

/-! ### Products -/

theorem State.Ids.setTile {cl t : Nat} {x : Tile} (h : s.Ids) : (s.setTile cl t x).Ids := h.updCluster
theorem State.Ids.mmaRead {rec0 d K r : Nat} (h : s.Ids) : (s.mmaRead j rec0 d K r).Numbered :=
  JRes.bind_numbered h.jobReadN fun _ _ h1 => .ite h1 (JRes.bind_numbered h1.jobReadN fun _ _ h2 => h2)
theorem State.Ids.rowsRead {f : State → Nat → JRes (List Nat)} {n r : Nat} {l : List Nat} (h : s.Ids)
    (k1 : ∀ t n, t.Ids → (f t n).Numbered) : (s.rowsRead f n r l).1.Numbered := by
  induction n generalizing s r l with
  | zero => exact h
  | succ n ih =>
    unfold State.rowsRead
    split
    · next e => exact ih ((k1 _ _ h).ok e)
    · next e => exact (k1 _ _ h).busy e
    · next e => exact (k1 _ _ h).hold e
    · next e => exact (k1 _ _ h).fail e
theorem State.Ids.productRun {cl : Nat} {f : State → Nat → JRes (List Nat)} (h : s.Ids) (k1 : ∀ t n, t.Ids → (f t n).Numbered) :
    (s.productRun cl j f).Ids := by
  unfold State.productRun
  split
  · next e => exact ((h.rowsRead fun _ _ h1 => k1 _ _ h1).done (congrArg Prod.fst e)).mxeEnd
  · next e => exact ((h.rowsRead fun _ _ h2 => k1 _ _ h2).busy (congrArg Prod.fst e)).bankJob
  · next e => exact ((h.rowsRead fun _ _ h3 => k1 _ _ h3).hold (congrArg Prod.fst e)).holdJob
  · next e => exact ((h.rowsRead fun _ _ h4 => k1 _ _ h4).fail (congrArg Prod.fst e)).mxeEnd
theorem execMma_numbered {cl : Nat} (h : s.Ids) : NextNumbered (execMma cl s) :=
  h.mxeRun fun _ _ h1 => .ite h1.mxeEnd (.headStep h1.keptRecord fun _ _ h2 =>
    .ite h2.mxeEnd (h2.productRun fun _ _ h3 => JRes.bind_numbered h3.mmaRead fun _ _ h4 => h4))
theorem execMmab_numbered {cl : Nat} (h : s.Ids) : NextNumbered (execMmab cl s) :=
  h.mxeRun fun _ _ h1 => .ite h1.mxeEnd (.ite h1.mxeEnd (h1.productRun fun _ _ h2 => JRes.bind_numbered h2.jobReadN fun _ _ h3 => h3))

/-! ### The epilogue -/

theorem State.Ids.epiRows {f : Fmt} {t : Tile} {w : ℤ} {stride n r : Nat} (h : s.Ids) : (s.epiRows j f t w stride n r).Numbered := by
  induction n generalizing s r with
  | zero => exact h
  | succ n ih =>
    unfold State.epiRows
    dsimp only
    split
    · next e => exact ih (h.jobWrite.ok e)
    · next e => exact h.jobWrite.busy e
    · next e => exact h.jobWrite.hold e
    · next e => exact h.jobWrite.fail e
theorem State.Ids.epiRun {cl r : Nat} (h : s.Ids) : (s.epiRun cl j r).Ids := by
  unfold State.epiRun
  dsimp only
  split
  · next e => exact (h.epiRows.busy e).bankJob
  · next e => exact (h.epiRows.hold e).holdJob
  · next e => exact (h.epiRows.fail e).mxeEnd
  · next e => exact .ite (h.epiRows.done e).mxeEnd (.headStep (h.epiRows.done e).jobWrite fun _ _ h1 => h1.mxeEnd)
theorem execMepi_numbered {cl : Nat} (h : s.Ids) : NextNumbered (execMepi cl s) :=
  h.mxeRun fun _ _ h1 => .ite h1.mxeEnd (.headStep h1.keptRecord fun _ _ h2 => .ite h2.mxeEnd h2.epiRun)

/-! ### zset and completions -/

theorem State.Ids.zsetHead {cl : Nat} (h : s.Ids) : (s.zsetHead cl j).Ids := by
  unfold State.zsetHead
  dsimp only
  split
  · exact h
  · split
    · exact h.setHead
    · split
      · exact h
      · split
        · exact h.setJobs.setTile
        · exact h.setJobs.setTile
        · exact h
theorem State.Ids.putProduct {cl : Nat} {x : Tile × Nat × Nat} (h : s.Ids) : (s.putProduct cl j x).Ids :=
  h.setTile.countJob.countJob.countJob
theorem State.Ids.mxeApply {cl : Nat} (h : s.Ids) : (s.mxeApply cl j).Ids := by
  unfold State.mxeApply
  split
  · exact h
  · split
    · exact h.putProduct
    · exact h.putProduct
    · exact .ite h.setTile h
    · exact h
theorem State.Ids.jobCompletion {cl : Nat} {e : Eng} (h : s.Ids) : (s.jobCompletion cl e).Ids := by
  unfold State.jobCompletion
  split
  · exact h
  · split
    · exact h.zsetHead
    · exact h.zsetHead
    · exact .ite h h.mxeApply.popHead

/-! ### A job of the PFE -/

theorem State.Ids.pfeEnd {cl st : Nat} (h : s.Ids) : (s.pfeEnd cl j st).Ids := .endJob h
theorem pfeRes_numbered {α : Type} {cl : Nat} {r : JRes α} {k : State → α → State} (h : r.Numbered)
    (k1 : ∀ t a, t.Ids → (k t a).Ids) :
    (pfeRes cl j r k).Ids := by
  unfold pfeRes
  split
  · exact k1 _ _ h
  · exact .bankJob h
  · exact .holdJob h
  · exact .pfeEnd h
theorem State.Ids.readNode {base i : Nat} (h : s.Ids) : (s.readNode j base i).Numbered := h.jobReadN
theorem State.Ids.malformed {cl dst i : Nat} (h : s.Ids) : (s.malformed cl j dst i).Ids := by
  unfold State.malformed
  exact pfeRes_numbered h.jobWrite fun _ _ h1 => h1.pfeEnd

/-! ### TRAVERSE -/

theorem State.Ids.pushBag {l bag : List (Nat × Nat)} (h : s.Ids) : (s.pushBag j l bag).Numbered := by
  induction l generalizing s bag with
  | nil => exact h
  | cons x r ih => exact JRes.bind_numbered h.jobWrite fun _ _ h1 => ih h1
theorem State.Ids.lookNode {base count i : Nat} (h : s.Ids) : (s.lookNode j base count i).Numbered := by
  -- Unfolded while it is not applied: at its arguments the kernel would evaluate the probe that it matches.
  obtain ⟨f, e⟩ : ∃ f, f = @State.lookNode := ⟨_, rfl⟩
  rw [← e]
  delta State.lookNode at e
  subst e
  beta_reduce
  extract_lets ptr s1
  have h1 : s1.Ids := h.engWalked
  split
  · exact h1
  · exact h1
  · refine .ite h1 ?_
    split
    · exact h1
    · exact h1
    · exact h1
theorem State.Ids.travUnfenced {cl fuel : Nat} {l : List (Nat × Nat)} (h : s.Ids) : (s.travUnfenced cl j fuel l).Numbered := by
  induction fuel generalizing s l with
  | zero => exact h
  | succ fuel ih =>
    cases l with
    | nil => exact h
    | cons x r =>
      unfold State.travUnfenced
      refine JRes.bind_numbered h.lookNode fun _ _ h1 => JRes.bind_numbered h1.lookNode fun _ _ h2 => ?_
      split
      · exact h2
      · exact h2
      · dsimp only
        split
        · exact ih h2
        · exact ih h2
      · exact h2
theorem State.Ids.ownBag (h : s.Ids) : (s.ownBag j).Ids := .ite h h
theorem State.Ids.travStart {s0 : State} {cl : Nat} (h : s0.Ids) : (s0.travStart cl j).Ids :=
  .ite h.ownBag.pfeEnd (.ite h.ownBag.pfeEnd (pfeRes_numbered (JRes.bind_numbered h.ownBag.jobReadN fun _ _ h1 =>
    JRes.bind_numbered h1.jobReadN fun _ _ h2 => JRes.bind_numbered h2.jobReadN fun _ _ h3 => h3) fun _ _ h4 =>
      .ite h4.pfeEnd (pfeRes_numbered h4.travUnfenced fun _ _ h5 => .ite h5.pfeEnd
        (pfeRes_numbered h5.pushBag fun _ _ h6 => h6.setHead))))
theorem State.Ids.travDecide {cl : Nat} {x : Nat × Nat} {descent : Bool} {p : Pfe} (h : s.Ids) :
    (s.travDecide cl j x descent p).Ids := by
  unfold State.travDecide
  refine pfeRes_numbered (JRes.bind_numbered h.readNode fun _ _ h1 => JRes.bind_numbered h1.readNode fun _ _ h2 => h2) (fun _ _ h3 => ?_)
  dsimp only
  split
  · exact h3.malformed
  · split
    · exact h3.malformed
    · split
      · exact h3.countJob.setHead
      · exact .ite (pfeRes_numbered h3.countJob.pushBag fun _ _ h4 => h4.setHead) (.setHead (.ite h3.countJob h3.countJob.countJob))
theorem State.Ids.traverse {cl : Nat} (h : s.Ids) : (s.traverse cl).Ids := by
  unfold State.traverse
  refine .onHead h (fun _ _ h1 => ?_)
  split
  · exact h1.travStart
  · split
    · exact h1
    · split
      · exact h1.travDecide
      · exact .ite h1 (pfeRes_numbered h1.jobWrite fun _ _ h2 => h2.pfeEnd)

/-! ### Sweeps -/

theorem State.Ids.ownCounters {n : Nat} (h : s.Ids) : (s.ownCounters j n).Ids := h
theorem State.Ids.firstCount {up : Bool} {d : Desc} {x : Nat} (h : s.Ids) : (s.firstCount j up d x).Numbered :=
  .ite (JRes.bind_numbered h.readNode fun _ _ h1 => h1) h
theorem State.Ids.initCounts {up : Bool} {d : Desc} {n x : Nat} (h : s.Ids) : (s.initCounts j up d n x).Numbered := by
  induction n generalizing s x with
  | zero => exact h
  | succ n ih =>
    unfold State.initCounts
    split
    · next e => exact ih ((JRes.bind_numbered h.firstCount fun _ _ h1 => h1.jobWrite).ok e)
    · next e => exact (JRes.bind_numbered h.firstCount fun _ _ h2 => h2.jobWrite).busy e
    · next e => exact (JRes.bind_numbered h.firstCount fun _ _ h3 => h3.jobWrite).hold e
    · next e => exact (JRes.bind_numbered h.firstCount fun _ _ h4 => h4.jobWrite).fail e
theorem State.Ids.sweepInit {cl : Nat} {up : Bool} {done : Nat} (h : s.Ids) : (s.sweepInit cl j up done).Ids := by
  unfold State.sweepInit
  dsimp only
  split
  · next e => exact (h.ownCounters.initCounts.busy e).bankJob
  · next e => exact (h.ownCounters.initCounts.hold e).holdJob
  · next e => exact (h.ownCounters.initCounts.fail e).pfeEnd
  · next e => exact (h.ownCounters.initCounts.done e).setHead
theorem State.Ids.sweepStart {cl : Nat} {up : Bool} (h : s.Ids) : (s.sweepStart cl j up).Ids :=
  .ite h.pfeEnd (.ite h.pfeEnd (pfeRes_numbered (JRes.bind_numbered h.jobReadN fun _ _ h1 => JRes.bind_numbered h1.jobReadN fun _ _ h2 =>
    h2) fun _ _ h3 => .ite h3.pfeEnd h3.sweepInit))
theorem State.Ids.visit {cl : Nat} {up : Bool} {x : Nat} {p : Pfe} (h : s.Ids) : (s.visit cl j up x p).Ids :=
  pfeRes_numbered h.jobReadN fun _ _ h1 => .ite h1.setHead h1.setHead
theorem State.Ids.sweepWalk {cl : Nat} {up : Bool} {x k : Nat} {t : List (Nat × Nat)} (h : s.Ids) : (s.sweepWalk cl j up x k t).Ids :=
  pfeRes_numbered h.readNode fun _ _ h1 => .ite h1.malformed (.ite h1.visit (.ite h1.setHead (.ite h1.visit h1.setHead)))
theorem State.Ids.sweep {cl : Nat} {up : Bool} (h : s.Ids) : (s.sweep cl up).Ids := by
  unfold State.sweep
  refine .onHead h (fun _ _ h1 => ?_)
  split
  · exact h1.sweepStart
  · split
    · exact h1.sweepInit
    · split
      · exact h1
      · split
        · exact h1.sweepWalk
        · exact .ite h1.pfeEnd h1
theorem State.Ids.dependents {x : Nat} (h : s.Ids) : (s.dependents j x).Numbered := JRes.bind_numbered h.readNode fun _ _ h1 => h1
theorem State.Ids.decOne {acq : Option Acq} {y : Nat} (h : s.Ids) : (s.decOne j acq y).Numbered :=
  JRes.bind_numbered h.jobReadN fun _ _ h1 => JRes.bind_numbered h1.jobWrite fun _ _ h2 => h2
theorem State.Ids.decAll {cl : Nat} {acq : Option Acq} {jb : Job} {l : List Nat} (h : s.Ids) : (s.decAll cl acq jb l).Ids := by
  induction l generalizing s jb with
  | nil => exact h.setHead
  | cons x r ih => exact pfeRes_numbered h.decOne fun _ _ h1 => ih h1
theorem State.Ids.sweepDecrement {cl : Nat} (h : s.Ids) : (s.sweepDecrement cl).Ids := by
  unfold State.sweepDecrement
  split
  · exact h
  · split
    · refine pfeRes_numbered ?_ (fun _ _ h1 => h1.decAll)
      split
      · exact h
      · exact h.dependents
    · exact h

/-! ### Emission (R259) -/

theorem State.Ids.claimIndex {r : BitVec 256} (h : s.Ids) : (s.claimIndex j r).Numbered := by
  unfold State.claimIndex
  refine JRes.bind_numbered h.jobSpots (fun _ _ h1 => ?_)
  split
  · exact h1.noteSpot.engChanged.store
  · exact h1
theorem State.Ids.claimSlot {r : BitVec 256} {n : Nat} (h : s.Ids) : (s.claimSlot j r n).Numbered := by
  unfold State.claimSlot
  refine JRes.bind_numbered h.jobSpots (fun _ _ h1 => ?_)
  split
  · exact .ite h1.engLines.engTouched h1.noteSpot.engChanged.store
  · exact h1
theorem State.Ids.fillSlot {r : BitVec 256} {e : Emit} {n : Nat} (h : s.Ids) : (s.fillSlot j r e n).Numbered :=
  JRes.bind_numbered h.jobWrite fun _ _ h1 => h1.publishSlot
theorem State.Ids.emitEntry {cl i : Nat} {e : Emit} {n : Nat} (h : s.Ids) : (s.emitEntry cl i j e n).Ids :=
  pfeRes_numbered h.fillSlot fun _ _ h1 => h1.setHead
theorem State.Ids.pfeEmit {cl i0 : Nat} (h : s.Ids) : (s.pfeEmit cl i0).Ids := by
  unfold State.pfeEmit
  split
  · exact h
  · dsimp only
    split
    · split
      · exact pfeRes_numbered h.claimIndex fun _ _ h1 => h1.setHead
      · split
        · exact h.emitEntry
        · refine pfeRes_numbered h.claimSlot (fun _ _ h2 => ?_)
          split
          · exact h2.setHead
          · exact h2.emitEntry
    · exact h

end Sys2Proof.Machine
end

section
/-! PROOF. The groups' numbers stay apart (O60): class S, ends and hand-off. -/

namespace Sys2Proof.Machine

variable {s t : State} {g : Group} {c : Ctx} {j : Job} {i : Instr}

/-! ### CSRs -/

theorem csrGate_numbered {n : Nat} {w : Bool} {k : Act} (h : s.Ids) (h1 : k.Numbered) : (csrGate s c n w k).Numbered :=
  .ite (Act.raise_numbered h) (.ite (Act.raise_numbered h) (.ite (Act.raise_numbered h) h1))
theorem csrWrite_numbered {n : Nat} {v : Word} {d : Option (BitVec 5)} {old : Word} (h : s.Ids) :
    (csrWrite s g c n v d old).Numbered := by
  unfold csrWrite
  split
  · exact Act.raise_numbered h
  · dsimp only
    split
    · refine releaseGate_numbered h (fun _ h1 => ?_)
      split
      · exact h1.updCtx.cleanSlices.csrPut.updCtx
      · exact h1.updCtx.cleanSlices.csrPut
    · split
      · exact h.csrPut.updCtx
      · exact h.csrPut
theorem csrwX_numbered {n : Nat} {a : BitVec 5} (h : s.Ids) : NextNumbered (csrwX i n a s) :=
  runS_numbered h fun _ _ _ h1 => csrGate_numbered h1 (csrWrite_numbered h1)
theorem csrxX_numbered {op : CsrxOp} {d : BitVec 5} {n : Nat} {a : BitVec 5} (h : s.Ids) : NextNumbered (csrxX i op d n a s) :=
  runS_numbered h fun _ _ _ h1 => csrGate_numbered h1 (csrWrite_numbered h1)
theorem execCsrr_numbered {d : BitVec 5} {csr : BitVec 12} (h : s.Ids) : NextNumbered (execCsrr d csr s) :=
  runS_numbered h fun _ _ _ h1 => csrGate_numbered h1 h1.updCtx
theorem csrRow_numbered {n : Nat} {w : CsrWr} {a : BitVec 5} (h : s.Ids) : NextNumbered (csrRow i n w a s) := by
  unfold csrRow
  split
  · exact csrwX_numbered h
  · exact csrxX_numbered h

/-! ### Traps, returns, idle -/

theorem execTrap_numbered (h : s.Ids) : NextNumbered (execTrap s) := runS_numbered h fun _ _ _ h1 => h1
theorem execTrapN_numbered {n : BitVec 23} (h : s.Ids) : NextNumbered (execTrapN n s) := runS_numbered h fun _ _ _ h1 => h1
theorem execBrk_numbered (h : s.Ids) : NextNumbered (execBrk s) := runS_numbered h fun _ _ _ h1 => Act.raise_numbered h1
theorem execEret_numbered (h : s.Ids) : NextNumbered (execEret s) :=
  runS_numbered h fun _ _ _ h1 => .ite (Act.raise_numbered h1) (.ite (Act.raise_numbered h1) h1.updCtx.updGroup)
theorem execIdle_numbered {d : BitVec 5} (h : s.Ids) : NextNumbered (execIdle d s) :=
  runS_numbered h fun _ _ _ h1 => supervisor_numbered h1 (.ite h1 h1.updCtx)
theorem execWdead_numbered {a : BitVec 5} (h : s.Ids) : NextNumbered (execWdead a s) := runS_numbered h fun _ _ _ h1 => h1.updCtx

/-! ### xlinv -/

theorem State.Ids.retryHeld {vf : Nat} {p : Nat → Bool} (h : s.Ids) : (s.retryHeld vf p).Ids :=
  h.of_ids (map_group_ids fun _ => by split <;> rfl) rfl
theorem State.Ids.dropXlat {vf : Nat} {p : Nat → Bool} (h : s.Ids) : (s.dropXlat vf p).Ids := h
theorem State.Ids.xlinvPage {vf va : Nat} (h : s.Ids) : (s.xlinvPage vf va).Ids := h.dropXlat.retryHeld
theorem State.Ids.xlinvEvery {vf : Nat} (h : s.Ids) : (s.xlinvEvery vf).Ids := h.dropXlat.retryHeld
theorem xlinvX_numbered {sup : Bool} {f : State → Group → Ctx → State} (k : ∀ t g c, t.Ids → (f t g c).Ids) (h : s.Ids) :
    NextNumbered (xlinvX i sup f s) :=
  runS_numbered h fun _ _ _ h1 => .ite (Act.raise_numbered h1) (.ite (.ite h1 h1)
    (releaseGate_numbered h1 fun _ h2 => .ite (State.Ids.updCtx (k _ _ _ h2.updCtx)) (State.Ids.updCtx (k _ _ _ h2.updCtx))))
theorem execXlinvPg_numbered {a : BitVec 5} (h : s.Ids) : NextNumbered (execXlinvPg a s) :=
  xlinvX_numbered (fun _ _ _ h1 => h1.xlinvPage) h
theorem execXlinvAll_numbered (h : s.Ids) : NextNumbered (execXlinvAll s) := xlinvX_numbered (fun _ _ _ h1 => h1.xlinvEvery) h
theorem execXlinvBnd_numbered (h : s.Ids) : NextNumbered (execXlinvBnd s) := xlinvX_numbered (fun _ _ _ h1 => h1.updCtx) h

/-! ### logrp -/

theorem State.Ids.replay {gid n : Nat} (h : s.Ids) : (s.replay gid n).1.Ids := by
  induction n generalizing s with
  | zero => exact h
  | succ n ih =>
    unfold State.replay
    dsimp only
    split
    · exact h
    · split
      · exact h
      · split
        · exact h
        · split
          · exact h
          · exact h
          · next e => exact (h.replayEntry.failed e).updGroup
          · next e => exact ih (h.replayEntry.gone e).updGroup
theorem State.Ids.failEntry {gid : Nat} {f : ReplayEnd} (h : s.Ids) : (s.failEntry gid f).Ids := by
  unfold State.failEntry
  split
  · exact h
  · exact h
  · split
    · exact h
    · split
      · exact h
      · exact .ite h.updCtx.takeTrap h.settle.takeTrap
theorem execLogrp_numbered {d a : BitVec 5} (h : s.Ids) : NextNumbered (execLogrp d a s) := by
  unfold execLogrp
  refine runS_numbered h (fun _ _ _ h1 => ?_)
  refine supervisor_numbered h1 ?_
  dsimp only
  split
  · exact Act.raise_numbered h1
  · split
    · exact Act.raise_numbered h1
    · split
      · exact h1.replay.updCtx
      · exact h1.replay.updCtx.failEntry

/-! ### Jobs of a group -/

theorem State.Ids.dropJobs {inhm : Guard} (h : s.Ids) : (s.dropJobs g inhm).Ids := h

/-! ### Tiles -/

theorem State.Ids.bindTiles {gid : Nat} (h : s.Ids) : (s.bindTiles gid).Ids := by
  unfold State.bindTiles
  split
  · exact h
  · exact .ite h (h.updGroup.foldl fun _ _ h1 => h1.setTile)

/-! ### Ends -/

theorem State.Ids.lastArrival {id : BarId} {member phase agent tag : Nat} {ended : List Nat} (h : s.Ids) :
    (s.lastArrival id member phase agent tag ended).Ids :=
  h.updBarrier
theorem execHend_numbered (h : s.Ids) : NextNumbered (execHend s) :=
  runS_numbered h fun _ _ _ h1 => .ite (Act.raise_numbered h1) (.ite h1 (releaseGate_numbered h1 fun _ h2 =>
    h2.tock.relAt.lastArrival.updGroup))
theorem State.Ids.clearKeys {a b : Nat} (h : s.Ids) : (s.clearKeys a b).Ids := h
theorem State.Ids.clearScratch {core lo hi : Nat} (h : s.Ids) : (s.clearScratch core lo hi).Ids := h.clearKeys
theorem State.Ids.freeEntry {rel : Option (Nat × Nat)} (h : s.Ids) : (s.freeEntry g rel).Ids := by
  unfold State.freeEntry
  split
  · split
    · exact h
    · dsimp only
      split
      · exact h.setTag.tock.relAt
      · exact h.setTag.tock
  · exact h
theorem State.Ids.taskRetired {rel : Option (Nat × Nat)} (h : s.Ids) : (s.taskRetired g rel).Ids := by
  unfold State.taskRetired
  split
  · exact h
  · exact h
theorem State.Ids.lastArrivals {agent tag : Nat} (h : s.Ids) : (s.lastArrivals g agent tag).Ids := by
  unfold State.lastArrivals
  refine .foldl h (fun _ _ h1 => ?_)
  split
  · exact h1.lastArrival
  · exact h1
theorem State.Ids.endGroup {gid : Nat} {rel : Option (Nat × Nat)} (h : s.Ids) : (s.endGroup gid rel).Ids := by
  unfold State.endGroup
  split
  · exact h
  · refine State.Ids.fewer ?_ List.filter_sublist le_rfl
    exact .ite h.abandonKeys.lastArrivals.freeEntry.taskRetired.dropJobs.updLaunch.clearScratch
      h.abandonKeys.lastArrivals.freeEntry.taskRetired.dropJobs.updLaunch.clearKeys
theorem retireX_numbered (h : s.Ids) : (retireX s g c).Numbered := .ite h (releaseGate_numbered h fun _ h1 => h1.endGroup)
theorem execRetire_numbered (h : s.Ids) : NextNumbered (execRetire s) :=
  runS_numbered h fun _ _ _ h1 => controlOnly_numbered h1 (.ite h1 (retireX_numbered h1))

/-! ### Class S: helpers and the carve-out (R94, R95) -/

theorem execStart_numbered {d b : BitVec 5} {off : BitVec 23} (h : s.Ids) : NextNumbered (execStart d b off s) := by
  unfold execStart
  refine runS_numbered h fun _ _ _ h1 => controlOnly_numbered h1 (.ite (Act.raise_numbered h1)
    (.ite h1 (releaseGate_numbered h1 fun _ h2 => ?_)))
  extract_lets n num tag v x a x1 s1 s2
  have hs : s2.Ids := State.Ids.updLaunch (State.Ids.updGroup h2.tock.updCtx)
  exact hs
theorem execHwait_numbered {a : BitVec 5} (h : s.Ids) : NextNumbered (execHwait a s) :=
  runS_numbered h fun _ _ _ h1 => controlOnly_numbered h1 (.ite (Act.raise_numbered h1) (.ite h1 h1.acquireVar.updCtx))
theorem execCarve_numbered {d a : BitVec 5} (h : s.Ids) : NextNumbered (execCarve d a s) :=
  runS_numbered h fun _ _ _ h1 => controlOnly_numbered h1 (.ite h1 (.ite h1.updCtx
    (.ite h1.updCtx (.ite h1.updCtx h1.clearScratch.keepLines.updGroup.updCtx))))

/-! ### rets -/

theorem State.Ids.loadObject {p : Word} (h : s.Ids) : (s.loadObject g c p).Numbered := by
  unfold State.loadObject
  split
  · next e => exact h.load128.wait e
  · next e => exact h.load128.trap e
  · next e => exact h.load128.ok e
theorem State.Ids.loadLadder {n : Nat} {p : Word} (h : s.Ids) : (s.loadLadder g c n p).Numbered := by
  induction n generalizing s c p with
  | zero => exact h
  | succ n ih =>
    unfold State.loadLadder
    split
    · next e => exact h.loadObject.wait e
    · next e => exact h.loadObject.trap e
    · next e =>
        split
        · exact h.loadObject.ok e
        · split
          · next e' => exact (ih (h.loadObject.ok e)).wait e'
          · next e' => exact (ih (h.loadObject.ok e)).trap e'
          · next e' => exact (ih (h.loadObject.ok e)).ok e'
theorem State.Ids.scrubScratch (h : s.Ids) : (s.scrubScratch g).Ids := h.foldl fun _ _ h1 => .ite h1 h1.clearScratch
theorem State.Ids.escrow {sc : Scope} {ptr : Nat} {k : BitVec 1024} {rung : Nat} (h : s.Ids) : (s.escrow g c sc ptr k rung).Ids :=
  .bindTiles (h.abandonKeys.dropJobs.scrubScratch.tock.updCore.keepLines.updGroup.updCtx)
theorem handOver_numbered {sc : Scope} {x : Nat × Nat × BitVec 1024} (h : s.Ids) : (handOver s g c sc x).Numbered :=
  .ite h (releaseGate_numbered h fun _ h1 => h1.updLaunch.escrow)
theorem execRets_numbered {sc : Scope} {a : BitVec 5} (h : s.Ids) : NextNumbered (execRets sc a s) := by
  unfold execRets
  refine runS_numbered h (fun _ _ _ h1 => ?_)
  refine controlOnly_numbered h1 ?_
  split
  · exact handOver_numbered h1
  · split
    · exact h1
    · dsimp only
      split
      · split
        · exact retireX_numbered h1
        · split
          · exact Act.raise_numbered h1
          · refine Act.ofRes_numbered h1.loadLadder (fun _ _ h2 => ?_)
            split
            · exact Act.raise_numbered h2
            · exact handOver_numbered h2.updCtx
      · split
        · exact Act.raise_numbered h1
        · refine Act.ofRes_numbered h1.loadLadder (fun _ _ h3 => ?_)
          split
          · exact Act.raise_numbered h3
          · exact handOver_numbered h3.updCtx

end Sys2Proof.Machine
end

section
/-! PROOF. The groups' numbers stay apart (O60): queue managers, residency, and group images. -/

namespace Sys2Proof.Machine

variable {s t : State} {g : Group} {c : Ctx} {j : Job} {i : Instr}

/-! ### Completion (R72) -/

theorem State.Ids.complete {vf : Nat} {r : LRec} {overs rung status agent : Nat} {agents : List Nat} (h : s.Ids) :
    (s.complete vf r overs rung status agent agents).Ids := by
  unfold State.complete
  dsimp only
  split
  · exact .ite h h.vWr
  · split
    · exact .ite h h.vWr
    · exact .ite (.vUse (.ite h h.vWr)) (.putCount (.addRel (.replaced (.tock (.vUse (.vUse (.ite h h.vWr)))))))
theorem State.Ids.refuse {vf : Nat} {r : LRec} {status : Nat} (h : s.Ids) : (s.refuse vf r status).Ids := h.complete
theorem State.Ids.dropRange {vf : Nat} {x : Nat × Nat × Nat} (h : s.Ids) : (s.dropRange vf x).Ids := h.flushLines

/-! ### Admission -/

theorem State.Ids.startTree {vf die lid : Nat} {r : LRec} {acq covers : List Acq} (h : s.Ids) :
    (s.startTree vf die lid r acq covers).Ids :=
  .updLaunch (.setJobs h)
theorem State.Ids.admitLaunch {vf home : Nat} {r : LRec} {src : Nat} {acq covers : List Acq} {a : Admission} (h : s.Ids) :
    (s.admitLaunch vf home r src acq covers a).Ids := 
  .ite (.foldl (h.fewer (List.Sublist.refl _) (Nat.le_succ _)) fun _ _ h2 => h2.dropRange)
    (.startTree (.foldl (h.fewer (List.Sublist.refl _) (Nat.le_succ _)) fun _ _ h2 => h2.dropRange))

/-! ### Taking a slot (R70) -/

theorem State.Ids.launchQueueTake {die : Nat} (h : s.Ids) : (s.launchQueueTake die).Ids := by
  unfold State.launchQueueTake
  split
  · exact h
  · split
    · exact h
    · dsimp only
      split
      · exact h
      · split
        · exact h.vUses.setTag.wr.refuse
        · exact .ite h h.vUses.setTag.wr.admitLaunch

/-! ### Starting a group -/

theorem State.Ids.startGroup {l : Launch} {n : NewGroup} (h : s.Ids) : (s.startGroup l n).Ids :=
by
  unfold State.startGroup
  extract_lets v agent c0 c1 g f s0 s1 core s2
  have h1 : s1.Ids := h.newGroup (g := g) rfl rfl rfl
  exact h1.clearScratch.updCore.keepLines.bindTiles.updLaunch

/-! ### Stages (R80) -/

theorem State.Ids.startStage {die : Nat} {l0 : Launch} {x : Ripe} (h : s.Ids) : (s.startStage die l0 x).Ids := by
  unfold State.startStage
  dsimp only
  split
  · exact h
  · split
    · exact h
    · exact .ite h h.vUses.setTag.vWr.startGroup.updLaunch
theorem State.Ids.groupStart {die : Nat} (h : s.Ids) : (s.groupStart die).Ids := by
  unfold State.groupStart
  split
  · exact h
  · exact h.startGroup.updLaunch
  · exact h.startStage

/-! ### Shares (R80) -/

theorem State.Ids.shareRecompute {die : Nat} (h : s.Ids) : (s.shareRecompute die).Ids :=
  h.foldl fun _ _ h1 => .ite h1.vUses.updLaunch h1
theorem execShareRecompute_numbered {die : Nat} (h : s.Ids) : NextNumbered (execShareRecompute die s) :=
  State.Ids.ite h.shareRecompute h

/-! ### Budgets (R78) -/

theorem State.Ids.budgetTrap {gid : Nat} (h : s.Ids) : (s.budgetTrap gid).Ids := by
  unfold State.budgetTrap
  split
  · exact h
  · split
    · exact h
    · exact h.settle.updGroup.updLaunch.takeTrap
theorem State.Ids.budgetOverrun {core : Nat} (h : s.Ids) : (s.budgetOverrun core).Ids := by
  unfold State.budgetOverrun
  split
  · exact .ite h.budgetTrap h
  · exact h

/-! ### Pre-emption and resumption -/

theorem State.Ids.preempt {gid : Nat} {st : GStatus} (h : s.Ids) : (s.preempt gid st).Ids := by
  unfold State.preempt
  split
  · exact h
  · dsimp only
    split
    · exact .ite h.budgetTrap h
    · exact .ite (.stopGroup (.ite h.budgetTrap h)) (.finishStop (.ite h.budgetTrap h))
theorem State.Ids.preemption {core : Nat} (h : s.Ids) : (s.preemption core).Ids := by
  unfold State.preemption
  split
  · exact .ite h.preempt h
  · exact h
theorem State.Ids.resumption {gid : Nat} (h : s.Ids) : (s.resumption gid).Ids := by
  unfold State.resumption
  split
  · exact h
  · split
    · exact h.resumeGroup
    · exact h

/-! ### Reservations and completion -/

theorem State.Ids.reservationRelease {die : Nat} (h : s.Ids) : (s.reservationRelease die).Ids := h
theorem State.Ids.launchCompletion {lid : Nat} (h : s.Ids) : (s.launchCompletion lid).Ids := by
  unfold State.launchCompletion
  split
  · exact h
  · exact .ite h (.complete (.tellEnds (.dropEntries (h.vUses.foldl fun _ _ h1 => h1.dropRange))))

/-! ### cload -/

theorem execCload_numbered {d a b : BitVec 5} (h : s.Ids) : NextNumbered (execCload d a b s) := by
  unfold execCload
  refine runS_numbered h (fun _ _ _ h1 => ?_)
  refine supervisor_numbered h1 ?_
  dsimp only
  split
  · exact Act.raise_numbered h1
  · split
    · exact .ite h1.updCtx h1.updCtx
    · exact .ite h1.updCtx h1.updCluster.updCtx

/-! ### resid -/

theorem State.Ids.setLeaf {vf va : Nat} {m : Mapping} {e : Nat} (h : s.Ids) : (s.setLeaf vf va m e).Ids := h.wr.xlinvPage
theorem State.Ids.dropTensor {vf e : Nat} (h : s.Ids) : (s.dropTensor vf e).Ids := h.flushLines
theorem State.Ids.relocate {src dst n : Nat} (h : s.Ids) : (s.relocate src dst n).Ids :=
  h.of_ids (map_group_ids fun _ => rfl) rfl
theorem State.Ids.movePage {vf space die : Nat} {fresh : Bool} {x : Nat × Mapping} (h : s.Ids) :
    (State.movePage vf space die fresh s x).Ids :=
  .ite h (.setLeaf (.ite h.flushLines.relocate h.clearKeys))
theorem State.Ids.evictPage {vf e : Nat} {x : Nat × Mapping} (h : s.Ids) : (State.evictPage vf e s x).Ids :=
  .ite h (.ite h.clearKeys h.clearKeys.setLeaf)
theorem State.Ids.name {vf handle e : Nat} (h : s.Ids) : (s.name vf handle e).Ids := h
theorem State.Ids.setHandle {vf handle st : Nat} {pin : Option Bool} (h : s.Ids) : (s.setHandle vf handle st pin).Ids := h
theorem State.Ids.beginMove {m : Move} {e : Nat} (h : s.Ids) : (s.beginMove m e).Ids :=
  State.Ids.setHandle (s := s.dropTensor m.vf e) (vf := m.vf) (handle := m.handle) (st := 3) (pin := none) h.dropTensor
theorem State.Ids.endMove {m : Move} (h : s.Ids) : (s.endMove m).Ids := by
  unfold State.endMove
  split
  · exact h
  · exact .setHandle (h.foldl fun _ _ h1 => h1.movePage)
theorem State.Ids.endMoves {p : Move → Bool} (h : s.Ids) : (s.endMoves p).Ids := h.foldl fun _ _ h1 => h1.endMove
theorem State.Ids.pinTensor {who : Nat × Nat × Nat} {vf handle e : Nat} (h : s.Ids) : (s.pinTensor who vf handle e).Numbered := by
  unfold State.pinTensor
  dsimp only
  split
  · exact h.dropTensor.setHandle
  · split
    · exact h
    · exact State.Ids.beginMove (.foldl h fun _ _ h1 => h1.beginMove)
theorem State.Ids.demoteTensor {who : Nat × Nat × Nat} {vf handle e : Nat} (h : s.Ids) :
    (s.demoteTensor who vf handle e).Numbered := by
  unfold State.demoteTensor
  split
  · exact h.dropTensor.setHandle
  · exact h.beginMove
theorem State.Ids.evictTensor {who : Nat × Nat × Nat} {vf handle e : Nat} (h : s.Ids) : (s.evictTensor who vf handle e).Numbered :=
  State.Ids.setHandle (h.dropTensor.foldl fun _ _ h1 => h1.evictPage)
theorem State.Ids.unpinTensor {who : Nat × Nat × Nat} {vf handle e : Nat} (h : s.Ids) : (s.unpinTensor who vf handle e).Numbered :=
  h.dropTensor.setHandle
theorem residX_numbered {d a : BitVec 5} {waits : Bool} {f : State → Nat × Nat × Nat → Nat → Nat → Nat → ResidAct}
    (k : ∀ t x n n1 n2, t.Ids → (f t x n n1 n2).Numbered) (h : s.Ids) : NextNumbered (residX i d a waits f s) := by
  unfold residX
  refine runS_numbered h (fun _ _ _ h1 => ?_)
  dsimp only
  split
  · exact h1.endMoves.updCtx
  · split
    · exact h1
    · split
      · exact h1.updCtx
      · split
        · exact h1.name.updCtx
        · split
          · exact h1.name
          · split
            · next e => exact ((k _ _ _ _ _ h1.name).ends e).updCtx
            · next e => exact (k _ _ _ _ _ h1.name).begins e
theorem execResidPin_numbered {d a : BitVec 5} (h : s.Ids) : NextNumbered (execResidPin d a s) :=
  residX_numbered (fun _ _ _ _ _ h1 => h1.pinTensor) h
theorem execResidUnpin_numbered {d a : BitVec 5} (h : s.Ids) : NextNumbered (execResidUnpin d a s) :=
  residX_numbered (fun _ _ _ _ _ h1 => h1.unpinTensor) h
theorem execResidDemote_numbered {d a : BitVec 5} (h : s.Ids) : NextNumbered (execResidDemote d a s) :=
  residX_numbered (fun _ _ _ _ _ h1 => h1.demoteTensor) h
theorem execResidEvict_numbered {d a : BitVec 5} (h : s.Ids) : NextNumbered (execResidEvict d a s) :=
  residX_numbered (fun _ _ _ _ _ h1 => h1.evictTensor) h

/-! ### Group images -/

theorem State.Ids.parkedBy {d : BitVec 5} {other : Group} (h : s.Ids) : (s.parkedBy g c d other).Numbered := h.markDelayed.updCtx
theorem execCtxsv_numbered {d a : BitVec 5} (h : s.Ids) : NextNumbered (execCtxsv d a s) := by
  unfold execCtxsv
  refine runS_numbered h (fun _ _ _ h1 => ?_)
  refine supervisor_numbered h1 ?_
  dsimp only
  split
  · exact h1.parkedBy
  · exact h1.updCtx
  · split
    · exact h1.updCtx
    · split
      · exact h1.preempt.updCtx
      · split
        · exact h1.preempt.parkedBy
        · exact h1.preempt.updCtx
        · exact h1.preempt.updCtx
theorem State.Ids.clearFlags {area : Word} (h : s.Ids) : (s.clearFlags area).Ids := h.wr
theorem execCtxld_numbered {kill : Bool} {d a b : BitVec 5} (h : s.Ids) : NextNumbered (execCtxld kill d a b s) := by
  unfold execCtxld
  refine runS_numbered h (fun _ _ _ h1 => ?_)
  refine supervisor_numbered h1 ?_
  dsimp only
  split
  · exact h1.updCtx
  · exact .ite h1 (.ite h1.endMoves.endGroup.updCtx (.ite h1.updCtx h1.resumeGroup.clearFlags.updCtx))

end Sys2Proof.Machine
end

section
/-! PROOF. The groups' numbers stay apart (O60): events. -/

namespace Sys2Proof.Machine

variable {s t : State} {g : Group} {c : Ctx} {j : Job} {i : Instr}

/-! ### Stream deadlock (R124) -/

theorem execStreamDeadlock_numbered {core n : Nat} (h : s.Ids) : NextNumbered (execStreamDeadlock core n s) := by
  unfold execStreamDeadlock
  split
  · exact h.settle.takeTrap
  · exact h

/-! ### Doorbells (R69) -/

theorem execDoorbell_numbered {vf q slot : Nat} (h : s.Ids) : NextNumbered (execDoorbell vf q slot s) := by
  unfold execDoorbell
  show State.Ids _
  split
  · exact h
  · split
    · exact h
    · exact .ite h (.ite h h.setTag.tock.notePublish)

/-! ### World switch (R333) -/

theorem State.Ids.swapCore {out inn : Nat} {x : State × List (Nat × Nat × Core)} {core : Nat} (h : x.1.Ids) :
    (State.swapCore out inn x core).1.Ids :=
  .updCore h
theorem State.Ids.worldSwitch {t : TimeShare} (h : s.Ids) : (s.worldSwitch t).Ids := by
  unfold State.worldSwitch
  dsimp only
  split
  · exact h.foldl fun _ _ h1 => h1.preempt
  · refine .foldl (.foldlFst (h.foldl fun _ _ h2 => h2.preempt) fun _ _ h3 => .swapCore h3) (fun _ _ h4 => ?_)
    split
    · exact .ite h4.resumeGroup h4
    · exact h4
theorem execWorldSwitchSliceEnd_numbered {core : Nat} (h : s.Ids) : NextNumbered (execWorldSwitchSliceEnd core s) := by
  unfold execWorldSwitchSliceEnd
  split
  · exact State.Ids.ite h.worldSwitch h
  · exact h

/-! ### Barrier phases (R290, R291, R303) -/

theorem State.Ids.dropPhase {b : Barrier} (h : s.Ids) : (s.dropPhase b).Ids := by
  unfold State.dropPhase
  split
  · exact h.dropEntries.tellEnds
  · exact h.dropEntries.tellEnds
  · exact h.dropEntries
  · exact h.dropEntries
  · exact h
theorem State.Ids.announce {p : Pod} {b : Barrier} (h : s.Ids) : (s.announce p b).Ids := h.foldl fun _ _ h1 => h1.sendFabric
theorem State.Ids.phaseComplete {b : Barrier} (h : s.Ids) : (s.phaseComplete b).Ids := by
  unfold State.phaseComplete
  split
  · exact h
  · split
    · exact h.announce
    · exact .ite h h.dropPhase.updBarrier
theorem execBarrierPhaseComplete_numbered {i : Nat} (h : s.Ids) : NextNumbered (execBarrierPhaseComplete i s) := by
  unfold execBarrierPhaseComplete
  show State.Ids _
  split
  · exact h.phaseComplete
  · exact h

/-! ### Time, counters, notifications -/

theorem execRefreshWindowEnd_numbered {_die bank : Nat} (h : s.Ids) : NextNumbered (execRefreshWindowEnd _die bank s) :=
  .ite h.advance h
theorem execPmcOverflow_numbered {core n : Nat} (h : s.Ids) : NextNumbered (execPmcOverflow core n s) := by
  unfold execPmcOverflow
  dsimp only
  split
  · split
    · exact State.Ids.ite h.updCore.inform h.updCore
    · exact h.updCore
  · exact h
theorem State.Ids.drainPage {vf : Nat} {x : Nat × Page} (h : s.Ids) : (State.drainPage vf s x).Ids := .ite (.nqPut h) h
theorem execNotifyOverflowDrain_numbered {vf : Nat} (h : s.Ids) : NextNumbered (execNotifyOverflowDrain vf s) :=
  .ite (State.Ids.ite (h.foldl fun _ _ h1 => h1.drainPage) (.nqPending (h.foldl fun _ _ h2 => h2.drainPage))) h

/-! ### The fabric (R310, R311) -/

theorem State.Ids.fabAdopts {w : FabWrite} (h : s.Ids) : (s.fabAdopts w).Ids := h
theorem State.Ids.acknowledged {w : FabWrite} (h : s.Ids) : (s.acknowledged w).Ids := h
theorem State.Ids.fabDone {w : FabWrite} {status : List Byte} (h : s.Ids) : (s.fabDone w status).Ids := h
theorem State.Ids.fabWaits {w : FabWrite} (h : s.Ids) : (s.fabWaits w).Ids := h
theorem State.Ids.fabHeld {w : FabWrite} {va : Nat} {malf : Bool} (h : s.Ids) : (s.fabHeld w va malf).Ids :=
  .ite h.fabWaits h.report
theorem State.Ids.barredAhead {w : FabWrite} {n r : Nat} (h : s.Ids) : (s.barredAhead j w n r).1.Ids := by
  induction n generalizing s r with
  | zero => exact h
  | succ n ih =>
    unfold State.barredAhead
    dsimp only
    split
    · exact JRes.state_numbered h.jobSpots
    · exact JRes.state_numbered h.jobSpots
    · exact ih (JRes.state_numbered h.jobSpots)
theorem State.Ids.commitRow {w : FabWrite} (h : s.Ids) : (s.commitRow w).Ids := by
  unfold State.commitRow
  extract_lets j
  have hb : (if w.data.isEmpty then (s, none) else s.barredAhead j w (w.more.1 + 1) 0).1.Ids := .iteFst h h.barredAhead
  split
  · next e => exact (hb.of_fst e).fabDone
  · next s1 e =>
    have h1 := hb.of_fst e
    have hw : (if w.data.isEmpty then s1.publishSlot j pathFab w.ptr.toNat
        else s1.jobWrite j pathFab w.ptr.toNat w.data).Numbered := .ite h1.publishSlot h1.jobWrite
    split
    · next e => exact (hw.ok e).fabDone
    · next e => exact (hw.busy e).fabWaits
    · next e => exact (hw.hold e).fabHeld
    · next e => exact (hw.fail e).fabDone
theorem State.Ids.fabEnds {w : FabWrite} (h : s.Ids) : (s.fabEnds w).Ids := .ite h h
theorem State.Ids.commitFabric {s0 : State} {w : FabWrite} (h : s0.Ids) : (s0.commitFabric w).Ids := by
  unfold State.commitFabric
  dsimp only
  split
  · exact .ite h.fabAdopts.fabWaits h.fabAdopts.flagStore.fabDone
  · exact h.fabAdopts.commitRow
  · exact h.fabAdopts.fabEnds.fabDone
  · exact .fabDone h.fabAdopts.updBarrier
theorem execFabricWriteArrival_numbered {w : FabWrite} (h : s.Ids) : NextNumbered (execFabricWriteArrival w s) :=
  State.Ids.ite (.ite h.acknowledged h) (.ite h (.ite h (.ite h.usesFabric.fabWaits h.usesFabric.commitFabric)))
theorem execTrelFire_numbered {i : Nat} (h : s.Ids) : NextNumbered (execTrelFire i s) := by
  unfold execTrelFire
  show State.Ids _
  split
  · exact .ite (.trelAll h) h
  · split
    · exact .ite (.commitFabric h) h
    · split
      · exact .ite (.commitFabric h) h
      · exact h
theorem execLinkFailure_numbered {link : Nat} (h : s.Ids) : NextNumbered (execLinkFailure link s) := by
  unfold execLinkFailure
  split
  · exact .ite h h
  · exact h

/-! ### The clock's reference (R352) -/

theorem State.Ids.stepPhc {ns : ℤ} (h : s.Ids) : (s.stepPhc ns).Ids := h
theorem execPtpEventMessage_numbered {port stamp : Nat} (h : s.Ids) : NextNumbered (execPtpEventMessage port stamp s) :=
  .ite h (State.Ids.ite (.stepPhc h) h)
theorem execHoldover_numbered (h : s.Ids) : NextNumbered (execHoldover s) := State.Ids.ite h h

/-! ### The host (R210, R346) -/

theorem execHostRead_numbered {pa n : Nat} (h : s.Ids) : NextNumbered (execHostRead pa n s) := State.Ids.ite h (.ite h h)
theorem State.Ids.hostPut {key : Nat} {data : List Byte} (h : s.Ids) : (s.hostPut key data).Ids :=
  h.tock.codeWrite.store.dropLines.settledWords
theorem State.Ids.barWrite {off v : Nat} (h : s.Ids) : (s.barWrite off v).Ids := by
  unfold State.barWrite
  split
  · exact .ite h h
  · exact h
  · exact h
  · exact h
theorem execHostWrite_numbered {pa : Nat} {data : List Byte} (h : s.Ids) : NextNumbered (execHostWrite pa data s) := by
  unfold execHostWrite
  show State.Ids _
  split
  · exact h.barWrite
  · split
    · exact .ite h.hostPut h
    · split
      · exact h
      · split
        · exact h.hostPut
        · split
          · split
            · exact h
            · exact h.hostPut
          · exact h

/-! ### Uncorrectable soft errors (R318, R343) -/

theorem execUncorrectableSoftError_numbered {w : SoftErr} (h : s.Ids) : NextNumbered (execUncorrectableSoftError w s) := by
  unfold execUncorrectableSoftError
  show State.Ids _
  split
  · split
    · split
      · exact h.settle.takeTrap
      · exact h
    · exact h
  · split
    · exact h.report
    · exact h
  · split
    · split
      · exact h
      · exact h.pfeEnd
      · exact h.endJob
    · exact h
  · split
    · exact .ite h.haltGroup h
    · exact h

end Sys2Proof.Machine
end

section
/-! PROOF. The groups' numbers stay apart (O60): the mailbox, power, and ordered sections. -/

namespace Sys2Proof.Machine

variable {s t : State} {g : Group} {c : Ctx} {j : Job} {i : Instr}

/-! ### A command (R347) -/

/-- What a mailbox command answers: its state, if it has one, has its groups' numbers apart. -/
def MboxNumbered : Except Nat (State × List Byte) → Prop
  | .ok r => r.1.Ids
  | .error _ => True
theorem MboxNumbered.ok {r : Except Nat (State × List Byte)} {b : List Byte} (h : MboxNumbered r) (e : r = .ok (s, b)) :
    s.Ids := by subst e; exact h
theorem MboxNumbered.ite {p : Prop} [Decidable p] {a b : Except Nat (State × List Byte)} (h : MboxNumbered a) (k : MboxNumbered b) :
    MboxNumbered (if p then a else b) := by
  split
  · exact h
  · exact k
theorem State.Ids.mbox {code : Nat} {m : MbCmd} {f : State → Except Nat (State × List Byte)} (h : s.Ids)
    (hf : ∀ t, t.Ids → MboxNumbered (f t)) : (s.mbox code m f).Ids := by
  unfold State.mbox
  extract_lets s1 fail
  have h1 : s1.Ids := h
  have hfail : ∀ st, (fail st).Ids := fun _ => h1
  refine .ite h (.ite (hfail 3) (.ite (hfail 2) ?_))
  split
  · exact hfail _
  · next e =>
    extract_lets s3
    have h3 : s3.Ids := .ite ((hf s1 h1).ok e) ((hf s1 h1).ok e).hostPut
    exact h3.of_ids rfl rfl

/-! ### Virtual functions -/

theorem execVfcfg_numbered {m : MbCmd} (h : s.Ids) : NextNumbered (execVfcfg m s) :=
  h.mbox fun _ h1 => .ite trivial (.ite trivial h1.updVf)
theorem State.Ids.emptyQueue {vf q : Nat} (h : s.Ids) : (State.emptyQueue vf s q).Ids := by
  unfold State.emptyQueue
  split
  · exact h
  · exact .wr (h.foldl fun _ _ h1 => h1.setTag)
theorem State.Ids.emptyStages {l : Launch} (h : s.Ids) : (s.emptyStages l).Ids :=
  h.foldl fun _ _ h1 => .vWr (h1.foldl fun _ _ h2 => h2.setTag)
theorem State.Ids.endStuck {vf : Nat} (h : s.Ids) : (s.endStuck vf).Ids := h
theorem State.Ids.vfReset {vf : Nat} (h : s.Ids) : (s.vfReset vf).Ids :=
  .foldl (.foldl (State.Ids.endStuck (vf := vf) (h.endMoves.foldl fun _ _ h1 => h1.endGroup)) fun _ _ h2 => h2.emptyQueue)
    fun _ _ h3 => h3.emptyStages
theorem State.Ids.vfResetEnd {vf : Nat} (h : s.Ids) : (s.vfResetEnd vf).Ids := .ite h h
theorem execVfreset_numbered {m : MbCmd} (h : s.Ids) : NextNumbered (execVfreset m s) := by
  have hm : (s.mbox 2 m fun s => .ok (s.vfReset m.vf, [])).Ids := h.mbox fun _ h1 => h1.vfReset
  exact State.Ids.ite h.vfResetEnd (.ite hm hm.vfResetEnd)
theorem execCapiss_numbered {m : MbCmd} (h : s.Ids) : NextNumbered (execCapiss m s) := h.mbox fun _ h1 => h1

/-! ### Trust (R355, R356) -/

theorem State.Ids.measure {image : List Byte} (h : s.Ids) : (s.measure image).Ids := h
theorem execCsload_numbered {m : MbCmd} {etype num : Nat} {image sig : List Byte} (h : s.Ids) :
    NextNumbered (execCsload m etype num image sig s) :=
  h.mbox fun _ h1 => .ite trivial (.ite trivial h1)
theorem execAttest_numbered {m : MbCmd} (h : s.Ids) : NextNumbered (execAttest m s) := h.mbox fun _ h1 => h1

/-! ### RESYNC (R349) -/

theorem execResync_numbered {m : MbCmd} (h : s.Ids) : NextNumbered (execResync m s) := h.mbox fun _ h1 => h1

/-! ### Pods, the clock, time shares -/

theorem execPodbar_numbered {m : MbCmd} {pod count : Nat} {ptr : Word} (h : s.Ids) : NextNumbered (execPodbar m pod count ptr s) := by
  refine h.mbox fun _ h1 => .ite trivial ?_
  split
  · exact h1
  · exact .ite trivial (.ite trivial h1)
theorem phcset_numbered {m : MbCmd} {op : Nat} {used : Nat → Bool} {f : Nat → State → Except Nat State} (h : s.Ids)
    (hf : ∀ v t u, t.Ids → f v t = .ok u → u.Ids) : (phcset m op used f s).Ids := by
  refine h.mbox fun t h1 => .ite trivial ?_
  cases e : f (t.mbArg m 32) t with
  | ok u => exact hf _ _ _ h1 e
  | error _ => exact trivial
theorem execPhcsetProfile_numbered {m : MbCmd} (h : s.Ids) : NextNumbered (execPhcsetProfile m s) := by
  refine phcset_numbered h fun _ _ _ h1 e => ?_
  cases e
  exact h1
theorem execPhcsetStep_numbered {m : MbCmd} (h : s.Ids) : NextNumbered (execPhcsetStep m s) := by
  refine phcset_numbered h fun _ _ _ h1 e => ?_
  split at e
  · cases e
  · cases e
    exact h1.stepPhc
theorem execPhcsetSlew_numbered {m : MbCmd} (h : s.Ids) : NextNumbered (execPhcsetSlew m s) := by
  refine phcset_numbered h fun _ _ _ h1 e => ?_
  cases e
  exact h1
theorem execTshare_numbered {m : MbCmd} {cores vfs : List Nat} {slice : Nat} (h : s.Ids) :
    NextNumbered (execTshare m cores vfs slice s) :=
  h.mbox fun _ h1 => .ite trivial (.ite trivial h1)

/-! ### Links and power -/

theorem execLinkctl_numbered {m : MbCmd} {dev links : Nat} (h : s.Ids) : NextNumbered (execLinkctl m dev links s) := by
  unfold execLinkctl
  exact h.mbox fun _ h1 => .ite trivial h1
theorem execPwrlim_numbered {m : MbCmd} (h : s.Ids) : NextNumbered (execPwrlim m s) := by
  unfold execPwrlim
  refine h.mbox fun _ h1 => ?_
  extract_lets v
  clear_value v
  exact .ite trivial h1
theorem execPowerGood_numbered (h : s.Ids) : NextNumbered (execPowerGood s) :=
  .ite h (.ite h (State.Ids.foldl h fun _ _ h1 => h1.measure))
theorem execThermalTrip_numbered : NextNumbered (execThermalTrip s) :=
  ⟨List.nodup_nil, fun _ hg => absurd hg List.not_mem_nil⟩

/-! ### Class X: counters, slots, launch (R82, R83) -/

theorem spotX_numbered {s0 : State} {ea : Word} {n : Nat} {right : Right} {kind : Kind} {w : Who} {k : State → Spot → Nat → Act}
    (h : s0.Ids) (k1 : ∀ t p n, t.Ids → (k t p n).Numbered) : (spotX s0 g c ea n right kind w k).Numbered := by
  unfold spotX
  dsimp only
  split
  · exact Act.fail_numbered h.tried
  · exact h.tried.hold
  · split
    · exact h.tried
    · split
      · exact h.tried
      · split
        · exact Act.fail_numbered h.tried
        · split
          · exact k1 _ _ _ h.tried
          · exact Act.fail_numbered h.tried
theorem State.Ids.noteX {ea : Word} {w : Who} {kind : Kind} {p : Spot} {n : Nat} {b : List Byte} {use : Use} (h : s.Ids) :
    (s.noteX g c ea w kind p n b use).Ids := by
  unfold State.noteX
  refine .touchEa ?_
  refine .homeTurn ?_
  split
  · exact .ite h.noteSpot.updCtx h.noteSpot
  · exact h.noteSpot
theorem countX_numbered {a : BitVec 5} {right : Right} {new : Ctx → Nat → Option Nat} {fin : Nat → Ctx → Ctx} (h : s.Ids) :
    NextNumbered (countX i s a right new fin) := by
  unfold countX
  refine runA_numbered h (fun _ _ _ h1 => ?_)
  refine releaseGate_numbered h1 (fun _ h2 => ?_)
  refine spotX_numbered h2 (fun _ _ _ h3 => ?_)
  dsimp only
  split
  · exact Act.raise_numbered h3
  · exact h3.updCtx.noteX.relAt.putCount.updCtx
theorem execTsbret_numbered (h : s.Ids) : NextNumbered (execTsbret s) := by
  unfold execTsbret
  refine runA_numbered h (fun _ _ _ h1 => ?_)
  split
  · exact h1
  · exact .ite h1 (releaseGate_numbered h1 fun _ h2 => h2.updCtx.updGroup.updLaunch)
theorem execSlotadv_numbered {t : SlotOp} {d a : BitVec 5} (h : s.Ids) : NextNumbered (execSlotadv t d a s) :=
  runA_numbered h fun _ _ _ h1 => .ite (releaseGate_numbered h1 fun _ h2 => spotX_numbered h2 fun _ _ _ h3 =>
    .ite (Act.raise_numbered h3) (.ite (State.Ids.ite h3.noteX.store.updCtx.updCtx.relAt.notePublish h3.noteX.store.updCtx.updCtx.relAt)
      h3.noteX.store.updCtx.acquireVar)) (spotX_numbered h1 fun _ _ _ h4 =>
        .ite (Act.raise_numbered h4) (.ite (State.Ids.ite h4.noteX.store.updCtx.updCtx.relAt.notePublish h4.noteX.store.updCtx.updCtx.relAt)
          h4.noteX.store.updCtx.acquireVar))
theorem publishRecord_numbered {q : QHead} {nw : Bool} {d a : BitVec 5} {tag : Nat} (h : s.Ids) :
    (publishRecord s g c q nw d a tag).Numbered := by
  unfold publishRecord
  extract_lets ea n
  split
  · exact h.hold
  · refine .ite h (.ite (.ite h.updCtx h) (Act.ofRes_numbered h.load128 fun _ _ h1 => ?_))
    dsimp only
    split
    · exact h1
    · next e => exact (h1.qPublish e).updCtx.relAt
theorem execLaunch_numbered {nw : Bool} {d a b : BitVec 5} (h : s.Ids) : NextNumbered (execLaunch nw d a b s) := by
  unfold execLaunch
  refine runA_numbered h (fun _ _ _ h1 => ?_)
  split
  · exact Act.raise_numbered h1
  · exact .ite (Act.raise_numbered h1) (released_numbered h1 fun _ _ h2 => publishRecord_numbered h2)

/-! ### Ordered sections -/

theorem withKey_numbered {s0 : State} {ptr : Word} {k : State → Nat → Act} (h : s0.Ids) (k1 : ∀ t n, t.Ids → (k t n).Numbered) :
    (withKey s0 g c ptr k).Numbered := by
  unfold withKey
  dsimp only
  split
  · exact Act.fail_numbered h.tried
  · split
    · split
      · exact k1 _ _ h.tried
      · exact Act.fail_numbered h.tried
      · exact Act.fail_numbered h.tried
    · split
      · exact Act.fail_numbered h.tried
      · split
        · exact Act.fail_numbered h.tried
        · split
          · exact h.tried.hold
          · exact .ite (Act.fail_numbered h.tried) (.ite (Act.fail_numbered h.tried) (k1 _ _ h.tried))
theorem State.Ids.reserve {gid k : Nat} {ptr : Word} (h : s.Ids) : (s.reserve gid k ptr).Ids := h.updGroup
theorem execOrdentRsv_numbered {a : BitVec 5} (h : s.Ids) : NextNumbered (execOrdentRsv a s) :=
  runA_numbered h fun _ _ _ h1 => withKey_numbered h1 fun _ _ h2 => .ite (Act.raise_numbered h2) (State.Ids.ite h2 h2.reserve)
theorem State.Ids.takeKey {d : BitVec 5} {k : Nat} {ptr : Word} (h : s.Ids) : (s.takeKey g c d k ptr).Ids :=
  h.updKey.updGroup.acquireVar.updCtx
theorem State.Ids.enterKey {d : BitVec 5} {k : Nat} {ptr : Word} (h : s.Ids) : (s.enterKey g c d k ptr).Numbered :=
  .ite (State.Ids.takeKey (.grantKey (.ite h.updGroup h.updGroup.updKey)))
    (State.Ids.updCtx (.grantKey (.ite h.updGroup h.updGroup.updKey)))
theorem execOrdent_numbered {d a : BitVec 5} (h : s.Ids) : NextNumbered (execOrdent d a s) := by
  unfold execOrdent
  refine runA_numbered h (fun _ _ _ h1 => ?_)
  split
  · exact h1.enterKey
  · exact withKey_numbered h1 fun _ _ h2 => .ite (Act.raise_numbered h2) (State.Ids.enterKey (.ite h2 h2.reserve))
theorem execOrdlv_numbered {a : BitVec 5} (h : s.Ids) : NextNumbered (execOrdlv a s) :=
  runA_numbered h fun _ _ _ h1 => withKey_numbered h1 fun _ _ h2 => .ite h2 (releaseGate_numbered h2 fun _ h3 => h3.updCtx.freeKey.relAt)

end Sys2Proof.Machine
end

section
/-! PROOF. The groups' numbers stay apart (O60): every instruction and event, and the step. -/

namespace Sys2Proof.Machine

variable {s t : State} {g : Group} {c : Ctx} {j : Job} {i : Instr}

/-! ### Every instruction and event -/

theorem exec_numbered (h : s.Ids) : NextNumbered (exec i s) := by
  unfold exec
  cases i with
  | nop => exact execNop_numbered h
  | add | sub | mul | mulh | div | rem | and | or | xor | andn | shl | shr | sra | rot | min | max | slt | seq | clz | ctz | pop
  | bfx | bfxImm | xmint => exact alu_numbered h
  | sel | bfi | bfiImm => exact alu3_numbered h
  | li => exact execLi_numbered h
  | lia => exact execLia_numbered h
  | mac => exact execMac_numbered h
  | b | bc | bz => exact branch_numbered h
  | j => exact execJ_numbered h
  | call => exact execCall_numbered h
  | callLabel => exact execCallLabel_numbered h
  | ret => exact execRet_numbered h
  | loop => exact execLoop_numbered h
  | bqe => exact execBqe_numbered h
  | yield => exact execYield_numbered h
  | ld | lds => exact scalarLoad_numbered h
  | st | sts => exact scalarStore_numbered h
  | ldq | ldsq => exact blockLoad_numbered h
  | stq | stsq => exact blockStore_numbered h
  | pfx => exact execPfx_numbered h
  | pushq => exact execPushq_numbered h
  | popq => exact execPopq_numbered h
  | qstat => exact execQstat_numbered h
  | cln | inv => exact cacheLine_numbered h
  | vadd | vsub | vmul | vfma | vfms | vfnma | vmin | vmax | vabs | vneg | vabd | vavg | vclamp | vmulh | vadds | vsubs | vmac
  | vcopysign | vdiv | vsqrt | vrcp | vrsqrt | vexp2 | vlog2 | vsinp | vcosp | vtanh | vsigm | vfloor | vand | vor | vxor | vandn
  | vnot | vshl | vshr | vsra | vrot | vpop | vclz | vbsel | vbfx | vclass | vscale | vmov => exact vMap_numbered h
  | vaddw | vmulw => exact vWide_numbered h
  | vdot => exact execVdot_numbered h
  | vcmp => exact execVcmp_numbered h
  | gand | gor | gxor | gnot | gmov | gfirst | gset => exact vGuard_numbered h
  | gcnt => exact execGcnt_numbered h
  | vcvt => exact execVcvt_numbered h
  | vwiden => exact execVwiden_numbered h
  | vnarrow => exact execVnarrow_numbered h
  | vpack | vunpack => exact vPack_numbered h
  | vqnt => exact execVqnt_numbered h
  | fmtld => exact execFmtld_numbered h
  | vsplat | vidx => exact vFill_numbered h
  | vperm => exact execVperm_numbered h
  | vext => exact execVext_numbered h
  | vins => exact execVins_numbered h
  | vsel => exact execVsel_numbered h
  | vcompress => exact execVcompress_numbered h
  | vexpand => exact execVexpand_numbered h
  | vscan | vred => exact vReduce_numbered h
  | vtopk => exact execVtopk_numbered h
  | vmint => exact execVmint_numbered h
  | vpush => exact execVpush_numbered h
  | vpull => exact execVpull_numbered h
  | kset => exact execKset_numbered h
  | kget => exact execKget_numbered h
  | vlds => exact execVlds_numbered h
  | vsts => exact execVsts_numbered h
  | vldsx => exact execVldsx_numbered h
  | vstsx => exact execVstsx_numbered h
  | rep => exact execRep_numbered h
  | zmov => exact execZmov_numbered h
  | zset => exact execZset_numbered h
  | vtex => exact execVtex_numbered h
  | vwind => exact execVwind_numbered h
  | emsg => exact execEmsg_numbered h
  | jtest | jwait => exact jobX_numbered h
  | amo | amoOrdered => exact amoX_numbered h
  | cas | casOrdered => exact casX_numbered h
  | wacc | waccImm => exact waccX_numbered h
  | ldacq => exact execLdacq_numbered h
  | strel => exact atomicX_numbered h
  | fence => exact execFence_numbered h
  | xfence => exact execXfence_numbered h
  | bar | barv => exact barX_numbered h
  | barwArr => exact execBarwArr_numbered h
  | barwWt => exact execBarwWt_numbered h
  | wfe => exact execWfe_numbered h
  | sev => exact execSev_numbered h
  | deccnt | setcnt => exact countX_numbered h
  | tsbret => exact execTsbret_numbered h
  | slotadv => exact execSlotadv_numbered h
  | ordent => exact execOrdent_numbered h
  | ordentRsv => exact execOrdentRsv_numbered h
  | ordlv => exact execOrdlv_numbered h
  | trel => exact execTrel_numbered h
  | phcrd => exact execPhcrd_numbered h
  | launch => exact execLaunch_numbered h
  | csrr => exact execCsrr_numbered h
  | csrw => exact csrwX_numbered h
  | csrx => exact csrxX_numbered h
  | cohmodeWrite | bndtWrite => exact csrRow_numbered h
  | trap => exact execTrap_numbered h
  | trapN => exact execTrapN_numbered h
  | eret => exact execEret_numbered h
  | start => exact execStart_numbered h
  | hend => exact execHend_numbered h
  | hwait => exact execHwait_numbered h
  | carve => exact execCarve_numbered h
  | rets => exact execRets_numbered h
  | retire => exact execRetire_numbered h
  | xlinvPg => exact execXlinvPg_numbered h
  | xlinvAll => exact execXlinvAll_numbered h
  | xlinvBnd => exact execXlinvBnd_numbered h
  | ctxsv => exact execCtxsv_numbered h
  | ctxld => exact execCtxld_numbered h
  | logrp => exact execLogrp_numbered h
  | idle => exact execIdle_numbered h
  | cload => exact execCload_numbered h
  | residPin => exact execResidPin_numbered h
  | residUnpin => exact execResidUnpin_numbered h
  | residDemote => exact execResidDemote_numbered h
  | residEvict => exact execResidEvict_numbered h
  | brk => exact execBrk_numbered h
  | wdead => exact execWdead_numbered h
  | streamDeadlock => exact execStreamDeadlock_numbered h
  | budgetOverrun => exact h.budgetOverrun
  | doorbell => exact execDoorbell_numbered h
  | launchQueueTake => exact h.launchQueueTake
  | groupStart => exact h.groupStart
  | shareRecompute => exact execShareRecompute_numbered h
  | counterSubmit => exact h.counterSubmit
  | launchCompletion => exact h.launchCompletion
  | reservationRelease => exact h.reservationRelease
  | preemption => exact h.preemption
  | resumption => exact h.resumption
  | worldSwitchSliceEnd => exact execWorldSwitchSliceEnd_numbered h
  | barrierPhaseComplete => exact execBarrierPhaseComplete_numbered h
  | orderedSectionGrant => exact execOrderedSectionGrant_numbered h
  | jobCompletion => exact h.jobCompletion
  | copy => exact h.copy
  | gather => exact h.gather
  | mloadw => exact execMloadw_numbered h
  | mloadb => exact execMloadb_numbered h
  | mma => exact execMma_numbered h
  | mmab => exact execMmab_numbered h
  | mepi => exact execMepi_numbered h
  | traverse => exact h.traverse
  | sweepup | sweepdn => exact h.sweep
  | pfeEmitEntry => exact h.pfeEmit
  | sweepCounterDecrement => exact h.sweepDecrement
  | raster => exact h.raster
  | refreshWindowEnd => exact execRefreshWindowEnd_numbered h
  | trelFire => exact execTrelFire_numbered h
  | pmcOverflow => exact execPmcOverflow_numbered h
  | notifyOverflowDrain => exact execNotifyOverflowDrain_numbered h
  | fabricWriteArrival => exact execFabricWriteArrival_numbered h
  | linkFailure => exact execLinkFailure_numbered h
  | ptpEventMessage => exact execPtpEventMessage_numbered h
  | hostRead => exact execHostRead_numbered h
  | hostWrite => exact execHostWrite_numbered h
  | vfcfg => exact execVfcfg_numbered h
  | vfreset => exact execVfreset_numbered h
  | capiss => exact execCapiss_numbered h
  | csload => exact execCsload_numbered h
  | attest => exact execAttest_numbered h
  | resync => exact execResync_numbered h
  | podbar => exact execPodbar_numbered h
  | phcsetProfile => exact execPhcsetProfile_numbered h
  | phcsetStep => exact execPhcsetStep_numbered h
  | phcsetSlew => exact execPhcsetSlew_numbered h
  | tshare => exact execTshare_numbered h
  | linkctl => exact execLinkctl_numbered h
  | pwrlim => exact execPwrlim_numbered h
  | powerGood => exact execPowerGood_numbered h
  | thermalTrip => exact execThermalTrip_numbered
  | decodeTrap => exact execDecodeTrap_numbered h
  | uncorrectableSoftError => exact execUncorrectableSoftError_numbered h
  | holdover => exact execHoldover_numbered h

/-! ### Contexts -/

theorem State.Ids.at {gid n : Nat} (h : s.Ids) : (s.at gid n).Ids := h
theorem accessTurn_numbered (h : s.Ids) : NextNumbered (accessTurn s g c) := by
  unfold accessTurn
  split
  · exact h
  · split
    · next e => exact .ite (h.fetchSeq.instr e).noteCode.updCtx (exec_numbered (h.fetchSeq.instr e).noteCode)
    · next e => exact exec_numbered (h.fetchSeq.bad e)
    · next e => exact (h.fetchSeq.trap e).fetchTrap
    · next e => exact (h.fetchSeq.page e).hold.updCtx
    · next e => exact (h.fetchSeq.busy e).bankWaitA.updCtx
theorem executeTurn_numbered (h : s.Ids) : NextNumbered (executeTurn s g c) := by
  unfold executeTurn
  dsimp only
  split
  · exact h
  · split
    · exact h.updCtx
    · split
      · next e =>
          exact .ite (h.fetchSeq.instr e).noteCode.updCtx (.ite (exec_numbered (h.fetchSeq.instr e).noteCode)
            (h.fetchSeq.instr e).noteCode.updCtx)
      · next e => exact .ite (h.fetchSeq.page e).hold.updCtx (h.fetchSeq.page e).updCtx
      · next e => exact .ite (h.fetchSeq.trap e).fetchTrapE (h.fetchSeq.trap e).updCtx
      · next e => exact .ite (h.fetchSeq.bad e).fetchTrapE (h.fetchSeq.bad e).updCtx
      · next e => exact (h.fetchSeq.busy e).bankWaitE.updCtx
theorem contextTurn_numbered {core n : Nat} {f : State → Group → Ctx → Host.Outcome State Fault Refusal} (h : s.Ids)
    (k1 : ∀ t g c, t.Ids → NextNumbered (f t g c)) : NextNumbered (contextTurn s core n f) := by
  unfold contextTurn
  split
  · exact h
  · split
    · exact h.bindTiles
    · split
      · exact h.finishStop
      · split
        · exact h.budgetTrap
        · split
          · exact h
          · exact k1 _ _ _ h.at

/-! ### Engines and events -/

theorem turn_numbered {t : Turn} (h : s.Ids) : NextNumbered (turn t s) := by
  unfold turn
  split
  · exact contextTurn_numbered h fun _ _ _ h1 => accessTurn_numbered h1
  · exact contextTurn_numbered h fun _ _ _ h2 => executeTurn_numbered h2
  · split
    · exact exec_numbered h
    · exact h
  · exact .ite (exec_numbered h) h

/-! ### What can happen next -/

theorem State.Ids.ownTurn (h : s.Ids) : NextNumbered s.ownTurn := by
  unfold State.ownTurn
  split
  · exact h
  · exact turn_numbered h

/-! ### One step -/

theorem State.Ids.withScript {l : List (Turn × Nat)} (h : s.Ids) : ({ s with script := l } : State).Ids := h
theorem step_numbered (h : s.Ids) : NextNumbered (step s) := by
  unfold step
  have h1 := h.drainPending
  generalize s.drainPending = u at h1 ⊢
  split
  · exact h1.advance.ownTurn
  · exact turn_numbered h1.withScript.advance

/-- Settles O60: a step is a turn of a state whose groups' numbers are apart, and no turn gives one number to two groups. -/
theorem stepKeepsGroupNumbers : Obligations.StepKeepsGroupNumbers := by
  unfold Obligations.StepKeepsGroupNumbers
  intro s t h e
  have hs := step_numbered h
  rw [e] at hs
  exact hs

end Sys2Proof.Machine
end

section
/-! PROOF. Counters, tile retirement, slots and launch (O43, O44, O49). -/

namespace Sys2Proof.Machine

variable {i : Instr} {s t : State} {g : Group} {c : Ctx} {f : State → Group → Ctx → Act}

/-! ### The end of an access-stream instruction, as the statements say it -/

/-- The instruction's stream goes on behind it, as DoneA and EndsA write its address. -/
theorem runA_doneA (h : s.Acts g c) (e : f s g c = .done t) : runA i s f = .next (t.endsA g c (inRegion c.pcA i.size)) := by
  rw [runA_done h e, nextPc_eq]

/-! ### An access of R82 that may be made -/

/-- An instruction of R82 goes on with the spot at which it may act. -/
theorem spotX_admitted {ea : Word} {n key : Nat} {right : Right} {kind : Kind} {w : Who} {p : Spot}
    (h : s.AdmitsX g c ea n right kind w p key) (k : State → Spot → Nat → Act) :
    spotX s g c ea n right kind w k = k (s.tried g c ea n n right) p key := by
  have kept := tried_checksAs s g c ea n n right
  have logged : (!isLocal ea && g.logged ea.toNat n) = false := by
    rcases h.log with e | e <;> simp [e]
  obtain ⟨home, tracked, leaf, rfl⟩ := h.place
  simp only [spotX, h.probe, logged, kept.moves, h.moves, kept.checkSpot, h.order, Bool.false_eq_true, if_false]

/-! ### Counters (R83) -/

section
variable {a : BitVec 5} {right : Right} {new : Ctx → Nat → Option Nat} {fin : Nat → Ctx → Ctx} {p : Spot} {key : Nat}

/-- A counter that takes a new value: the write, the release, and what the instruction gives for the old value. -/
theorem countX_done {n : Nat} (ha : s.Acts g c) (hg : s.GateOpen g c)
    (h : s.AdmitsX g c (c.readX a) 16 right .atomic (c.release.who false pathCore) p key)
    (hn : new c ((s.tried g c (c.readX a) 16 16 right).rd key 4) = some n) :
    countX i s a right new fin =
      .next ((((((((s.tried g c (c.readX a) 16 16 right).updCtx g.id c.num Ctx.release).noteX g c (c.readX a)
        (c.release.who false pathCore) .atomic p 16 (bytesOfNat 4 n) (if right == .w then .write 0 else .both)).relAt g c.sync.agent
        (c.relTag + 1) .pk key).putCount g.vf key (c.readX a).toNat n (c.sync.acq ++ c.sync.bars)).updCtx g.id c.num
        (fin ((s.tried g c (c.readX a) 16 16 right).rd key 4))).endsA g c (inRegion c.pcA i.size))) := by
  refine runA_doneA ha ?_
  simp only [releaseGate_open hg, spotX_admitted h, hn]
theorem countX_traps (ha : s.Acts g c) (hg : s.GateOpen g c)
    (h : s.AdmitsX g c (c.readX a) 16 right .atomic (c.release.who false pathCore) p key)
    (hn : new c ((s.tried g c (c.readX a) 16 16 right).rd key 4) = none) :
    countX i s a right new fin = .next ((s.tried g c (c.readX a) 16 16 right).trapsA g c 0x18 (firstParcel i)) := by
  refine runA_raise ha hg.1 ?_
  simp only [releaseGate_open hg, spotX_admitted h, hn]
end

/-- Settles O43: a count that the rule gives is written and released, deccnt's trap at 0 is the count that it has not. -/
theorem counterResult : Obligations.CounterResult := by
  unfold Obligations.CounterResult
  intro s g c d a b p key ha hg ea w kept after
  refine ⟨fun h => ?set, fun hold h => ?dec, fun hzero h => ?underflow, fun l hl => ⟨fun hno => ?none, fun htiles hret => ?retired⟩⟩
  case set =>
    show execSetcnt a b s = _
    exact countX_done ha hg h rfl
  case dec =>
    show execDeccnt d a s = _
    exact countX_done ha hg h (if_neg (by simpa using hold))
  case underflow =>
    show execDeccnt d a s = _
    exact countX_traps ha hg h (if_pos (by simpa using hzero))
  case none =>
    show execTsbret s = _
    refine runA_doneA ha ?_
    simp only [hl]
    exact if_pos (by simpa using hno)
  case retired =>
    show execTsbret s = _
    refine runA_doneA ha ?_
    simp only [hl]
    rw [if_neg (by simp [htiles, hret])]
    exact releaseGate_open hg _

/-! ### Slots (R68) -/

/-- A release that not every form makes, its waits over where it is made. -/
theorem releaseGate_ite {b : Bool} (h : b = true → s.GateOpen g c) (k : State → Act) :
    (if b then releaseGate s g c k else k s) = k s := by
  cases b with
  | false => rfl
  | true => exact releaseGate_open (h rfl) k

section
variable {op : SlotOp} {d a : BitVec 5} {p : Spot} {key : Nat}

/-- The context for which slotadv acts: behind its release, where it makes one. -/
def Ctx.slotCtx (c : Ctx) (op : SlotOp) : Ctx := if SlotOp.releases op then c.release else c
/-- The state in which slotadv has replaced the tag and given its old state. -/
def State.slotMoved (s : State) (g : Group) (c : Ctx) (op : SlotOp) (d a : BitVec 5) (p : Spot) (key : Nat) : State :=
  let s0 := s.tried g c (c.readX a) 1 1 .rw
  let tag := [BitVec.ofNat 8 (tagPut (s0.rd key 1) ((SlotOp.src op + 1) % 4))]
  ((s0.noteX g c (c.readX a) ((c.slotCtx op).who false pathCore) .tag p 1 tag .both).store key tag).updCtx g.id c.num fun x =>
    x.writeX d (wordOf (s0.rd key 1 % 4))
/-- What slotadv does behind its move: it releases, and notes a publication, or it acquires. -/
def State.slotOrdered (s t : State) (g : Group) (c : Ctx) (op : SlotOp) (a : BitVec 5) (key : Nat) : State :=
  let rels := (t.updCtx g.id c.num Ctx.release).relAt g c.sync.agent (c.relTag + 1) .pk key
  match op with
  | .publish => rels.notePublish key (c.sync.acq ++ c.sync.bars)
  | .free => rels
  | .claim | .take => t.acquireVar g.id c.num key 1 (s.tried g c (c.readX a) 1 1 .rw).tick .pk

theorem execSlotadv_done (ha : s.Acts g c) (hg : SlotOp.releases op = true → s.GateOpen g c)
    (h : s.AdmitsX g c (c.readX a) 1 .rw .tag ((c.slotCtx op).who false pathCore) p key)
    (hold : (s.tried g c (c.readX a) 1 1 .rw).rd key 1 % 4 = SlotOp.src op) :
    execSlotadv op d a s = .next ((s.slotOrdered (s.slotMoved g c op d a p key) g c op a key).endsA g c
      (inRegion c.pcA (Instr.slotadv op d a).size)) := by
  refine runA_doneA ha ?_
  dsimp only
  rw [releaseGate_ite hg]
  refine (spotX_admitted h _).trans ?_
  rw [if_neg (by simp [hold])]
  cases op <;> rfl
theorem execSlotadv_traps (ha : s.Acts g c) (hd : c.drained = true) (hg : SlotOp.releases op = true → s.GateOpen g c)
    (h : s.AdmitsX g c (c.readX a) 1 .rw .tag ((c.slotCtx op).who false pathCore) p key)
    (hold : (s.tried g c (c.readX a) 1 1 .rw).rd key 1 % 4 ≠ SlotOp.src op) :
    execSlotadv op d a s = .next ((s.tried g c (c.readX a) 1 1 .rw).trapsA g c 0x1A (firstParcel (.slotadv op d a))) := by
  refine runA_raise ha hd ?_
  dsimp only
  rw [releaseGate_ite hg]
  refine (spotX_admitted h _).trans ?_
  exact if_pos (by simpa using hold)
end

/-- Settles O44: in the state that its operation needs slotadv moves the tag and orders, in any other it traps. -/
theorem slotResult : Obligations.SlotResult := by
  unfold Obligations.SlotResult
  intro s g c op d a p key ha src rel w s0 old tag hg h s1 rels
  have hrel : rel ↔ SlotOp.releases op = true := by cases op <;> decide
  have hsrc : src = SlotOp.src op := by cases op <;> rfl
  have hctx : (if rel then c.release else c) = c.slotCtx op := if_congr hrel rfl rfl
  have hadm : s.AdmitsX g c (c.readX a) 1 .rw .tag ((c.slotCtx op).who false pathCore) p key := hctx ▸ h
  have hgate := fun e => hg (hrel.2 e)
  refine ⟨fun hold => ?_, fun hold hd => execSlotadv_traps ha hd hgate hadm (hsrc ▸ hold)⟩
  refine (execSlotadv_done ha hgate hadm (hsrc ▸ hold)).trans ?_
  cases op <;> rfl

/-! ### launch (R83) -/

section
variable {h : QHead} {nw : Bool} {d a b : BitVec 5} {tag : Nat}

/-- A launch queue that is absent, or that the host writes. -/
theorem execLaunch_traps (ha : s.Acts g c) (hd : c.drained = true)
    (hq : ∀ h, s.qHead g.vf ((c.readX b).toNat % 2 ^ 32) = some h → h.mode = 1) :
    execLaunch nw d a b s = .next (s.trapsA g c 0x14 (firstParcel (.launch nw d a b))) := by
  refine runA_raise ha hd ?_
  split
  · rfl
  · next h e => exact if_pos (by simpa using hq h e)
/-- Where programs write the queue, launch comes to what it publishes, its release made. -/
theorem execLaunch_publishes (ha : s.Acts g c) (hq : s.qHead g.vf ((c.readX b).toNat % 2 ^ 32) = some h) (hm : h.mode ≠ 1)
    (hr : s.Released g c t tag) :
    execLaunch nw d a b s = runA (.launch nw d a b) s fun _ _ _ => publishRecord t g c h nw d a tag := by
  simp only [execLaunch, runA, show s.here? = some (g, c) from ha, hq, beq_iff_eq, hm, if_false, released_made hr]
/-- Neither the tag nor the slot at widx is on a page that is not mapped. -/
theorem unmapped_none (ht : s.unmappedAt g.vf (h.tags + h.widx % h.cap) = none)
    (hs : s.unmappedAt g.vf (h.slots + 128 * (h.widx % h.cap)) = none) :
    ([h.tags + h.widx % h.cap, h.slots + 128 * (h.widx % h.cap)].findSome? fun p => (s.unmappedAt g.vf p).map fun m => (p, m)) =
      none := by
  simp [ht, hs]
/-- No slot is empty. -/
theorem publishRecord_full (ht : s.unmappedAt g.vf (h.tags + h.widx % h.cap) = none)
    (hs : s.unmappedAt g.vf (h.slots + 128 * (h.widx % h.cap)) = none) (hw : s.vWaits (h.nextSlot g.vf) = false)
    (hfull : s.tagAt g.vf (h.tags + h.widx % h.cap) % 4 ≠ 0) :
    publishRecord s g c h nw d a tag =
      if nw then .done (s.updCtx g.id c.num fun x => x.writeX d (BitVec.allOnes 64)) else .wait s (.other false) := by
  simp only [publishRecord, unmapped_none ht hs, hw, Bool.false_eq_true, if_false]
  exact if_pos (by simpa using hfull)
end

/-- Settles O49: launch's checks of its queue, and what its publication comes to. -/
theorem launchResult : Obligations.LaunchResult := by
  unfold Obligations.LaunchResult
  intro s s0 s1 g c nw d a b h v tag ha
  refine ⟨fun hq hd => execLaunch_traps ha hd fun h' e => ?absent,
    fun hq => ⟨fun hm hd => execLaunch_traps ha hd fun h' e => ?host, ?_⟩⟩
  case absent => exact absurd (hq.symm.trans e) nofun
  case host => exact Option.some.inj (hq.symm.trans e) ▸ hm
  intro hm hr n ht hs
  have publishes : exec (.launch nw d a b) s = _ := execLaunch_publishes ha hq hm hr
  have mapped := unmapped_none ht hs
  refine ⟨fun hw => publishes.trans (runA_wait ha ?moves), fun hw hfull => ⟨fun hnw => publishes.trans (runA_doneA ha ?full),
    fun hnw => publishes.trans (runA_wait ha ?waits)⟩,
    fun hw hempty hload slot s3 hpub => publishes.trans (runA_doneA ha ?published)⟩
  case moves => simp only [publishRecord, mapped, hw, if_true]
  case full => exact (publishRecord_full ht hs hw hfull).trans (if_pos hnw)
  case waits => exact (publishRecord_full ht hs hw hfull).trans (if_neg (by simp [hnw]))
  case published =>
    have empty : (s0.tagAt g.vf (h.tags + h.widx % h.cap) % 4 != 0) = false := by simpa using hempty
    simp only [publishRecord, mapped, hw, empty, Bool.false_eq_true, if_false, hload, Act.ofRes, hpub]
    rfl

end Sys2Proof.Machine
end
section
/-! PROOF. Events of the queue managers and contexts (O55): what queue managers leave of the groups. -/

namespace Sys2Proof.Machine

/-! ### Lines that leave a cache, and the slices (R206, R207, R209) -/

/-- A fold of steps that leave the groups and the cursor. -/
theorem foldl_who {α : Type} {f : State → α → State} (hf : ∀ s a, (f s a).who = s.who) (l : List α) (s : State) :
    (l.foldl f s).who = s.who := foldl_keep State.who f hf l s

@[simp] theorem sliceWrite_who (s : State) (l : Line) : (s.sliceWrite l).who = s.who := by
  unfold State.sliceWrite
  split <;> simp
@[simp] theorem sliceStore_who (s : State) (l : Line) (part : BitVec 16) : (s.sliceStore l part).who = s.who := by
  unfold State.sliceStore
  split <;> simp
@[simp] theorem writeBack_who (s : State) (l : Line) : (s.writeBack l).who = s.who := by
  unfold State.writeBack
  split <;> simp
@[simp] theorem keepLines_who (s : State) (core cap : Nat) : (s.keepLines core cap).who = s.who :=
  (foldl_who writeBack_who _ _).trans (updCore_who ..)
@[simp] theorem cleanSlices_who (s : State) (p : Line → Bool) : (s.cleanSlices p).who = s.who :=
  foldl_who pageLine_who (s.slices.filter fun x => p x && x.dirty != 0) s
@[simp] theorem flushLines_who (s : State) (p : Line → Bool) : (s.flushLines p).who = s.who :=
  (cleanSlices_who _ p).trans (foldl_who writeBack_who _ s)
@[simp] theorem dropRange_who (s : State) (vf : Nat) (x : Nat × Nat × Nat) : (s.dropRange vf x).who = s.who := flushLines_who ..

/-! ### Reads of a queue manager (R206, R215, R228) -/

@[simp] theorem keepWalk_who (s : State) (vf va : Nat) : (s.keepWalk vf va).who = s.who := by
  unfold State.keepWalk
  split <;> simp
@[simp] theorem engLines_who (s : State) (vf : Nat) (p : Spot) (n : Nat) (isStore : Bool) : (s.engLines vf p n isStore).who = s.who := by
  unfold State.engLines
  split
  · refine foldl_who (fun t x => ?_) _ s
    split <;> simp
  · rfl
@[simp] theorem engTouched_who (s : State) (vf ptr n : Nat) : (s.engTouched vf ptr n).who = s.who := by
  unfold State.engTouched
  split
  · rfl
  · refine foldl_who (fun t x => ?_) _ s
    unfold State.touch
    split <;> rfl
@[simp] theorem vUses_who (l : VReads) (s : State) : (s.vUses l).who = s.who := by
  refine foldl_who (fun t x => ?_) l s
  refine foldl_who (fun u y => ?_) _ t
  unfold State.vUsePage
  split <;> simp

/-! ### A launch that ends leaves the groups (R72, R209, R303) -/

@[simp] theorem tellEnds_who (s : State) (vf : Nat) (all : Bool) (l : List (Nat × Option Nat)) : (s.tellEnds vf all l).who = s.who := by
  unfold State.tellEnds
  split <;> rfl
@[simp] theorem dropEntries_who (s : State) (global : Bool) (p : Entry → Bool) : (s.dropEntries global p).who = s.who := rfl

/-! ### A context after what does not reach it -/

theorem cx_of_groups {s t : State} (h : t.groups = s.groups) (a n : Nat) : t.cx a n = s.cx a n := by
  unfold State.cx State.group?
  rw [h]
theorem cx_of_who {s t : State} (h : t.who = s.who) (a n : Nat) : t.cx a n = s.cx a n := cx_of_groups (congrArg Prod.fst h) a n
/-- A change of a group that leaves its number and its contexts. -/
theorem cx_updGroup (s : State) (gid a n : Nat) (f : Group → Group) (hid : ∀ x, (f x).id = x.id) (hc : ∀ x, (f x).ctxs = x.ctxs) :
    (s.updGroup gid f).cx a n = s.cx a n := by
  unfold State.cx
  rw [group_updGroup s gid a f hid]
  cases s.group? a with
  | none => rfl
  | some g =>
    simp only [Option.map_some, Option.bind_some]
    split
    · simp only [Group.ctx?, hc]
    · rfl
@[simp] theorem setTile_who (s : State) (cl t : Nat) (x : Tile) : (s.setTile cl t x).who = s.who := rfl
theorem bindTiles_cx (s : State) (gid a n : Nat) : (s.bindTiles gid).cx a n = s.cx a n := by
  unfold State.bindTiles
  split
  · rfl
  · dsimp only
    split
    · rfl
    · rw [cx_of_who (foldl_who (fun t x => setTile_who t _ x _) _ _)]
      exact cx_updGroup s gid a n _ (fun _ => rfl) fun _ => rfl

/-- The context with which a group starts (R74, R91). -/
def State.firstCtx (s : State) (l : Launch) (n : NewGroup) : Ctx :=
  let v := s.vf l.vf
  let c := Ctx.fresh 0 s.nextAgent (kEntry n.kobj) n.x1 v.tvec v.bndt (kSup n.kobj)
  { c with sync := n.acq.foldl Sync.add c.sync, accA := 1, seenA := 1, acqAt := s.tick + 1 }
/-- The control context of a new group, whose number no other group has. -/
theorem startGroup_cx {s : State} (l : Launch) (n : NewGroup) (h : ∀ x ∈ s.groups, x.id ≠ s.nextId) :
    (s.startGroup l n).cx s.nextId 0 = some (s.firstCtx l n) := by
  have fresh : (s.groups.find? fun x => x.id == s.nextId) = none := List.find?_eq_none.2 fun x hx => by simpa using h x hx
  unfold State.startGroup
  extract_lets v agent c0 c1 g f s0 s1 core s2
  have started : s1.cx s.nextId 0 = some c1 := by
    have found : s1.group? s.nextId = some g := by
      show (s.groups ++ [g]).find? _ = _
      rw [List.find?_append, fresh, Option.none_or]
      exact List.find?_cons_of_pos (p := fun x : Group => x.id == s.nextId) (beq_self_eq_true s.nextId)
    simp only [State.cx, found, Option.bind_some]
    rfl
  calc (s2.bindTiles g.id).cx s.nextId 0 = s2.cx s.nextId 0 := bindTiles_cx ..
    _ = s1.cx s.nextId 0 := cx_of_who (keepLines_who ..) ..
    _ = some (s.firstCtx l n) := started
theorem firstCtx_x1 (s : State) (l : Launch) (n : NewGroup) : (s.firstCtx l n).readX 1 = n.x1 := by
  show (RegFile.zero.put (.x 1) _ _).x[1] = _
  rw [putX _ _ _ (by decide)]
  exact Vector.getElem_set_self ..

end Sys2Proof.Machine
end

section
/-! PROOF. Events of the queue managers and contexts (O55): each event when it is due. -/

namespace Sys2Proof.Machine

variable {s : State} {g : Group} {c : Ctx}

/-! ### Stream deadlock (R124) -/

/-- A stream that waits for the other at a queue: one of q4 to q6 goes from the execute stream to the access stream, any other the
other way (R121). -/
theorem awaitCode_of_queue {q : Nat} {b : Bool} (hw : c.waitA = some (.queue q b))
    (h : if 4 ≤ q ∧ q ≤ 6 then c.queues.count q = 0 else queueDepth q ≤ c.queues.count q) : c.awaitCode = some q := by
  simp only [Ctx.awaitCode, hw, Bool.and_eq_true, decide_eq_true_eq, Queues.isEmpty, Queues.full, beq_iff_eq]
  split <;> rename_i hq
  · rw [if_pos hq] at h
    exact if_pos h
  · rw [if_neg hq] at h
    exact if_pos h
theorem ewaitCode_of_queue {p : Nat} {b : Bool} (hw : c.waitE = some (.queue p b))
    (h : if 4 ≤ p ∧ p ≤ 6 then queueDepth p ≤ c.queues.count p else c.queues.count p = 0) : s.ewaitCode g c = some p := by
  simp only [State.ewaitCode, hw, Bool.and_eq_true, decide_eq_true_eq, Queues.isEmpty, Queues.full, beq_iff_eq]
  split <;> rename_i hp
  · rw [if_pos hp] at h
    exact if_pos h
  · rw [if_neg hp] at h
    exact if_pos h
/-- Streams that wait at their instructions stand where they are. -/
theorem settled_of_waits {a : Wait} {p : Nat} {b : Bool} (ha : c.waitA = some a) (he : c.waitE = some (.queue p b)) :
    s.settled g c = c := by
  have held : (c.waitE.isSome && c.waitE != some .commit) = true := by simp [he]
  simp only [State.settled, ha, Option.isSome_some, if_true, held]
theorem streamDeadlock_queues {core n q p : Nat} {b w : Bool} (hg : s.groupOn? core = some g) (hc : g.ctx? n = some c)
    (ha : c.waitA = some (.queue q b)) (he : c.waitE = some (.queue p w))
    (hq : if 4 ≤ q ∧ q ≤ 6 then c.queues.count q = 0 else queueDepth q ≤ c.queues.count q)
    (hp : if 4 ≤ p ∧ p ≤ 6 then queueDepth p ≤ c.queues.count p else c.queues.count p = 0) :
    execStreamDeadlock core n s =
      .next ((s.settle g c).takeTrap g.id n 0x04 (BitVec.ofNat 64 (p * 256 + q)) c.pcA c.pcE) := by
  simp only [execStreamDeadlock, State.deadlocked, hg, hc, awaitCode_of_queue ha hq, ewaitCode_of_queue he hp, settled_of_waits ha he]

/-! ### Budgets (R78) -/

theorem overBudget_of {core : Nat} (hg : s.groupOn? core = some g) (hu : g.unbound = false) (hpos : 0 < g.budget)
    (hused : g.budget < g.used) (ho : g.overran = false) (hs : g.stopping = none) (hc : g.ctx? 0 = some c)
    (ht : c.csr.intrap = false) : g.overBudget = true := by
  have runs : g.runs = true := by
    have found := List.find?_some hg
    exact (Bool.and_eq_true_iff.1 found).2
  have budget : (g.budget != 0) = true := by simpa using hpos.ne'
  simp [Group.overBudget, runs, hs, hu, budget, hused, ho, hc, ht]

/-! ### Doorbells (R69) -/

section
variable {vf q n : Nat} {h : QHead}

theorem doorbell_off (hb : s.mbrdy = false) : execDoorbell vf q n s = .next s := by
  simp only [execDoorbell, hb, Bool.not_false, if_true]
theorem doorbell_open (hb : s.mbrdy = true) (hq : s.qHead vf q = some h) (hm : h.mode = 1) (hn : n < h.cap)
    (ht : s.tagAt vf (h.tags + n) % 4 < 2) :
    execDoorbell vf q n s = .next (if s.vWaits [(vf, h.tags + n, 1)] then s
      else ((s.setTag vf (h.tags + n) 2).tock).notePublish (s.tagKey vf (h.tags + n)) []) := by
  have good : (h.mode != 1 || h.cap ≤ n || 2 ≤ s.tagAt vf (h.tags + n) % 4) = false := by
    simp [hm, Nat.not_le.2 hn, Nat.not_le.2 ht]
  simp only [execDoorbell, hb, hq, good, Bool.not_true, Bool.false_eq_true, if_false]
theorem doorbell_bad (hb : s.mbrdy = true) (hq : s.qHead vf q = some h) (ht : 2 ≤ s.tagAt vf (h.tags + n) % 4) :
    execDoorbell vf q n s =
      .next { s with errors := s.errors ++ [{ kind := .doorbell, vf := some vf, addr := 0x100 + 8 * q }] } := by
  have bad : (h.mode != 1 || h.cap ≤ n || 2 ≤ s.tagAt vf (h.tags + n) % 4) = true := by simp [ht]
  simp only [execDoorbell, hb, hq, bad, Bool.not_true, Bool.false_eq_true, if_false, if_true]
end

/-! ### Taking a launch (R70, R73) -/

section
variable {cls die vf q : Nat} {h : QHead}

/-- The record at ridx of a queue, and the state in which its slot has been emptied (R70). -/
def State.takeRecord (s : State) (vf : Nat) (h : QHead) : LRec := BitVec.ofNat 1024 (s.vRd vf (h.slots + 128 * (h.ridx % h.cap)) 128)
def State.takeSlot (s : State) (die vf : Nat) (h : QHead) : State :=
  ((s.vUses (s.takeReads die vf (s.takeRecord vf h))).setTag vf (h.tags + h.ridx % h.cap) 0).wr (hbm (h.pa + 24)) 4
    ((h.ridx + 1) % 2 ^ 32)

theorem launchQueueTake_waits (hb : s.mbrdy = true) (ht : s.nextTake die = some (cls, vf, q, h))
    (hw : s.vWaits (s.takeReads die vf (s.takeRecord vf h) ++ endPlaces vf (s.takeRecord vf h)) = true) :
    s.launchQueueTake die = s := by
  unfold State.takeRecord at hw
  simp only [State.launchQueueTake, hb, ht, hw, Bool.not_true, Bool.false_eq_true, if_false, if_true]
theorem launchQueueTake_refused {st : Nat} (hb : s.mbrdy = true) (ht : s.nextTake die = some (cls, vf, q, h))
    (hw : s.vWaits (s.takeReads die vf (s.takeRecord vf h) ++ endPlaces vf (s.takeRecord vf h)) = false)
    (hc : (s.takeSlot die vf h).checkLaunch vf die (s.takeRecord vf h) = .error st) :
    s.launchQueueTake die = (s.takeSlot die vf h).refuse vf (s.takeRecord vf h) st := by
  unfold State.takeSlot State.takeRecord at *
  simp only [State.launchQueueTake, hb, ht, hw, hc, Bool.not_true, Bool.false_eq_true, if_false]
theorem launchQueueTake_admitted {y : Admission} (hb : s.mbrdy = true) (ht : s.nextTake die = some (cls, vf, q, h))
    (hw : s.vWaits (s.takeReads die vf (s.takeRecord vf h) ++ endPlaces vf (s.takeRecord vf h)) = false)
    (hc : (s.takeSlot die vf h).checkLaunch vf die (s.takeRecord vf h) = .ok y)
    (hroom : lTree (s.takeRecord vf h) = 0 ∨
      s.roomBehind (64 * s.treeDie vf die (s.recordClass vf (s.takeRecord vf h)) (s.takeRecord vf h) y.1) .pfe (fun _ => true) = true) :
    s.launchQueueTake die = (s.takeSlot die vf h).admitLaunch vf die (s.takeRecord vf h) (h.slots + 128 * (h.ridx % h.cap))
      (s.relsOf (s.tagKey vf (h.tags + h.ridx % h.cap)) (s.publishedAt (s.tagKey vf (h.tags + h.ridx % h.cap))).1)
      (s.coversAt (s.tagKey vf (h.tags + h.ridx % h.cap))) y := by
  have room : (lTree (s.takeRecord vf h) != 0 && !s.roomBehind
      (64 * s.treeDie vf die (s.recordClass vf (s.takeRecord vf h)) (s.takeRecord vf h) y.1) .pfe (fun _ => true)) = false := by
    rcases hroom with e | e <;> simp [e]
  unfold State.takeSlot State.takeRecord at *
  simp only [State.launchQueueTake, hb, ht, hw, hc, room, Bool.not_true, Bool.false_eq_true, if_false]
end

/-! ### Submissions of counters (R81) -/

section
variable {n k : Nat} {x : Submit} {h : QHead} {t : State}

theorem counterSubmit_waits (hx : s.submits[n]? = some x) (hq : s.qHead x.vf x.lq = some h) (hm : h.mode ≠ 1)
    (hw : s.vWaits ((x.vf, x.lrec.toNat, 128) :: h.nextSlot x.vf) = true) : s.counterSubmit n = s := by
  simp only [State.counterSubmit, hx, hq, beq_iff_eq, hm, if_false, hw, if_true]
theorem counterSubmit_publishes (hx : s.submits[n]? = some x) (hq : s.qHead x.vf x.lq = some h) (hm : h.mode ≠ 1)
    (hw : s.vWaits ((x.vf, x.lrec.toNat, 128) :: h.nextSlot x.vf) = false)
    (hp : (State.vUse { s with submits := s.submits.eraseIdx n } x.vf x.lrec.toNat 128 false).qPublish x.vf h
      (bytesOfNat 128 (s.vRd x.vf x.lrec.toNat 128)) x.covers = some (k, t)) :
    s.counterSubmit n = x.acq.foldl (fun (w : State) (y : Acq) => w.addRel
      { var := t.tagKey x.vf (h.tags + k), agent := y.agent, tag := y.tag, scope := .pk,
        loc := { vf := x.vf, launch := 0, gid := 0, core := 0 }, tick := t.tick }) t := by
  simp only [State.counterSubmit, hx, hq, beq_iff_eq, hm, if_false, hw, Bool.false_eq_true, hp]
end

/-! ### Completion of a launch (R72, R373) -/

theorem launch?_filter (s : State) (n : Nat) : (s.launches.filter fun l => l.id != n).find? (fun l => l.id == n) = none := by
  simp [List.find?_eq_none]
/-- What a launch's completion ends before it writes: its ranges, its entries, what other devices know of its agents. -/
theorem launchEnds_who (s : State) (l : Launch) :
    (((l.ranges.foldl (fun (s : State) x => s.dropRange l.vf x) (s.vUses l.stageReads)).dropEntries true
      fun e => l.agents.contains e.own).tellEnds l.vf true (l.agents.map fun a => (a, none))).who = s.who := by
  rw [tellEnds_who, dropEntries_who, foldl_who (fun t x => dropRange_who t l.vf x), vUses_who]
/-- A launch that has ended is gone before its record is written; no group has changed. -/
theorem launchCompletion_completes {n : Nat} {l : Launch} (hl : s.launch? n = some l) (hd : s.launchDone l = true)
    (hw : s.vWaits (endPlaces l.vf l.record) = false) :
    ∃ t : State, t.launch? n = none ∧ t.groups = s.groups ∧
      s.launchCompletion n = t.complete l.vf l.record l.overruns l.lowest (s.launchStatus l) 0 l.agents := by
  have due : (!s.launchDone l || s.vWaits (endPlaces l.vf l.record)) = false := by simp [hd, hw]
  unfold State.launchCompletion
  simp only [hl, due, Bool.false_eq_true, if_false]
  refine ⟨_, ?_, ?_, rfl⟩
  · exact launch?_filter _ n
  · exact congrArg Prod.fst (launchEnds_who s l)
theorem launchCompletion_waits {n : Nat} {l : Launch} (hl : s.launch? n = some l) (hw : s.vWaits (endPlaces l.vf l.record) = true) :
    s.launchCompletion n = s := by
  simp only [State.launchCompletion, hl, hw, Bool.or_true, if_true]
/-- The status of a class-T launch of which nothing overran: late or not. -/
theorem launchStatus_onTime {l : Launch} (hc : l.cls = 0) (ho : l.overruns = 0) (hb : l.beyond = false) (ht : l.treeStatus = none) :
    s.launchStatus l = if l.deadline < s.thirds then 0x12 else 0 := by
  simp [State.launchStatus, hc, ho, hb, ht]

/-! ### Shares (R80) -/

theorem shareRecompute_next (s : State) (die : Nat) : alGet (s.shareRecompute die).shareAt die = some (s.cyc + 12000) := by
  simp only [State.shareRecompute, sharePeriod, alGet_alPut, if_true]

/-- Settles O55: each event when it is due. -/
theorem queueEvents : Obligations.QueueEvents := by
  unfold Obligations.QueueEvents
  intro s g c core die n m
  refine ⟨fun q p b w hg hc ha he _ _ hq hp => streamDeadlock_queues hg hc ha he hq hp,
    fun hg hid hu hpos hused ho hs hc ht => ?budget, fun hb vf q => doorbell_off hb,
    fun vf q h hb hq hm hn => ⟨fun ht hw => ?bellWaits, fun ht hw => ?bell, fun ht => doorbell_bad hb hq ht⟩,
    fun cls vf q h hb ht => ⟨fun hw => ?takeWaits, fun st hw hc => ?refused, fun y hw hc hroom => ?admitted⟩,
    fun l p hp => ?plain, fun l x hp => ?stage,
    fun l p hfresh => ⟨s.firstCtx l p, startGroup_cx l p hfresh, rfl, rfl, firstCtx_x1 s l p, rfl, rfl, rfl, rfl, rfl⟩,
    fun hdue => ⟨congrArg _ (if_pos hdue), shareRecompute_next s die⟩,
    fun x h hx hq hm hw => congrArg _ (counterSubmit_waits hx hq hm hw),
    fun x h k t hx hq hm hw hp => congrArg _ (counterSubmit_publishes hx hq hm hw hp),
    fun l hl _ hw => congrArg _ (launchCompletion_waits hl hw), fun l hl hd hw => ?completes,
    fun l hc ho hb ht => launchStatus_onTime hc ho hb ht, rfl, fun hg hy => ?preempts, fun hg hr => ?resumes, fun t ht hdue => ?slice,
    fun b hb hs ha hin => ?phase, fun k y gid hk hn => ?grant⟩
  case budget =>
    intro d
    have past := overBudget_of hg hu hpos hused ho hs hc ht
    show execBudgetOverrun core s = _
    simp only [execBudgetOverrun, State.budgetOverrun, hg, past, if_true, State.budgetTrap, hid, hc, d]
  case bellWaits => exact (doorbell_open hb hq hm hn ht).trans (congrArg _ (if_pos hw))
  case bell => exact (doorbell_open hb hq hm hn ht).trans (congrArg _ (if_neg (by simp [hw])))
  case takeWaits => exact congrArg _ (launchQueueTake_waits hb ht hw)
  case refused => exact congrArg _ (launchQueueTake_refused hb ht hw hc)
  case admitted => exact congrArg _ (launchQueueTake_admitted hb ht hw hc hroom)
  case plain =>
    show execGroupStart die s = _
    simp only [execGroupStart, State.groupStart, hp]
  case stage =>
    show execGroupStart die s = _
    simp only [execGroupStart, State.groupStart, hp]
  case completes =>
    obtain ⟨t, hgone, hgroups, ht⟩ := launchCompletion_completes hl hd hw
    exact ⟨t, hgone, hgroups, congrArg _ ht⟩
  case preempts =>
    show execPreemption core s = _
    simp only [execPreemption, State.preemption, hg, hy, if_true]
  case resumes =>
    show execResumption n s = _
    simp only [execResumption, State.resumption, hg, hr]
  case slice =>
    show execWorldSwitchSliceEnd core s = _
    simp only [execWorldSwitchSliceEnd, ht, hdue, if_true]
  case phase =>
    show execBarrierPhaseComplete n s = _
    simp only [execBarrierPhaseComplete, hb, State.phaseComplete, hs, ha, hin, Bool.not_true, Bool.false_eq_true, if_false]
  case grant =>
    show execOrderedSectionGrant n s = _
    simp only [execOrderedSectionGrant, hk, State.grantKey, hn]

end Sys2Proof.Machine
end

section
/-! PROOF. Helpers and the carve-out (O53): what start, hwait, hend and carve come to. -/

namespace Sys2Proof.Machine

variable {i : Instr} {s t : State} {g : Group} {c : Ctx} {f : State → Group → Ctx → Act}

/-! ### Instructions of class S of the control context -/

/-- A class-S instruction whose execute stream has drained ends as its effect says. -/
theorem runS_finishes {r : Act} (h : s.Acts g c) (hd : c.drained = true) (e : f (s.synced g c) g c.seeBoth = r) :
    runS i s f = .next (s.finishA i g c r) := by
  simp only [State.synced] at e
  simp only [runS, show s.here? = some (g, c) from h, hd, e, if_true]
/-- A trap of a drained context, as finishA gives it. -/
theorem finishA_raise {cause : Nat} (hd : c.drained = true) :
    s.finishA i g c (.raise t cause) = t.trapsA g c cause (firstParcel i) := by
  simp only [Act.raise, State.finishA, hd]
  rfl
/-- The stream of a class-S instruction goes on behind it, as DoneS writes its address. -/
theorem runS_doneS (h : s.Acts g c) (hd : c.drained = true) (e : f (s.synced g c) g c.seeBoth = .done t) :
    runS i s f = .next (t.endsA g c (inRegion c.pcA i.size)) := by
  rw [runS_done h hd e, nextPc_eq]
theorem controlOnly_control (h : c.num = 0) (k : Act) : controlOnly s c k = k := if_pos (by simp [h])
/-- The group once the two streams of its context are ordered. -/
theorem synced_group (h : s.Acts g c) : (s.synced g c).group? g.id = some (g.updCtx c.num Ctx.seeBoth) := by
  rw [State.synced, State.updCtx, group_updGroup _ _ _ _ (by intro x; rfl), (acts_group h).1]
  simp
/-- Ordering the two streams changes the context that acts only. -/
theorem synced_cx_others {a n : Nat} (h : ¬(a = g.id ∧ n = c.num)) : (s.synced g c).cx a n = s.cx a n := by
  rw [State.synced, cx_updCtx _ _ _ _ _ _ (by intro x; rfl)]
  simp [h]

/-! ### Contexts that come and go -/

/-- A group with one more context. -/
def Group.addCtx (g : Group) (h : Ctx) : Group := { g with ctxs := g.ctxs ++ [h] }
theorem addCtx_live {h y : Ctx} {n : Nat} (hy : g.ctx? n = some y) : (g.addCtx h).ctx? n = some y := by
  unfold Group.ctx? at hy ⊢
  simp only [Group.addCtx, List.find?_append, hy, Option.some_or]
theorem addCtx_new {h : Ctx} {n : Nat} (hn : g.ctx? n = none) (hh : h.num = n) : (g.addCtx h).ctx? n = some h := by
  unfold Group.ctx? at hn ⊢
  simp [Group.addCtx, List.find?_append, hn, hh]
/-- A context after its group has let the contexts of one number go. -/
theorem cx_dropCtx (s : State) (gid n a m : Nat) (f : Group → Group) (hid : ∀ x, (f x).id = x.id)
    (hc : ∀ x, (f x).ctxs = x.ctxs.filter fun y => y.num != n) :
    (s.updGroup gid f).cx a m = if a = gid ∧ m = n then none else s.cx a m := by
  have gone : ∀ x : Group, (f x).ctx? m = if m = n then none else x.ctx? m := by
    intro x
    unfold Group.ctx?
    rw [hc, List.find?_filter]
    split
    · next e => exact List.find?_eq_none.2 fun y _ => by simp [e]
    · next e =>
      congr 1
      funext y
      by_cases hy : y.num = m
      · simp [hy, e]
      · simp [hy]
  unfold State.cx
  rw [group_updGroup s gid a f hid]
  cases s.group? a with
  | none => simp
  | some x =>
    by_cases ha : a = gid
    · simp [ha, gone]
    · simp [ha]

/-! ### start (R92, R95) -/

/-- The lowest number from 1 to 10 that no helper of the group holds. -/
theorem lowestFree_eq {n : Nat} (h1 : 1 ≤ n) (h10 : n ≤ 10) (hn : g.ctx? n = none)
    (low : ∀ m, 1 ≤ m → m < n → (g.ctx? m).isSome = true) :
    ((List.range 10).map (· + 1)).find? (fun m => (g.ctx? m).isNone) = some n := by
  obtain ⟨k, rfl⟩ : ∃ k, n = k + 1 := ⟨n - 1, by omega⟩
  have first : (List.range 10).find? (fun m => (g.ctx? (m + 1)).isNone) = some k := by
    refine List.find?_range_eq_some.2 ⟨by simp [hn], by simp; omega, fun j hj => ?_⟩
    simpa using low (j + 1) (by omega) (by omega)
  rw [List.find?_map, show (fun m => (g.ctx? m).isNone) ∘ (· + 1) = fun m => (g.ctx? (m + 1)).isNone from rfl, first]
  rfl

section
variable {d a b : BitVec 5} {off : BitVec 23} {n : Nat}

/-- The helper that a start makes: its argument in x1, ordered behind the release of its start (R92, R306). -/
def State.newHelper (s : State) (g : Group) (c : Ctx) (b : BitVec 5) (off : BitVec 23) (n : Nat) : Ctx :=
  let v := s.vf g.vf
  let h := Ctx.fresh n s.nextAgent (relTarget c.pcA off) (c.readX b) v.tvec v.bndt false
  { h with sync := h.sync.put { var := helperVar g.id n, agent := c.sync.agent, tag := c.relTag + 1 }, accA := 1, seenA := 1,
           acqAt := s.tick + 1 }
/-- The state in which a start has made helper n. -/
def State.started (s : State) (g : Group) (c : Ctx) (d b : BitVec 5) (off : BitVec 23) (n : Nat) : State :=
  let s1 := (s.tock.updCtx g.id c.num fun x => x.release.writeX d (wordOf n)).updGroup g.id fun x =>
    x.addCtx (s.newHelper g c b off n)
  { s1.updLaunch g.launch fun l => { l with agents := l.agents ++ [s.nextAgent] } with nextAgent := s.nextAgent + 1 }

theorem execStart_starts (ha : s.Acts g c) (hd : c.drained = true) (h0 : c.num = 0) (hroom : g.helpers < kHelpers g.kobj)
    (hg : s.GateOpen g c) (hn : ((List.range 10).map (· + 1)).find? (fun m => (g.ctx? m).isNone) = some n) :
    execStart d b off s =
      .next (((s.synced g c).started g c.seeBoth d b off n).endsA g c (inRegion c.pcA (Instr.start d b off).size)) := by
  have some_helper : (kHelpers g.kobj == 0) = false := by simp; omega
  refine runS_doneS ha hd ((controlOnly_control h0 _).trans ?_)
  rw [some_helper, if_neg Bool.false_ne_true, if_neg (by omega), releaseGate_open (gateOpen_synced hg)]
  simp only [hn, Option.getD_some]
  rfl
@[simp] theorem started_mem : (s.started g c d b off n).mem = s.mem := by
  simp only [State.started, State.updLaunch_mem, State.updGroup_mem, State.updCtx_mem, State.tock_mem]
@[simp] theorem started_nextAgent : (s.started g c d b off n).nextAgent = s.nextAgent + 1 := rfl
@[simp] theorem newHelper_pcA : (s.newHelper g c b off n).pcA = codeTarget c off := by
  rw [codeTarget_eq]
  rfl
@[simp] theorem newHelper_pcE : (s.newHelper g c b off n).pcE = codeTarget c off := by
  rw [codeTarget_eq]
  rfl
@[simp] theorem newHelper_csr : (s.newHelper g c b off n).csr = Csrs.fresh (s.vf g.vf).tvec (s.vf g.vf).bndt false := rfl
theorem newHelper_x1 : (s.newHelper g c b off n).readX 1 = c.readX b := by
  show (RegFile.zero.put (.x 1) _ _).x[1] = _
  rw [putX _ _ _ (by decide)]
  exact Vector.getElem_set_self ..
section
variable {q : Group} (h : s.group? g.id = some q)
include h
/-- The starter's group behind a start. -/
theorem started_group : (s.started g c d b off n).group? g.id =
    some ((q.updCtx c.num fun x => x.release.writeX d (wordOf n)).addCtx (s.newHelper g c b off n)) := by
  have updated : (s.tock.updCtx g.id c.num fun x => x.release.writeX d (wordOf n)).group? g.id =
      some (q.updCtx c.num fun x => x.release.writeX d (wordOf n)) := by
    rw [State.updCtx, group_updGroup _ _ _ _ (by intro x; rfl), show s.tock.group? g.id = some q from h]
    simp
  show (State.updGroup _ g.id fun x => x.addCtx (s.newHelper g c b off n)).group? g.id = _
  rw [group_updGroup _ _ _ _ (by intro x; rfl), updated]
  simp
theorem started_helper (hn : q.ctx? n = none) : (s.started g c d b off n).cx g.id n = some (s.newHelper g c b off n) := by
  rw [State.cx, started_group h]
  refine addCtx_new ?_ rfl
  rw [ctx_updCtx _ _ _ _ (by intro x; exact writeX_num ..), hn]
  rfl
theorem started_starter {y : Ctx} (hy : q.ctx? c.num = some y) :
    (s.started g c d b off n).cx g.id c.num = some (y.release.writeX d (wordOf n)) := by
  rw [State.cx, started_group h]
  refine addCtx_live ?_
  rw [ctx_updCtx _ _ _ _ (by intro x; exact writeX_num ..), hy]
  simp
end
end

/-! ### hwait and hend (R95) -/

theorem execHwait_acquires {a : BitVec 5} (ha : s.Acts g c) (hd : c.drained = true) (h0 : c.num = 0)
    (h1 : 1 ≤ (c.readX a).toNat) (h10 : (c.readX a).toNat ≤ 10) (hn : g.ctx? (c.readX a).toNat = none) :
    execHwait a s = .next ((((s.synced g c).acquireVar g.id c.num (helperVar g.id (c.readX a).toNat) 1 s.tick .co).updCtx
      g.id c.num Ctx.seeBoth).endsA g c (inRegion c.pcA (Instr.hwait a).size)) := by
  have number : ((c.readX a).toNat < 1 || 10 < (c.readX a).toNat) = false := by simp; omega
  refine runS_doneS ha hd ((controlOnly_control h0 _).trans ?_)
  exact (if_neg (ne_true_of_eq_false number)).trans (if_neg (by simp [show g.ctx? (c.seeBoth.readX a).toNat = none from hn]))

/-- A helper that ends is gone; every other context stands as before. -/
theorem execHend_ends (ha : s.Acts g c) (hd : c.drained = true) (h0 : c.num ≠ 0) (hg : s.GateOpen g c)
    (hj : kDrop g.kobj = true ∨ ∀ x ∈ s.allJobs, ∀ y ∈ x.2.2.senders, y.agent = c.sync.agent → y.live = false) :
    ∃ t, execHend s = .next t ∧ ∀ a n, t.cx a n = if a = g.id ∧ n = c.num then none else s.cx a n := by
  have noJob : ¬(!kDrop g.kobj &&
      s.allJobs.any fun x => x.2.2.senders.any fun y => y.agent == c.sync.agent && y.live) = true := by
    rcases hj with hdrop | hjobs
    · simp [hdrop]
    · simpa using fun _ x y z h w hw e => hjobs (x, y, z) h w hw e
  refine ⟨_, runS_moved ha hd ((if_neg (by simpa using show ¬c.seeBoth.num = 0 from h0)).trans ((if_neg noJob).trans
    (releaseGate_open (gateOpen_synced hg) _))), fun a n => ?_⟩
  refine (cx_of_who (count_who ..) a n).trans ((cx_dropCtx _ g.id c.num a n _ (by intro x; rfl) (by intro x; rfl)).trans ?_)
  split
  · rfl
  · next other =>
    refine Eq.trans (cx_of_groups ?_ a n) (synced_cx_others other)
    unfold State.lastArrival State.updBarrier
    split <;> rfl

/-! ### carve (R91, R95) -/

theorem readByte_filter {p : Host.Cell → Bool} {k : Nat} (h : ∀ v, p (k, v) = true) (m : List Host.Cell) :
    readByte (m.filter p) k = readByte m k := by
  induction m with
  | nil => rfl
  | cons x r ih =>
    obtain ⟨a, v⟩ := x
    by_cases e : a = k
    · subst e
      rw [List.filter_cons_of_pos (h v)]
      simp only [readByte, if_true]
    · rw [List.filter_cons]
      split <;> simp only [readByte, e, if_false, ih]
theorem byteAt_clearKeys {a b k : Nat} (h : k < a ∨ b ≤ k) : (s.clearKeys a b).byteAt k = s.byteAt k :=
  readByte_filter (fun v => by simp; omega) s.mem
/-- Lines that leave a core change no byte of memory while nothing counts pages. -/
theorem keepLines_mem (q : s.Quiet) (core cap : Nat) : (s.keepLines core cap).mem = s.mem := by
  have fold : ∀ (l : List Line) (t : State), t.Quiet → (l.foldl State.writeBack t).mem = t.mem := by
    intro l
    induction l with
    | nil => exact fun t _ => rfl
    | cons x r ih =>
      intro t qt
      have k := writeBack_keeps t x core qt
      exact (ih _ (k.quiet qt)).trans k.mem
  exact fold _ _ q

section
variable {d a : BitVec 5} {n : Nat}

/-- The state in which a group has n units of scratch. -/
def State.carved (s : State) (g : Group) (n : Nat) : State :=
  ((s.clearScratch g.core (16384 * min n g.scratch) (2 ^ 20)).keepLines g.core (unitLines * (64 - g.ru - n))).updGroup g.id
    fun x => { x with scratch := n }
/-- The status of a carve, and the state that it leaves, by the checks in order (R95). -/
def State.carveEnd (s : State) (g : Group) (c : Ctx) (n : Nat) : Nat × State :=
  if n < kScratch g.kobj then (1, s)
  else if 64 < kRu g.kobj + n + kCache g.kobj then (2, s)
  else if (c.r.k.toList.any fun k => decide (16384 * n ≤ k.toNat % 2 ^ 32 ∧ k.toNat % 2 ^ 32 < winBase)) = true then (3, s)
  else (0, s.carved g n)

theorem execCarve_ends (ha : s.Acts g c) (hd : c.drained = true) (h0 : c.num = 0) (hh : g.helpers = 0)
    (hb : s.scratchBusy g = false) {v : Nat} (e : (s.synced g c).carveEnd g c (c.readX a).toNat = (v, t)) :
    execCarve d a s = .next ((t.updCtx g.id c.num fun x => x.writeX d (BitVec.ofNat 64 v)).endsA g c
      (inRegion c.pcA (Instr.carve d a).size)) := by
  have idle : ¬(g.helpers != 0 || (s.synced g c).scratchBusy g) = true := by
    simp [hh, show (s.synced g c).scratchBusy g = false from hb]
  have units : ((64 : Int) - g.ru - (c.readX a).toNat < kCache g.kobj) ↔
      64 < kRu g.kobj + (c.readX a).toNat + kCache g.kobj := by
    unfold Group.ru
    omega
  refine runS_doneS ha hd ((controlOnly_control h0 _).trans ((if_neg idle).trans ?_))
  unfold State.carveEnd at e
  simp only [Bool.decide_and, ← units] at e
  split_ifs at e with low high under <;> cases e
  · exact if_pos low
  · exact (if_neg low).trans (if_pos high)
  · exact (if_neg low).trans ((if_neg high).trans (if_pos under))
  · exact (if_neg low).trans ((if_neg high).trans (if_neg under))
theorem carved_scratch {q : Group} (h : s.group? g.id = some q) :
    ((s.carved g n).group? g.id).map (fun x => x.scratch) = some n := by
  have groups : ((s.clearScratch g.core (16384 * min n g.scratch) (2 ^ 20)).keepLines g.core
      (unitLines * (64 - g.ru - n))).groups = s.groups := congrArg Prod.fst (keepLines_who ..)
  rw [State.carved, group_updGroup _ _ _ _ (by intro x; rfl), State.group?, groups, show s.groups.find? _ = some q from h]
  simp
/-- Below the scratch that both carve-outs have, and outside the core's scratch, memory is as it was. -/
theorem carved_byteAt {k : Nat} (q : s.Quiet) (h : k < scrKey g.core (16384 * min n g.scratch) ∨ scrKey g.core (2 ^ 20) ≤ k) :
    (s.carved g n).byteAt k = s.byteAt k := by
  have kept := keepLines_mem (s := s.clearScratch g.core (16384 * min n g.scratch) (2 ^ 20)) q g.core (unitLines * (64 - g.ru - n))
  exact (congrArg (readByte · k) kept).trans (byteAt_clearKeys h)
end

end Sys2Proof.Machine
end

section
/-! PROOF. Helpers, the carve-out, retirement and succession (O53): retire and rets. -/

namespace Sys2Proof.Machine

variable {s t : State} {g : Group} {c : Ctx} {sc : Scope} {a : BitVec 5}

/-! ### Retirement (R335) -/

theorem endGroup_gone (s : State) (gid : Nat) (rel : Option (Nat × Nat)) : (s.endGroup gid rel).group? gid = none := by
  unfold State.endGroup
  split
  · assumption
  · simp only [State.group?, List.find?_filter]
    exact List.find?_eq_none.2 fun x _ => by simp
theorem retireX_ends (hj : s.jobsAwaited g 0 = false) (hm : s.entryMoves g = false) (hg : s.GateOpen g c) :
    retireX s g c = .moved (s.endGroup g.id (some (c.sync.agent, c.relTag + 1))) := by
  unfold retireX
  rw [hj, hm, if_neg (by simp), releaseGate_open hg]

/-! ### The successor of a group (R57, R79, R338) -/

/-- The kernel object that a rets names: its operand's, or its own kernel's successor. -/
def succOf (g : Group) (c : Ctx) (a : BitVec 5) : Word := if c.readX a = 0 then BitVec.ofNat 64 (kSucc g.kobj) else c.readX a
theorem kSucc_lt (k : BitVec 1024) : kSucc k < 2 ^ 64 := Nat.mod_lt _ (by decide)
theorem succOf_eq_zero_iff : succOf g c a = 0 ↔ c.readX a = 0 ∧ kSucc g.kobj = 0 := by
  unfold succOf
  split
  · next h =>
    rw [← BitVec.toNat_inj, BitVec.toNat_ofNat, Nat.mod_eq_of_lt (kSucc_lt _)]
    simp [h]
  · next h => exact ⟨fun e => absurd e h, fun e => absurd e.1 h⟩
/-- The rung of the launch, taken from a ladder, succeeds where the ladder and its shape are in order. -/
theorem nextKernelOf_rung {l : List (Nat × BitVec 1024)} {more : Bool} {ptr : Nat} {k : BitVec 1024} {la : Launch}
    (hla : s.launch? g.launch = some la) (hk : l[min la.boundary.rung (l.length - 1)]? = some (ptr, k)) :
    nextKernelOf s g l more =
      if ladderOk l more && shapeOk g k then some (min la.boundary.rung (l.length - 1), ptr, k) else none := by
  simp only [nextKernelOf, hla, Option.map_some, hk]

/-- What a rets comes to once it has read a ladder: it traps, or keeps the kernel and hands over to it (R336). -/
def State.takesRung (s : State) (g : Group) (c : Ctx) (sc : Scope) (l : List (Nat × BitVec 1024)) (more : Bool) : Act :=
  match nextKernelOf s g l more with
  | none => .raise s 0x28
  | some k => handOver (s.updCtx g.id c.num fun y => { y with nextKernel := some k }) g c sc k
/-- What a rets that has read no kernel comes to once no helper is live (R336). -/
def State.seeksSuccessor (s : State) (g : Group) (c : Ctx) (sc : Scope) (a : BitVec 5) : Act :=
  if succOf g c a = 0 then retireX s g c
  else if 255 ≤ g.depth then .raise s 0x29
  else Act.ofRes (s.loadLadder g c 4 (succOf g c a)) fun s1 x => s1.takesRung g c sc x.1 x.2

/-! ### retire and rets (R335, R336) -/

section
variable (ha : s.Acts g c) (hd : c.drained = true) (h0 : c.num = 0)
include ha hd h0
/-- A rets whose kernel is read goes on with its hand-over. -/
theorem execRets_resumes {x : Nat × Nat × BitVec 1024} (hk : c.nextKernel = some x) :
    execRets sc a s = .next (s.finishA (.rets sc a) g c (handOver (s.synced g c) g c.seeBoth sc x)) := by
  refine runS_finishes ha hd ((controlOnly_control h0 _).trans ?_)
  rw [show c.seeBoth.nextKernel = some x from hk]

variable (hh : g.helpers = 0)
include hh
theorem execRetire_retires (hj : s.jobsAwaited g 0 = false) (hm : s.entryMoves g = false) (hg : s.GateOpen g c) :
    execRetire s = .next (((s.synced g c).endGroup g.id (some (c.sync.agent, c.relTag + 1))).count g.core 2 1 g.vf c.csr.mode) :=
  runS_moved ha hd ((controlOnly_control h0 _).trans ((if_neg (by simp [hh])).trans
    (retireX_ends hj hm (gateOpen_synced hg))))

variable (hk : c.nextKernel = none)
include hk
/-- A rets that has read no kernel yet looks for its successor. -/
theorem execRets_begins :
    execRets sc a s = .next (s.finishA (.rets sc a) g c ((s.synced g c).seeksSuccessor g c.seeBoth sc a)) := by
  refine runS_finishes ha hd ((controlOnly_control h0 _).trans ?_)
  rw [show c.seeBoth.nextKernel = none from hk]
  exact if_neg (by simp [hh])
/-- A rets that finds no successor retires. -/
theorem execRets_retires (hp : succOf g c a = 0) (hj : s.jobsAwaited g 0 = false) (hm : s.entryMoves g = false)
    (hg : s.GateOpen g c) :
    execRets sc a s =
      .next (((s.synced g c).endGroup g.id (some (c.sync.agent, c.relTag + 1))).count g.core 2 1 g.vf c.csr.mode) := by
  have ends := retireX_ends (s := s.synced g c) (c := c.seeBoth) hj hm (gateOpen_synced hg)
  rw [execRets_begins ha hd h0 hh hk, State.seeksSuccessor, if_pos (show succOf g c.seeBoth a = 0 from hp), ends]
  rfl

variable (hp : succOf g c a ≠ 0)
include hp
theorem execRets_depth_traps (hdepth : 255 ≤ g.depth) :
    execRets sc a s = .next ((s.synced g c).trapsA g c 0x29 (firstParcel (.rets sc a))) := by
  rw [execRets_begins ha hd h0 hh hk, ← finishA_raise hd]
  exact congrArg _ (congrArg _ ((if_neg hp).trans (if_pos hdepth)))

variable {l : List (Nat × BitVec 1024)} {more : Bool} (hdepth : g.depth < 255)
  (hl : (s.synced g c).loadLadder g c.seeBoth 4 (succOf g c a) = .ok t (l, more))
include hdepth hl
/-- A rets that has read the ladder takes its rung. -/
theorem execRets_reads : execRets sc a s = .next (s.finishA (.rets sc a) g c (t.takesRung g c.seeBoth sc l more)) := by
  rw [execRets_begins ha hd h0 hh hk]
  exact congrArg _ (congrArg _ ((if_neg hp).trans ((if_neg (by omega)).trans (congrArg (Act.ofRes · _) hl))))
/-- No rung of the ladder fits. -/
theorem execRets_misfit_traps (hn : nextKernelOf t g l more = none) :
    execRets sc a s = .next (t.trapsA g c 0x28 (firstParcel (.rets sc a))) := by
  rw [execRets_reads ha hd h0 hh hk hp hdepth hl, State.takesRung, hn, finishA_raise hd]
/-- A rets goes on with the hand-over to the successor that it has read. -/
theorem execRets_hands {x : Nat × Nat × BitVec 1024} (hn : nextKernelOf t g l more = some x) :
    execRets sc a s = .next (s.finishA (.rets sc a) g c
      (handOver (t.updCtx g.id c.num fun y => { y with nextKernel := some x }) g c.seeBoth sc x)) := by
  rw [execRets_reads ha hd h0 hh hk hp hdepth hl, State.takesRung, hn]
  rfl
end

/-- A hand-over waits for the group's jobs; its release made, the group runs its successor (R336, R341, R342). -/
theorem handOver_outcome {i ptr : Nat} {k : BitVec 1024}
    (he : exec (.rets sc a) s = .next (s.finishA (.rets sc a) g c (handOver t g c.seeBoth sc (i, ptr, k)))) :
    (t.jobsAwaited g g.inhm = true → exec (.rets sc a) s = .next (t.waitsA g c (.other false))) ∧
      (t.jobsAwaited g g.inhm = false → t.GateOpen g c →
        let u := t.updLaunch g.launch fun y => { y.boundary with lowest := max y.lowest i }
        exec (.rets sc a) s = .next ((u.escrow g (u.ctxOf g c.seeBoth) sc ptr k i).count g.core 2 1 g.vf c.csr.mode)) := by
  refine ⟨fun hj => he.trans ?_, fun hj hg => he.trans ?_⟩
  · rw [handOver, if_pos hj]
    rfl
  · rw [handOver, if_neg (by simp [hj]), releaseGate_open (show t.GateOpen g c.seeBoth from hg)]
    rfl

/-- Settles O53: helpers come and go, the carve-out changes, and the group ends or is handed over, as each instruction's lemma says. -/
theorem groupResult : Obligations.GroupResult := by
  unfold Obligations.GroupResult
  intro s g c d a b off sc ha hd
  refine ⟨fun h0 hroom hg n h1 h10 hn low => ?start,
    fun h0 h1 h10 hn hd => execHwait_acquires ha hd h0 h1 h10 hn,
    fun h0 hg hj => ?hend,
    fun h0 hh hb => ⟨fun low hd => ?status1, fun low high hd => ?status2, fun low high under hd => ?status3,
      fun low high under => ?carved⟩,
    fun h0 hh hj hm hg i hi => ⟨_, ?retires, ?gone, rfl⟩,
    ⟨fun i ptr k h0 hk => handOver_outcome (execRets_resumes ha hd h0 hk),
      fun h0 hh hk hp hdepth s1 l more i ptr k la hl hla hi hrung => ?reads⟩,
    fun h0 hh hk hp hdepth => execRets_depth_traps ha hd h0 hh hk (succOf_eq_zero_iff.not.2 (not_and_or.2 hp)) hdepth⟩
  case start =>
    have group := synced_group ha
    have free : (g.updCtx c.num Ctx.seeBoth).ctx? n = none := by
      rw [ctx_updCtx _ _ _ _ (by intro x; rfl), hn]
      rfl
    have own : (g.updCtx c.num Ctx.seeBoth).ctx? c.num = some c.seeBoth := by
      rw [ctx_updCtx _ _ _ _ (by intro x; rfl), (acts_group ha).2]
      simp
    have helper := started_helper (c := c.seeBoth) (d := d) (b := b) (off := off) group free
    have starter := started_starter (c := c.seeBoth) (d := d) (b := b) (off := off) (n := n) group own
    refine ⟨_, _, fun hd => execStart_starts ha hd h0 hroom hg (lowestFree_eq h1 h10 hn low), started_mem, helper,
      newHelper_pcA, newHelper_pcE, newHelper_x1, congrArg Csrs.mode newHelper_csr, congrArg Csrs.tvec newHelper_csr,
      congrArg Csrs.bndt newHelper_csr, started_nextAgent, ?_⟩
    rwa [show c.seeBoth.num = 0 from h0] at starter
  case hend =>
    obtain ⟨t, ends, ctxs⟩ := execHend_ends ha hd h0 hg hj
    exact ⟨t, ends, by simp [ctxs], fun gid n other => by simp [ctxs, other]⟩
  case status1 => exact execCarve_ends ha hd h0 hh hb (if_pos low)
  case status2 => exact execCarve_ends ha hd h0 hh hb ((if_neg (by omega)).trans (if_pos high))
  case status3 => exact execCarve_ends ha hd h0 hh hb ((if_neg (by omega)).trans ((if_neg (by omega)).trans (if_pos under)))
  case carved =>
    refine ⟨(s.synced g c).carved g (c.readX a).toNat, fun hd => execCarve_ends ha hd h0 hh hb ?_,
      carved_scratch (synced_group ha), fun q k outside => carved_byteAt q outside⟩
    exact (if_neg (by omega)).trans ((if_neg (by omega)).trans (if_neg (by simpa using under)))
  case retires =>
    rcases hi with rfl | ⟨rfl, hk, hx, hsucc⟩
    · exact execRetire_retires ha hd h0 hh hj hm hg
    · exact execRets_retires ha hd h0 hh hk (succOf_eq_zero_iff.2 ⟨hx, hsucc⟩) hj hm hg
  case gone => exact (congrArg (List.find? _) (congrArg Prod.fst (count_who ..))).trans (endGroup_gone ..)
  case reads =>
    subst hi
    have named : succOf g c a ≠ 0 := succOf_eq_zero_iff.not.2 (not_and_or.2 hp)
    have rung := nextKernelOf_rung (more := more) hla hrung
    refine ⟨fun bad => execRets_misfit_traps ha hd h0 hh hk named hdepth hl (rung.trans (if_neg ?_)), fun hok hshape =>
      handOver_outcome (execRets_hands ha hd h0 hh hk named hdepth hl (rung.trans (if_pos ?_)))⟩
    · rcases bad with e | e <;> simp [e]
    · simp [hok, hshape]

end Sys2Proof.Machine
end

section
/-! PROOF. Decode and encode (O3-O6): the parcels of a form's fields read back, each operand's field reads back, and what decode
accepts has the length of its first parcel. -/

namespace Sys2Proof

/-! ### Parcels and fields (R96-R102) -/

/-- The fields that the form has, each other at 0: what the parcels of the fields can say. -/
def Fields.visible (f : Fields) : Fields :=
  let s : Fields := { len := f.len, op := f.op, g := f.g, fn := f.fn, b := f.b, a := f.a, d := f.d }
  match f.len with
  | .short => s
  | .medium => { s with gn := f.gn, lp := f.lp, lpa := f.lpa, imm := f.imm }
  | .long =>
    { s with gn := f.gn, lp := f.lp, lpa := f.lpa, hint := f.hint, asrc := f.asrc, bsrc := f.bsrc, sfmt := f.sfmt,
             dfmt := f.dfmt, lit := f.lit }
/-- The number of parcels of a form (R97). -/
def Len.parcels : Len → Nat
  | .short => 1 | .medium => 2 | .long => 3

theorem parcels_length (f : Fields) : f.parcels.length = f.len.parcels := by
  unfold Fields.parcels
  cases f.len <;> rfl
theorem parcels_first (f : Fields) : f.parcels.getD 0 0 = f.parcel0 := by
  unfold Fields.parcels
  cases f.len <;> rfl
theorem parcelCount_parcel0 (f : Fields) : parcelCount f.parcel0 = some f.len.parcels := by
  have code : f.parcel0.extractLsb' 0 2 = f.len.code := by
    simp (disch := omega) only [Fields.parcel0, BitVec.extractLsb'_append_eq_of_add_le, BitVec.extractLsb'_eq_self]
  rw [parcelCount, code]
  cases f.len <;> rfl

theorem getLsbD_append_low {m n k : Nat} {x : BitVec m} {y : BitVec n} (h : k < n) : (x ++ y).getLsbD k = y.getLsbD k := by
  simp [BitVec.getLsbD_append, h]
theorem getLsbD_ofBool (b : Bool) : (BitVec.ofBool b).getLsbD 0 = b := by cases b <;> decide
/-- Reading the parcels of the fields gives the fields that their form has. -/
theorem ofParcels_parcels (f : Fields) :
    Fields.ofParcels f.len (f.parcels.getD 0 0) (f.parcels.getD 1 0) (f.parcels.getD 2 0) = f.visible := by
  obtain ⟨len, op, g, fn, b, a, d, gn, lp, lpa, imm, hint, asrc, bsrc, sfmt, dfmt, lit⟩ := f
  cases len <;>
    simp (disch := omega) only [Fields.ofParcels, Fields.parcels, Fields.visible, List.getD_cons_zero, List.getD_cons_succ,
      Fields.parcel0, BitVec.extractLsb'_append_eq_of_le, BitVec.extractLsb'_append_eq_of_add_le, getLsbD_append_low,
      getLsbD_ofBool] <;>
    simp
/-- Decoding parcels is decoding the fields of the form that the first parcel announces. -/
theorem decodeParcels_cases (p0 p1 p2 : Parcel) :
    (p0.extractLsb' 0 2 = 3 ∧ parcelCount p0 = none ∧ decodeParcels p0 p1 p2 = .error 2) ∨
    ∃ len q1 q2, parcelCount p0 = some len.parcels ∧ decodeParcels p0 p1 p2 = decodeFields (.ofParcels len p0 q1 q2) := by
  unfold decodeParcels parcelCount
  have codes : ∀ k : BitVec 2, k = 0 ∨ k = 1 ∨ k = 2 ∨ k = 3 := by decide
  obtain h | h | h | h := codes (p0.extractLsb' 0 2) <;> rw [h]
  · exact .inr ⟨.short, 0, 0, rfl, rfl⟩
  · exact .inr ⟨.medium, p1, 0, rfl, rfl⟩
  · exact .inr ⟨.long, p1, p2, rfl, rfl⟩
  · exact .inl ⟨rfl, rfl, rfl⟩
theorem ofParcels_len (len : Len) (p0 p1 p2 : Parcel) : (Fields.ofParcels len p0 p1 p2).len = len := by cases len <;> rfl
theorem ofParcels_op (len : Len) (p0 p1 p2 : Parcel) : (Fields.ofParcels len p0 p1 p2).op = p0.extractLsb' 2 8 := by
  cases len <;> rfl
/-- Decoding the parcels of fields that their form has is decoding the fields. -/
theorem decodeParcels_parcels {f : Fields} (h : f.visible = f) :
    decodeParcels (f.parcels.getD 0 0) (f.parcels.getD 1 0) (f.parcels.getD 2 0) = decodeFields f := by
  have read := (ofParcels_parcels f).trans h
  have count := parcelCount_parcel0 f
  rw [parcels_first] at read ⊢
  unfold decodeParcels
  cases hlen : f.len <;> rw [hlen] at read count <;> simp only [count, Len.parcels]
  case short => exact congrArg decodeFields read
  case medium => exact congrArg decodeFields read
  case long => exact congrArg decodeFields read

/-! ### The fields of an operand read back (R103, R104, R137, R285) -/

@[simp] theorem fnOf_toNat (u : Bool) : (fnOf u).toNat = u.toNat := by cases u <;> rfl
@[simp] theorem fnOf_bit (u : Bool) : (fnOf u)[0] = u := by cases u <;> decide
@[simp] theorem amoFn_bit (w : Bool) (op : AmoOp) : (amoFn w op)[3] = w := by cases w <;> cases op <;> decide
@[simp] theorem scopeFn_bit (w : Bool) (sc : Scope) : (scopeFn w sc)[3] = w := by cases w <;> cases sc <;> decide
@[simp] theorem amoOp_ofCode_amoFn (w : Bool) (op : AmoOp) : AmoOp.ofCode ((amoFn w op).toNat % 8) = some op := by
  cases w <;> cases op <;> rfl
@[simp] theorem scope_ofCode_scopeFn (w : Bool) (sc : Scope) : Scope.ofCode ((scopeFn w sc).toNat % 8) = some sc := by
  cases w <;> cases sc <;> rfl
@[simp] theorem scope_ofCode_code (sc : Scope) : Scope.ofCode (scopeFn false sc).toNat = some sc := by cases sc <;> rfl
@[simp] theorem ldW_ofCode_code (w : LdW) : LdW.ofCode w.code.toNat = some w := by cases w <;> rfl
@[simp] theorem stW_ofCode_code (w : StW) : StW.ofCode w.code.toNat = some w := by cases w <;> rfl
@[simp] theorem bCond_ofCode_code (c : BCond) : BCond.ofCode c.code.toNat = some c := by cases c <;> rfl
@[simp] theorem csrxOp_ofCode_code (op : CsrxOp) : CsrxOp.ofCode op.code.toNat = some op := by cases op <;> rfl
@[simp] theorem orderWord_orderImm (ord : MemOrd) (sc : Scope) : orderWord (orderImm ord sc) = some (ord, sc) := by
  cases ord <;> cases sc <;> rfl
theorem ldQueue_code (q : BitVec 2) (mk : BitVec 2 → Except Nat Instr) : ldQueue (0#3 ++ q) true mk = mk q := by
  have all : ∀ q : BitVec 2, q = 0 ∨ q = 1 ∨ q = 2 ∨ q = 3 := by decide
  obtain rfl | rfl | rfl | rfl := all q <;> rfl
theorem stQueue_code (q5 : Bool) (mk : Bool → Except Nat Instr) : stQueue (if q5 then 5#5 else 4#5) true mk = mk q5 := by
  cases q5 <;> rfl
/-- A field alone in an immediate, and two side by side: what they fill, and that they read back. -/
theorem unpack_one {w n : Nat} {v : BitVec w} {x : BitVec n} (h : v.toNat = x.toNat) :
    (∀ k, 2 ^ n ≤ k → v.toNat < k) ∧ v.extractLsb' 0 n = x := by
  refine ⟨fun k hk => Nat.lt_of_lt_of_le (h ▸ x.isLt) hk, BitVec.eq_of_toNat_eq ?_⟩
  rw [BitVec.extractLsb'_toNat, Nat.shiftRight_zero, h, Nat.mod_eq_of_lt x.isLt]
theorem unpack_two {w m n : Nat} {v : BitVec w} {x : BitVec m} {y : BitVec n} (h : v.toNat = (x ++ y).toNat) :
    (∀ k, 2 ^ (m + n) ≤ k → v.toNat < k) ∧ v.extractLsb' 0 n = y ∧ v.extractLsb' n m = x := by
  refine ⟨fun k hk => Nat.lt_of_lt_of_le (h ▸ (x ++ y).isLt) hk, ?_, ?_⟩
  · rw [← BitVec.extractLsb'_append_eq_right (a := x) (b := y)]
    exact BitVec.eq_of_toNat_eq (by simp only [BitVec.extractLsb'_toNat, h])
  · rw [← BitVec.extractLsb'_append_eq_left (a := x) (b := y)]
    exact BitVec.eq_of_toNat_eq (by simp only [BitVec.extractLsb'_toNat, h])
theorem zero_append_toNat {m n : Nat} (x : BitVec n) : (0#m ++ x).toNat = x.toNat := by simp [BitVec.toNat_append]
theorem append_nibbles (x : BitVec 16) :
    x.extractLsb' 12 4 ++ (x.extractLsb' 8 4 ++ (x.extractLsb' 4 4 ++ x.extractLsb' 0 4)) = x := by
  have low : x.extractLsb' 4 4 ++ x.extractLsb' 0 4 = x.extractLsb' 0 8 :=
    BitVec.extractLsb'_append_extractLsb'_eq_extractLsb' rfl
  have middle : x.extractLsb' 8 4 ++ x.extractLsb' 0 8 = x.extractLsb' 0 12 :=
    BitVec.extractLsb'_append_extractLsb'_eq_extractLsb' rfl
  have high : x.extractLsb' 12 4 ++ x.extractLsb' 0 12 = x.extractLsb' 0 16 :=
    BitVec.extractLsb'_append_extractLsb'_eq_extractLsb' rfl
  rw [low]
  exact (congrArg (x.extractLsb' 12 4 ++ ·) middle).trans (high.trans BitVec.extractLsb'_eq_self)

section
variable (op : BitVec 8) (d a b : BitVec 5) (fn : BitVec 4) (imm : BitVec 23)

@[simp] theorem sF_op : (sF op d a b fn).op = op := rfl
@[simp] theorem sF_d : (sF op d a b fn).d = d := rfl
@[simp] theorem sF_a : (sF op d a b fn).a = a := rfl
@[simp] theorem sF_b : (sF op d a b fn).b = b := rfl
@[simp] theorem sF_fn : (sF op d a b fn).fn = fn := rfl
@[simp] theorem sF_len : (sF op d a b fn).len = .short := rfl
@[simp] theorem sF_plain : (sF op d a b fn).plain = true := rfl
@[simp] theorem mF_op : (mF op d a b fn imm).op = op := rfl
@[simp] theorem mF_d : (mF op d a b fn imm).d = d := rfl
@[simp] theorem mF_a : (mF op d a b fn imm).a = a := rfl
@[simp] theorem mF_b : (mF op d a b fn imm).b = b := rfl
@[simp] theorem mF_fn : (mF op d a b fn imm).fn = fn := rfl
@[simp] theorem mF_imm : (mF op d a b fn imm).imm = imm := rfl
@[simp] theorem mF_len : (mF op d a b fn imm).len = .medium := rfl
@[simp] theorem mF_plain : (mF op d a b fn imm).plain = true := rfl
end

section
variable (op : BitVec 8) (d a : BitVec 5) (fn : BitVec 4) (b : OpB)

@[simp] theorem aF_op : (aF op d a fn b).op = op := by cases b <;> rfl
@[simp] theorem aF_d : (aF op d a fn b).d = d := by cases b <;> rfl
@[simp] theorem aF_a : (aF op d a fn b).a = a := by cases b <;> rfl
@[simp] theorem aF_fn : (aF op d a fn b).fn = fn := by cases b <;> rfl
@[simp] theorem aF_plain : (aF op d a fn b).plain = true := by cases b <;> rfl
@[simp] theorem aF_opB : (aF op d a fn b).opB = some b := by cases b <;> rfl
end

section
variable (op : BitVec 8) (d a : BitVec 5) (fn : BitVec 4) (b : OpBSM)

@[simp] theorem aSM_op : (aSM op d a fn b).op = op := by cases b <;> rfl
@[simp] theorem aSM_d : (aSM op d a fn b).d = d := by cases b <;> rfl
@[simp] theorem aSM_a : (aSM op d a fn b).a = a := by cases b <;> rfl
@[simp] theorem aSM_fn : (aSM op d a fn b).fn = fn := by cases b <;> rfl
@[simp] theorem aSM_plain : (aSM op d a fn b).plain = true := by cases b <;> rfl
@[simp] theorem aSM_opBSM : (aSM op d a fn b).opBSM = some b := by cases b <;> rfl
end

@[simp] theorem need_true (i : Instr) : need true i = .ok i := rfl
theorem need_eq_ok {c : Bool} {i j : Instr} : need c i = .ok j ↔ c = true ∧ i = j := by cases c <;> simp [need]
@[simp] theorem needOp_some {α : Type} (x : α) (mk : α → Instr) : needOp true (some x) mk = .ok (mk x) := rfl

/-- Settles O3: each word is evaluated. -/
theorem workedEncodingsDecode : Obligations.WorkedEncodingsDecode := by
  unfold Obligations.WorkedEncodingsDecode
  exact ⟨rfl, rfl, rfl, rfl, rfl, rfl, rfl, rfl, rfl⟩

/-! ### Class E (R115) -/

@[simp] theorem fields_op (op : BitVec 8) (e : EArgs) : (e.fields op).op = op := by
  unfold EArgs.fields
  split <;> rfl
@[simp] theorem fields_eArgs (op : BitVec 8) (e : EArgs) : (e.fields op).eArgs = e := by
  obtain ⟨g, fn, b, a, d, form⟩ := e
  cases form <;> rfl
theorem eArgs_fields_len (op : BitVec 8) (f : Fields) : (f.eArgs.fields op).len = f.len := by
  unfold Fields.eArgs EArgs.fields
  cases f.len <;> rfl

/-- The instructions of class E that carry the fields by name: their opcode, their encoding, and when they are well formed. -/
theorem eCtor_spec {op : Nat} {mk : EArgs → Instr} (h : eCtor op = some mk) :
    0x40 ≤ op ∧ op < 0xC0 ∧ op ≠ 0xA0 ∧ op ≠ 0xA6 ∧ ¬Machine.reservedOp op ∧
      ∀ e, instrFields (mk e) = some (e.fields (BitVec.ofNat 8 op)) ∧ (mk e).wf = eOk op e := by
  unfold eCtor at h
  split at h <;> cases h <;>
    exact ⟨by decide, by decide, by decide, by decide, by unfold Machine.reservedOp; decide, fun _ => ⟨rfl, rfl⟩⟩
theorem decodeE_eq {f : Fields} {mk : EArgs → Instr} (hmk : eCtor f.op.toNat = some mk) :
    decodeE f = if eLegal f.op.toNat f.eArgs then (if eQueueOk f.op.toNat f.eArgs then .ok (mk f.eArgs) else .error 3)
      else .error 1 := by
  obtain ⟨-, -, hkset, hrep, -, -⟩ := eCtor_spec hmk
  unfold decodeE
  split
  next h => exact absurd h hkset
  next h => exact absurd h hrep
  next => simp only [hmk]
theorem decodeFields_fields {op : BitVec 8} {e : EArgs} {mk : EArgs → Instr} (hmk : eCtor op.toNat = some mk)
    (hw : (mk e).wf = true) : decodeFields (e.fields op) = .ok (mk e) := by
  obtain ⟨hlow, hhigh, -, -, -, hmake⟩ := eCtor_spec hmk
  have hok : eLegal op.toNat e = true ∧ eQueueOk op.toNat e = true := by simpa [(hmake e).2, eOk] using hw
  have hE := decodeE_eq (f := e.fields op) (by rwa [fields_op])
  rw [fields_op, fields_eArgs, hok.1, hok.2] at hE
  rw [decodeFields, fields_op, if_neg (by omega), if_pos hhigh, hE]
  rfl

/-! ### Every instruction (O4) -/

section
variable {i : Instr} {f : Fields}

theorem visible_fields (op : BitVec 8) (e : EArgs) : (e.fields op).visible = e.fields op := by
  obtain ⟨g, fn, b, a, d, form⟩ := e
  cases form <;> rfl
theorem visible_aF (op : BitVec 8) (d a : BitVec 5) (fn : BitVec 4) (b : OpB) : (aF op d a fn b).visible = aF op d a fn b := by
  cases b <;> rfl
theorem visible_aSM (op : BitVec 8) (d a : BitVec 5) (fn : BitVec 4) (b : OpBSM) :
    (aSM op d a fn b).visible = aSM op d a fn b := by
  cases b <;> rfl
theorem visible_sF (op : BitVec 8) (d a b : BitVec 5) (fn : BitVec 4) : (sF op d a b fn).visible = sF op d a b fn := rfl
theorem visible_mF (op : BitVec 8) (d a b : BitVec 5) (fn : BitVec 4) (imm : BitVec 23) :
    (mF op d a b fn imm).visible = mF op d a b fn imm := rfl
theorem visible_csrFields (w : CsrWr) (csr : BitVec 12) (a : BitVec 5) : (csrFields w csr a).visible = csrFields w csr a := by
  cases w <;> rfl
theorem visible_imm (op : BitVec 8) (d : BitVec 5) (fn : BitVec 4) (v : Imm) :
    (v.fields { len := .medium, op := op, d := d, fn := fn }).visible =
      v.fields { len := .medium, op := op, d := d, fn := fn } := by
  cases v <;> rfl
theorem visible_of_long (hlen : f.len = .long) (himm : f.imm = 0) : f.visible = f := by
  obtain ⟨len, op, g, fn, b, a, d, gn, lp, lpa, imm, hint, asrc, bsrc, sfmt, dfmt, lit⟩ := f
  cases hlen
  cases himm
  rfl
/-- The fields of an instruction are those of its form. -/
theorem visible_instrFields (h : instrFields i = some f) : f.visible = f := by
  cases i with
  -- one encoding for each value of an operand
  | nop v | lia _ v | slotadv v | qstat _ v => cases v <;> cases h <;> rfl
  -- the other forms, and events, which have no encoding
  | _ =>
    cases h <;>
      simp only [visible_fields, visible_aF, visible_aSM, visible_sF, visible_mF, visible_csrFields, visible_imm,
        visible_of_long]

theorem decodeFields_csrFields (w : CsrWr) (csr : BitVec 12) (a : BitVec 5) :
    decodeFields (csrFields w csr a) = needWf (.ok (csrWrite csr w a
      (match w with | .csrw => .csrw csr a | .csrx op d => .csrx op d csr a))) := by
  obtain ⟨fits, hcsr⟩ := unpack_one (w := 23) (zero_append_toNat (m := 11) csr)
  cases w <;> simp [csrFields, decodeFields, decodeS, Fields.isM, fits, hcsr]
/-- Decoding the fields of a well-formed instruction gives it back. -/
theorem decodeFields_instrFields (hf : instrFields i = some f) (hw : i.wf = true) : decodeFields f = .ok i := by
  cases i with
  -- every operand is a field of the form
  | sel | clz | ctz | pop | bfi | b | j | call | callLabel | ret | yield | pushq | popq | emsg | jtest | jwait | wacc | wfe | sev
  | deccnt | setcnt | tsbret | ordlv | trap | trapN | eret | start | hend | hwait | carve | retire | xlinvPg | xlinvAll
  | xlinvBnd | ctxsv | logrp | idle | cload | residPin | residUnpin | residDemote | residEvict | brk | wdead =>
    obtain rfl := Option.some.inj hf
    rfl
  -- operand B by form, or an offset
  | add | sub | mul | and | or | xor | andn | shl | shr | sra | rot | seq | mac | mulh | div | rem | min | max | slt | xmint
  | ld | st | lds | sts | pfx | cln | inv =>
    obtain rfl := Option.some.inj hf
    simp [decodeFields, decodeA, needWf, hw, alu, aluU, Fields.fnBit, Fields.fnLe1, Bool.toNat_le]
  -- a variant, a width, a condition or a scope in FN, or an order word
  | bfx | bz | bqe | bc | loop | amo | amoOrdered | cas | casOrdered | ldacq | strel | fence | bar | barv | barwArr | barwWt
  | phcrd | launch | rets | ctxld | ordent | ordentRsv =>
    obtain rfl := Option.some.inj hf
    simp [decodeFields, decodeA, decodeX, decodeS, needWf, hw, Fields.isS, Fields.isM, Fields.fnBit, Fields.fnLe1, Bool.toNat_le]
  -- one encoding for each value of an operand
  | nop n => cases n <;> (obtain rfl := Option.some.inj hf; rfl)
  | lia d v => cases v <;> (obtain rfl := Option.some.inj hf; rfl)
  | li hi d v =>
    cases v <;> obtain rfl := Option.some.inj hf <;>
      simp [decodeFields, decodeA, needWf, hw, Imm.fields, Fields.plain, Fields.fnBit, Fields.fnLe1, Bool.toNat_le]
  | slotadv t => cases t <;> (obtain rfl := Option.some.inj hf; rfl)
  | qstat d q =>
    obtain _ | q := q <;> obtain rfl := Option.some.inj hf
    · simp [decodeFields, decodeA, needWf, hw, Fields.isS, Fields.fnBit, Fields.fnLe1]
    · obtain ⟨fits, hq⟩ := unpack_one (w := 5) (zero_append_toNat (m := 2) q)
      simp [decodeFields, decodeA, needWf, hw, Fields.isS, Fields.fnBit, Fields.fnLe1, fits, hq]
  -- an immediate of several fields
  | bfxImm sg d a pos len | bfiImm d a pos len =>
    obtain rfl := Option.some.inj hf
    obtain ⟨fits, hpos, hlen⟩ := unpack_two (w := 23) (zero_append_toNat (m := 10) (len ++ pos))
    simp [decodeFields, decodeA, needWf, hw, Fields.fnBit, Fields.fnLe1, Bool.toNat_le, fits, hpos, hlen]
  | waccImm v | trel v =>
    obtain rfl := Option.some.inj hf
    obtain ⟨fits, hv⟩ := unpack_one (w := 23) (zero_append_toNat v)
    simp [decodeFields, decodeX, needWf, hw, Fields.isM, fits, hv]
  | xfence src dst =>
    obtain rfl := Option.some.inj hf
    obtain ⟨fits, hsrc, hdst⟩ := unpack_two (w := 23) (zero_append_toNat (m := 7) (dst ++ src))
    simp [decodeFields, decodeX, needWf, hw, Fields.isM, fits, hsrc, hdst]
  | csrr d csr =>
    obtain rfl := Option.some.inj hf
    obtain ⟨fits, hcsr⟩ := unpack_one (w := 23) (zero_append_toNat (m := 11) csr)
    simp [decodeFields, decodeS, needWf, hw, Fields.isM, fits, hcsr]
  | ldq q a b | ldsq q a b | stq q a b | stsq q a b =>
    obtain rfl := Option.some.inj hf
    simp [decodeFields, decodeA, needWf, hw, ldQueue_code, stQueue_code]
  | kset k addr stride hint =>
    obtain rfl := Option.some.inj hf
    obtain ⟨fits, hk⟩ := unpack_one (w := 5) (zero_append_toNat (m := 2) k)
    refine (show _ = need (decide ((0#2 ++ k).toNat < 8)) (.kset ((0#2 ++ k).extractLsb' 0 3) addr _ hint) from rfl).trans ?_
    rw [decide_eq_true (fits 8 (by decide)), hk, append_nibbles, need_true]
  | rep n count stride =>
    obtain rfl := Option.some.inj hf
    have hn : (stride ++ (count ++ n)).extractLsb' 0 5 = n := by
      simp (disch := omega) only [BitVec.extractLsb'_append_eq_of_add_le, BitVec.extractLsb'_eq_self]
    have hcount : (stride ++ (count ++ n)).extractLsb' 5 13 = count := by
      simp (disch := omega) only [BitVec.extractLsb'_append_eq_of_add_le, BitVec.extractLsb'_append_eq_left]
    have hstride : (stride ++ (count ++ n)).extractLsb' 18 5 = stride := BitVec.extractLsb'_append_eq_left
    exact congrArg Except.ok (by rw [hn, hcount, hstride] :
      Instr.rep ((stride ++ (count ++ n)).extractLsb' 0 5) ((stride ++ (count ++ n)).extractLsb' 5 13)
        ((stride ++ (count ++ n)).extractLsb' 18 5) = .rep n count stride)
  | csrw csr a | csrx op d csr a =>
    obtain rfl := Option.some.inj hf
    have hother : csr ≠ csrCohmode ∧ csr ≠ csrBndt := by
      simpa using (show (csr != csrCohmode && csr != csrBndt) = true from hw)
    simp [decodeFields_csrFields, csrWrite, hother, needWf, hw]
  | cohmodeWrite w a | bndtWrite w a =>
    obtain rfl := Option.some.inj hf
    exact decodeFields_csrFields ..
  -- the fields of R100-R102 by name
  | vadd e | vsub e | vmul e | vfma e | vfms e | vfnma e | vmin e | vmax e | vabs e | vneg e | vabd e | vavg e | vclamp e
  | vaddw e | vmulw e | vdot e | vmulh e | vadds e | vsubs e | vmac e | vcopysign e | vdiv e | vsqrt e | vrcp e | vrsqrt e
  | vexp2 e | vlog2 e | vsinp e | vcosp e | vtanh e | vsigm e | vfloor e | vand e | vor e | vxor e | vandn e | vnot e | vshl e
  | vshr e | vsra e | vrot e | vpop e | vclz e | vbsel e | vbfx e | vcmp e | vclass e | gand e | gor e | gxor e | gnot e | gmov e
  | gcnt e | gfirst e | gset e | vcvt e | vwiden e | vnarrow e | vpack e | vunpack e | vscale e | vqnt e | fmtld e | vmov e
  | vsplat e | vperm e | vext e | vins e | vsel e | vcompress e | vexpand e | vscan e | vred e | vtopk e | vmint e | vidx e
  | vpush e | vpull e | kget e | vlds e | vsts e | vldsx e | vstsx e | zmov e | zset e | vtex e | vwind e =>
    obtain rfl := Option.some.inj hf
    exact decodeFields_fields rfl hw
  -- events have no encoding
  | _ => cases hf

/-- The parcels of an instruction are those of its fields. -/
theorem encode_eq (hf : instrFields i = some f) : encode i = f.parcels := by rw [encode, hf]
theorem fields_of_encode (h : encode i ≠ []) : ∃ f, instrFields i = some f := by
  cases hf : instrFields i with
  | some f => exact ⟨f, rfl⟩
  | none => exact absurd (by rw [encode, hf]) h
end

/-- Settles O4: the parcels read back as the instruction's fields, and those decode to the instruction. -/
theorem decodeOfEncode : Obligations.DecodeOfEncode := by
  unfold Obligations.DecodeOfEncode
  intro i hw hne
  obtain ⟨f, hf⟩ := fields_of_encode hne
  rw [encode_eq hf, decodeParcels_parcels (visible_instrFields hf), decodeFields_instrFields hf hw]

/-! ### Reserved encodings (R97, R115, R117) -/

section
variable {f : Fields}

theorem decodeA_reserved
    (h : (0x1D ≤ f.op.toNat ∧ f.op.toNat ≤ 0x1F) ∨ (0x29 ≤ f.op.toNat ∧ f.op.toNat ≤ 0x2F) ∨
      0x3E ≤ f.op.toNat) :
    decodeA f = .error 1 := by
  unfold decodeA
  split
  rotate_right
  · rfl
  all_goals omega
theorem decodeX_reserved (h : 0xD8 ≤ f.op.toNat) : decodeX f = .error 1 := by
  unfold decodeX
  split
  rotate_right
  · rfl
  all_goals omega
theorem decodeS_reserved (h : 0xF4 ≤ f.op.toNat) : decodeS f = .error 1 := by
  unfold decodeS
  dsimp only
  split
  rotate_right
  · rfl
  all_goals omega
theorem decodeE_reserved (h : Machine.reservedOp f.op.toNat) : decodeE f = .error 1 := by
  have none : eCtor f.op.toNat = none := by
    cases hop : eCtor f.op.toNat with
    | none => rfl
    | some mk =>
      obtain ⟨-, -, -, -, hassigned, -⟩ := eCtor_spec hop
      exact absurd h hassigned
  unfold Machine.reservedOp at h
  unfold decodeE
  split
  next hkset => omega
  next hrep => omega
  next => simp only [none]
theorem decodeFields_reserved (h : Machine.reservedOp f.op.toNat) : decodeFields f = .error 1 := by
  have hE := decodeE_reserved h
  unfold Machine.reservedOp at h
  unfold decodeFields
  split
  · rw [decodeA_reserved (by omega), needWf]
  · split
    · exact hE
    · split
      · rw [decodeX_reserved (by omega), needWf]
      · rw [decodeS_reserved (by omega), needWf]
end

/-- Settles O6: the length 0b11 announces no parcels, and no class decodes a reserved opcode. -/
theorem reservedEncodingsRefused : Obligations.ReservedEncodingsRefused := by
  unfold Obligations.ReservedEncodingsRefused
  refine ⟨fun p0 p1 p2 h => ?_, fun p0 p1 p2 h hop => ?_⟩
  · obtain ⟨-, -, herr⟩ | ⟨len, q1, q2, hcount, -⟩ := decodeParcels_cases p0 p1 p2
    · exact herr
    · rw [parcelCount, h] at hcount
      cases hcount
  · obtain ⟨h3, -, -⟩ | ⟨len, q1, q2, -, hdec⟩ := decodeParcels_cases p0 p1 p2
    · exact absurd h3 h
    · rw [hdec, decodeFields_reserved (by rwa [ofParcels_op])]

/-! ### What decodes (R96, R97) -/

/-- The length that an operand B takes (R104). -/
def OpB.len : OpB → Len
  | .reg _ => .short | .imm _ => .medium | .lit _ _ => .long
def OpBSM.len : OpBSM → Len
  | .reg _ => .short | .imm _ => .medium
theorem aF_len (op : BitVec 8) (d a : BitVec 5) (fn : BitVec 4) (b : OpB) : (aF op d a fn b).len = b.len := by cases b <;> rfl
theorem aSM_len (op : BitVec 8) (d a : BitVec 5) (fn : BitVec 4) (b : OpBSM) : (aSM op d a fn b).len = b.len := by
  cases b <;> rfl
/-- Every instruction that the result gives has this length. -/
def Sized (len : Len) (r : Except Nat Instr) : Prop := ∀ i, r = .ok i → (instrFields i).map Fields.len = some len

section
variable {f : Fields} {len : Len}

@[simp] theorem sized_error (k : Nat) : Sized len (.error k) := fun _ h => nomatch h
@[simp] theorem sized_ok {i : Instr} : Sized len (.ok i) ↔ (instrFields i).map Fields.len = some len := by simp [Sized]
@[simp] theorem sized_ite {p : Prop} [Decidable p] {r r' : Except Nat Instr} :
    Sized len (if p then r else r') ↔ (p → Sized len r) ∧ (¬p → Sized len r') := by split <;> simp [*]
@[simp] theorem sized_need {c : Bool} {i : Instr} :
    Sized len (need c i) ↔ (c = true → (instrFields i).map Fields.len = some len) := by
  cases c <;> simp [Sized, need]
theorem sized_needOp {α : Type} {c : Bool} {o : Option α} {mk : α → Instr} :
    Sized len (needOp c o mk) ↔ ∀ x, o = some x → c = true → (instrFields (mk x)).map Fields.len = some len := by
  cases o with
  | none => simp [needOp]
  | some x => simp [needOp]
theorem opB_len {b : OpB} (h : f.opB = some b) : b.len = f.len := by
  unfold Fields.opB at h
  split at h
  next hlen => cases h; exact hlen.symm
  next hlen => split at h <;> cases h; exact hlen.symm
  next hlen => split at h <;> cases h; exact hlen.symm
theorem opBSM_len {b : OpBSM} (h : f.opBSM = some b) : b.len = f.len := by
  unfold Fields.opBSM at h
  split at h
  next hlen => cases h; exact hlen.symm
  next hlen => split at h <;> cases h; exact hlen.symm
  next => cases h
theorem sized_opB {c : Bool} {mk : OpB → Instr} (hlen : f.len = len)
    (hmk : ∀ b, (instrFields (mk b)).map Fields.len = some b.len) : Sized len (needOp c f.opB mk) :=
  sized_needOp.2 fun b hb _ => by rw [hmk, opB_len hb, hlen]
theorem sized_opBSM {c : Bool} {mk : OpBSM → Instr} (hlen : f.len = len)
    (hmk : ∀ b, (instrFields (mk b)).map Fields.len = some b.len) : Sized len (needOp c f.opBSM mk) :=
  sized_needOp.2 fun b hb _ => by rw [hmk, opBSM_len hb, hlen]
theorem sized_ldQueue {d : BitVec 5} {c : Bool} {mk : BitVec 2 → Except Nat Instr} (h : ∀ q, Sized len (mk q)) :
    Sized len (ldQueue d c mk) := by
  unfold ldQueue
  split
  · exact sized_error 1
  · split
    case h_1 | h_2 | h_3 | h_4 => exact h _
    all_goals exact sized_error _
theorem sized_stQueue {d : BitVec 5} {c : Bool} {mk : Bool → Except Nat Instr} (h : ∀ q, Sized len (mk q)) :
    Sized len (stQueue d c mk) := by
  unfold stQueue
  split
  · exact sized_error 1
  · split
    case h_1 | h_2 => exact h _
    all_goals exact sized_error _
theorem csrWrite_len {csr : BitVec 12} {w : CsrWr} {a : BitVec 5} {other : Instr}
    (h : (instrFields other).map Fields.len = some .medium) :
    (instrFields (csrWrite csr w a other)).map Fields.len = some .medium := by
  unfold csrWrite
  split
  · cases w <;> rfl
  · split
    · cases w <;> rfl
    · exact h

theorem sized_decodeA : Sized f.len (decodeA f) := by
  unfold decodeA
  split
  -- ld, st, lds and sts
  case h_39 | h_40 | h_41 | h_42 =>
    split
    next hb => exact sized_need.2 fun _ => congrArg some ((aF_len ..).trans (opB_len hb))
    next => exact sized_error 1
  all_goals
    cases hlen : f.len <;>
      simp +contextual [hlen, alu, aluU, instrFields.eq_def, Fields.isS, Fields.isM, aF_len, aSM_len, sized_opB, sized_opBSM,
        sized_needOp (α := BCond), Imm.fields, sized_stQueue, sized_ldQueue]
theorem sized_decodeX : Sized f.len (decodeX f) := by
  unfold decodeX
  split
  -- amo
  case h_4 =>
    split
    next hlen => exact sized_need.2 fun _ => congrArg some hlen.symm
    next hlen => exact sized_needOp.2 fun _ _ _ => congrArg some hlen.symm
    next => exact sized_error 1
  -- ldacq and strel
  case h_7 | h_8 =>
    split
    next hb => exact sized_need.2 fun _ => congrArg some ((aSM_len ..).trans (opBSM_len hb))
    next => exact sized_error 1
  all_goals
    cases hlen : f.len <;> simp +contextual [hlen, instrFields.eq_def, Fields.isS, Fields.isM, sized_needOp]
theorem sized_decodeS : Sized f.len (decodeS f) := by
  unfold decodeS
  dsimp only
  split
  -- csrw and csrx
  case h_2 => exact sized_need.2 fun h => (csrWrite_len rfl).trans (by simp_all [Fields.isM])
  case h_3 => exact sized_needOp.2 fun _ _ h => (csrWrite_len rfl).trans (by simp_all [Fields.isM])
  -- xlinv and resid, by FN
  case h_12 | h_18 => split <;> simp +contextual [instrFields.eq_def, Fields.isS]
  all_goals
    cases hlen : f.len <;> simp +contextual [hlen, instrFields.eq_def, Fields.isS, Fields.isM, sized_needOp]

section
variable {i : Instr}

theorem needWf_sound {r : Except Nat Instr} (hr : Sized len r) (h : needWf r = .ok i) :
    i.wf = true ∧ (instrFields i).map Fields.len = some len := by
  cases r with
  | error k => cases h
  | ok j =>
    by_cases hw : j.wf = true
    · obtain rfl : j = i := by simpa [needWf, hw] using h
      exact ⟨hw, hr j rfl⟩
    · simp [needWf, hw] at h
theorem decodeE_sound (h : decodeE f = .ok i) : i.wf = true ∧ (instrFields i).map Fields.len = some f.len := by
  cases hmk : eCtor f.op.toNat with
  | some mk =>
    obtain ⟨-, -, -, -, -, hmake⟩ := eCtor_spec hmk
    obtain ⟨hfields, hwf⟩ := hmake f.eArgs
    rw [decodeE_eq hmk] at h
    split at h
    next hlegal =>
      split at h
      next hqueue =>
        cases h
        rw [hwf, hfields, eOk, hlegal, hqueue, Option.map_some, eArgs_fields_len]
        exact ⟨rfl, rfl⟩
      next => cases h
    next => cases h
  | none =>
    unfold decodeE at h
    split at h
    next =>
      obtain ⟨hc, rfl⟩ := need_eq_ok.1 h
      exact ⟨rfl, by simp_all [instrFields.eq_def]⟩
    next =>
      obtain ⟨hc, rfl⟩ := need_eq_ok.1 h
      exact ⟨rfl, by simp_all [instrFields.eq_def, Fields.isM]⟩
    next => simp [hmk] at h
theorem decodeFields_sound (h : decodeFields f = .ok i) : i.wf = true ∧ (instrFields i).map Fields.len = some f.len := by
  unfold decodeFields at h
  split at h
  · exact needWf_sound sized_decodeA h
  · split at h
    · exact decodeE_sound h
    · split at h
      · exact needWf_sound sized_decodeX h
      · exact needWf_sound sized_decodeS h
end
end

/-- Settles O5: decode answers well-formed instructions alone, each of the length that its arm checks. -/
theorem decodedIsWellFormed : Obligations.DecodedIsWellFormed := by
  unfold Obligations.DecodedIsWellFormed
  intro p0 p1 p2 i h
  obtain ⟨-, -, herr⟩ | ⟨len, q1, q2, hcount, hdec⟩ := decodeParcels_cases p0 p1 p2
  · rw [herr] at h
    cases h
  · obtain ⟨hw, hlen⟩ := decodeFields_sound (hdec ▸ h)
    obtain ⟨f, hf, hflen⟩ := Option.map_eq_some_iff.1 hlen
    rw [ofParcels_len] at hflen
    exact ⟨hw, by rw [hcount, encode_eq hf, parcels_length, hflen]⟩

end Sys2Proof
end

section
/-! PROOF. Vector sources, element results and guards of class E (O20, O22, O23, O27), and what an elementwise instruction on
registers leaves alone (O32). -/

namespace Sys2Proof.Machine

/-! ### The elements of a block (R4) -/

section
variable {w n p j : Nat}

theorem elems_getD (hp : p < n) (x : Nat) : (elems w n x).getD p 0 = x / 2 ^ (w * p) % 2 ^ w := by
  induction n generalizing p x with
  | zero => omega
  | succ n ih =>
    cases p with
    | zero => simp [elems]
    | succ p =>
      rw [elems, List.getD_cons_succ, ih (by omega), Nat.div_div_eq_div_mul, ← Nat.pow_add, Nat.mul_succ, Nat.add_comm w]
/-- Bit j of element p is bit w · p + j of the block. -/
theorem blockElems_testBit (hp : p < 4096 / w) (hj : j < w) (b : Block) :
    ((blockElems w b).getD p 0).testBit j = b.getLsbD (w * p + j) := by
  rw [blockElems, elems_getD hp, Nat.testBit_mod_two_pow, Nat.testBit_div_two_pow, decide_eq_true hj, Bool.true_and,
    BitVec.getLsbD, Nat.add_comm]
theorem blockElems_lt (hp : p < 4096 / w) (b : Block) : (blockElems w b).getD p 0 < 2 ^ w := by
  rw [blockElems, elems_getD hp]
  exact Nat.mod_lt _ (Nat.two_pow_pos w)
theorem joinElems_testBit {l : List Nat} (hl : ∀ v ∈ l, v < 2 ^ w) (hj : j < w) :
    (joinElems w l).testBit (w * p + j) = (l.getD p 0).testBit j := by
  induction l generalizing p with
  | nil => simp [joinElems]
  | cons x r ih =>
    have hx : x < 2 ^ w := hl x (by simp)
    rw [joinElems, Nat.add_comm x]
    cases p with
    | zero => rw [Nat.testBit_two_pow_mul_add _ hx, Nat.mul_zero, Nat.zero_add, if_pos hj, List.getD_cons_zero]
    | succ p =>
      rw [Nat.testBit_two_pow_mul_add _ hx, Nat.mul_succ, if_neg (by omega), show w * p + w + j - w = w * p + j by omega,
        ih fun v hv => hl v (by simp [hv]), List.getD_cons_succ]
theorem bit_in_block (hp : p < 4096 / w) (hj : j < w) : w * p + j < 4096 := by
  have := Nat.mul_le_of_le_div w (p + 1) 4096 hp
  rw [Nat.add_mul, Nat.one_mul, Nat.mul_comm] at this
  omega
theorem blockOf_bit {l : List Nat} (hl : ∀ v ∈ l, v < 2 ^ w) (hp : p < 4096 / w) (hj : j < w) :
    (blockOf w l).getLsbD (w * p + j) = (l.getD p 0).testBit j := by
  rw [blockOf, BitVec.getLsbD_ofNat, decide_eq_true (bit_in_block hp hj), Bool.true_and, joinElems_testBit hl hj]

/-! ### Results written to a v register (R109, R125) -/

variable {l : List (Option Nat)}

theorem resultMask_bit (hp : p < 4096 / w) (hj : j < w) :
    (resultMask w l).getLsbD (w * p + j) = (l.getD p none).isSome := by
  have ones : ∀ v ∈ l.map fun r : Option Nat => if r.isSome then 2 ^ w - 1 else 0, v < 2 ^ w := by
    have := Nat.two_pow_pos w
    intro v hv
    obtain ⟨r, -, rfl⟩ := List.mem_map.1 hv
    split <;> omega
  rw [resultMask, blockOf_bit ones hp hj, List.getD_eq_getElem?_getD, List.getElem?_map, List.getD_eq_getElem?_getD]
  cases l[p]? with
  | none => simp
  | some r => cases r <;> simp [hj]
theorem resultData_bit (hl : ∀ v, some v ∈ l → v < 2 ^ w) (hp : p < 4096 / w) (hj : j < w) :
    (resultData w l).getLsbD (w * p + j) = ((l.getD p none).getD 0).testBit j := by
  have fits : ∀ v ∈ l.map fun r : Option Nat => r.getD 0, v < 2 ^ w := by
    intro v hv
    obtain ⟨r, hr, rfl⟩ := List.mem_map.1 hv
    cases r with
    | none => exact Nat.two_pow_pos w
    | some v => exact hl v hr
  rw [resultData, blockOf_bit fits hp hj, List.getD_eq_getElem?_getD, List.getElem?_map, List.getD_eq_getElem?_getD]
  cases l[p]? <;> rfl
/-- The results stand in their elements, and the elements without a result are as before. -/
theorem blockElems_blend (hl : ∀ v, some v ∈ l → v < 2 ^ w) (hp : p < 4096 / w) (old : Block) :
    (blockElems w (blend old (resultMask w l) (resultData w l))).getD p 0 =
      (l.getD p none).getD ((blockElems w old).getD p 0) := by
  have fits : (l.getD p none).getD ((blockElems w old).getD p 0) < 2 ^ w := by
    cases h : l.getD p none with
    | none => exact blockElems_lt hp old
    | some v =>
      rw [List.getD_eq_getElem?_getD] at h
      cases found : l[p]? with
      | none => simp [found] at h
      | some r => exact hl v (List.mem_of_getElem? (by rw [found] at h ⊢; exact congrArg some h))
  refine Nat.eq_of_testBit_eq fun j => ?_
  by_cases hj : j < w
  · rw [blockElems_testBit hp hj, blend, BitVec.getLsbD_or, BitVec.getLsbD_and, BitVec.getLsbD_and, BitVec.getLsbD_not,
      decide_eq_true (bit_in_block hp hj), resultMask_bit hp hj, resultData_bit hl hp hj, ← blockElems_testBit hp hj]
    cases l.getD p none <;> simp
  · have high : 2 ^ w ≤ 2 ^ j := Nat.pow_le_pow_right Nat.two_pos (by omega)
    rw [Nat.testBit_lt_two_pow (Nat.lt_of_lt_of_le (blockElems_lt hp _) high),
      Nat.testBit_lt_two_pow (Nat.lt_of_lt_of_le fits high)]
end

theorem writeV_r (c : Ctx) (d : BitVec 5) (mask v : Block) :
    (c.writeV d mask v).r = { c.r with v := c.r.v.set d.toNat (blend (c.readV d) mask v) } := rfl
/-- Reading a v register after a write of one. -/
theorem readV_writeV (c : Ctx) (d r : BitVec 5) (mask v : Block) :
    (c.writeV d mask v).readV r = if r = d then blend (c.readV d) mask v else c.readV r := by
  rw [Ctx.readV, writeV_r]
  split
  next same => subst same; exact Vector.getElem_set_self ..
  next other => exact Vector.getElem_set_ne d.isLt r.isLt fun same => other (BitVec.eq_of_toNat_eq same.symm)

/-- Settles O22: bit by bit, a result's bits come from the data under the mask, the others from the register. -/
theorem elementWritten : Obligations.ElementWritten := by
  unfold Obligations.ElementWritten
  intro c d w l _ _ fits
  refine ⟨fun p hp => ?_, fun r other => ?_, rfl, rfl, rfl, rfl, rfl⟩
  · rw [Ctx.writeElems, readV_writeV, if_pos rfl, blockElems_blend fits hp]
  · rw [Ctx.writeElems, readV_writeV, if_neg other]

/-! ### Vector sources (R113, R194) -/

section
variable {s : State} {g : Group} {c : Ctx} {src : BitVec 4}

theorem vSrc_register (ha : s.Acts g c) (reg : BitVec 5) : s.vSrc g c 0 reg = .ok s (c.readV reg) := by
  rw [State.vSrc, ctxOf_acting ha]
  rfl
theorem src_ne_zero (h : 0 < src.toNat) : (src == 0) = false :=
  beq_eq_false_iff_ne.2 fun zero => by simp [zero] at h
theorem queue_of_src {q : Fin 6} (hs : src.toNat = 9 + q.val) : Fin.ofNat 6 (src.toNat - 9) = q := by
  rw [hs, Nat.add_sub_cancel_left]
  exact Fin.ofNat_val_eq_self q
theorem vSrc_empty {q : Fin 6} (ha : s.Acts g c) (hs : src.toNat = 9 + q.val) (hq : c.headBlock q = none) (reg : BitVec 5) :
    s.vSrc g c src reg = .wait (.queue q.val false) := by
  have nonzero := src_ne_zero (src := src) (by omega)
  have high : ¬src.toNat ≤ 8 := by omega
  simp only [State.vSrc, ctxOf_acting ha, nonzero, queue_of_src hs, hq, high, Bool.false_eq_true, if_false]
theorem vSrc_head {q : Fin 6} {b : QBlock} (ha : s.Acts g c) (hs : src.toNat = 9 + q.val) (hq : c.headBlock q = some b)
    (reg : BitVec 5) : s.vSrc g c src reg = .ok (s.updCtx g.id c.num fun x => x.popBlock q) b.data := by
  have nonzero := src_ne_zero (src := src) (by omega)
  have high : ¬src.toNat ≤ 8 := by omega
  simp only [State.vSrc, ctxOf_acting ha, nonzero, queue_of_src hs, hq, high, Bool.false_eq_true, if_false]
theorem vSrc_pointer {k : BitVec 3} (ha : s.Acts g c) (hs : src.toNat = 1 + k.toNat) (reg : BitVec 5) :
    s.vSrc g c src reg = s.kRead g c k := by
  have pointer : BitVec.ofNat 3 (src.toNat - 1) = k := by
    rw [hs, Nat.add_sub_cancel_left, BitVec.ofNat_toNat, BitVec.setWidth_eq]
  have := k.isLt
  rw [State.vSrc, ctxOf_acting ha, src_ne_zero (by omega), pointer, if_neg Bool.false_ne_true, if_pos (by omega)]

/-- Noting a read leaves the groups and the releases alone. -/
theorem noteSpot_read (s : State) (w : Who) (p : Spot) (n : Nat) :
    (s.noteSpot w .read p n).groups = s.groups ∧ (s.noteSpot w .read p n).rels = s.rels := by
  have words : ∀ die l, (State.noteWords s w .read l die).groups = s.groups ∧
      (State.noteWords s w .read l die).rels = s.rels := fun die l =>
    ⟨foldl_keep State.groups (State.noteWord w .read die) (fun _ _ => rfl) l s.tock,
      foldl_keep State.rels (State.noteWord w .read die) (fun _ _ => rfl) l s.tock⟩
  cases p with
  | win img off => exact ⟨rfl, rfl⟩
  | mem key home tracked leaf =>
    cases tracked with
    | false => exact ⟨rfl, rfl⟩
    | true => exact words _ _
theorem noteEarlyE_mem (s : State) (g : Group) (c : Ctx) (var n tick : Nat) : (s.noteEarlyE g c var n tick).mem = s.mem := by
  unfold State.noteEarlyE State.noteEarlyAt
  split
  · split <;> rfl
  · rfl
/-- A read of bytes that hold no released variable needs no note for a later fence (R288). -/
theorem noteEarlyE_unreleased {var n : Nat} (h : ∀ r ∈ s.rels, r.var < var ∨ var + n ≤ r.var) (tick : Nat) :
    s.noteEarlyE g c var n tick = s := by
  have none : s.rels.filter (fun r => var ≤ r.var && r.var < var + n) = [] :=
    List.filter_eq_nil_iff.2 fun r hr => by have := h r hr; simp; omega
  rw [State.noteEarlyE, State.noteEarlyAt, none]
  exact ite_self s
/-- Bytes of memory without earlier values, read where the streams are in order. -/
theorem readE_settled {key die n : Nat} {tracked : Bool} {e : Option (Nat × Nat × Nat)} (hl : c.loose = [])
    (ho : ∀ x ∈ wordsOf key n, alGet s.olds x = none) :
    s.readE g c (.mem key die tracked e) n = (s.rd key n,
      (s.noteSpot (c.who true pathCore) .read (.mem key die tracked e) n).noteEarlyE g c key n
        (s.noteSpot (c.who true pathCore) .read (.mem key die tracked e) n).tick) := by
  have olds := (noteSpot_reads s (c.who true pathCore) (.mem key die tracked e) n).olds
  have mem := (noteSpot_keeps s (c.who true pathCore) .read (.mem key die tracked e) n 0).mem
  simp only [State.readE, readLocal_ordered _ g c true key n hl]
  rw [plainRead_settled _ _ _ _ _ _ (by rwa [olds]), State.rd, State.rd, mem]
end

/-- Settles O23: what the number of the source names, and what is read there. -/
theorem vectorSources : Obligations.VectorSources := by
  unfold Obligations.VectorSources
  intro s g c reg ha
  refine ⟨vSrc_register ha reg, fun src q hs _ => ?_, fun src k key die tr e hs hp hl ho => ?_, fun src h => vSrc_ready ha h⟩
  · cases hq : c.headBlock q with
    | none => exact vSrc_empty ha hs hq reg
    | some b => exact vSrc_head ha hs hq reg
  obtain ⟨groups, rels⟩ := noteSpot_read s (c.who true pathCore) (.mem key die tr e) 512
  refine ⟨(s.readE g c (.mem key die tr e) 512).2, ?_, fun free => ?_, ?_⟩
  · rw [readE_settled hl ho, noteEarlyE_mem]
    exact (noteSpot_keeps _ _ _ _ _ 0).mem
  · rw [readE_settled hl ho, noteEarlyE_unreleased (by rwa [rels])]
    exact groups
  · rw [vSrc_pointer ha hs, State.kRead, ctxOf_acting ha, hp]
    simp only [readE_settled hl ho]
    rfl

/-! ### The result of an elementwise instruction (R164, R168) -/

/-- Settles O20: the body of every elementwise instruction is the element map of its function. -/
theorem elementwiseResult : Obligations.ElementwiseResult := by
  unfold Obligations.ElementwiseResult
  intro s s1 g c i op e0 e sh f a b ha hm h hr
  rw [State.EndsE, exec_elementwise hm]
  refine vRun_done ha h ?_
  simp only [hr, Act.ofS, mapElems_eq]
  rfl

/-! ### The guard instructions (R108, R179) -/

section
variable {s : State} {g : Group} {c : Ctx} {i : Instr} {op : Nat} {e0 e : EArgs} {sh : EShape}

/-- A guard instruction writes what its function gives where the guard is true. -/
theorem vGuard_ends {f : Guard → Guard → Guard → Nat → Guard} (ha : s.Acts g c) (h : EReady g c op e0 one3 sh e)
    (hi : exec i s = vGuard i op e0 s f) :
    s.EndsE i g c s fun x => x.writeGuard (gReg e.d) (c.guard e)
      (f (c.readG (gReg e.a)) (c.readG (gReg e.b)) (c.guard e) e.immU) :=
  hi.trans (vRun_done ha h rfl)
/-- Of the set bits only the lowest stays: in x and -x alike, it alone is set. -/
theorem lowest_bit (x : Guard) (i : Nat) :
    (lowest x).getLsbD i = true ↔ x.getLsbD i = true ∧ ∀ j < i, x.getLsbD j = false := by
  have negated : (0 : Guard) - x = -x := BitVec.zero_sub x
  have inside : x.getLsbD i = true → i < 128 := fun h => BitVec.lt_of_getLsbD h
  rw [lowest, negated, BitVec.getLsbD_and, BitVec.getLsbD_neg]
  by_cases hx : x.getLsbD i = true
  · rw [hx, decide_eq_true (inside hx), Bool.true_and, Bool.true_and, Bool.true_xor, Bool.not_eq_true', decide_eq_false_iff_not]
    simp
  · simp [hx]
theorem ones_bit (n i : Nat) : (BitVec.ofNat 128 (2 ^ n - 1)).getLsbD i = decide (i < 128 ∧ i < n) := by
  rw [BitVec.getLsbD_ofNat, Nat.testBit_two_pow_sub_one, Bool.decide_and]
theorem popCount_guard (x : Guard) : popCount 128 x.toNat = (List.range 128).countP fun i => x.getLsbD i :=
  popCount_eq_countP 128 x.toNat
theorem full_q6 (q : Queues) : q.full 6 = decide (16 ≤ q.q6.length) := rfl
/-- What an instruction that pushes q6 comes to with room and without. -/
theorem execGcnt_eq (ha : s.Acts g c) (h : EReady g c 0x77 e0 one3 sh e) :
    execGcnt e0 s = .next (if c.queues.q6.length < 16 then
      (s.updCtx g.id c.num fun x => x.pushQ6 (BitVec.ofNat 64 (popCount 128 (c.readG (gReg e.a) &&& c.guard e).toNat))).endsE g c
        (inRegion c.pcE (Instr.gcnt e0).size)
      else s.waitsE g c (.queue 6 false)) := by
  rw [execGcnt]
  by_cases room : c.queues.q6.length < 16
  · rw [if_pos room]
    refine vRun_done ha h ?_
    rw [State.q6Room, ctxOf_acting ha, full_q6, decide_eq_false (by omega), if_neg Bool.false_ne_true]
    rfl
  · rw [if_neg room]
    refine vRun_wait ha h ?_
    rw [State.q6Room, ctxOf_acting ha, full_q6, decide_eq_true (by omega), if_pos rfl]
end

/-- Settles O27: the guard of each instruction, its bits, and the count that gcnt pushes. -/
theorem guardResult : Obligations.GuardResult := by
  unfold Obligations.GuardResult
  intro s g c e0 e sh ha a b gd put
  refine ⟨fun h => vGuard_ends (f := fun a b _ _ => a &&& b) ha h rfl,
    fun h => vGuard_ends (f := fun a b _ _ => a ||| b) ha h rfl,
    fun h => vGuard_ends (f := fun a b _ _ => a ^^^ b) ha h rfl, fun h => vGuard_ends (f := fun a _ _ _ => ~~~a) ha h rfl,
    fun h => vGuard_ends (f := fun a _ _ _ => a) ha h rfl,
    fun h => ⟨lowest (a &&& gd), vGuard_ends (f := fun a _ gd _ => lowest (a &&& gd)) ha h rfl, lowest_bit _⟩,
    fun h => ⟨BitVec.ofNat 128 (2 ^ e.immU - 1), vGuard_ends (f := fun _ _ _ n => BitVec.ofNat 128 (2 ^ n - 1)) ha h rfl,
      ones_bit e.immU⟩, fun h => ?_⟩
  rw [← popCount_guard]
  exact execGcnt_eq ha h

/-! ### What an elementwise instruction on registers leaves alone (R113, R125, R167) -/

@[simp] theorem nextE_num (c : Ctx) (dest : Word) : (c.nextE dest).num = c.num := by simp [Ctx.nextE]
theorem endsE_frame (s : State) (g : Group) (c : Ctx) (dest : Word) (h : s.Calm g.core) :
    CountersOnly (s.updCtx g.id c.num fun x => (x.nextE dest).repStep) (s.endsE g c dest) g.core :=
  count_calm _ _ _ _ _ _ h
/-- What the end of an instruction of the execute stream leaves of a context. -/
def SameRegisters (c d : Ctx) : Prop :=
  d.num = c.num ∧ d.r = c.r ∧ d.queues = c.queues ∧ d.pcA = c.pcA ∧ d.csr = c.csr

theorem SameRegisters.trans {a b c : Ctx} (h : SameRegisters a b) (k : SameRegisters b c) : SameRegisters a c := by
  obtain ⟨num, r, queues, pcA, csr⟩ := h
  obtain ⟨num', r', queues', pcA', csr'⟩ := k
  exact ⟨num'.trans num, r'.trans r, queues'.trans queues, pcA'.trans pcA, csr'.trans csr⟩
/-- The next place of a rep (R132) is a matter of the stream's place alone. -/
theorem repStep_same (c : Ctx) : SameRegisters c c.repStep := by
  unfold Ctx.repStep
  split
  · exact ⟨rfl, rfl, rfl, rfl, rfl⟩
  · split
    · exact ⟨rfl, rfl, rfl, rfl, rfl⟩
    · split <;> exact ⟨rfl, rfl, rfl, rfl, rfl⟩
theorem repStep_num (c : Ctx) : c.repStep.num = c.num := by
  obtain ⟨num, -⟩ := repStep_same c
  exact num
/-- So is the end of an instruction with which no queued update comes about (R127). -/
theorem nextE_same (c : Ctx) (dest : Word) (h : ∀ u ∈ c.lag, if u.execute == true then 1 < u.left else 0 < u.left) :
    SameRegisters c (c.nextE dest) := by
  unfold Ctx.nextE
  rw [endInstr_quiet _ true (by exact h)]
  exact ⟨rfl, rfl, rfl, rfl, rfl⟩
/-- A write of results queues one update, due six instructions later. -/
theorem writeElems_lag {c : Ctx} (hl : c.lag = []) (d : BitVec 5) (w : Nat) (l : List (Option Nat)) :
    ∀ u ∈ (c.writeElems d w l).lag, u.execute = true ∧ u.left = lagStart := by
  intro u hu
  have only : (c.writeElems d w l).lag = overtake false (.v d) (resultMask w l) c.lag ++
    [{ execute := true, toWindow := true, reg := .v d, left := lagStart, mask := resultMask w l, data := resultData w l }] := rfl
  rw [only, hl, overtake, List.map_nil, List.nil_append, List.mem_singleton] at hu
  rw [hu]
  exact ⟨rfl, rfl⟩
theorem writeElems_others (c : Ctx) (d : BitVec 5) (w : Nat) (l : List (Option Nat)) :
    (c.writeElems d w l).r.x = c.r.x ∧ (c.writeElems d w l).r.g = c.r.g ∧ (c.writeElems d w l).r.k = c.r.k ∧
    (c.writeElems d w l).queues = c.queues ∧ (c.writeElems d w l).pcA = c.pcA ∧ (c.writeElems d w l).csr = c.csr :=
  ⟨rfl, rfl, rfl, rfl, rfl, rfl⟩
theorem readAB_registers {s : State} {g : Group} {c : Ctx} {sh : EShape} {e : EArgs} (ha : s.Acts g c) (hsa : e.asrc = 0)
    (hsb : e.bsrc = 0) (t : ETy) : ∃ ab, readAB s g c sh e t = .ok s ab := by
  simp only [readAB, hsa, hsb, vSrc_register ha, SRes.bind]
  split <;> exact ⟨_, rfl⟩

/-- Settles O32: the result is one write of vD with its flags, and the end of the instruction changes neither registers nor
queues. -/
theorem elementwiseFrame : Obligations.ElementwiseFrame := by
  unfold Obligations.ElementwiseFrame
  intro s g c i op e0 e sh f ha hm h hsa hsb calm hl
  obtain ⟨⟨a, b⟩, hr⟩ := readAB_registers (sh := sh) ha hsa hsb (c.srcTy sh e)
  have result := elementwiseResult s s g c i op e0 e sh f a b ha hm h hr
  simp only [State.EndsE] at result
  generalize elemResults _ _ _ _ = r at result
  generalize (c.outTy sh e).w = w at result
  generalize inRegion c.pcE i.size = dest at result
  have frame := endsE_frame (s.updCtx g.id c.num fun x => (x.writeElems e.d w r.1).flags r.2) g c dest calm
  rw [updCtx_updCtx _ _ _ _ _ fun x => writeElems_flags_num x ..] at frame
  have same : SameRegisters ((c.writeElems e.d w r.1).flags r.2) ((((c.writeElems e.d w r.1).flags r.2).nextE dest).repStep) :=
    (nextE_same _ dest fun u hu => by
      obtain ⟨execute, left⟩ := writeElems_lag hl e.d w r.1 u hu
      rw [execute, left]
      decide).trans (repStep_same _)
  obtain ⟨-, sameR, sameQueues, samePcA, sameCsr⟩ := same
  have number : ∀ x : Ctx, ((((x.writeElems e.d w r.1).flags r.2).nextE dest).repStep).num = x.num := fun x => by
    rw [repStep_num, nextE_num, writeElems_flags_num]
  obtain ⟨hx, hg, hk, hq, hpc, hcsr⟩ := writeElems_others c e.d w r.1
  refine ⟨_, (((c.writeElems e.d w r.1).flags r.2).nextE dest).repStep, result, onlyContext_of number frame, ?_,
    fun k => ?_, ?_⟩
  · rw [frame.cx, cx_updCtx _ _ _ _ _ _ number, acts_cx ha, Option.map_some, if_pos ⟨rfl, rfl⟩]
  · rw [State.byteAt, frame.mem]
    rfl
  · refine ⟨?_, ?_, ?_, sameQueues.trans hq, samePcA.trans hpc, ?_, fun n other => ?_⟩
    · rw [sameR]; exact hx
    · rw [sameR]; exact hg
    · rw [sameR]; exact hk
    · rw [sameCsr]; rfl
    · rw [Ctx.readV, sameR]
      exact (readV_writeV c e.d n _ _).trans (if_neg other)

end Sys2Proof.Machine
end

section
/-! PROOF. Taking an exception and returning from it (O52). -/

namespace Sys2Proof.Machine

/-! ### A group that stays while its image is written (R328) -/

/-- The state has a group of this number. -/
def State.HasGroup (s : State) (a : Nat) : Prop := (s.group? a).isSome = true

section
variable {s t : State} {g : Group} {a : Nat}

theorem group_of_groups (h : t.groups = s.groups) (a : Nat) : t.group? a = s.group? a := by
  rw [State.group?, State.group?, h]
theorem State.HasGroup.of_groups (h : s.HasGroup a) (e : t.groups = s.groups) : t.HasGroup a := by
  rw [State.HasGroup, group_of_groups e]
  exact h
theorem State.HasGroup.updGroup {b : Nat} {f : Group → Group} (h : s.HasGroup a) (hf : ∀ x, (f x).id = x.id) :
    (s.updGroup b f).HasGroup a := by
  rw [State.HasGroup, group_updGroup _ _ _ _ hf, Option.isSome_map]
  exact h
theorem State.HasGroup.wrBytes {key : Nat} {b : List Byte} (h : s.HasGroup a) : (s.wrBytes key b).HasGroup a :=
  h.of_groups (State.wrBytes_groups ..)
theorem State.HasGroup.foldl {α : Type} {f : State → α → State} {l : List α} (h : s.HasGroup a)
    (hf : ∀ t x, t.HasGroup a → (f t x).HasGroup a) : (l.foldl f s).HasGroup a := by
  induction l generalizing s with
  | nil => exact h
  | cons x r ih => exact ih (hf s x h)
theorem State.HasGroup.saveScratch {area : Nat} {part : Bool} (h : s.HasGroup a) : (s.saveScratch g area part).HasGroup a := by
  unfold State.saveScratch
  dsimp only
  split
  · exact h
  · exact h.foldl fun _ _ h1 => h1.wrBytes
theorem State.HasGroup.moveRecords {gid src dst : Nat} (h : s.HasGroup a) : (s.moveRecords gid src dst).HasGroup a :=
  .updGroup h fun _ => rfl
theorem State.HasGroup.saveImage {cause : Nat} {parked halted : Bool} (h : s.HasGroup a) :
    (s.saveImage g cause parked halted).HasGroup a :=
  .moveRecords (.updGroup (.saveScratch (h.foldl fun _ _ h1 => h1.wrBytes)) fun _ => rfl)

theorem settledWords_groups (s : State) (l : List Nat) : (s.settledWords l).groups = s.groups := by
  unfold State.settledWords
  split <;> rfl
theorem report_groups (s : State) (vf : Nat) (data : List Byte) : (s.report vf data).groups = s.groups := by
  unfold State.report
  split
  · rfl
  · split
    · rfl
    · simp only [State.fqPut, State.wr, State.wrBytes_groups, settledWords_groups]

/-! ### Halting a group (R266, R322) -/

/-- What the end of a stop needs to know of the group that stopStreams has stopped. -/
def StoppedAs (g y : Group) (st : Stopping) : Prop :=
  y.id = g.id ∧ y.core = g.core ∧ y.status = g.status ∧ y.stopping = some st
/-- A group whose streams stop as stopStreams stops them. -/
def Group.stopped (s : State) (g : Group) (st : Stopping) (x : Group) : Group :=
  { x with stopping := some st, ctxs := x.ctxs.map fun (c : Ctx) => if g.unbound then c.stop else (s.settled g c).stop }
theorem group_stopStreams {b : Nat} (hg : s.group? b = some g) (st : Stopping) :
    ∃ y, (s.stopStreams b st).group? b = some y ∧ StoppedAs g y st := by
  have here : (s.updGroup b (Group.stopped s g st)).group? b = some (Group.stopped s g st g) := by
    rw [group_updGroup _ _ _ _ (by intro x; rfl), hg, Option.map_some, if_pos rfl]
  refine ⟨Group.stopped s g st g, (group_of_groups ?_ b).trans here, rfl, rfl, rfl, rfl⟩
  rw [State.stopStreams, hg]
  rfl
theorem scratchBusy_stopStreams {y : Group} {st : Stopping} {b : Nat} (h : StoppedAs g y st) :
    (s.stopStreams b st).scratchBusy y = s.scratchBusy g := by
  have clusters : (s.stopStreams b st).clusters = s.clusters := by
    unfold State.stopStreams
    split <;> rfl
  obtain ⟨id, core, -, -⟩ := h
  unfold State.scratchBusy State.jobs State.cluster
  rw [clusters, id, core]
/-- A halt of a group whose scratch a CVR job still writes waits for the job. -/
theorem stopGroup_busy {st : Stopping} {b : Nat} (hg : s.group? b = some g) (hb : s.scratchBusy g = true) :
    ((s.stopGroup b st).group? b).map (fun x => (x.status, x.stopping.map fun y => y.status)) =
      some (g.status, some st.status) := by
  obtain ⟨y, hy, stopped⟩ := group_stopStreams hg st
  have busy := scratchBusy_stopStreams (s := s) (b := b) stopped
  obtain ⟨-, -, status, stopping⟩ := stopped
  rw [State.stopGroup, State.finishStop, hy]
  simp only [stopping, busy, hb, Bool.true_or, if_true, hy, Option.map_some, status]
theorem markDelayed_groups (s : State) (lid : Nat) : (s.markDelayed lid).groups = s.groups := rfl
/-- The group of a stop that has ended has its outcome. -/
theorem group_ended {b : Nat} (h : t.HasGroup b) (status : GStatus) :
    ((t.updGroup b fun x => { x with status := status, stopping := none }).group? b).map (fun x => x.status) = some status := by
  obtain ⟨z, hz⟩ := Option.isSome_iff_exists.1 h
  rw [group_updGroup _ _ _ _ (by intro x; rfl), hz, Option.map_some, if_pos rfl, Option.map_some]
/-- Any other halt ends at once. -/
theorem stopGroup_idle {st : Stopping} {r : List Byte} {b : Nat} (hg : s.group? b = some g) (hb : s.scratchBusy g = false)
    (hr : st.record = some r) : ((s.stopGroup b st).group? b).map (fun x => x.status) = some st.status := by
  obtain ⟨y, hy, stopped⟩ := group_stopStreams hg st
  have idle := scratchBusy_stopStreams (s := s) (b := b) stopped
  obtain ⟨-, -, -, stopping⟩ := stopped
  have there : (s.stopStreams b st).HasGroup b := by rw [State.HasGroup, hy]; rfl
  rw [State.stopGroup, State.finishStop, hy]
  simp only [stopping, idle, hb, hr, Option.isNone_some, Bool.and_false, Bool.or_false,
    Bool.false_eq_true, if_false]
  rw [group_of_groups (report_groups ..), group_of_groups (markDelayed_groups ..)]
  exact group_ended there.saveImage st.status

/-! ### Taking a trap (R320, R322) -/

variable {c : Ctx} {n cause : Nat} {tval epc epce : Word}

/-- The registers that a trap sets, in the context. -/
def Ctx.trapped (cause : Nat) (tval epc epce : Word) (c : Ctx) : Ctx := { c with csr := c.csr.trapInfo cause tval epc epce }
theorem cx_trapped (hc : s.cx a n = some c) :
    (s.updCtx a n (Ctx.trapped cause tval epc epce)).cx a n = some (c.trapped cause tval epc epce) := by
  rw [cx_updCtx _ _ _ _ _ _ (by intro x; rfl), hc, Option.map_some, if_pos ⟨rfl, rfl⟩]
theorem takeTrap_enters (hc : s.cx a n = some c) (hi : c.csr.intrap = false) (ht : c.csr.tvec ≠ 0) :
    s.takeTrap a n cause tval epc epce = s.updCtx a n fun x => (x.trapped cause tval epc epce).enterTrap := by
  have handled : ((c.trapped cause tval epc epce).csr.intrap || (c.trapped cause tval epc epce).csr.tvec == 0) = false := by
    show (c.csr.intrap || c.csr.tvec == 0) = false
    rw [hi, Bool.false_or]
    exact beq_eq_false_iff_ne.2 ht
  have found := cx_trapped (cause := cause) (tval := tval) (epc := epc) (epce := epce) hc
  rw [← updCtx_updCtx s a n (Ctx.trapped cause tval epc epce) Ctx.enterTrap fun _ => rfl]
  unfold State.takeTrap
  dsimp only
  unfold State.cx Ctx.trapped at found
  rw [found]
  exact if_neg (Bool.eq_false_iff.1 handled)
theorem takeTrap_halts (hc : s.cx a n = some c) (h : c.csr.intrap = true ∨ c.csr.tvec = 0) :
    s.takeTrap a n cause tval epc epce =
      (s.updCtx a n fun x => (x.trapped cause tval epc epce).standAt epc epce).haltGroup a n cause (recordAddr cause tval)
        (haltingPc (c.trapped cause tval epc epce) epc epce) := by
  have halting : ((c.trapped cause tval epc epce).csr.intrap || (c.trapped cause tval epc epce).csr.tvec == 0) = true := by
    show (c.csr.intrap || c.csr.tvec == 0) = true
    rcases h with h | h <;> simp [h]
  have found := cx_trapped (cause := cause) (tval := tval) (epc := epc) (epce := epce) hc
  rw [← updCtx_updCtx s a n (Ctx.trapped cause tval epc epce) (Ctx.standAt epc epce) fun _ => rfl]
  unfold State.takeTrap
  dsimp only
  unfold State.cx Ctx.trapped at found
  rw [found]
  exact if_pos halting
theorem group_updCtx {f : Ctx → Ctx} (hg : s.group? a = some g) : (s.updCtx a n f).group? a = some (g.updCtx n f) := by
  rw [State.updCtx, group_updGroup _ _ _ _ (by intro x; rfl), hg, Option.map_some, if_pos rfl]
theorem takeTrap_halted (hg : s.group? a = some g) (hc : s.cx a n = some c) (h : c.csr.intrap = true ∨ c.csr.tvec = 0)
    (hb : s.scratchBusy g = false) :
    ((s.takeTrap a n cause tval epc epce).group? a).map (fun x => x.status) = some (.halted cause) := by
  rw [takeTrap_halts hc h, State.haltGroup, group_updCtx hg]
  exact stopGroup_idle (group_updCtx hg) hb rfl
theorem takeTrap_stops (hg : s.group? a = some g) (hc : s.cx a n = some c) (h : c.csr.intrap = true ∨ c.csr.tvec = 0)
    (hb : s.scratchBusy g = true) :
    ((s.takeTrap a n cause tval epc epce).group? a).map (fun x => (x.status, x.stopping.map fun y => y.status)) =
      some (g.status, some (.halted cause)) := by
  rw [takeTrap_halts hc h, State.haltGroup, group_updCtx hg]
  exact (stopGroup_busy (group_updCtx hg) hb).trans rfl
theorem enterTrap_num (c : Ctx) : c.enterTrap.num = c.num := by
  simp only [Ctx.enterTrap, Ctx.stop, Ctx.clearA]
/-- Entry in the words of R320. -/
theorem enterTrap_trapped (c : Ctx) (cause : Nat) (tval epc epce : Word) :
    (c.trapped cause tval epc epce).enterTrap = c.inHandler cause tval epc epce := by
  cases hp : c.popped <;>
    simp only [Ctx.enterTrap, Ctx.stop, Ctx.clearA, Ctx.trapped, Csrs.trapInfo, Ctx.inHandler, hp]

/-! ### trap, brk, eret and a failed decode (R117, R321, R326) -/

theorem execTrap_eq (ha : s.Acts g c) (hd : c.drained = true) :
    execTrap s = .next (((s.synced g c).updCtx g.id c.num fun x => x.rejoin.endInstr false).takeTrap g.id c.num 0x30 0
      (inRegion c.pcA (Instr.trap).size) (inRegion c.pcA (Instr.trap).size)) := by
  rw [← nextPc_eq]
  exact runS_trap_after ha hd rfl
theorem execTrapN_eq (ha : s.Acts g c) (hd : c.drained = true) (n : BitVec 23) :
    execTrapN n s = .next (((s.synced g c).updCtx g.id c.num fun x => x.rejoin.endInstr false).takeTrap g.id c.num 0x30
      (BitVec.ofNat 64 n.toNat) (inRegion c.pcA (Instr.trapN n).size) (inRegion c.pcA (Instr.trapN n).size)) := by
  rw [← nextPc_eq, BitVec.ofNat_toNat]
  exact runS_trap_after ha hd rfl
theorem execBrk_eq (ha : s.Acts g c) (hd : c.drained = true) :
    execBrk s = .next ((s.synced g c).trapsA g c 0x31 (firstParcel .brk)) := runS_raise ha hd rfl
theorem execDecodeTrap_eq {key die : Nat} {w : Bool} {e : Option (Nat × Nat × Nat)} (ha : s.Acts g c) (hd : c.drained = true)
    (hp : s.fetchProbe g c c.pcA = .at (.mem key die w e)) :
    execDecodeTrap cause s = .next (s.trapsA g c cause (BitVec.ofNat 64 (s.codeAt g c key))) := by
  simp only [execDecodeTrap, show s.here? = some (g, c) from ha, State.fetchTrap, hd, if_true, State.parcelAt, hp, State.trapsA]
theorem execEret_eq (ha : s.Acts g c) (hd : c.drained = true) (hm : c.csr.mode = true) (hi : c.csr.intrap = true) :
    execEret s = .next ((((s.synced g c).updCtx g.id c.num Ctx.leaveTrap).updGroup g.id fun x =>
      { x with log := x.log.filter fun e => !(e.failed.isSome && e.ctx == c.num) }).count g.core 2 1 g.vf c.csr.mode) := by
  refine runS_moved ha hd ?_
  rw [show c.seeBoth.csr = c.csr from rfl, hm, hi]
  rfl

/-! ### Leaving a handler (R321) -/

theorem flushLag_nil (hl : c.lag = []) : c.flushLag = c := by
  rw [Ctx.flushLag, hl, List.foldl_nil, ← hl]
/-- eret puts back what entry saved. -/
theorem leaveTrap_restores {f : Frame} (hf : c.frame = some f) (hl : c.lag = []) (hr : c.csr.redir = false) :
    c.leaveTrap = { c.stop with
      csr := { c.csr with mode := c.csr.pmode, intrap := false, redir := false }, frame := none, queues := f.queues, rep := f.rep,
      lag := f.lag, seqA := f.seqA, seqE := f.seqE, seqP := f.seqP, endAt := f.endAt, ahead := f.ahead,
      earlyReads := earlyBefore c.earlyReads ++ f.early, barWait := f.barWait, pcA := c.csr.epc, pcE := c.csr.epce } := by
  unfold Ctx.leaveTrap
  simp only [flushLag_nil hl, hf, hr, Bool.false_eq_true, if_false]
/-- After a redirecting write of EPC both streams start there afresh. -/
theorem leaveTrap_redirects {f : Frame} (hf : c.frame = some f) (hl : c.lag = []) (hr : c.csr.redir = true) :
    c.leaveTrap = { c.stop with
      csr := { c.csr with mode := c.csr.pmode, intrap := false, redir := false }, frame := none,
      queues := { f.queues with bq := [] }, rep := none, lag := [], seqA := 0, seqE := 0, seqP := 0, endAt := 0, ahead := [],
      earlyReads := earlyBefore (c.earlyReads ++ f.early), barWait := none, pcA := c.csr.epc, pcE := c.csr.epc } := by
  unfold Ctx.leaveTrap
  simp only [flushLag_nil hl, hf, hr, if_true]
end

/-- Settles O52: entry, halt and return, each from what takeTrap and leaveTrap come to. -/
theorem trapResult : Obligations.TrapResult := by
  unfold Obligations.TrapResult
  intro s g c cause tval epc epce ha goes t
  obtain ⟨hg, -⟩ := acts_group ha
  have hc := acts_cx ha
  have running : g.status = .running := by
    obtain ⟨-, -, -, runs, -⟩ := acts_iff.1 ha
    exact eq_of_beq runs
  refine ⟨fun hd => ⟨execTrap_eq ha hd, execTrapN_eq ha hd, execBrk_eq ha hd, fun _ _ _ _ hp => execDecodeTrap_eq ha hd hp⟩,
    fun hi ht => ?_, fun h hb => takeTrap_halted hg hc h hb, fun h hb => ?_, fun hd hm hi => execEret_eq ha hd hm hi,
    fun f hf hl => ?_, ?_⟩
  · have entered : t = s.updCtx g.id c.num fun x => (x.trapped cause tval epc epce).enterTrap := takeTrap_enters hc hi ht
    have number : ∀ x : Ctx, ((x.trapped cause tval epc epce).enterTrap).num = x.num := fun _ => enterTrap_num _
    have cx := fun a n => cx_updCtx s g.id c.num a n _ number
    rw [entered]
    refine ⟨?_, fun a n other => ?_, updCtx_rest ..⟩
    · rw [cx, hc, Option.map_some, if_pos ⟨rfl, rfl⟩, enterTrap_trapped]
    · rw [cx]
      simp only [other, if_false, Option.map_id']
  · rw [← running]
    exact takeTrap_stops hg hc h hb
  · cases hr : c.csr.redir with
    | false =>
      rw [leaveTrap_restores hf hl hr]
      exact ⟨rfl, rfl, rfl, rfl, fun _ => ⟨rfl, rfl, rfl, rfl, rfl, rfl, rfl, rfl, rfl⟩, nofun⟩
    | true =>
      rw [leaveTrap_redirects hf hl hr]
      exact ⟨rfl, rfl, rfl, rfl, nofun, fun _ => ⟨rfl, rfl, rfl, rfl, rfl, rfl, rfl, rfl⟩⟩
  · rw [leaveTrap_restores (f := _) rfl rfl rfl]
    exact ⟨rfl, rfl, rfl, rfl, rfl, rfl, rfl, rfl, rfl, rfl, rfl, rfl, rfl⟩

end Sys2Proof.Machine
end

section
/-! PROOF. Double-width results and the dot product, compares, conversions and moves of elements (O25, O26, O28, O30). -/

namespace Sys2Proof.Machine

variable {i : Instr} {op : Nat} {e0 e : EArgs} {s s1 : State} {g : Group} {c : Ctx} {sh : EShape} {a b : List Nat}
  {sizes sizes' : Ctx → EArgs → Nat × Nat × Nat}

/-! ### Double-width results and the dot product (R165, R171, R172) -/

/-- A double-width form writes the pair of registers. -/
theorem vWide_ends {f : ETy → Nat → Nat → Nat × Flags} (ha : s.Acts g c) (h : EReady g c op e0 (fun _ _ => (2, 1, 1)) sh e)
    (hr : readAB s g c sh e (c.srcTy sh e) = .ok s1 (a, b)) :
    vWide i op e0 s f = .next ((s1.updCtx g.id c.num fun x =>
      (x.writeGroup e.d 2 (2 * (c.srcTy sh e).w)
        (guardGroup (c.guard e) 2 (2 * (c.srcTy sh e).w) (List.zipWith (f (c.srcTy sh e)) a b)).1).flags
        (guardGroup (c.guard e) 2 (2 * (c.srcTy sh e).w) (List.zipWith (f (c.srcTy sh e)) a b)).2).endsE g c
        (inRegion c.pcE i.size)) := by
  rw [vWide]
  refine vRun_done ha h ?_
  simp only [hr, Act.ofS]

/-- Settles O25: each form reads its sources and writes the group of its results. -/
theorem wideResult : Obligations.WideResult := by
  unfold Obligations.WideResult
  intro s s1 g c e0 e sh a b ha hr t wide
  refine ⟨fun h => vWide_ends ha h hr, fun h => vWide_ends ha h hr, fun h => ?_⟩
  show execVdot e0 s = _
  refine vRun_done ha h ?_
  simp only [hr, Act.ofS]
  rfl

/-! ### vcmp (R177) -/

/-- Bit i of a guard is the value of lane i. -/
theorem guardOf_bit {l : List Bool} {i : Nat} (hi : i < 128) : (guardOf l).getLsbD i = l.getD i false := by
  have bits : ∀ v ∈ l.map fun b => if b then 1 else 0, v < 2 ^ 1 := by
    intro v hv
    obtain ⟨b, -, rfl⟩ := List.mem_map.1 hv
    cases b <;> decide
  have at_i := joinElems_testBit (p := i) bits Nat.one_pos
  rw [Nat.one_mul, Nat.add_zero] at at_i
  rw [guardOf, BitVec.getLsbD_ofNat, decide_eq_true hi, Bool.true_and, at_i, List.getD_eq_getElem?_getD, List.getElem?_map,
    List.getD_eq_getElem?_getD]
  cases l[i]? with
  | none => rfl
  | some b => cases b <;> rfl
/-- A run of k entries of a list that lies inside it, entry by entry. -/
theorem all_run {α : Type} (P : α → Bool) (d : α) {l : List α} {o k : Nat} (h : o + k ≤ l.length) :
    ((l.drop o).take k).all P = decide (∀ j, j < k → P (l.getD (o + j) d) = true) := by
  have inside : ((l.drop o).take k).length = k := by rw [List.length_take, List.length_drop]; omega
  have entry : ∀ j, j < k → ∃ hj : j < ((l.drop o).take k).length, ((l.drop o).take k)[j] = l.getD (o + j) d := fun j hj => by
    refine ⟨by omega, ?_⟩
    rw [List.getElem_take, List.getElem_drop, List.getD_eq_getElem _ _ (by omega)]
  rw [Bool.eq_iff_iff, List.all_eq_true, decide_eq_true_iff, List.forall_mem_iff_getElem]
  refine ⟨fun all j hj => ?_, fun all j hj => ?_⟩
  · obtain ⟨hj', same⟩ := entry j hj
    exact same ▸ all j hj'
  · obtain ⟨_, same⟩ := entry j (by omega)
    exact same ▸ all j (by omega)
theorem getD_zipWith_fst (f : Nat → Nat → Bool × Flags) {p : Nat} (ha : p < a.length) (hb : b.length = a.length) :
    (List.zipWith f a b).getD p (false, 0) = f (a.getD p 0) (b.getD p 0) := by
  rw [List.getD_eq_getElem _ _ (by simpa [hb] using ha), List.getElem_zipWith, List.getD_eq_getElem _ _ ha,
    List.getD_eq_getElem _ _ (by omega)]

/-- The elements of a lane: between one and eight, and those of all lanes are in the register. -/
theorem lane_elements {w : Nat} (h4 : 4 ≤ w) (h32 : w ≤ 32) : 0 < 32 / w ∧ 128 * (32 / w) ≤ 4096 / w :=
  ⟨Nat.div_pos h32 (by omega), Nat.mul_div_le_mul_div_assoc 128 32 w⟩
/-- The lanes of a compare: of each, the comparisons of its elements. -/
def cmpLanes (fn : Nat) (t : ETy) (a b : List Nat) : List (List (Bool × Flags)) :=
  (List.range 128).map fun i => ((List.zipWith (cmpElem fn t) a b).drop (i * max 1 (32 / t.w))).take (max 1 (32 / t.w))

/-- The flags of a compare: those of the elements of the lanes whose guard is true. -/
def cmpFlags (gd : Guard) (l : List (List (Bool × Flags))) : Flags :=
  l.zipIdx.foldl (fun (f : Flags) x => if gd.getLsbD x.2 then x.1.foldl (fun f y => f ||| y.2) f else f) 0

/-- Settles O26: bit i of the guard is lane i's conjunction, and the elements of lane i are a run of the comparisons. -/
theorem compareResult : Obligations.CompareResult := by
  unfold Obligations.CompareResult
  intro s s1 g c e0 e sh a b ha h hr hla hlb h4 h32
  obtain ⟨pos, fit⟩ := lane_elements h4 h32
  refine ⟨guardOf ((cmpLanes e.fn.toNat (c.srcTy sh e) a b).map fun l => l.all (·.1)),
    cmpFlags (c.guard e) (cmpLanes e.fn.toNat (c.srcTy sh e) a b), ?_, fun i hi => ?_⟩
  · show execVcmp e0 s = _
    refine vRun_done ha h ?_
    simp only [hr, Act.ofS]
    rfl
  · have inside : i * (32 / (c.srcTy sh e).w) + 32 / (c.srcTy sh e).w ≤ a.length := by
      have := Nat.mul_le_mul_right (32 / (c.srcTy sh e).w) (Nat.succ_le_of_lt hi)
      rw [Nat.succ_mul] at this
      omega
    rw [guardOf_bit hi, cmpLanes, List.map_map, List.getD_eq_getElem _ _ (by simpa using hi), List.getElem_map,
      List.getElem_range, Function.comp, max_eq_right pos,
      all_run _ (false, 0) (by rwa [List.length_zipWith, hlb, min_self])]
    refine decide_eq_decide.2 (forall₂_congr fun j hj => ?_)
    rw [getD_zipWith_fst _ (by omega) hlb]

/-! ### Conversions (R180-R182) -/

/-- Only the numbers of registers that this execution names count. -/
theorem EReady.resize (h : EReady g c op e0 sizes sh e) (same : sizes' c e = sizes c e) : EReady g c op e0 sizes' sh e := by
  obtain ⟨shape, args, pass, fmts, regs⟩ := h
  exact ⟨shape, args, pass, fmts, by rwa [same]⟩

/-- Settles O28: past the checks of R181 and R182 each form converts element by element. -/
theorem convertResult : Obligations.ConvertResult := by
  unfold Obligations.ConvertResult
  intro s s1 s2 g c e0 e sh av u ha
  dsimp only
  refine ⟨fun h hu hv hread => ?cvt, fun r hr pos aligned h hv => ?widen, fun r hr pos aligned hu h hread => ?narrow⟩
  case cvt =>
    show execVcvt e0 s = _
    refine vRun_done ha (h.resize (by simp only [h.shape])) ?_
    simp only [uDynOk, hu, Bool.not_true, Bool.false_eq_true, if_false, hv, hread, Act.ofS, mapElems_eq]
  case widen =>
    show execVwiden e0 s = _
    refine vRun_done ha (h.resize (by simp only [h.shape])) ?_
    simp only [← hr, beq_eq_false_iff_ne.2 pos, aligned, bne, beq_self_eq_true, Bool.not_true, Bool.or_false,
      Bool.false_eq_true, if_false, hv, Act.ofS]
  case narrow =>
    show execVnarrow e0 s = _
    refine vRun_done ha (h.resize (by simp only [h.shape])) ?_
    simp only [uDynOk, hu, ← hr, beq_eq_false_iff_ne.2 pos, aligned, bne, beq_self_eq_true, Bool.not_true, Bool.or_false,
      Bool.false_eq_true, if_false, hread, Act.ofS, mapElems_eq]

/-! ### Moving elements (R21, R187, R188, R192) -/

/-- A form that reads no source writes at each enabled position what belongs there. -/
theorem vFill_ends {ok : ETy → Bool} {f : ETy → Nat → Nat} (ha : s.Acts g c) (h : EReady g c op e0 one3 sh e)
    (hok : ok (c.srcTy sh e) = true) (hi : exec i s = vFill i op e0 s ok f) :
    s.EndsE i g c s fun x => x.writeElems e.d (c.srcTy sh e).w
      (elemResults (c.srcTy sh e).w (4096 / (c.srcTy sh e).w) (c.guard e) fun p => (f (c.srcTy sh e) p, 0)).1 := by
  refine hi.trans (vRun_done ha h ?_)
  simp only [hok, Bool.not_true, Bool.false_eq_true, if_false, mapElems_eq]
/-- A lane pattern moves elements and does not look at them. -/
theorem pattern_map_getD {f : Nat → Nat} (zero : f 0 = 0) (l : List Nat) (p : Nat) :
    (pattern e (l.map f)).getD p 0 = f ((pattern e l).getD p 0) := by
  have moved : ∀ (m : List Nat) (q : Nat), (m.map f).getD q 0 = f (m.getD q 0) := fun m q => by
    simpa only [zero] using List.getD_map (f := f) (l := m) (d := 0) (n := q)
  unfold pattern
  split
  · exact moved l p
  · have entry : ∀ q, (l.map f).toArray.getD q 0 = f (l.toArray.getD q 0) := fun q => by
      simpa only [Array.getD_eq_getD_getElem?, List.getD_eq_getElem?_getD, List.getElem?_toArray] using moved l q
    simp only [List.length_map, entry]
    rw [← moved, List.map_map]
    rfl
theorem code_zero (t : ETy) : t.code 0 = 0 := by cases t <;> simp [ETy.code]

/-- Settles O30: the element map of each form, or the one element that it moves. -/
theorem moveResult : Obligations.MoveResult := by
  unfold Obligations.MoveResult
  intro s s1 g c e0 e sh a b av q ha
  dsimp only
  refine ⟨fun h fits => ?splat, fun h => ?idx, fun h hr => ?perm, fun h hr => ?sel,
    fun h hq => ?pull, fun h hq => ?mint, fun h inside hq => ?ins, fun h inside hv room => ?ext⟩
  case splat =>
    exact vFill_ends (ok := fun t => e0.immU < 2 ^ t.w) (f := fun t _ => t.code e0.immU) ha h (decide_eq_true fits) rfl
  case idx =>
    exact vFill_ends (ok := fun _ => true) (f := fun t p => toN t.w (e0.immI + p)) ha h rfl rfl
  case perm =>
    show execVperm e0 s = _
    refine vRun_done ha h ?_
    simp only [hr, Act.ofS, mapElems_eq]
  case sel =>
    show execVsel e0 s = _
    refine vRun_done ha h ?_
    simp only [hr, Act.ofS, mapElems_eq]
  case pull =>
    show execVpull e0 s = _
    refine vRun_done ha h ?_
    simp only [hq, Act.ofS, mapElems_eq]
  case mint =>
    show execVmint e0 s = _
    refine vRun_done ha h ?_
    simp only [hq, Act.ofS, mapElems_eq]
  case ins =>
    show execVins e0 s = _
    refine vRun_done ha h ?_
    simp only [hq, Act.ofS, Nat.not_le.2 inside, if_false]
  case ext =>
    show execVext e0 s = _
    refine vRun_done ha h ?_
    simp only [hv, Act.ofS, Nat.not_le.2 inside, if_false, State.q6Room, room, Bool.false_eq_true, ETy.elems,
      pattern_map_getD (code_zero _), State.pushQ6]
    cases c.srcTy sh e <;> rfl

end Sys2Proof.Machine
end

section
/-! PROOF. The scratch accesses of the execute stream (O33), tiles, textures and coverage (O37). -/

namespace Sys2Proof.Machine

variable {e0 e : EArgs} {s s1 : State} {g : Group} {c : Ctx} {sh : EShape} {av : Block}

/-! ### The lanes of a single-lane access (R196) -/

/-- A list has at most one enabled lane of each number. -/
theorem lanesOf_nodup {gd : Guard} {base : Nat} {b : List Nat} {l : List (Nat × Nat)}
    (h : lanesOf g gd base b.zipIdx = .ok l) : (l.map (·.1)).Nodup := by
  have rising : (b.zipIdx.filter fun x => gd.getLsbD x.2).Pairwise fun x y => x.2 ≠ y.2 :=
    (List.pairwise_map.1 (by rw [List.zipIdx_map_snd]; exact List.nodup_range')).filter _
  unfold lanesOf at h
  dsimp only at h
  split at h
  · cases h
  · cases h
    refine List.pairwise_map.2 (List.pairwise_filterMap.2 (List.pairwise_map.2 (rising.imp fun differ x hx y hy => ?_)))
    split at hx <;> cases hx
    split at hy <;> cases hy
    exact differ
/-- Where each lane stands once, it is found from either end. -/
theorem find_reverse {l : List (Nat × Nat)} (h : (l.map (·.1)).Nodup) (i : Nat) :
    l.reverse.find? (fun y => y.1 == i) = l.find? fun y => y.1 == i := by
  induction l with
  | nil => rfl
  | cons x r ih =>
    obtain ⟨fresh, rest⟩ := List.nodup_cons.1 h
    rw [List.reverse_cons, List.find?_append, ih rest, List.find?_cons, List.find?_cons]
    by_cases hx : x.1 = i
    · have none : r.find? (fun y => y.1 == i) = none := List.find?_eq_none.2 fun y hy same =>
        fresh (List.mem_map.2 ⟨y, hy, (eq_of_beq same).trans hx.symm⟩)
      simp [none, hx]
    · have other : (x.1 == i) = false := beq_eq_false_iff_ne.2 hx
      simp [other]

/-- A read of one lane notes the word, its path, and for a later fence what was released there (R288). -/
def State.noteLane (g : Group) (c : Ctx) (s : State) (key : Nat) : State :=
  (s.noteWords (c.who true pathCore) .read [key / 4] fun _ => 4).noteEarlyE g c key 4
    (s.noteWords (c.who true pathCore) .read [key / 4] fun _ => 4).tick
theorem noteEarlyE_olds (s : State) (g : Group) (c : Ctx) (var n tick : Nat) : (s.noteEarlyE g c var n tick).olds = s.olds := by
  unfold State.noteEarlyE State.noteEarlyAt
  split
  · split <;> rfl
  · rfl
theorem noteEarlyE_rels (s : State) (g : Group) (c : Ctx) (var n tick : Nat) : (s.noteEarlyE g c var n tick).rels = s.rels := by
  unfold State.noteEarlyE State.noteEarlyAt
  split
  · split <;> rfl
  · rfl
theorem noteLane_keeps (s : State) (g : Group) (c : Ctx) (key : Nat) :
    (s.noteLane g c key).mem = s.mem ∧ (s.noteLane g c key).olds = s.olds ∧ (s.noteLane g c key).rels = s.rels :=
  ⟨(noteEarlyE_mem ..).trans rfl, (noteEarlyE_olds ..).trans rfl, (noteEarlyE_rels ..).trans rfl⟩
theorem noteLane_groups {key : Nat} (h : ∀ r ∈ s.rels, r.var < key ∨ key + 4 ≤ r.var) :
    (s.noteLane g c key).groups = s.groups :=
  (congrArg State.groups (noteEarlyE_unreleased (s := s.noteWords (c.who true pathCore) .read [key / 4] fun _ => 4) h _)).trans rfl
/-- Noting lanes, one after the other, leaves memory alone, and the groups where nothing is released there. -/
theorem noteLanes_keep (g : Group) (c : Ctx) (l : List (Nat × Nat)) (s : State) :
    (l.foldl (fun s y => s.noteLane g c y.2) s).mem = s.mem ∧
      ((∀ r ∈ s.rels, ∀ y ∈ l, r.var < y.2 ∨ y.2 + 4 ≤ r.var) → (l.foldl (fun s y => s.noteLane g c y.2) s).groups = s.groups) := by
  induction l generalizing s with
  | nil => exact ⟨rfl, fun _ => rfl⟩
  | cons x r ih =>
    obtain ⟨mem, -, rels⟩ := noteLane_keeps s g c x.2
    obtain ⟨restMem, restGroups⟩ := ih (s.noteLane g c x.2)
    refine ⟨restMem.trans mem, fun free => ?_⟩
    have here := noteLane_groups (g := g) (c := c) fun q hq => free q hq x List.mem_cons_self
    exact (restGroups fun q hq y hy => free q (rels ▸ hq) y (List.mem_cons_of_mem x hy)).trans here

/-- One lane read as vldsx reads it, of whose word the stream has found no store of the other. -/
def readLane (g : Group) (c : Ctx) (acc : List (Nat × Nat) × State) (x : Nat × Nat) : List (Nat × Nat) × State :=
  let s2 := acc.2.noteWords (c.who true pathCore) .read [x.2 / 4] fun _ => 4
  let r := s2.plainRead g.id c.num x.2 4 (s2.rd x.2 4)
  ((x.1, r.1) :: acc.1, r.2.2.noteEarlyE g c x.2 4 r.2.1)
theorem readLane_settled {acc : List (Nat × Nat)} {x : Nat × Nat} (h : ∀ w ∈ wordsOf x.2 4, alGet s.olds w = none) :
    readLane g c (acc, s) x = ((x.1, s.rd x.2 4) :: acc, s.noteLane g c x.2) := by
  unfold readLane
  dsimp only
  rw [plainRead_settled (s.noteWords (c.who true pathCore) .read [x.2 / 4] fun _ => 4) _ _ _ _ _ h]
  rfl
/-- Words without earlier values are read as they stand in memory. -/
theorem readLanes_settled (g : Group) (c : Ctx) {l : List (Nat × Nat)} (acc : List (Nat × Nat)) (s : State)
    (h : ∀ y ∈ l, ∀ w ∈ wordsOf y.2 4, alGet s.olds w = none) :
    l.foldl (readLane g c) (acc, s) =
      ((l.map fun y => (y.1, s.rd y.2 4)).reverse ++ acc, l.foldl (fun s y => s.noteLane g c y.2) s) := by
  induction l generalizing acc s with
  | nil => rfl
  | cons x r ih =>
    obtain ⟨mem, olds, -⟩ := noteLane_keeps s g c x.2
    have same : ∀ y : Nat × Nat, (s.noteLane g c x.2).rd y.2 4 = s.rd y.2 4 := fun y => by rw [State.rd, State.rd, mem]
    rw [List.foldl_cons, readLane_settled (h x List.mem_cons_self),
      ih _ _ fun y hy w hw => olds ▸ h y (List.mem_cons_of_mem x hy) w hw]
    simp only [same, List.map_cons, List.reverse_cons, List.append_assoc, List.singleton_append, List.foldl_cons]

/-- What vldsx comes to with the words that it has read. -/
def lanesDone (g : Group) (c : Ctx) (d : BitVec 5) (r : List (Nat × Nat) × State) : Act :=
  .done (r.2.updCtx g.id c.num fun x =>
    x.writeElems d 32 ((List.range 128).map fun i => (r.1.find? fun x => x.1 == i).map (·.2)))
/-- Where the streams are in order, the words of vldsx hold what memory holds (R196, R197). -/
theorem vldsx_ends {bv : Block} {l : List (Nat × Nat)} (ha : s.Acts g c) (h : EReady g c 0xA4 e0 one3 sh e)
    (hv : s.vSrc g c e.bsrc e.b = .ok s1 bv) (hloose : (s1.ctxOf g c).loose = [])
    (holds : ∀ y ∈ l, ∀ x ∈ wordsOf y.2 4, alGet s1.olds x = none)
    (hl : lanesOf g (c.guard e) (c.kAddr (gReg e.a)) (pattern e (blockElems 32 bv)).zipIdx = .ok l)
    (hcheck : s1.lanesCheck c .read (c.kAddr (gReg e.a)) (pattern e (blockElems 32 bv)) l = none) :
    s.EndsE (.vldsx e0) g c (l.foldl (fun s y => s.noteLane g c y.2) s1) fun x =>
      x.writeElems e.d 32 ((List.range 128).map fun i => (l.find? fun y => y.1 == i).map fun y => s1.rd y.2 4) := by
  have ordered : ∀ saw, s1.foundLoose g c l saw = s1 := fun saw => by simp [State.foundLoose, hloose]
  have none_seen : ((s1.ctxOf g c).pickLoose true (l.map fun x => x.2 / 4).dedup s1.free).1 = [] := by
    have none_waits : ∀ w, looseAt (s1.ctxOf g c).loose true w = [] := fun w => by rw [hloose]; rfl
    simp only [Ctx.pickLoose, none_waits, List.isEmpty_nil, Bool.not_true, List.filter_false]
    rfl
  have lane : ∀ i, ((l.map fun y => (y.1, s1.rd y.2 4)).reverse.find? fun x => x.1 == i).map (·.2) =
      (l.find? fun y => y.1 == i).map fun y => s1.rd y.2 4 := fun i => by
    rw [find_reverse (by simpa only [List.map_map, Function.comp_def] using lanesOf_nodup hl), List.find?_map, Option.map_map]
    rfl
  show execVldsx e0 s = _
  refine vRun_done ha h ?_
  simp only [hv, Act.ofS, hl, hcheck, ordered, none_seen]
  have reads := readLanes_settled g c [] s1 holds
  rw [List.append_nil] at reads
  exact (congrArg (lanesDone g c e.d) reads).trans (by simp only [lanesDone, lane])

/-- Settles O33: each access at its checked place; the lanes of vldsx are read one after the other. -/
theorem scratchResult : Obligations.ScratchResult := by
  unfold Obligations.ScratchResult
  intro s s1 g c e0 e sh ha
  refine ⟨fun k addr stride hint => ?kset, fun h room => ?kget, fun h b hb => ?vlds, fun h av s2 hv hw => ?vsts,
    fun h bv l hv hloose holds hl hcheck => ?vldsx, fun h a b l hr hl hcheck => ?vstsx⟩
  case kset =>
    show execKset k addr stride hint s = _
    rw [inRegion_eq]
    exact runE_done ha rfl
  case kget =>
    show execKget e0 s = _
    refine vRun_done ha h ?_
    rw [State.q6Room, ctxOf_acting ha, full_q6, decide_eq_false (by omega), if_neg Bool.false_ne_true]
    rfl
  case vlds =>
    show execVlds e0 s = _
    refine vRun_done ha h ?_
    simp only [gReg, hb, Act.ofS]
  case vsts =>
    show execVsts e0 s = _
    refine vRun_done ha h ?_
    simp only [gReg, hv, SRes.bind, hw, Act.ofS]
  case vldsx =>
    exact ⟨_, (noteLanes_keep g c l s1).1, (noteLanes_keep g c l s1).2, vldsx_ends ha h hv hloose holds hl hcheck⟩
  case vstsx =>
    show execVstsx e0 s = _
    refine vRun_done ha h ?_
    simp only [gReg, hr, Act.ofS, hl, hcheck]

/-! ### Clusters and their queues -/

theorem cluster_updCluster (s : State) (n : Nat) (f : Cluster → Cluster) : (s.updCluster n f).cluster n = f (s.cluster n) := by
  show (alGet (alPut s.clusters n (f (s.cluster n))) n).getD Cluster.fresh = _
  rw [alGet_alPut, if_pos rfl]
  rfl
@[simp] theorem queue_setQueue (k : Cluster) (e : Eng) (q : List Job) : (k.setQueue e q).queue e = q := by cases e <;> rfl
@[simp] theorem jobs_setJobs (s : State) (cl : Nat) (e : Eng) (q : List Job) : (s.setJobs cl e q).jobs cl e = q := by
  rw [State.jobs, State.setJobs, cluster_updCluster, queue_setQueue]
/-- Arbitration leaves the queues alone. -/
theorem jobs_setArb (s : State) (cl : Nat) (e : Eng) (x : Arb) :
    (s.updCluster cl fun k => { k with arb := k.arb.set (engIndex e) x }).jobs cl e = s.jobs cl e := by
  rw [State.jobs, cluster_updCluster]
  cases e <;> rfl

/-! ### A message enters a queue (R234) -/

/-- The jobs that a message finds in the queue stay, and it is one more. -/
theorem enterJob_perm (rank : Job → Nat) (j : Job) (q : List Job) : (enterJob rank j q).Perm (j :: q) := by
  unfold enterJob
  refine List.perm_middle.trans (.cons j ?_)
  rw [List.takeWhile_append_dropWhile]
/-- A core's message is in the queue with the cycle of its arrival. -/
theorem jobs_enter (s : State) (cl : Nat) (e : Eng) (j : Job) :
    ((s.enter cl e false j).jobs cl e).Perm ({ j with arrived := s.cyc, arrivedSec := s.secIn (s.cyc - s.cyc) } :: s.jobs cl e) := by
  unfold State.enter
  dsimp only
  rw [jobs_setArb, jobs_setJobs]
  exact enterJob_perm ..

/-! ### Tiles (R199-R201) -/

theorem tileOf_declared {z t : Nat} {k : Nat → Act} (ht : g.tiles[z]? = some t) (hz : z < kAcc g.kobj) :
    tileOf s g z k = k t := by
  simp only [tileOf, ht, hz, if_true]
/-- The queue that a message has entered: those who were in it, and the new job. -/
theorem enter_queue {e : Eng} {j : Job} (s : State) (cl : Nat) (hq : j.phase = .queued) :
    ((s.enter cl e false j).jobs cl e).length = (s.jobs cl e).length + 1 ∧
      (∀ y ∈ s.jobs cl e, y ∈ (s.enter cl e false j).jobs cl e) ∧
      ∃ k ∈ (s.enter cl e false j).jobs cl e, k.cmd = j.cmd ∧ k.senders = j.senders ∧ k.arrived = s.cyc ∧ k.phase = .queued := by
  have queue := jobs_enter s cl e j
  exact ⟨queue.length_eq, fun y hy => queue.mem_iff.2 (List.mem_cons_of_mem _ hy), _, queue.mem_iff.2 List.mem_cons_self, rfl, rfl,
    rfl, hq⟩
/-- zset with a place in the queue: its command enters, the clear at once, the write of a row with its source. -/
theorem zset_clears {t : Nat} (ha : s.Acts g c) (h : EReady g c 0xA8 e0 one3 sh e) (ht : g.tiles[e.d.toNat]? = some t)
    (hz : e.d.toNat < kAcc g.kobj) (may : s.mayEnter (clusterOf g.core) .mxe g (askedAt c.askE (clusterOf g.core) .mxe) = true)
    (hf : e.fn = 0) :
    exec (.zset e0) s = .next ((s.enter (clusterOf g.core) .mxe false (zJob s g c (.zclr t))).endsE g c
      (inRegion c.pcE (Instr.zset e0).size)) := by
  show execZset e0 s = _
  refine vRun_done ha h ?_
  simp only [tileOf_declared ht hz, may, hf, Bool.not_true, Bool.false_eq_true, beq_self_eq_true, if_false, if_true]
theorem zset_writes {t : Nat} (ha : s.Acts g c) (h : EReady g c 0xA8 e0 one3 sh e) (ht : g.tiles[e.d.toNat]? = some t)
    (hz : e.d.toNat < kAcc g.kobj) (may : s.mayEnter (clusterOf g.core) .mxe g (askedAt c.askE (clusterOf g.core) .mxe) = true)
    (hf : e.fn ≠ 0) (hv : s.vSrc g c e.asrc e.a = .ok s1 av) :
    exec (.zset e0) s = .next ((s1.enter (clusterOf g.core) .mxe false
      (zJob s1 g c (.zrow t (e.immU % 128) (blockOf 32 (pattern e (blockElems 32 av)))))).endsE g c
      (inRegion c.pcE (Instr.zset e0).size)) := by
  show execZset e0 s = _
  refine vRun_done ha h ?_
  simp only [tileOf_declared ht hz, may, beq_eq_false_iff_ne.2 hf, Bool.not_true, Bool.false_eq_true, if_false, hv, Act.ofS]
/-- Without a place it asks for one and waits (log 82). -/
theorem zset_asks {t : Nat} (ha : s.Acts g c) (h : EReady g c 0xA8 e0 one3 sh e) (ht : g.tiles[e.d.toNat]? = some t)
    (hz : e.d.toNat < kAcc g.kobj) (full : s.mayEnter (clusterOf g.core) .mxe g (askedAt c.askE (clusterOf g.core) .mxe) = false) :
    exec (.zset e0) s = .next ((s.updCtx g.id c.num fun x =>
      { x with askE := s.askFor (askedAt c.askE (clusterOf g.core) .mxe) (clusterOf g.core) .mxe }).waitsE g c (.other false)) := by
  show execZset e0 s = _
  refine vRun_wait ha h ?_
  simp only [tileOf_declared ht hz, full, Bool.not_false, if_true]

/-- Settles O37: a tile's row rounded, a command in the queue or asking for a place, and the elements of vtex and vwind. -/
theorem tileTextureCoverage : Obligations.TileTextureCoverage := by
  unfold Obligations.TileTextureCoverage
  intro s s1 g c e0 e sh ha
  refine ⟨fun t h ht hz free room => ?zmov, fun t h ht hz => ?zset, fun a b s2 desc s3 l h hr hd hl => ?vtex, fun a b h hr => ?vwind⟩
  case zmov =>
    dsimp only
    show execZmov e0 s = _
    refine vRun_done ha h ?_
    rw [tileOf_declared ht hz, State.q6Room, ctxOf_acting ha, full_q6, decide_eq_false (by omega), free]
    simp only [Bool.false_eq_true, if_false, mapElems_eq, State.pushQ6]
    rw [updCtx_updCtx _ _ _ _ _ fun x => writeElems_flags_num ..]
  case zset =>
    exact ⟨fun may => ⟨fun hf => ⟨_, rfl, zset_clears ha h ht hz may hf, enter_queue s _ rfl⟩,
      fun hf av hv => ⟨_, rfl, zset_writes ha h ht hz may hf hv, enter_queue s1 _ rfl⟩⟩, zset_asks ha h ht hz⟩
  case vtex =>
    show execVtex e0 s = _
    refine vRun_done ha h ?_
    simp only [hr, Act.ofS, hd, hl]
  case vwind =>
    show execVwind e0 s = _
    refine vRun_done ha h ?_
    simp only [hr, Act.ofS]

end Sys2Proof.Machine
end

section
/-! PROOF. What an engine does with the head of its queue (O56): completions, the commands of the matrix engine, tiles. -/

namespace Sys2Proof.Machine

variable {s t s1 : State} {cl : Nat} {j : Job} {e : Eng} {cmd : Cmd} {w : Word}

/-! ### The head of a queue (R232, R234) -/

/-- The job at the head of an engine's queue has this command, may run, and no message can be merged with it any more. -/
def State.Heads (s : State) (cl : Nat) (j : Job) (e : Eng) (cmd : Cmd) : Prop :=
  (s.jobs cl e).head? = some j ∧ j.cmd = cmd ∧ j.ready = true ∧ j.settledAt cl s.cyc = true
/-- The command runs on such a head. -/
theorem onHead_runs (h : s.Heads cl j e cmd) (f : State → Job → State) : s.onHead cl e cmd f = f s j := by
  obtain ⟨hhead, hcmd, hready, hsettled⟩ := h
  simp only [State.onHead, hhead, hcmd, hready, hsettled, beq_self_eq_true, Bool.and_self, if_true]
/-- A head that is done leaves its queue, and its senders' records are written. -/
theorem popHead_done (hh : (s.jobs cl e).head? = some j) (hp : j.phase = .done w) :
    s.popHead cl e = (s.setJobs cl e ((s.jobs cl e).drop 1)).completeJob j w := by
  obtain ⟨r, hq⟩ := List.head?_eq_some_iff.1 hh
  simp only [State.popHead, hq, hp, List.drop_one, List.tail_cons]

/-! ### What completion does to a tile (R201, R246, R247) -/

theorem State.ChecksAs.jobs (h : t.ChecksAs s) (cl : Nat) (e : Eng) : t.jobs cl e = s.jobs cl e := by
  unfold State.ChecksAs at h
  have clusters := congrArg State.clusters h
  rw [State.jobs, State.jobs, State.cluster, State.cluster, ← clusters]
theorem countJob_checksAs (s : State) (j : Job) (ev n : Nat) : (s.countJob j ev n).ChecksAs s := by
  refine .foldl (fun t x => ?_) _ s
  split
  · exact .refl t
  · split
    · exact count_checksAs ..
    · exact .refl t
theorem queue_setTiles (k : Cluster) (v : Vector Tile 24) (e : Eng) : ({ k with tiles := v } : Cluster).queue e = k.queue e := by
  cases e <;> rfl
theorem jobs_setTile (s : State) (cl t : Nat) (x : Tile) (e : Eng) : (s.setTile cl t x).jobs cl e = s.jobs cl e := by
  rw [State.jobs, State.setTile, cluster_updCluster]
  exact queue_setTiles ..
theorem jobs_putProduct (s : State) (cl : Nat) (j : Job) (x : Tile × Nat × Nat) (e : Eng) :
    (s.putProduct cl j x).jobs cl e = s.jobs cl e := by
  rw [State.putProduct, (countJob_checksAs ..).jobs, (countJob_checksAs ..).jobs, (countJob_checksAs ..).jobs, jobs_setTile]
/-- Only a product or an epilogue that has run to its end changes a tile. -/
theorem mxeApply_none (hp : j.phase = .done w)
    (h : (j.cmd ≠ .mma ∧ j.cmd ≠ .mmab ∧ j.cmd ≠ .mepi) ∨ w ≠ doneWord 0 0 0) : s.mxeApply cl j = s := by
  unfold State.mxeApply
  split
  · rfl
  next ended =>
    have word : w = doneWord 0 0 0 := by simpa [hp] using ended
    obtain ⟨noMma, noMmab, noMepi⟩ := h.resolve_right fun other => other word
    split
    next hc => exact absurd hc noMma
    next hc => exact absurd hc noMmab
    next hc => exact absurd hc noMepi
    · rfl
theorem mxeApply_ended (hp : j.phase = .done (doneWord 0 0 0)) :
    (j.cmd = .mma → s.mxeApply cl j = s.putProduct cl j (s.mmaOut cl j)) ∧
      (j.cmd = .mmab → s.mxeApply cl j = s.putProduct cl j (s.mmabOut cl j)) ∧
      (j.cmd = .mepi → s.mxeApply cl j = if bit j.p 3 then s.setTile cl (j.f 263 256) Tile.clear else s) := by
  refine ⟨fun hc => ?_, fun hc => ?_, fun hc => ?_⟩ <;> simp [State.mxeApply, hp, hc]

/-! ### JOB_COMPLETION (R201, R232) -/

/-- A command of a message stays until its slot has ended; what it does to its tile comes then, and it leaves. -/
theorem jobCompletion_command (hh : (s.jobs cl e).head? = some j) (noClear : ∀ t, j.cmd ≠ .zclr t)
    (noRow : ∀ t r d, j.cmd ≠ .zrow t r d) :
    s.jobCompletion cl e = if s.cyc < j.slotEnd then s else (s.mxeApply cl j).popHead cl e := by
  simp only [State.jobCompletion, hh]
theorem jobCompletion_waits (hh : (s.jobs cl e).head? = some j)
    (hc : j.cmd = .mma ∨ j.cmd = .mmab ∨ j.cmd = .mepi ∨ j.cmd = .mloadw ∨ j.cmd = .mloadb) (slot : s.cyc < j.slotEnd) :
    exec (.jobCompletion cl e) s = .next s := by
  have stays : s.jobCompletion cl e = s := by
    rw [jobCompletion_command hh (fun t h => by simp [h] at hc) (fun t r d h => by simp [h] at hc), if_pos slot]
  exact congrArg Host.Outcome.next stays
theorem jobCompletion_leaves (hh : (s.jobs cl e).head? = some j) (noClear : ∀ t, j.cmd ≠ .zclr t)
    (noRow : ∀ t r d, j.cmd ≠ .zrow t r d) (slot : j.slotEnd ≤ s.cyc) (hp : j.phase = .done w) (ht : s.mxeApply cl j = t)
    (queue : t.jobs cl e = s.jobs cl e) :
    exec (.jobCompletion cl e) s = .next ((t.setJobs cl e ((s.jobs cl e).drop 1)).completeJob j w) := by
  have leaves : s.jobCompletion cl e = (t.setJobs cl e ((s.jobs cl e).drop 1)).completeJob j w := by
    rw [jobCompletion_command hh noClear noRow, if_neg (by omega), ht, popHead_done (by rw [queue, hh]) hp, queue]
  exact congrArg Host.Outcome.next leaves
/-- A command of zset acts at the end of its slot and leaves (R200). -/
theorem zsetHead_acts {x : Nat} (hp : j.phase = .running) (slot : j.slotEnd ≤ s.cyc) :
    (j.cmd = .zclr x → s.zsetHead cl j = (s.setJobs cl .mxe ((s.jobs cl .mxe).drop 1)).setTile cl x Tile.clear) ∧
      ∀ row d, j.cmd = .zrow x row d → s.zsetHead cl j =
        (s.setJobs cl .mxe ((s.jobs cl .mxe).drop 1)).setTile cl x ((s.tile cl x).setRow row d) := by
  have running : (j.phase == .queued) = false := by rw [hp]; rfl
  have past : ¬s.cyc < j.slotEnd := by omega
  refine ⟨fun hc => ?_, fun row d hc => ?_⟩ <;>
    simp only [State.zsetHead, running, past, hc, Bool.false_and, Bool.false_eq_true, if_false]
theorem zset_completes {x : Nat} (hh : (s.jobs cl .mxe).head? = some j) (hp : j.phase = .running) (slot : j.slotEnd ≤ s.cyc) :
    (j.cmd = .zclr x → exec (.jobCompletion cl .mxe) s =
      .next ((s.setJobs cl .mxe ((s.jobs cl .mxe).drop 1)).setTile cl x Tile.clear)) ∧
    ∀ row d, j.cmd = .zrow x row d → exec (.jobCompletion cl .mxe) s =
      .next ((s.setJobs cl .mxe ((s.jobs cl .mxe).drop 1)).setTile cl x ((s.tile cl x).setRow row d)) := by
  obtain ⟨clears, writes⟩ := zsetHead_acts (s := s) (cl := cl) (x := x) hp slot
  refine ⟨fun hc => congrArg Host.Outcome.next ?_, fun row d hc => congrArg Host.Outcome.next ?_⟩
  · simp only [State.jobCompletion, hh, hc]
    exact clears hc
  · simp only [State.jobCompletion, hh, hc]
    exact writes row d hc

/-! ### What the products leave (R246, R249) -/

/-- A row of A that an MMA has read, with its scales. -/
def mmaRowVals (r K : Nat) (x : (Nat × Nat) × Nat) : List FVal :=
  rowVals (recDesc r) (unpackCodes (fmtOf (recDesc r)).width K
    (bytesOfNat (K * containerOf (fmtOf (recDesc r)).width / 8) x.1.1)) ((bytesOfNat (K / 16 + 2) x.1.2).map BitVec.toNat)
    (x.2 * recCols r)
theorem mmaOut_eq (s : State) (cl : Nat) (j : Job) :
    let r := j.read.headD 0
    let rows := ((pairUp (j.read.drop 1)).zipIdx).map (mmaRowVals r (128 * j.f 223 216))
    let t1 := (rows.zipIdx).foldl (fun (t : Tile) x => mmaRow (s.cluster cl).macros (toI 16 (j.f 207 192)) x.2 x.1 t)
      (if bit j.p 0 then Tile.clear else s.tile cl (j.f 215 208))
    (s.mmaOut cl j).1 = { t1 with count := t1.count + 1, window := toI 16 (j.f 207 192) } ∧
      (s.mmaOut cl j).2.2 = (rows.map fun l => l.countP FVal.isZero).sum := by
  dsimp only
  unfold State.mmaOut
  dsimp only
  rw [List.zipIdx_map, List.zipIdx_map, List.foldl_map, List.foldl_map, List.map_map, List.map_map]
  exact ⟨rfl, rfl⟩

end Sys2Proof.Machine
end

section
/-! PROOF. What the accesses of an engine's job read and write in memory (O56). -/

namespace Sys2Proof.Machine

variable {s t s1 s2 s3 : State} {core : Nat} {j : Job} {w : Who} {k : Kind} {right : Right} {waits : Bool}

/-! ### Results of accesses -/

theorem JRes.bind_eq_ok {α β : Type} {r : JRes α} {f : State → α → JRes β} {b : β} (h : r.bind f = .ok t b) :
    ∃ u a, r = .ok u a ∧ f u a = .ok t b := by
  unfold JRes.bind at h
  split at h
  next u a => exact ⟨u, a, rfl, h⟩
  all_goals cases h
theorem alGet_absent {α : Type} {l : List (Nat × α)} {a : Nat} (h : ∀ v, (a, v) ∉ l) : alGet l a = none := by
  induction l with
  | nil => rfl
  | cons x r ih =>
    obtain ⟨b, v⟩ := x
    have other : b ≠ a := fun same => h v (by simp [same])
    rw [alGet, if_neg other]
    exact ih fun v hv => h v (List.mem_cons_of_mem _ hv)
/-- Some core's counters report nothing: one that is not recorded. -/
theorem exists_calm (s : State) : ∃ core, s.Calm core := by
  obtain ⟨core, new⟩ := Infinite.exists_notMem_finset (s.cores.map (·.1)).toFinset
  have fresh : s.core core = Core.fresh := by
    rw [State.core, alGet_absent (by simpa using new)]
    rfl
  refine ⟨core, fun i => ?_⟩
  rw [fresh]
  simp [Core.fresh, bit]

/-! ### Checks keep memory -/

theorem keepWalk_keeps (s : State) (vf va core : Nat) : Keeps s (s.keepWalk vf va) core := by
  unfold State.keepWalk
  split
  · exact keep_keeps ..
  · exact .refl ..
theorem engWalked_keeps (s : State) (j : Job) (ptr n : Nat) (right : Right) (core : Nat) :
    Keeps s (s.engWalked j ptr n right) core := .ite (.refl ..) (keepWalk_keeps ..)
theorem JRes.bind_keeps {α β : Type} {r : JRes α} {f : State → α → JRes β} (h : Keeps s r.state core)
    (hf : ∀ u a, Keeps u (f u a).state core) : Keeps s (r.bind f).state core := by
  unfold JRes.bind
  split
  next u a => exact h.trans (hf u a)
  all_goals exact h
theorem jobPieces_keeps (s : State) (j : Job) (w : Who) (k : Kind) (right : Right) (waits : Bool) (ps : List (Nat × Nat)) (core : Nat) :
    Keeps s (s.jobPieces j w k right waits ps).state core := by
  induction ps generalizing s with
  | nil => exact .refl ..
  | cons x r ih =>
    have walked := engWalked_keeps s j x.1 x.2 right core
    unfold State.jobPieces
    dsimp only
    split
    · exact walked
    · exact walked
    · split
      · exact walked
      · split
        · exact walked
        · exact JRes.bind_keeps (walked.trans (ih _)) fun u a => .refl u core
theorem jobSpots_keeps (s : State) (j : Job) (w : Who) (k : Kind) (right : Right) (waits : Bool) (ps : List (Nat × Nat)) (core : Nat) :
    Keeps s (s.jobSpots j w k right waits ps).state core :=
  JRes.bind_keeps (jobPieces_keeps ..) fun u a => by split <;> exact .refl u core
theorem jobSpots_kept {ps : List (Nat × Nat)} {l : List (Spot × Nat)} (h : s.jobSpots j w k right waits ps = .ok s1 l) (core : Nat) :
    Keeps s s1 core := by
  have kept := jobSpots_keeps s j w k right waits ps core
  rwa [h] at kept

/-! ### Pieces and their spots -/

/-- The bytes of a job's access are in memory. -/
def inMemory (x : Spot × Nat) : Prop := ∃ key home tracked leaf, x.1 = .mem key home tracked leaf
theorem probeJob_memory {ptr n : Nat} {p : Spot} (h : s.probeJob j ptr n right = .at p) : inMemory (p, n) := by
  have cluster : ∀ {m q}, s.probeCluster j.vf ptr m = .at q → inMemory (q, n) := by
    intro m q hq
    unfold State.probeCluster at hq
    split at hq
    · cases hq
    · split at hq
      · cases hq
      · cases hq
        exact ⟨_, _, _, _, rfl⟩
  have leaf : ∀ {b q}, s.probeLeaf j.vf ptr right b = .at q → inMemory (q, n) := by
    intro b q hq
    unfold State.probeLeaf at hq
    split at hq
    · cases hq
    · iterate 3 (split at hq; · cases hq)
      cases hq
      exact ⟨_, _, _, _, rfl⟩
  unfold State.probeJob at h
  split at h
  · split at h
    · cases h
      exact ⟨_, _, _, _, rfl⟩
    · exact cluster h
  · split at h
    · cases h
    · exact leaf h
theorem jobPieces_spots {ps : List (Nat × Nat)} {l : List (Spot × Nat)} (h : s.jobPieces j w k right waits ps = .ok s1 l) :
    (∀ x ∈ l, inMemory x) ∧ l.map (·.2) = ps.map (·.2) := by
  induction ps generalizing s l s1 with
  | nil =>
    cases h
    exact ⟨by simp, rfl⟩
  | cons x r ih =>
    unfold State.jobPieces at h
    dsimp only at h
    split at h
    · cases h
    · cases h
    next p found =>
      split at h
      · cases h
      · split at h
        · cases h
        · obtain ⟨u, l', hl, ends⟩ := JRes.bind_eq_ok h
          cases ends
          obtain ⟨memory, lengths⟩ := ih hl
          refine ⟨fun y hy => ?_, by simp [lengths]⟩
          obtain rfl | hy := List.mem_cons.1 hy
          · exact probeJob_memory found
          · exact memory y hy
theorem pieces_sum (fuel ptr n : Nat) (h : n ≤ 2 ^ 19 - ptr % 2 ^ 19 + fuel * 2 ^ 19) :
    ((pieces (fuel + 1) ptr n).map (·.2)).sum = n := by
  induction fuel generalizing ptr n with
  | zero =>
    have fits : n ≤ 2 ^ 19 - ptr % 2 ^ 19 := by omega
    rw [pieces, if_pos fits]
    split <;> simp_all
  | succ m ih =>
    rw [pieces]
    split
    · split <;> simp_all
    next larger =>
      have aligned : (ptr + (2 ^ 19 - ptr % 2 ^ 19)) % 2 ^ 19 = 0 := by omega
      rw [List.map_cons, List.sum_cons, ih _ _ (by rw [aligned]; omega)]
      omega
theorem piecesOf_sum (ptr n : Nat) : ((piecesOf ptr n).map (·.2)).sum = n := pieces_sum _ ptr n (by omega)
theorem pieces_nonempty {fuel ptr n : Nat} {x : Nat × Nat} (h : x ∈ pieces fuel ptr n) : 0 < x.2 := by
  induction fuel generalizing ptr n with
  | zero => cases h
  | succ m ih =>
    rw [pieces] at h
    split at h
    · split at h
      · cases h
      next other =>
        have : n ≠ 0 := by simpa using other
        cases List.mem_singleton.1 h
        exact Nat.pos_of_ne_zero this
    · obtain rfl | h := List.mem_cons.1 h
      · exact Nat.sub_pos_of_lt (Nat.mod_lt _ (by decide))
      · exact ih h
/-- The spots of n bytes are in memory, none is empty, and they hold n bytes. -/
theorem jobSpots_spots {ptr n : Nat} {l : List (Spot × Nat)} (h : s.jobSpots j w k right waits (piecesOf ptr n) = .ok s1 l) :
    (∀ x ∈ l, inMemory x) ∧ (∀ x ∈ l, 0 < x.2) ∧ (l.map (·.2)).sum = n := by
  obtain ⟨u, l', hl, ends⟩ := JRes.bind_eq_ok h
  split at ends
  · cases ends
  · cases ends
    obtain ⟨memory, lengths⟩ := jobPieces_spots hl
    refine ⟨memory, fun x hx => ?_, by rw [lengths, piecesOf_sum]⟩
    have piece : x.2 ∈ (piecesOf ptr n).map (·.2) := lengths ▸ List.mem_map_of_mem hx
    obtain ⟨y, hy, same⟩ := List.mem_map.1 piece
    exact same ▸ pieces_nonempty hy

/-! ### Lines and pages of an access -/

theorem engLines_keeps (vf : Nat) (p : Spot) (n : Nat) (isStore : Bool) (q : s.Quiet) (c : s.Calm core) :
    Keeps s (s.engLines vf p n isStore) core := by
  unfold State.engLines
  split
  · exact Keeps.foldl _ (fun t a qt _ => .ite (sliceStore_keeps t _ _ core qt) (sliceRead_keeps t _ core qt)) _ s q c
  · exact .refl ..
theorem touch_keeps (s : State) (vf ptr core : Nat) : Keeps s (s.touch vf ptr) core := .ite (.refl ..) ⟨rfl, rfl, rfl, id⟩
theorem engTouched_keeps (vf ptr n : Nat) (q : s.Quiet) (c : s.Calm core) : Keeps s (s.engTouched vf ptr n) core :=
  .ite (.refl ..) (Keeps.foldl _ (fun t a _ _ => touch_keeps t vf a.1 core) _ s q c)

/-! ### Reading -/

/-- The bytes at a spot. -/
def spotBytes (m : List Host.Cell) (x : Spot × Nat) : List Byte :=
  match x.1 with
  | .mem key _ _ _ => readBytes m key x.2
  | .win _ _ => []
/-- One piece of a job's read, behind those before it. -/
def readPiece (w : Who) (vf : Nat) (acc : List Byte × State) (x : Spot × Nat) : List Byte × State :=
  match x.1 with
  | .win _ _ => acc
  | .mem key _ _ _ => (acc.1 ++ acc.2.rdBytes key x.2, (acc.2.noteSpot w .read x.1 x.2).engLines vf x.1 x.2 false)
theorem jobReadW_eq (s : State) (j : Job) (path ptr n : Nat) (waits : Bool) : s.jobReadW j path ptr n waits =
    (s.jobSpots j (s.jobWho j path) .read .r waits (piecesOf ptr n)).bind fun u l =>
      .ok ((l.foldl (readPiece (s.jobWho j path) j.vf) ([], u)).2.engTouched j.vf ptr n)
        (l.foldl (readPiece (s.jobWho j path) j.vf) ([], u)).1 := rfl
theorem readPieces_keep (w : Who) (vf : Nat) (l : List (Spot × Nat)) (b : List Byte) (s : State) (q : s.Quiet) (c : s.Calm core) :
    Keeps s (l.foldl (readPiece w vf) (b, s)).2 core ∧ (l.foldl (readPiece w vf) (b, s)).1 = b ++ l.flatMap (spotBytes s.mem) := by
  induction l generalizing b s with
  | nil => exact ⟨.refl .., by simp⟩
  | cons x r ih =>
    obtain ⟨p, n⟩ := x
    cases p with
    | win img off => simpa [readPiece, spotBytes] using ih b s q c
    | mem key home tr leaf =>
      have noted := noteSpot_keeps s w .read (.mem key home tr leaf) n core
      have kept := noted.trans (engLines_keeps vf (.mem key home tr leaf) n false (noted.quiet q) (noted.calm c))
      obtain ⟨keeps, bytes⟩ := ih (b ++ s.rdBytes key n) _ (kept.quiet q) (kept.calm c)
      refine ⟨kept.trans keeps, bytes.trans ?_⟩
      rw [kept.mem, List.append_assoc]
      rfl
theorem readBytes_length (m : List Host.Cell) (a n : Nat) : (readBytes m a n).length = n := by
  induction n generalizing a with
  | zero => rfl
  | succ n ih => rw [readBytes, List.length_cons, ih]
theorem readBytes_getD (m : List Host.Cell) (a n i : Nat) (h : i < n) : (readBytes m a n).getD i 0 = readByte m (a + i) := by
  induction n generalizing a i with
  | zero => omega
  | succ n ih =>
    rw [readBytes]
    cases i with
    | zero => rfl
    | succ i => rw [List.getD_cons_succ, ih _ _ (by omega), Nat.add_right_comm, Nat.add_assoc]
theorem spotBytes_length {l : List (Spot × Nat)} (memory : ∀ x ∈ l, inMemory x) (m : List Host.Cell) :
    (l.flatMap (spotBytes m)).length = (l.map (·.2)).sum := by
  induction l with
  | nil => rfl
  | cons x r ih =>
    obtain ⟨p, n⟩ := x
    obtain ⟨key, home, tr, leaf, rfl⟩ := memory _ List.mem_cons_self
    simp only [List.flatMap_cons, List.length_append, List.map_cons, List.sum_cons, spotBytes, readBytes_length,
      ih fun y hy => memory y (List.mem_cons_of_mem _ hy)]
/-- Every byte of the pieces stands at a key. -/
theorem pieceByte_exists {l : List (Spot × Nat)} (memory : ∀ x ∈ l, inMemory x) (m : List Host.Cell) (i : Nat)
    (h : i < (l.map (·.2)).sum) : ∃ a, pieceByte l i a ∧ (l.flatMap (spotBytes m)).getD i 0 = readByte m a := by
  induction l generalizing i with
  | nil => cases h
  | cons x r ih =>
    obtain ⟨p, n⟩ := x
    obtain ⟨key, home, tr, leaf, hp⟩ := memory _ List.mem_cons_self
    cases hp
    rw [List.map_cons, List.sum_cons] at h
    have head : (spotBytes m (.mem key home tr leaf, n)).length = n := readBytes_length ..
    rw [List.flatMap_cons]
    by_cases inside : i < n
    · refine ⟨key + i, .inl ⟨inside, rfl⟩, ?_⟩
      rw [List.getD_append _ _ _ _ (by omega)]
      exact readBytes_getD _ _ _ _ inside
    · obtain ⟨a, at_, byte⟩ := ih (fun y hy => memory y (List.mem_cons_of_mem _ hy)) (i - n) (by omega)
      refine ⟨a, .inr ⟨by omega, at_⟩, ?_⟩
      rw [List.getD_append_right _ _ _ _ (by omega), head]
      exact byte
/-- A job's read leaves memory as it was, and returns the bytes at its spots. -/
theorem jobReadW_bytes {path ptr n : Nat} {l : List (Spot × Nat)} {b : List Byte} (q : s.Quiet) (c : s.Calm core)
    (hl : s.jobSpots j (s.jobWho j path) .read .r waits (piecesOf ptr n) = .ok s1 l)
    (hr : s.jobReadW j path ptr n waits = .ok s2 b) :
    Keeps s s2 core ∧ b.length = n ∧ ∀ i, i < n → ∃ a, pieceByte l i a ∧ b.getD i 0 = s.byteAt a := by
  obtain ⟨memory, -, total⟩ := jobSpots_spots hl
  have kept := jobSpots_kept hl core
  obtain ⟨keeps, bytes⟩ := readPieces_keep (s.jobWho j path) j.vf l [] s1 (kept.quiet q) (kept.calm c)
  rw [jobReadW_eq, hl] at hr
  cases hr
  have all := kept.trans keeps
  rw [bytes, List.nil_append, kept.mem]
  refine ⟨all.trans (engTouched_keeps _ _ _ (all.quiet q) (all.calm c)), (spotBytes_length memory _).trans total, fun i hi => ?_⟩
  exact pieceByte_exists memory s.mem i (by omega)

/-! ### Writing -/

/-- Memory once the pieces of a write, from byte o of its bytes on, have been written one behind the other. -/
def putPieces (b : List Byte) : List (Spot × Nat) → Nat → List Host.Cell → List Host.Cell
  | [], _, m => m
  | (.mem key _ _ _, n) :: r, o, m => putPieces b r (o + n) (writeBytes m key ((b.drop o).take n))
  | (.win _ _, _) :: r, o, m => putPieces b r o m
/-- A byte that no piece holds is as it was; one that pieces hold is that of the last of them. -/
theorem putPieces_bytes {l : List (Spot × Nat)} (memory : ∀ x ∈ l, inMemory x) (b : List Byte) (o : Nat) (m : List Host.Cell)
    (wf : Memory.wf m = true) (fits : o + (l.map (·.2)).sum ≤ b.length) (a : Nat) :
    (∀ i, pieceByte l i a → (∀ i', i < i' → i' < (l.map (·.2)).sum → ¬pieceByte l i' a) →
      readByte (putPieces b l o m) a = b.getD (o + i) 0) ∧
    ((∀ i, i < (l.map (·.2)).sum → ¬pieceByte l i a) → readByte (putPieces b l o m) a = readByte m a) := by
  induction l generalizing o m with
  | nil => exact ⟨fun i h => h.elim, fun _ => rfl⟩
  | cons x r ih =>
    obtain ⟨p, n⟩ := x
    obtain ⟨key, home, tr, leaf, hp⟩ := memory _ List.mem_cons_self
    cases hp
    rw [List.map_cons, List.sum_cons] at fits ⊢
    dsimp only at fits ⊢
    have len : ((b.drop o).take n).length = n := by
      rw [List.length_take, List.length_drop]
      omega
    obtain ⟨last, other⟩ := ih (fun y hy => memory y (List.mem_cons_of_mem _ hy)) (o + n)
      (writeBytes m key ((b.drop o).take n)) (writeBytes_wf _ _ wf) (by omega)
    have head := readByte_writeBytes ((b.drop o).take n) m key a wf
    rw [len] at head
    constructor
    · rintro i (⟨inside, rfl⟩ | ⟨behind, at_⟩) final
      · have rest : ∀ i', i' < (r.map (·.2)).sum → ¬pieceByte r i' (key + i) := fun i' hi at_ =>
          final (n + i') (by omega) (by omega) (.inr ⟨by omega, by rwa [Nat.add_sub_cancel_left]⟩)
        rw [putPieces, other rest, head, if_pos (by omega), Nat.add_sub_cancel_left]
        simp [List.getD_eq_getElem?_getD, inside]
      · rw [putPieces, last (i - n) at_ fun i' hi hs at' =>
          final (n + i') (by omega) (by omega) (.inr ⟨by omega, by rwa [Nat.add_sub_cancel_left]⟩)]
        congr 1
        omega
    · intro none
      rw [putPieces, other fun i' hi at' => none (n + i') (by omega) (.inr ⟨by omega, by rwa [Nat.add_sub_cancel_left]⟩), head]
      refine if_neg fun inside => none (a - key) (by omega) (.inl (by omega))
/-- One piece of a job's write. -/
def writePiece (w : Who) (vf : Nat) (b : List Byte) (acc : Nat × State) (x : Spot × Nat) : Nat × State :=
  match x.1 with
  | .win _ _ => acc
  | .mem key _ _ _ =>
    (acc.1 + x.2, (((acc.2.noteSpot w .write x.1 x.2).engLines vf x.1 x.2 true).store key ((b.drop acc.1).take x.2)).wsWritten
      key x.2)
theorem jobWrite_eq (s : State) (j : Job) (path ptr : Nat) (b : List Byte) : s.jobWrite j path ptr b =
    (s.jobSpots j (s.jobWho j path) .write .w false (piecesOf ptr b.length)).bind fun u l =>
      .ok ((l.foldl (writePiece (s.jobWho j path) j.vf b) (0, u)).2.engTouched j.vf ptr b.length) () := rfl
/-- A store to no queue's head changes memory only, of what is looked at here. -/
structure Stored (s t : State) (core : Nat) : Prop where
  vfs : t.vfs = s.vfs
  pending : t.pending = s.pending
  calm : s.Calm core → t.Calm core
theorem Stored.quiet (h : Stored s t core) (q : s.Quiet) : t.Quiet := by
  unfold State.Quiet at *
  rwa [h.pending, h.vfs]
theorem Stored.trans {u : State} (h : Stored s t core) (k : Stored t u core) : Stored s u core :=
  ⟨k.vfs.trans h.vfs, k.pending.trans h.pending, fun x => k.calm (h.calm x)⟩
theorem Keeps.stored (h : Keeps s t core) : Stored s t core := ⟨h.vfs, h.pending, h.calm⟩
theorem noHead_of_vfs {key n : Nat} (h : s.NoHead key n) (e : t.vfs = s.vfs) : t.NoHead key n := fun v hv => h v (e ▸ hv)
/-- A head that a range meets it meets at a byte. -/
theorem noHead_of_bytes {key n : Nat} (positive : 0 < n) (h : ∀ i, i < n → s.NoHead (key + i) 1) : s.NoHead key n := by
  have apart : ∀ p, (∀ i, i < n → overlaps (key + i) 1 p 4 = false) → overlaps key n p 4 = false := by
    intro p free
    by_contra meets
    simp only [overlaps, Bool.and_eq_false_iff, decide_eq_false_iff_not, not_or, not_not] at free meets
    obtain ⟨below, above⟩ := meets
    have := free (p - key) (by omega)
    omega
  exact fun v hv => ⟨apart _ fun i hi => (h i hi v hv).1, apart _ fun i hi => (h i hi v hv).2⟩
theorem writePiece_stores {key home n o : Nat} {tr : Bool} {leaf : Option (Nat × Nat × Nat)} {vf : Nat} {b : List Byte} (q : s.Quiet)
    (c : s.Calm core) (fits : o + n ≤ b.length) (free : s.NoHead key n) :
    Stored s (writePiece w vf b (o, s) (.mem key home tr leaf, n)).2 core ∧
      (writePiece w vf b (o, s) (.mem key home tr leaf, n)).2.mem = writeBytes s.mem key ((b.drop o).take n) := by
  have noted := noteSpot_keeps s w .write (.mem key home tr leaf) n core
  have kept := noted.trans (engLines_keeps vf (.mem key home tr leaf) n true (noted.quiet q) (noted.calm c))
  have len : ((b.drop o).take n).length = n := by
    rw [List.length_take, List.length_drop]
    omega
  obtain ⟨mem, vfs, pending, cores⟩ := store_quiet (kept.quiet q) (b := (b.drop o).take n) (key := key)
    (by rw [len]; exact noHead_of_vfs free kept.vfs)
  have calm : ∀ u : State, u.cores = ((s.noteSpot w .write (.mem key home tr leaf) n).engLines vf (.mem key home tr leaf) n true).cores →
      u.Calm core := fun u hu => by
    have before := kept.calm c
    unfold State.Calm State.core at before ⊢
    rwa [hu]
  have stored := kept.stored.trans ⟨vfs, pending, fun _ => calm _ cores⟩
  have after := wsWritten_keeps _ key n core (stored.quiet q) (calm _ cores)
  exact ⟨stored.trans after.stored, after.mem.trans (mem.trans (congrArg (writeBytes · key _) kept.mem))⟩
theorem writePieces_stores {l : List (Spot × Nat)} {vf : Nat} {b : List Byte} (memory : ∀ x ∈ l, inMemory x)
    (nonempty : ∀ x ∈ l, 0 < x.2) (o : Nat) (s : State) (q : s.Quiet) (c : s.Calm core) (fits : o + (l.map (·.2)).sum ≤ b.length)
    (free : ∀ i a, i < (l.map (·.2)).sum → pieceByte l i a → s.NoHead a 1) :
    Stored s (l.foldl (writePiece w vf b) (o, s)).2 core ∧ (l.foldl (writePiece w vf b) (o, s)).2.mem = putPieces b l o s.mem := by
  induction l generalizing o s with
  | nil => exact ⟨(Keeps.refl s core).stored, rfl⟩
  | cons x r ih =>
    obtain ⟨p, n⟩ := x
    obtain ⟨key, home, tr, leaf, hp⟩ := memory _ List.mem_cons_self
    cases hp
    rw [List.map_cons, List.sum_cons] at fits free
    dsimp only at fits free
    obtain ⟨first, mem⟩ := writePiece_stores (w := w) (home := home) (tr := tr) (leaf := leaf) (vf := vf) (b := b) (o := o) q c
      (by omega) (noHead_of_bytes (nonempty _ List.mem_cons_self) fun i hi => free i _ (by omega) (.inl ⟨hi, rfl⟩))
    obtain ⟨rest, memRest⟩ := ih (fun y hy => memory y (List.mem_cons_of_mem _ hy))
      (fun y hy => nonempty y (List.mem_cons_of_mem _ hy)) (o + n) _ (first.quiet q) (first.calm c) (by omega)
      fun i a hi at_ => noHead_of_vfs (free (n + i) a (by omega) (.inr ⟨by omega, by rwa [Nat.add_sub_cancel_left]⟩)) first.vfs
    refine ⟨first.trans rest, memRest.trans ?_⟩
    rw [mem]
    rfl
/-- What a job's write leaves in memory: at each key the byte of the last piece that holds it, where none is a queue's head. -/
theorem jobWrite_bytes {path ptr : Nat} {l : List (Spot × Nat)} {b : List Byte} (inv : Inv s) (q : s.Quiet)
    (hl : s.jobSpots j (s.jobWho j path) .write .w false (piecesOf ptr b.length) = .ok s1 l)
    (hw : s.jobWrite j path ptr b = .ok s2 ()) (free : ∀ i a, i < b.length → pieceByte l i a → s.NoHead a 1) :
    (∀ i, i < b.length → (∃ a, pieceByte l i a) ∧
      ∀ a, pieceByte l i a → (∀ m, i < m → m < b.length → ¬pieceByte l m a) → s2.byteAt a = b.getD i 0) ∧
    ∀ a, (∀ i, i < b.length → ¬pieceByte l i a) → s2.byteAt a = s.byteAt a := by
  obtain ⟨core, c⟩ := exists_calm s
  obtain ⟨memory, nonempty, total⟩ := jobSpots_spots hl
  have kept := jobSpots_kept hl core
  obtain ⟨stored, mem⟩ := writePieces_stores (w := s.jobWho j path) (vf := j.vf) (b := b) memory nonempty 0 s1 (kept.quiet q) (kept.calm c)
    (by omega) fun i a hi at_ => noHead_of_vfs (free i a (by omega) at_) kept.vfs
  have touched := engTouched_keeps j.vf ptr b.length (stored.quiet (kept.quiet q)) (stored.calm (kept.calm c))
  rw [jobWrite_eq, hl] at hw
  cases hw
  have bytes := putPieces_bytes memory b 0 s.mem inv (by omega)
  unfold State.byteAt
  rw [touched.mem, mem, kept.mem]
  rw [total] at bytes
  refine ⟨fun i hi => ⟨?_, fun a at_ final => by simpa using (bytes a).1 i at_ final⟩, fun a none => (bytes a).2 none⟩
  obtain ⟨a, at_, -⟩ := pieceByte_exists memory s.mem i (by omega)
  exact ⟨a, at_⟩

end Sys2Proof.Machine
end

section
/-! PROOF. COPY, GATHER and RASTER: how a command ends (O56). -/

namespace Sys2Proof.Machine

variable {s s1 s2 s3 : State} {cl : Nat} {j : Job} {l : List Nat}

/-! ### COPY (R237, R239) -/

/-- The checks of a copy's message and of its blocks. -/
def Job.copyRefused (j : Job) (device : Nat) : Prop :=
  copyBad j = true ∨ copyOverlap j (j.f 399 384 == 0xFFFF || j.f 399 384 == device) = true
theorem copy_refused (h : s.Heads cl j .cpy .copy) (bad : j.copyRefused s.device) :
    s.copy cl = s.endJob cl .cpy j (doneWord 0x01 0 0) := by
  have refused : (copyBad j || copyOverlap j (j.f 399 384 == 0xFFFF || j.f 399 384 == s.device)) = true := by
    simpa only [Job.copyRefused, Bool.or_eq_true] using bad
  rw [State.copy, onHead_runs h, if_pos refused]
/-- A copy that passes them runs on this device, or over the fabric. -/
theorem copy_runs (h : s.Heads cl j .cpy .copy) (good : ¬j.copyRefused s.device) :
    s.copy cl = if j.f 399 384 = 0xFFFF then s.copyHere cl j else s.copyAway cl j := by
  have passed : ¬(copyBad j || copyOverlap j (j.f 399 384 == 0xFFFF || j.f 399 384 == s.device)) = true := by
    simpa only [Job.copyRefused, Bool.or_eq_true] using good
  rw [State.copy, onHead_runs h, if_neg passed]
  simp only [beq_iff_eq]
theorem copyHere_barred {r : Nat} (h : (s.barredRow j (j.f 255 224 - j.pos) j.pos).2 = some r) :
    s.copyHere cl j = (s.barredRow j (j.f 255 224 - j.pos) j.pos).1.endJob cl .cpy j (doneWord 0x16 r 0) := by
  rw [State.copyHere]
  dsimp only
  rw [show s.barredRow j (j.f 255 224 - j.pos) j.pos = (_, some r) from Prod.ext rfl h]
/-- With no row barred, what the copy of the rows comes to. -/
theorem copyHere_done (h : (s.barredRow j (j.f 255 224 - j.pos) j.pos).2 = none) (hslot : bit j.p 0 = false)
    (hc : (s.barredRow j (j.f 255 224 - j.pos) j.pos).1.copyRows j (j.f 255 224 - j.pos) j.pos = .done s1) :
    s.copyHere cl j = s1.endJob cl .cpy (j.goesOn (j.f 255 224)) (doneWord 0 0 0) := by
  rw [State.copyHere]
  dsimp only
  rw [show s.barredRow j (j.f 255 224 - j.pos) j.pos = (_, none) from Prod.ext rfl h]
  simp only [hc, hslot, Bool.not_false, if_true]
theorem copyHere_fails {r st : Nat} (h : (s.barredRow j (j.f 255 224 - j.pos) j.pos).2 = none)
    (hc : (s.barredRow j (j.f 255 224 - j.pos) j.pos).1.copyRows j (j.f 255 224 - j.pos) j.pos = .fail s1 r st) :
    s.copyHere cl j = s1.endJob cl .cpy j (doneWord st r 0) := by
  rw [State.copyHere]
  dsimp only
  rw [show s.barredRow j (j.f 255 224 - j.pos) j.pos = (_, none) from Prod.ext rfl h]
  simp only [hc]
/-- What goes over the fabric has passed the bounds of the sender's table, or ends the copy (R237). -/
theorem sendChecked_eq (s : State) (cl : Nat) (j : Job) (ptr n : Nat) (right : Right) (index : Nat) (k : State → State) :
    (s.boundJob j ptr n right = none → s.sendChecked cl j ptr n right index k = k s) ∧
      ∀ st, s.boundJob j ptr n right = some st →
        s.sendChecked cl j ptr n right index k = s.endJob cl .cpy j (doneWord st index 0) :=
  ⟨fun h => by simp only [State.sendChecked, h], fun st h => by simp only [State.sendChecked, h]⟩
theorem copyAway_row {b : List Byte} (hn : j.nack = none) (hs : j.rowSent = none) (hp : j.pos < j.f 255 224)
    (hr : s.jobRead j pathCpy (j.rowSrc j.pos) (j.f 223 192) = .ok s1 b) :
    s.copyAway cl j = s1.sendChecked cl j (j.rowDst j.pos) (j.f 223 192) .w j.pos
      fun s => s.sendRow cl (j.goesOn j.pos) (j.rowDst j.pos) b := by
  simp only [State.copyAway, hn, hs, hp, hr, Option.isSome_none, Bool.false_eq_true, if_false, if_true]
theorem copyAway_nack {st : Nat} (hn : j.nack = some st) (hp : j.pos < j.f 255 224) :
    s.copyAway cl j = s.endJob cl .cpy j (doneWord st j.pos 0) := by
  simp only [State.copyAway, hn, hp, if_true]
theorem copyAway_slot (hn : j.nack = none) (hs : j.rowSent = none) (hp : j.pos = j.f 255 224) (hslot : bit j.p 0 = true) :
    s.copyAway cl j = s.sendChecked cl j (j.f 383 320) 1 .rw 0 fun s => s.sendRow cl (j.goesOn j.pos) (j.f 383 320) [] := by
  have whole : ¬j.pos < j.f 255 224 := by omega
  have last : (bit j.p 0 && j.pos == j.f 255 224) = true := by simp [hslot, hp]
  simp only [State.copyAway, hn, hs, whole, last, Option.isSome_none, Bool.false_eq_true, if_false, if_true]
theorem copyAway_done (hn : j.nack = none) (hs : j.rowSent = none) (hp : j.f 255 224 ≤ j.pos) (hslot : bit j.p 0 = false) :
    s.copyAway cl j = s.endJob cl .cpy j (doneWord 0 0 0) := by
  have whole : ¬j.pos < j.f 255 224 := by omega
  simp only [State.copyAway, hn, hs, whole, hslot, Option.isSome_none, Bool.false_and, Bool.false_eq_true, if_false]

/-! ### GATHER (R240, R241) -/

theorem gather_refused (h : s.Heads cl j .ixe .gather) (bad : gatherBad j = true) :
    s.gather cl = s.endJob cl .ixe j (doneWord 0x01 0 0) := by
  rw [State.gather, onHead_runs h, if_pos bad]
/-- All its elements done, it ends with the first index out of range, if there is one. -/
theorem gather_done (h : s.Heads cl j .ixe .gather) (good : gatherBad j = false) :
    (s.gatherRun j (j.arg - j.pos) j.pos j.oob = (.done s1, none) → s.gather cl = s1.endJob cl .ixe j (doneWord 0 0 0)) ∧
      ∀ i lv, s.gatherRun j (j.arg - j.pos) j.pos j.oob = (.done s1, some (i, lv)) →
        s.gather cl = s1.endJob cl .ixe j (doneWord 0x1B i lv) := by
  rw [State.gather, onHead_runs h, if_neg (ne_true_of_eq_false good)]
  exact ⟨fun hr => by simp only [hr], fun i lv hr => by simp only [hr]⟩

/-! ### RASTER (R265-R270) -/

theorem raster_refused {st : Nat} (h : s.Heads cl j .cvr .raster) (first : j.pos = 0) (hc : s.rasterCheck cl j = some st) :
    s.raster cl = s.endJob cl .cvr j (doneWord st 0 0) := by
  rw [State.raster, onHead_runs h]
  simp only [first, beq_self_eq_true, if_true, hc]
/-- The checks that a raster makes when it begins, which have passed, or the state where it goes on. -/
def State.RasterFrom (s : State) (cl : Nat) (j : Job) (s1 : State) : Prop :=
  if j.pos = 0 then s.rasterCheck cl j = none ∧ s.rasterPtrs j = .ok s1 () else s1 = s
theorem raster_pointers {st : Nat} (h : s.Heads cl j .cvr .raster) (first : j.pos = 0) (hc : s.rasterCheck cl j = none)
    (hp : s.rasterPtrs j = .fail s1 st) : s.raster cl = s1.endJob cl .cvr j (doneWord st 0 0) := by
  rw [State.raster, onHead_runs h]
  simp only [first, beq_self_eq_true, if_true, hc, hp, State.headStep]
/-- Behind the checks it reads its segments and makes its adds. -/
theorem raster_from (h : s.Heads cl j .cvr .raster) (hf : s.RasterFrom cl j s1) :
    (∀ i st, s1.readSegs j (j.arg - j.pos) j.pos j.read = (.fail s2 i st, l) →
      s.raster cl = s2.endJob cl .cvr j (doneWord st 0 0)) ∧
    (s1.readSegs j (j.arg - j.pos) j.pos j.read = (.done s2, l) → s2.rasterAdd cl j l = .ok s3 () →
      s.raster cl = s3.endJob cl .cvr j (doneWord 0 0 0)) := by
  unfold State.RasterFrom at hf
  rw [State.raster, onHead_runs h]
  by_cases first : j.pos = 0
  · obtain ⟨hc, hp⟩ := (if_pos first ▸ hf : _ ∧ _)
    exact ⟨fun i st hr => by simp only [beq_iff_eq, first, if_true, hc, hp, State.headStep, first ▸ hr],
      fun hr ha => by simp only [beq_iff_eq, first, if_true, hc, hp, State.headStep, first ▸ hr, ha]⟩
  · rw [if_neg first] at hf
    subst hf
    exact ⟨fun i st hr => by simp only [beq_iff_eq, first, if_false, State.headStep, hr],
      fun hr ha => by simp only [beq_iff_eq, first, if_false, State.headStep, hr, ha]⟩

end Sys2Proof.Machine
end

section
/-! PROOF. What COPY, GATHER and RASTER leave in memory (O56). -/

namespace Sys2Proof.Machine

variable {s s1 s2 s3 : State} {j : Job}

/-! ### Rows of a copy (R237, R239) -/

theorem barredRow_keeps (s : State) (j : Job) (n r core : Nat) : Keeps s (s.barredRow j n r).1 core := by
  induction n generalizing s r with
  | zero => exact .refl ..
  | succ n ih =>
    have src := jobSpots_keeps s j (s.jobWho j pathCpy) .read .r false (piecesOf (j.rowSrc r) (j.f 223 192)) core
    have dst := src.trans (jobSpots_keeps _ j (s.jobWho j pathCpy) .write .w false (piecesOf (j.rowDst r) (j.f 223 192)) core)
    unfold State.barredRow
    dsimp only
    split
    · exact src
    · exact dst
    · exact dst
    · exact dst.trans (ih _ _)
theorem copyRows_succ {r m : Nat} (h : s.copyRow j r = .ok s1 ()) : s.copyRows j (m + 1) r = s1.copyRows j m (r + 1) := by
  rw [State.copyRows, h]
/-- A row of the source stands at its row of the destination, and nothing else has changed. -/
theorem copyRow_bytes {r : Nat} {s0 : State} {b : List Byte} {ls ld : List (Spot × Nat)} (inv : Inv s) (q : s.Quiet)
    (hs : s.jobSpots j (s.jobWho j pathCpy) .read .r true (piecesOf (j.rowSrc r) (j.f 223 192)) = .ok s0 ls)
    (hb : s.jobRead j pathCpy (j.rowSrc r) (j.f 223 192) = .ok s1 b)
    (hd : s1.jobSpots j (s1.jobWho j pathCpy) .write .w false (piecesOf (j.rowDst r) (j.f 223 192)) = .ok s2 ld)
    (hc : s.copyRow j r = .ok s3 ()) (free : ∀ k a, k < j.f 223 192 → pieceByte ld k a → s.NoHead a 1) :
    (∀ k, k < j.f 223 192 → (∃ a, pieceByte ld k a) ∧ ∃ x, pieceByte ls k x ∧
      ∀ a, pieceByte ld k a → (∀ l, k < l → l < j.f 223 192 → ¬pieceByte ld l a) → s3.byteAt a = s.byteAt x) ∧
    ∀ a, (∀ k, k < j.f 223 192 → ¬pieceByte ld k a) → s3.byteAt a = s.byteAt a := by
  obtain ⟨core, c⟩ := exists_calm s
  obtain ⟨read, length, source⟩ := jobReadW_bytes q c hs hb
  have hw : s1.jobWrite j pathCpy (j.rowDst r) b = .ok s3 () := by
    rw [State.copyRow, hb] at hc
    exact hc
  obtain ⟨written, others⟩ := jobWrite_bytes (inv.of_mem read.mem) (read.quiet q) (by rwa [length]) hw
    fun k a hk at_ => noHead_of_vfs (free k a (by omega) at_) read.vfs
  rw [length] at written others
  refine ⟨fun k hk => ⟨(written k hk).1, ?_⟩, fun a none => (others a none).trans (congrArg (readByte · a) read.mem)⟩
  obtain ⟨x, at_, byte⟩ := source k hk
  exact ⟨x, at_, fun a ha final => ((written k hk).2 a ha final).trans byte⟩

/-! ### Elements of a gather (R240, R241) -/

theorem gatherRun_succ {i m : Nat} {oob : Option (Nat × Nat)} {b : List Byte} {l : Option Nat}
    (ha : s.gatherAt j 3 1 i = .ok s1 (b, l)) (aligned : j.f 127 64 % j.elemSize = 0)
    (hw : s1.jobWrite j pathIxe (ptrAdd (j.f 127 64) ((j.elemSize * i : Nat) : Int)) b = .ok s2 ()) :
    s.gatherRun j (m + 1) i oob = s2.gatherRun j m (i + 1) (oob.or (l.map fun l => (i, l))) := by
  rw [State.gatherRun, ha]
  dsimp only [JRes.bind]
  rw [if_neg (by simp [aligned]), hw]
/-- An index out of range: the element is the fill pattern. -/
theorem gatherAt_fills {m lv x : Nat} (out : j.gCount lv ≤ x) :
    s.gatherAt j (m + 1) lv x = .ok s (fillBytes (j.f 191 128) j.elemSize, some lv) := by
  rw [State.gatherAt, if_pos out]
theorem fillBytes_getD (fill e k : Nat) (h : k < e) : (fillBytes fill e).getD k 0 = BitVec.ofNat 8 (fill / 256 ^ (k % 8)) := by
  rw [fillBytes, List.getD_eq_getElem?_getD, List.getElem?_map, List.getElem?_range h, Option.map_some, Option.getD_some, pow_mul]
  rfl
/-- An index of a level that is not the last is looked up in the next. -/
theorem gatherAt_descends {m lv x v : Nat} (inside : x < j.gCount lv) (more : lv < j.levels) (aligned : j.gBase lv % 4 = 0)
    (hr : s.jobReadN j pathIxe (ptrAdd (j.gBase lv) ((4 * x : Nat) : Int)) 4 = .ok s1 v) :
    s.gatherAt j (m + 1) lv x = s1.gatherAt j m (lv + 1) v := by
  rw [State.gatherAt, if_neg (Nat.not_le.2 inside), if_pos more, if_neg (by simp [aligned]), hr]
  rfl
/-- At the last level the element is read. -/
theorem gatherAt_reads {m lv x : Nat} {b : List Byte} (inside : x < j.gCount lv) (last : j.levels ≤ lv)
    (aligned : j.gBase lv % j.elemSize = 0)
    (hr : s.jobRead j pathIxe (ptrAdd (j.gBase lv) ((j.elemSize * x : Nat) : Int)) j.elemSize = .ok s1 b) :
    s.gatherAt j (m + 1) lv x = .ok s1 (b, none) := by
  rw [State.gatherAt, if_neg (Nat.not_le.2 inside), if_neg (Nat.not_lt.2 last), if_neg (by simp [aligned]), hr]
  rfl

/-! ### Adds of a raster (R267-R270) -/

theorem countCapped_none {n : Nat} (h : n = 0 ∨ j.f 319 256 = 0) : s.countCapped j n = .ok s () := by
  have none : (n == 0 || j.f 319 256 == 0) = true := by simpa using h
  rw [State.countCapped, if_pos none]
/-- A wrapping add changes its word only. -/
theorem add32_word {x key : Nat} {v : Int} (inv : Inv s) (hx : x % 4 = 0) (hk : key % 4 = 0) :
    ((s.add32 x v).rd key 4 : Int) = if x = key then ((s.rd key 4 : Int) + v) % 2 ^ 32 else (s.rd key 4 : Int) := by
  split
  next same =>
    subst same
    rw [State.add32, State.rd_wr _ inv, toN]
    have small : ((s.rd x 4 : Nat) + v) % ((2 ^ 32 : Nat) : Int) < 2 ^ 32 := Int.emod_lt_of_pos _ (by norm_num)
    have large : 0 ≤ ((s.rd x 4 : Nat) + v) % ((2 ^ 32 : Nat) : Int) := Int.emod_nonneg _ (by norm_num)
    rw [Nat.mod_eq_of_lt (by omega)]
    omega
  next other =>
    have apart : ∀ i, key ≤ i → i < key + 4 → (s.add32 x v).byteAt i = s.byteAt i := fun i low high =>
      readByte_writeBytes_out _ x i inv (by rw [bytesOfNat_length]; omega)
    rw [State.rd_four, State.rd_four, apart key (by omega) (by omega), apart (key + 1) (by omega) (by omega),
      apart (key + 2) (by omega) (by omega), apart (key + 3) (by omega) (by omega)]
theorem add32s_word (l : List (Nat × Int)) (key : Nat) (hk : key % 4 = 0) (inv : Inv s) (hl : ∀ x ∈ l, x.1 % 4 = 0) :
    ((l.foldl (fun (u : State) (a : Nat × Int) => u.add32 a.1 a.2) s).rd key 4 : Int) =
      ((s.rd key 4 : Int) + ((l.filter fun x => x.1 == key).map fun x => x.2).sum) % 2 ^ 32 := by
  induction l generalizing s with
  | nil =>
    have small := rd_lt s key 4
    simp only [List.foldl_nil, List.filter_nil, List.map_nil, List.sum_nil]
    omega
  | cons x r ih =>
    have first := add32_word (v := x.2) inv (hl x List.mem_cons_self) hk
    rw [List.foldl_cons, ih inv.add32 fun y hy => hl y (List.mem_cons_of_mem _ hy), first]
    by_cases same : x.1 = key
    · rw [if_pos same, List.filter_cons_of_pos (by simpa using same), List.map_cons, List.sum_cons, Int.emod_add_emod, Int.add_assoc]
    · rw [if_neg same, List.filter_cons_of_neg (by simpa using same)]
/-- The adds of a raster, each at its key in a core's scratch. -/
def State.scratchAdds (s : State) (cl core : Nat) (j : Job) (segs : List Nat) : List (Nat × Int) :=
  (s.rasterAdds cl j segs).map fun (x : Nat × Int) => (scrKey core (j.target.acc + x.1), x.2)
/-- Where no curve is counted, a raster leaves memory as it was once its group has left its core, and else the sums of its adds. -/
theorem rasterAdd_words {cl : Nat} {segs : List Nat} (h : s.rasterAdd cl j segs = .ok s3 ())
    (uncounted : j.p = 0 → j.f 319 256 = 0 ∨ ∀ v ∈ segs, (segLevel v).2 = false) (inv : Inv s) :
    (s.rasterCore j = none → s3.mem = s.mem) ∧
      ∀ core, s.rasterCore j = some core → (∀ x ∈ s.scratchAdds cl core j segs, x.1 % 4 = 0) → ∀ key, key % 4 = 0 →
        (s3.rd key 4 : Int) =
          ((s.rd key 4 : Int) + (((s.scratchAdds cl core j segs).filter fun x => x.1 == key).map fun x => x.2).sum) % 2 ^ 32 := by
  have counted : s.countCapped j (if j.p == 0 then segs.countP (fun v => (segLevel v).2) else 0) = .ok s () := by
    refine countCapped_none ?_
    by_cases plain : j.p = 0
    · refine (uncounted plain).symm.imp_left fun level => ?_
      rw [if_pos (by simp [plain]), List.countP_eq_zero]
      exact fun v hv => ne_true_of_eq_false (level v hv)
    · exact .inl (if_neg (by simpa using plain))
  unfold State.rasterAdd at h
  dsimp only at h
  rw [counted] at h
  constructor
  · intro gone
    rw [gone] at h
    cases h
    rfl
  · intro core stays aligned key hk
    rw [stays] at h
    dsimp only at h
    split at h
    · cases h
    · cases h
      rw [rd_of_mem (noteWords_keeps _ _ _ _ _ core).mem]
      have adds := add32s_word _ key hk inv aligned
      rwa [State.scratchAdds, List.foldl_map] at adds

end Sys2Proof.Machine
end

section
/-! PROOF. The commands of the matrix engine, from their checks to the ends of their runs (O56). -/

namespace Sys2Proof.Machine

variable {s s1 s2 s3 : State} {cl r : Nat} {j k2 : Job} {l : List Nat} {cmd : Cmd} {f : State → Job → State}

/-! ### The checks, made once (R231, R244) -/

/-- A command that begins: its slot counts from now. -/
def Job.begunAt (j : Job) (cyc : Nat) : Job := { j with begun := some cyc, slotEnd := cyc }
/-- A command as it runs: begun before, or now. -/
def Job.runsAt (j : Job) (cyc : Nat) : Job := if j.begun.isSome then j else j.begunAt cyc
/-- A command has passed its checks, now or when it began. -/
def State.LetIn (s : State) (cl : Nat) (j : Job) : Prop := j.begun.isSome = true ∨ (mxeHeadOk j = true ∧ s.capOk cl j = true)

theorem mxeRun_refuses (h : s.Heads cl j .mxe cmd) (new : j.begun = none) :
    (mxeHeadOk j = false → s.mxeRun cl cmd f = s.endJob cl .mxe (j.begunAt s.cyc) (doneWord 0x01 0 0)) ∧
      (mxeHeadOk j = true → s.capOk cl j = false → s.mxeRun cl cmd f = s.endJob cl .mxe (j.begunAt s.cyc) (doneWord 0x19 0 0)) := by
  rw [State.mxeRun, onHead_runs h]
  simp only [new, Option.isSome_none, Bool.false_eq_true, if_false]
  exact ⟨fun bad => by simp only [bad, Bool.not_false, if_true, State.mxeEnd, Job.begunAt],
    fun good bad => by simp only [good, bad, Bool.not_true, Bool.not_false, Bool.false_eq_true, if_false, if_true, State.mxeEnd,
      Job.begunAt]⟩
theorem mxeRun_runs (h : s.Heads cl j .mxe cmd) (ok : s.LetIn cl j) : s.mxeRun cl cmd f = f s (j.runsAt s.cyc) := by
  rw [State.mxeRun, onHead_runs h, Job.runsAt]
  by_cases begun : j.begun.isSome = true
  · rw [if_pos begun, if_pos begun]
  · obtain ⟨head, cap⟩ := ok.resolve_left begun
    simp only [begun, head, cap, Bool.not_true, Bool.false_eq_true, if_false, Job.begunAt]

/-! ### A running command is the message's, but for its slot (R231, R248) -/

theorem Job.runsAt_eq (j : Job) (cyc : Nat) : ∃ b m, j.runsAt cyc = { j with begun := b, slotEnd := m } := by
  unfold Job.runsAt
  split
  · exact ⟨j.begun, j.slotEnd, rfl⟩
  · exact ⟨_, _, rfl⟩
theorem Job.loadBegin_eq (j : Job) : ∃ m, j.loadBegin = { j with slotEnd := m } := by
  unfold Job.loadBegin
  split
  · exact ⟨_, rfl⟩
  · exact ⟨j.slotEnd, rfl⟩
theorem Job.runsAt_read (j : Job) (cyc : Nat) : (j.runsAt cyc).read = j.read := by
  unfold Job.runsAt
  split <;> rfl
/-- A running MMA before its record is read. -/
def Job.mmaBegin (k j : Job) : Job := if j.read.isEmpty then k.slot 64 else k
theorem Job.mmaBegin_eq (k j : Job) : ∃ m, k.mmaBegin j = { k with slotEnd := m } := by
  unfold Job.mmaBegin
  split
  · exact ⟨_, rfl⟩
  · exact ⟨k.slotEnd, rfl⟩

/-! ### Loads (R245) -/

/-- Where everything named is loaded, the load ends at the end of its slot. -/
theorem doLoad_done {rows n stride : Nat} {g : State → Nat → JRes Macro}
    (h : s.loadMacros cl g rows n stride j (j.maskList.drop j.pos) j.pos = (.done s1, k2)) :
    s.doLoad cl j rows n stride g = s1.endJob cl .mxe k2 (doneWord 0 0 0) := by
  simp only [State.doLoad, h, State.mxeEnd]
/-- What a load of codes puts into the matrix engine, from its rows. -/
def codeMacro (j : Job) (r : Nat) (u : State) (base : Nat) : JRes Macro :=
  (u.jobRows j (16 * containerOf (fmtOf (recDesc r)).width) (recStride r) 128 base).bind fun v rows =>
    .ok v { fmt := some (BitVec.ofNat 64 (recDesc r)), binary := false,
            bits := joinElems 1024 (rows.map fun b => joinElems 8 (unpackCodes (fmtOf (recDesc r)).width 128 b)) }
/-- What a load of one-bit elements puts there. -/
def bitMacro (j : Job) (u : State) (base : Nat) : JRes Macro :=
  (u.jobReadW j pathMxe base 16384 false).bind fun v b => .ok v { fmt := none, binary := true, bits := natOfBytes b }
theorem mloadw_done (h : s.Heads cl j .mxe .mloadw) (ok : s.LetIn cl j) (good : loadBad j = false)
    (hk : s.keptRecord (j.runsAt s.cyc).loadBegin (j.f 191 128) = .ok s1 r) (hv : fmtValid (recDesc r) = true)
    (hs : bscaleOf (recDesc r) = 0)
    (hl : s1.loadMacros cl (codeMacro (j.runsAt s.cyc).loadBegin r) 128 (16 * containerOf (fmtOf (recDesc r)).width) (recStride r)
      { (j.runsAt s.cyc).loadBegin with read := [r] } (j.maskList.drop j.pos) j.pos = (.done s2, k2)) :
    exec (.mloadw cl) s = .next (s2.endJob cl .mxe k2 (doneWord 0 0 0)) := by
  refine congrArg Host.Outcome.next ((mxeRun_runs h ok).trans ?_)
  obtain ⟨b, m, running⟩ := Job.runsAt_eq j s.cyc
  obtain ⟨m', begins⟩ := Job.loadBegin_eq { j with begun := b, slotEnd := m }
  have record : s.keptRecord (j.runsAt s.cyc).loadBegin ((j.runsAt s.cyc).loadBegin.f 191 128) = .ok s1 r := by
    rwa [running, begins] at hk ⊢
  have same : loadBad (j.runsAt s.cyc) = false := by rwa [running]
  rw [if_neg (ne_true_of_eq_false same)]
  simp only [record, State.headStep, hv, hs, bne_self_eq_false, Bool.not_true, Bool.or_self, Bool.false_eq_true, if_false]
  rw [running, begins] at hl ⊢
  exact doLoad_done hl
theorem mloadb_done (h : s.Heads cl j .mxe .mloadb) (ok : s.LetIn cl j) (good : loadBad j = false) (zero : j.f 191 128 = 0)
    (hl : s.loadMacros cl (bitMacro (j.runsAt s.cyc)) 1024 16 16 (j.runsAt s.cyc).loadBegin (j.maskList.drop j.pos) j.pos =
      (.done s2, k2)) :
    exec (.mloadb cl) s = .next (s2.endJob cl .mxe k2 (doneWord 0 0 0)) := by
  refine congrArg Host.Outcome.next ((mxeRun_runs h ok).trans ?_)
  obtain ⟨b, m, running⟩ := Job.runsAt_eq j s.cyc
  obtain ⟨m', begins⟩ := Job.loadBegin_eq { j with begun := b, slotEnd := m }
  have same : (loadBad (j.runsAt s.cyc) || (j.runsAt s.cyc).f 191 128 != 0) = false := by
    rw [running, Bool.or_eq_false_iff]
    exact ⟨good, bne_eq_false_iff_eq.2 zero⟩
  rw [if_neg (ne_true_of_eq_false same)]
  rw [running, begins] at hl ⊢
  exact doLoad_done hl

/-! ### Products (R246) -/

theorem productRun_done {g : State → Nat → JRes (List Nat)} (h : s.rowsRead g (j.arg - j.pos) j.pos j.read = (.done s1, l)) :
    s.productRun cl j g = s1.endJob cl .mxe { j with read := l } (doneWord 0 0 0) := by
  simp only [State.productRun, h, State.mxeEnd]
/-- An MMA with its record, its slot known. -/
def Job.mmaSlot (k j : Job) (r : Nat) : Job :=
  { k.slot (64 + j.f 231 224 * (fmtOf (recDesc r)).width) with read := if j.read.isEmpty then [r] else j.read }
theorem Job.mmaSlot_eq (k j : Job) (r : Nat) : ∃ m l, k.mmaSlot j r = { k with slotEnd := m, read := l } := by
  unfold Job.mmaSlot Job.slot
  exact ⟨_, _, rfl⟩
/-- One row of an MMA's A. -/
def mmaRows (k : Job) (r K : Nat) (u : State) (i : Nat) : JRes (List Nat) :=
  (u.mmaRead k r (recDesc r) K i).bind fun u x => .ok u [x.1, x.2]
theorem mma_done (h : s.Heads cl j .mxe .mma) (ok : s.LetIn cl j) (good : mmaBad j = false)
    (codes : ∀ x ∈ s.used16 cl (j.f 223 216), x.binary = false)
    (hk : s.keptRecord ((j.runsAt s.cyc).mmaBegin j) (j.f 191 128) = .ok s1 r) (hv : fmtValid (recDesc r) = true)
    (hr : s1.rowsRead (mmaRows ((j.runsAt s.cyc).mmaBegin j) r (128 * j.f 223 216)) (j.arg - j.pos) j.pos
      ((j.runsAt s.cyc).mmaSlot j r).read = (.done s2, l)) :
    exec (.mma cl) s = .next (s2.endJob cl .mxe { (j.runsAt s.cyc).mmaSlot j r with read := l } (doneWord 0 0 0)) := by
  refine congrArg Host.Outcome.next ((mxeRun_runs h ok).trans ?_)
  generalize hkb : (if (j.runsAt s.cyc).read.isEmpty = true then (j.runsAt s.cyc).slot 64 else j.runsAt s.cyc) = kb
  rw [Job.runsAt_read] at hkb
  change (j.runsAt s.cyc).mmaBegin j = kb at hkb
  rw [hkb] at hk hr
  obtain ⟨fields, bad, read, slots⟩ : (∀ hi lo, kb.f hi lo = j.f hi lo) ∧ mmaBad kb = false ∧ kb.read = j.read ∧
      ∀ n, kb.slot n = (j.runsAt s.cyc).slot n := by
    obtain ⟨b, m, running⟩ := Job.runsAt_eq j s.cyc
    obtain ⟨m', begins⟩ := Job.mmaBegin_eq { j with begun := b, slotEnd := m } j
    rw [running, begins] at hkb
    rw [running, ← hkb]
    exact ⟨fun _ _ => rfl, good, rfl, fun _ => rfl⟩
  have same : (mmaBad kb || (s.used16 cl (j.f 223 216)).any (fun x => x.binary)) = false := by
    rw [bad, Bool.false_or, List.any_eq_false]
    exact fun x hx => ne_true_of_eq_false (codes x hx)
  simp only [same, fields, hk, State.headStep, hv, read, slots, Bool.not_true, Bool.false_eq_true, if_false]
  have slot : ((j.runsAt s.cyc).mmaSlot j r).arg = j.arg ∧ ((j.runsAt s.cyc).mmaSlot j r).pos = j.pos := by
    obtain ⟨b, m, running⟩ := Job.runsAt_eq j s.cyc
    obtain ⟨m', l', recorded⟩ := Job.mmaSlot_eq { j with begun := b, slotEnd := m } j r
    rw [running, recorded]
    exact ⟨rfl, rfl⟩
  rw [← slot.1, ← slot.2] at hr
  exact productRun_done hr
theorem mmab_letIn (h : s.Heads cl j .mxe .mmab) (ok : s.LetIn cl j) (good : mmaBad j = false) (zero : j.f 191 128 = 0)
    (bits : ∀ x ∈ s.used16 cl (j.f 223 216), x.fmt = none) :
    let t0 := if bit j.p 0 then Tile.clear else s.tile cl (j.f 215 208)
    (∀ s2 l, t0.ktotal + 1024 * j.f 223 216 ≤ 2 ^ 20 →
      s.rowsRead (fun u i => (u.jobReadN (j.runsAt s.cyc) pathMxe (ptrAdd (j.f 127 64) ((128 * j.f 223 216 * i : Nat) : Int))
        (128 * j.f 223 216)).bind fun u b => .ok u [b]) (j.arg - j.pos) j.pos j.read = (.done s2, l) →
      exec (.mmab cl) s = .next (s2.endJob cl .mxe { (j.runsAt s.cyc).slot (64 + 8 * j.f 231 224) with read := l } (doneWord 0 0 0))) ∧
    (2 ^ 20 < t0.ktotal + 1024 * j.f 223 216 →
      exec (.mmab cl) s = .next (s.endJob cl .mxe ((j.runsAt s.cyc).slot 64) (doneWord 0x17 0 0))) := by
  intro t0
  obtain ⟨b, m, running⟩ := Job.runsAt_eq j s.cyc
  have same : (mmaBad j || j.f 191 128 != 0 || (s.used16 cl (j.f 223 216)).any (fun x => x.fmt.isSome)) = false := by
    rw [Bool.or_eq_false_iff, Bool.or_eq_false_iff, List.any_eq_false]
    exact ⟨⟨good, by simpa using zero⟩, fun x hx => by simp [bits x hx]⟩
  refine ⟨fun s2 l fits hr => congrArg Host.Outcome.next ((mxeRun_runs h ok).trans ?_),
    fun over20 => congrArg Host.Outcome.next ((mxeRun_runs h ok).trans ?_)⟩
  · rw [running] at hr ⊢
    exact (if_neg (ne_true_of_eq_false same)).trans ((if_neg (Nat.not_lt.2 fits)).trans (productRun_done hr))
  · rw [running]
    exact (if_neg (ne_true_of_eq_false same)).trans (if_pos over20)

/-! ### The epilogue (R247) -/

theorem epiRun_done {t : Tile} (aligned : j.f 255 192 % 8 = 0) (ht : s.tile cl (j.f 263 256) = t)
    (hr : s.epiRows j (epiFmt (j.p % 8) r) t (if t.count = 0 then 0 else t.window) (recStride r) (j.f 271 264 - j.pos) j.pos = .done s1)
    (hw : s1.jobWrite j pathMxe (j.f 255 192) (bytesOfNat 8 t.counter) = .ok s2 ()) :
    s.epiRun cl j r = s2.endJob cl .mxe (j.goesOn (j.f 271 264)) (doneWord 0 0 0) := by
  unfold State.epiRun
  simp only [ht, beq_iff_eq, hr, aligned, bne_self_eq_false, Bool.false_eq_true, if_false, hw, State.headStep, State.mxeEnd]
theorem mepi_done (h : s.Heads cl j .mxe .mepi) (ok : s.LetIn cl j) (zero : j.f 383 272 = 0) (positive : 0 < j.f 271 264)
    (most : j.f 271 264 ≤ 128) (aligned : j.f 255 192 % 8 = 0)
    (hk : s.keptRecord ((j.runsAt s.cyc).slot (64 + 2 * j.f 271 264)) (j.f 191 128) = .ok s1 r)
    (hv : j.p % 8 = 3 → fmtValid (recDesc r) = true)
    (hr : s1.epiRows { (j.runsAt s.cyc).slot (64 + 2 * j.f 271 264) with read := [r] } (epiFmt (j.p % 8) r) (s1.tile cl (j.f 263 256))
      (if (s1.tile cl (j.f 263 256)).count = 0 then 0 else (s1.tile cl (j.f 263 256)).window) (recStride r) (j.f 271 264 - j.pos) j.pos =
        .done s2)
    (hw : s2.jobWrite { (j.runsAt s.cyc).slot (64 + 2 * j.f 271 264) with read := [r] } pathMxe (j.f 255 192)
      (bytesOfNat 8 (s1.tile cl (j.f 263 256)).counter) = .ok s3 ()) :
    exec (.mepi cl) s = .next (s3.endJob cl .mxe
      (Job.goesOn { (j.runsAt s.cyc).slot (64 + 2 * j.f 271 264) with read := [r] } (j.f 271 264)) (doneWord 0 0 0)) := by
  refine congrArg Host.Outcome.next ((mxeRun_runs h ok).trans ?_)
  obtain ⟨b, m, running⟩ := Job.runsAt_eq j s.cyc
  rw [running] at hk hr hw ⊢
  have passed : (j.f 383 272 != 0 || j.f 271 264 == 0 || decide (128 < j.f 271 264)) = false := by
    simp [zero, Nat.ne_of_gt positive, most]
  have valid : (j.p % 8 == 3 && !fmtValid (recDesc r)) = false := by
    by_cases typed : j.p % 8 = 3
    · simp [hv typed]
    · simp [typed]
  refine (if_neg (ne_true_of_eq_false passed)).trans ?_
  refine (congrArg (fun x => State.headStep cl .mxe _ pathMxe x _) hk).trans ?_
  exact (if_neg (ne_true_of_eq_false valid)).trans (epiRun_done aligned rfl hr hw)

end Sys2Proof.Machine
end

section
/-! PROOF. The pair frontier engine: traversals, sweeps, emission and retirement (O56). -/

namespace Sys2Proof.Machine

variable {s s1 s2 : State} {cl : Nat} {j j1 : Job}

/-! ### Traversals and sweeps (R251-R261) -/

theorem traverse_starts (h : s.Heads cl j .pfe .traverse) (first : j.pos = 0) : s.traverse cl = s.travStart cl j := by
  rw [State.traverse, onHead_runs h]
  simp only [first, beq_self_eq_true, if_true]
theorem traverse_decides {x : Nat × Nat} {y : Bool} {p : Pfe} (h : s.Heads cl j .pfe .traverse) (begun : j.pos ≠ 0)
    (may : j.pfe.mayDecide = true) (next : j.pfe.pop = some (x, y, p)) : s.traverse cl = s.travDecide cl j x y p := by
  rw [State.traverse, onHead_runs h]
  simp only [beq_iff_eq, begun, may, next, Bool.not_true, Bool.false_eq_true, if_false]
theorem traverse_ends (h : s.Heads cl j .pfe .traverse) (begun : j.pos ≠ 0) (may : j.pfe.mayDecide = true)
    (next : j.pfe.pop = none) (emitted : j.pfe.pending = [])
    (zeroes : s.jobWrite j pathPfe (travBag j) (List.replicate (16 * dCap j.pfe.desc) 0) = .ok s1 ()) :
    s.traverse cl = s1.pfeEnd cl j 0 := by
  rw [State.traverse, onHead_runs h]
  simp only [beq_iff_eq, begun, may, next, emitted, List.isEmpty_nil, zeroes, pfeRes, Bool.not_true, Bool.false_eq_true, if_false]

section
variable {up : Bool} (h : s.Heads cl j .pfe (if up then .sweepup else .sweepdn))
include h
theorem sweep_starts (first : j.pos = 0) : s.sweep cl up = s.sweepStart cl j up := by
  rw [State.sweep, onHead_runs h]
  simp only [first, beq_self_eq_true, if_true]
theorem sweep_counts (begun : 0 < j.pos) (more : j.pos ≤ dCountA j.pfe.desc) : s.sweep cl up = s.sweepInit cl j up (j.pos - 1) := by
  rw [State.sweep, onHead_runs h]
  simp only [beq_iff_eq, Nat.ne_of_gt begun, more, if_true, if_false]
/-- With its counters written, it walks its tree, and ends once nothing is outstanding. -/
theorem sweep_walks (counted : dCountA j.pfe.desc < j.pos) (may : j.pfe.mayVisit = true) :
    (∀ x k t, j.pfe.walk = (x, k) :: t → s.sweep cl up = s.sweepWalk cl j up x k t) ∧
      (j.pfe.walk = [] → j.pfe.pending = [] → j.pfe.tasks = [] → j.pfe.retired = [] → s.sweep cl up = s.pfeEnd cl j 0) := by
  rw [State.sweep, onHead_runs h]
  have begun : j.pos ≠ 0 := by omega
  simp only [beq_iff_eq, begun, Nat.not_le.2 counted, may, Bool.not_true, Bool.false_eq_true, if_false]
  exact ⟨fun x k t walk => by simp only [walk], fun walk pending tasks retired => by simp [walk, pending, tasks, retired]⟩
end
/-- The two sweeps are one function of the model. -/
theorem exec_sweep (up : Bool) (cl : Nat) (s : State) :
    exec (if up then .sweepup cl else .sweepdn cl) s = .next (s.sweep cl up) := by
  cases up <;> rfl

/-! ### Emission (R259) -/

section
variable {i n k : Nat} {x : Emit} (hh : (s.jobs cl .pfe).head? = some j) (hr : j.ready = true)
  (hx : j.pfe.pending[j.emitPlace n]? = some x)
include hh hr hx
/-- An entry claims its index, then its slot, then fills it. -/
theorem pfeEmit_entry : s.pfeEmit cl n =
    match x.slot with
    | none =>
      pfeRes cl j (s.claimIndex j (j.pfe.record x)) fun s k =>
        s.setHead cl .pfe (j.withPfe { j.pfe with pending := j.pfe.pending.set (j.emitPlace n) { x with slot := some k } })
    | some k =>
      if x.filling then s.emitEntry cl (j.emitPlace n) j x k
      else
        pfeRes cl j (s.claimSlot j (j.pfe.record x) k) fun s o =>
          match o with
          | none => s.setHead cl .pfe (j.withPfe j.pfe)
          | some j1 => s.emitEntry cl (j.emitPlace n) j1 x k := by
  unfold State.pfeEmit
  rw [hh]
  dsimp only
  rw [hr, hx] <;> rfl
theorem emit_claimsIndex (free : x.slot = none) (hc : s.claimIndex j (j.pfe.record x) = .ok s1 k) :
    s.pfeEmit cl n = s1.setHead cl .pfe (j.withPfe { j.pfe with
      pending := j.pfe.pending.take (j.emitPlace n) ++ { x with slot := some k } :: j.pfe.pending.drop (j.emitPlace n + 1) }) := by
  obtain ⟨inside, -⟩ := List.getElem?_eq_some_iff.1 hx
  rw [pfeEmit_entry hh hr hx, free]
  dsimp only
  rw [hc]
  dsimp only [pfeRes]
  rw [List.set_eq_take_append_cons_drop, if_pos inside]
/-- A slot that is not empty leaves the job where it was. -/
theorem emit_slotFull (claimed : x.slot = some k) (idle : x.filling = false)
    (hc : s.claimSlot j (j.pfe.record x) k = .ok s1 none) : s.pfeEmit cl n = s1.setHead cl .pfe (j.withPfe j.pfe) := by
  rw [pfeEmit_entry hh hr hx, claimed]
  dsimp only
  rw [if_neg (ne_true_of_eq_false idle), hc]
  rfl
theorem emit_fillsClaimed (claimed : x.slot = some k) (idle : x.filling = false)
    (hc : s.claimSlot j (j.pfe.record x) k = .ok s1 (some j1)) : s.pfeEmit cl n = s1.emitEntry cl (j.emitPlace n) j1 x k := by
  rw [pfeEmit_entry hh hr hx, claimed]
  dsimp only
  rw [if_neg (ne_true_of_eq_false idle), hc]
  rfl
theorem emit_goesOnFilling (claimed : x.slot = some k) (filling : x.filling = true) :
    s.pfeEmit cl n = s.emitEntry cl (j.emitPlace n) j x k := by
  rw [pfeEmit_entry hh hr hx, claimed]
  exact if_pos filling
end
/-- The pair frontier engine's part of a job once an entry has gone out. -/
def Pfe.emitted (p : Pfe) (i : Nat) (x : Emit) : Pfe :=
  { p with pending := p.pending.eraseIdx i, seqno := p.seqno + 1, tasks := if 2 ≤ x.kind then p.tasks ++ [x.a] else p.tasks }
/-- The entry, written and published, leaves the list of those that wait. -/
theorem emitEntry_done {i k : Nat} {x : Emit} (hf : s.fillSlot j (j.pfe.record x) x k = .ok s1 ()) :
    s.emitEntry cl i j x k = s1.setHead cl .pfe (j.withPfe (j.pfe.emitted i x)) := by
  have record : ∀ l, ({ j.pfe with pending := l } : Pfe).record x = j.pfe.record x := fun _ => rfl
  simp only [State.emitEntry, record, hf, pfeRes, List.eraseIdx_set_eq, Pfe.emitted]
theorem jobAcquire_pfe (s : State) (j : Job) (var : Nat) : (s.jobAcquire j var).pfe = j.pfe := by
  unfold State.jobAcquire
  split <;> rfl
/-- A claim of a slot changes what its job has acquired, and nothing of its engine's. -/
theorem claimSlot_pfe {r : BitVec 256} {k : Nat} (h : s.claimSlot j r k = .ok s1 (some j1)) : j1.pfe = j.pfe := by
  obtain ⟨t, l, -, ends⟩ := JRes.bind_eq_ok h
  split at ends
  · split at ends
    · cases ends
    · cases ends
      exact jobAcquire_pfe ..
  · cases ends

/-! ### Retirement (R261) -/

section
variable {x : Nat} {acq : Option Acq} {r : List (Nat × Option Acq)} (hh : (s.jobs cl .pfe).head? = some j) (hr : j.ready = true)
  (hx : j.pfe.retired = (x, acq) :: r)
include hh hr hx
theorem sweepDecrement_left {l : List Nat} (left : j.pfe.left = some l) : s.sweepDecrement cl = s.decAll cl acq j l := by
  simp only [State.sweepDecrement, hh, hr, hx, left, pfeRes]
theorem sweepDecrement_dependents {l : List Nat} (left : j.pfe.left = none) (hd : s.dependents j x = .ok s1 l) :
    s.sweepDecrement cl = s1.decAll cl acq j l := by
  simp only [State.sweepDecrement, hh, hr, hx, left, hd, pfeRes]
end
theorem decAll_nil (s : State) (cl : Nat) (acq : Option Acq) (j : Job) :
    s.decAll cl acq j [] = s.setHead cl .pfe (j.withPfe { j.pfe with retired := j.pfe.retired.drop 1, left := none }) := by
  rw [State.decAll]
theorem decAll_singleton {acq : Option Acq} {y : Nat} (left : j.pfe.left = some [y]) (hd : s.decOne j acq y = .ok s1 j1) :
    s.decAll cl acq j [y] = s1.setHead cl .pfe (j1.withPfe { j1.pfe with retired := j1.pfe.retired.drop 1, left := none }) := by
  have same : { j with pfe := { j.pfe with left := some [y] } } = j := by rw [← left]
  rw [State.decAll]
  dsimp only
  rw [same, hd]
  exact decAll_nil s1 cl acq j1

end Sys2Proof.Machine
end

section
/-! PROOF. What an engine does with its queue's head, assembled (O56). -/

namespace Sys2Proof.Machine

/-- Settles O56: each clause by the lemma about its command, its check or its access. -/
theorem engineEvents : Obligations.EngineEvents := by
  unfold Obligations.EngineEvents
  intro s cl n j heads ends leaves
  have answers : ∀ {i : Instr} {f t : State}, exec i s = .next f → f = t → exec i s = .next t := fun h e => h.trans (congrArg _ e)
  refine ⟨?waits, ?leaves, ?products, ?zset, ?copy, ?copyRow, ?gather, ?elements, ?raster, ?adds, ?refused, ?matrix, ?traverse,
    ?sweep, ?emission⟩
  case waits => exact fun e hh hc slot => jobCompletion_waits hh hc slot
  case leaves =>
    intro e w hh slot hp noClear noRow
    refine ⟨fun other => jobCompletion_leaves hh noClear noRow slot hp (mxeApply_none hp other) rfl, fun ended => ?_⟩
    subst ended
    obtain ⟨mma, mmab, mepi⟩ := mxeApply_ended (s := s) (cl := cl) hp
    refine ⟨fun hc => jobCompletion_leaves hh noClear noRow slot hp (mma hc) (jobs_putProduct ..),
      fun hc => jobCompletion_leaves hh noClear noRow slot hp (mmab hc) (jobs_putProduct ..),
      fun hc => jobCompletion_leaves hh noClear noRow slot hp (mepi hc) ?_⟩
    split
    · exact jobs_setTile ..
    · rfl
  case products =>
    obtain ⟨tile, zeroes⟩ := mmaOut_eq s cl j
    exact ⟨tile, zeroes, rfl⟩
  case zset => exact fun t hh hp slot => zset_completes hh hp slot
  case copy =>
    intro h rows here bad fails ahead
    have away : ¬bad → ¬here → s.copy cl = s.copyAway cl j := fun good there => (copy_runs h good).trans (if_neg there)
    have onDevice : ¬bad → here → s.copy cl = s.copyHere cl j := fun good here => (copy_runs h good).trans (if_pos here)
    refine ⟨fun refused => answers rfl (copy_refused h refused), fun good isHere r barred => ?_, fun w good isHere free slot done => ?_,
      fun w r st good isHere free failed => ?_, fun w b good there acked idle row read => ?_, fun st good there nack row => ?_,
      fun good there acked idle last slot => ?_, fun good there acked idle last slot => ?_⟩
    · exact answers rfl ((onDevice good isHere).trans (copyHere_barred barred))
    · exact answers rfl ((onDevice good isHere).trans (copyHere_done free slot done))
    · exact answers rfl ((onDevice good isHere).trans (copyHere_fails free failed))
    · have sends := (away good there).trans (copyAway_row acked idle row read)
      obtain ⟨passes, stops⟩ := sendChecked_eq w cl j (j.rowDst j.pos) (j.f 223 192) .w j.pos
        fun s => s.sendRow cl (j.goesOn j.pos) (j.rowDst j.pos) b
      exact ⟨fun free => answers rfl (sends.trans (passes free)), fun st out => answers rfl (sends.trans (stops st out))⟩
    · exact answers rfl ((away good there).trans (copyAway_nack nack row))
    · have sends := (away good there).trans (copyAway_slot acked idle last slot)
      obtain ⟨passes, stops⟩ := sendChecked_eq s cl j (j.f 383 320) 1 .rw 0 fun s => s.sendRow cl (j.goesOn j.pos) (j.f 383 320) []
      exact ⟨fun free => answers rfl (sends.trans (passes free)), fun st out => answers rfl (sends.trans (stops st out))⟩
    · exact answers rfl ((away good there).trans (copyAway_done acked idle last slot))
  case copyRow =>
    intro r m s0 s1 s2 s3 b ls ld n inv q hs hb hd hc free
    obtain ⟨core, c⟩ := exists_calm s
    exact ⟨copyRows_succ hc, (barredRow_keeps s j m r core).mem, copyRow_bytes inv q hs hb hd hc free⟩
  case gather =>
    intro h
    exact ⟨fun bad => answers rfl (gather_refused h bad), fun w good done => answers rfl ((gather_done h good).1 done),
      fun w i lv good done => answers rfl ((gather_done h good).2 i lv done)⟩
  case elements =>
    intro i m oob e
    refine ⟨fun s1 b lv ha aligned s2 s3 ld hl hw => ⟨gatherRun_succ ha aligned hw, fun inv q free => jobWrite_bytes inv q hl hw free⟩,
      fun lv x out => ⟨_, gatherAt_fills out, ?_, fun k hk => fillBytes_getD _ _ k hk⟩,
      fun lv x s1 v inside more aligned hr => gatherAt_descends inside more aligned hr,
      fun lv x s0 s1 b ls inside last aligned q hl hr => ?_⟩
    · simp [fillBytes, e]
    · obtain ⟨core, c⟩ := exists_calm s
      obtain ⟨kept, length, bytes⟩ := jobReadW_bytes q c hl hr
      exact ⟨gatherAt_reads inside last aligned hr, kept.mem, length, bytes⟩
  case raster =>
    intro h
    refine ⟨fun st first refused => answers rfl (raster_refused h first refused),
      fun w st first passed failed => answers rfl (raster_pointers h first passed failed), fun s1 from_ => ⟨fun w l i st hr => ?_,
      fun s2 s3 l hr ha => answers rfl ((raster_from h from_).2 hr ha)⟩⟩
    exact answers rfl ((raster_from (s3 := w) h from_).1 i st hr)
  case adds => exact fun segs s3 h uncounted inv => rasterAdd_words h uncounted inv
  case refused =>
    intro j1 p hp h new
    have refuses : ∀ f, (mxeHeadOk j = false → s.mxeRun cl p.1 f = s.endJob cl .mxe j1 (doneWord 0x01 0 0)) ∧
      (mxeHeadOk j = true → s.capOk cl j = false → s.mxeRun cl p.1 f = s.endJob cl .mxe j1 (doneWord 0x19 0 0)) :=
      fun f => mxeRun_refuses h new
    simp only [List.mem_cons, List.not_mem_nil, or_false] at hp
    obtain rfl | rfl | rfl | rfl | rfl := hp <;>
      exact ⟨fun bad => answers rfl ((refuses _).1 bad), fun good bad => answers rfl ((refuses _).2 good bad)⟩
  case matrix =>
    intro k slot ok
    refine ⟨fun s1 r s2 k2 h good hk hv hs hl => mloadw_done h ok good hk hv hs hl,
      fun s2 k2 h good zero hl => mloadb_done h ok good zero hl,
      fun s1 r s2 l h good codes hk hv hr => mma_done h ok good codes hk hv hr, fun h good zero bits => mmab_letIn h ok good zero bits,
      fun s1 r s2 s3 h zero positive most aligned hk hv hr hw => mepi_done h ok zero positive most aligned hk hv hr hw⟩
  case traverse =>
    intro h
    exact ⟨fun first => answers rfl (traverse_starts h first), fun begun may =>
      ⟨fun x y p pop => answers rfl (traverse_decides h begun may pop),
      fun s1 pop emitted zeroes => answers rfl (traverse_ends h begun may pop emitted zeroes)⟩⟩
  case sweep =>
    intro up h i
    have run : exec i s = .next (s.sweep cl up) := exec_sweep up cl s
    refine ⟨fun first => answers run (sweep_starts h first), fun begun more => answers run (sweep_counts h begun more),
      fun counted may => ⟨fun x k t walk => answers run ((sweep_walks h counted may).1 x k t walk),
        fun walk pending tasks retired => answers run ((sweep_walks h counted may).2 walk pending tasks retired)⟩⟩
  case emission =>
    intro hh hr m
    have place : j.emitPlace n = m := by
      unfold Job.emitPlace
      simp only [beq_iff_eq, m]
    rw [← place]
    refine ⟨fun x s1 k hx free hc => answers rfl (emit_claimsIndex hh hr hx free hc),
      fun x s1 k hx claimed idle hc => answers rfl (emit_slotFull hh hr hx claimed idle hc), fun x s1 s2 k j1 hx claimed idle hc => ?_,
      fun x s1 k hx claimed filling hf => answers rfl ((emit_goesOnFilling hh hr hx claimed filling).trans (emitEntry_done hf)),
      fun x acq r hx => ⟨fun left => ?_, fun y s1 j1 left hd => ?_, fun s1 l left hd => ?_⟩⟩
    · have same := claimSlot_pfe hc
      refine ⟨same, fun hf => answers rfl ((emit_fillsClaimed hh hr hx claimed idle hc).trans ?_)⟩
      rw [emitEntry_done (by rwa [same]), same]
      rfl
    · refine answers rfl ((sweepDecrement_left hh hr hx left).trans ((decAll_nil ..).trans ?_))
      rw [hx]
      rfl
    · exact answers rfl ((sweepDecrement_left hh hr hx left).trans (decAll_singleton left hd))
    · exact answers rfl (sweepDecrement_dependents hh hr hx left hd)

end Sys2Proof.Machine
end
